-- ==== Sys2Proof/Word.lean ====
section
/-!
DEFINITION. The word types of the machine (spec/00 R3, R5, R7; spec/09 R136).
-/
namespace Sys2Proof

/-- A code word: 128 bits (R136). -/
abbrev Word := BitVec 128
/-- A byte of memory (R7). -/
abbrev Byte := BitVec 8
/-- A 32-bit register element (R9). -/
abbrev W32 := BitVec 32
/-- A 64-bit register, address or special register (R9, R104, R146). -/
abbrev W64 := BitVec 64
/-- The architectural PC: bits 31:20 the overlay id, bits 19:0 the word offset (R136). -/
abbrev Pc := BitVec 32

end Sys2Proof
end

