-- ==== Sys2Proof/Syntax.lean ====
section
/-!
DEFINITION. The instructions and steps of the package: one constructor per row of the opcode table.
An encoded instruction carries the fields of its word (spec/09 R143, Table 9.3); a step of the machine
that has no encoding carries what it acts on, and, where the outside world decides a value, that value.
-/
namespace Sys2Proof

/-- The element types (Table 9.7), in the order of their codes. -/
inductive Ty where
  | b32 | i32 | n32 | i64 | n64 | i16x2 | n16x2 | i8x4 | n8x4 | f64 | f32 | f16x2 | bf16x2
  | e4m3x4 | e5m2x4 | t2x16
  deriving DecidableEq, Repr

/-- An operand of an instruction word (Table 9.4): a vector register, a scalar or sequencer register,
the immediate of IMM16, a predicate, an arrival counter, a team barrier, a stage ring, an operand slot,
or a special register. Every value is an encoding that R145 does not reserve. -/
inductive Operand where
  | v (i : BitVec 8) | s (i : BitVec 6) | imm | p (i : BitVec 4) | k (i : BitVec 4)
  | b (i : BitVec 4) | g (i : BitVec 3) | o (i : BitVec 6) | sr (i : BitVec 6)
  deriving DecidableEq, Repr

/-- The fields of an instruction word besides MAJOR and MINOR (Table 9.3). An operand position that the
instruction does not use holds kind 0 and byte 0 (R144), which is `.v 0`. -/
structure Enc where
  d : Operand
  a : Operand
  b : Operand
  c : Operand
  e : Operand
  gp : BitVec 4
  gpi : Bool
  gq : BitVec 4
  gqi : Bool
  ty : Ty
  rnd : BitVec 2
  sat : Bool
  wa : Bool
  wb : Bool
  wc : Bool
  we : Bool
  yld : Bool
  h1 : BitVec 2
  h2 : BitVec 2
  imm : BitVec 16
  md : BitVec 24
  deriving DecidableEq, Repr

/-- The mnemonics that have an encoding (Table 9.12, with the forms that MOD bits select). -/
inductive Op where
  | nop | exit | yield | sleep | trap | tret | srget | srset | replay | pfix | errinj | bra | bri
  | brany | brall | loop | call | calli | ret | callo | calloReg | reto | ovld | ovldF | ovwait
  | ovhold | ovdrop | ovquery | plogic | ptos | stop | ppopc | barSet | barSync | barArrive
  | barWait | syncl | stageInit | stagePost | stageTake | spmask | joinx | suspend | resume
  | codrop | coinfo | tkdone | tkadd | tkpeek | launch | regionOpen | regionClose | regionAbort
  | regionInfo | iadd | isub | iadd3 | iaddc | ineg | iabs | imul | imulh | imad | imadw | idiv
  | irem | imin | imax | icmp | sel | logic3 | shl | shr | sar | rol | ror | shf | bfx | bfi | popc
  | clz | ctz | brev | permb | lea | mov | movi | movh | i2i | dadd | dsub | dmul | dfma | ddiv
  | dsqrt | dmin | dmax | dround | fadd | fsub | fmul | ffma | fdiv | fsqrt | fmin | fmax | fround
  | hadd2 | hmul2 | hfma2 | hmin2 | hmax2 | dcmp | fcmp | hcmp2 | dclass | fclass | cvt | cvtp
  | scaleb | rcp | rsq | exp2 | log2 | sin | cos | rng | sigacc | shfl | bcast | vote | matchLanes
  | lred | lscan | ld | ldb | lds | st | stb | sts | cpaS | cpaG | cpaO | cptS | cptO | waitk
  | kset | kget | atom | atoms | red | dqpush | dqpop | dqsteal | monarm | monwait | fence | pref
  | cwb | cwbAll | cinv | cinvAll | slotClaim | slotRelease | slotReady | slotState | slotWrite
  | slotRead | mma | mmaCplx | mmaTern | gang | scacc | accZero | accLoad | accStore | accMove
  | seqLoopAdd | seqLoopMadd | seqLoopLdq | seqLoopStq | seqLoopFlags | seqEnd | bldBuild
  | bldRefit | bldRebal | bldPublish | bldStat | genPin | genUnpin | trace | probeSph | probeBox
  | hitAccept | hitIgnore | hitEnd | trvInfoWait | trvInfoCnt | trvInfoKind | collReduce
  | collBcast | collAllgather | collRscatter | collWait | collStatus
  deriving DecidableEq, Repr

/-- What a chunk of a collective says of its operation (R405): the SETID and the number of the operation on it, and all that
its members check against each other. -/
structure CollKey where
  setid : Nat
  n : Nat
  minor : Nat
  op : Nat
  ty : Ty
  sat : Bool
  count : Nat
  nleaves : Nat
  root : Nat
  /-- BASE, LB, POD and ACCID of each member entry -/
  entries : List (Nat × Nat × Nat × Nat)
  deriving DecidableEq, Repr

/-- The instructions: one constructor per row of spec/opcode_table.json, in its order; steps that only the world
outside the cores brings about come last. -/
inductive Instr where
  /-- NOP (R253) -/
  | nop (x : Enc)
  /-- EXIT (R254) -/
  | exit (x : Enc)
  /-- YIELD (R253) -/
  | yield (x : Enc)
  /-- SLEEP (R253) -/
  | sleep (x : Enc)
  /-- TRAP (R255) -/
  | trap (x : Enc)
  /-- TRET (R358) -/
  | tret (x : Enc)
  /-- SRGET (R257) -/
  | srget (x : Enc)
  /-- SRSET (R257) -/
  | srset (x : Enc)
  /-- REPLAY (R258) -/
  | replay (x : Enc)
  /-- PFIX (R259) -/
  | pfix (x : Enc)
  /-- ERRINJ (R260) -/
  | errinj (x : Enc)
  /-- BRA (R262) -/
  | bra (x : Enc)
  /-- BRI (R262) -/
  | bri (x : Enc)
  /-- BRANY (R262) -/
  | brany (x : Enc)
  /-- BRALL (R262) -/
  | brall (x : Enc)
  /-- LOOP (R262) -/
  | loop (x : Enc)
  /-- CALL (R263) -/
  | call (x : Enc)
  /-- CALLI (R263) -/
  | calli (x : Enc)
  /-- RET (R263) -/
  | ret (x : Enc)
  /-- CALLO (R269) -/
  | callo (x : Enc)
  /-- CALLO_REG (R269) -/
  | calloReg (x : Enc)
  /-- RETO (R269) -/
  | reto (x : Enc)
  /-- OVLD (R266) -/
  | ovld (x : Enc)
  /-- OVLD_F (R266) -/
  | ovldF (x : Enc)
  /-- OVERLAY_LOAD_COMPLETE (R266) -/
  | overlayLoadComplete (core ctx : Nat) (overlay : BitVec 12)
  /-- OVWAIT (R267) -/
  | ovwait (x : Enc)
  /-- OVHOLD (R268) -/
  | ovhold (x : Enc)
  /-- OVDROP (R268) -/
  | ovdrop (x : Enc)
  /-- OVQUERY (R267) -/
  | ovquery (x : Enc)
  /-- PLOGIC (R273) -/
  | plogic (x : Enc)
  /-- PTOS (R273) -/
  | ptos (x : Enc)
  /-- STOP (R273) -/
  | stop (x : Enc)
  /-- PPOPC (R273) -/
  | ppopc (x : Enc)
  /-- BAR_SET (R275) -/
  | barSet (x : Enc)
  /-- BAR_SYNC (R275) -/
  | barSync (x : Enc)
  /-- BAR_ARRIVE (R275) -/
  | barArrive (x : Enc)
  /-- BAR_WAIT (R275) -/
  | barWait (x : Enc)
  /-- SYNCL (R276) -/
  | syncl (x : Enc)
  /-- STAGE_INIT (R277) -/
  | stageInit (x : Enc)
  /-- STAGE_POST (R277) -/
  | stagePost (x : Enc)
  /-- STAGE_TAKE (R277) -/
  | stageTake (x : Enc)
  /-- SPMASK (R274) -/
  | spmask (x : Enc)
  /-- JOINX (R274) -/
  | joinx (x : Enc)
  /-- SPLIT_MERGE (R36) -/
  | splitMerge (gid : Nat) (target : BitVec 32)
  /-- SUSPEND (R283) -/
  | suspend (x : Enc)
  /-- RESUME (R287) -/
  | resume (x : Enc)
  /-- CODROP (R289) -/
  | codrop (x : Enc)
  /-- COINFO (R289) -/
  | coinfo (x : Enc)
  /-- TKDONE (R278) -/
  | tkdone (x : Enc)
  /-- TKADD (R279) -/
  | tkadd (x : Enc)
  /-- TKPEEK (R279) -/
  | tkpeek (x : Enc)
  /-- LAUNCH (R280) -/
  | launch (x : Enc)
  /-- REGION_OPEN (R281) -/
  | regionOpen (x : Enc)
  /-- REGION_BUDGET_GRANT (R54) -/
  | regionBudgetGrant (core : Nat)
  /-- REGION_CLOSE (R281) -/
  | regionClose (x : Enc)
  /-- REGION_COMMIT (R57) -/
  | regionCommit (gid : Nat)
  /-- REGION_ABORT (R282) -/
  | regionAbort (x : Enc)
  /-- REGION_INFO (R282) -/
  | regionInfo (x : Enc)
  /-- IADD (R178) -/
  | iadd (x : Enc)
  /-- ISUB (R178) -/
  | isub (x : Enc)
  /-- IADD3 (R178) -/
  | iadd3 (x : Enc)
  /-- IADDC (R179) -/
  | iaddc (x : Enc)
  /-- INEG (R178) -/
  | ineg (x : Enc)
  /-- IABS (R178) -/
  | iabs (x : Enc)
  /-- IMUL (R180) -/
  | imul (x : Enc)
  /-- IMULH (R180) -/
  | imulh (x : Enc)
  /-- IMAD (R180) -/
  | imad (x : Enc)
  /-- IMADW (R180) -/
  | imadw (x : Enc)
  /-- IDIV (R181) -/
  | idiv (x : Enc)
  /-- IREM (R181) -/
  | irem (x : Enc)
  /-- IMIN (R182) -/
  | imin (x : Enc)
  /-- IMAX (R182) -/
  | imax (x : Enc)
  /-- ICMP (R183) -/
  | icmp (x : Enc)
  /-- SEL (R184) -/
  | sel (x : Enc)
  /-- LOGIC3 (R185) -/
  | logic3 (x : Enc)
  /-- SHL (R186) -/
  | shl (x : Enc)
  /-- SHR (R186) -/
  | shr (x : Enc)
  /-- SAR (R186) -/
  | sar (x : Enc)
  /-- ROL (R186) -/
  | rol (x : Enc)
  /-- ROR (R186) -/
  | ror (x : Enc)
  /-- SHF (R187) -/
  | shf (x : Enc)
  /-- BFX (R188) -/
  | bfx (x : Enc)
  /-- BFI (R188) -/
  | bfi (x : Enc)
  /-- POPC (R189) -/
  | popc (x : Enc)
  /-- CLZ (R189) -/
  | clz (x : Enc)
  /-- CTZ (R189) -/
  | ctz (x : Enc)
  /-- BREV (R189) -/
  | brev (x : Enc)
  /-- PERMB (R190) -/
  | permb (x : Enc)
  /-- LEA (R191) -/
  | lea (x : Enc)
  /-- MOV (R192) -/
  | mov (x : Enc)
  /-- MOVI (R192) -/
  | movi (x : Enc)
  /-- MOVH (R192) -/
  | movh (x : Enc)
  /-- I2I (R193) -/
  | i2i (x : Enc)
  /-- DADD (R195) -/
  | dadd (x : Enc)
  /-- DSUB (R195) -/
  | dsub (x : Enc)
  /-- DMUL (R195) -/
  | dmul (x : Enc)
  /-- DFMA (R195) -/
  | dfma (x : Enc)
  /-- DDIV (R195) -/
  | ddiv (x : Enc)
  /-- DSQRT (R195) -/
  | dsqrt (x : Enc)
  /-- DMIN (R197) -/
  | dmin (x : Enc)
  /-- DMAX (R197) -/
  | dmax (x : Enc)
  /-- DROUND (R196) -/
  | dround (x : Enc)
  /-- FADD (R195) -/
  | fadd (x : Enc)
  /-- FSUB (R195) -/
  | fsub (x : Enc)
  /-- FMUL (R195) -/
  | fmul (x : Enc)
  /-- FFMA (R195) -/
  | ffma (x : Enc)
  /-- FDIV (R195) -/
  | fdiv (x : Enc)
  /-- FSQRT (R195) -/
  | fsqrt (x : Enc)
  /-- FMIN (R197) -/
  | fmin (x : Enc)
  /-- FMAX (R197) -/
  | fmax (x : Enc)
  /-- FROUND (R196) -/
  | fround (x : Enc)
  /-- HADD2 (R195) -/
  | hadd2 (x : Enc)
  /-- HMUL2 (R195) -/
  | hmul2 (x : Enc)
  /-- HFMA2 (R195) -/
  | hfma2 (x : Enc)
  /-- HMIN2 (R197) -/
  | hmin2 (x : Enc)
  /-- HMAX2 (R197) -/
  | hmax2 (x : Enc)
  /-- DCMP (R198) -/
  | dcmp (x : Enc)
  /-- FCMP (R198) -/
  | fcmp (x : Enc)
  /-- HCMP2 (R198) -/
  | hcmp2 (x : Enc)
  /-- DCLASS (R199) -/
  | dclass (x : Enc)
  /-- FCLASS (R199) -/
  | fclass (x : Enc)
  /-- CVT (R200) -/
  | cvt (x : Enc)
  /-- CVTP (R201) -/
  | cvtp (x : Enc)
  /-- SCALEB (R202) -/
  | scaleb (x : Enc)
  /-- RCP (R203) -/
  | rcp (x : Enc)
  /-- RSQ (R203) -/
  | rsq (x : Enc)
  /-- EXP2 (R203) -/
  | exp2 (x : Enc)
  /-- LOG2 (R203) -/
  | log2 (x : Enc)
  /-- SIN (R203) -/
  | sin (x : Enc)
  /-- COS (R203) -/
  | cos (x : Enc)
  /-- RNG (R204) -/
  | rng (x : Enc)
  /-- SIGACC (R205) -/
  | sigacc (x : Enc)
  /-- SHFL (R207) -/
  | shfl (x : Enc)
  /-- BCAST (R208) -/
  | bcast (x : Enc)
  /-- VOTE (R209) -/
  | vote (x : Enc)
  /-- MATCH (R210) -/
  | matchLanes (x : Enc)
  /-- LRED (R211) -/
  | lred (x : Enc)
  /-- LSCAN (R212) -/
  | lscan (x : Enc)
  /-- LD (R224) -/
  | ld (x : Enc)
  /-- LDB (R226) -/
  | ldb (x : Enc)
  /-- LDS (R227) -/
  | lds (x : Enc)
  /-- ST (R225) -/
  | st (x : Enc)
  /-- STB (R226) -/
  | stb (x : Enc)
  /-- STS (R227) -/
  | sts (x : Enc)
  /-- CPA_S (R231) -/
  | cpaS (x : Enc)
  /-- CPA_G (R231) -/
  | cpaG (x : Enc)
  /-- CPA_O (R231) -/
  | cpaO (x : Enc)
  /-- CPT_S (R232) -/
  | cptS (x : Enc)
  /-- CPT_O (R232) -/
  | cptO (x : Enc)
  /-- COPY_PART_LAND (R130) -/
  | copyPartLand (copy part : Nat)
  /-- WAITK (R229) -/
  | waitk (x : Enc)
  /-- KSET (R229) -/
  | kset (x : Enc)
  /-- KGET (R229) -/
  | kget (x : Enc)
  /-- ATOM (R235) -/
  | atom (x : Enc)
  /-- ATOMS (R235) -/
  | atoms (x : Enc)
  /-- RED (R235) -/
  | red (x : Enc)
  /-- DQPUSH (R237) -/
  | dqpush (x : Enc)
  /-- DQPOP (R237) -/
  | dqpop (x : Enc)
  /-- DQSTEAL (R237) -/
  | dqsteal (x : Enc)
  /-- MONARM (R239) -/
  | monarm (x : Enc)
  /-- MONWAIT (R240) -/
  | monwait (x : Enc)
  /-- MONWAIT_TIMEOUT (R240) -/
  | monwaitTimeout (gid split : Nat)
  /-- FENCE (R242) -/
  | fence (x : Enc)
  /-- PREF (R243) -/
  | pref (x : Enc)
  /-- CWB (R244) -/
  | cwb (x : Enc)
  /-- CWB_ALL (R244) -/
  | cwbAll (x : Enc)
  /-- CINV (R244) -/
  | cinv (x : Enc)
  /-- CINV_ALL (R244) -/
  | cinvAll (x : Enc)
  /-- SLOT_CLAIM (R303) -/
  | slotClaim (x : Enc)
  /-- SLOT_RELEASE (R303) -/
  | slotRelease (x : Enc)
  /-- SLOT_READY (R303) -/
  | slotReady (x : Enc)
  /-- SLOT_DRAIN_END (R297) -/
  | slotDrainEnd (team side slot : Nat)
  /-- SLOT_STATE (R303) -/
  | slotState (x : Enc)
  /-- SLOT_WRITE (R304) -/
  | slotWrite (x : Enc)
  /-- SLOT_READ (R305) -/
  | slotRead (x : Enc)
  /-- MMA (R307) -/
  | mma (x : Enc)
  /-- MMA_CPLX (R307) -/
  | mmaCplx (x : Enc)
  /-- MMA_TERN (R307) -/
  | mmaTern (x : Enc)
  /-- GANG (R308) -/
  | gang (x : Enc)
  /-- ARRAY_STEP (R317) -/
  | arrayStep (team side : Nat) (residueError : Bool)
  /-- SCACC (R309) -/
  | scacc (x : Enc)
  /-- ACC_ZERO (R310) -/
  | accZero (x : Enc)
  /-- ACC_LOAD (R310) -/
  | accLoad (x : Enc)
  /-- ACC_STORE (R310) -/
  | accStore (x : Enc)
  /-- ACC_MOVE (R311) -/
  | accMove (x : Enc)
  /-- SEQ_LOOP_ADD (R314) -/
  | seqLoopAdd (x : Enc)
  /-- SEQ_LOOP_MADD (R314) -/
  | seqLoopMadd (x : Enc)
  /-- SEQ_LOOP_LDQ (R314) -/
  | seqLoopLdq (x : Enc)
  /-- SEQ_LOOP_STQ (R314) -/
  | seqLoopStq (x : Enc)
  /-- SEQ_LOOP_FLAGS (R314) -/
  | seqLoopFlags (x : Enc)
  /-- SEQ_END (R313) -/
  | seqEnd (x : Enc)
  /-- BLD_BUILD (R383) -/
  | bldBuild (x : Enc)
  /-- BLD_REFIT (R372) -/
  | bldRefit (x : Enc)
  /-- BLD_REBAL (R372) -/
  | bldRebal (x : Enc)
  /-- BLD_PUBLISH (R374) -/
  | bldPublish (x : Enc)
  /-- TAILOR_OPERATION_END (R383) -/
  | tailorOperationEnd (op : Nat)
  /-- BLD_STAT (R385) -/
  | bldStat (x : Enc)
  /-- GEN_PIN (R386) -/
  | genPin (x : Enc)
  /-- GEN_UNPIN (R386) -/
  | genUnpin (x : Enc)
  /-- TRACE (R387) -/
  | trace (x : Enc)
  /-- PROBE_SPH (R388) -/
  | probeSph (x : Enc)
  /-- PROBE_BOX (R388) -/
  | probeBox (x : Enc)
  /-- SHADER_DISPATCH (R390) -/
  | shaderDispatch (trav : Nat) (kind : Nat)
  /-- TRAVERSAL_COMPLETE (R387) -/
  | traversalComplete (trav : Nat)
  /-- HIT_ACCEPT (R391) -/
  | hitAccept (x : Enc)
  /-- HIT_IGNORE (R391) -/
  | hitIgnore (x : Enc)
  /-- HIT_END (R391) -/
  | hitEnd (x : Enc)
  /-- TRV_INFO_WAIT (R387) -/
  | trvInfoWait (x : Enc)
  /-- TRV_INFO_CNT (R387) -/
  | trvInfoCnt (x : Enc)
  /-- TRV_INFO_KIND (R387) -/
  | trvInfoKind (x : Enc)
  /-- COLL_REDUCE (R408) -/
  | collReduce (x : Enc)
  /-- COLL_BCAST (R408) -/
  | collBcast (x : Enc)
  /-- COLL_ALLGATHER (R408) -/
  | collAllgather (x : Enc)
  /-- COLL_RSCATTER (R408) -/
  | collRscatter (x : Enc)
  /-- COLL_WAIT (R412) -/
  | collWait (x : Enc)
  /-- COLL_STATUS (R412) -/
  | collStatus (x : Enc)
  /-- QUEUE_TAIL_WRITE (R422) -/
  | queueTailWrite (part queue : Nat)
  /-- LAUNCH_PACKET (R67) -/
  | launchPacket (part queue : Nat)
  /-- TEAM_PLACE (R69) -/
  | teamPlace (part launch : Nat)
  /-- FENCE_PACKET (R67) -/
  | fencePacket (part queue : Nat)
  /-- FENCE_PACKET_PERFORM (R67) -/
  | fencePacketPerform (part queue : Nat)
  /-- SIGNAL_PACKET (R67) -/
  | signalPacket (part queue : Nat)
  /-- CHAIN_END (R122) -/
  | chainEnd (part queue : Nat)
  /-- TASKS_PACKET (R61) -/
  | tasksPacket (part queue : Nat)
  /-- TASK_DISPATCH (R64) -/
  | taskDispatch (part : Nat)
  /-- TASK_DECREMENT (R62) -/
  | taskDecrement (part : Nat)
  /-- QUEUE_STATUS_WRITE (R422) -/
  | queueStatusWrite (part queue : Nat)
  /-- REGISTER_WRITE_BACK (R153) -/
  | registerWriteBack (gid producer : Nat)
  /-- STORE_QUEUE_DRAIN (R222) -/
  | storeQueueDrain (gid : Nat)
  /-- L2_SLICE_REQUEST (R120) -/
  | l2SliceRequest (slice : Nat)
  /-- EVENT_DELIVERY (R354) -/
  | eventDelivery (gid : Nat)
  /-- UNIT_HALT_STOP (R361) -/
  | unitHaltStop (part : Nat) (skid : BitVec 32)
  /-- PREEMPT_STOP_ACK (R363) -/
  | preemptStopAck (part team : Nat)
  /-- PREEMPT_SAVE (R364) -/
  | preemptSave (part : Nat)
  /-- PREEMPT_RESTORE (R365) -/
  | preemptRestore (part launch : Nat)
  /-- RESERVE_CORE_JOB_START (R27) -/
  | reserveCoreJobStart (cluster : Nat)
  /-- DARNER_HAND_BACK (R329) -/
  | darnerHandBack (job : Nat)
  /-- AUDIT_RUN_END (R339) -/
  | auditRunEnd (job : Nat)
  /-- TLBI_DONE (R112) -/
  | tlbiDone (part : Nat)
  /-- COLL_CHUNK_ARRIVAL (R406) -/
  | collChunkArrival (part member chunk : Nat) (key : CollKey) (data : List (BitVec 64)) (poisoned : List Nat)
  /-- COLL_MEMBER_TIMEOUT (R407) -/
  | collMemberTimeout (op member : Nat)
  /-- COLL_OPERATION_END (R408) -/
  | collOperationEnd (op : Nat) (lost : List Nat)
  /-- QUEUE_DESCRIPTOR_WRITE (R422) -/
  | queueDescriptorWrite (part queue word : Nat) (value : BitVec 64)
  /-- DIRTY_LINE_TIMEOUT (R116) -/
  | dirtyLineTimeout (core line : Nat)
  /-- PAGE_WALK (R109) -/
  | pageWalk (core part ctx : Nat) (va : BitVec 64)
  /-- HBM_REQUEST (R347) -/
  | hbmRequest (channel : Nat) (activates : Bool) (ns : Nat) (lanesLost : List Nat)
  /-- RFM_THRESHOLD (R348) -/
  | rfmThreshold (channel bank : Nat)
  /-- RFM_HOLD_END (R348) -/
  | rfmHoldEnd (channel bank : Nat) (ns : Nat)
  /-- REFRESH_WINDOW_END (R347) -/
  | refreshWindowEnd (channel bank : Nat)
  /-- UALINK_MEMORY_REQUEST (R399) -/
  | ualinkMemoryRequest (source : BitVec 10) (kind : Nat) (address : BitVec 41) (data : List (BitVec 8))
  /-- UALINK_APPEND (R400) -/
  | ualinkAppend (source : BitVec 10) (part queue : Nat) (data : List (BitVec 8))
  /-- LINK_LEVEL_RETRY (R133) -/
  | linkLevelRetry (port : Nat) (flit : Nat)
  /-- RDMA_WRITE (R395) -/
  | rdmaWrite (part : Nat) (rkey : BitVec 32) (address : BitVec 64) (data : List (BitVec 8))
  /-- RDMA_READ (R395) -/
  | rdmaRead (part : Nat) (rkey : BitVec 32) (address : BitVec 64) (length : Nat)
  /-- UD_SEND (R396) -/
  | udSend (part : Nat) (qpn : BitVec 24) (data : List (BitVec 8))
  /-- TEST_PERIOD_EXPIRY (R342) -/
  | testPeriodExpiry (part cluster : Nat)
  /-- IN_FIELD_TEST_END (R342) -/
  | inFieldTestEnd (cluster : Nat) (pass : Bool)
  /-- CORE_RETIRE (R29) -/
  | coreRetire (core : Nat)
  /-- SLICE_RETIRE (R30) -/
  | sliceRetire (core slice : Nat)
  /-- WAY_RETIRE (R344) -/
  | wayRetire (l2 : Bool) (unit set way : Nat)
  /-- ROW_REMAP (R344) -/
  | rowRemap (channel group row spare : Nat)
  /-- DQ_REPAIR (R345) -/
  | dqRepair (channel lane : Nat)
  /-- RETRAIN_COMPLETE (R345) -/
  | retrainComplete (channel : Nat)
  /-- PIN_REPAIR_TIMEOUT (R345) -/
  | pinRepairTimeout (channel : Nat)
  /-- TLBI_CTL_WRITE (R420) -/
  | tlbiCtlWrite (part : Nat) (value : BitVec 64)
  /-- HALT_REQUEST (R423) -/
  | haltRequest (part : Nat) (cause : BitVec 8)
  /-- RELEASE (R424) -/
  | release (part : Nat)
  /-- FR_HEAD_WRITE (R421) -/
  | frHeadWrite (part : Nat) (value : BitVec 64)
  /-- FR_BASE_WRITE (R421) -/
  | frBaseWrite (part : Nat) (value : BitVec 64)
  /-- COUNTER_CLEAR (R350) -/
  | counterClear (part offset : Nat) (value : BitVec 64)
  /-- REGISTER_WRITE (R418) -/
  | registerWrite (part offset : Nat) (value : BitVec 64)
  /-- LAYOUT (R415) -/
  | layout (signed : Bool) (seq : BitVec 64) (part : Nat) (clusters sliceGroups : BitVec 32) (halfStacks : BitVec 24) (ethShare ualShare : BitVec 8)
  /-- STAGE (R428) -/
  | stage (signed : Bool) (seq : BitVec 64) (image : List (BitVec 8)) (version : Nat) (verified : Bool)
  /-- ACTIVATE (R428) -/
  | activate (signed : Bool) (seq : BitVec 64)
  /-- QUOTE (R429) -/
  | quote (signed : Bool) (seq : BitVec 64) (nonce : BitVec 256)
  /-- LOG (R427) -/
  | log (signed : Bool) (seq : BitVec 64) (index : Nat)
  /-- POWER (R430) -/
  | power (signed : Bool) (seq : BitVec 64) (watts : Nat)
  /-- TEST (R252) -/
  | test (signed : Bool) (seq : BitVec 64) (part : Nat) (on : Bool)
  /-- POWER_ON_RESET (R428) -/
  | powerOnReset (bootsA bootsB : Bool)
  /-- CLOCK_THROTTLE (R430) -/
  | clockThrottle (watts temp : Nat) (throttleLine : Bool)
  /-- OVERTEMP_SHUTDOWN (R430) -/
  | overtempShutdown (die : Nat)
  /-- UNIT_READY (R431) -/
  | unitReady (word bit : Nat)
  /-- UALINK_ERROR_RESPONSE (R399) -/
  | ualinkErrorResponse (request : Nat)
  /-- UNSUPPORTED_ETHERNET_FRAME (R394) -/
  | unsupportedEthernetFrame
  deriving DecidableEq, Repr

/-- The encoded instruction of a mnemonic. -/
def Instr.ofOp (x : Enc) : Op → Instr
  | .nop => .nop x
  | .exit => .exit x
  | .yield => .yield x
  | .sleep => .sleep x
  | .trap => .trap x
  | .tret => .tret x
  | .srget => .srget x
  | .srset => .srset x
  | .replay => .replay x
  | .pfix => .pfix x
  | .errinj => .errinj x
  | .bra => .bra x
  | .bri => .bri x
  | .brany => .brany x
  | .brall => .brall x
  | .loop => .loop x
  | .call => .call x
  | .calli => .calli x
  | .ret => .ret x
  | .callo => .callo x
  | .calloReg => .calloReg x
  | .reto => .reto x
  | .ovld => .ovld x
  | .ovldF => .ovldF x
  | .ovwait => .ovwait x
  | .ovhold => .ovhold x
  | .ovdrop => .ovdrop x
  | .ovquery => .ovquery x
  | .plogic => .plogic x
  | .ptos => .ptos x
  | .stop => .stop x
  | .ppopc => .ppopc x
  | .barSet => .barSet x
  | .barSync => .barSync x
  | .barArrive => .barArrive x
  | .barWait => .barWait x
  | .syncl => .syncl x
  | .stageInit => .stageInit x
  | .stagePost => .stagePost x
  | .stageTake => .stageTake x
  | .spmask => .spmask x
  | .joinx => .joinx x
  | .suspend => .suspend x
  | .resume => .resume x
  | .codrop => .codrop x
  | .coinfo => .coinfo x
  | .tkdone => .tkdone x
  | .tkadd => .tkadd x
  | .tkpeek => .tkpeek x
  | .launch => .launch x
  | .regionOpen => .regionOpen x
  | .regionClose => .regionClose x
  | .regionAbort => .regionAbort x
  | .regionInfo => .regionInfo x
  | .iadd => .iadd x
  | .isub => .isub x
  | .iadd3 => .iadd3 x
  | .iaddc => .iaddc x
  | .ineg => .ineg x
  | .iabs => .iabs x
  | .imul => .imul x
  | .imulh => .imulh x
  | .imad => .imad x
  | .imadw => .imadw x
  | .idiv => .idiv x
  | .irem => .irem x
  | .imin => .imin x
  | .imax => .imax x
  | .icmp => .icmp x
  | .sel => .sel x
  | .logic3 => .logic3 x
  | .shl => .shl x
  | .shr => .shr x
  | .sar => .sar x
  | .rol => .rol x
  | .ror => .ror x
  | .shf => .shf x
  | .bfx => .bfx x
  | .bfi => .bfi x
  | .popc => .popc x
  | .clz => .clz x
  | .ctz => .ctz x
  | .brev => .brev x
  | .permb => .permb x
  | .lea => .lea x
  | .mov => .mov x
  | .movi => .movi x
  | .movh => .movh x
  | .i2i => .i2i x
  | .dadd => .dadd x
  | .dsub => .dsub x
  | .dmul => .dmul x
  | .dfma => .dfma x
  | .ddiv => .ddiv x
  | .dsqrt => .dsqrt x
  | .dmin => .dmin x
  | .dmax => .dmax x
  | .dround => .dround x
  | .fadd => .fadd x
  | .fsub => .fsub x
  | .fmul => .fmul x
  | .ffma => .ffma x
  | .fdiv => .fdiv x
  | .fsqrt => .fsqrt x
  | .fmin => .fmin x
  | .fmax => .fmax x
  | .fround => .fround x
  | .hadd2 => .hadd2 x
  | .hmul2 => .hmul2 x
  | .hfma2 => .hfma2 x
  | .hmin2 => .hmin2 x
  | .hmax2 => .hmax2 x
  | .dcmp => .dcmp x
  | .fcmp => .fcmp x
  | .hcmp2 => .hcmp2 x
  | .dclass => .dclass x
  | .fclass => .fclass x
  | .cvt => .cvt x
  | .cvtp => .cvtp x
  | .scaleb => .scaleb x
  | .rcp => .rcp x
  | .rsq => .rsq x
  | .exp2 => .exp2 x
  | .log2 => .log2 x
  | .sin => .sin x
  | .cos => .cos x
  | .rng => .rng x
  | .sigacc => .sigacc x
  | .shfl => .shfl x
  | .bcast => .bcast x
  | .vote => .vote x
  | .matchLanes => .matchLanes x
  | .lred => .lred x
  | .lscan => .lscan x
  | .ld => .ld x
  | .ldb => .ldb x
  | .lds => .lds x
  | .st => .st x
  | .stb => .stb x
  | .sts => .sts x
  | .cpaS => .cpaS x
  | .cpaG => .cpaG x
  | .cpaO => .cpaO x
  | .cptS => .cptS x
  | .cptO => .cptO x
  | .waitk => .waitk x
  | .kset => .kset x
  | .kget => .kget x
  | .atom => .atom x
  | .atoms => .atoms x
  | .red => .red x
  | .dqpush => .dqpush x
  | .dqpop => .dqpop x
  | .dqsteal => .dqsteal x
  | .monarm => .monarm x
  | .monwait => .monwait x
  | .fence => .fence x
  | .pref => .pref x
  | .cwb => .cwb x
  | .cwbAll => .cwbAll x
  | .cinv => .cinv x
  | .cinvAll => .cinvAll x
  | .slotClaim => .slotClaim x
  | .slotRelease => .slotRelease x
  | .slotReady => .slotReady x
  | .slotState => .slotState x
  | .slotWrite => .slotWrite x
  | .slotRead => .slotRead x
  | .mma => .mma x
  | .mmaCplx => .mmaCplx x
  | .mmaTern => .mmaTern x
  | .gang => .gang x
  | .scacc => .scacc x
  | .accZero => .accZero x
  | .accLoad => .accLoad x
  | .accStore => .accStore x
  | .accMove => .accMove x
  | .seqLoopAdd => .seqLoopAdd x
  | .seqLoopMadd => .seqLoopMadd x
  | .seqLoopLdq => .seqLoopLdq x
  | .seqLoopStq => .seqLoopStq x
  | .seqLoopFlags => .seqLoopFlags x
  | .seqEnd => .seqEnd x
  | .bldBuild => .bldBuild x
  | .bldRefit => .bldRefit x
  | .bldRebal => .bldRebal x
  | .bldPublish => .bldPublish x
  | .bldStat => .bldStat x
  | .genPin => .genPin x
  | .genUnpin => .genUnpin x
  | .trace => .trace x
  | .probeSph => .probeSph x
  | .probeBox => .probeBox x
  | .hitAccept => .hitAccept x
  | .hitIgnore => .hitIgnore x
  | .hitEnd => .hitEnd x
  | .trvInfoWait => .trvInfoWait x
  | .trvInfoCnt => .trvInfoCnt x
  | .trvInfoKind => .trvInfoKind x
  | .collReduce => .collReduce x
  | .collBcast => .collBcast x
  | .collAllgather => .collAllgather x
  | .collRscatter => .collRscatter x
  | .collWait => .collWait x
  | .collStatus => .collStatus x

/-- The mnemonic and the fields of an encoded instruction; none for a step without an encoding. -/
def Instr.enc? : Instr → Option (Op × Enc)
  | .nop x => some (.nop, x)
  | .exit x => some (.exit, x)
  | .yield x => some (.yield, x)
  | .sleep x => some (.sleep, x)
  | .trap x => some (.trap, x)
  | .tret x => some (.tret, x)
  | .srget x => some (.srget, x)
  | .srset x => some (.srset, x)
  | .replay x => some (.replay, x)
  | .pfix x => some (.pfix, x)
  | .errinj x => some (.errinj, x)
  | .bra x => some (.bra, x)
  | .bri x => some (.bri, x)
  | .brany x => some (.brany, x)
  | .brall x => some (.brall, x)
  | .loop x => some (.loop, x)
  | .call x => some (.call, x)
  | .calli x => some (.calli, x)
  | .ret x => some (.ret, x)
  | .callo x => some (.callo, x)
  | .calloReg x => some (.calloReg, x)
  | .reto x => some (.reto, x)
  | .ovld x => some (.ovld, x)
  | .ovldF x => some (.ovldF, x)
  | .overlayLoadComplete _ _ _ => none
  | .ovwait x => some (.ovwait, x)
  | .ovhold x => some (.ovhold, x)
  | .ovdrop x => some (.ovdrop, x)
  | .ovquery x => some (.ovquery, x)
  | .plogic x => some (.plogic, x)
  | .ptos x => some (.ptos, x)
  | .stop x => some (.stop, x)
  | .ppopc x => some (.ppopc, x)
  | .barSet x => some (.barSet, x)
  | .barSync x => some (.barSync, x)
  | .barArrive x => some (.barArrive, x)
  | .barWait x => some (.barWait, x)
  | .syncl x => some (.syncl, x)
  | .stageInit x => some (.stageInit, x)
  | .stagePost x => some (.stagePost, x)
  | .stageTake x => some (.stageTake, x)
  | .spmask x => some (.spmask, x)
  | .joinx x => some (.joinx, x)
  | .splitMerge _ _ => none
  | .suspend x => some (.suspend, x)
  | .resume x => some (.resume, x)
  | .codrop x => some (.codrop, x)
  | .coinfo x => some (.coinfo, x)
  | .tkdone x => some (.tkdone, x)
  | .tkadd x => some (.tkadd, x)
  | .tkpeek x => some (.tkpeek, x)
  | .launch x => some (.launch, x)
  | .regionOpen x => some (.regionOpen, x)
  | .regionBudgetGrant _ => none
  | .regionClose x => some (.regionClose, x)
  | .regionCommit _ => none
  | .regionAbort x => some (.regionAbort, x)
  | .regionInfo x => some (.regionInfo, x)
  | .iadd x => some (.iadd, x)
  | .isub x => some (.isub, x)
  | .iadd3 x => some (.iadd3, x)
  | .iaddc x => some (.iaddc, x)
  | .ineg x => some (.ineg, x)
  | .iabs x => some (.iabs, x)
  | .imul x => some (.imul, x)
  | .imulh x => some (.imulh, x)
  | .imad x => some (.imad, x)
  | .imadw x => some (.imadw, x)
  | .idiv x => some (.idiv, x)
  | .irem x => some (.irem, x)
  | .imin x => some (.imin, x)
  | .imax x => some (.imax, x)
  | .icmp x => some (.icmp, x)
  | .sel x => some (.sel, x)
  | .logic3 x => some (.logic3, x)
  | .shl x => some (.shl, x)
  | .shr x => some (.shr, x)
  | .sar x => some (.sar, x)
  | .rol x => some (.rol, x)
  | .ror x => some (.ror, x)
  | .shf x => some (.shf, x)
  | .bfx x => some (.bfx, x)
  | .bfi x => some (.bfi, x)
  | .popc x => some (.popc, x)
  | .clz x => some (.clz, x)
  | .ctz x => some (.ctz, x)
  | .brev x => some (.brev, x)
  | .permb x => some (.permb, x)
  | .lea x => some (.lea, x)
  | .mov x => some (.mov, x)
  | .movi x => some (.movi, x)
  | .movh x => some (.movh, x)
  | .i2i x => some (.i2i, x)
  | .dadd x => some (.dadd, x)
  | .dsub x => some (.dsub, x)
  | .dmul x => some (.dmul, x)
  | .dfma x => some (.dfma, x)
  | .ddiv x => some (.ddiv, x)
  | .dsqrt x => some (.dsqrt, x)
  | .dmin x => some (.dmin, x)
  | .dmax x => some (.dmax, x)
  | .dround x => some (.dround, x)
  | .fadd x => some (.fadd, x)
  | .fsub x => some (.fsub, x)
  | .fmul x => some (.fmul, x)
  | .ffma x => some (.ffma, x)
  | .fdiv x => some (.fdiv, x)
  | .fsqrt x => some (.fsqrt, x)
  | .fmin x => some (.fmin, x)
  | .fmax x => some (.fmax, x)
  | .fround x => some (.fround, x)
  | .hadd2 x => some (.hadd2, x)
  | .hmul2 x => some (.hmul2, x)
  | .hfma2 x => some (.hfma2, x)
  | .hmin2 x => some (.hmin2, x)
  | .hmax2 x => some (.hmax2, x)
  | .dcmp x => some (.dcmp, x)
  | .fcmp x => some (.fcmp, x)
  | .hcmp2 x => some (.hcmp2, x)
  | .dclass x => some (.dclass, x)
  | .fclass x => some (.fclass, x)
  | .cvt x => some (.cvt, x)
  | .cvtp x => some (.cvtp, x)
  | .scaleb x => some (.scaleb, x)
  | .rcp x => some (.rcp, x)
  | .rsq x => some (.rsq, x)
  | .exp2 x => some (.exp2, x)
  | .log2 x => some (.log2, x)
  | .sin x => some (.sin, x)
  | .cos x => some (.cos, x)
  | .rng x => some (.rng, x)
  | .sigacc x => some (.sigacc, x)
  | .shfl x => some (.shfl, x)
  | .bcast x => some (.bcast, x)
  | .vote x => some (.vote, x)
  | .matchLanes x => some (.matchLanes, x)
  | .lred x => some (.lred, x)
  | .lscan x => some (.lscan, x)
  | .ld x => some (.ld, x)
  | .ldb x => some (.ldb, x)
  | .lds x => some (.lds, x)
  | .st x => some (.st, x)
  | .stb x => some (.stb, x)
  | .sts x => some (.sts, x)
  | .cpaS x => some (.cpaS, x)
  | .cpaG x => some (.cpaG, x)
  | .cpaO x => some (.cpaO, x)
  | .cptS x => some (.cptS, x)
  | .cptO x => some (.cptO, x)
  | .copyPartLand _ _ => none
  | .waitk x => some (.waitk, x)
  | .kset x => some (.kset, x)
  | .kget x => some (.kget, x)
  | .atom x => some (.atom, x)
  | .atoms x => some (.atoms, x)
  | .red x => some (.red, x)
  | .dqpush x => some (.dqpush, x)
  | .dqpop x => some (.dqpop, x)
  | .dqsteal x => some (.dqsteal, x)
  | .monarm x => some (.monarm, x)
  | .monwait x => some (.monwait, x)
  | .monwaitTimeout _ _ => none
  | .fence x => some (.fence, x)
  | .pref x => some (.pref, x)
  | .cwb x => some (.cwb, x)
  | .cwbAll x => some (.cwbAll, x)
  | .cinv x => some (.cinv, x)
  | .cinvAll x => some (.cinvAll, x)
  | .slotClaim x => some (.slotClaim, x)
  | .slotRelease x => some (.slotRelease, x)
  | .slotReady x => some (.slotReady, x)
  | .slotDrainEnd _ _ _ => none
  | .slotState x => some (.slotState, x)
  | .slotWrite x => some (.slotWrite, x)
  | .slotRead x => some (.slotRead, x)
  | .mma x => some (.mma, x)
  | .mmaCplx x => some (.mmaCplx, x)
  | .mmaTern x => some (.mmaTern, x)
  | .gang x => some (.gang, x)
  | .arrayStep _ _ _ => none
  | .scacc x => some (.scacc, x)
  | .accZero x => some (.accZero, x)
  | .accLoad x => some (.accLoad, x)
  | .accStore x => some (.accStore, x)
  | .accMove x => some (.accMove, x)
  | .seqLoopAdd x => some (.seqLoopAdd, x)
  | .seqLoopMadd x => some (.seqLoopMadd, x)
  | .seqLoopLdq x => some (.seqLoopLdq, x)
  | .seqLoopStq x => some (.seqLoopStq, x)
  | .seqLoopFlags x => some (.seqLoopFlags, x)
  | .seqEnd x => some (.seqEnd, x)
  | .bldBuild x => some (.bldBuild, x)
  | .bldRefit x => some (.bldRefit, x)
  | .bldRebal x => some (.bldRebal, x)
  | .bldPublish x => some (.bldPublish, x)
  | .tailorOperationEnd _ => none
  | .bldStat x => some (.bldStat, x)
  | .genPin x => some (.genPin, x)
  | .genUnpin x => some (.genUnpin, x)
  | .trace x => some (.trace, x)
  | .probeSph x => some (.probeSph, x)
  | .probeBox x => some (.probeBox, x)
  | .shaderDispatch _ _ => none
  | .traversalComplete _ => none
  | .hitAccept x => some (.hitAccept, x)
  | .hitIgnore x => some (.hitIgnore, x)
  | .hitEnd x => some (.hitEnd, x)
  | .trvInfoWait x => some (.trvInfoWait, x)
  | .trvInfoCnt x => some (.trvInfoCnt, x)
  | .trvInfoKind x => some (.trvInfoKind, x)
  | .collReduce x => some (.collReduce, x)
  | .collBcast x => some (.collBcast, x)
  | .collAllgather x => some (.collAllgather, x)
  | .collRscatter x => some (.collRscatter, x)
  | .collWait x => some (.collWait, x)
  | .collStatus x => some (.collStatus, x)
  | .queueTailWrite _ _ => none
  | .launchPacket _ _ => none
  | .teamPlace _ _ => none
  | .fencePacket _ _ => none
  | .fencePacketPerform _ _ => none
  | .signalPacket _ _ => none
  | .chainEnd _ _ => none
  | .tasksPacket _ _ => none
  | .taskDispatch _ => none
  | .taskDecrement _ => none
  | .queueStatusWrite _ _ => none
  | .registerWriteBack _ _ => none
  | .storeQueueDrain _ => none
  | .l2SliceRequest _ => none
  | .eventDelivery _ => none
  | .unitHaltStop _ _ => none
  | .preemptStopAck _ _ => none
  | .preemptSave _ => none
  | .preemptRestore _ _ => none
  | .reserveCoreJobStart _ => none
  | .darnerHandBack _ => none
  | .auditRunEnd _ => none
  | .tlbiDone _ => none
  | .collChunkArrival _ _ _ _ _ _ => none
  | .collMemberTimeout _ _ => none
  | .collOperationEnd _ _ => none
  | .queueDescriptorWrite _ _ _ _ => none
  | .dirtyLineTimeout _ _ => none
  | .pageWalk _ _ _ _ => none
  | .hbmRequest _ _ _ _ => none
  | .rfmThreshold _ _ => none
  | .rfmHoldEnd _ _ _ => none
  | .refreshWindowEnd _ _ => none
  | .ualinkMemoryRequest _ _ _ _ => none
  | .ualinkAppend _ _ _ _ => none
  | .linkLevelRetry _ _ => none
  | .rdmaWrite _ _ _ _ => none
  | .rdmaRead _ _ _ _ => none
  | .udSend _ _ _ => none
  | .testPeriodExpiry _ _ => none
  | .inFieldTestEnd _ _ => none
  | .coreRetire _ => none
  | .sliceRetire _ _ => none
  | .wayRetire _ _ _ _ => none
  | .rowRemap _ _ _ _ => none
  | .dqRepair _ _ => none
  | .retrainComplete _ => none
  | .pinRepairTimeout _ => none
  | .tlbiCtlWrite _ _ => none
  | .haltRequest _ _ => none
  | .release _ => none
  | .frHeadWrite _ _ => none
  | .frBaseWrite _ _ => none
  | .counterClear _ _ _ => none
  | .registerWrite _ _ _ => none
  | .layout _ _ _ _ _ _ _ _ => none
  | .stage _ _ _ _ _ => none
  | .activate _ _ => none
  | .quote _ _ _ => none
  | .log _ _ _ => none
  | .power _ _ _ => none
  | .test _ _ _ _ => none
  | .powerOnReset _ _ => none
  | .clockThrottle _ _ _ => none
  | .overtempShutdown _ => none
  | .unitReady _ _ => none
  | .ualinkErrorResponse _ => none
  | .unsupportedEthernetFrame => none

end Sys2Proof
end

