-- ==== Sys2Proof/Machine/Forms.lean ====
section
/-!
DEFINITION. The forms of the instructions: for each mnemonic its MAJOR and MINOR (Table 9.12), the operand
kinds and widths of each position, the TYPEs, and the MOD bits it assigns (Tables 11.1, 11.3, 11.5, 13.1,
13.2, 15.1, 17.4, 23.5, 25.5), and the static checks of R144 to R155: which words break the operand rules
and which break the field rules.
-/
namespace Sys2Proof

/-! ### Reading a word's sub-fields -/

/-- The code of a type (Table 9.7). -/
def Ty.code : Ty → Nat
  | .b32 => 0 | .i32 => 1 | .n32 => 2 | .i64 => 3 | .n64 => 4 | .i16x2 => 5 | .n16x2 => 6 | .i8x4 => 7
  | .n8x4 => 8 | .f64 => 9 | .f32 => 10 | .f16x2 => 11 | .bf16x2 => 12 | .e4m3x4 => 13 | .e5m2x4 => 14
  | .t2x16 => 15

/-- The type of a code (Table 9.7). -/
def Ty.ofCode (n : Nat) : Ty :=
  match n % 16 with
  | 0 => .b32 | 1 => .i32 | 2 => .n32 | 3 => .i64 | 4 => .n64 | 5 => .i16x2 | 6 => .n16x2 | 7 => .i8x4
  | 8 => .n8x4 | 9 => .f64 | 10 => .f32 | 11 => .f16x2 | 12 => .bf16x2 | 13 => .e4m3x4 | 14 => .e5m2x4
  | _ => .t2x16

/-- A type whose values take 64 bits, a pair of vector registers (R7, R171). -/
def Ty.is64 : Ty → Bool
  | .i64 | .n64 | .f64 => true
  | _ => false

/-- A signed integer type (R79). -/
def Ty.isSigned : Ty → Bool
  | .i32 | .i64 | .i16x2 | .i8x4 => true
  | _ => false

/-- An integer type (R79). -/
def Ty.isInt : Ty → Bool
  | .i32 | .n32 | .i64 | .n64 | .i16x2 | .n16x2 | .i8x4 | .n8x4 => true
  | _ => false

/-- A floating-point type (Table 5.1). -/
def Ty.isFloat : Ty → Bool
  | .f64 | .f32 | .f16x2 | .bf16x2 | .e4m3x4 | .e5m2x4 => true
  | _ => false

/-- A narrow floating format: one whose results may saturate (R81). -/
def Ty.isNarrowFloat : Ty → Bool
  | .f16x2 | .bf16x2 | .e4m3x4 | .e5m2x4 => true
  | _ => false

/-- Elements of a register (or pair) of the type (Table 5.4). -/
def Ty.elems : Ty → Nat
  | .i16x2 | .n16x2 | .f16x2 | .bf16x2 => 2
  | .i8x4 | .n8x4 | .e4m3x4 | .e5m2x4 => 4
  | .t2x16 => 16
  | _ => 1

/-- Width of one element in bits (Table 5.4). -/
def Ty.elemBits : Ty → Nat
  | .i64 | .n64 | .f64 => 64
  | .i16x2 | .n16x2 | .f16x2 | .bf16x2 => 16
  | .i8x4 | .n8x4 | .e4m3x4 | .e5m2x4 => 8
  | .t2x16 => 2
  | _ => 32

/-- Width of the whole register operand in bits: 32 or 64 (R171). -/
def Ty.regBits (t : Ty) : Nat := if t.is64 then 64 else 32

/-- Bits `lo + n - 1 : lo` of MOD as a number. -/
def Enc.bits (x : Enc) (lo n : Nat) : Nat := x.md.toNat / 2 ^ lo % 2 ^ n
/-- Bit `i` of MOD. -/
def Enc.bit (x : Enc) (i : Nat) : Bool := x.md.getLsbD i
/-- K, the arrival counter (Table 9.10). -/
def Enc.kf (x : Enc) : Nat := x.bits 20 4
/-- SCOPE (Table 9.10). -/
def Enc.scope (x : Enc) : Nat := x.bits 17 3
/-- ORDER (Table 9.10). -/
def Enc.order (x : Enc) : Nat := x.bits 14 3
/-- SIZE (Table 9.10). -/
def Enc.size (x : Enc) : Nat := x.bits 12 2
/-- SCALE (Table 9.10). -/
def Enc.scale (x : Enc) : Nat := x.bits 9 3
/-- SUBW (Table 9.10). -/
def Enc.subw (x : Enc) : Bool := x.bit 8
/-- IX64: the index is a 64-bit pair (Table 13.2). -/
def Enc.ix64 (x : Enc) : Bool := x.bit 7
/-- The 16-bit immediate as a signed number. -/
def Enc.simm (x : Enc) : Int := x.imm.toInt
/-- Bytes of one lane's access (R215). -/
def Enc.bytes (x : Enc) : Nat :=
  match x.size with
  | 0 => 4 | 1 => 8 | 2 => 16
  | _ => if x.subw then 2 else 1
/-- Registers of one lane's access (R215). -/
def Enc.memRegs (x : Enc) : Nat :=
  match x.size with
  | 1 => 2 | 2 => 4
  | _ => 1
/-- NB of LDB and STB (Table 13.2). -/
def Enc.nb (x : Enc) : Nat := x.bits 0 4 + 1
/-- STYPE of CVT, CVTP and I2I. -/
def Enc.sty (x : Enc) : Ty := Ty.ofCode (x.bits 0 4)
/-- The default guard (R148). -/
def Enc.defaultGuard (x : Enc) : Bool := x.gp == 15 && x.gq == 15 && !x.gpi && !x.gqi

/-- An operand that is the immediate. -/
def Operand.isImm : Operand → Bool
  | .imm => true
  | _ => false
/-- An operand that is a vector register. -/
def Operand.isV : Operand → Bool
  | .v _ => true
  | _ => false
/-- An operand that is a scalar register. -/
def Operand.isS : Operand → Bool
  | .s _ => true
  | _ => false
/-- The special register %zero (Table 9.5). -/
def Operand.isZero : Operand → Bool
  | .sr i => i == 0x3F
  | _ => false
/-- The byte of an unused position (R144). -/
def Operand.isUnused : Operand → Bool
  | .v i => i == 0
  | _ => false
/-- The register index of an operand, 0 where it has none. -/
def Operand.idx : Operand → Nat
  | .v i => i.toNat | .s i => i.toNat | .imm => 0 | .p i => i.toNat | .k i => i.toNat
  | .b i => i.toNat | .g i => i.toNat | .o i => i.toNat | .sr i => i.toNat

/-! ### Forms -/

/-- How many registers an operand takes: one, as the TYPE, a 64-bit pair, as STYPE, as SIZE, NB, or an
index of 32 or 64 bits by IX64. -/
inductive Wd where
  | one | ty | two | sty | mem | blk | ix
  deriving DecidableEq, Repr

/-- What a position accepts. `used = false`: the form leaves it unused (R144). -/
structure Pos where
  used : Bool := false
  dst : Bool := false
  /-- the destination is read as well (R151) -/
  both : Bool := false
  v : Bool := false
  s : Bool := false
  i : Bool := false
  z : Bool := false
  p : Bool := false
  k : Bool := false
  b : Bool := false
  g : Bool := false
  o : Bool := false
  sr : Bool := false
  /-- the position may also be left out -/
  opt : Bool := false
  w : Wd := .ty
  deriving DecidableEq, Repr

namespace Pos
/-- An unused position. -/
def no : Pos := {}
/-- A destination vector or scalar register. -/
def dvs (w : Wd := .ty) : Pos := { used := true, dst := true, v := true, s := true, w := w }
/-- A destination vector register. -/
def dv (w : Wd := .ty) : Pos := { used := true, dst := true, v := true, w := w }
/-- A destination scalar register. -/
def ds : Pos := { used := true, dst := true, s := true, w := .two }
/-- A destination predicate. -/
def dp : Pos := { used := true, dst := true, p := true }
/-- A value source: vector, scalar, immediate or %zero (R169). -/
def val (w : Wd := .ty) : Pos := { used := true, v := true, s := true, i := true, z := true, w := w }
/-- A source predicate. -/
def sp : Pos := { used := true, p := true }
/-- A source vector register or %zero. -/
def vz (w : Wd := .ty) : Pos := { used := true, v := true, z := true, w := w }
/-- A source scalar register. -/
def ss : Pos := { used := true, s := true, w := .two }
/-- A source scalar register or %zero: a base address. -/
def sz : Pos := { used := true, s := true, z := true, w := .two }
/-- A source scalar register or an immediate. -/
def si : Pos := { used := true, s := true, i := true, w := .two }
/-- A source vector or scalar register. -/
def vs (w : Wd := .one) : Pos := { used := true, v := true, s := true, w := w }
/-- Store data: vector, scalar or %zero. -/
def vsz (w : Wd) : Pos := { used := true, v := true, s := true, z := true, w := w }
/-- %zero alone. -/
def zz : Pos := { used := true, z := true }
/-- An immediate alone. -/
def ii : Pos := { used := true, i := true }
/-- An arrival counter. -/
def kk : Pos := { used := true, k := true }
/-- A team barrier. -/
def bb : Pos := { used := true, b := true }
/-- A stage ring. -/
def gg : Pos := { used := true, g := true }
/-- An operand slot. -/
def oo : Pos := { used := true, o := true }
end Pos

/-- When an instruction is uniform (R148): never, always, when D is a scalar, or as R170 says. -/
inductive Uni where
  | no | yes | dScalar | int
  deriving DecidableEq, Repr

/-- The form of a mnemonic. -/
structure Form where
  major : Nat
  minor : Nat
  d : Pos := Pos.no
  a : Pos := Pos.no
  b : Pos := Pos.no
  c : Pos := Pos.no
  e : Pos := Pos.no
  /-- accepted TYPEs; an instruction that accepts no type carries 0x0 (R149) -/
  tys : List Ty := [.b32]
  /-- RND may be non-zero -/
  rnd : Bool := false
  /-- SAT may be 1 (subject to `satOk`) -/
  sat : Bool := false
  /-- MOD bits the form assigns -/
  mask : Nat := 0
  /-- MOD bits that select this form of its minor, and their value -/
  selMask : Nat := 0
  selVal : Nat := 0
  /-- IMM16 has another use (displacement, code offset, raw bits) -/
  immUse : Bool := false
  /-- H1 and H2 are accepted (R154) -/
  hints : Bool := false
  uni : Uni := .no
  /-- accepted ORDER codes; empty: ORDER is no field of the form -/
  orders : List Nat := []

/-- TYPEs of the add family (Table 11.1). -/
def tysInt8 : List Ty := [.i32, .n32, .i64, .n64, .i16x2, .n16x2, .i8x4, .n8x4]
/-- TYPEs of plain integers. -/
def tysInt : List Ty := [.i32, .n32, .i64, .n64]
/-- TYPEs of bit patterns. -/
def tysBits : List Ty := [.b32, .n64]
/-- TYPEs of loads and stores (Table 13.2). -/
def tysMem : List Ty := [.b32, .i32, .n32, .f32, .i64, .n64, .f64]
/-- TYPEs of atomics (Table 13.6). -/
def tysAtom : List Ty := [.b32, .i32, .n32, .i64, .n64, .f32, .f64]
/-- The packed 16-bit TYPEs. -/
def tysH : List Ty := [.f16x2, .bf16x2]
/-- TYPEs of CVT (R200). -/
def tysCvt : List Ty := [.i32, .n32, .i64, .n64, .f64, .f32, .f16x2, .bf16x2, .e4m3x4, .e5m2x4]
/-- TYPEs of LRED and LSCAN (Table 11.6). -/
def tysRed : List Ty := [.f64, .f32, .f16x2, .bf16x2, .i32, .n32, .i64, .n64, .b32]
/-- A formats of MMA (Table 17.5). -/
def tysMma : List Ty := [.f64, .f32, .f16x2, .bf16x2, .e4m3x4, .e5m2x4, .i8x4, .n8x4]
/-- TYPEs of collective reductions (Table 25.5). -/
def tysColl : List Ty := [.f64, .f32, .i32, .n32, .i64, .n64, .b32]

/-- An integer form of majors 0x10 to 0x18 with value sources (Table 11.1). -/
def Form.int (major minor : Nat) (n : Nat) (tys : List Ty) (sat : Bool) (mask : Nat := 0) : Form :=
  { major, minor, d := Pos.dvs, a := Pos.val, b := if 2 ≤ n then Pos.val else Pos.no,
    c := if 3 ≤ n then Pos.val else Pos.no, tys, sat, mask, uni := .int }

/-- A floating-point form of majors 0x20 to 0x22 with `n` sources and their modifiers (R172). -/
def Form.fp (major minor : Nat) (n : Nat) (tys : List Ty) (rnd : Bool) (sat : Bool := false) : Form :=
  { major, minor, d := Pos.dv, a := Pos.val, b := if 2 ≤ n then Pos.val else Pos.no,
    c := if 3 ≤ n then Pos.val else Pos.no, tys, rnd, sat,
    mask := if n = 1 then 0x09 else if n = 2 then 0x1B else 0x3F }

/-- A form of the memory operand `[a+b*2^s+imm]` (R213). MOD: K 23:20, SCOPE 19:17, ORDER 16:14, SIZE
13:12, SCALE 11:9, SUBW 8. -/
def Form.mem (major minor : Nat) (tys : List Ty) (mask : Nat) (orders : List Nat) : Form :=
  { major, minor, a := Pos.sz, b := Pos.vz .ix, tys, mask, immUse := true, hints := true, orders }

/-- The form of each mnemonic. SIGACC's A, which R205 gives as a vector pair or a scalar, may by R169 be an immediate or %zero
too (DESIGN CHOICE, log entry 99). -/
def form : Op → Form
  | .nop => { major := 0, minor := 1 }
  | .exit => { major := 0, minor := 2 }
  | .yield => { major := 0, minor := 3 }
  | .sleep => { major := 0, minor := 4, a := Pos.si, uni := .yes }
  | .trap => { major := 0, minor := 5, a := Pos.ii, uni := .yes }
  | .tret => { major := 0, minor := 6, uni := .yes }
  | .srget => { major := 0, minor := 7, d := Pos.dvs, a := { used := true, sr := true, z := true },
                tys := tysBits, uni := .dScalar }
  | .srset => { major := 0, minor := 8, d := { used := true, dst := true, sr := true }, a := Pos.si, uni := .yes }
  | .replay => { major := 0, minor := 9, d := Pos.ds, a := Pos.ss, uni := .yes }
  | .pfix => { major := 0, minor := 0xA, d := Pos.dv, a := { Pos.val with z := false }, tys := tysBits }
  | .errinj => { major := 0, minor := 0xB, a := Pos.si, mask := 0x3FFFF, uni := .yes }
  | .bra => { major := 1, minor := 0, immUse := true }
  | .bri => { major := 1, minor := 1, a := Pos.vs }
  | .brany => { major := 1, minor := 2, a := Pos.sp, immUse := true, uni := .yes }
  | .brall => { major := 1, minor := 3, a := Pos.sp, immUse := true, uni := .yes }
  | .loop => { major := 1, minor := 4, d := { Pos.ds with both := true }, immUse := true, uni := .yes }
  | .call => { major := 2, minor := 0, d := Pos.dv .one, immUse := true }
  | .calli => { major := 2, minor := 1, d := Pos.dv .one, a := Pos.vs }
  | .ret => { major := 2, minor := 2, a := Pos.vs }
  | .callo => { major := 2, minor := 3, d := Pos.ds, mask := 0x1FFF, selMask := 0x1000, selVal := 0,
                immUse := true, uni := .yes }
  | .calloReg => { major := 2, minor := 3, d := Pos.ds, a := Pos.ss, mask := 0x1FFF, selMask := 0x1000,
                   selVal := 0x1000, immUse := true, uni := .yes }
  | .reto => { major := 2, minor := 4, a := Pos.ss, uni := .yes }
  | .ovld => { major := 2, minor := 5, a := Pos.si, b := Pos.ss, mask := 0x7FFF, selMask := 0x4000,
               selVal := 0, uni := .yes }
  | .ovldF => { major := 2, minor := 5, a := Pos.si, b := Pos.ss, mask := 0x7FFF, selMask := 0x4000,
                selVal := 0x4000, uni := .yes }
  | .ovwait => { major := 2, minor := 6, d := Pos.ds, a := Pos.si, uni := .yes }
  | .ovhold => { major := 2, minor := 7, d := Pos.ds, a := Pos.si, uni := .yes }
  | .ovdrop => { major := 2, minor := 8, a := Pos.si, uni := .yes }
  | .ovquery => { major := 2, minor := 9, d := Pos.ds, a := Pos.si, uni := .yes }
  | .plogic => { major := 3, minor := 0, d := Pos.dp, a := Pos.sp, b := Pos.sp, c := Pos.sp, mask := 0xFF }
  | .ptos => { major := 3, minor := 1, d := Pos.dv .one }
  | .stop => { major := 3, minor := 2, a := Pos.vs, b := Pos.si }
  | .ppopc => { major := 3, minor := 3, d := Pos.dvs .one, a := Pos.sp, uni := .dScalar }
  | .barSet => { major := 4, minor := 0, a := Pos.bb, b := Pos.si, uni := .yes }
  | .barSync => { major := 4, minor := 1, a := Pos.bb, b := Pos.si, uni := .yes }
  | .barArrive => { major := 4, minor := 2, a := Pos.bb, b := Pos.si, uni := .yes }
  | .barWait => { major := 4, minor := 3, a := Pos.bb, uni := .yes }
  | .syncl => { major := 4, minor := 4, a := Pos.si }
  | .stageInit => { major := 4, minor := 5, a := Pos.gg, mask := 0xFFFF, uni := .yes }
  | .stagePost => { major := 4, minor := 6, a := Pos.gg, b := Pos.si, uni := .yes }
  | .stageTake => { major := 4, minor := 7, a := Pos.gg, b := Pos.si, uni := .yes }
  | .spmask => { major := 5, minor := 0, d := Pos.ds, uni := .yes }
  | .joinx => { major := 5, minor := 1, a := Pos.ii, uni := .yes }
  | .suspend => { major := 6, minor := 0, a := Pos.ss, b := Pos.si, mask := 1, uni := .yes }
  | .resume => { major := 6, minor := 1, d := Pos.ds, a := Pos.ss, b := Pos.sz, uni := .yes }
  | .codrop => { major := 6, minor := 2, d := Pos.ds, a := Pos.ss, uni := .yes }
  | .coinfo => { major := 6, minor := 3, d := Pos.ds, a := Pos.ss, uni := .yes }
  | .tkdone => { major := 6, minor := 4, a := Pos.ss, b := Pos.si, uni := .yes }
  | .tkadd => { major := 6, minor := 5, a := Pos.ss, b := Pos.si, c := Pos.si, uni := .yes }
  | .tkpeek => { major := 6, minor := 6, d := Pos.ds, a := Pos.ss, b := Pos.si, uni := .yes }
  | .launch => { major := 6, minor := 7, d := Pos.ds, a := Pos.ss, b := Pos.si, uni := .yes }
  | .regionOpen => { major := 7, minor := 0, a := Pos.si, uni := .yes }
  | .regionClose => { major := 7, minor := 1, mask := 0xE0000, uni := .yes }
  | .regionAbort => { major := 7, minor := 2, immUse := true, uni := .yes }
  | .regionInfo => { major := 7, minor := 3, d := Pos.ds, uni := .yes }
  | .iadd => Form.int 0x10 0 2 tysInt8 true
  | .isub => Form.int 0x10 1 2 tysInt8 true
  | .iadd3 => Form.int 0x10 2 3 tysInt true
  | .iaddc => { Form.int 0x10 3 2 tysInt false 3 with c := Pos.sp, e := Pos.dp }
  | .ineg => Form.int 0x10 4 1 [.i32, .i64, .i16x2, .i8x4] true
  | .iabs => Form.int 0x10 5 1 [.i32, .i64, .i16x2, .i8x4] true
  | .imul => Form.int 0x11 0 2 tysInt8 true
  | .imulh => Form.int 0x11 1 2 tysInt false
  | .imad => Form.int 0x11 2 3 tysInt true
  | .imadw => { Form.int 0x11 3 3 [.i32, .n32] true with d := Pos.dvs .two, c := Pos.val .two }
  | .idiv => Form.int 0x12 0 2 tysInt false
  | .irem => Form.int 0x12 1 2 tysInt false
  | .imin => Form.int 0x13 0 2 tysInt8 false
  | .imax => Form.int 0x13 1 2 tysInt8 false
  | .icmp => { Form.int 0x13 2 2 tysInt false 0xC00007 with d := Pos.dp, c := Pos.sp, uni := .no }
  | .sel => { Form.int 0x13 3 2 tysBits false with c := Pos.sp }
  | .logic3 => Form.int 0x14 0 3 tysBits false 0xFF
  | .shl => Form.int 0x15 0 2 tysBits false
  | .shr => Form.int 0x15 1 2 tysBits false
  | .sar => Form.int 0x15 2 2 tysBits false
  | .rol => Form.int 0x15 3 2 tysBits false
  | .ror => Form.int 0x15 4 2 tysBits false
  | .shf => Form.int 0x15 5 3 tysBits false 1
  | .bfx => Form.int 0x16 0 3 tysInt false
  | .bfi => { Form.int 0x16 1 3 tysBits false with d := { Pos.dvs with both := true } }
  | .popc => { Form.int 0x16 2 1 tysBits false with d := Pos.dvs .one }
  | .clz => { Form.int 0x16 3 1 tysBits false with d := Pos.dvs .one }
  | .ctz => { Form.int 0x16 4 1 tysBits false with d := Pos.dvs .one }
  | .brev => Form.int 0x16 5 1 tysBits false
  | .permb => Form.int 0x16 6 3 [.b32] false
  | .lea => { Form.int 0x17 0 2 tysInt false 7 with d := Pos.dvs .two, a := Pos.val .two }
  | .mov => Form.int 0x18 0 1 tysBits false
  | .movi => { Form.int 0x18 1 1 tysBits false 3 with a := Pos.ii }
  | .movh => { Form.int 0x18 2 1 tysBits false 3 with
      a := Pos.ii, d := { Pos.dvs with both := true } }
  | .i2i => { Form.int 0x18 3 1 tysInt true 0xF with a := Pos.val .sty }
  | .dadd => Form.fp 0x20 0 2 [.f64] true
  | .dsub => Form.fp 0x20 1 2 [.f64] true
  | .dmul => Form.fp 0x20 2 2 [.f64] true
  | .dfma => Form.fp 0x20 3 3 [.f64] true
  | .ddiv => Form.fp 0x20 4 2 [.f64] true
  | .dsqrt => Form.fp 0x20 5 1 [.f64] true
  | .dmin => Form.fp 0x20 6 2 [.f64] false
  | .dmax => Form.fp 0x20 7 2 [.f64] false
  | .dround => Form.fp 0x20 8 1 [.f64] true
  | .fadd => Form.fp 0x21 0 2 [.f32] true
  | .fsub => Form.fp 0x21 1 2 [.f32] true
  | .fmul => Form.fp 0x21 2 2 [.f32] true
  | .ffma => Form.fp 0x21 3 3 [.f32] true
  | .fdiv => Form.fp 0x21 4 2 [.f32] true
  | .fsqrt => Form.fp 0x21 5 1 [.f32] true
  | .fmin => Form.fp 0x21 6 2 [.f32] false
  | .fmax => Form.fp 0x21 7 2 [.f32] false
  | .fround => Form.fp 0x21 8 1 [.f32] true
  | .hadd2 => Form.fp 0x22 0 2 tysH true true
  | .hmul2 => Form.fp 0x22 2 2 tysH true true
  | .hfma2 => Form.fp 0x22 3 3 tysH true true
  | .hmin2 => Form.fp 0x22 6 2 tysH false
  | .hmax2 => Form.fp 0x22 7 2 tysH false
  | .dcmp => { major := 0x23, minor := 0, d := Pos.dp, a := Pos.val, b := Pos.val, c := Pos.sp, tys := [.f64],
               mask := 0xC003FF }
  | .fcmp => { major := 0x23, minor := 2, d := Pos.dp, a := Pos.val, b := Pos.val, c := Pos.sp, tys := [.f32],
               mask := 0xC003FF }
  | .hcmp2 => { major := 0x23, minor := 4, d := Pos.dp, a := Pos.val, b := Pos.val, c := Pos.sp, e := Pos.dp,
                tys := tysH, mask := 0xC003FF }
  | .dclass => { major := 0x23, minor := 1, d := Pos.dp, a := Pos.val, c := Pos.sp, tys := [.f64],
                 mask := 0xC0FFC0 }
  | .fclass => { major := 0x23, minor := 3, d := Pos.dp, a := Pos.val, c := Pos.sp, tys := [.f32],
                 mask := 0xC0FFC0 }
  | .cvt => { major := 0x24, minor := 0, d := Pos.dv, a := Pos.val .sty, tys := tysCvt, rnd := true, sat := true,
              mask := 0x3F }
  | .cvtp => { major := 0x24, minor := 1, d := Pos.dv .one, a := Pos.val .sty, b := Pos.val .sty,
               c := { Pos.val .sty with opt := true }, e := { Pos.val .sty with opt := true },
               tys := [.f16x2, .bf16x2, .e4m3x4, .e5m2x4, .i16x2, .n16x2, .i8x4, .n8x4], rnd := true,
               sat := true, mask := 0xF }
  | .scaleb => { major := 0x24, minor := 2, d := Pos.dv, a := Pos.val, b := Pos.val, tys := [.f64, .f32],
                 rnd := true }
  | .rcp => Form.fp 0x25 0 1 [.f32] false
  | .rsq => Form.fp 0x25 1 1 [.f32] false
  | .exp2 => Form.fp 0x25 2 1 [.f32] false
  | .log2 => Form.fp 0x25 3 1 [.f32] false
  | .sin => Form.fp 0x25 4 1 [.f32] false
  | .cos => Form.fp 0x25 5 1 [.f32] false
  | .rng => { major := 0x26, minor := 0, d := Pos.dv, a := Pos.val, b := Pos.val, tys := [.n32] }
  | .sigacc => { major := 0x26, minor := 1, d := { Pos.ds with both := true }, a := Pos.val .two, b := Pos.val, tys := tysBits }
  | .shfl => { major := 0x27, minor := 0, d := Pos.dv, a := Pos.vz, b := Pos.val,
               e := { Pos.dp with opt := true }, tys := tysBits, mask := 0x1F }
  | .bcast => { major := 0x27, minor := 1, d := Pos.dv, a := { used := true, v := true },
                b := { Pos.val with v := false }, e := { Pos.dp with opt := true }, tys := tysBits, mask := 7 }
  | .vote => { major := 0x27, minor := 2, d := { Pos.dv .two with p := true }, a := Pos.sp, mask := 0x1F }
  | .matchLanes => { major := 0x27, minor := 3, d := Pos.dv .two, a := Pos.vz, tys := tysBits, mask := 7 }
  | .lred => { major := 0x27, minor := 4, d := Pos.dv, a := Pos.vz, tys := tysRed, sat := true, mask := 0x3F }
  | .lscan => { major := 0x27, minor := 5, d := Pos.dv, a := Pos.vz, tys := tysRed, sat := true, mask := 0x7F }
  | .ld => { Form.mem 0x30 0 tysMem 0xFFFF80 [0, 1, 4] with d := Pos.dv .mem }
  | .ldb => { Form.mem 0x30 1 [.b32] 0xFFC00F [0, 1, 4] with
      d := Pos.dv .blk, a := Pos.ss, b := Pos.zz, uni := .yes }
  | .lds => { Form.mem 0x30 2 tysMem 0xFFFF00 [0, 1, 4] with d := Pos.dv .mem, b := Pos.vz .one }
  | .st => { Form.mem 0x31 0 tysMem 0x0FFF80 [0, 2, 4] with c := Pos.vsz .mem }
  | .stb => { Form.mem 0x31 1 [.b32] 0x0FC00F [0, 2, 4] with
      a := Pos.ss, b := Pos.zz, c := { used := true, v := true, w := .blk }, uni := .yes }
  | .sts => { Form.mem 0x31 2 tysMem 0x0FFF00 [0, 2, 4] with b := Pos.vz .one, c := Pos.vsz .mem }
  | .cpaS => { Form.mem 0x32 0 [.b32] 0xF03EB0 [] with
      c := { used := true, v := true, w := .one }, selMask := 0x30, selVal := 0 }
  | .cpaG => { Form.mem 0x32 0 [.b32] 0xF03EFF [] with
      d := Pos.dv .mem, e := Pos.si, selMask := 0x30, selVal := 0x10 }
  | .cpaO => { Form.mem 0x32 0 [.b32] 0xF03EF0 [] with
      d := { Pos.oo with dst := true }, c := { used := true, v := true, w := .one }, selMask := 0x30, selVal := 0x20 }
  | .cptS => { major := 0x32, minor := 1, a := Pos.ss, b := Pos.ss, c := Pos.ss, e := Pos.ss,
               mask := 0xF00030, selMask := 0x30, selVal := 0, hints := true, uni := .yes }
  | .cptO => { major := 0x32, minor := 1, d := { Pos.oo with dst := true }, a := Pos.ss, b := Pos.ss, e := Pos.ss, mask := 0xF00030, selMask := 0x30, selVal := 0x20, hints := true, uni := .yes }
  | .waitk => { major := 0x33, minor := 0, a := Pos.kk, b := Pos.si, hints := true, uni := .yes }
  | .kset => { major := 0x33, minor := 1, d := { Pos.kk with dst := true }, a := Pos.si, hints := true, uni := .yes }
  | .kget => { major := 0x33, minor := 2, d := Pos.dvs .one, a := Pos.kk, hints := true, uni := .dScalar }
  | .atom => { Form.mem 0x34 0 tysAtom 0x0FFE8F [0, 1, 2, 3, 4] with
      d := Pos.dv, c := Pos.vsz .ty, e := { Pos.vs .ty with opt := true } }
  | .atoms => { Form.mem 0x34 1 tysAtom 0x0FFE0F [0, 1, 2, 3, 4] with
      d := Pos.dv, b := Pos.vz .one, c := Pos.vsz .ty, e := { Pos.vs .ty with opt := true } }
  | .red => { Form.mem 0x34 2 tysAtom 0x0FFE8F [0, 2] with c := Pos.vsz .ty }
  | .dqpush => { major := 0x35, minor := 0, d := Pos.ds, a := Pos.ss, b := Pos.zz, c := Pos.ss, mask := 0x0FC000,
                 immUse := true, hints := true, uni := .yes, orders := [0, 1, 2, 3, 4] }
  | .dqpop => { major := 0x35, minor := 1, d := Pos.ds, a := Pos.ss, b := Pos.zz, e := Pos.ds, mask := 0x0FC000,
                immUse := true, hints := true, uni := .yes, orders := [0, 1, 2, 3, 4] }
  | .dqsteal => { major := 0x35, minor := 2, d := Pos.ds, a := Pos.ss, b := Pos.zz, e := Pos.ds,
                  mask := 0x0FC000, immUse := true, hints := true, uni := .yes, orders := [0, 1, 2, 3, 4] }
  | .monarm => { major := 0x35, minor := 3, d := Pos.ds, a := Pos.ss, b := Pos.zz, mask := 0x0FC003,
                 immUse := true, hints := true, uni := .yes, orders := [0, 1] }
  | .monwait => { major := 0x35, minor := 4, d := Pos.ds, a := Pos.si, mask := 0xF, hints := true, uni := .yes }
  | .fence => { major := 0x36, minor := 0, mask := 0x0FC000, hints := true, uni := .yes, orders := [1, 2, 3, 4] }
  | .pref => Form.mem 0x36 1 [.b32] 0x000E80 []
  | .cwb => { Form.mem 0x36 2 [.b32] 0x000E83 [] with selMask := 2, selVal := 0 }
  | .cwbAll => { major := 0x36, minor := 2, mask := 0xE83, selMask := 2, selVal := 2, hints := true, uni := .yes }
  | .cinv => { Form.mem 0x36 3 [.b32] 0x000E83 [] with selMask := 2, selVal := 0 }
  | .cinvAll => { major := 0x36, minor := 3, mask := 0xE83, selMask := 2, selVal := 2, hints := true, uni := .yes }
  | .slotClaim => { major := 0x3C, minor := 0, a := Pos.oo, mask := 0x3F }
  | .slotRelease => { major := 0x3C, minor := 1, a := Pos.oo, mask := 0x3F }
  | .slotReady => { major := 0x3C, minor := 2, a := Pos.oo, mask := 0x3F }
  | .slotState => { major := 0x3C, minor := 3, d := Pos.ds, a := Pos.oo }
  | .slotWrite => { major := 0x3C, minor := 4, d := Pos.oo, b := Pos.si, mask := 0x1FFFF }
  | .slotRead => { major := 0x3C, minor := 5, a := Pos.oo, b := Pos.si, mask := 0x1FFFF }
  | .mma => { major := 0x3C, minor := 8, d := { Pos.ss with dst := false }, a := Pos.oo, b := Pos.oo, c := Pos.ss,
              tys := tysMma, mask := 0x7F, selMask := 0x60, selVal := 0 }
  | .mmaCplx => { major := 0x3C, minor := 8, d := Pos.ss, a := Pos.oo, b := Pos.oo, c := Pos.ss,
                  tys := [.f64], mask := 0x7F, selMask := 0x60, selVal := 0x20 }
  | .mmaTern => { major := 0x3C, minor := 8, d := Pos.ss, a := Pos.oo, b := Pos.oo, c := Pos.ss,
                  tys := [.t2x16], mask := 0x7F, selMask := 0x60, selVal := 0x40 }
  | .gang => { major := 0x3C, minor := 0x1A, d := Pos.ss, a := Pos.oo, b := Pos.oo, c := Pos.ss,
               tys := .t2x16 :: tysMma, mask := 0x7F }
  | .scacc => { major := 0x3C, minor := 9, d := Pos.ss, a := Pos.ss, b := Pos.oo, c := Pos.si, tys := [.f32] }
  | .accZero => { major := 0x3C, minor := 0x10, d := Pos.ss, tys := [.b32, .f64], mask := 0x800000 }
  | .accLoad => { major := 0x3C, minor := 0x11, d := Pos.ss, a := Pos.ss, b := Pos.si, tys := [.b32, .f64],
                  mask := 0x8FC000, hints := true, orders := [0, 1, 4] }
  | .accStore => { major := 0x3C, minor := 0x12, d := Pos.ss, a := Pos.ss, b := Pos.si, tys := [.b32, .f64],
                   mask := 0x8FC000, hints := true, orders := [0, 2, 4] }
  | .accMove => { major := 0x3C, minor := 0x13, d := Pos.ss, tys := [.b32, .f64], mask := 0x81FFFF }
  | .seqLoopAdd => { major := 0x3C, minor := 0x18, d := Pos.ds, a := Pos.ss, b := Pos.si, tys := [.i64, .n64],
                     mask := 7, selMask := 7, selVal := 0 }
  | .seqLoopMadd => { major := 0x3C, minor := 0x18, d := Pos.ds, a := Pos.ss, b := Pos.si, c := Pos.ss,
                      tys := [.i64, .n64], mask := 7, selMask := 7, selVal := 1 }
  | .seqLoopLdq => { major := 0x3C, minor := 0x18, d := Pos.ds, a := Pos.ss, mask := 0x0FC007, selMask := 7,
                     selVal := 2, immUse := true, orders := [0, 1, 4] }
  | .seqLoopStq => { major := 0x3C, minor := 0x18, a := Pos.ss, c := Pos.ss, mask := 0x0FC007, selMask := 7,
                     selVal := 3, immUse := true, orders := [0, 2, 4] }
  | .seqLoopFlags => { major := 0x3C, minor := 0x18, d := Pos.ds, mask := 0xF, selMask := 7, selVal := 4 }
  | .seqEnd => { major := 0x3C, minor := 0x19 }
  | .bldBuild => { major := 0x3D, minor := 0, d := Pos.ds, a := Pos.ss, uni := .yes }
  | .bldRefit => { major := 0x3D, minor := 1, d := Pos.ds, a := Pos.ss, uni := .yes }
  | .bldRebal => { major := 0x3D, minor := 2, d := Pos.ds, a := Pos.ss, uni := .yes }
  | .bldPublish => { major := 0x3D, minor := 3, d := Pos.ds, a := Pos.ss, uni := .yes }
  | .bldStat => { major := 0x3D, minor := 4, d := Pos.ds, a := Pos.ss, b := Pos.si, uni := .yes }
  | .genPin => { major := 0x3D, minor := 8, d := Pos.ds, a := Pos.ss, uni := .yes }
  | .genUnpin => { major := 0x3D, minor := 9, uni := .yes }
  | .trace => { major := 0x3D, minor := 0x10, a := Pos.ss, b := { used := true, v := true, w := .two } }
  | .probeSph => { major := 0x3D, minor := 0x11, a := Pos.ss, b := { used := true, v := true, w := .two },
                   mask := 1, selMask := 1, selVal := 0 }
  | .probeBox => { major := 0x3D, minor := 0x11, a := Pos.ss, b := { used := true, v := true, w := .two },
                   mask := 1, selMask := 1, selVal := 1 }
  | .hitAccept => { major := 0x3D, minor := 0x18, a := Pos.vz .one }
  | .hitIgnore => { major := 0x3D, minor := 0x19 }
  | .hitEnd => { major := 0x3D, minor := 0x1A }
  | .trvInfoWait => { major := 0x3D, minor := 0x1B, b := Pos.si, mask := 3, selMask := 3, selVal := 0,
                      uni := .yes }
  | .trvInfoCnt => { major := 0x3D, minor := 0x1B, d := Pos.ds, mask := 3, selMask := 3, selVal := 1,
                     uni := .yes }
  | .trvInfoKind => { major := 0x3D, minor := 0x1B, d := Pos.dvs .one, mask := 3, selMask := 3, selVal := 2 }
  | .collReduce => { major := 0x3E, minor := 0, a := Pos.ss, tys := tysColl, sat := true, mask := 0xFE0007,
                     uni := .yes }
  | .collRscatter => { major := 0x3E, minor := 3, a := Pos.ss, tys := tysColl, sat := true, mask := 0xFE0007,
                       uni := .yes }
  | .collBcast => { major := 0x3E, minor := 1, a := Pos.ss, tys := tysBits, mask := 0xFE0000, uni := .yes }
  | .collAllgather => { major := 0x3E, minor := 2, a := Pos.ss, tys := tysBits, mask := 0xFE0000, uni := .yes }
  | .collWait => { major := 0x3E, minor := 8, d := Pos.ds, mask := 0xF00000, uni := .yes }
  | .collStatus => { major := 0x3E, minor := 9, d := Pos.ds, mask := 0xF00000, uni := .yes }

/-! ### Widths of operands -/

/-- Registers an operand of width `w` takes in this word, and the multiple its first index must be. -/
def Enc.span (x : Enc) : Wd → Nat × Nat
  | .one => (1, 1)
  | .two => (2, 2)
  | .ty => if x.ty.is64 then (2, 2) else (1, 1)
  | .sty => if x.sty.is64 then (2, 2) else (1, 1)
  | .mem => (x.memRegs, x.memRegs)
  | .blk => (x.nb, 1)
  | .ix => if x.ix64 then (2, 2) else (1, 1)

/-- The instruction is uniform (R148, R170, R217, Table 15.2). -/
def uniform (op : Op) (x : Enc) : Bool :=
  match (form op).uni with
  | .no => false
  | .yes => true
  | .dScalar => x.d.isS
  | .int => x.d.isS

/-- The five positions with what the form accepts there. -/
def positions (op : Op) (x : Enc) : List (Pos × Operand) :=
  let f := form op
  [(f.d, x.d), (f.a, x.a), (f.b, x.b), (f.c, x.c), (f.e, x.e)]

/-! ### ILLEGAL_OPERAND (R145, R147, R169) -/

/-- The position accepts the operand's kind. -/
def Pos.accepts (q : Pos) : Operand → Bool
  | .v _ => q.v
  | .s _ => q.s
  | .imm => q.i
  | .p _ => q.p
  | .k _ => q.k
  | .b _ => q.b
  | .g _ => q.g
  | .o _ => q.o
  | .sr i => if i == 0x3F then q.z || (q.sr && !q.dst) else q.sr

/-- The operand's index is aligned for its width, and p15 is no destination (R145, R215). A 128-bit scalar
operand is named by an even scalar. -/
def Pos.indexOk (x : Enc) (q : Pos) : Operand → Bool
  | .v i => i.toNat % (x.span q.w).2 == 0
  | .s i => (x.span q.w).1 != 4 || i.toNat % 2 == 0
  | .p i => !(q.dst && i == 15)
  | _ => true

/-- A special register named in an operand is one the instruction accepts: SRGET reads indices 0x00 to
0x0C and %zero; SRSET writes %fpctl and %fpflags (Table 9.5, R257). -/
def specialOk (op : Op) (x : Enc) : Bool :=
  match op with
  | .srget =>
    match x.a with
    | .sr i => (i.toNat ≤ 0x0C || i == 0x3F) && !(i == 0 && x.d.isS)
    | _ => true
  | .srset =>
    match x.d with
    | .sr i => i == 0x08 || i == 0x09
    | _ => true
  | _ => true

/-- A scalar destination of majors 0x10 to 0x18 takes no vector source (R170). -/
def scalarDestOk (op : Op) (x : Enc) : Bool :=
  match (form op).uni with
  | .int => !x.d.isS || !((form op).a.used && x.a.isV || (form op).b.used && x.b.isV ||
      (form op).c.used && x.c.isV)
  | _ => true

/-- Operand rules of single instructions that can be read off the word: TRAP's code is fatal or routed to a vector
(R255, Tables 3.7 and 21.2); the count of WAITK and KSET is at most 255 (R229); JOINX's n is 1 to 8 (R274);
the immediate of STAGE and task operands likewise; VOTE's destination follows its mode (Table 11.5); the
16-bit immediates whose higher bits must be zero (R248). -/
def operandExtra (op : Op) (x : Enc) : Bool :=
  match op with
  | .waitk => !x.b.isImm || x.imm.toNat ≤ 255
  | .kset => !x.a.isImm || x.imm.toNat ≤ 255
  | .joinx => 1 ≤ x.imm.toNat && x.imm.toNat ≤ 8
  | .trap => (1 ≤ x.imm.toNat && x.imm.toNat ≤ 14) || (0x18 ≤ x.imm.toNat && x.imm.toNat ≤ 0x25)
  | .vote => if x.bits 3 2 = 3 then x.d.isV else !x.d.isV
  | .hitAccept => true
  | _ => true

/-- How many operands are the immediate (R147). -/
def immCount (x : Enc) : Nat :=
  (if x.d.isImm then 1 else 0) + (if x.a.isImm then 1 else 0) + (if x.b.isImm then 1 else 0) +
    (if x.c.isImm then 1 else 0) + (if x.e.isImm then 1 else 0)

/-- An optional position is in use: the third and fourth source of CVTP for four-element types (R201), E of
`.cas` (Table 13.6), the flag predicate of SHFL and BCAST where it is named (R207). -/
def optUsed (op : Op) (x : Enc) (y : Operand) : Bool :=
  match op with
  | .cvtp => x.ty.elems == 4
  | .atom | .atoms => x.bits 0 4 == 7
  | _ => !y.isUnused

/-- A position's operand breaks no operand rule. A position that the word does not use, an optional one among them
(R201), is a matter of the fields (R144). -/
def Pos.ok (op : Op) (x : Enc) (q : Pos) (y : Operand) : Bool :=
  if !q.used || (q.opt && !optUsed op x y) then true
  else q.accepts y && q.indexOk x y

/-- No operand of the word breaks R145, R147 or the form's own operand rules: else ILLEGAL_OPERAND. The
limits VREGS and SREGS and the rules of MSTREAM blocks are checked when the word issues. -/
def operandsOk (op : Op) (x : Enc) : Bool :=
  immCount x ≤ 1 && (positions op x).all (fun q => q.1.ok op x q.2) && specialOk op x && scalarDestOk op x &&
    operandExtra op x

/-! ### ILLEGAL_FIELD (R144, R147 to R155) -/

/-- Unused positions hold kind 0 and byte 0 (R144). -/
def unusedOk (op : Op) (x : Enc) : Bool :=
  (positions op x).all (fun q => q.1.used || q.2.isUnused)

/-- IMM16 is zero unless an operand reads it or the instruction gives it another use (R147). -/
def immFieldOk (op : Op) (x : Enc) : Bool :=
  (form op).immUse || immCount x != 0 || x.imm == 0

/-- A wait bit stands only with a vector source (R151). -/
def waitsOk (op : Op) (x : Enc) : Bool :=
  let f := form op
  let ok (q : Pos) (y : Operand) (w : Bool) : Bool := !w || (q.used && !q.dst && y.isV && (!q.opt || optUsed op x y))
  if f.major == 0x3C || f.major == 0x3D || f.major == 0x3E then !x.wa && !x.wb && !x.wc && !x.we
  else ok f.a x.a x.wa && ok f.b x.b x.wb && ok f.c x.c x.wc && ok f.e x.e x.we

/-- ORDER and SCOPE are a permitted pair (R125, R155). -/
def orderOk (op : Op) (x : Enc) : Bool :=
  match (form op).orders with
  | [] => true
  | os => os.contains x.order && x.scope != 7 && (x.order != 0 || x.scope == 0)

/-- Every value of the source element format is exact in the target (R200): the conversion is widening. -/
def widening (src dst : Ty) : Bool :=
  match src, dst with
  | .f32, .f64 | .f16x2, .f64 | .f16x2, .f32 | .bf16x2, .f64 | .bf16x2, .f32 => true
  | .e4m3x4, .f64 | .e4m3x4, .f32 | .e4m3x4, .f16x2 | .e4m3x4, .bf16x2 => true
  | .e5m2x4, .f64 | .e5m2x4, .f32 | .e5m2x4, .f16x2 | .e5m2x4, .bf16x2 => true
  | .i32, .f64 | .n32, .f64 => true
  | _, _ => false

/-- SAT is permitted (R81, R84, R150). -/
def satOk (op : Op) (x : Enc) : Bool :=
  if !x.sat then true else
  match op with
  | .cvt => x.ty.isNarrowFloat
  | .lred | .lscan => x.bits 3 3 = 0 && x.ty.isInt
  | .collReduce | .collRscatter => x.bits 0 3 = 0 && x.ty.isInt
  | _ => (form op).sat

/-- RND is permitted (R80, R150, R200, R201). -/
def rndOk (op : Op) (x : Enc) : Bool :=
  if x.rnd == 0 then true else
  match op with
  | .cvt => !widening x.sty x.ty
  | .cvtp => x.ty.isFloat
  | _ => (form op).rnd

/-- OP and TYPE of an atomic are a pair of Table 13.6; `.cas` alone names E. -/
def atomOk (x : Enc) (isRed : Bool) : Bool :=
  let sz := if x.ty.is64 then 1 else 0
  x.size == sz &&
  (match x.bits 0 4 with
  | 0 | 1 | 2 => x.ty != .b32
  | 3 | 4 | 5 | 6 => x.ty == .b32 || x.ty == .n64
  | 7 => !isRed && (x.ty == .b32 || x.ty == .n64)
  | 8 | 9 => x.ty == .n32
  | _ => false)

/-- OP and TYPE of a lane or collective reduction are a pair of Table 11.6. -/
def redOk (op : Nat) (t : Ty) : Bool :=
  match op with
  | 0 | 1 | 2 => t != .b32
  | 3 | 4 | 5 => t == .b32 || t == .n64
  | _ => false

/-- The access-size fields of loads, stores and copies (R155, R215, Table 13.2). -/
def sizeOk (x : Enc) : Bool :=
  (x.size == 3 || !x.subw) && !(x.size == 3 && x.ty.is64)

/-- The format pair of an MMA or GANG (Table 17.5). -/
def mmaOk (x : Enc) : Bool :=
  let bt := Ty.ofCode (x.bits 0 4)
  let p := x.bit 4
  let cplx := x.bit 5
  let tern := x.bit 6
  let is8 (t : Ty) : Bool := t == .i8x4 || t == .n8x4
  let isE (t : Ty) : Bool := t == .e4m3x4 || t == .e5m2x4
  if cplx && tern then false
  else if cplx then x.ty == .f64 && bt == .f64 && !p
  else if tern then x.ty == .t2x16 && is8 bt && !p
  else match x.ty with
    | .f64 => bt == .f64 && !p
    | .f32 => bt == .f32
    | .f16x2 => bt == .f16x2
    | .bf16x2 => bt == .bf16x2
    | .e4m3x4 | .e5m2x4 => isE bt
    | .i8x4 | .n8x4 => is8 bt && !p
    | _ => false

/-- Field rules of single instructions: the values of MOD sub-fields that their rules call illegal, and
optional operands that the form must have or must not have. -/
def fieldExtra (op : Op) (x : Enc) : Bool :=
  match op with
  | .srget => !x.d.isS || x.ty == .b32
  | .errinj => x.bits 0 4 < 8
  | .stageInit => x.bits 0 4 != 0 && x.bits 4 6 ≤ 32 && x.bits 10 6 ≤ 32
  | .regionClose => x.scope != 7
  | .icmp => x.bits 0 3 < 6 && x.bits 22 2 != 3
  | .lea => x.bits 0 3 ≤ 4
  | .movi | .movh => x.ty == .n64 || x.bits 0 2 ≤ 1
  | .i2i => x.sty.isInt && x.sty.elems == 1 && x.sty != x.ty
  | .dcmp | .fcmp | .hcmp2 => x.bits 6 4 < 14 && x.bits 22 2 != 3
  | .dclass | .fclass => x.bits 6 10 != 0 && x.bits 22 2 != 3
  | .cvt => tysCvt.contains x.sty && x.sty != x.ty && !(x.sty.isInt && x.ty.isInt) &&
      x.bits 4 2 < x.sty.elems
  | .cvtp =>
    if x.ty.isFloat then
      (x.sty == .f32 || x.sty == .f64) && (x.ty.elems == 4 || (x.c.isUnused && x.e.isUnused))
    else x.sty == .i32 && (x.ty.elems == 4 || (x.c.isUnused && x.e.isUnused))
  | .bcast => x.bits 0 3 == 0
  | .shfl | .vote | .matchLanes => x.bits 0 3 ≤ 6
  | .lred | .lscan => x.bits 0 3 ≤ 6 && redOk (x.bits 3 3) x.ty
  | .ld | .st | .lds | .sts => sizeOk x && x.scale ≤ 4
  | .cpaS => x.size != 3 && x.scale ≤ 4
  | .cpaG => x.size != 3 && x.scale ≤ 4
  | .cpaO => x.size != 3 && x.scale ≤ 4
  | .atom | .atoms => atomOk x false && x.scale ≤ 4 && (x.bits 0 4 == 7 || x.e.isUnused)
  | .red => atomOk x true && x.scale ≤ 4
  | .monwait => x.bits 0 4 != 0
  | .pref | .cwb | .cinv | .cwbAll | .cinvAll => x.scale ≤ 4
  | .mma | .mmaCplx | .mmaTern | .gang => mmaOk x
  | .collReduce | .collRscatter => redOk (x.bits 0 3) x.ty && 4 ≤ x.scope && x.scope != 7
  | .collBcast | .collAllgather => 4 ≤ x.scope && x.scope != 7
  | _ => true

/-- No field of the word breaks R144 and R147 to R155: else ILLEGAL_FIELD. The default guard that MSTREAM
blocks ask for is checked when the word issues. -/
def fieldsOk (op : Op) (x : Enc) : Bool :=
  let f := form op
  unusedOk op x && immFieldOk op x && waitsOk op x && f.tys.contains x.ty && rndOk op x && satOk op x &&
    (f.hints || (x.h1 == 0 && x.h2 == 0)) && (!uniform op x || x.defaultGuard) &&
    (x.md.toNat &&& (0xFFFFFF ^^^ f.mask)) == 0 && (x.md.toNat &&& f.selMask) == f.selVal &&
    orderOk op x && fieldExtra op x

end Sys2Proof
end

