-- ==== Sys2Proof/WellFormed.lean ====
section
/-!
DEFINITION. Which instructions are well-formed: an encoded instruction whose word breaks no operand rule
and no field rule that can be read off the word, and a step whose unit exists (Tables 1.1, 1.4, R65, R106).
-/
namespace Sys2Proof

/-- An encoded instruction breaks neither R145, R147 nor R144, R148 to R155. -/
def Enc.wf (op : Op) (x : Enc) : Bool := operandsOk op x && fieldsOk op x

/-- A partition number (R414). -/
def okPart (p : Nat) : Bool := p < 8
/-- A queue of a partition (R65). -/
def okQueue (q : Nat) : Bool := q < 64
/-- A physical core: 36 to a quadrant of four dies (R14). -/
def okCore (c : Nat) : Bool := c < 288
/-- A cluster (R14). -/
def okCluster (c : Nat) : Bool := c < 32
/-- An HBM channel: 32 to each of 12 stacks (R22). -/
def okChannel (c : Nat) : Bool := c < 384
/-- A bank of a channel (R346). -/
def okBank (b : Nat) : Bool := b < 32
/-- A slice of the L2: 512 to each of four dies (R21). -/
def okSlice (x : Nat) : Bool := x < 2048

/-- The well-formed steps that have no encoding: every unit they name exists. -/
def Instr.wfStep : Instr → Bool
  | .overlayLoadComplete c x _ => okCore c && x < 16
  | .regionBudgetGrant c => okCore c
  | .slotDrainEnd _ side slot => side < 2 && slot < 64
  | .arrayStep _ side _ => side < 2
  | .shaderDispatch _ k => 1 ≤ k && k ≤ 3
  | .queueTailWrite p q | .launchPacket p q | .fencePacket p q | .fencePacketPerform p q
  | .signalPacket p q | .chainEnd p q | .tasksPacket p q | .queueStatusWrite p q => okPart p && okQueue q
  | .queueDescriptorWrite p q w _ => okPart p && okQueue q && w < 4
  | .teamPlace p _ | .preemptStopAck p _ | .preemptRestore p _ => okPart p
  | .taskDispatch p | .taskDecrement p | .preemptSave p | .tlbiDone p | .release p => okPart p
  | .dirtyLineTimeout c _ => okCore c
  | .pageWalk c p x _ => okCore c && okPart p && x < 16
  | .l2SliceRequest x => okSlice x
  | .hbmRequest c _ _ _ | .retrainComplete c | .pinRepairTimeout c => okChannel c
  | .rfmThreshold c b | .refreshWindowEnd c b => okChannel c && okBank b
  | .rfmHoldEnd c b _ => okChannel c && okBank b
  | .ualinkMemoryRequest _ k _ d => (k < 2 || (k < 448 && k % 4 = 2)) && d.length ≤ 256
  | .collChunkArrival p _ _ _ _ _ => okPart p
  | .ualinkAppend _ p q d => okPart p && okQueue q && 16 ≤ d.length && d.length ≤ 256
  | .linkLevelRetry port _ => port < 16
  | .rdmaWrite p _ _ _ | .rdmaRead p _ _ _ | .udSend p _ _ => okPart p
  | .unitHaltStop p _ | .tlbiCtlWrite p _ | .haltRequest p _ | .frHeadWrite p _ | .frBaseWrite p _ => okPart p
  | .counterClear p o _ | .registerWrite p o _ => okPart p && o < 0x100000 && o % 8 = 0
  | .reserveCoreJobStart c | .inFieldTestEnd c _ => okCluster c
  | .testPeriodExpiry p c => okPart p && okCluster c
  | .coreRetire c => okCore c
  | .sliceRetire c x => okCore c && x < 32
  | .wayRetire l2 u set way => (if l2 then okSlice u else okCore u) && set < 512 && way < 12
  | .rowRemap c g r s => okChannel c && g < 8 && r < 262144 && s < 64
  | .dqRepair c l => okChannel c && l < 64
  | .layout _ _ p _ _ _ e u => okPart p && e.toNat ≤ 64 && u.toNat ≤ 64
  | .power _ _ w => 500 ≤ w && w ≤ 3600
  | .test _ _ p _ => okPart p
  | .overtempShutdown d => d < 9
  | .unitReady w b => w < 8 && b < 64
  | _ => true

/-- A well-formed instruction. -/
def Instr.wf (i : Instr) : Bool :=
  match i.enc? with
  | some (op, x) => x.wf op
  | none => i.wfStep

end Sys2Proof
end

