-- ==== Sys2Proof/Decode.lean ====
section
/-!
DEFINITION. The decoder of code words, total on every word (spec/09 R143, R144, R156 to R158), and the encoder
written from the same tables.
-/
namespace Sys2Proof

/-- The mnemonics of a MAJOR and MINOR (Table 9.12), as `64 * MAJOR + MINOR`: more than one where MOD bits
select the form (R156). -/
def minorOps (code : Nat) : List Op :=
  match code with
  | 0x1 => [.nop]
  | 0x2 => [.exit]
  | 0x3 => [.yield]
  | 0x4 => [.sleep]
  | 0x5 => [.trap]
  | 0x6 => [.tret]
  | 0x7 => [.srget]
  | 0x8 => [.srset]
  | 0x9 => [.replay]
  | 0xA => [.pfix]
  | 0xB => [.errinj]
  | 0x40 => [.bra]
  | 0x41 => [.bri]
  | 0x42 => [.brany]
  | 0x43 => [.brall]
  | 0x44 => [.loop]
  | 0x80 => [.call]
  | 0x81 => [.calli]
  | 0x82 => [.ret]
  | 0x83 => [.callo, .calloReg]
  | 0x84 => [.reto]
  | 0x85 => [.ovld, .ovldF]
  | 0x86 => [.ovwait]
  | 0x87 => [.ovhold]
  | 0x88 => [.ovdrop]
  | 0x89 => [.ovquery]
  | 0xC0 => [.plogic]
  | 0xC1 => [.ptos]
  | 0xC2 => [.stop]
  | 0xC3 => [.ppopc]
  | 0x100 => [.barSet]
  | 0x101 => [.barSync]
  | 0x102 => [.barArrive]
  | 0x103 => [.barWait]
  | 0x104 => [.syncl]
  | 0x105 => [.stageInit]
  | 0x106 => [.stagePost]
  | 0x107 => [.stageTake]
  | 0x140 => [.spmask]
  | 0x141 => [.joinx]
  | 0x180 => [.suspend]
  | 0x181 => [.resume]
  | 0x182 => [.codrop]
  | 0x183 => [.coinfo]
  | 0x184 => [.tkdone]
  | 0x185 => [.tkadd]
  | 0x186 => [.tkpeek]
  | 0x187 => [.launch]
  | 0x1C0 => [.regionOpen]
  | 0x1C1 => [.regionClose]
  | 0x1C2 => [.regionAbort]
  | 0x1C3 => [.regionInfo]
  | 0x400 => [.iadd]
  | 0x401 => [.isub]
  | 0x402 => [.iadd3]
  | 0x403 => [.iaddc]
  | 0x404 => [.ineg]
  | 0x405 => [.iabs]
  | 0x440 => [.imul]
  | 0x441 => [.imulh]
  | 0x442 => [.imad]
  | 0x443 => [.imadw]
  | 0x480 => [.idiv]
  | 0x481 => [.irem]
  | 0x4C0 => [.imin]
  | 0x4C1 => [.imax]
  | 0x4C2 => [.icmp]
  | 0x4C3 => [.sel]
  | 0x500 => [.logic3]
  | 0x540 => [.shl]
  | 0x541 => [.shr]
  | 0x542 => [.sar]
  | 0x543 => [.rol]
  | 0x544 => [.ror]
  | 0x545 => [.shf]
  | 0x580 => [.bfx]
  | 0x581 => [.bfi]
  | 0x582 => [.popc]
  | 0x583 => [.clz]
  | 0x584 => [.ctz]
  | 0x585 => [.brev]
  | 0x586 => [.permb]
  | 0x5C0 => [.lea]
  | 0x600 => [.mov]
  | 0x601 => [.movi]
  | 0x602 => [.movh]
  | 0x603 => [.i2i]
  | 0x800 => [.dadd]
  | 0x801 => [.dsub]
  | 0x802 => [.dmul]
  | 0x803 => [.dfma]
  | 0x804 => [.ddiv]
  | 0x805 => [.dsqrt]
  | 0x806 => [.dmin]
  | 0x807 => [.dmax]
  | 0x808 => [.dround]
  | 0x840 => [.fadd]
  | 0x841 => [.fsub]
  | 0x842 => [.fmul]
  | 0x843 => [.ffma]
  | 0x844 => [.fdiv]
  | 0x845 => [.fsqrt]
  | 0x846 => [.fmin]
  | 0x847 => [.fmax]
  | 0x848 => [.fround]
  | 0x880 => [.hadd2]
  | 0x882 => [.hmul2]
  | 0x883 => [.hfma2]
  | 0x886 => [.hmin2]
  | 0x887 => [.hmax2]
  | 0x8C0 => [.dcmp]
  | 0x8C1 => [.dclass]
  | 0x8C2 => [.fcmp]
  | 0x8C3 => [.fclass]
  | 0x8C4 => [.hcmp2]
  | 0x900 => [.cvt]
  | 0x901 => [.cvtp]
  | 0x902 => [.scaleb]
  | 0x940 => [.rcp]
  | 0x941 => [.rsq]
  | 0x942 => [.exp2]
  | 0x943 => [.log2]
  | 0x944 => [.sin]
  | 0x945 => [.cos]
  | 0x980 => [.rng]
  | 0x981 => [.sigacc]
  | 0x9C0 => [.shfl]
  | 0x9C1 => [.bcast]
  | 0x9C2 => [.vote]
  | 0x9C3 => [.matchLanes]
  | 0x9C4 => [.lred]
  | 0x9C5 => [.lscan]
  | 0xC00 => [.ld]
  | 0xC01 => [.ldb]
  | 0xC02 => [.lds]
  | 0xC40 => [.st]
  | 0xC41 => [.stb]
  | 0xC42 => [.sts]
  | 0xC80 => [.cpaS, .cpaG, .cpaO]
  | 0xC81 => [.cptS, .cptO]
  | 0xCC0 => [.waitk]
  | 0xCC1 => [.kset]
  | 0xCC2 => [.kget]
  | 0xD00 => [.atom]
  | 0xD01 => [.atoms]
  | 0xD02 => [.red]
  | 0xD40 => [.dqpush]
  | 0xD41 => [.dqpop]
  | 0xD42 => [.dqsteal]
  | 0xD43 => [.monarm]
  | 0xD44 => [.monwait]
  | 0xD80 => [.fence]
  | 0xD81 => [.pref]
  | 0xD82 => [.cwb, .cwbAll]
  | 0xD83 => [.cinv, .cinvAll]
  | 0xF00 => [.slotClaim]
  | 0xF01 => [.slotRelease]
  | 0xF02 => [.slotReady]
  | 0xF03 => [.slotState]
  | 0xF04 => [.slotWrite]
  | 0xF05 => [.slotRead]
  | 0xF08 => [.mma, .mmaCplx, .mmaTern]
  | 0xF09 => [.scacc]
  | 0xF10 => [.accZero]
  | 0xF11 => [.accLoad]
  | 0xF12 => [.accStore]
  | 0xF13 => [.accMove]
  | 0xF18 => [.seqLoopAdd, .seqLoopMadd, .seqLoopLdq, .seqLoopStq, .seqLoopFlags]
  | 0xF19 => [.seqEnd]
  | 0xF1A => [.gang]
  | 0xF40 => [.bldBuild]
  | 0xF41 => [.bldRefit]
  | 0xF42 => [.bldRebal]
  | 0xF43 => [.bldPublish]
  | 0xF44 => [.bldStat]
  | 0xF48 => [.genPin]
  | 0xF49 => [.genUnpin]
  | 0xF50 => [.trace]
  | 0xF51 => [.probeSph, .probeBox]
  | 0xF58 => [.hitAccept]
  | 0xF59 => [.hitIgnore]
  | 0xF5A => [.hitEnd]
  | 0xF5B => [.trvInfoWait, .trvInfoCnt, .trvInfoKind]
  | 0xF80 => [.collReduce]
  | 0xF81 => [.collBcast]
  | 0xF82 => [.collAllgather]
  | 0xF83 => [.collRscatter]
  | 0xF88 => [.collWait]
  | 0xF89 => [.collStatus]
  | _ => []

/-- The form selected by MOD bits among the forms of one minor. -/
def pickForm (md : Nat) : List Op → Option Op
  | [] => none
  | op :: ops => if md &&& (form op).selMask == (form op).selVal then some op else pickForm md ops

/-- An operand field (Table 9.4); none for a reserved combination. -/
def decodeOperand (kind : BitVec 2) (byte : BitVec 8) : Option Operand :=
  match kind.toNat with
  | 0 => some (.v byte)
  | 1 => if byte.extractLsb' 6 2 == 0 then some (.s (byte.extractLsb' 0 6)) else none
  | 2 => if byte == 0 then some .imm else none
  | _ =>
    match (byte.extractLsb' 6 2).toNat with
    | 0 => if byte.extractLsb' 4 2 == 0 then some (.p (byte.extractLsb' 0 4)) else none
    | 1 =>
      match (byte.extractLsb' 4 2).toNat with
      | 0 => some (.k (byte.extractLsb' 0 4))
      | 1 => some (.b (byte.extractLsb' 0 4))
      | 2 => if byte.getLsbD 3 then none else some (.g (byte.extractLsb' 0 3))
      | _ => none
    | 2 => some (.o (byte.extractLsb' 0 6))
    | _ => some (.sr (byte.extractLsb' 0 6))

/-- The kind of an operand (Table 9.4). -/
def operandKind : Operand → BitVec 2
  | .v _ => 0 | .s _ => 1 | .imm => 2 | _ => 3

/-- The byte of an operand (Table 9.4). -/
def operandByte : Operand → BitVec 8
  | .v i => i
  | .s i => 0#2 ++ i
  | .imm => 0
  | .p i => 0#4 ++ i
  | .k i => 0x4#4 ++ i
  | .b i => 0x5#4 ++ i
  | .g i => 0x0C#5 ++ i
  | .o i => 2#2 ++ i
  | .sr i => 3#2 ++ i

/-- MAJOR of a word (Table 9.3). -/
def wordMajor (w : Word) : Nat := (w.extractLsb' 122 6).toNat
/-- MINOR of a word (Table 9.3). -/
def wordMinor (w : Word) : Nat := (w.extractLsb' 116 6).toNat

/-- The fields of a word that are no operands (Table 9.3), the operands empty. -/
def plainFields (w : Word) : Enc :=
  { d := .v 0, a := .v 0, b := .v 0, c := .v 0, e := .v 0
    gp := w.extractLsb' 62 4, gpi := w.getLsbD 61, gq := w.extractLsb' 57 4, gqi := w.getLsbD 56
    ty := Ty.ofCode (w.extractLsb' 52 4).toNat, rnd := w.extractLsb' 50 2, sat := w.getLsbD 49
    wa := w.getLsbD 48, wb := w.getLsbD 47, wc := w.getLsbD 46, we := w.getLsbD 45
    yld := w.getLsbD 44, h1 := w.extractLsb' 42 2, h2 := w.extractLsb' 40 2
    imm := w.extractLsb' 24 16, md := w.extractLsb' 0 24 }

/-- The form reads an operand field: a position it uses, and an optional one where the word's TYPE and MOD use it. -/
def Pos.reads (op : Op) (x : Enc) (q : Pos) : Bool := q.used && (!q.opt || optUsed op x .imm)

/-- An operand field where the form reads it; one it does not read holds no operand (R144). -/
def readField (reads : Bool) (kind : BitVec 2) (byte : BitVec 8) : Option Operand :=
  if reads then decodeOperand kind byte else some (.v 0)

/-- The fields of a word as a form reads them; none where an operand holds a reserved combination (R145). -/
def decodeEnc (op : Op) (w : Word) : Option Enc :=
  let x := plainFields w
  let f := form op
  match readField (f.d.reads op x) (w.extractLsb' 74 2) (w.extractLsb' 108 8),
        readField (f.a.reads op x) (w.extractLsb' 72 2) (w.extractLsb' 100 8),
        readField (f.b.reads op x) (w.extractLsb' 70 2) (w.extractLsb' 92 8),
        readField (f.c.reads op x) (w.extractLsb' 68 2) (w.extractLsb' 84 8),
        readField (f.e.reads op x) (w.extractLsb' 66 2) (w.extractLsb' 76 8) with
  | some d, some a, some b, some c, some e => some { x with d, a, b, c, e }
  | _, _, _, _, _ => none

/-- The operand fields that the form does not read hold kind 0 and byte 0 (R144). -/
def unreadClear (op : Op) (w : Word) : Bool :=
  let x := plainFields w
  let f := form op
  (f.d.reads op x || (w.extractLsb' 74 2 == 0 && w.extractLsb' 108 8 == 0)) &&
    (f.a.reads op x || (w.extractLsb' 72 2 == 0 && w.extractLsb' 100 8 == 0)) &&
    (f.b.reads op x || (w.extractLsb' 70 2 == 0 && w.extractLsb' 92 8 == 0)) &&
    (f.c.reads op x || (w.extractLsb' 68 2 == 0 && w.extractLsb' 84 8 == 0)) &&
    (f.e.reads op x || (w.extractLsb' 66 2 == 0 && w.extractLsb' 76 8 == 0))

/-- What a code word is. The operand and field defects keep what was read, because ROLE, PRIVILEGE and
the operand limits of the launch come before them in R158. -/
inductive Decoded where
  /-- a block header: MAJOR 0x3F (R140) -/
  | header
  /-- MAJOR or MINOR reserved: ILLEGAL_OPCODE (R157) -/
  | illegalOpcode
  /-- an operand breaks R145 or R147: ILLEGAL_OPERAND -/
  | illegalOperand (op : Op)
  /-- a field breaks R144 or R148 to R155: ILLEGAL_FIELD, once the operand limits of the launch hold -/
  | illegalField (op : Op) (x : Enc)
  /-- an instruction -/
  | ok (op : Op) (x : Enc)
  deriving DecidableEq, Repr

/-- The form whose operand positions a word fits, where its DST field names none (R214). -/
def fitForm (w : Word) (op₀ : Op) (ops : List Op) : Op :=
  (ops.find? (fun op => (decodeEnc op w).any (operandsOk op))).getD op₀

/-- The decoder of a code word. -/
def decode (w : Word) : Decoded :=
  if wordMajor w = 0x3F then .header
  else
    match minorOps (64 * wordMajor w + wordMinor w) with
    | [] => .illegalOpcode
    | op₀ :: ops =>
      let sel := pickForm (w.extractLsb' 0 24).toNat (op₀ :: ops)
      let op := sel.getD (fitForm w op₀ (op₀ :: ops))
      match decodeEnc op w with
      | none => .illegalOperand op
      | some x =>
        if !operandsOk op x then .illegalOperand op
        else if sel.isNone || !unreadClear op w || !fieldsOk op x then .illegalField op x
        else .ok op x

/-- The instruction of a code word, where it is one. -/
def decodeInstr (w : Word) : Option Instr :=
  match decode w with
  | .ok op x => some (Instr.ofOp x op)
  | _ => none

/-- The word of the fields (Table 9.3). -/
def encodeEnc (major minor : Nat) (x : Enc) : Word :=
  BitVec.ofNat 6 major ++ BitVec.ofNat 6 minor ++ operandByte x.d ++ operandByte x.a ++ operandByte x.b ++
    operandByte x.c ++ operandByte x.e ++ operandKind x.d ++ operandKind x.a ++ operandKind x.b ++
    operandKind x.c ++ operandKind x.e ++ x.gp ++ BitVec.ofBool x.gpi ++ x.gq ++ BitVec.ofBool x.gqi ++
    BitVec.ofNat 4 x.ty.code ++ x.rnd ++ BitVec.ofBool x.sat ++ BitVec.ofBool x.wa ++ BitVec.ofBool x.wb ++
    BitVec.ofBool x.wc ++ BitVec.ofBool x.we ++ BitVec.ofBool x.yld ++ x.h1 ++ x.h2 ++ x.imm ++ x.md

/-- The word of an instruction; a step without an encoding has none. -/
def encode (i : Instr) : Option Word :=
  match i.enc? with
  | some (op, x) => some (encodeEnc (form op).major (form op).minor x)
  | none => none

/-- A word from its bytes, the least significant at the lowest address (R7). -/
def wordOfBytes : List Byte → Nat
  | [] => 0
  | b :: bs => b.toNat + 256 * wordOfBytes bs

/-- The bytes of a number, least significant first (R7). -/
def bytesOf : Nat → Nat → List Byte
  | 0, _ => []
  | n + 1, v => BitVec.ofNat 8 v :: bytesOf n (v / 256)

/-- The decoder on bytes: a code word is the first 16 (R136); fewer than 16 are no word. -/
def decodeBytes (bs : List Byte) : Option (Decoded × List Byte) :=
  if bs.length < 16 then none
  else some (decode (BitVec.ofNat 128 (wordOfBytes (bs.take 16))), bs.drop 16)

/-- The instruction the decoder reads from an instruction whose bits are `w`, numbered as the opcode table
numbers them: the word's bits laid out as the hardware stores them (R7), bits above `nbits` zero. -/
def decodeTableWord (nbits w : Nat) : Option Instr :=
  match decodeBytes (bytesOf 16 (w % 2 ^ nbits)) with
  | some (.ok op x, _) => some (Instr.ofOp x op)
  | _ => none

end Sys2Proof
end

