-- ==== Sys2Proof/Config.lean ====
section
/-!
DEFINITION. What an implementation fixes and the spec leaves open: constants without a body, so that
no proof can see a value of them (notes/assumptions/2).
-/
namespace Sys2Proof.Config

/-- A value the spec leaves open (log entry 2): applied to the counter `State.draws`, which each use
advances, so that no two uses are tied together. -/
opaque freeValue : Nat → BitVec 64

/-- Which of the qualifying cores a team goes to is not architected (R69): the draw, taken modulo the
number of candidates. -/
opaque corePick : Nat → Nat

/-- Which way of a full L1 set is replaced is not stated (R116): the draw, modulo the candidates. -/
opaque l1Pick : Nat → Nat

/-- Where Mantle puts a partition's tables for context 0 in Sageip's memory, and at which 64 MiB of the last 64 GiB it
maps the management window (R425 states neither). -/
opaque sageTables : Nat → Nat
opaque windowSlot : Nat → Nat

/-- Where the private block of a Sageip group lies in Sageip's memory, by partition and %groupid (R425 names none). -/
opaque sagePriv : Nat → Nat → Nat

/-- A digest of Mantle's: the quote and its signature (R429) over the bytes given. The signature
scheme is outside the spec. -/
opaque signature : List (BitVec 8) → List (BitVec 8)

/-- Mantle's hash of a firmware bank (R429). -/
opaque bankHash : List (BitVec 8) → BitVec 256

end Sys2Proof.Config
end

