-- ==== Sys2Proof/Machine/State.lean ====
section
/-!
DEFINITION. The state of the package as plain data, why a step can stop, and the state after reset.
INVENTORY.md, '## State', lists every piece with the rule of spec/ that names it.
-/
namespace Sys2Proof.Machine

/-- A map from numbers, in ascending order of its keys. -/
abbrev Amap (α : Type) := List (Nat × α)
/-- Sparse words by number: a key that is not listed reads 0, and no entry holds 0. -/
abbrev Store (w : Nat) := List (Nat × BitVec w)
/-- Memory: bytes by address, in the canonical form of `Memory.wf`. -/
abbrev Memory := List Host.Cell

/-- Why the machine stops with a fault. -/
inductive Fault where
  /-- The package has no power: after OVERTEMP_SHUTDOWN nothing runs until POWER_ON_RESET (R430). Raised by
  `step` and by every step but POWER_ON_RESET; safe: the spec gives no behaviour without power. -/
  | noPower
  deriving DecidableEq, Repr

/-- Why an instruction is refused. -/
inductive Refusal where
  /-- The instruction has no meaning in the model yet; raised by `exec`; safe. -/
  | notModelled (mnemonic : String)
  deriving DecidableEq, Repr

/-- Why an access cannot be performed: event code, table level, MALFORMED, POISONED, REMOTE (Table 13.3). -/
structure Fail where
  cause : Nat
  level : Nat := 0
  malformed : Bool := false
  poisoned : Bool := false
  remote : Bool := false
  deriving DecidableEq, Repr

/-! ### Groups -/

/-- A role of Table 3.2. -/
inductive Role where
  | vector | copy | system
  deriving DecidableEq, Repr

/-- What an instruction at a split's PC still waits for, once its arrival, request or arming is done
(R285: a split marked WAITING). -/
inductive Wait where
  | none
  /-- a phase of a team barrier (R48) -/
  | barrier (b phase : Nat)
  /-- the lanes of a SYNCL round (R50) -/
  | syncl (mask : BitVec 64)
  /-- a post lap of a stage (R51) -/
  | stage (g i lap : Nat)
  /-- a monitor of the mask, or the clk of the timeout (R240) -/
  | mon (mask : BitVec 4) (until_ : Option Nat)
  /-- the grant of a region budget (R54), or the commit (R57) -/
  | region
  /-- the answer of an access performed at home (R235, R237, R239) -/
  | reply
  /-- the status of a Tailor operation (R383) -/
  | tailor
  /-- REPLAY of the uniform access at this PC (R218) -/
  | fault
  /-- the exceptions of a long-latency producer (R173) -/
  | trapHold (producer : Nat)
  /-- accesses of a group that a REPLAY re-performs at a home (R258) -/
  | replayed (gid op : Nat)
  /-- a split that a RESUME placed marked WAITING: its wait takes complete at once (R241, R288) -/
  | resumed
  deriving DecidableEq, Repr

/-- What a replay entry keeps of an unfinished uniform instruction: the scalars as they were when it issued (R220, R221),
and whether it is a RESUME whose cloak is RESUMING (R287). -/
structure Caught where
  sregs : Store 64
  resuming : Bool := false
  deriving DecidableEq, Repr

/-- A split (R34). -/
structure Split where
  pc : Pc
  mask : BitVec 64
  /-- reconvergence stack, top first, at most 8 (R34) -/
  stack : List Pc := []
  parked : Bool := false
  wait : Wait := .none
  /-- the first clk at which the split may issue (SLEEP R253, YLD R152) -/
  readyAt : Nat := 0
  /-- the clk from which the split's age counts (R39) -/
  age : Nat := 0
  /-- the instruction it waits at has YLD set (R152) -/
  yld : Bool := false
  /-- the instruction it waits at, which has been fetched -/
  issued : Option (Op × Enc) := none
  /-- a fetch found its overlay gone: the header of the block is read again before the word (R271) -/
  reread : Bool := false
  /-- the operands of the instruction it waits at, as they were when that issued (R220) -/
  caught : Option Caught := none
  deriving DecidableEq, Repr

/-- One access of an instruction: the lane it is for, its effective address (or scratchpad offset) as formed,
whether forming it failed (R216), and the data of a store. -/
structure LaneAcc where
  lane : Nat
  addr : BitVec 64
  size : Nat
  bad : Bool := false
  data : BitVec 128 := 0
  /-- first register the bytes go to or come from -/
  reg : Nat := 0
  /-- one byte of an unaligned access, performed alone (R129) -/
  cut : Bool := false
  deriving DecidableEq, Repr

/-- A register write of a producer: register, lane, value. -/
structure RegWrite where
  reg : Nat
  lane : Nat
  val : W32
  deriving DecidableEq, Repr

/-- What a long-latency producer (R153) still has to do when its data arrives. -/
inductive ProdKind where
  /-- results of the iterative unit (R173), with the exceptions they record in each copy; `trap` holds the
  lanes and the enabled exceptions of an FP_TRAP -/
  | value (writes : List RegWrite) (flags flagsSh : BitVec 5) (trap : Option (BitVec 64 × BitVec 5))
  /-- a load of global memory (R224, R226) -/
  | load (signed : Bool) (accs : List LaneAcc)
  /-- a scratchpad load (R227) -/
  | loadS (signed : Bool) (accs : List LaneAcc)
  /-- data of the accumulator store or an operand slot on its way (R305, R311), with the registers and lanes that
  read poison: first register, registers a lane, lanes -/
  | deliver (writes : List RegWrite) (bad : List (Nat × Nat × BitVec 64))
  deriving DecidableEq, Repr

/-- A long-latency producer in flight. -/
structure Producer where
  id : Nat
  pc : Pc
  split : Nat
  kind : ProdKind
  /-- first destination register, registers a lane -/
  d : Nat
  nregs : Nat
  /-- bytes of each lane's access -/
  size : Nat
  lanes : BitVec 64
  counter : Option Nat
  order : Nat := 0
  scope : Nat := 0
  uniform : Bool := false
  h1 : Nat := 0
  h2 : Nat := 0
  /-- bytes of a load that were performed before the rest (R129): value, poisoned, PTRAP of its page; byte i of the
  access of a lane for register r is number 2^12 × lane + 4 r + i -/
  early : Amap (BitVec 8 × Bool × Bool) := []
  deriving DecidableEq, Repr

/-- Lanes of a register group that read poison and wait for PFIX (R135, R259). -/
structure PoisonPend where
  d : Nat
  nregs : Nat
  lanes : BitVec 64
  /-- the counter of the instruction and its handle: it completes when it has no lane pending (R259) -/
  counter : Option Nat
  op : Nat
  deriving DecidableEq, Repr

/-- What a store-queue entry does when it leaves the queue (R222, R244). -/
inductive StKind where
  | store | cwb (l2 : Bool) | cinv (l2 : Bool) | cwbAll (l2 : Bool) | cinvAll (l2 : Bool)
  deriving DecidableEq, Repr

/-- A store-queue entry (R123, R222). -/
structure StoreEntry where
  id : Nat
  pc : Pc
  split : Nat
  kind : StKind
  accs : List LaneAcc
  order : Nat
  scope : Nat
  uniform : Bool := false
  h1 : Nat := 0
  h2 : Nat := 0
  /-- issued in an open region: its lanes are held (R117) -/
  held : Bool := false
  /-- bytes of an access, as a record names them (Table 13.4) -/
  size : Nat := 0
  /-- lanes performed before the rest (R129) -/
  performed : BitVec 64 := 0
  deriving DecidableEq, Repr

/-- Who sends a request to a slice (R120): class 0 core, 1 traversal unit, 2 Tailor, 3 collective engine,
4 UALink, 5 Ethernet, 6 page walker, 7 task engine; and the instance number. -/
structure Source where
  cls : Nat
  inst : Nat
  deriving DecidableEq, Repr

/-- Deque operations (R237). -/
inductive DqOp where
  | push | pop | steal
  deriving DecidableEq, Repr

/-- What a request asks of its home slice. -/
inductive ReqKind where
  /-- one lane of an ATOM or RED: operation, type, operands, destination register (R234, R235) -/
  | atomic (lane op : Nat) (ty : Ty) (c e : BitVec 64) (d : Option Nat)
  | deque (op : DqOp) (c : BitVec 64) (d e : Nat)
  | monarm (mon d : Nat)
  /-- RESUME: its b, whether b is %zero, its destination (R287) -/
  | resume (b : BitVec 64) (zero : Bool) (d : Nat)
  | codrop (d : Nat)
  /-- COINFO's read (R289) -/
  | coinfo (d : Nat)
  /-- SUSPEND's write of STATE, once the cloak is written (R283) -/
  | suspend
  deriving DecidableEq, Repr

/-- A request waiting at its home slice (R120). -/
structure SliceReq where
  slice : Nat
  src : Source
  gid : Nat
  split : Nat
  pc : Pc
  /-- virtual and physical address -/
  va : BitVec 64
  pa : Nat
  ptrap : Bool
  cpol : Nat := 0
  h2 : Nat := 0
  kind : ReqKind
  order : Nat
  scope : Nat
  chain : Nat
  /-- the instruction this lane belongs to -/
  op : Nat
  deriving DecidableEq, Repr

/-- What a replay entry (R220) re-performs: lanes of a load in flight, of the store at the head of the queue, of
a copy, of an atomic, or the uniform access of a split; a scratchpad access is kept to be reported again. -/
inductive ReplayWhat where
  | prod (id : Nat) | store | copy (id : Nat) | uniform (split : Nat) | atomic | scratch
  deriving DecidableEq, Repr

/-- A replay entry (R220): its place in program order, the lanes of UNF, the failing accesses with the cause of
the first, access kind and size (Table 13.4), and the requests of an atomic. -/
structure Replay where
  what : ReplayWhat
  id : Nat
  pc : Pc
  lanes : BitVec 64
  cause : Nat
  kind : Nat
  size : Nat
  /-- a uniform instruction, whose split issues nothing further (R218) -/
  uniform : Bool := false
  split : Nat := 0
  accs : List LaneAcc := []
  reqs : List SliceReq := []
  deriving DecidableEq, Repr

/-- An atomic instruction whose lanes are being performed (R235): its lanes that failed with their requests, the
lanes done, and the poisoned lanes with their addresses. -/
structure AtomOp where
  id : Nat
  split : Nat
  pc : Pc
  d : Option Nat
  nregs : Nat
  size : Nat
  order : Nat
  scope : Nat
  fails : List (SliceReq × Fail) := []
  done : BitVec 64 := 0
  poisoned : List (Nat × BitVec 64) := []
  /-- every poisoned lane's page has PTRAP set -/
  ptrap : Bool := true
  deriving DecidableEq, Repr

/-- An event on its way to the group (R354). -/
structure Event where
  code : Nat
  /-- precise, or asynchronous -/
  precise : Bool
  split : Nat
  epc : Pc
  lanes : BitVec 64
  info : BitVec 64
  info2 : BitVec 64
  /-- HOLDFULL (Table 21.3) -/
  holdFull : Bool := false
  /-- SOFT: raised by TRAP (R255) -/
  soft : Bool := false
  /-- raised by MONARM: RPC is EPC (R357) -/
  again : Bool := false
  /-- the addresses of poisoned lanes (Table 21.3) -/
  addrs : List (Nat × BitVec 64) := []
  /-- the handle of the instruction that caused it: tells an event of the handler's own instructions (R357) -/
  op : Nat := 0
  deriving DecidableEq, Repr

/-- What a group sets aside while a handler runs (R356), and what the entry was. -/
structure Aside where
  splits : Amap Split
  ovf : List Split
  split : Nat
  epc : Pc
  ipc : Pc
  code : Nat
  rolled : Bool
  /-- the REGION.OPEN an entry was rolled back to (R355) -/
  regionPc : Pc
  /-- instructions with a lower handle were issued before the entry -/
  mark : Nat
  /-- the first register that a POISON event names, and how many (R259) -/
  named : Nat × Nat := (0, 0)
  deriving DecidableEq, Repr

/-- States of a region (Table 3.3). -/
inductive RegionSt where
  | none | waiting | opened | committing | aborted
  deriving DecidableEq, Repr

/-- A held line (R117): the bytes of the mask, the virtual 64-KiB pages it was stored through (R112), and the hints of
the last store to it (R154). -/
structure HeldLine where
  data : BitVec 1024
  mask : BitVec 128
  pages : List Nat := []
  h1 : Nat := 0
  h2 : Nat := 0
  /-- parts that an error has struck during the commit (R328) -/
  poison : BitVec 8 := 0
  deriving DecidableEq, Repr

/-- The snapshot of R54. -/
structure Snapshot where
  nv : Nat
  ns : Nat
  vregs : Store 32
  sregs : Store 64
  preds : Store 16
  fpctl : BitVec 5
  fpflags : BitVec 5
  fpflagsSh : BitVec 5
  /-- the split that issued the REGION.OPEN, and its entry -/
  entry : Nat
  split : Split
  deriving DecidableEq, Repr

/-- The region of a group (R53 to R58, R337). -/
structure Region where
  st : RegionSt := .none
  budget : Nat := 0
  openPc : Pc := 0
  held : Amap HeldLine := []
  snap : Option Snapshot := none
  scope : Nat := 0
  closePc : Pc := 0
  /-- reservation granted, the record write waits for REPLAY (R54) -/
  granted : Bool := false
  /-- selected for audit (R337); lines logged with their contents (R338) -/
  audited : Bool := false
  logged : Amap (BitVec 1024) := []
  /-- the slots of the input log that hold those lines, in the order logged -/
  logSlots : List Nat := []
  /-- errors met so far by the region and its replays (R332) -/
  tries : Nat := 0
  /-- instructions with this handle or a higher one were issued inside the region -/
  mark : Nat := 0
  deriving DecidableEq, Repr

/-- A monitor of a group (R239): the line it is armed on, and whether it has fired. -/
structure Monitor where
  line : Nat
  va : BitVec 64
  fired : Bool
  deriving DecidableEq, Repr

/-- A tag of a group (R411). -/
structure CollTag where
  st : Nat
  status : BitVec 64
  scope : Nat
  deriving DecidableEq, Repr

/-- An armed injection (R260). -/
structure Inject where
  kind : Nat
  lane : Nat
  reg : Nat
  left : Nat
  deriving DecidableEq, Repr

/-- What a shader group answers for (R390, R391): the traversal, the shader kind, and for each lane its query
and the answer given (0 none, 1 accept, 2 ignore, 3 end) with the t of an intersection shader. -/
structure ShaderCtx where
  trav : Nat
  kind : Nat
  block : Nat
  rays : Amap Nat
  answers : Amap (Nat × W32)
  deriving DecidableEq, Repr

/-- A round of SYNCL arrivals (R50). -/
structure SynclRound where
  mask : BitVec 64
  arrived : BitVec 64
  splits : List Nat
  deriving DecidableEq, Repr

/-- A resident group (R31). -/
structure Group where
  serial : BitVec 64
  part : Nat
  ctx : Nat
  team : Nat
  /-- %groupid -/
  index : Nat
  /-- physical core, side, group slot, first 4-lane slice and number of slices (R17, R18) -/
  core : Nat
  side : Nat
  slot : Nat
  slice0 : Nat
  slices : Nat
  width : Nat
  lined : Bool
  role : Role
  sageip : Bool := false
  /-- VREGS and SREGS of the launch -/
  nv : Nat
  ns : Nat
  priv : BitVec 64
  privSize : Nat
  /-- v_r of lane l at 64 r + l; the shadow copy of a lined group at lanes W to 2W - 1 (R175) -/
  vregs : Store 32 := []
  empty : List Nat := []
  /-- registers whose parity failed (R322), v_r at r, s_j at 256 + j, p_i at 512 + i: damaged until they are written -/
  damaged : List Nat := []
  /-- values whose parity is wrong and that no read has met yet (R321): v_r of lane l at 64 r + l, s_j of copy k at
  2^15 + 64 k + j, p_i of lane l at 2^16 + 16 l + i -/
  latent : List Nat := []
  /-- a datapath of this lane computes its next result with an error that the residue check finds (R321) -/
  residue : Option Nat := none
  /-- s_j at j; the shadow copy at 64 + j -/
  sregs : Store 64 := []
  /-- p0 to p14 of each lane -/
  preds : Store 16 := []
  fpctl : BitVec 5 := 0
  fpflags : BitVec 5 := 0
  fpflagsSh : BitVec 5 := 0
  counters : Store 8 := []
  live : BitVec 64
  splits : Amap Split
  ovf : List Split := []
  aside : Option Aside := none
  events : List Event := []
  holds : Amap (BitVec 32) := []
  mons : Amap Monitor := []
  region : Region := {}
  gen : BitVec 32 := 0
  genDesc : BitVec 64 := 0
  trvCount : Nat := 0
  tags : Amap CollTag := []
  inj : Option Inject := none
  prods : List Producer := []
  pend : List PoisonPend := []
  storeQ : List StoreEntry := []
  /-- the accesses of a scratchpad store that are not performed yet (R129) -/
  sts : Option (Nat × List LaneAcc) := none
  atoms : List AtomOp := []
  /-- scope of the widest FENCE with release so far: later stores act as releases (R128) -/
  fenceRel : Option Nat := none
  replayG : Option Replay := none
  replayS : Option Replay := none
  shader : Option ShaderCtx := none
  synclRound : Option SynclRound := none
  /-- the reserve-core job this group runs for (R28, R329, R339) -/
  job : Option Nat := none
  /-- stopped by a pre-emption or a halt: issues nothing (R360, R363) -/
  stopped : Bool := false
  /-- restored with events that came before its cloak was written: they are delivered before its first issue (R365) -/
  kept : Bool := false
  deriving DecidableEq, Repr

/-! ### Teams -/

/-- The fields of a LAUNCH packet (Table 3.6). -/
structure Launch where
  coresAll : Bool := false
  pair : Bool := false
  lining : Bool := false
  acceptPoison : Bool := false
  audit : Nat := 0
  width : Nat := 16
  chain : Nat := 0
  groups : Nat := 1
  vregs : Nat := 1
  sregs : Nat := 1
  slots : Nat := 0
  pockets : Nat := 1
  scratch : Nat := 0
  rgnMax : Nat := 0
  rgnCore : Nat := 0
  seqEntry : Pc := 0
  entry : Pc := 0
  poisonVal : W32 := 0
  root : BitVec 64 := 0
  args : BitVec 64 := 0
  gx : Nat := 1
  gy : Nat := 1
  gz : Nat := 1
  privSize : Nat := 4096
  priv : BitVec 64 := 0
  roles : List Role := []
  deriving DecidableEq, Repr

/-- A team barrier (R46). Members 0 to 31 are groups, 32 the sequencer. -/
structure Barrier where
  m : BitVec 33 := 0
  phase : Nat := 0
  arrived : List Nat := []
  /-- the phase in which each member last arrived and has not yet waited for (R48, R275) -/
  last : Amap Nat := []
  /-- an invalid arrival of this phase: its mask and member (R47) -/
  bad : Option (BitVec 33 × Nat) := none
  deriving DecidableEq, Repr

/-- A stage of a ring (R51, R433). -/
structure Stage where
  post : Nat := 0
  take : Nat := 0
  /-- members that have posted in the current post lap, one entry a post, and taken in the current take lap -/
  posts : List Nat := []
  takes : List Nat := []
  deriving DecidableEq, Repr

/-- A stage ring (R51); `s = 0` before STAGE.INIT. -/
structure Ring where
  s : Nat := 0
  np : Nat := 1
  nt : Nat := 1
  stages : Amap Stage := []
  posters : List Nat := []
  takers : List Nat := []
  deriving DecidableEq, Repr

/-- States of an operand slot (Table 17.2). -/
inductive SlotSt where
  | empty | filling | ready | draining
  deriving DecidableEq, Repr

/-- An operand slot (R295 to R298): its bytes, poisoned parts, fill parts not landed, and whether a LAST fill
(R231) or a SLOT.READY or SLOT.RELEASE waits for them. -/
structure Slot where
  st : SlotSt := .empty
  data : Store 8 := []
  poison : Store 1 := []
  fills : Nat := 0
  last : Bool := false
  toReady : Bool := false
  toDrain : Bool := false
  deriving DecidableEq, Repr

/-- A window of the accumulator store (R299). -/
structure Window where
  r0 : Nat
  c0 : Nat
  rows : Nat
  cols : Nat
  deriving DecidableEq, Repr

/-- Work a sequencer has given to the array (R307 to R309, R317), with the step it has reached (R318). -/
structure MatJob where
  pc : Pc
  /-- SCACC; otherwise MMA or GANG -/
  scacc : Bool
  ty : Ty
  bty : Ty
  partial_ : Bool
  cplx : Bool
  tern : Bool
  win : Window
  /-- first slots of A and B; for SCACC `sa` is the scale slot -/
  sa : Nat
  sb : Nat
  k : Nat
  k0 : Nat
  /-- SCACC: first partial window's row and column, number of partials, scale byte offset -/
  prow : Nat := 0
  pcol : Nat := 0
  nb : Nat := 0
  off : Nat := 0
  pos : Nat := 0
  /-- slots the work reads -/
  reads : List Nat
  deriving DecidableEq, Repr

/-- An access of a sequencer (R310, R312, R314): 0 ACC.LOAD, 1 ACC.STORE, 2 SEQ.LOOP.ldq, 3 SEQ.LOOP.stq; the cell
size, the side of the store, the window, the exact base address, the pitch, the rows still to be performed; the register
loaded or the value stored; the cause of its fault record. -/
structure SeqAcc where
  pc : Pc
  kind : Nat
  e : Nat := 8
  side : Nat := 0
  win : Window := { r0 := 0, c0 := 0, rows := 1, cols := 1 }
  base : Int
  pitch : Nat := 0
  rows : List Nat := [0]
  order : Nat
  scope : Nat
  h1 : Nat := 0
  h2 : Nat := 0
  reg : Nat := 0
  val : BitVec 64 := 0
  cause : Nat := 0
  /-- of a cell that a peer refused: its data is poisoned, and where the sequencer stood and what it waited for -/
  bad : Bool := false
  back : Option (Pc × Wait) := none
  deriving DecidableEq, Repr

/-- A uniform sequencer (R292). -/
structure Seq where
  pc : Pc
  q : Store 64 := []
  flags : BitVec 6 := 0
  /-- work given to the array of the home core and of the partner -/
  jobs : List MatJob := []
  jobsP : List MatJob := []
  wait : Wait := .none
  issued : Option (Op × Enc) := none
  readyAt : Nat := 0
  age : Nat := 0
  ended : Bool := false
  /-- the access whose failing rows wait for REPLAY (R312) -/
  unfinished : Option SeqAcc := none
  /-- the cell whose 16-B part alone the next turn's access performs, and the cells that are performed (R129) -/
  only : Option (Nat × Nat) := none
  early : List (Nat × Nat) := []
  /-- the shares that the GANG at the PC has given to an array: bit 0 the home core's, bit 1 the partner's (R308) -/
  shares : BitVec 2 := 0
  index : Nat := 0
  /-- stopped by a pre-emption or a halt -/
  stopped : Bool := false
  deriving DecidableEq, Repr

/-- A resident team (R31, R33). -/
structure Team where
  part : Nat
  ctx : Nat
  queue : Option Nat
  prio : Nat
  /-- the launch instance it belongs to -/
  launchId : Nat
  launch : Launch
  teamid : BitVec 64
  gridid : BitVec 64
  home : Nat
  partner : Option Nat
  bars : Amap Barrier := []
  rings : Amap Ring := []
  /-- bytes of the scratchpad window by offset; poisoned parts; for each line the copies that keep it empty -/
  scratch : Store 8 := []
  scratchPoison : Store 1 := []
  scratchEmpty : Amap (List Nat) := []
  /-- slot o of the home core at 2 o, of the partner at 2 o + 1 -/
  slots : Amap Slot := []
  seq : Option Seq := none
  /-- groups of the team that have exited (R48, R433) -/
  exited : List Nat := []
  /-- not yet all in place (R365) -/
  held : Bool := false
  placedAt : Nat := 0
  /-- serial, core and slot byte of group 0, which a fault record of the team's save names (R364) -/
  lead : Option (BitVec 64 × Nat × Nat) := none
  deriving DecidableEq, Repr

/-! ### Cores and clusters -/

/-- A TLB entry (R110): partition, context, virtual page number at its size, level, page address, leaf fields. -/
structure TlbEntry where
  part : Nat
  ctx : Nat
  level : Nat
  vpn : Nat
  page : Nat
  r : Bool
  w : Bool
  x : Bool
  ptrap : Bool
  cpol : Nat
  deriving DecidableEq, Repr

/-- An L1 line (R116): valid and dirty bytes, poisoned parts, streaming mark, clk of its first store; partition,
context, chain and H2 of the last store to it, for its write-back (R121, R122, R154). -/
structure L1Line where
  data : BitVec 1024 := 0
  valid : BitVec 128 := 0
  dirty : BitVec 128 := 0
  poison : BitVec 8 := 0
  /-- parts that one store has written whole (R134) -/
  whole : BitVec 8 := 0
  stream : Bool := false
  since : Nat := 0
  chain : Nat := 0
  part : Nat := 0
  ctx : Nat := 0
  h2 : Nat := 0
  deriving DecidableEq, Repr

/-- States of a pocket (Table 15.5); EMPTY is the absence of an entry. -/
inductive OvSt where
  | loading | resident
  deriving DecidableEq, Repr

/-- An entry of the overlay directory (R264, R265). -/
structure DirEntry where
  part : Nat
  ctx : Nat
  id : Nat
  st : OvSt
  /-- first logical pocket and number of pockets -/
  first : Nat
  count : Nat
  /-- code words by offset, and how many -/
  words : Store 128 := []
  len : Nat := 0
  /-- address of the image, and for a root its vector word -/
  image : BitVec 64
  root : Bool := false
  vec : BitVec 128 := 0
  /-- the group, split and PC of the OVLD -/
  gid : Nat := 0
  split : Nat := 0
  pc : Pc := 0
  /-- an image read faulted and waits for REPLAY -/
  faulted : Bool := false
  /-- SERIAL, SLOT byte and number of that group, for the fault record when it has left -/
  serial : BitVec 64 := 0
  slotB : Nat := 0
  index : Nat := 0
  deriving DecidableEq, Repr

/-- A request for region budget (R54). -/
structure RgnReq where
  gid : Nat
  budget : Nat
  deriving DecidableEq, Repr

/-- A physical core (Table 1.4). -/
structure PCore where
  dir : List DirEntry := []
  l1 : Amap L1Line := []
  /-- retired ways of each L1 set (R344) -/
  l1Retired : Amap (List Nat) := []
  tlb : List TlbEntry := []
  acc : Store 32 := []
  accPoison : Store 1 := []
  /-- partition and context whose sequencer team used the store last (R294) -/
  accCtx : Option (Nat × Nat) := none
  rgnReqs : List RgnReq := []
  /-- retired half-issue blocks: 8-slice block numbers 0 to 3 (R30) -/
  blocks : List Nat := []
  retired : Bool := false
  inTest : Bool := false
  deriving DecidableEq, Repr

/-- A cluster (R13, R14, R20, R27, R341, R342). -/
structure Cluster where
  /-- physical core (0 to 8) of each logical number; the number is empty where that core is retired -/
  map : Amap Nat := [(0, 0), (1, 1), (2, 2), (3, 3), (4, 4), (5, 5), (6, 6), (7, 7)]
  reserve : Option Nat := some 8
  tlb : List TlbEntry := []
  /-- job running on the reserve core -/
  job : Option Nat := none
  quarantined : Bool := false
  /-- commit journal: next index, index at each physical core's last pass, oldest index not lost -/
  journal : Nat := 0
  passed : Amap Nat := []
  overflow : Bool := false
  commits : Nat := 0
  /-- the physical core next in the rotation of the in-field test -/
  rotation : Nat := 0
  deriving DecidableEq, Repr

/-! ### L2 and HBM -/

/-- A valid way of an L2 set: way number, line, dirty, chain tag (R121, R122). -/
structure L2Way where
  way : Nat
  line : Nat
  dirty : Bool
  chain : Nat
  deriving DecidableEq, Repr

/-- An L2 slice (R21, R121): for each set its valid ways, most recent first; SEL(c), 0x1FF where not
listed; BCNT(c), 0 where not listed; retired ways. -/
structure Slice where
  sets : Amap (List L2Way) := []
  sel : Amap Nat := []
  bcnt : Amap Nat := []
  retired : Amap (List Nat) := []
  deriving DecidableEq, Repr

/-- A bank of an HBM channel (R347, R348): row entries, pool counters, hold in progress, rh_backoff. -/
structure Bank where
  rows : Amap Nat := []
  pools : Amap Nat := []
  /-- counts that reached T and wait for their RFM: 2 × row, or 2 × group + 1 -/
  due : List Nat := []
  held : Bool := false
  holds : BitVec 32 := 0
  heldNs : BitVec 32 := 0
  deriving DecidableEq, Repr

/-- An HBM channel (R22, R344 to R349). -/
structure Channel where
  banks : Amap Bank := []
  /-- the line requests waiting: local address, and whether it writes -/
  queue : List (Nat × Bool) := []
  /-- paused for a pin repair, and the requests still to be drained (R345) -/
  paused : Bool := false
  drain : Nat := 0
  /-- DQ lane being steered while paused -/
  repairing : Option Nat := none
  /-- spare used of each 16-lane DQ group: group to failed lane -/
  spares : Amap Nat := []
  /-- remapped rows: (bank × 65,536 + row) to the number of the spare row, 64 for each bank group -/
  remap : Amap Nat := []
  lat : Store 64 := []
  /-- corrected errors counted a DQ lane (R323) -/
  corrected : Amap Nat := []
  deriving DecidableEq, Repr

/-! ### Engines -/

/-- Where a copy lands (R231, R232). -/
inductive CopyDst where
  | scratch | group (gid d : Nat) | slot (side o : Nat)
  deriving DecidableEq, Repr

/-- A part of a copy: where its bytes are read (none: nothing is read), zero bytes before them, bytes read and bytes
in all (R233); destination byte offset; lane or box row. -/
structure CopyPart where
  src : Option (BitVec 64)
  lead : Nat := 0
  rd : Nat
  size : Nat
  dst : Int
  lane : Nat
  /-- the source address cannot be formed (R216, R230) -/
  bad : Bool := false
  /-- an element outside the tensor under BOUNDS = FAULT: its address and coordinates (R233) -/
  bound : Option (BitVec 64 × BitVec 128) := none
  /-- why the part is unfinished: cause, access kind (Table 13.4; 9 an operand slot's bound), address -/
  fail : Option (Fail × Nat × BitVec 64) := none
  /-- the part made its destination empty at issue -/
  counted : Bool := false
  deriving DecidableEq, Repr

/-- A copy in flight (R130, R230 to R233). -/
structure Copy where
  id : Nat
  gid : Nat
  pc : Pc
  split : Nat
  core : Nat
  part : Nat
  ctx : Nat
  team : Nat
  dst : CopyDst
  parts : Amap CopyPart
  /-- lanes of a CPA; rows of a CPT as UNF numbers them -/
  lanes : BitVec 64
  counter : Nat
  tke : Option Nat := none
  last : Bool := false
  /-- CPT -/
  tensor : Bool := false
  /-- element size of a CPT, Size of a CPA -/
  esz : Nat
  reported : Bool := false
  /-- lanes whose part met poison on its way to a group (R231) -/
  poisoned : BitVec 64 := 0
  /-- CPT: the descriptor's address, start coordinates and destination; the descriptor is not read yet -/
  descAddr : BitVec 64 := 0
  start : BitVec 128 := 0
  dest : Int := 0
  unread : Bool := false
  h1 : Nat := 0
  h2 : Nat := 0
  landed : Nat := 0
  /-- parts of a CPT that have landed: REPLAY retries a failed part with its whole row (R233) -/
  landedParts : Amap CopyPart := []
  deriving DecidableEq, Repr

/-- A Tailor operation waiting or running (R378, R383). -/
structure TailorOp where
  id : Nat
  /-- 0 build, 1 refit, 2 rebalance, 3 publish -/
  kind : Nat
  gid : Nat
  split : Nat
  pc : Pc
  d : Nat
  desc : BitVec 64
  core : Nat
  part : Nat
  ctx : Nat
  faulted : Bool := false
  deriving DecidableEq, Repr

/-- A candidate of a query (R388): primitive, t, u, v. -/
structure Cand where
  prim : Nat
  t : W32
  u : W32
  v : W32
  deriving DecidableEq, Repr

/-- A ray or proximity query (R387 to R391). -/
structure Query where
  lane : Nat
  record : BitVec 64
  /-- 0 TRACE, 1 PROBE sphere, 2 PROBE box -/
  shape : Nat
  /-- bytes 31:0 of the record -/
  ray : BitVec 256
  gen : BitVec 32
  /-- candidates to be answered by a shader, with the shader kind each needs -/
  todo : List (Cand × Nat) := []
  best : Option Cand := none
  nhits : Nat := 0
  /-- a shader group holds the query -/
  busy : Bool := false
  /-- 0 walk not done, 1 candidates out, 2 closest hit out, 3 final -/
  phase : Nat := 0
  status : Nat := 0
  faulted : Bool := false
  /-- UNF and ADDR of the record that names its fault -/
  unf : BitVec 64 := 0
  fva : BitVec 64 := 0
  deriving DecidableEq, Repr

/-- A TRACE or PROBE in flight (R387). -/
structure Trav where
  id : Nat
  gid : Nat
  pc : Pc
  split : Nat
  core : Nat
  part : Nat
  ctx : Nat
  queue : Option Nat
  prio : Nat
  launch : Launch
  struct : BitVec 64
  /-- the traversal descriptor's bytes -/
  desc : BitVec 512
  gen : BitVec 32
  rootSlot : Nat
  prims : BitVec 64
  /-- the pin taken for the instruction's own duration -/
  ownPin : Bool
  queries : List Query
  /-- private blocks of SHPRIV in use -/
  blocks : List Nat := []
  /-- the load of the shaders' root faulted and waits for REPLAY -/
  rootFaulted : Bool := false
  /-- ADDR of its record -/
  fva : BitVec 64 := 0
  deriving DecidableEq, Repr

/-- A member of a member set (R401). -/
structure Member where
  base : Nat
  lb : Nat
  pod : Nat
  accid : Nat
  deriving DecidableEq, Repr

/-- A collective operation (R403 to R412). -/
structure CollOp where
  id : Nat
  part : Nat
  ctx : Nat
  gid : Nat
  core : Nat
  pc : Pc
  tag : Nat
  /-- 0 reduce, 1 broadcast, 2 allgather, 3 reduce-scatter -/
  minor : Nat
  op : Nat
  ty : Ty
  sat : Bool
  scope : Nat
  desc : BitVec 64
  source : BitVec 64
  dest : BitVec 64
  lostAddr : BitVec 64
  count : Nat
  root : Nat
  self : Nat
  nleaves : Nat
  setid : Nat
  n : Nat
  members : List Member
  /-- elements received from other members, and which of them are poisoned: element e of member m is number
  2^56 m + e -/
  got : Amap (BitVec 64) := []
  poisoned : List Nat := []
  /-- members lost here, and the agreed set once the operation is ending (R407) -/
  lost : List Nat := []
  ending : Bool := false
  mismatch : Bool := false
  faulted : Bool := false
  /-- this member's source has been read, and sent to the others -/
  read : Bool := false
  /-- Mantle's time at issue, and at the last chunk of each member (R407) -/
  since : Nat := 0
  heard : Amap Nat := []
  /-- receive buffers it holds (R406) -/
  buffers : Nat := 0
  /-- of the issuing group, for fault records (R409), and its kernel's chain (R122) -/
  serial : BitVec 64
  slot : Nat
  gindex : Nat
  chain : Nat
  deriving DecidableEq, Repr

/-- Jobs of reserve cores (R27). -/
inductive JobKind where
  /-- takeover of the logical number of a retired core -/
  | takeover (logical : Nat)
  /-- replay of the region of a group (R329) -/
  | replay (gid : Nat)
  /-- in-field test of a physical core (R342) -/
  | test (phys : Nat)
  /-- audit run 1 or 2 of a committed region (R339) -/
  | audit (run : Nat)
  deriving DecidableEq, Repr

/-- How the run of a reserve-core job has ended: a commit, a REGION.ABORT and its target, an error, another event,
a read of a line that the log lacks. -/
inductive JobEnd where
  | none | committed | aborted (target : Pc) | error | event | diverged
  deriving DecidableEq, Repr

/-- A reserve-core job, waiting or running. -/
structure Job where
  id : Nat
  part : Nat
  kind : JobKind
  /-- cluster whose reserve core alone runs it -/
  cluster : Option Nat := none
  /-- the original's cluster -/
  origin : Nat
  running : Bool := false
  /-- clusters that have already run it -/
  used : List Nat := []
  /-- the group that runs it -/
  gid : Option Nat := none
  ended : JobEnd := .none
  /-- replay or audit: the original group as it was, its team, its image addresses by overlay id -/
  orig : Option Group := none
  /-- %coreid of the original (R28) -/
  coreid : Nat := 0
  team : Option Team := none
  images : Amap (BitVec 64 × Bool) := []
  /-- replay: the committed lines; the image read that faulted waits for REPLAY -/
  batch : List Nat := []
  faulted : Bool := false
  /-- audit: signatures so far, the region's input log and its slots, the PC of the close (R338, R339) -/
  sigs : List (BitVec 64) := []
  log : Amap (BitVec 1024) := []
  logSlots : List Nat := []
  closePc : Pc := 0
  deriving DecidableEq, Repr

/-- A request on its way to a peer (R133, R399): kind 0 read, 1 write, 2 atomic; the instruction and lane it
belongs to; an error response has come for it. -/
structure UalReq where
  id : Nat
  port : Nat
  gid : Nat
  pc : Pc
  va : BitVec 64
  pa : Nat
  kind : Nat
  data : List (BitVec 8) := []
  op : Nat := 0
  split : Nat := 0
  lane : Nat := 0
  size : Nat := 0
  uniform : Bool := false
  req : Option SliceReq := none
  /-- a write of bytes of a poisoned part (R310) -/
  poisoned : Bool := false
  /-- the team of a sequencer's write (R312) -/
  team : Nat := 0
  refused : Bool := false
  /-- a read that the peer's home has performed: `data` holds the bytes -/
  answered : Bool := false
  /-- of the record of a store that is refused (Table 13.3): context, partition, SERIAL, CORE, SLOT, GROUP -/
  ctx : Nat := 0
  part : Nat := 0
  serial : BitVec 64 := 0
  coreid : Nat := 0
  slot : Nat := 0
  gindex : Nat := 0
  deriving DecidableEq, Repr

/-- A monitor kept for a suspended or pre-empted group (R241). -/
structure CloakMon where
  part : Nat
  ctx : Nat
  serial : BitVec 64
  cloak : BitVec 64
  mon : Nat
  line : Nat
  deriving DecidableEq, Repr

/-! ### Partitions -/

/-- A queue as the launch front-end keeps it (R422). -/
structure Queue where
  /-- descriptor words 0 to 3 (Table 27.3) -/
  w0 : BitVec 64 := 0
  w1 : BitVec 64 := 0
  w2 : BitVec 64 := 0
  w3 : BitVec 64 := 0
  head : BitVec 64 := 0
  tail : BitVec 64 := 0
  stop : Nat := 0
  offset : BitVec 24 := 0
  refused : Bool := false
  poison : BitVec 24 := 0
  /-- a FENCE whose entries do not hold yet (R67) -/
  fence : List (BitVec 64 × BitVec 64) := []
  /-- a SIGNAL or CHAIN.END that waits: the packet's bytes -/
  waiting : List (BitVec 8) := []
  /-- the launch being placed -/
  placing : Option Nat := none
  /-- head or status write that faulted and waits for REPLAY -/
  unwritten : Bool := false
  deriving DecidableEq, Repr

/-- A launch between parsing and retirement (R67, R69). -/
structure LaunchInst where
  id : Nat
  launch : Launch
  ctx : Nat
  queue : Option Nat
  prio : Nat
  gridid : BitVec 64
  /-- next team to place, teams in all, teams that have retired -/
  next : Nat
  total : Nat
  retired : Nat := 0
  /-- the task it was dispatched for: table and index -/
  task : Option (BitVec 64 × Nat) := none
  /-- its root load faulted and waits for REPLAY (R264), with ADDR of the record -/
  faulted : Bool := false
  fva : BitVec 64 := 0
  /-- pre-empted, and the order of pre-emption -/
  saved : Option Nat := none
  /-- the clk at which its most recent team was placed (R71) -/
  lastPlaced : Nat := 0
  deriving DecidableEq, Repr

/-- A seeded task graph (R60, R278). -/
structure Graph where
  table : BitVec 64
  n : Nat
  ctx : Nat
  queue : Nat
  prio : Nat
  done : List Nat := []
  deriving DecidableEq, Repr

/-- A task in the ready queue (R63). -/
structure ReadyTask where
  table : BitVec 64
  index : Nat
  prio : Nat
  release : Nat
  ctx : Nat
  /-- the queue that carried its TASKS packet, and that queue's priority (R61) -/
  queue : Option Nat := none
  qprio : Nat := 0
  /-- its image read faulted and waits for REPLAY (R64), with ADDR of the record -/
  faulted : Bool := false
  fva : BitVec 64 := 0
  deriving DecidableEq, Repr

/-- A decrement or increment on its way to a task counter (R62, R279). -/
structure TaskDec where
  table : BitVec 64
  index : Nat
  ctx : Nat
  src : Source
  coreid : Nat
  pc : Pc
  serial : BitVec 64
  gidx : Nat
  slot : Nat
  /-- the task whose TKDONE sent a decrement -/
  task : Nat
  /-- 0: a decrement; otherwise the increment -/
  add : Nat
  chain : Nat := 0
  deriving DecidableEq, Repr

/-- A team stopped and saved by pre-emption (R364): the team record, its groups and their cloaks, and the number of the
pre-emption. -/
structure SavedTeam where
  launchId : Nat
  tid : Nat
  order : Nat
  team : Team
  groups : Amap Group
  /-- offsets and sizes of its blocks of the context's save area: the cloaks, then the team record -/
  blocks : List (Nat × Nat)
  cloaks : List (BitVec 64)
  /-- accumulator stores with their poison: of the home core, and of the partner -/
  accs : List (Store 32 × Store 1) := []
  /-- the load of its root faulted and waits for REPLAY, with ADDR of the record -/
  faulted : Bool := false
  fva : BitVec 64 := 0
  deriving DecidableEq, Repr

/-- A pre-emption in progress (R362 to R364). -/
structure Preempt where
  launchId : Nat
  prio : Nat
  /-- none before the request is served -/
  victims : List Nat
  /-- the launch that asks; none where a retirement empties cores -/
  ask : Option LaunchInst := none
  acked : List Nat := []
  /-- a save write faulted and waits for REPLAY, of a record with this serial -/
  faulted : Option (BitVec 64) := none
  deriving DecidableEq, Repr

/-- A unit that a halt stops, as its stop record names it (Table 21.5). -/
structure StopUnit where
  unit : Nat
  cause : Nat
  origin : Bool
  ctx : Nat
  pc : Pc
  serial : BitVec 64
  core : Nat
  slot : Nat
  group : Nat
  lanes : BitVec 64
  progress : BitVec 64
  object : BitVec 64
  detail : BitVec 64
  inRegion : Bool := false
  inHandler : Bool := false
  lined : Bool := false
  discarded : Bool := false
  deriving DecidableEq, Repr

/-- A halt in progress or done (R360, R361): units still to stop, stop records written a context, and contexts
whose area overflowed. -/
structure Halt where
  cause : Nat
  units : List StopUnit
  counts : Amap Nat := []
  overran : List Nat := []
  /-- the headers of the stop areas are written -/
  headed : Bool := false
  time : Nat
  deriving DecidableEq, Repr

/-- A partition (R414, Tables 19.7, 25.3, 27.2). -/
structure Partition where
  /-- part_ctl STATE: 0 RUN, 1 HALTED, 2 STOPPED -/
  state : Nat := 2
  testMode : Bool := false
  clusters : BitVec 32 := 0
  sliceGroups : BitVec 32 := 0
  halfStacks : BitVec 24 := 0
  ethShare : BitVec 8 := 0
  ualShare : BitVec 8 := 0
  launchCounter : BitVec 64 := 0
  serials : BitVec 64 := 0
  /-- audit_ctl, audit_stats, audit_log, audit_size -/
  fraction : BitVec 16 := 0
  noAuditOk : Bool := false
  dropped : BitVec 32 := 0
  selected : BitVec 32 := 0
  auditLog : BitVec 64 := 0
  auditRecords : BitVec 32 := 0
  auditInput : BitVec 32 := 0
  auditAcc : BitVec 16 := 0
  /-- audit records written (R340) -/
  recordCount : Nat := 0
  /-- journal_ctl BASE (as an address) and LOG2 -/
  journalBase : BitVec 64 := 0
  journalLog2 : BitVec 5 := 10
  testPeriod : BitVec 32 := 60000
  rhThreshold : BitVec 16 := 4096
  tlbiVa : BitVec 64 := 0
  tlbiCtl : BitVec 64 := 0
  tlbiDone : Bool := true
  /-- tlbi_va as the write of tlbi_ctl found it (R420) -/
  tlbiLo : BitVec 64 := 0
  /-- writes of the management window, by offset, that wait for DONE: one of tlbi_ctl and what follows it (R418, R420) -/
  windowWaiting : List (Nat × BitVec 64) := []
  frBase : BitVec 64 := 0
  frLog2 : BitVec 5 := 8
  frHead : BitVec 64 := 0
  frTail : BitVec 64 := 0
  /-- records that wait for room or for BASE (R421) -/
  frWaiting : List (BitVec 512) := []
  collTimeout : BitVec 32 := 2000
  /-- receive buffers of 4 KiB that no operation holds (R406) -/
  rcvFree : Nat := 2 ^ 25
  /-- the queue that the front-end served last at each priority (R68) -/
  served : Amap Nat := []
  peerAcl : Store 64 := []
  rdmaKey : Store 64 := []
  queues : Amap Queue := []
  /-- word w of context c at 8 c + w -/
  ctx : Store 64 := []
  launches : List LaunchInst := []
  graphs : List Graph := []
  readyQ : List ReadyTask := []
  decs : List TaskDec := []
  preempts : List Preempt := []
  saved : List SavedTeam := []
  halt : Option Halt := none
  /-- datagrams dropped a ring (R396) -/
  ringDrops : Amap Nat := []
  orders : Nat := 0
  deriving DecidableEq, Repr

/-! ### Mantle -/

/-- An entry of the event log (R427): Mantle's time, what it records, with its numbers. -/
structure LogEntry where
  time : Nat
  kind : String
  args : List Nat
  deriving DecidableEq, Repr

/-- What the package sends to the outside: over Ethernet a remote-access NAK, an acknowledgement or the data of an RDMA
READ (R395); over UALink an error response or the data of a request (R399), which may be poisoned; over the management
VLAN an answer of Mantle with its command code (R426). -/
inductive Sent where
  | nak (part : Nat)
  /-- elements of this package's source of a collective, to another member -/
  | chunk (pod accid : Nat) (key : CollKey) (member first : Nat) (data : List (BitVec 64)) (poisoned : List Nat)
  /-- a member's lost set, to another member (R407) -/
  | lostSet (pod accid : Nat) (key : CollKey) (member : Nat) (lost : List Nat)
  | ack (part : Nat)
  | rdmaData (part : Nat) (data : List (BitVec 8))
  | ualError (source : Nat)
  | ualDone (source : Nat) (data : List (BitVec 8)) (poisoned : Bool)
  | answer (code : Nat) (words : List Nat) (entries : List LogEntry)
  deriving DecidableEq, Repr

/-- A firmware bank (R428). -/
structure FwBank where
  image : List (BitVec 8) := []
  version : Nat := 0
  deriving DecidableEq, Repr

/-- Mantle (R426 to R430). -/
structure Mantle where
  /-- wall time since reset: ns, and ps of the next -/
  time : Nat := 0
  ps : Nat := 0
  /-- the event log by index, the last 524,288 entries, and the next index -/
  log : Amap LogEntry := []
  logNext : Nat := 0
  powerLimit : Nat := 3600
  mhz : Nat := 1600
  watts : Nat := 0
  temp : Nat := 0
  powered : Bool := true
  bankA : FwBank := {}
  bankB : FwBank := {}
  /-- the active bank is B; the inactive one holds a staged image, which ACTIVATE has marked for the next reset -/
  activeB : Bool := false
  staged : Bool := false
  marked : Bool := false
  minVersion : Nat := 0
  seq : BitVec 64 := 0
  pod : Nat := 0
  accid : Nat := 0
  ethErrors : Nat := 0
  deriving DecidableEq, Repr

/-! ### The package -/

/-- A storage array that corrects single-bit errors and counts them (R323): of a physical core, of a slice, of an HBM
channel. -/
inductive StoreUnit where
  | l1 (core : Nat) | scratchpad (core : Nat) | operands (core : Nat) | accumulator (core : Nat) | code (core : Nat)
  | l2 (slice : Nat) | hbm (channel : Nat)
  deriving DecidableEq, Repr

/-- An error that strikes the package (Tables 19.1 and 19.2): a single-bit error that is corrected in place; an
uncorrectable one in a part of an L1 line, a held line of a group, a team's scratchpad or operand slot, a core's
accumulator store, the code of an overlay, an L2 line; in a core's or slice's tags; wrong parity of a TLB entry, of a
group's register (numbered as `Group.latent` numbers it) or of a sequencer's register. -/
inductive Upset where
  | single (u : StoreUnit)
  | l1 (core line part : Nat)
  | held (gid line part : Nat)
  | scratch (tid part : Nat)
  | slot (tid key part : Nat)
  | acc (core part : Nat)
  | code (core part ctx id : Nat)
  | l2 (part line piece : Nat)
  | l1Tags (core : Nat)
  | l2Tags (slice : Nat)
  | tlb (core entry : Nat)
  | reg (gid key : Nat)
  | datapath (gid lane : Nat)
  | seqReg (tid : Nat)
  deriving DecidableEq, Repr

/-- Who issues the instruction of a step. -/
inductive Agent where
  | none
  | split (gid split : Nat)
  | seq (team : Nat)
  deriving DecidableEq, Repr

/-- An entry of the schedule: an agent issues its next instruction, a step of the machine or an input from
outside takes place, a peer's home performs a request that this package sent, a peer changes its memory, or one part of
an access of a group is performed before the rest of it (R129): the part that holds a byte of one of its lanes' accesses; or an error strikes
(R321). -/
inductive Act where
  | issue (a : Agent)
  | event (i : Instr)
  | peerAck (request : Nat)
  | peerWrite (address : Nat) (data : List (BitVec 8))
  | idle (clks : Nat)
  | accessPart (gid op access byte : Nat)
  | seqPart (tid row col : Nat)
  | upset (u : Upset)
  deriving DecidableEq, Repr

/-- The state of the package. -/
structure State where
  clk : Nat
  mem : Memory
  poison : Store 1
  remote : Memory
  ual : List UalReq
  sliceQ : List SliceReq
  slices : Amap Slice
  chans : Amap Channel
  ready : Store 64
  cores : Amap PCore
  clusters : Amap Cluster
  teams : Amap Team
  groups : Amap Group
  copies : List Copy
  tailor : List TailorOp
  travs : List Trav
  colls : List CollOp
  /-- operations issued on each SETID (R405) -/
  collCounts : Amap Nat
  /-- what the package has sent to the outside, oldest first -/
  sent : List Sent
  /-- physical descriptors whose pending tree came from BLD.REFIT (R374) -/
  refitPending : List Nat
  jobs : List Job
  cloakMons : List CloakMon
  parts : Amap Partition
  mantle : Mantle
  /-- corrected errors counted by each storage unit (R323) -/
  corrected : List (StoreUnit × Nat)
  /-- the model's own: the free-value counter, fresh handles, who issues, the schedule -/
  draws : Nat
  nextGid : Nat
  nextTid : Nat
  nextOp : Nat
  turn : Agent
  agenda : List Act
  phase : Bool
  deriving DecidableEq, Repr

/-- The package right after reset (R14, R21, Table 27.2, Table 27.6): no partition is laid out, no work is
resident, memory lists nothing, no unit is ready; every cluster has 8 active cores (words 15 and 16). -/
def State.reset : State :=
  { clk := 0, mem := [], poison := [], remote := [], ual := [], sliceQ := [], slices := [], chans := []
    ready := [(15, 0x8888888888888888), (16, 0x8888888888888888)], cores := [], clusters := [], teams := [], groups := [], copies := [], tailor := []
    travs := [], colls := [], collCounts := [], sent := [], refitPending := [], jobs := [], cloakMons := [], parts := [], mantle := {}, corrected := []
    draws := 0, nextGid := 1, nextTid := 1, nextOp := 1, turn := .none, agenda := [], phase := false }

end Sys2Proof.Machine
end

