-- ==== Sys2Proof/Machine/Maps.lean ====
section
/-!
DEFINITION. Operations on the maps, stores, masks and byte strings that State is made of.
-/
namespace Sys2Proof.Machine

/-! ### Maps -/

/-- The entry of a key. -/
def mget {α : Type} : Amap α → Nat → Option α
  | [], _ => none
  | (k, v) :: m, i => if k = i then some v else mget m i

/-- The entry of a key, or a default. -/
def mgetD {α : Type} (m : Amap α) (i : Nat) (d : α) : α := (mget m i).getD d

/-- Writes the entry of a key, keeping the keys ascending. -/
def mput {α : Type} : Amap α → Nat → α → Amap α
  | [], i, v => [(i, v)]
  | (k, w) :: m, i, v =>
    if i < k then (i, v) :: (k, w) :: m
    else if i = k then (i, v) :: m
    else (k, w) :: mput m i v

/-- Removes the entry of a key. -/
def mdel {α : Type} : Amap α → Nat → Amap α
  | [], _ => []
  | (k, w) :: m, i => if k = i then mdel m i else (k, w) :: mdel m i

/-- Changes the entry of a key that is present. -/
def mmod {α : Type} (m : Amap α) (i : Nat) (f : α → α) : Amap α :=
  match mget m i with
  | some v => mput m i (f v)
  | none => m

/-- The word of a key: 0 where it is not listed. -/
def sget {w : Nat} (m : Store w) (i : Nat) : BitVec w := (mget m i).getD 0#w

/-- Writes the word of a key; a word of 0 is not listed. -/
def sput {w : Nat} (m : Store w) (i : Nat) (v : BitVec w) : Store w :=
  if v = 0#w then mdel m i else mput m i v

/-- Ascending keys above `lo`, and no entry 0: the canonical form. -/
def storeWf {w : Nat} : Store w → Option Nat → Bool
  | [], _ => true
  | (k, v) :: m, lo => (match lo with | none => true | some l => l < k) && v != 0#w && storeWf m (some k)

/-- The canonical form of a memory: addresses strictly rising, no entry equal to what an unlisted address
reads as (log entry 3). -/
abbrev Memory.wf (m : Memory) : Bool := storeWf (w := 8) m none

/-! ### Lists and masks -/

/-- The elements that are set in a 64-bit mask. -/
def lanesOf (m : BitVec 64) : List Nat := (List.range 64).filter (fun i => m.getLsbD i)

/-- The mask of a list of lanes. -/
def maskOf (ls : List Nat) : BitVec 64 := ls.foldl (fun m i => m ||| (1#64 <<< i)) 0

/-- The mask of the lanes below `n`. -/
def maskBelow (n : Nat) : BitVec 64 := if 64 ≤ n then BitVec.allOnes 64 else (1#64 <<< n) - 1

/-- The number of set bits of a mask. -/
def popMask (m : BitVec 64) : Nat := (lanesOf m).length

/-- The lowest lane of a mask, 64 for none. -/
def lowLane (m : BitVec 64) : Nat := (lanesOf m).headD 64

/-- A mask with one bit. -/
def bitMask (i : Nat) : BitVec 64 := 1#64 <<< i

/-- Adds a number to a list without repeats. -/
def addOnce {α : Type} [BEq α] (l : List α) (i : α) : List α := if l.contains i then l else l ++ [i]

/-- The numbers of a mask of `n` bits that are set. -/
def bitsOf {w : Nat} (m : BitVec w) : List Nat := (List.range w).filter (fun i => m.getLsbD i)

/-- Inserts in ascending order, once. -/
def insertNat : List Nat → Nat → List Nat
  | [], i => [i]
  | k :: l, i => if i < k then i :: k :: l else if i = k then k :: l else k :: insertNat l i

/-- The first element that meets a test, changed; the others as they are. -/
def updFirst {α : Type} (p : α → Bool) (f : α → α) : List α → List α
  | [] => []
  | a :: l => if p a then f a :: l else a :: updFirst p f l

/-! ### Bytes -/

/-- Bits of a number. -/
def bits (v lo n : Nat) : Nat := v / 2 ^ lo % 2 ^ n

/-- The number a byte string holds, least significant byte first (R7). -/
def leNat : List (BitVec 8) → Nat
  | [] => 0
  | b :: bs => b.toNat + 256 * leNat bs

/-- `n` bytes of a number, least significant first (R7). -/
def leBytes : Nat → Nat → List (BitVec 8)
  | 0, _ => []
  | n + 1, v => BitVec.ofNat 8 v :: leBytes n (v / 256)

/-- The field of `n` bytes at an offset of a byte string. -/
def fieldAt (bs : List (BitVec 8)) (off n : Nat) : Nat := leNat ((bs.drop off).take n)

/-- A byte string is zero from an offset for `n` bytes. -/
def zeroAt (bs : List (BitVec 8)) (off n : Nat) : Bool := fieldAt bs off n == 0

/-- Byte `i` of a line. -/
def lineByte (d : BitVec 1024) (i : Nat) : BitVec 8 := d.extractLsb' (8 * i) 8

/-- Writes byte `i` of a line. -/
def setLineByte (d : BitVec 1024) (i : Nat) (b : BitVec 8) : BitVec 1024 :=
  (d &&& ~~~ (0xFF#1024 <<< (8 * i))) ||| (b.setWidth 1024 <<< (8 * i))

/-- The bytes of a line from `off`, `n` of them. -/
def lineBytes (d : BitVec 1024) (off n : Nat) : List (BitVec 8) :=
  (List.range n).map (fun i => lineByte d (off + i))

/-- Writes bytes of a line from `off`. -/
def setLineBytes (d : BitVec 1024) (off : Nat) : List (BitVec 8) → BitVec 1024
  | [] => d
  | b :: bs => setLineBytes (setLineByte d off b) (off + 1) bs

/-- The mask of `n` bytes of a line from `off`. -/
def byteMask (off n : Nat) : BitVec 128 := ((1#128 <<< n) - 1) <<< off

/-- The parts of a line that `n` bytes from `off` cover whole (R134). -/
def wholeParts (off n : Nat) : BitVec 8 :=
  (List.range 8).foldl (fun m i => if off ≤ 16 * i ∧ 16 * i + 16 ≤ off + n then m ||| (1#8 <<< i) else m) 0

/-- The parts of a line that `n` bytes from `off` touch. -/
def touchedParts (off n : Nat) : BitVec 8 :=
  (List.range 8).foldl (fun m i => if off < 16 * i + 16 ∧ 16 * i < off + n then m ||| (1#8 <<< i) else m) 0

end Sys2Proof.Machine
end

