-- ==== Sys2Proof/Machine/Mem.lean ====
section
/-!
DEFINITION. Global memory (spec/07): the home slices and their directories, the L1 of a core, translation,
and what a lane's access reaches.
-/
namespace Sys2Proof.Machine

/-! ### The objects of the package -/

/-- A physical core: cluster × 9 + number within the cluster (R14). -/
def coreOf (s : State) (c : Nat) : PCore := mgetD s.cores c {}
/-- Changes a physical core. -/
def modCore (s : State) (c : Nat) (f : PCore → PCore) : State :=
  { s with cores := mput s.cores c (f (coreOf s c)) }
/-- A cluster. -/
def clusterOf (s : State) (k : Nat) : Cluster := mgetD s.clusters k {}
/-- Changes a cluster. -/
def modCluster (s : State) (k : Nat) (f : Cluster → Cluster) : State :=
  { s with clusters := mput s.clusters k (f (clusterOf s k)) }
/-- A partition. -/
def partOf (s : State) (p : Nat) : Partition := mgetD s.parts p {}
/-- Changes a partition. -/
def modPart (s : State) (p : Nat) (f : Partition → Partition) : State :=
  { s with parts := mput s.parts p (f (partOf s p)) }
/-- Changes a group that is resident. -/
def modGroup (s : State) (g : Nat) (f : Group → Group) : State := { s with groups := mmod s.groups g f }
/-- Changes a team that is resident. -/
def modTeam (s : State) (t : Nat) (f : Team → Team) : State := { s with teams := mmod s.teams t f }
/-- An HBM channel, of 384. -/
def chanOf (s : State) (c : Nat) : Channel := mgetD s.chans c {}
/-- Changes an HBM channel. -/
def modChan (s : State) (c : Nat) (f : Channel → Channel) : State :=
  { s with chans := mput s.chans c (f (chanOf s c)) }

/-- The cluster of a physical core. -/
def clusterOfCore (c : Nat) : Nat := c / 9
/-- The logical number of a physical core in its cluster (R14), 8 where it has none. -/
def logicalOf (s : State) (c : Nat) : Nat :=
  match (clusterOf s (c / 9)).map.find? (fun e => e.2 == c % 9) with
  | some e => e.1
  | none => 8
/-- %coreid of a physical core (Table 1.3). -/
def coreidOf (s : State) (c : Nat) : Nat := 8 * (c / 9) + logicalOf s c % 8
/-- The physical core of a logical number of a cluster. -/
def physOf (s : State) (cluster logical : Nat) : Option Nat :=
  (mget (clusterOf s cluster).map logical).map (fun x => 9 * cluster + x)

/-- A storage unit has corrected an error (R323): nothing else changes. -/
def countCorrected (s : State) (u : StoreUnit) : State :=
  let n := match s.corrected.find? (fun e => e.1 == u) with | some e => e.2 | none => 0
  { s with corrected := (u, n + 1) :: s.corrected.filter (fun e => e.1 != u) }

/-! ### Home memory -/

/-- The size of the package's HBM: 24 half-stacks of 32 GiB (R105). -/
def hbmSize : Nat := 24 * 2 ^ 35
/-- The bit that makes a physical address remote (Table 7.1). -/
def remoteBit : Nat := 2 ^ 51
/-- A physical address names memory of another package. -/
def isRemote (pa : Nat) : Bool := remoteBit ≤ pa

/-- A line as the cells of a memory give it. -/
def lineIn (m : Memory) (line : Nat) : BitVec 1024 :=
  m.foldl (fun (d : BitVec 1024) (c : Host.Cell) =>
    if 128 * line ≤ c.1 ∧ c.1 < 128 * line + 128 then d ||| (c.2.setWidth 1024 <<< (8 * (c.1 - 128 * line)))
    else d) (0 : BitVec 1024)

/-- Writes bytes at consecutive addresses. -/
def putBytes (m : Memory) (a : Nat) : List (BitVec 8) → Memory
  | [] => m
  | b :: bs => putBytes (sput m a b) (a + 1) bs

/-- `n` bytes at consecutive addresses. -/
def getBytes (m : Memory) (a n : Nat) : List (BitVec 8) := (List.range n).map (fun i => sget m (a + i))

/-- Remote memory with the writes that are on their way to it: a read never passes an earlier write to the
same address (R133). -/
def remoteView (s : State) : Memory :=
  s.ual.foldl (fun m r => if r.kind = 1 then putBytes m r.pa r.data else m) s.remote

/-- The port of a remote address (R133). Which hash of the address chooses it is the model's choice (DESIGN CHOICE,
log entry 76): bits 10:7 of the address xor bits 14:11. -/
def ualPort (pa : Nat) : Nat := (pa / 128 ^^^ (pa / 2048)) % 16

/-- A write of the package that no group's store queue holds goes on its way to a peer, after every request before it
(R133). -/
def postWrite (s : State) (pa : Nat) (bs : List (BitVec 8)) : State :=
  { s with
    ual := s.ual ++ [{ id := s.nextOp, port := ualPort pa, gid := 0, pc := 0, va := 0, pa, kind := 1, data := bs }]
    nextOp := s.nextOp + 1 }

/-- A line as its home holds it. -/
def homeLine (s : State) (line : Nat) : BitVec 1024 :=
  if isRemote (128 * line) then lineIn (remoteView s) line else lineIn s.mem line

/-- The whole 16-B parts that `n` bytes from an address cover, by part number. -/
def partsWithin (a n : Nat) : List Nat :=
  (List.range (n / 16 + 1)).map (fun i => (a + 15) / 16 + i) |>.filter (fun p => 16 * p + 16 ≤ a + n)

/-- The parts that `n` bytes from an address touch, by part number. -/
def partsTouched (a n : Nat) : List Nat :=
  if n = 0 then [] else (List.range ((a + n - 1) / 16 - a / 16 + 1)).map (fun i => a / 16 + i)

/-- Poison by parts after a write (R134, R310): a part written whole is sound; a poisoned write marks what it touches. -/
def writePoison (m : Store 1) (a n : Nat) (bad : Bool) : Store 1 :=
  if bad then (partsTouched a n).foldl (fun p i => sput p i 1#1) m
  else (partsWithin a n).foldl (fun p i => sput p i 0#1) m

/-- The poison of remote memory with the writes on their way to it (R133, R134). -/
def remotePoison (s : State) : Store 1 :=
  s.ual.foldl (fun m r => if r.kind = 1 then writePoison m r.pa r.data.length r.poisoned else m) s.poison

/-- The poisoned parts of a line at home (R134). -/
def homePoison (s : State) (line : Nat) : BitVec 8 :=
  let p := if isRemote (128 * line) then remotePoison s else s.poison
  (List.range 8).foldl (fun m i => if sget p (8 * line + i) = 1#1 then m ||| (1#8 <<< i) else m) 0

/-- Marks the parts of a line that are set in `m` as poisoned. -/
def addPoison (s : State) (line : Nat) (m : BitVec 8) : State :=
  { s with poison := (bitsOf m).foldl (fun p i => sput p (8 * line + i) 1#1) s.poison }

/-- Clears the poison of the parts of a line that are set in `m`. -/
def clearPoison (s : State) (line : Nat) (m : BitVec 8) : State :=
  { s with poison := (bitsOf m).foldl (fun p i => sput p (8 * line + i) 0#1) s.poison }

/-- A write performed at home fires the monitors armed on its line, in a cloak too (R239, R241): the fired
bits of a cloak are bits 7:4 of byte 19 (Table 15.7). -/
def fireLine (s : State) (line : Nat) : State :=
  let groups := s.groups.map (fun e =>
    (e.1, { e.2 with mons := e.2.mons.map (fun m => if m.2.line = line then (m.1, { m.2 with fired := true }) else m) }))
  let mem := s.cloakMons.foldl (fun (m : Memory) k =>
    if k.line = line && !isRemote k.cloak.toNat then
      let a := k.cloak.toNat + 19
      sput m a (sget m a ||| (0x10#8 <<< k.mon))
    else m) s.mem
  (s.cloakMons.filter (fun k => k.line == line && isRemote k.cloak.toNat)).foldl (fun st k =>
    let a := k.cloak.toNat + 19
    postWrite st a [sget (remoteView st) a ||| (0x10#8 <<< k.mon)]) { s with groups := groups, mem := mem }

/-- The lines that `n` bytes from an address touch. -/
def linesOf (a n : Nat) : List Nat :=
  if n = 0 then [] else (List.range ((a + n - 1) / 128 - a / 128 + 1)).map (fun i => a / 128 + i)

/-- Writes bytes at home. The write is performed there: it fires the monitors of its lines; where it writes
a 16-B part whole it clears its poison (R134). -/
def writeHome (s : State) (pa : Nat) (bs : List (BitVec 8)) : State :=
  if isRemote pa then postWrite s pa bs
  else
    let s1 := { s with mem := putBytes s.mem pa bs
                       poison := (partsWithin pa bs.length).foldl (fun p i => sput p i 0#1) s.poison }
    (linesOf pa bs.length).foldl fireLine s1

/-- The runs of consecutive bytes of a mask: first byte and length. -/
def maskRuns (mask : BitVec 128) : List (Nat × Nat) :=
  (bitsOf mask).foldr (fun i (rs : List (Nat × Nat)) =>
    match rs with
    | (a, n) :: rest => if a = i + 1 then (i, n + 1) :: rest else (i, 1) :: rs
    | [] => [(i, 1)]) []

/-- The 16-B parts of a line that hold a byte of a mask. -/
def partsOfMask (m : BitVec 128) : BitVec 8 :=
  (List.range 8).foldl (fun w i => if (m.extractLsb' (16 * i) 16) = 0 then w else w ||| (1#8 <<< i)) 0

/-- Writes the bytes of a mask of a line at home, and clears the poison of the parts in `whole`. -/
def writeLineHome (s : State) (line : Nat) (data : BitVec 1024) (mask : BitVec 128) (whole : BitVec 8) : State :=
  if mask = 0 then s
  else
    let put (m : Memory) : Memory := (bitsOf mask).foldl (fun m i => sput m (128 * line + i) (lineByte data i)) m
    if isRemote (128 * line) then
      (maskRuns mask).foldl (fun st r => postWrite st (128 * line + r.1) (lineBytes data r.1 r.2)) s
    else fireLine (clearPoison { s with mem := put s.mem } line whole) line

/-- `n` bytes at home, and whether a poisoned part is among them. -/
def readHome (s : State) (pa n : Nat) : List (BitVec 8) × Bool :=
  if isRemote pa then
    let p := remotePoison s
    (getBytes (remoteView s) pa n, (List.range n).any (fun i => sget p ((pa + i) / 16) = 1#1))
  else (getBytes s.mem pa n, (List.range n).any (fun i => sget s.poison ((pa + i) / 16) = 1#1))

/-! ### The L2 directory (R119 to R122) -/

/-- The slice groups a partition owns, by ascending die and number (R119). -/
def ownedGroups (s : State) (p : Nat) : List Nat := bitsOf (partOf s p).sliceGroups

/-- The home slice of a local line and its set (R119). -/
def homeSlice (s : State) (p line : Nat) : Nat × Nat :=
  let gs := ownedGroups s p
  let x := line ^^^ (line / 2 ^ 13) ^^^ (line / 2 ^ 26)
  let g := gs.getD (x / 64 % (max gs.length 1)) 0
  (64 * g + x % 64, ((line / 64) ^^^ (line / 2 ^ 15)) % 512)

/-- The HBM channel of a local address (R106): 16 to each half-stack. -/
def channelOf (pa : Nat) : Nat :=
  16 * (pa / 2 ^ 35) + ((pa / 128 % 16) ^^^ (pa / 2048 % 16))

/-- Bit `b` of word `w` of the readiness map (Table 27.6). -/
def readyBit (s : State) (w b : Nat) : Bool := (sget s.ready w).getLsbD b

/-- The HBM channel is ready (Table 27.6). -/
def channelReady (s : State) (ch : Nat) : Bool := readyBit s (ch / 64) (ch % 64)

/-- A physical address lies beyond local memory: of a register of the management window (Table 27.1). -/
def isWindow (pa : Nat) : Bool := hbmSize ≤ pa && !isRemote pa

/-- An atomic that the package has sent to a peer's line is not performed there yet: a read of the line comes after it
(R133). -/
def behindPeer (s : State) (line : Nat) : Bool := s.ual.any (fun u => u.kind == 2 && !u.refused && u.pa / 128 == line)

/-- The way to a line of a partition is ready (R431): the port to its peer, or its home slice's group, and its channel where
the slice does not hold it. -/
def pathReady (s : State) (p line : Nat) : Bool :=
  let (sl, set) := homeSlice s p line
  if isRemote (128 * line) then readyBit s 7 (ualPort (128 * line)) && !behindPeer s line
  else if isWindow (128 * line) then true
  else readyBit s 6 (sl / 64) &&
    ((mgetD (mgetD s.slices sl {}).sets set []).any (fun w => w.line == line) || channelReady s (channelOf (128 * line)))

/-- Every slice group and channel of a partition is ready (R431). -/
def unitsReady (s : State) (p : Nat) : Bool :=
  (ownedGroups s p).all (fun k => readyBit s 6 k) &&
    (bitsOf (partOf s p).halfStacks).all (fun h => (List.range 16).all (fun n => channelReady s (16 * h + n)))

/-- The memory of a partition is ready, and no atomic of it is on its way to a peer: engines' accesses wait for that (R431,
R133, log entry 44). -/
def memReady (s : State) (p : Nat) : Bool :=
  unitsReady s p && !s.ual.any (fun u => u.kind == 2 && !u.refused && u.part == p)

/-- The turn of an engine of the package at the slices (R120): the memory is ready, and no request of an earlier class of
sources waits at a slice of the partition (log entry 80). -/
def engineTurn (s : State) (p cls : Nat) : Bool :=
  memReady s p && !s.sliceQ.any (fun r => r.src.cls < cls && (match mget s.groups r.gid with | some g => g.part == p | none => false))

/-- The slice's lowest way that holds nothing, among those not retired (R121, R344). -/
def freeWay (ws : List L2Way) (retired : List Nat) : Option Nat :=
  (List.range 12).find? (fun w => !ws.any (fun y => y.way == w) && !retired.contains w)

/-- The saturating step of SEL(c) in a leader set (R121). -/
def selStep (set sel : Nat) : Nat :=
  if set % 32 = 0 then min (sel + 1) 0x3FF else if set % 32 = 1 then sel - 1 else sel

/-- Where a set inserts (R121): at most-recent, and BCNT(c) after the insertion. -/
def insertAt (set sel bcnt : Nat) : Bool × Nat :=
  let policyA := if set % 32 = 0 then true else if set % 32 = 1 then false else sel / 512 % 2 = 0
  if policyA then (true, bcnt) else (bcnt = 31, (bcnt + 1) % 32)

/-- One request at the directory of a local line's home slice: a hit moves the line to most-recent and sets
its chain; a miss that allocates fills an invalid way or replaces the least-recent one, inserting by R121 or by
the hint H2 (R154); a dirty victim and every miss become requests of the HBM channel. -/
def l2Touch (s : State) (p ctx chain line : Nat) (write alloc : Bool) (h2 : Nat) : State :=
  if isRemote (128 * line) then s
  else
    let (sl, set) := homeSlice s p line
    let slice := mgetD s.slices sl {}
    let ws := mgetD slice.sets set []
    match ws.find? (fun w => w.line == line) with
    | some w =>
      let w' := { w with dirty := w.dirty || write, chain := chain }
      let sets := mput slice.sets set (w' :: ws.filter (fun y => y.line != line))
      { s with slices := mput s.slices sl { slice with sets := sets } }
    | none =>
      let s1 := modChan s (channelOf (128 * line)) (fun c => { c with queue := c.queue ++ [(128 * line, write && !alloc)] })
      if !alloc || h2 = 3 then s1
      else
        let retired := mgetD slice.retired set []
        let sel0 := mgetD slice.sel ctx 0x1FF
        let sel := if h2 = 0 then selStep set sel0 else sel0
        let b0 := mgetD slice.bcnt ctx 0
        let (mru, b1) := if h2 = 0 then insertAt set sel b0 else (h2 == 1, b0)
        let (ws', way, victim) :=
          match freeWay ws retired with
          | some w => (ws, w, none)
          | none =>
            match ws.getLast? with
            | some v => (ws.dropLast, v.way, if v.dirty then some v.line else none)
            | none => (ws, 0, none)
        let w : L2Way := { way, line, dirty := write, chain }
        let slice' := { slice with
          sets := mput slice.sets set (if mru then w :: ws' else ws' ++ [w])
          sel := mput slice.sel ctx sel, bcnt := mput slice.bcnt ctx b1 }
        let s2 := { s1 with slices := mput s1.slices sl slice' }
        match victim with
        | some v => modChan s2 (channelOf (128 * v)) (fun c => { c with queue := c.queue ++ [(128 * v, true)] })
        | none => s2

/-- The directory's part in an access of `n` bytes at home (R121, R122). -/
def touchHome (s : State) (p ctx chain pa n : Nat) (write : Bool) : State :=
  (linesOf pa n).foldl (fun st l => l2Touch st p ctx chain l write true 0) s

/-- Moves every line tagged `chain` of one set to the least-recent positions, in order (R122). -/
def demoteSet (chain : Nat) (ws : List L2Way) : List L2Way :=
  ws.filter (fun w => w.chain != chain) ++ ws.filter (fun w => w.chain == chain)

/-- CHAIN.END at every slice of a partition (R122); chain 0 changes nothing. -/
def demoteChain (s : State) (p chain : Nat) : State :=
  if chain = 0 then s
  else
    { s with slices := s.slices.map (fun e =>
        if (ownedGroups s p).contains (e.1 / 64) then
          (e.1, { e.2 with sets := e.2.sets.map (fun x => (x.1, demoteSet chain x.2)) })
        else e) }

/-- Writes back a line's home L2 copy to HBM where it is dirty, and drops it where `drop` (R244). -/
def l2WriteBack (s : State) (p line : Nat) (drop : Bool) : State :=
  let (sl, set) := homeSlice s p line
  let slice := mgetD s.slices sl {}
  let ws := mgetD slice.sets set []
  match ws.find? (fun w => w.line == line) with
  | none => s
  | some w =>
    let ws' := if drop then ws.filter (fun y => y.line != line)
      else ws.map (fun y => if y.line == line then { y with dirty := false } else y)
    let s1 := { s with slices := mput s.slices sl { slice with sets := mput slice.sets set ws' } }
    if w.dirty then modChan s1 (channelOf (128 * line)) (fun c => { c with queue := c.queue ++ [(128 * line, true)] })
    else s1

/-- Writes back, and with `drop` invalidates, every line the partition's slices hold (R244, R415). -/
def l2WriteBackAll (s : State) (p : Nat) (drop : Bool) : State :=
  let lines := s.slices.foldl (fun ls e =>
    if (ownedGroups s p).contains (e.1 / 64) then
      ls ++ (e.2.sets.foldl (fun l x => l ++ x.2.map (·.line)) [])
    else ls) []
  lines.foldl (fun st l => l2WriteBack st p l drop) s

/-! ### Translation (R104 to R112) -/

/-- A 64-bit virtual address is canonical: bits 63:56 equal bit 55 (R104). -/
def canonical (va : BitVec 64) : Bool :=
  let hi := va.toNat / 2 ^ 55
  hi = 0 || hi = 2 ^ 9 - 1

/-- Event codes of Table 3.7. -/
def evIllegalOpcode : Nat := 0x01
def evIllegalField : Nat := 0x02
def evIllegalOperand : Nat := 0x03
def evBadTarget : Nat := 0x04
def evRole : Nat := 0x05
def evPrivilege : Nat := 0x06
def evEmptyRead : Nat := 0x07
def evFpTrap : Nat := 0x08
def evSplitOverflow : Nat := 0x09
def evBarrierMask : Nat := 0x0A
def evBarrierDivergent : Nat := 0x0B
def evStageOverrun : Nat := 0x0C
def evRegionIllegal : Nat := 0x0D
def evRegionBudget : Nat := 0x0E
def evRegionAbort : Nat := 0x0F
def evTaskUnderflow : Nat := 0x10
def evTaskIndex : Nat := 0x11
def evPageFault : Nat := 0x12
def evAddress : Nat := 0x13
def evProtection : Nat := 0x14
def evScratchBound : Nat := 0x15
def evTensorBound : Nat := 0x16
def evStoreAfterExit : Nat := 0x17
def evPoison : Nat := 0x18
def evMachineCheck : Nat := 0x19
def evLiningMismatch : Nat := 0x1A
def evOverlayMiss : Nat := 0x1B
def evOverlayGone : Nat := 0x1C
def evOverlayCorrupt : Nat := 0x1D
def evSuspendIllegal : Nat := 0x1E
def evCloakVersion : Nat := 0x1F
def evCloakRights : Nat := 0x20
def evDoubleResume : Nat := 0x21
def evGenTableFull : Nat := 0x22
def evBuildMemory : Nat := 0x23
def evDegenerate : Nat := 0x24
def evCollMisaligned : Nat := 0x25
def evHaltPeer : Nat := 0x26
def evTaskImage : Nat := 0x27

/-- A table entry is malformed at its level (R109). -/
def malformedEntry (level e : Nat) : Bool :=
  let leaf := bits e 1 1 == 1
  let lowBits := if level = 0 then 3 else if level = 1 then 13 else 23
  bits e 52 12 != 0 || bits e 5 2 != 0 || bits e 7 2 == 3 || (leaf && level == 3) || (!leaf && level == 0) ||
    (!leaf && (bits e 2 3 != 0 || bits e 9 1 != 0 || bits e 7 2 != 0 || bits e 51 1 == 1)) ||
    (leaf && (bits e 13 lowBits != 0 || (bits e 51 1 == 0 && bits e 41 10 != 0)))

/-- A table entry lies in a half-stack that the partition owns: it never reads another's data (R105, R415). -/
def tableOwned (s : State) (p a : Nat) : Bool := decide (a < hbmSize) && (partOf s p).halfStacks.getLsbD (a / 2 ^ 35)

/-- The walk from a table downward (R107 to R109): level 3 first. An entry that is malformed and carries another KEY ends
the walk as malformed, one with V = 0 that has either ends it as V = 0, with MALFORMED clear; a table that the partition
does not own is not read, and the walk ends with PROTECTION (DESIGN CHOICE, log entry 77). -/
def walkFrom (s : State) (p ctx : Nat) (va : BitVec 64) : Nat → Nat → Except Fail TlbEntry
  | 0, _ => .error { cause := evPageFault }
  | n + 1, table =>
    let level := n
    let a := table + 8 * bits va.toNat (16 + 10 * level) 10
    let (bs, bad) := readHome s a 8
    let e := leNat bs
    if !tableOwned s p a then .error { cause := evProtection, level }
    else if bad then .error { cause := evPageFault, level, poisoned := true }
    else if bits e 0 1 = 0 then .error { cause := evPageFault, level }
    else if malformedEntry level e then .error { cause := evPageFault, level, malformed := true }
    else if bits e 10 3 ≠ p then .error { cause := evProtection, level }
    else if bits e 1 1 = 1 then
      .ok { part := p, ctx, level, vpn := va.toNat / 2 ^ (16 + 10 * level), page := bits e 13 39 * 2 ^ 13
            r := bits e 2 1 == 1, w := bits e 3 1 == 1, x := bits e 4 1 == 1, ptrap := bits e 9 1 == 1
            cpol := bits e 7 2 }
    else walkFrom s p ctx va n (bits e 13 39 * 2 ^ 13)

/-- A context entry's word (Table 27.4). -/
def ctxWord (s : State) (p ctx w : Nat) : Nat := (sget (partOf s p).ctx (8 * ctx + w)).toNat

/-- A page walk (R109): a context that is not VALID ends it before any table read. -/
def pageWalk (s : State) (p ctx : Nat) (va : BitVec 64) : Except Fail TlbEntry :=
  let w := ctxWord s p ctx 0
  if bits w 0 1 = 0 then .error { cause := evPageFault, level := 3 }
  else walkFrom s p ctx va 4 (bits w 13 39 * 2 ^ 13)

/-- A TLB entry serves an address of a context. -/
def tlbHit (p ctx : Nat) (va : BitVec 64) (e : TlbEntry) : Bool :=
  e.part == p && e.ctx == ctx && e.vpn == va.toNat / 2 ^ (16 + 10 * e.level)

/-- The lines of the table entries that a walk reads, in its order (R110): none beyond what the partition owns. -/
def walkLines (s : State) (p ctx : Nat) (va : BitVec 64) : Nat → Nat → List Nat
  | 0, _ => []
  | n + 1, table =>
    let a := table + 8 * bits va.toNat (16 + 10 * n) 10
    let (bs, bad) := readHome s a 8
    let e := leNat bs
    if !tableOwned s p a then []
    else a / 128 :: (if bad || bits e 0 1 = 0 || malformedEntry n e || bits e 10 3 ≠ p || bits e 1 1 = 1 then []
      else walkLines s p ctx va n (bits e 13 39 * 2 ^ 13))

/-- A walk's reads at the directory, with chain 0 (R110, R122). -/
def touchWalk (s : State) (p ctx : Nat) (va : BitVec 64) : State :=
  let w := ctxWord s p ctx 0
  if bits w 0 1 = 0 then s
  else (walkLines s p ctx va 4 (bits w 13 39 * 2 ^ 13)).foldl (fun st l => l2Touch st p ctx 0 l false true 0) s

/-- The translation of an address: from the core's TLB, the cluster's, or a walk (R110, R112). -/
def translate (s : State) (core p ctx : Nat) (va : BitVec 64) : Except Fail TlbEntry :=
  match (coreOf s core).tlb.find? (tlbHit p ctx va) with
  | some e => .ok e
  | none =>
    match (clusterOf s (clusterOfCore core)).tlb.find? (tlbHit p ctx va) with
    | some e => .ok e
    | none => pageWalk s p ctx va

/-- Keeps a translation in the core's and the cluster's TLB, of 256 and 8,192 entries (R110). A full TLB gives up the entry
that was filled longest ago (DESIGN CHOICE, log entry 78). -/
def fillTlb (s : State) (core : Nat) (e : TlbEntry) : State :=
  let add (n : Nat) (l : List TlbEntry) : List TlbEntry := if l.contains e then l else (e :: l).take n
  modCluster (modCore s core (fun c => { c with tlb := add 256 c.tlb })) (clusterOfCore core)
    (fun k => { k with tlb := add 8192 k.tlb })

/-- The translation is in the core's TLB or the cluster's: no walk is made. -/
def tlbHolds (s : State) (core p ctx : Nat) (va : BitVec 64) : Bool :=
  (coreOf s core).tlb.any (tlbHit p ctx va) || (clusterOf s (clusterOfCore core)).tlb.any (tlbHit p ctx va)

/-- Translates an address: a walk's reads go through the L2, also those of a walk that fails, and a translation is kept
(R110). -/
def touchTlb (s : State) (core p ctx : Nat) (va : BitVec 64) : State :=
  if !canonical va then s
  else
    let s1 := if tlbHolds s core p ctx va then s else touchWalk s p ctx va
    match translate s core p ctx va with
    | .ok e => fillTlb s1 core e
    | .error _ => s1

/-- The bytes that lie in the 64-KiB page of an address, from it on. -/
def pageRoom (va : BitVec 64) : Nat := 2 ^ 16 - va.toNat % 2 ^ 16

/-- Translates the one or two pages of `n` bytes at an address. -/
def touchPages (s : State) (core p ctx : Nat) (va : BitVec 64) (n : Nat) : State :=
  let s1 := touchTlb s core p ctx va
  if n ≤ pageRoom va then s1 else touchTlb s1 core p ctx (va + BitVec.ofNat 64 (pageRoom va))

/-- The tables that a walk for an address reads are in reach: each on a way that is ready (R431). -/
def walkReady (s : State) (core p ctx : Nat) (va : BitVec 64) : Bool :=
  let w := ctxWord s p ctx 0
  !canonical va || tlbHolds s core p ctx va || bits w 0 1 == 0 ||
    (walkLines s p ctx va 4 (bits w 13 39 * 2 ^ 13)).all (pathReady s p)

/-- What an access reaches: physical address, cache policy, PTRAP; or a register of the management window. -/
structure Phys where
  pa : Nat
  cpol : Nat
  ptrap : Bool
  window : Bool := false
  deriving DecidableEq, Repr

/-- Rights an access needs (Table 7.4). -/
inductive Need where
  | r | w | rw | x | none
  deriving DecidableEq, Repr

/-- The page grants what the access needs. -/
def grants (e : TlbEntry) : Need → Bool
  | .r => e.r
  | .w => e.w
  | .rw => e.r && e.w
  | .x => e.x
  | .none => true

/-- The accessing agent, as translation and the checks of R105 see it. -/
structure Accessor where
  core : Nat
  part : Nat
  ctx : Nat
  sageip : Bool := false
  /-- the chain of the kernel for which an engine acts (R122) -/
  chain : Nat := 0
  deriving DecidableEq, Repr

/-- What `n` bytes at one address reach, all within one 64-KiB page: R104, R105, R109, R418. -/
def reach (s : State) (q : Accessor) (va : BitVec 64) (n : Nat) (need : Need) : Except Fail Phys :=
  if !canonical va then .error { cause := evAddress }
  else
    match translate s q.core q.part q.ctx va with
    | .error f => .error f
    | .ok e =>
      let off := va.toNat % 2 ^ (16 + 10 * e.level)
      let pa := e.page + off
      if !grants e need then .error { cause := evProtection, level := e.level }
      else if isRemote pa then .ok { pa, cpol := e.cpol, ptrap := e.ptrap }
      else if pa < hbmSize then
        if (partOf s q.part).halfStacks.getLsbD (pa / 2 ^ 35) then .ok { pa, cpol := e.cpol, ptrap := e.ptrap }
        else .error { cause := evProtection, level := e.level }
      else if bits pa 39 2 = 2 && q.sageip && n = 8 && pa % 8 = 0 && e.cpol = 2 && bits pa 23 16 = 0 &&
          bits pa 20 3 = q.part && pa < 2 ^ 41 then
        .ok { pa, cpol := e.cpol, ptrap := e.ptrap, window := true }
      else .error { cause := evProtection, level := e.level }

/-- What `n ≤ 2^16` bytes at an address reach: one run, or two where they cross a 64-KiB page. The bytes of an
access that crosses the end of the canonical range are not performed (R216). -/
def reachRuns (s : State) (q : Accessor) (va : BitVec 64) (n : Nat) (need : Need) :
    Except Fail (List (Phys × Nat)) :=
  let room := pageRoom va
  if n ≤ room then
    match reach s q va n need with
    | .error f => .error f
    | .ok p => .ok [(p, n)]
  else
    match reach s q va room need with
    | .error f => .error f
    | .ok p =>
      match reach s q (va + BitVec.ofNat 64 room) (n - room) need with
      | .error f => .error f
      | .ok p' => .ok [(p, room), (p', n - room)]

/-! ### The L1 of a core (R116, R123) -/

/-- Writes back the dirty bytes of an L1 line and keeps it clean: an access of its slice (R121, R122), which carries the
poison of the parts it writes (R134), with the hint of the instruction that asks for it, else of the line's last store
(R154). -/
def l1WriteBack (s : State) (core line : Nat) (hint : Option Nat := none) : State :=
  match mget (coreOf s core).l1 line with
  | none => s
  | some l =>
    if l.dirty = 0 then s
    else
      let s0 := l2Touch s l.part l.ctx l.chain line true true (hint.getD l.h2)
      let s1 := addPoison (writeLineHome s0 line l.data l.dirty l.whole) line (l.poison &&& partsOfMask l.dirty)
      modCore s1 core (fun c => { c with l1 := mput c.l1 line { l with dirty := 0, whole := 0 } })

/-- Parts of a line that a core has stored hold poison (R134, R310). -/
def taintLine (s : State) (core line : Nat) (m : BitVec 8) : State :=
  match mget (coreOf s core).l1 line with
  | some _ => modCore s core (fun c => { c with
      l1 := mmod c.l1 line (fun l => { l with poison := l.poison ||| m, whole := l.whole &&& ~~~ m }) })
  | none => addPoison s line m

/-- The lines that have been dirty for 2^20 clk less one: they are written back in this clk at the latest (R116). -/
def overdue (s : State) : List (Nat × Nat) :=
  s.cores.flatMap (fun e => e.2.l1.filterMap (fun l =>
    if l.2.dirty != 0 && l.2.since + 2 ^ 20 ≤ s.clk + 1 then some (e.1, l.1) else none))

/-- The dirty line of a core can be written back: the way to its home is ready (R431). -/
def lineReady (s : State) (core line : Nat) : Bool :=
  match mget (coreOf s core).l1 line with
  | some l => l.dirty == 0 || pathReady s l.part line
  | none => true

/-- Every dirty line of a core can be written back: a release waits for that (R431). -/
def dirtyReady (s : State) (core : Nat) : Bool := (coreOf s core).l1.all (fun e => lineReady s core e.1)

/-- Writes back every line that is overdue; one whose way is not ready waits (R431). -/
def writeBackOld (s : State) : State :=
  (overdue s).foldl (fun st x => if lineReady st x.1 x.2 then l1WriteBack st x.1 x.2 else st) s

/-- Drops an L1 line. -/
def l1Drop (s : State) (core line : Nat) : State := modCore s core (fun c => { c with l1 := mdel c.l1 line })

/-- Writes back every dirty line of a core: what a release does whose scope instance holds more than one
core (R123). -/
def l1WriteBackAll (s : State) (core : Nat) (hint : Option Nat := none) : State :=
  ((coreOf s core).l1.map (·.1)).foldl (fun st l => l1WriteBack st core l hint) s

/-- Makes later loads miss every line the L1 holds clean: what an acquire does whose scope instance holds more
than one core (R123). Dirty bytes stay, with the poison of their parts (R134). -/
def l1DropClean (s : State) (core : Nat) : State :=
  modCore s core (fun c => { c with
    l1 := (c.l1.filter (fun e => e.2.dirty != 0)).map (fun e =>
      (e.1, { e.2 with valid := e.2.dirty, poison := e.2.poison &&& partsOfMask e.2.dirty })) })

/-- The ways of an L1 set that may hold lines: 12 less the retired ones (R344). The set of a line is its number
mod 512 (log entry 8). -/
def l1Ways (c : PCore) (line : Nat) : Nat := 12 - (mgetD c.l1Retired (line % 512) []).length

/-- Makes room for a line in its set: a streaming line goes first, else one that the implementation picks (R116;
the choice is open, log entry 2). A dirty victim is written back. -/
def l1MakeRoom (s : State) (core line : Nat) : State :=
  let c := coreOf s core
  let set := c.l1.filter (fun e => e.1 % 512 == line % 512)
  if set.any (fun e => e.1 == line) || set.length < l1Ways c line then s
  else
    let n := max set.length 1
    let victim := match set.find? (fun e => e.2.stream) with
      | some e => e.1
      | none => (set.getD (Config.l1Pick s.draws % n) (line, {})).1
    l1Drop (l1WriteBack { s with draws := s.draws + 1 } core victim) core victim

/-- A line as a core's loads see it, with its poisoned parts: dirty and valid bytes of the L1, the rest from
home. A line that may be allocated becomes valid whole (R116, R124). -/
def l1View (s : State) (core p ctx chain line cpol h1 h2 : Nat) : BitVec 1024 × BitVec 8 × State :=
  let home := homeLine s line
  let hp := homePoison s line
  if cpol ≠ 0 then
    -- bytes that the L1 holds dirty from a page of another policy reach home first
    let s1 := l1WriteBack s core line
    (homeLine s1 line, homePoison s1 line, l2Touch s1 p ctx chain line false (cpol = 1) h2)
  else
    match mget (coreOf s core).l1 line with
    | some l =>
      if l.valid = BitVec.allOnes 128 then
        (l.data, l.poison, if h1 = 1 then modCore s core (fun c => { c with l1 := mput c.l1 line { l with stream := true } }) else s)
      else
        let data := (bitsOf l.valid).foldl (fun d i => setLineByte d i (lineByte l.data i)) home
        let l' := { l with data := data, valid := BitVec.allOnes 128, poison := (hp &&& ~~~ l.whole) ||| l.poison
                           stream := l.stream || h1 = 1 }
        (data, l'.poison, l2Touch (modCore s core (fun c => { c with l1 := mput c.l1 line l' })) p ctx chain
          line false true h2)
    | none =>
      let s1 := l2Touch s p ctx chain line false true h2
      if h1 = 2 || l1Ways (coreOf s core) line = 0 then (home, hp, s1)
      else
        let l : L1Line := { data := home, valid := BitVec.allOnes 128, poison := hp, stream := h1 = 1, chain }
        (home, hp, modCore (l1MakeRoom s1 core line) core (fun c => { c with l1 := mput c.l1 line l }))

/-- Room for a line in the L1 can be made: the line is there or a way is free, or every dirty line of its set can be
written back (R431). -/
def roomReady (s : State) (core line : Nat) : Bool :=
  let c := coreOf s core
  let set := c.l1.filter (fun e => e.1 % 512 == line % 512)
  set.any (fun e => e.1 == line) || decide (set.length < l1Ways c line) || set.all (fun e => lineReady s core e.1)

/-- The hint `.l1e` after an access: write back the line if dirty and drop it (Table 9.8). -/
def l1Hint (s : State) (core line h1 : Nat) : State :=
  if h1 = 3 then l1Drop (l1WriteBack s core line) core line else s

/-- The hint of a cache operation on a line of the L1 (Table 9.8): a streaming line is preferred for replacement. -/
def l1Mark (s : State) (core line h1 : Nat) : State :=
  if h1 = 1 then modCore s core (fun c => { c with l1 := mmod c.l1 line (fun l => { l with stream := true }) })
  else l1Hint s core line h1

/-- A store enters the core's store order (R116, R123): a local line of CPOL 0 is written in the L1 with its
byte mask; any other goes to its home. `whole` are the parts of the line that the store writes whole. -/
def coreStoreLine (s : State) (core p ctx chain line cpol h1 h2 : Nat) (data : BitVec 1024) (mask : BitVec 128)
    (whole : BitVec 8) : State :=
  if isRemote (128 * line) || cpol ≠ 0 || l1Ways (coreOf s core) line = 0 ||
      (h1 = 2 && (mget (coreOf s core).l1 line).isNone) then
    let s1 := l2Touch (l1WriteBack s core line) p ctx chain line true (cpol ≠ 2) h2
    let s2 := writeLineHome s1 line data mask whole
    modCore s2 core (fun c => { c with l1 := mdel c.l1 line })
  else
    let s1 := l1MakeRoom s core line
    let l := mgetD (coreOf s1 core).l1 line { since := s.clk, stream := h1 = 1 }
    let l' := { l with
      data := (bitsOf mask).foldl (fun d i => setLineByte d i (lineByte data i)) l.data
      valid := l.valid ||| mask, dirty := l.dirty ||| mask, whole := l.whole ||| whole
      poison := l.poison &&& ~~~ whole, stream := l.stream || h1 = 1, chain, part := p, ctx, h2
      since := if l.dirty = 0 then s.clk else l.since }
    l1Hint (modCore s1 core (fun c => { c with l1 := mput c.l1 line l' })) core line h1

/-- Stores bytes at a physical address in the core's store order. -/
def coreStore (s : State) (core p ctx chain pa cpol h1 h2 : Nat) (bs : List (BitVec 8)) : State :=
  (linesOf pa bs.length).foldl (fun st line =>
    let lo := max pa (128 * line)
    let hi := min (pa + bs.length) (128 * line + 128)
    let off := lo - 128 * line
    coreStoreLine st core p ctx chain line cpol h1 h2 (setLineBytes 0 off ((bs.drop (lo - pa)).take (hi - lo)))
      (byteMask off (hi - lo)) (wholeParts off (hi - lo))) s

/-- The walks that translate the pages of an engine's access, at the directory (R110): engines keep no translation. -/
def engineWalk (s : State) (q : Accessor) (va : BitVec 64) (n : Nat) : State :=
  let one (st : State) (a : BitVec 64) : State :=
    if canonical a && !tlbHolds st q.core q.part q.ctx a then touchWalk st q.part q.ctx a else st
  if n ≤ pageRoom va then one s va else one (one s va) (va + BitVec.ofNat 64 (pageRoom va))

/-- The directory's part in an engine's read of memory: every line that it reads is hit or allocated with the chain of
the kernel for which the engine acts (R121, R122), after the walk that translates its address (R110). -/
def engineTouch (s : State) (q : Accessor) (va : BitVec 64) (n chain : Nat) : State :=
  let s1 := engineWalk s q va n
  match reachRuns s q va n .none with
  | .error _ => s1
  | .ok runs => runs.foldl (fun st x => (linesOf x.1.pa x.2).foldl (fun st l =>
      if x.1.window then st else l2Touch st q.part q.ctx chain l false (x.1.cpol ≠ 2) 0) st) s1

/-- The directory's part in the reads of an engine, by address and size (R121, R122). -/
def touchAll (s : State) (q : Accessor) (chain : Nat) (l : List (BitVec 64 × Nat)) : State :=
  l.foldl (fun st x => engineTouch st q x.1 x.2 chain) s

/-- What an engine's access reaches is on ways that are ready, with the tables of its walk (R431). -/
def engineReady (s : State) (q : Accessor) (va : BitVec 64) (n : Nat) : Bool :=
  walkReady s q.core q.part q.ctx va && walkReady s q.core q.part q.ctx (va + BitVec.ofNat 64 (n - 1)) &&
    (match reachRuns s q va n .none with
     | .error _ => true
     | .ok runs => runs.all (fun x => (linesOf x.1.pa x.2).all (pathReady s q.part)))

/-- An agent of the I/O die reads memory of a context: at home, in the order of the slice. -/
def engineRead (s : State) (q : Accessor) (va : BitVec 64) (n : Nat) (need : Need) :
    Except Fail (List (BitVec 8) × Bool) :=
  match reachRuns s q va n need with
  | .error f => .error f
  | .ok runs =>
    .ok (runs.foldl (fun r x => let (bs, bad) := readHome s x.1.pa x.2; (r.1 ++ bs, r.2 || bad)) ([], false))

/-- An agent of the I/O die writes memory of a context at home. -/
def engineWrite (s : State) (q : Accessor) (va : BitVec 64) (bs : List (BitVec 8)) (chain : Nat) (need : Need) :
    Except Fail State :=
  match reachRuns s q va bs.length need with
  | .error f => .error f
  | .ok runs =>
    .ok (runs.foldl (fun r x =>
      let st := (linesOf x.1.pa x.2).foldl (fun st l => l2Touch st q.part q.ctx chain l true (x.1.cpol ≠ 2) 0) r.1
      (writeHome st x.1.pa (r.2.take x.2), r.2.drop x.2)) (engineWalk s q va bs.length, bs)).1

end Sys2Proof.Machine
end

