-- ==== Sys2Proof/Machine/Ops.lean ====
section
/-!
DEFINITION. The named operations over groups: registers, guards and operands of an issuing split; code words
and block headers; fault records; taking an event (handler entry, halt line, Darner) and returning from one;
and the frame in which every encoded instruction issues (R39, R148, R151, R158, R159).
-/
namespace Sys2Proof.Machine

/-- The outcome of a step of this machine. -/
abbrev Out := Host.Outcome State Fault Refusal

/-! ### Registers of a group -/

/-- v_r of a lane. -/
def vget (g : Group) (r l : Nat) : W32 := sget g.vregs (64 * r + l)
/-- Writes v_r of a lane. -/
def vset (g : Group) (r l : Nat) (v : W32) : Group :=
  { g with vregs := sput g.vregs (64 * r + l) v, latent := g.latent.filter (· != 64 * r + l) }
/-- s_j of a copy (R175). -/
def srget (g : Group) (copy j : Nat) : W64 := sget g.sregs (64 * copy + j)
/-- Writes s_j of a copy. -/
def srset (g : Group) (copy j : Nat) (v : W64) : Group :=
  { g with sregs := sput g.sregs (64 * copy + j) v, damaged := g.damaged.filter (· != 256 + j)
           latent := g.latent.filter (· != 2 ^ 15 + 64 * copy + j) }
/-- p_i of a lane; p15 reads all ones (R9). -/
def pget (g : Group) (l i : Nat) : Bool := i = 15 || (sget g.preds l).getLsbD i
/-- Writes p_i of a lane. -/
def pset (g : Group) (l i : Nat) (b : Bool) : Group :=
  let w := sget g.preds l
  let m : BitVec 16 := 1#16 <<< i
  { g with preds := sput g.preds l (if b then w ||| m else w &&& ~~~ m), damaged := g.damaged.filter (· != 512 + i)
           latent := g.latent.filter (· != 2 ^ 16 + 16 * l + i) }
/-- The register's full/empty bit is clear (R151). -/
def isEmpty (g : Group) (r : Nat) : Bool := g.empty.contains r
/-- Clears the full/empty bits of `n` registers from `r`. -/
def markEmpty (g : Group) (r n : Nat) : Group :=
  { g with empty := (List.range n).foldl (fun l i => insertNat l (r + i)) g.empty }
/-- Sets the full/empty bits of `n` registers from `r`; a written register is sound again (R322). -/
def markFull (g : Group) (r n : Nat) : Group :=
  { g with empty := g.empty.filter (fun i => i < r || r + n ≤ i)
           damaged := g.damaged.filter (fun i => i < r || r + n ≤ i) }
/-- An arrival counter (R228). -/
def kget (g : Group) (k : Nat) : Nat := (sget g.counters k).toNat
/-- Writes an arrival counter. -/
def kput (g : Group) (k v : Nat) : Group := { g with counters := sput g.counters k (BitVec.ofNat 8 v) }
/-- One arrival: the counter loses 1, and stays at 0 (R228). -/
def kdec (g : Group) (k : Nat) : Group := kput g k (kget g k - 1)
/-- The copies of a group: a lined group has two (R175). -/
def copiesOf (g : Group) : List Nat := if g.lined then [0, 1] else [0]
/-- The copy a lane belongs to: lanes W to 2W - 1 of a lined group are the shadow copy. -/
def copyOf (g : Group) (l : Nat) : Nat := if g.lined && g.width ≤ l then 1 else 0
/-- The lane number within its copy (%laneid, R175). -/
def laneIn (g : Group) (l : Nat) : Nat := if g.lined && g.width ≤ l then l - g.width else l
/-- Lanes of a mask, and for a lined group their shadow lanes. -/
def bothCopies (g : Group) (m : BitVec 64) : BitVec 64 := if g.lined then m ||| (m <<< g.width) else m
/-- The lanes of the group's width. -/
def allLanes (g : Group) : BitVec 64 := maskBelow g.width
/-- %fpflags of a copy. -/
def flagsOf (g : Group) (copy : Nat) : BitVec 5 := if copy = 1 then g.fpflagsSh else g.fpflags
/-- ORs exceptions into %fpflags of a copy (R87). -/
def orFlags (g : Group) (copy : Nat) (f : BitVec 5) : Group :=
  if copy = 1 then { g with fpflagsSh := g.fpflagsSh ||| f } else { g with fpflags := g.fpflags ||| f }

/-- The group as an accessor of memory (R105, R107). -/
def accessorOf (g : Group) : Accessor := { core := g.core, part := g.part, ctx := g.ctx, sageip := g.sageip }
/-- The team of a group; a job on a reserve core works in the original's (R28). -/
def teamOf (s : State) (g : Group) : Option Team :=
  match mget s.teams g.team with
  | some t => some t
  | none => g.job.bind (fun i => (s.jobs.find? (fun j => j.id == i)).bind (·.team))
/-- The chain of the kernel a group runs (R122). -/
def chainOf (s : State) (g : Group) : Nat :=
  match teamOf s g with
  | some t => t.launch.chain
  | none => 0
/-- The group runs in a two-core team. -/
def isPair (s : State) (g : Group) : Bool :=
  match teamOf s g with
  | some t => t.partner.isSome
  | none => false
/-- A scope whose instance holds more than one core (R123). -/
def wideScope (s : State) (g : Group) (scope : Nat) : Bool := 3 ≤ scope || (scope == 1 && isPair s g)

/-- The wider of two scopes for a group: one whose instance holds more than one core before one that does not. -/
def joinScope (s : State) (g : Group) (a b : Nat) : Nat :=
  if wideScope s g a == wideScope s g b then max a b else if wideScope s g a then a else b

/-- A release at pod scope or wider waits for the writes on their way to peers: a peer that sees it sees them (R126). -/
def peersBehind (s : State) (scope : Nat) : Bool := 5 ≤ scope && s.ual.any (fun u => u.kind == 1 && !u.refused)

/-- The bytes an access stores. -/
def accBytes (a : LaneAcc) : List (BitVec 8) := leBytes a.size a.data.toNat

/-- Writes bytes of the scratchpad; a part written whole is sound (R134). -/
def writeScratch (t : Team) (o : Nat) (bs : List (BitVec 8)) : Team :=
  { t with scratch := putBytes t.scratch o bs
           scratchPoison := (partsWithin o bs.length).foldl (fun p i => sput p i 0#1) t.scratchPoison }

/-- What is left of a scratchpad store of a group is performed: before its next instruction at the latest (R129). -/
def finishScratch (s : State) (gid : Nat) : State :=
  match mget s.groups gid with
  | none => s
  | some g =>
    match g.sts with
    | none => s
    | some (_, accs) =>
      accs.foldl (fun st a => modTeam st g.team (fun t => writeScratch t a.addr.toNat (accBytes a)))
        (modGroup s gid (fun g => { g with sts := none }))

/-- A release of a group waits: for writes on their way to peers (R126), or for the way of a dirty line that its core writes
back (R431). -/
def releaseWaits (s : State) (g : Group) (scope : Nat) : Bool :=
  peersBehind s scope || (wideScope s g scope && !dirtyReady s g.core)

/-- The release of a group at a scope: where its instance holds more than one core, the core writes back every
dirty line (R123). -/
def releaseAt (s : State) (g : Group) (scope : Nat) : State :=
  if wideScope s g scope then l1WriteBackAll s g.core else s
/-- The acquire of a group at a scope: where its instance holds more than one core, later loads miss the lines
the L1 held clean (R123). -/
def acquireAt (s : State) (g : Group) (scope : Nat) : State :=
  if wideScope s g scope then l1DropClean s g.core else s

/-! ### Code (R136 to R141) -/

/-- The overlay id of a PC. -/
def pcOverlay (pc : Pc) : Nat := pc.toNat / 2 ^ 20
/-- The word offset of a PC. -/
def pcOffset (pc : Pc) : Nat := pc.toNat % 2 ^ 20
/-- A PC of an overlay and an offset. -/
def mkPc (overlay off : Nat) : Pc := BitVec.ofNat 32 (overlay % 2 ^ 12 * 2 ^ 20 + off % 2 ^ 20)

/-- The directory entry of an overlay (R264). -/
def dirFind (s : State) (core p ctx id : Nat) : Option DirEntry :=
  (coreOf s core).dir.find? (fun e => e.part == p && e.ctx == ctx && e.id == id)
/-- Changes a directory entry. -/
def dirMod (s : State) (core p ctx id : Nat) (f : DirEntry → DirEntry) : State :=
  modCore s core (fun c => { c with
    dir := updFirst (fun e => e.part == p && e.ctx == ctx && e.id == id) f c.dir })
/-- An overlay that is RESIDENT. -/
def residentOv (s : State) (core p ctx id : Nat) : Option DirEntry :=
  match dirFind s core p ctx id with
  | some e => if e.st = .resident then some e else none
  | none => none
/-- The root overlay of the context on a core: Sageip's is overlay 0xFFF (R264, R425). -/
def rootOv (s : State) (core p ctx : Nat) (sageip : Bool) : Option DirEntry :=
  (coreOf s core).dir.find? (fun e => e.part == p && e.ctx == ctx && e.root && (e.first == 15) == sageip)

/-- A word is a block header exactly when its MAJOR is 0x3F (R140). -/
def isHeaderWord (w : Word) : Bool := wordMajor w == 0x3F
/-- A header stands at an offset of an overlay (R140). -/
def headerAt (e : DirEntry) (off : Nat) : Bool := off < e.len && isHeaderWord (sget e.words off)
/-- The header of the block that holds an offset: the nearest header at or before it (R137). -/
def blockStart (e : DirEntry) : Nat → Nat
  | 0 => 0
  | n + 1 => if isHeaderWord (sget e.words (n + 1)) then n + 1 else blockStart e n
/-- LEN of a header (Table 9.2). -/
def hdrLen (w : Word) : Nat := (w.extractLsb' 112 10).toNat
/-- VLIVE of a header. -/
def hdrVlive (w : Word) : Nat := (w.extractLsb' 103 9).toNat
/-- SLIVE of a header. -/
def hdrSlive (w : Word) : Nat := (w.extractLsb' 96 7).toNat
/-- RECONV of a header: a signed word offset. -/
def hdrReconv (w : Word) : Int := (w.extractLsb' 76 20).toInt
/-- OVL of a header. -/
def hdrOvl (w : Word) : Nat := (w.extractLsb' 42 12).toNat
/-- RGN of a header. -/
def hdrRgn (w : Word) : Bool := w.getLsbD 41
/-- MSTREAM of a header. -/
def hdrMstream (w : Word) : Bool := w.getLsbD 40
/-- CHK of a header. -/
def hdrChk (w : Word) : Nat := (w.extractLsb' 0 32).toNat

/-- The header word of the block that holds a PC, and its offset; the zero word where the overlay is not
resident. -/
def headerOf (s : State) (core p ctx : Nat) (pc : Pc) : Word × Nat :=
  match residentOv s core p ctx (pcOverlay pc) with
  | some e => let h := blockStart e (pcOffset pc); (sget e.words h, h)
  | none => (0, 0)

/-- The PC of a signed word offset from the header of the holding block (R140, R261); none unless a header
stands there. -/
def targetPc (s : State) (core p ctx : Nat) (pc : Pc) (off : Int) : Option Pc :=
  match residentOv s core p ctx (pcOverlay pc) with
  | none => none
  | some e =>
    let t := (blockStart e (pcOffset pc) : Int) + off
    if t < 0 then none
    else if headerAt e t.toNat then some (mkPc (pcOverlay pc) t.toNat) else none

/-- A PC names a header word of an overlay that is RESIDENT. -/
def isHeaderPc (s : State) (core p ctx : Nat) (pc : Pc) : Bool :=
  match residentOv s core p ctx (pcOverlay pc) with
  | some e => headerAt e (pcOffset pc)
  | none => false

/-- The return PC of a call: the header that follows the calling block, H + LEN + 1 (R261). -/
def returnPc (s : State) (core p ctx : Nat) (pc : Pc) : Option Pc :=
  let (w, h) := headerOf s core p ctx pc
  let r := mkPc (pcOverlay pc) (h + hdrLen w + 1)
  if isHeaderPc s core p ctx r then some r else none

/-! ### Fault records (R218, R219, R421) -/

/-- A record of bytes from (offset, value) fields: the values are placed at their byte offsets. -/
def packFields (fs : List (Nat × Nat)) : Nat := fs.foldl (fun n f => n + f.2 * 2 ^ (8 * f.1)) 0

/-- The SLOT byte of a group: bits 3:0 its slot, bit 4 its side (Table 13.3). -/
def slotByte (g : Group) : Nat := g.slot % 16 + 16 * g.side

/-- FLAGS of a fault record (Table 13.3). -/
def recFlags (exited malformed poisoned samePage mixed remote uniform : Bool) : Nat :=
  exited.toNat + 2 * malformed.toNat + 4 * poisoned.toNat + 8 * samePage.toNat + 16 * mixed.toNat +
    32 * remote.toNat + 64 * uniform.toNat

/-- A fault record (Table 13.3). `detail` is the number its bytes 63:48 hold. -/
def faultRec (pc : Pc) (cause flags level ctx : Nat) (serial : BitVec 64) (done unf : BitVec 64) (addr : Nat)
    (core slot group detail : Nat) : BitVec 512 :=
  BitVec.ofNat 512 (packFields [(0, pc.toNat), (4, cause), (5, flags), (6, level), (7, ctx),
    (8, serial.toNat), (16, done.toNat), (24, unf.toNat), (32, addr % 2 ^ 64), (40, core), (41, slot),
    (42, group), (48, detail)])

/-- An accessor on the I/O die: no core, so no TLB of one. -/
def ioDie : Nat := 288

/-- Sageip's context 0 as the device writes its queue. -/
def sageAccessor (p : Nat) : Accessor := { core := ioDie, part := p, ctx := 0 }

/-- Writes one fault record, then TAIL at BASE - 8 as a release at device scope (R421); none where the queue is
full, has no BASE, does not translate, or lies on a way that is not ready (R431). -/
def writeRecord (s : State) (p : Nat) (r : BitVec 512) : Option State :=
  let pt := partOf s p
  let size := 2 ^ pt.frLog2.toNat
  let a := pt.frBase + BitVec.ofNat 64 (64 * (pt.frTail.toNat % size))
  if pt.frBase = 0 || (pt.frTail - pt.frHead).toNat = size || !engineReady s (sageAccessor p) a 64 ||
      !engineReady s (sageAccessor p) (pt.frBase - 8) 8 then none
  else
    match engineWrite s (sageAccessor p) a (leBytes 64 r.toNat) 0 .w with
    | .error _ => none
    | .ok s1 =>
      let tail := pt.frTail + 1
      let s2 := modPart s1 p (fun q => { q with frTail := tail })
      match engineWrite s2 (sageAccessor p) (pt.frBase - 8) (leBytes 8 tail.toNat) 0 .w with
      | .error _ => some s2
      | .ok s3 => some s3

/-- Writes the records that wait, in order, as far as there is room. -/
def drainRecords (s : State) (p : Nat) : Nat → State
  | 0 => s
  | n + 1 =>
    match (partOf s p).frWaiting with
    | [] => s
    | r :: rs =>
      match writeRecord s p r with
      | none => s
      | some s1 => drainRecords (modPart s1 p (fun q => { q with frWaiting := rs })) p n

/-- A fault record goes to the partition's queue; where there is no room, it waits (R421). -/
def emitRecord (s : State) (p : Nat) (r : BitVec 512) : State :=
  let s1 := modPart s p (fun q => { q with frWaiting := q.frWaiting ++ [r] })
  drainRecords s1 p ((partOf s1 p).frWaiting.length)

/-- The records that wait are written as far as there is room and their place can be reached (R421). -/
def settleRecords (s : State) : State :=
  s.parts.foldl (fun st e => if e.2.frWaiting.isEmpty then st else drainRecords st e.1 e.2.frWaiting.length) s

/-- A record of the front-end or the task engine waits: they wait with it (R421). -/
def engineRecordWaits (s : State) (p : Nat) : Bool :=
  (partOf s p).frWaiting.any (fun r => (r.extractLsb' 328 8).toNat = 32 || (r.extractLsb' 32 8).toNat = evTaskUnderflow ||
    (r.extractLsb' 32 8).toNat = evTaskIndex)

/-- A record of the group waits for room: the group waits with it (R421). -/
def recordWaits (s : State) (g : Group) : Bool :=
  (partOf s g.part).frWaiting.any (fun r => r.extractLsb' 64 64 == g.serial)

/-- The group whose identity a group carries: a job on a reserve core carries the original's (R28). -/
def identOf (s : State) (g : Group) : Group :=
  match g.job with
  | none => g
  | some i =>
    match s.jobs.find? (fun j => j.id == i) with
    | some j => j.orig.getD g
    | none => g

/-- %coreid as a group reads it: a job's is the original's, as it was when the job arose (R28). -/
def originCore (s : State) (g : Group) : Nat :=
  match g.job with
  | none => coreidOf s g.core
  | some i =>
    match s.jobs.find? (fun j => j.id == i) with
    | some j => j.coreid
    | none => coreidOf s g.core

/-- A fault record of an instruction of a group: the failing accesses with their causes, all within one
instruction (R218). `kind` (9: an operand slot), `size` and `coords` are DETAIL of Table 13.4. -/
def groupRecord (s : State) (g : Group) (pc : Pc) (f : Fail) (done unf : BitVec 64)
    (addrs : List (BitVec 64)) (mixed uniform exited : Bool) (kind size : Nat) (coords : Nat := 0) : State :=
  let a0 := addrs.headD 0
  let same := addrs.all (fun a => a.toNat / 2 ^ 16 == a0.toNat / 2 ^ 16)
  let cause := if exited then evStoreAfterExit else f.cause
  let window := match teamOf s g with
    | some t => t.launch.scratch
    | none => 0
  let detail :=
    if exited then f.cause + kind * 2 ^ 8
    else if f.cause = evScratchBound then (if kind = 9 then 2 ^ 16 else window)
    else if f.cause = evTensorBound then coords
    else kind + size * 2 ^ 8
  emitRecord s g.part (faultRec pc cause
    (recFlags exited f.malformed f.poisoned same mixed f.remote uniform) f.level g.ctx g.serial done unf a0.toNat
    (originCore s g) (slotByte (identOf s g)) g.index detail)

/-! ### The end of a replay (R329, R332, R333) -/

/-- The register that a value with wrong parity belongs to. -/
def latentReg (k : Nat) : Nat :=
  if k < 2 ^ 15 then k / 64 else if k < 2 ^ 16 then 256 + k % 64 else 512 + k % 16

/-- A register as `damaged` numbers it is saved with the first `nv` and `ns`; every predicate is. -/
def savedReg (nv ns r : Nat) : Bool := if r < 256 then r < nv else if r < 512 then r - 256 < ns else true

/-- The lane of a cell whose parity is wrong. -/
def latentLane (k : Nat) : Nat := if k < 2 ^ 15 then k % 64 else if k < 2 ^ 16 then 0 else (k - 2 ^ 16) / 16

/-- A register among those that a snapshot or a cloak saves that is damaged or whose parity fails, with its lanes (R322). -/
def savedHit (g : Group) (nv ns : Nat) : Option (Nat × BitVec 64) :=
  match g.damaged.find? (savedReg nv ns) with
  | some r => some (r, g.live)
  | none =>
    match g.latent.find? (fun k => savedReg nv ns (latentReg k)) with
    | none => none
    | some k =>
      let r := latentReg k
      some (r, if 256 ≤ r && r < 512 then g.live
        else maskOf ((g.latent.filter (fun j => latentReg j == r)).map (fun j => laneIn g (latentLane j))))

/-- Writes a snapshot back into a group, in both copies of a lined one (R55): the saved registers are full. -/
def restoreSnap (g : Group) (n : Snapshot) : Group :=
  let inV (k : Nat) : Bool := k / 64 < n.nv
  { g with
    vregs := n.vregs.foldl (fun m e => sput m e.1 e.2) (g.vregs.filter (fun e => !inV e.1))
    sregs := n.sregs.foldl (fun m e => sput m e.1 e.2) (g.sregs.filter (fun e => n.ns ≤ e.1 % 64))
    preds := n.preds, fpctl := n.fpctl, fpflags := n.fpflags, fpflagsSh := n.fpflagsSh
    empty := g.empty.filter (n.nv ≤ ·), damaged := g.damaged.filter (fun r => !savedReg n.nv n.ns r)
    latent := g.latent.filter (fun k => !savedReg n.nv n.ns (latentReg k))
    splits := [(n.entry, n.split)], ovf := [] }

/-- The physical reserve core of a cluster. -/
def reservePhys (s : State) (k : Nat) : Option Nat := (clusterOf s k).reserve.map (9 * k + ·)

/-- A core without work or contents: its dirty lines are written back first. -/
def emptyCore (s : State) (core : Nat) : State :=
  modCore (l1WriteBackAll s core) core (fun c => { c with
    dir := [], l1 := [], tlb := [], acc := [], accPoison := [], accCtx := none, rgnReqs := [] })

/-- A run on a reserve core is over: the core is free, and nothing of the run remains. -/
def endRun (s : State) (j : Job) : State :=
  let gone (g : Nat) : Bool := j.gid == some g
  let k := (s.clusters.find? (fun e => e.2.job == some j.id)).map (·.1)
  let s1 := { s with
    groups := s.groups.filter (fun e => !gone e.1), copies := s.copies.filter (fun c => !gone c.gid)
    sliceQ := s.sliceQ.filter (fun r => !gone r.gid) }
  match k with
  | none => s1
  | some k =>
    let s2 := modCluster s1 k (fun c => { c with job := none })
    match reservePhys s2 k with
    | some core => emptyCore s2 core
    | none => s2

/-- The original core drops its clean copies of a batch's lines. -/
def dropBatch (s : State) (core : Nat) (lines : List Nat) : State :=
  lines.foldl (fun st l =>
    match mget (coreOf st core).l1 l with
    | some x => if x.dirty = 0 then l1Drop st core l else st
    | none => st) s

/-- A split whose instruction is complete goes on at a PC. YLD keeps it out of the next clk, and the age of its next
instruction starts after that (R152). -/
def Split.onward (sp : Split) (clk : Nat) (pc : Pc) : Split :=
  { sp with pc, wait := .none, yld := false, age := if sp.yld then clk + 2 else clk + 1
            readyAt := if sp.yld then clk + 2 else sp.readyAt, caught := none }

/-- What a committed replay hands back to the original group: the registers live after REGION.CLOSE, predicates and
%fpflags, all full, counters zero; %fpctl is the snapshot's, and the group goes on after the REGION.CLOSE. -/
def handBack (g rg : Group) (nv ns : Nat) (closePc : Pc) (clk : Nat) : Group :=
  let sp (x : Split) : Split := Split.onward { x with readyAt := 0 } clk (closePc + 1)
  { g with
    vregs := (rg.vregs.filter (fun e => e.1 / 64 < nv)).foldl (fun m e => sput m e.1 e.2)
      (g.vregs.filter (fun e => nv ≤ e.1 / 64))
    sregs := (rg.sregs.filter (fun e => e.1 % 64 < ns)).foldl (fun m e => sput m e.1 e.2)
      (g.sregs.filter (fun e => ns ≤ e.1 % 64))
    preds := rg.preds, fpflags := rg.fpflags, fpflagsSh := rg.fpflagsSh
    fpctl := (g.region.snap.map (·.fpctl)).getD g.fpctl
    empty := g.empty.filter (nv ≤ ·), damaged := g.damaged.filter (fun r => !savedReg nv ns r), counters := []
    latent := g.latent.filter (fun k => !savedReg nv ns (latentReg k))
    region := {}, splits := rg.splits.map (fun e => (e.1, sp e.2)), ovf := [] }

/-- The original group gets its snapshot back, with its region in NONE, and goes on at a PC (R332). -/
def restart (g : Group) (pc : Pc) (clk : Nat) : Group :=
  let g1 := match g.region.snap with
    | some n => restoreSnap g n
    | none => g
  { g1 with region := {}, splits := g1.splits.map (fun e => (e.1, { e.2 with pc := pc, wait := .none, age := clk + 1, readyAt := 0 })) }

/-- VLIVE and SLIVE of the block that holds a PC, as a job's group sees it. -/
def jobLive (s : State) (rg : Group) (pc : Pc) : Nat × Nat :=
  let h := (headerOf s rg.core rg.part rg.ctx pc).1
  (hdrVlive h, hdrSlive h)

/-- An ended replay gives the original group what it owes it: the hand-back of a committed one, the abort, or the snapshot
of an abandoned one (R329, R332). -/
def handOver (s : State) (j : Job) (gid : Nat) : State :=
  let drop (s : State) : State := { endRun s j with jobs := s.jobs.filter (fun x => x.id != j.id) }
  match mget s.groups gid, j.ended with
  | some g, .committed =>
    match j.gid.bind (mget s.groups) with
    | none => s
    | some rg =>
      let (nv, ns) := jobLive s rg j.closePc
      let s1 := dropBatch (drop s) g.core j.batch
      acquireAt (modGroup s1 gid (fun g => handBack g rg nv ns j.closePc s.clk)) g 4
  | some _, .aborted t => modGroup (drop s) gid (fun g => restart g t s.clk)
  | some g, .event => modGroup (drop s) gid (fun g' => restart g' g.region.openPc s.clk)
  | _, _ => s

/-- R333: the halt waits for the hand-backs that ended replays of a partition owe. -/
def owedHandBacks (s : State) (p : Nat) : State :=
  s.jobs.foldl (fun st j =>
    match j.kind with
    | .replay gid => if j.part = p then handOver st j gid else st
    | _ => st) s

/-! ### The halt (R360, R361, R423) -/

/-- The stop unit of a group. -/
def groupUnit (s : State) (g : Group) (cause : Nat) (origin : Bool) (pc : Pc) (detail : BitVec 64)
    (lanes : BitVec 64) : StopUnit :=
  { unit := 0, cause, origin, ctx := g.ctx, pc, serial := g.serial, core := coreidOf s g.core
    slot := slotByte g, group := g.index, lanes, progress := 0, object := 0, detail
    inRegion := g.region.st == .opened, inHandler := g.aside.isSome, lined := g.lined
    discarded := !g.prods.isEmpty || !g.atoms.isEmpty || !g.storeQ.isEmpty || !g.region.held.isEmpty ||
      g.replayG.isSome || g.splits.any (fun e => e.2.wait == .reply || e.2.wait == .tailor) }

/-- The PC of a group's next instruction: that of its lowest split. -/
def groupPc (g : Group) : Pc :=
  match g.splits with
  | (_, sp) :: _ => sp.pc
  | [] => 0

/-- The stop unit of a team's sequencer. -/
def seqUnit (s : State) (t : Team) (q : Seq) (cause : Nat) (origin : Bool) : StopUnit :=
  { unit := 1, cause, origin, ctx := t.ctx, pc := q.pc, serial := 0, core := coreidOf s t.home
    slot := q.index, group := 0x20, lanes := 0
    progress := BitVec.ofNat 64 (match q.jobs with | j :: _ => j.pos | [] => 0), object := 0, detail := 0
    discarded := q.unfinished.isSome }

/-- Bytes of a collective operation that have been reduced: the elements for which every leaf is at hand; for an operation
that reduces nothing, the bytes that have come. -/
def collBytes (o : CollOp) : Nat :=
  let e := if o.ty.is64 then 8 else 4
  if o.minor = 1 || o.minor = 2 then e * o.got.length
  else
    e * ((List.range o.count).filter (fun i => o.members.zipIdx.all (fun m => o.lost.contains m.2 ||
      (List.range (min (2 ^ m.1.lb) (o.nleaves - m.1.base))).all (fun l =>
        (mget o.got (m.2 * 2 ^ 56 + o.count * l + i)).isSome)))).length

/-- Every other unit that acts for a context of the partition, group by group and then unit by unit (log entry
27): groups, sequencers, cores with copies in flight, Tailor, traversal, collective, task engine and
reserve-core jobs (Table 21.4). Sageip's groups keep running. -/
def haltUnits (s : State) (p : Nat) (skipG skipT : Nat) : List StopUnit :=
  let gs := s.groups.filter (fun e => e.2.part == p && !e.2.sageip && e.1 != skipG && e.2.job.isNone)
  let ts := s.teams.filter (fun e => e.2.part == p)
  let gu := gs.map (fun e => groupUnit s e.2 evHaltPeer false (groupPc e.2) 0 e.2.live)
  let su := ts.filterMap (fun e =>
    match e.2.seq with
    | some q => if q.ended || e.1 == skipT then none else some (seqUnit s e.2 q evHaltPeer false)
    | none => none)
  let blank (u ctx core : Nat) (object progress : Nat) (discarded : Bool) : StopUnit :=
    { unit := u, cause := evHaltPeer, origin := false, ctx, pc := 0, serial := 0, core, slot := 0, group := 0
      lanes := 0, progress := BitVec.ofNat 64 progress, object := BitVec.ofNat 64 object, detail := 0
      discarded }
  let mine (gid : Nat) : Bool := !(mget s.groups gid).any (·.sageip)
  let cs := s.copies.filter (fun c => c.part == p && mine c.gid)
  let cu := (cs.foldl (fun (l : List (Nat × Nat)) c => addOnce l (c.core, c.ctx)) []).map (fun k =>
    let own := cs.filter (fun c => (c.core, c.ctx) == k)
    blank 2 k.2 (coreidOf s k.1) 0 (own.foldl (fun n c => n + c.landed) 0) (own.any (fun c => !c.parts.isEmpty || c.unread)))
  let tu := (s.tailor.filter (fun o => o.part == p && mine o.gid && o.kind != 3)).map (fun o =>
    blank 3 o.ctx (o.core / 72) o.desc.toNat 0 false)
  let vs := s.travs.filter (fun t => t.part == p && mine t.gid)
  let vu := (vs.foldl (fun (l : List (Nat × Nat)) t => addOnce l (clusterOfCore t.core, t.ctx)) []).map (fun k =>
    let own := vs.filter (fun t => (clusterOfCore t.core, t.ctx) == k)
    blank 4 k.2 k.1 0 (own.foldl (fun n t => n + t.queries.length) 0) false)
  let lu := (s.colls.filter (fun c => c.part == p && mine c.gid)).map
    (fun c => blank 5 c.ctx 0 c.dest.toNat (collBytes c) true)
  let q := partOf s p
  let eu := (q.graphs.foldl (fun (l : List Nat) gr => addOnce l gr.ctx) []).map (fun c =>
    blank 6 c 0 (((q.graphs.find? (fun gr => gr.ctx == c)).map (·.table.toNat)).getD 0) q.readyQ.length false)
  let ju := s.jobs.filterMap (fun j =>
    if j.part = p && j.running then
      match j.orig with
      | some g =>
        let rg := (j.gid.bind (mget s.groups)).getD g
        some { groupUnit s rg evHaltPeer false (groupPc rg) 0 rg.live with unit := 7, core := j.coreid, slot := slotByte g }
      | none => none
    else none)
  gu ++ su ++ cu ++ tu ++ vu ++ lu ++ eu ++ ju

/-- The status word of a queue (R422). -/
def statusWord (q : Queue) : BitVec 64 :=
  BitVec.ofNat 64 (q.stop + 8 * q.refused.toNat + q.offset.toNat * 2 ^ 16 + q.poison.toNat * 2 ^ 40)

/-- The context, enable bit and size of a queue's descriptor (Table 27.3). -/
def queueCtx (q : Queue) : Nat := bits q.w1.toNat 16 4
def queueEnabled (q : Queue) : Bool := q.w1.getLsbD 63
def queuePrio (q : Queue) : Nat := bits q.w1.toNat 8 2
def queueSize (q : Queue) : Nat := 2 ^ (bits q.w1.toNat 0 5 + 4)

/-- A queue of a partition. -/
def queueOf (s : State) (p q : Nat) : Queue := mgetD (partOf s p).queues q {}
/-- Changes a queue. -/
def modQueue (s : State) (p q : Nat) (f : Queue → Queue) : State :=
  modPart s p (fun pt => { pt with queues := mput pt.queues q (f (mgetD pt.queues q {})) })

/-- Writes the head word and the status word of a queue in its context, as a release at system scope; a write
that faults writes a fault record with SLOT bit TASKENG set, and is performed after REPLAY (R422). -/
def writeQueueWords (s : State) (p q : Nat) : State :=
  let u := queueOf s p q
  let acc : Accessor := { core := ioDie, part := p, ctx := queueCtx u }
  match engineWrite s acc u.w3 (leBytes 8 u.head.toNat ++ leBytes 8 (statusWord u).toNat) 0 .w with
  | .ok s1 => modQueue s1 p q (fun u => { u with unwritten := false })
  | .error f =>
    if u.unwritten then s
    else
      emitRecord (modQueue s p q (fun u => { u with unwritten := true })) p
        (faultRec 0 f.cause (recFlags false f.malformed f.poisoned true false false false) f.level (queueCtx u) 0 0
          1 u.w3.toNat 0 32 0 (1 + 8 * 2 ^ 8 + q * 2 ^ 16))

/-- The event's group issues nothing more, and what R360 discards is discarded: instructions not complete,
stores not in a core's store order, held region stores. -/
def stopGroup (g : Group) : Group :=
  { g with stopped := true, prods := [], storeQ := [], atoms := [], replayG := none, replayS := none, events := []
           region := { g.region with held := [], st := .none } }

/-- A job that acts for a context: a replay or an audit run. -/
def isRun : JobKind → Bool
  | .replay _ => true
  | .audit _ => true
  | _ => false

/-- Every queue of a partition stops with HALTED (R360): what it was doing is dropped. -/
def haltQueues (qs : Amap Queue) : Amap Queue :=
  (List.range 64).foldl (fun m i =>
    mput m i { mgetD qs i {} with stop := 2, fence := [], waiting := [], placing := none }) qs

/-- The status words of the queues that have been set up say so (R422). -/
def writeHalted (s : State) (p : Nat) : State :=
  (partOf s p).queues.foldl (fun st e =>
    if queueEnabled e.2 || e.2.w3 != 0 then writeQueueWords st p e.1 else st) s

/-- A fatal event raises the halt line of its partition (R73, R360, R423): STATE becomes HALTED, every unit but
Sageip's stops, and every queue stops with HALTED. The stop records are written by UNIT_HALT_STOP, the origin's
first; those that `same` picks carry the origin's CAUSE. A request while the partition is not running changes nothing. -/
def raiseHalt (s : State) (p cause : Nat) (origin : List StopUnit) (skipG skipT : Nat)
    (same : StopUnit → Bool := fun _ => false) : State :=
  if (partOf s p).state ≠ 0 then s
  else
    let s := owedHandBacks s p
    let mine (gid : Nat) : Bool := !(mget s.groups gid).any (·.sageip)
    let units := origin ++ (haltUnits s p skipG skipT).map (fun u => if same u then { u with cause := cause } else u)
    let s1 := modPart s p (fun q => { q with
      state := 1, halt := some { cause, units, time := s.mantle.time }
      queues := haltQueues q.queues
      readyQ := [], graphs := [], decs := [], launches := [], preempts := []
      rcvFree := s.colls.foldl (fun n c => if c.part = p && mine c.gid then n + c.buffers else n) q.rcvFree })
    let s2 := { s1 with
      groups := s1.groups.map (fun (e : Nat × Group) => if e.2.part = p && !e.2.sageip then (e.1, stopGroup e.2) else e)
      teams := s1.teams.map (fun (e : Nat × Team) =>
        if e.2.part = p then
          (e.1, { e.2 with seq := e.2.seq.map (fun (q : Seq) => { q with stopped := true, jobs := [], jobsP := [] }) })
        else e)
      copies := s1.copies.filter (fun c => c.part != p || !mine c.gid)
      tailor := s1.tailor.filter (fun o => o.part != p || !mine o.gid)
      travs := s1.travs.filter (fun t => t.part != p || !mine t.gid)
      colls := s1.colls.filter (fun c => c.part != p || !mine c.gid)
      sliceQ := s1.sliceQ.filter (fun r => !(mget s.groups r.gid).any (fun g => g.part == p && !g.sageip))
      jobs := s1.jobs.filter (fun j => j.part != p || !isRun j.kind) }
    writeHalted s2 p

/-- A job on a reserve core meets an event (R332, R339): the run ends, an error apart from the others. -/
def endJob (s : State) (gid i : Nat) (e : JobEnd) : State :=
  modGroup { s with jobs := updFirst (fun j => j.id == i) (fun j => if j.ended = .none then { j with ended := e } else j) s.jobs }
    gid (fun g => { g with stopped := true })

/-- How an event ends the run of a job. -/
def jobEndOf (code : Nat) : JobEnd :=
  if code = evMachineCheck || code = evLiningMismatch then .error else .event

/-- A fatal event of a group, which issues nothing more; a job's run ends. -/
def haltGroup (s : State) (gid : Nat) (code : Nat) (epc : Pc) (lanes detail : BitVec 64) : State :=
  match mget s.groups gid with
  | none => s
  | some g =>
    match g.job with
    | some i => endJob s gid i (jobEndOf code)
    | none =>
      modGroup (raiseHalt s g.part code [groupUnit s g code true epc detail lanes] gid 0) gid stopGroup

/-- A fatal event of a sequencer: every event it raises is recorded with its PC and is fatal (R292). -/
def haltSeq (s : State) (tid : Nat) (code : Nat) : State :=
  match mget s.teams tid with
  | none => s
  | some t =>
    match t.seq with
    | none => s
    | some q => raiseHalt s t.part code [seqUnit s t q code true] 0 tid

/-! ### Regions: discard and rollback (R54, R59, R355) -/

/-- Discards what the instructions from a handle on would still deliver: their registers are full with what they
hold, their counters count them complete. -/
def cancelSince (g : Group) (mark : Nat) : Group :=
  let gone := g.prods.filter (fun p => mark ≤ p.id)
  let pends := g.pend.filter (fun p => mark ≤ p.op)
  let ks := gone.filterMap (·.counter) ++
    (pends.filter (fun p => !gone.any (fun q => q.id == p.op))).filterMap (·.counter)
  let g1 := { g with prods := g.prods.filter (fun p => p.id < mark), pend := g.pend.filter (fun p => p.op < mark) }
  let keep (r : Nat) : Bool :=
    g1.prods.any (fun p => p.d ≤ r && r < p.d + p.nregs) || g1.pend.any (fun p => p.d ≤ r && r < p.d + p.nregs)
  let drop (r : Option Replay) : Option Replay := r.bind (fun e => if mark ≤ e.id then none else some e)
  ks.foldl kdec { g1 with
    empty := g.empty.filter keep, replayG := drop g.replayG, replayS := drop g.replayS
    storeQ := g.storeQ.filter (fun e => !e.held) }

/-- The split stands at the REGION.OPEN of the group's waiting region (R54). -/
def opensRegion (g : Group) (sp : Split) : Bool :=
  sp.pc = g.region.openPc && (sp.wait == .region || sp.wait == .fault)

/-- The split that stands at the REGION.OPEN once the region has been rolled back (R355). -/
def regionEntry (g : Group) : Option Nat :=
  match g.region.snap with
  | some n => some n.entry
  | none => (g.splits.find? (fun e => opensRegion g e.2)).map (·.1)

/-- One pending register of the group no longer waits: its lanes hold free values. -/
def dropPend (s : State) (gid : Nat) (p : PoisonPend) : State :=
  modGroup { s with draws := s.draws + p.nregs * 64 } gid (fun g =>
    let ls := (List.range 64).filter (fun l => p.lanes.getLsbD l)
    let copies (l : Nat) : List Nat := if g.lined then [l, l + g.width] else [l]
    let g1 := (List.range p.nregs).foldl (fun (g : Group) k => ls.foldl (fun g l =>
      (copies l).foldl (fun g i =>
        vset g (p.d + k) i ((Config.freeValue (s.draws + 64 * k + l)).setWidth 32)) g) g) g
    let g2 := markFull { g1 with pend := g1.pend.filter (fun q => q != p) } p.d p.nregs
    if (g2.prods.any (fun q => q.id == p.op)) || g2.pend.any (fun q => q.op == p.op) then g2
    else match p.counter with
      | some k => kdec g2 k
      | none => g2)

/-- R355: an entry that rolled a region back leaves no register pending. What a poisoned lane of a load issued before the
REGION.OPEN then holds is a free value: the spec gives none (log entry 83). -/
def nonePending (s : State) (gid : Nat) : State :=
  match mget s.groups gid with
  | none => s
  | some g => g.pend.foldl (fun st p => dropPend st gid p) s

/-- Rolls a region that is OPEN or WAITING back to its REGION.OPEN (R59, R355): the held stores are discarded,
the snapshot is restored, the reservation returned; producers issued inside deliver nothing. -/
def rollbackGroup (g : Group) : Group :=
  match g.region.st with
  | .opened =>
    let g1 := cancelSince g g.region.mark
    let g2 := match g.region.snap with
      | some n => restoreSnap g1 n
      | none => g1
    { g2 with region := {} }
  | .waiting =>
    { g with region := {}
             replayG := g.replayG.bind (fun r => if r.uniform && r.pc = g.region.openPc then none else some r)
             splits := g.splits.map (fun e =>
               (e.1, if opensRegion g e.2 then { e.2 with wait := .none, issued := none } else e.2)) }
  | _ => g

/-- Rolls back the region of a group, and forgets its request for budget. -/
def rollback (s : State) (gid : Nat) : State :=
  match mget s.groups gid with
  | none => s
  | some g =>
    modCore (modGroup s gid rollbackGroup) g.core
      (fun c => { c with rgnReqs := c.rgnReqs.filter (fun r => r.gid != gid) })

/-- An error in an open region aborts it (R328): the held stores are discarded, the reservation returned, what the
region would still deliver is discarded, the region is ABORTED and REGION_ABORT goes to Darner, which replays it as a
reserve-core job (R329). In a replay the run ends as an error (R332). -/
def abortRegion (s : State) (gid : Nat) : State :=
  match mget s.groups gid with
  | none => s
  | some g =>
    match g.job with
    | some i => endJob s gid i .error
    | none =>
      let s1 := modGroup s gid (fun g =>
        let h := cancelSince g g.region.mark
        { h with region := { h.region with
            st := .aborted, held := [], tries := h.region.tries + 1, audited := false, logged := [], logSlots := [] } })
      { s1 with
        jobs := s1.jobs ++ [{ id := s1.nextOp, part := g.part, kind := .replay gid, origin := clusterOfCore g.core
                              orig := some g, coreid := coreidOf s g.core }]
        nextOp := s1.nextOp + 1 }

/-! ### Taking an event (R73, R353 to R357) -/

/-- The codes of Table 21.2 that go to a vector, with the vector's place in the vector word (Table 21.1): TRAP 0,
MCHK 12, UERR 24, MISS 36, GONE 48. -/
def vectorShift (code : Nat) : Option Nat :=
  if code = evEmptyRead || code = evFpTrap || code = evCloakVersion || code = evCloakRights ||
      code = evDoubleResume || code = evGenTableFull || code = evBuildMemory || code = evDegenerate ||
      code = evCollMisaligned then some 0
  else if code = evMachineCheck || code = evLiningMismatch then some 12
  else if code = evPoison then some 24
  else if code = evOverlayMiss then some 36
  else if code = evOverlayGone then some 48
  else none

/-- The PC of a group's vector for a code; none where it is absent (R351). -/
def vectorPc (s : State) (g : Group) (code : Nat) : Option Pc :=
  match vectorShift code, rootOv s g.core g.part g.ctx g.sageip with
  | some sh, some e =>
    let off := bits e.vec.toNat sh 12
    if off = 0 then none else some (mkPc e.id off)
  | _, _ => none

/-- RPC at entry (R357, R355). -/
def entryRpc (ev : Event) (ipc : Pc) (rolled : Bool) (openPc : Pc) : Pc :=
  if rolled then openPc
  else if ev.soft then ev.epc + 1
  else if ev.again || ev.code = evLiningMismatch then ev.epc
  else if !ev.precise then ipc
  else if ev.code = evFpTrap || ev.code = evCloakVersion || ev.code = evCloakRights || ev.code = evDoubleResume then
    ev.epc + 1
  else ev.epc

/-- The event frame's bytes 127:0 (Table 21.3). -/
def frameBytes (g : Group) (ev : Event) (ipc rpc : Pc) (rolled : Bool) : List (BitVec 8) :=
  leBytes 128 (packFields [(0, ev.epc.toNat), (4, ipc.toNat), (8, rpc.toNat), (12, ev.code),
    (13, rolled.toNat + 2 * ev.holdFull.toNat + 4 * (!ev.precise).toNat + 8 * ev.soft.toNat + 16 * g.lined.toNat),
    (14, ev.split), (16, ev.lanes.toNat), (24, ev.info.toNat), (32, ev.info2.toNat)])

/-- Entries of a store queue that write bytes at an address, 8 at a time. -/
def storeWords (a : BitVec 64) : List (BitVec 8) → Nat → List LaneAcc
  | _, 0 => []
  | bs, n + 1 =>
    { lane := 0, addr := a, size := 8, data := BitVec.ofNat 128 (leNat (bs.take 8)) } ::
      storeWords (a + 8) (bs.drop 8) n

/-- Enters a handler (R356): the other splits issue nothing, the split table is set aside, the event frame is
written through the group's store queue, and one handler split starts at the vector with every unexited lane. -/
def enterHandler (s : State) (gid : Nat) (ev : Event) (vec : Pc) : State :=
  match mget s.groups gid with
  | none => s
  | some g0 =>
    let rolled := g0.region.st == .opened || g0.region.st == .waiting
    let openPc := g0.region.openPc
    let back := if rolled then (regionEntry g0).getD ev.split else ev.split
    let s1 := if rolled then nonePending (rollback s gid) gid else s
    match mget s1.groups gid with
    | none => s1
    | some g =>
      let ipc := if ev.precise then ev.epc
        else match mget g0.splits ev.split with
          | some sp => sp.pc
          | none => ev.epc
      let rpc := entryRpc ev ipc rolled openPc
      let frame : StoreEntry :=
        { id := s1.nextOp, pc := ev.epc, split := 0, kind := .store, order := 0, scope := 0
          accs := storeWords g.priv (frameBytes g ev ipc rpc rolled) 16 ++
            ev.addrs.map (fun a => { lane := 0, addr := g.priv + BitVec.ofNat 64 (0x80 + 8 * a.1), size := 8
                                     data := a.2.setWidth 128 }) }
      let g' := { g with
        aside := some { splits := g.splits, ovf := g.ovf, split := back, epc := ev.epc, ipc, code := ev.code
                        rolled, regionPc := openPc, mark := s1.nextOp
                        named := if ev.code = evPoison && !ev.soft then
                          (bits ev.info.toNat 0 8, bits ev.info.toNat 8 8) else (0, 0) }
        splits := [(0, { pc := vec, mask := g.live, age := s1.clk + 1 })], ovf := []
        storeQ := g.storeQ ++ [frame] }
      { s1 with groups := mput s1.groups gid g', nextOp := s1.nextOp + 1 }

/-- An instruction that raises a precise event reads its registers afresh where it issues again (R335): its split keeps
nothing for a replay. -/
def dropCaught (s : State) (gid : Nat) (g : Group) (ev : Event) : State :=
  match (mget g.splits ev.split).bind (·.caught) with
  | some _ => if ev.precise then modGroup s gid (fun g => { g with splits := mmod g.splits ev.split (fun sp => { sp with caught := none }) })
      else s
  | none => s

/-- Takes an event of a group: the ONE operation that routes events (Table 21.2). A fatal code, an absent vector
and an event of the handler's own instructions raise the halt line; an event in a job on a reserve core ends its
run (R332), as an error or, for a code of TRAP too, as another event; machine checks and lining mismatches raised
by the device in an open region go to Darner; an asynchronous event waits for EVENT_DELIVERY. DEDUCED (log entry 92): while
a handler runs, an asynchronous event of an instruction that issued before the handler's entry waits for TRET (R354); any
other is fatal (R357). -/
def raise (s : State) (gid : Nat) (ev : Event) : State :=
  match mget s.groups gid with
  | none => s
  | some g =>
    let s := dropCaught s gid g ev
    let fatal := haltGroup s gid ev.code ev.epc ev.lanes ev.info
    let queued := modGroup s gid (fun g => { g with events := g.events ++ [ev] })
    let device := !ev.soft && (ev.code = evMachineCheck || ev.code = evLiningMismatch)
    match g.job with
    | some i => endJob s gid i (if ev.soft then .event else jobEndOf ev.code)
    | none =>
    if (vectorShift ev.code).isNone then fatal
    else if device && g.region.st == .opened then abortRegion s gid
    else
      match g.aside with
      | some a => if a.mark ≤ ev.op then fatal else queued
      | none =>
        match vectorPc s g ev.code with
        | none => fatal
        | some vec =>
          if ev.precise && !(device && g.region.st == .committing) then enterHandler s gid ev vec else queued

/-- The split at which an event is delivered: the one it names, or the first if that has merged into another. -/
def eventSplit (g : Group) (e : Event) : Option (Nat × Split) :=
  match mget g.splits e.split with
  | some sp => some (e.split, sp)
  | none => g.splits.head?

/-- A split stands at the boundary where an event that waits is to be delivered (R354): it issues nothing before. While a
handler runs the events wait for its TRET. -/
def eventHolds (g : Group) (j : Nat) (sp : Split) : Bool :=
  g.aside.isNone && ((g.kept && !g.events.isEmpty) ||
    (sp.wait == .none && g.events.any (fun e => (eventSplit g e).map (·.1) == some j)))

/-- Raises a precise event of the instruction at a split's PC. -/
def raiseAt (s : State) (gid j code : Nat) (lanes info : BitVec 64) : State :=
  match mget s.groups gid with
  | none => s
  | some g =>
    match mget g.splits j with
    | none => s
    | some sp => raise s gid { code, precise := true, split := j, epc := sp.pc, lanes, info, info2 := 0, op := s.nextOp }

/-! ### An issuing split -/

/-- The issuing split and its instruction. `act` holds the active lanes of the primary copy, `all` those of both
copies (R11, R175). -/
structure Iss where
  gid : Nat
  g : Group
  j : Nat
  sp : Split
  op : Op
  x : Enc
  act : BitVec 64
  all : BitVec 64
  deriving Repr

/-- The guard of a lane (R148). -/
def guardOk (g : Group) (x : Enc) (l : Nat) : Bool :=
  (pget g l x.gp.toNat != x.gpi) && (pget g l x.gq.toNat != x.gqi)

/-- The active lanes among the lanes of a mask (R11). -/
def activeOf (g : Group) (x : Enc) (m : BitVec 64) : BitVec 64 := maskOf ((lanesOf m).filter (guardOk g x))

/-- The unexited lanes of the primary copy. -/
def liveLanes (g : Group) : BitVec 64 := g.live

/-- IMM16 of a BF16 value widened exactly to FP64; a NaN keeps its sign and fraction (Table 9.6). -/
def bf16ToF64 (i : BitVec 16) : BitVec 64 :=
  let v := i.toNat
  let sign := bits v 15 1
  let e := bits v 7 8
  let f := bits v 0 7
  let mag :=
    if e = 255 then 2047 * 2 ^ 52 + f * 2 ^ 45
    else if e = 0 then
      if f = 0 then 0
      else let k := Nat.log2 f; (k + 890) * 2 ^ 52 + (f - 2 ^ k) * 2 ^ (52 - k)
    else (e + 896) * 2 ^ 52 + f * 2 ^ 45
  BitVec.ofNat 64 (sign * 2 ^ 63 + mag)

/-- The immediate of a word, read in its TYPE (Table 9.6). Where a position takes 64 bits of a 32-bit TYPE the
value is extended as the TYPE extends it. -/
def immVal (ty : Ty) (i : BitVec 16) : BitVec 64 :=
  let n := i.toNat
  match ty with
  | .b32 | .n32 | .n64 => i.setWidth 64
  | .i32 | .i64 => i.signExtend 64
  | .i16x2 | .n16x2 | .f16x2 | .bf16x2 => BitVec.ofNat 64 (n + n * 2 ^ 16)
  | .i8x4 | .n8x4 | .e4m3x4 | .e5m2x4 => BitVec.ofNat 64 (n + n * 2 ^ 16)
  | .t2x16 => BitVec.ofNat 64 (n + n * 2 ^ 16)
  | .f64 => bf16ToF64 i
  | .f32 => BitVec.ofNat 64 (n * 2 ^ 16)

/-- The value an operand supplies to a lane. -/
def readOperand (g : Group) (x : Enc) (w : Wd) (l : Nat) : Operand → BitVec 64
  | .v i =>
    let r := i.toNat
    if (x.span w).1 = 1 then (vget g r l).setWidth 64
    else (vget g (r + 1) l) ++ (vget g r l)
  | .s i => srget g (copyOf g l) i.toNat
  | .imm => immVal x.ty x.imm
  | _ => 0

/-- The value of a uniform operand in a copy. -/
def uniOperand (g : Group) (x : Enc) (copy : Nat) : Operand → BitVec 64
  | .s i => srget g copy i.toNat
  | .imm => immVal x.ty x.imm
  | _ => 0

/-- The predicate an operand names, in a lane. -/
def predOperand (g : Group) (l : Nat) : Operand → Bool
  | .p i => pget g l i.toNat
  | _ => false

/-- Writes a vector destination of one or two registers in a lane; the bit is left full (R153). -/
def writeV (g : Group) (r : Nat) (two : Bool) (l : Nat) (v : BitVec 64) : Group :=
  let g1 := vset g r l (v.extractLsb' 0 32)
  if two then vset g1 (r + 1) l (v.extractLsb' 32 32) else g1

/-- Replaces the issuing split. -/
def putSplit (s : State) (gid j : Nat) (sp : Split) : State :=
  modGroup s gid (fun g => { g with splits := mput g.splits j sp })

/-- Changes the issuing split of the current state. -/
def modSplit (s : State) (gid j : Nat) (f : Split → Split) : State :=
  modGroup s gid (fun g => { g with splits := mmod g.splits j f })

/-- The split goes on at a PC: its instruction has issued. -/
def goOn (s : State) (c : Iss) (pc : Pc) : State :=
  modSplit s c.gid c.j (fun sp => Split.onward { sp with yld := c.x.yld || c.op == .yield } s.clk pc)

/-- The instruction a split waits at: it is not fetched again (R271). -/
def heldWord (w : Wait) (issued : Option (Op × Enc)) : Option (Op × Enc) :=
  if w = .none || w = .resumed then none else issued

/-- An instruction with this handle was issued before the group entered its handler: its split is set aside. -/
def beforeEntry (g : Group) (op : Nat) : Bool := match g.aside with | some a => op < a.mark | none => false

/-- Changes the split of an instruction that has issued, where it is set aside for a handler too (R356). -/
def modIssued (g : Group) (op j : Nat) (f : Split → Split) : Group :=
  if beforeEntry g op then { g with aside := g.aside.map (fun a => { a with splits := mmod a.splits j f }) }
  else { g with splits := mmod g.splits j f }

/-- The split of an instruction that has issued. -/
def issuedSplit (g : Group) (op j : Nat) : Option Split :=
  match g.aside with
  | some a => if op < a.mark then mget a.splits j else mget g.splits j
  | none => mget g.splits j

/-- The unfinished uniform load or store of a split holds it until REPLAY performs it (R218). -/
def replayHolds (g : Group) (j : Nat) : Bool :=
  match g.replayG with
  | some r => r.uniform && r.split == j && !beforeEntry g r.id &&
      (match r.what with | .prod _ | .store => true | _ => false)
  | none => false

/-- The split goes on at the next word. -/
def advance (s : State) (c : Iss) : State := goOn s c (c.sp.pc + 1)

/-- The split waits at its instruction. -/
def waitAs (s : State) (c : Iss) (w : Wait) : State := modSplit s c.gid c.j (fun sp => { sp with wait := w, yld := c.x.yld, issued := some (c.op, c.x) })

/-- Changes the issuing group. -/
def onGroup (s : State) (c : Iss) (f : Group → Group) : State := modGroup s c.gid f

/-- Raises a precise event of the issuing instruction (R354). -/
def raiseIss (s : State) (c : Iss) (code : Nat) (lanes info : BitVec 64) : State :=
  raise s c.gid { code, precise := true, split := c.j, epc := c.sp.pc, lanes, info, info2 := 0, op := s.nextOp }

/-- REGION_ILLEGAL, before any effect, after the held stores have been discarded (R56). -/
def regionIllegal (s : State) (c : Iss) : State :=
  raiseIss (onGroup s c (fun g => { g with region := { g.region with held := [] } })) c evRegionIllegal c.sp.mask 0

/-! ### Checks at issue (R44, R145, R157 to R159, R250, R252) -/

/-- The majors a role may issue (Table 3.2). -/
def roleAllows (r : Role) (major : Nat) (bld : Bool) : Bool :=
  match r with
  | .vector => major ≤ 7 || (0x10 ≤ major && major ≤ 0x18) || (0x20 ≤ major && major ≤ 0x27) ||
      (0x30 ≤ major && major ≤ 0x36) || (major == 0x3D && !bld)
  | .copy => major ≤ 6 || (0x10 ≤ major && major ≤ 0x18) || (0x30 ≤ major && major ≤ 0x36)
  | .system => major ≤ 6 || (0x10 ≤ major && major ≤ 0x18) || (0x30 ≤ major && major ≤ 0x36) || major == 0x3D ||
      major == 0x3E

/-- The Tailor instructions, which system groups alone issue (R382). -/
def isBld : Op → Bool
  | .bldBuild | .bldRefit | .bldRebal | .bldPublish | .bldStat => true
  | _ => false

/-- HIT.* stands in an any-hit or intersection shader; elsewhere it raises ROLE (R391). -/
def hitOk (g : Group) : Op → Bool
  | .hitAccept | .hitIgnore | .hitEnd =>
    match g.shader with
    | some h => h.kind != 3
    | none => false
  | _ => true

/-- The group's role, and for HIT.* its shader kind, permits the instruction (Table 3.2, R382, R391). -/
def roleOk (g : Group) (op : Op) : Bool := roleAllows g.role (form op).major (isBld op) && hitOk g op

/-- HIT.ACCEPT in an any-hit shader has A %zero (R391). -/
def hitOperandOk (g : Group) (op : Op) (x : Enc) : Bool :=
  op != .hitAccept || !x.a.isV || (match g.shader with | some h => h.kind != 1 | none => true)

/-- A privileged instruction stands where it is permitted (R252). -/
def privilegeOk (s : State) (g : Group) : Op → Bool
  | .replay => g.sageip
  | .pfix => match g.aside with
    | some a => a.code == evPoison
    | none => false
  | .tret => g.aside.isSome
  | .errinj => (partOf s g.part).testMode
  | _ => true

/-- The operand stays below the launch's VREGS and SREGS (R145). -/
def limitOk (nv ns : Nat) (op : Op) (x : Enc) (q : Pos) (y : Operand) : Bool :=
  if !q.used || (q.opt && !optUsed op x y) then true
  else
    match y with
    | .v i => i.toNat + (x.span q.w).1 ≤ nv
    | .s i => i.toNat + (if (x.span q.w).1 = 4 then 2 else 1) ≤ ns
    | _ => true

/-- Every operand of the word stays below the limits. -/
def limitsOk (nv ns : Nat) (op : Op) (x : Enc) : Bool :=
  (positions op x).all (fun q => limitOk nv ns op x q.1 q.2)

/-- A segment of a lane instruction is no larger than the group (R206). -/
def segOk (g : Group) (op : Op) (x : Enc) : Bool :=
  (form op).major != 0x27 || 2 ^ x.bits 0 3 ≤ g.width

/-- The event a word raises at issue by a group, in the order of R158, where it raises one. `wordOk` tells
whether the fields of the word are those of a valid instruction. -/
def issueCheck (s : State) (g : Group) (op : Op) (x : Enc) : Option Nat :=
  if !roleOk g op then some evRole
  else if !privilegeOk s g op then some evPrivilege
  else if !operandsOk op x || !limitsOk g.nv g.ns op x || !hitOperandOk g op x then some evIllegalOperand
  else if !fieldsOk op x || !segOk g op x then some evIllegalField
  else none

/-- Instructions that must be issued by a split whose mask is the group's unexited lanes (Table 15.2). -/
def wholeSplit : Op → Bool
  | .callo | .calloReg | .reto | .barSet | .barSync | .barArrive | .barWait | .stageInit | .stagePost | .stageTake
  | .suspend | .regionOpen | .regionClose | .regionAbort => true
  | _ => false

/-- Instructions that are REGION_ILLEGAL in an open region (R56, Tables 13.8, 15.2, R382, R413). -/
def regionBars : Op → Bool
  | .exit | .replay | .ovldF | .resume | .codrop | .tkdone | .tkadd | .launch | .barSet | .barSync | .barArrive
  | .barWait | .stageInit | .stagePost | .stageTake | .suspend | .regionOpen | .sts | .cpaS | .cpaG | .cpaO
  | .cptS | .cptO | .atom | .atoms | .red | .dqpush | .dqpop | .dqsteal | .monarm | .monwait | .bldBuild
  | .bldRefit | .bldRebal | .bldPublish | .bldStat | .genPin | .genUnpin | .trace | .probeSph | .probeBox
  | .collReduce | .collBcast | .collAllgather | .collRscatter => true
  | _ => false

/-! ### Readiness (R39, R151) -/

/-- A vector operand's registers. -/
def vregsOf (x : Enc) (q : Pos) : Operand → List Nat
  | .v i => (List.range (x.span q.w).1).map (fun k => i.toNat + k)
  | _ => []

/-- Vector sources with their wait bits, and vector destinations (D, and E where it is a destination). CPA.G's
destination lies in the target group. -/
def sourceRegs (op : Op) (x : Enc) : List (Nat × Bool) :=
  let f := form op
  let one (q : Pos) (y : Operand) (w : Bool) : List (Nat × Bool) :=
    if q.used && !q.dst && (!q.opt || optUsed op x y) then (vregsOf x q y).map (fun r => (r, w)) else []
  one f.a x.a x.wa ++ one f.b x.b x.wb ++ one f.c x.c x.wc ++ one f.e x.e x.we

/-- The vector destinations of a word in its own group. -/
def destRegs (op : Op) (x : Enc) : List Nat :=
  let f := form op
  if op == .cpaG || op == .pfix then []
  else (if f.d.used && f.d.dst then vregsOf x f.d x.d else []) ++
    (if f.e.used && f.e.dst then vregsOf x f.e x.e else [])

/-- Vector destinations that a word reads as well. -/
def bothRegs (op : Op) (x : Enc) : List Nat :=
  (positions op x).flatMap (fun q => if q.1.used && q.1.dst && q.1.both then vregsOf x q.1 q.2 else [])

/-- Scalar registers a word reads; 16 bytes are a pair of them (R215). -/
def scalarReads (op : Op) (x : Enc) : List Nat :=
  (positions op x).flatMap (fun q =>
    match q.2 with
    | .s i => if q.1.used && (!q.1.dst || q.1.both) then
        (if (x.span q.1.w).1 = 4 then [i.toNat, i.toNat + 1] else [i.toNat]) else []
    | _ => [])

/-- Predicate registers a word reads: its guard's, and its predicate sources. -/
def predReads (op : Op) (x : Enc) : List Nat :=
  ([x.gp.toNat, x.gq.toNat] ++ (positions op x).filterMap (fun q =>
    match q.2 with
    | .p i => if q.1.used && (!q.1.dst || q.1.both) then some i.toNat else none
    | _ => none)).filter (· < 15)

/-- The registers a word reads, as `damaged` numbers them. -/
def readRegs (op : Op) (x : Enc) : List Nat :=
  (sourceRegs op x).map (fun (r : Nat × Bool) => r.1) ++ bothRegs op x ++
    (scalarReads op x).map (fun (j : Nat) => 256 + j) ++ (predReads op x).map (fun (i : Nat) => 512 + i)

/-- INFO of a machine check: register index and class (Table 21.3). -/
def mcInfo (reg cls : Nat) : BitVec 64 := BitVec.ofNat 64 (reg + 256 * cls)

/-- INFO of a machine check for a damaged register, numbered as `damaged` numbers it. -/
def damageInfo (r : Nat) : BitVec 64 :=
  if r < 256 then mcInfo r 0 else if r < 512 then mcInfo (r - 256) 1 else mcInfo (r - 512) 2

/-- What the full/empty bits say (R151, R322): go, wait, EMPTY_READ or a damaged register. -/
inductive Ready where
  | go | wait | emptyRead (r : Nat) | damaged (r : Nat)
  deriving DecidableEq, Repr

/-- Whether the registers of a word let it issue. -/
def regsReady (g : Group) (op : Op) (x : Enc) : Ready :=
  let srcs := sourceRegs op x
  match (readRegs op x).find? (fun (r : Nat) => g.damaged.contains r) with
  | some r => .damaged r
  | none =>
    if srcs.any (fun (r : Nat × Bool) => !r.2 && isEmpty g r.1) ||
        (destRegs op x).any (fun r => isEmpty g r && !g.damaged.contains r) then .wait
    else
      match srcs.find? (fun (r : Nat × Bool) => r.2 && isEmpty g r.1) with
      | some r => .emptyRead r.1
      | none => .go

/-! ### Register errors (R260, R321, R322) -/

/-- A read of some lanes meets a value whose parity is wrong: its register, and the lanes (R321). -/
def parityHit (g : Group) (op : Op) (x : Enc) (lanes : BitVec 64) : Option (Nat × BitVec 64) :=
  if g.latent.isEmpty then none
  else
    let meets (k : Nat) : Bool := (2 ^ 15 ≤ k && k < 2 ^ 16) || (bothCopies g lanes).getLsbD (latentLane k)
    (readRegs op x).findSome? (fun r =>
      match g.latent.filter (fun k => latentReg k == r && meets k) with
      | [] => none
      | ks => some (r, if 256 ≤ r && r < 512 then lanes else maskOf (ks.map (fun k => laneIn g (latentLane k)))))

/-- A register becomes damaged, and a vector register empty (R322). -/
def damage (g : Group) (r : Nat) : Group :=
  let h := { g with damaged := insertNat g.damaged r, latent := g.latent.filter (fun k => latentReg k != r) }
  if r < 256 then markEmpty h r 1 else h

/-- FP64 instructions of ERRINJ `.res64` (Table 15.4). -/
def isRes64 (op : Op) (x : Enc) : Bool :=
  let m := (form op).major
  m == 0x20 || op == .dcmp || op == .dclass ||
    ((op == .cvt || op == .cvtp) && (x.ty == .f64 || x.sty == .f64)) || (op == .scaleb && x.ty == .f64) ||
    ((op == .lred || op == .lscan) && x.ty == .f64)

/-- FP32 and packed 16-bit instructions of ERRINJ `.resn` (Table 15.4). -/
def isResN (op : Op) (x : Enc) : Bool :=
  let m := (form op).major
  !isRes64 op x && (m == 0x21 || m == 0x22 || m == 0x25 || op == .fcmp || op == .fclass || op == .hcmp2 ||
    ((op == .cvt || op == .cvtp) && (x.ty.isFloat || x.sty.isFloat)) || op == .scaleb ||
    ((op == .lred || op == .lscan) && (x.ty == .f32 || x.ty == .f16x2 || x.ty == .bf16x2)))

/-- The instruction is an event of the armed injection's kind (kinds 0 to 3 of Table 15.4). -/
def injEvent (i : Inject) (op : Op) (x : Enc) (act : BitVec 64) : Bool :=
  let lane := act.getLsbD i.lane
  match i.kind with
  | 0 => isRes64 op x && lane
  | 1 => isResN op x && lane
  | 2 => (readRegs op x).contains i.reg && i.reg < 256 && lane
  | 3 => (scalarReads op x).contains (i.reg % 64)
  | _ => false

/-- Counts an injection's event: the injection left armed, and whether it fires now. -/
def injStep (i : Inject) : Option Inject × Bool :=
  if i.left ≤ 1 then (none, true) else (some { i with left := i.left - 1 }, false)

/-- An injected error fires at this instruction (R322): it is not performed in any lane, a register whose
parity failed is damaged, and MACHINE_CHECK is raised. -/
def fireInjection (s : State) (c : Iss) (i : Inject) : State :=
  let lanes := if i.kind = 3 then c.sp.mask else bitMask i.lane
  let (info, dmg) := match i.kind with
    | 2 => (mcInfo i.reg 0, [i.reg])
    | 3 => (mcInfo (i.reg % 64) 1, [256 + i.reg % 64])
    | _ => (mcInfo 0 3, [])
  let s1 := onGroup s c (fun g => dmg.foldl damage { g with inj := none })
  raiseIss s1 c evMachineCheck lanes info

/-! ### The frame of an instruction -/

/-- A guard predicate of a word that is damaged, or whose parity fails in a lane of the split, with the lanes (R322):
it is read before it tells which lanes are active. -/
def guardHit (g : Group) (x : Enc) (m : BitVec 64) : Option (Nat × BitVec 64) :=
  ([x.gp.toNat, x.gq.toNat].filter (fun (i : Nat) => decide (i < 15))).findSome? (fun (i : Nat) =>
    if g.damaged.contains (512 + i) then some (512 + i, m)
    else
      match (lanesOf (bothCopies g m)).filter (fun (l : Nat) => g.latent.contains (2 ^ 16 + 16 * l + i)) with
      | [] => none
      | ls => some (512 + i, maskOf (ls.map (laneIn g))))

/-- An instruction whose result a vector datapath computes under a residue check (R321): integer, floating-point and lane
arithmetic. -/
def computes (op : Op) : Bool :=
  let m := (form op).major
  (0x10 ≤ m && m ≤ 0x17) || (0x20 ≤ m && m ≤ 0x27)

/-- The residue check of an instruction fails in this lane (R322): the error of the group's datapath meets its result. -/
def residueHit (g : Group) (op : Op) (act : BitVec 64) : Option Nat :=
  g.residue.filter (fun l => computes op && act.getLsbD l)

/-- The instruction at the turn of a split issues: the checks of R157 to R159 and R250, its guard's soundness (R322),
readiness (R151), the residue of its result (R321, R322), an armed injection (R260); then its own effect. An instruction with no active lane only goes on (R148).
One that a replay performs again has passed them, and takes its operands from the replay entry (R221). -/
def issueSplit (op : Op) (x : Enc) (s : State) (gid j : Nat) (body : Iss → State → State) : State :=
  match mget s.groups gid with
  | none => s
  | some g =>
    match mget g.splits j with
    | none => s
    | some sp =>
      let act := if uniform op x then sp.mask else activeOf g x sp.mask
      let all := if uniform op x then bothCopies g sp.mask else activeOf g x (bothCopies g sp.mask)
      let c : Iss := { gid, g, j, sp, op, x, act, all }
      match sp.caught with
      | some m => body { c with g := { g with sregs := m.sregs } } s
      | none =>
      match issueCheck s g op x with
      | some code => raiseIss s c code sp.mask 0
      | none =>
      match guardHit g x sp.mask with
      | some (r, lanes) => raiseIss (onGroup s c (fun g => damage g r)) c evMachineCheck lanes (damageInfo r)
      | none =>
        if regionBars op && g.region.st == .opened && !(act = 0 && all = 0) then regionIllegal s c
        else if wholeSplit op && sp.mask ≠ g.live then raiseIss s c evBarrierDivergent sp.mask 0
        else
          match regsReady g op x with
          | .wait => s
          | .damaged r =>
            if act = 0 && all = 0 then advance s c else raiseIss s c evMachineCheck c.act (damageInfo r)
          | .emptyRead r => if act = 0 && all = 0 then advance s c else raiseIss s c evEmptyRead c.act (mcInfo r 0)
          | .go =>
            if act = 0 && all = 0 then advance s c
            else
              match parityHit g op x act with
              | some (r, lanes) => raiseIss (onGroup s c (fun g => damage g r)) c evMachineCheck lanes (damageInfo r)
              | none =>
              match residueHit g op act with
              | some l => raiseIss (onGroup s c (fun g => { g with residue := none })) c evMachineCheck (bitMask l) (mcInfo 0 3)
              | none =>
              match g.inj with
              | none => body c s
              | some i =>
                if sp.wait = .none && injEvent i op x act then
                  match injStep i with
                  | (_, true) => fireInjection s c i
                  | (i', false) =>
                    let s1 := modGroup s gid (fun g => { g with inj := i' })
                    let s2 := body { c with g := { g with inj := i' } } s1
                    if s2 = s1 then s else s2
                else body c s

/-- Nothing runs without power (R430). -/
def powered (s : State) (s' : State) : Out := if s.mantle.powered then .next s' else .fault .noPower

/-- What a group's instruction does at the turn of an agent. At the turn of a sequencer every instruction that a
sequencer does not execute raises ROLE, recorded with the sequencer's PC (R45, R291). -/
def issue (op : Op) (x : Enc) (s : State) (body : Iss → State → State) : Out :=
  powered s (match s.turn with
    | .none => s
    | .split gid j => issueSplit op x s gid j body
    | .seq tid => haltSeq s tid evRole)

/-- A step of the machine that has no encoding. -/
def stepEvent (s : State) (f : State → State) : Out := powered s (f s)

/-! ### Returning from a handler (R358) -/

/-- RPC is a PC that TRET accepts (R358); the REGION.OPEN that an entry was rolled back to is accepted where the
device wrote it (R355, log entry 21). -/
def rpcOk (s : State) (g : Group) (a : Aside) (rpc : Pc) : Bool :=
  rpc == a.epc || rpc == a.epc + 1 || rpc == a.ipc || isHeaderPc s g.core g.part g.ctx rpc ||
    (a.rolled && rpc == a.regionPc)

/-- Ends the handler: the set-aside split table is restored and the interrupted split continues at RPC. Lanes
that exited in the handler leave every mask (R38). -/
def leaveHandler (g : Group) (a : Aside) (rpc : Pc) (clk : Nat) : Group :=
  let keep (m : BitVec 64) : BitVec 64 := m &&& g.live
  let splits := (a.splits.map (fun e => (e.1, { e.2 with mask := keep e.2.mask }))).filter (fun e => e.2.mask != 0)
  { g with
    aside := none
    splits := mmod splits a.split (fun sp => { sp with
      pc := rpc, wait := if rpc = a.ipc && rpc = sp.pc then sp.wait else .none, age := clk + 1 })
    ovf := (a.ovf.map (fun sp => { sp with mask := keep sp.mask })).filter (fun sp => sp.mask != 0) }

end Sys2Proof.Machine
end

