-- ==== Sys2Proof/Machine/Operands.lean ====
section
/-!
DEFINITION. The operand forms of the compute instructions (R169 to R172, R79): reading sources in a lane or a
copy, elements of packed types, and writing destinations of lanes, of scalars and of predicates.
-/
namespace Sys2Proof.Machine

/-! ### Elements -/

/-- The value of an element of `w` bits, signed or not (R79). -/
def elemVal (signed : Bool) (w : Nat) (n : Nat) : Int :=
  if signed && 2 ^ (w - 1) ≤ n then (n : Int) - 2 ^ w else n

/-- The low `w` bits of an exact result. -/
def wrapTo (w : Nat) (x : Int) : Nat := (x % (2 ^ w : Nat)).toNat

/-- The least value of a type of `w` bits. -/
def loOf (signed : Bool) (w : Nat) : Int := if signed then -(2 ^ (w - 1) : Nat) else 0
/-- The greatest value of a type of `w` bits. -/
def hiOf (signed : Bool) (w : Nat) : Int := if signed then (2 ^ (w - 1) : Nat) - 1 else (2 ^ w : Nat) - 1
/-- Clamps a value to a range. -/
def clampTo (lo hi x : Int) : Int := if x < lo then lo else if hi < x then hi else x

/-- IntResult (R178): clamped with SAT, else the low bits. -/
def intResult (sat signed : Bool) (w : Nat) (x : Int) : Nat :=
  if sat then wrapTo w (clampTo (loOf signed w) (hiOf signed w) x) else wrapTo w x

/-- Element `j` of a register value. -/
def elemAt (ty : Ty) (v : BitVec 64) (j : Nat) : Nat := bits v.toNat (ty.elemBits * j) ty.elemBits

/-- A register value from its elements, element 0 lowest. -/
def packElems (ty : Ty) (f : Nat → Nat) : BitVec 64 :=
  BitVec.ofNat 64 ((List.range ty.elems).foldl (fun n j => n + f j % 2 ^ ty.elemBits * 2 ^ (ty.elemBits * j)) 0)

/-- An operation on each element of a type, on exact values (R171, R178). -/
def mapInt (ty : Ty) (sat : Bool) (f : Int → Int → Int) (a b : BitVec 64) : BitVec 64 :=
  packElems ty (fun j => intResult sat ty.isSigned ty.elemBits
    (f (elemVal ty.isSigned ty.elemBits (elemAt ty a j)) (elemVal ty.isSigned ty.elemBits (elemAt ty b j))))

/-- The exact value of an operand of a plain integer type. -/
def toInt (ty : Ty) (v : BitVec 64) : Int := elemVal ty.isSigned ty.elemBits (v.toNat % 2 ^ ty.elemBits)

/-! ### Reading -/

/-- Source A of a lane in the width of the TYPE. -/
def srcA (c : Iss) (l : Nat) : BitVec 64 := readOperand c.g c.x .ty l c.x.a
/-- Source B of a lane. -/
def srcB (c : Iss) (l : Nat) : BitVec 64 := readOperand c.g c.x .ty l c.x.b
/-- Source C of a lane. -/
def srcC (c : Iss) (l : Nat) : BitVec 64 := readOperand c.g c.x .ty l c.x.c
/-- The old value of D in a lane. -/
def oldD (c : Iss) (l : Nat) : BitVec 64 := readOperand c.g c.x .ty l c.x.d
/-- The lane that stands for a copy where an instruction is uniform. -/
def laneOfCopy (g : Group) (copy : Nat) : Nat := if copy = 1 then g.width else 0

/-! ### Writing -/

/-- The lanes of a copy among a mask. -/
def lanesOfCopy (g : Group) (copy : Nat) (m : BitVec 64) : List Nat :=
  (lanesOf m).filter (fun l => copyOf g l == copy)

/-- Writes a vector destination of one or two registers in lanes. -/
def putLanes (g : Group) (r : Nat) (two : Bool) (ls : List Nat) (f : Nat → BitVec 64) : Group :=
  markFull (ls.foldl (fun g l => writeV g r two l (f l)) g) r (if two then 2 else 1)

/-- Writes a predicate in lanes; p15 is no destination. -/
def putPreds (g : Group) (i : Nat) (ls : List Nat) (f : Nat → Bool) : Group :=
  ls.foldl (fun g l => pset g l i (f l)) g

/-- What a scalar destination receives of a result in the width of D: 64 bits whole; 32 bits sign-extended for i
types and zero-extended for others (R171). -/
def scalarResult (x : Enc) (w : Wd) (v : BitVec 64) : BitVec 64 :=
  if (x.span w).1 = 2 then v
  else if x.ty.isSigned then (v.extractLsb' 0 32).signExtend 64 else (v.extractLsb' 0 32).setWidth 64

/-- Writes a uniform result to a scalar in each copy. -/
def putScalar (g : Group) (j : Nat) (f : Nat → W64) : Group := (copiesOf g).foldl (fun g k => srset g k j (f k)) g

/-- The group with D written: each active lane's value, or each copy's for a scalar destination (R170, R175). -/
def putD (c : Iss) (w : Wd) (f : Nat → BitVec 64) (g : Group) : Group :=
  match c.x.d with
  | .v i => putLanes g i.toNat ((c.x.span w).1 = 2) (lanesOf c.all) f
  | .s i => putScalar g i.toNat (fun k => scalarResult c.x w (f (laneOfCopy g k)))
  | _ => g

/-- An instruction whose whole effect is to write D, lane by lane or uniformly. -/
def writeD (w : Wd) (f : Iss → Nat → BitVec 64) (c : Iss) (s : State) : State :=
  advance (onGroup s c (putD c w (f c))) c

/-- The combine operation of a comparison with p[c] (Table 11.2). -/
def combine (bop : Nat) (r p : Bool) : Bool :=
  match bop with
  | 0 => r && p
  | 1 => r || p
  | _ => xor r p

/-- The group with predicate D written in the active lanes. -/
def putPredD (c : Iss) (f : Nat → Bool) (g : Group) : Group :=
  match c.x.d with
  | .p i => putPreds g i.toNat (lanesOf c.all) f
  | _ => g

/-- The group with predicate E written in the active lanes, where E names one. -/
def putPredE (c : Iss) (f : Nat → Bool) (g : Group) : Group :=
  match c.x.e with
  | .p i => putPreds g i.toNat (lanesOf c.all) f
  | _ => g

/-- A fresh free value (log entry 2). -/
def draw (s : State) : BitVec 64 × State := (Config.freeValue s.draws, { s with draws := s.draws + 1 })

/-- A predicate's value that all lanes of the split of a copy share; none where they differ. -/
def sharedPred (c : Iss) (copy : Nat) (y : Operand) : Option Bool :=
  match (lanesOfCopy c.g copy c.all).map (fun l => predOperand c.g l y) with
  | [] => none
  | b :: bs => if bs.all (· == b) then some b else none

end Sys2Proof.Machine
end

