-- ==== Sys2Proof/Machine/Real.lean ====
section
/-!
DEFINITION. Floating-point values: formats (R75 to R77), exact arithmetic on dyadic numbers, and the one
rounding that delivers a result (R80 to R82, R85, R89).
-/
namespace Sys2Proof.Machine

/-- A floating-point format (Table 5.1). `hasInf` is false for E4M3 alone. -/
structure Fmt where
  ebits : Nat
  fbits : Nat
  bias : Nat
  hasInf : Bool := true
  deriving DecidableEq, Repr

/-- The format of a type's elements (Table 5.1). -/
def fmtOf : Ty → Fmt
  | .f64 => { ebits := 11, fbits := 52, bias := 1023 }
  | .f16x2 => { ebits := 5, fbits := 10, bias := 15 }
  | .bf16x2 => { ebits := 8, fbits := 7, bias := 127 }
  | .e4m3x4 => { ebits := 4, fbits := 3, bias := 7, hasInf := false }
  | .e5m2x4 => { ebits := 5, fbits := 2, bias := 15 }
  | _ => { ebits := 8, fbits := 23, bias := 127 }

/-- A value of a format: a NaN, signalling or not; an infinity; or (−1)^neg × m × 2^e. -/
inductive Fv where
  | nan (sig : Bool)
  | inf (neg : Bool)
  | fin (neg : Bool) (m : Nat) (e : Int)
  deriving DecidableEq, Repr

/-- The bits of a sign, a biased exponent and a fraction. -/
def packFloat (f : Fmt) (neg : Bool) (e frac : Nat) : Nat :=
  neg.toNat * 2 ^ (f.ebits + f.fbits) + e * 2 ^ f.fbits + frac

/-- The default NaN (R77). -/
def defaultNan (f : Fmt) : Nat :=
  if f.hasInf then packFloat f false (2 ^ f.ebits - 1) (2 ^ (f.fbits - 1))
  else packFloat f false (2 ^ f.ebits - 1) (2 ^ f.fbits - 1)

/-- An infinity. -/
def infBits (f : Fmt) (neg : Bool) : Nat := packFloat f neg (2 ^ f.ebits - 1) 0

/-- The largest finite magnitude (Table 5.2). -/
def maxBits (f : Fmt) (neg : Bool) : Nat :=
  if f.hasInf then packFloat f neg (2 ^ f.ebits - 2) (2 ^ f.fbits - 1)
  else packFloat f neg (2 ^ f.ebits - 1) (2 ^ f.fbits - 2)

/-- The value of an encoding (R75, R77). -/
def decodeFloat (f : Fmt) (n : Nat) : Fv :=
  let neg := bits n (f.ebits + f.fbits) 1 == 1
  let e := bits n f.fbits f.ebits
  let frac := bits n 0 f.fbits
  if e = 2 ^ f.ebits - 1 then
    if f.hasInf then if frac = 0 then .inf neg else .nan (bits frac (f.fbits - 1) 1 == 0)
    else if frac = 2 ^ f.fbits - 1 then .nan false
    else .fin neg (2 ^ f.fbits + frac) ((e : Int) - f.bias - f.fbits)
  else if e = 0 then .fin neg frac (1 - (f.bias : Int) - f.fbits)
  else .fin neg (2 ^ f.fbits + frac) ((e : Int) - f.bias - f.fbits)

/-- An encoding is a subnormal number. -/
def isSubnormal (f : Fmt) (n : Nat) : Bool := bits n f.fbits f.ebits == 0 && bits n 0 f.fbits != 0

/-- A subnormal operand read as a zero of its sign (R82). -/
def flushOperand (f : Fmt) (n : Nat) : Nat :=
  if isSubnormal f n then packFloat f (bits n (f.ebits + f.fbits) 1 == 1) 0 0 else n

/-! ### Exact results -/

/-- An exact result before rounding: a NaN that raises IV or not; an infinity, with DZ or not; or a number
(−1)^neg × m × 2^e. A number that is not dyadic carries a last bit of 1 below all bits that rounding reads. -/
inductive Ex where
  | nan (iv : Bool)
  | inf (neg dz : Bool)
  | num (neg : Bool) (m : Nat) (e : Int)
  deriving DecidableEq, Repr

/-- A signalling NaN. -/
def Fv.isSig : Fv → Bool
  | .nan s => s
  | _ => false
/-- A NaN. -/
def Fv.isNan : Fv → Bool
  | .nan _ => true
  | _ => false
/-- The value negated. -/
def Fv.negate : Fv → Fv
  | .nan s => .nan s
  | .inf n => .inf (!n)
  | .fin n m e => .fin (!n) m e

/-- The exact sum of two numbers; a zero sum takes its sign from R89. -/
def sumExact (rnd : Nat) (n1 : Bool) (m1 : Nat) (e1 : Int) (n2 : Bool) (m2 : Nat) (e2 : Int) : Ex :=
  if m1 = 0 && m2 = 0 then .num (if n1 == n2 then n1 else rnd == 3) 0 0
  else
    let e := if e1 < e2 then e1 else e2
    let a : Int := (if n1 then -1 else 1) * (m1 * 2 ^ (e1 - e).toNat : Nat)
    let b : Int := (if n2 then -1 else 1) * (m2 * 2 ^ (e2 - e).toNat : Nat)
    if a + b = 0 then .num (rnd == 3) 0 0 else .num (a + b < 0) (a + b).natAbs e

/-- x + y (R85, R89). -/
def exAdd (rnd : Nat) : Fv → Fv → Ex
  | .fin n1 m1 e1, .fin n2 m2 e2 => sumExact rnd n1 m1 e1 n2 m2 e2
  | .inf n1, .inf n2 => if n1 == n2 then .inf n1 false else .nan true
  | .nan s, y => .nan (s || y.isSig)
  | x, .nan s => .nan (s || x.isSig)
  | .inf n, _ => .inf n false
  | _, .inf n => .inf n false

/-- x × y (R85, R89). -/
def exMul : Fv → Fv → Ex
  | .fin n1 m1 e1, .fin n2 m2 e2 => .num (n1 != n2) (m1 * m2) (e1 + e2)
  | .nan s, y => .nan (s || y.isSig)
  | x, .nan s => .nan (s || x.isSig)
  | .inf n1, .inf n2 => .inf (n1 != n2) false
  | .inf n1, .fin n2 m _ => if m = 0 then .nan true else .inf (n1 != n2) false
  | .fin n1 m _, .inf n2 => if m = 0 then .nan true else .inf (n1 != n2) false

/-- x × y + z, exact before the one rounding; 0 × ∞ raises IV even with a quiet NaN z (R195). -/
def exFma (rnd : Nat) (x y z : Fv) : Ex :=
  match exMul x y with
  | .nan iv => .nan (iv || z.isSig)
  | .inf n _ =>
    match z with
    | .nan s => .nan s
    | .inf n2 => if n == n2 then .inf n false else .nan true
    | .fin _ _ _ => .inf n false
  | .num n m e =>
    match z with
    | .nan s => .nan s
    | .inf n2 => .inf n2 false
    | .fin n2 m2 e2 => sumExact rnd n m e n2 m2 e2

/-- A quotient of numbers with `p` bits or more, and its last bit set where it is not exact. -/
def quotient (p : Nat) (neg : Bool) (m1 : Nat) (e1 : Int) (m2 : Nat) (e2 : Int) : Ex :=
  let k := p + 4 + Nat.log2 m2 - Nat.log2 m1
  let n := m1 * 2 ^ k
  .num neg (2 * (n / m2) + (if n % m2 = 0 then 0 else 1)) (e1 - e2 - k - 1)

/-- x / y (R85, R89). -/
def exDiv (p : Nat) : Fv → Fv → Ex
  | .nan s, y => .nan (s || y.isSig)
  | x, .nan s => .nan (s || x.isSig)
  | .inf _, .inf _ => .nan true
  | .inf n1, .fin n2 _ _ => .inf (n1 != n2) false
  | .fin n1 _ _, .inf n2 => .num (n1 != n2) 0 0
  | .fin n1 m1 e1, .fin n2 m2 e2 =>
    if m2 = 0 then if m1 = 0 then .nan true else .inf (n1 != n2) true
    else if m1 = 0 then .num (n1 != n2) 0 0
    else quotient p (n1 != n2) m1 e1 m2 e2

/-- The integer square root, one bit at a time. -/
def isqrtFrom (n : Nat) : Nat → Nat → Nat
  | 0, r => r
  | b + 1, r => isqrtFrom n b (if (r + 2 ^ b) * (r + 2 ^ b) ≤ n then r + 2 ^ b else r)

/-- ⌊√n⌋. -/
def isqrt (n : Nat) : Nat := isqrtFrom n (Nat.log2 n / 2 + 1) 0

/-- The square root (R85, R89). -/
def exSqrt (p : Nat) : Fv → Ex
  | .nan s => .nan s
  | .inf n => if n then .nan true else .inf false false
  | .fin n m e =>
    if m = 0 then .num n 0 0
    else if n then .nan true
    else
      let k := 2 * (p + 4) + (e % 2).toNat
      let v := m * 2 ^ k
      let r := isqrt v
      .num false (2 * r + (if r * r = v then 0 else 1)) ((e - k) / 2 - 1)

/-! ### Rounding -/

/-- An integer part rounded away from or toward zero: `m / 2^k` in a mode, and whether it is inexact (R80). -/
def roundShift (rnd : Nat) (neg : Bool) (m k : Nat) : Nat × Bool :=
  if m = 0 then (0, false)
  else if Nat.log2 m + 1 < k then (if (rnd == 2 && !neg) || (rnd == 3 && neg) then 1 else 0, true)
  else
    let q := m / 2 ^ k
    let r := m % 2 ^ k
    let up := match rnd with
      | 0 => 2 ^ k < 2 * r || (2 ^ k == 2 * r && q % 2 == 1)
      | 1 => false
      | 2 => r != 0 && !neg
      | _ => r != 0 && neg
    (if up then q + 1 else q, r != 0)

/-- m × 2^e rounded to a multiple of 2^ulp. -/
def roundAt (rnd : Nat) (neg : Bool) (m : Nat) (e ulp : Int) : Nat × Bool :=
  if ulp ≤ e then (m * 2 ^ (e - ulp).toNat, false) else roundShift rnd neg m (ulp - e).toNat

/-- Exception bits of %fpflags (Table 5.6). -/
def fIV : BitVec 5 := 1
def fDZ : BitVec 5 := 2
def fOF : BitVec 5 := 4
def fUF : BitVec 5 := 8
def fNX : BitVec 5 := 16

/-- A delivered result: its bits and the exceptions it raises. -/
structure FRes where
  val : Nat
  flags : BitVec 5
  deriving DecidableEq, Repr

/-- An overflowed result (Table 5.5). -/
def overflowed (f : Fmt) (rnd : Nat) (sat neg : Bool) : Nat :=
  let big := if f.hasInf then infBits f neg else defaultNan f
  if sat then maxBits f neg
  else
    match rnd with
    | 0 => big
    | 1 => maxBits f neg
    | 2 => if neg then maxBits f neg else big
    | _ => if neg then big else maxBits f neg

/-- Rounds an exact number once and delivers it: overflow by R81, underflow gradual or replaced by a zero
(`flush`, R82 and R83), flags by R85. -/
def deliverNum (f : Fmt) (rnd : Nat) (sat flush neg : Bool) (m : Nat) (e : Int) : FRes :=
  if m = 0 then { val := packFloat f neg 0 0, flags := 0 }
  else
    let p := f.fbits + 1
    let ulp : Int := e + Nat.log2 m - f.fbits
    let (q, nx) := roundAt rnd neg m e ulp
    let carry := q == 2 ^ p
    let top : Int := if carry then ulp + p else ulp + f.fbits
    let mant := if carry then 2 ^ f.fbits else q
    let emin : Int := 1 - (f.bias : Int)
    let emax : Int := if f.hasInf then f.bias else (2 ^ f.ebits - 1 : Nat) - (f.bias : Int)
    let maxMant := if f.hasInf then 2 ^ p - 1 else 2 ^ p - 2
    if emax < top || (top == emax && maxMant < mant) then
      { val := overflowed f rnd sat neg, flags := fOF ||| fNX }
    else if top < emin then
      if flush then { val := packFloat f neg 0 0, flags := fUF ||| fNX }
      else
        let (q', nx') := roundAt rnd neg m e (emin - f.fbits)
        { val := packFloat f neg 0 q', flags := if nx' then fUF ||| fNX else 0 }
    else
      { val := packFloat f neg (top + f.bias).toNat (mant - 2 ^ f.fbits), flags := if nx then fNX else 0 }

/-- Delivers an exact result in a format (R77, R80 to R82, R85). -/
def deliver (f : Fmt) (rnd : Nat) (sat flush : Bool) : Ex → FRes
  | .nan iv => { val := defaultNan f, flags := if iv then fIV else 0 }
  | .inf neg dz =>
    if sat then { val := maxBits f neg, flags := fOF ||| fNX }
    else if f.hasInf then { val := infBits f neg, flags := if dz then fDZ else 0 }
    else { val := defaultNan f, flags := fOF ||| fNX }
  | .num neg m e => deliverNum f rnd sat flush neg m e

/-! ### Comparison, minimum and maximum (R90, R198) -/

/-- x < y for values that are no NaN; −0 and +0 compare as equal. -/
def fvLt : Fv → Fv → Bool
  | .inf n, .inf n2 => n && !n2
  | .inf n, .fin _ _ _ => n
  | .fin _ _ _, .inf n => !n
  | .fin n1 m1 e1, .fin n2 m2 e2 =>
    let e := if e1 < e2 then e1 else e2
    let a : Int := (if n1 then -1 else 1) * (m1 * 2 ^ (e1 - e).toNat : Nat)
    let b : Int := (if n2 then -1 else 1) * (m2 * 2 ^ (e2 - e).toNat : Nat)
    a < b
  | _, _ => false

/-- x = y for values that are no NaN; −0 equals +0. -/
def fvEq (x y : Fv) : Bool := !x.isNan && !y.isNan && !fvLt x y && !fvLt y x

/-- The sign of a value that is no NaN. -/
def Fv.neg : Fv → Bool
  | .nan _ => false
  | .inf n => n
  | .fin n _ _ => n

/-- The lesser (or greater) of two encodings: −0 below +0, one NaN gives the other operand, two the default NaN;
a signalling NaN sets IV (R90). -/
def minMax (f : Fmt) (max : Bool) (a b : Nat) : FRes :=
  let x := decodeFloat f a
  let y := decodeFloat f b
  let iv := if x.isSig || y.isSig then fIV else 0
  if x.isNan && y.isNan then { val := defaultNan f, flags := iv }
  else if x.isNan then { val := b, flags := iv }
  else if y.isNan then { val := a, flags := iv }
  else
    let less := fvLt x y || (fvEq x y && x.neg && !y.neg)
    { val := if max then (if less then b else a) else (if less then a else b), flags := iv }

/-- A condition of Table 11.4, and whether it raises IV. -/
def floatCond (cc : Nat) (x y : Fv) : Bool × Bool :=
  let un := x.isNan || y.isNan
  let sig := x.isSig || y.isSig
  let rel (k : Nat) : Bool :=
    match k with
    | 0 => fvEq x y
    | 1 => !fvEq x y
    | 2 => fvLt x y
    | 3 => !fvLt y x
    | 4 => fvLt y x
    | _ => !fvLt x y
  if cc < 6 then (!un && rel cc, if cc < 2 then sig else un)
  else if cc = 6 then (!un, sig)
  else if cc = 7 then (un, sig)
  else (un || rel (cc - 8), sig)

/-- The class of an encoding, as the bit number of CLASS (R199). -/
def classOf (f : Fmt) (n : Nat) : Nat :=
  match decodeFloat f n with
  | .nan s => if s then 0 else 1
  | .inf neg => if neg then 2 else 9
  | .fin neg m _ =>
    if m = 0 then if neg then 5 else 6
    else if isSubnormal f n then if neg then 4 else 7
    else if neg then 3 else 8

/-! ### Rounding to integers and conversions (R83, R196) -/

/-- A value rounded to an integral value of its format (R196). -/
def roundIntegral (f : Fmt) (rnd : Nat) (n : Nat) : FRes :=
  match decodeFloat f n with
  | .nan s => { val := defaultNan f, flags := if s then fIV else 0 }
  | .inf _ => { val := n, flags := 0 }
  | .fin neg m e =>
    if 0 ≤ e then { val := n, flags := 0 }
    else
      let (q, _) := roundAt rnd neg m e 0
      { val := (deliverNum f 0 false false neg q 0).val, flags := 0 }

/-- A conversion to an integer type: out of range gives the nearest limit and IV, a NaN 0 and IV (R83). -/
def floatToInt (signed : Bool) (w rnd : Nat) : Fv → FRes
  | .nan _ => { val := 0, flags := fIV }
  | .inf neg => { val := wrapTo w (if neg then loOf signed w else hiOf signed w), flags := fIV }
  | .fin neg m e =>
    let lim : Int := 2 * w
    if m ≠ 0 && lim < e + Nat.log2 m then
      { val := wrapTo w (if neg then loOf signed w else hiOf signed w), flags := fIV }
    else
      let (q, nx) := roundAt rnd neg m e 0
      let v : Int := if neg then -(q : Int) else q
      if v < loOf signed w then { val := wrapTo w (loOf signed w), flags := fIV }
      else if hiOf signed w < v then { val := wrapTo w (hiOf signed w), flags := fIV }
      else { val := wrapTo w v, flags := if nx then fNX else 0 }

/-- An exact value as an operand of a conversion. -/
def Fv.toEx : Fv → Ex
  | .nan s => .nan s
  | .inf n => .inf n false
  | .fin n m e => .num n m e

/-- Converts one value between types: widening exact, narrowing rounded once and flushed by R83. -/
def convertVal (src dst : Ty) (rnd : Nat) (sat : Bool) (n : Nat) : FRes :=
  let flush := dst.isNarrowFloat && !widening src dst
  if src.isInt then
    let v := elemVal src.isSigned src.elemBits n
    deliver (fmtOf dst) rnd sat flush (.num (v < 0) v.natAbs 0)
  else if dst.isInt then floatToInt dst.isSigned dst.elemBits rnd (decodeFloat (fmtOf src) n)
  else deliver (fmtOf dst) rnd sat flush (decodeFloat (fmtOf src) n).toEx

end Sys2Proof.Machine
end

