-- ==== Sys2Proof/Machine/Flags.lean ====
section
/-!
DEFINITION. Floating-point exceptions of an instruction (R87, R173, R175): recorded in %fpflags of each copy, or
FP_TRAP with no other effect; and the long-latency producers that record them later.
-/
namespace Sys2Proof.Machine

/-- The copies of a lined group differ at a compare point (R335). -/
def liningMismatch (s : State) (c : Iss) (lanes : BitVec 64) : State :=
  raiseIss s c evLiningMismatch lanes (mcInfo 0 4)

/-- Exceptions raised in the lanes of a copy. -/
def flagsIn (g : Group) (copy : Nat) (m : BitVec 64) (f : Nat → BitVec 5) : BitVec 5 :=
  (lanesOfCopy g copy m).foldl (fun v l => v ||| f l) 0

/-- The lanes of a copy that raise an enabled exception, numbered within the copy. -/
def trapLanes (g : Group) (copy : Nat) (m : BitVec 64) (f : Nat → BitVec 5) : BitVec 64 :=
  maskOf (((lanesOfCopy g copy m).filter (fun l => f l &&& g.fpctl ≠ 0)).map (laneIn g))

/-- What R87 says of an instruction whose lanes raise `f`: record the exceptions and go on, take FP_TRAP with the
lanes and the enabled exceptions, or, where one copy alone traps, a lining mismatch. -/
inductive FpOutcome where
  | record
  | trap (lanes : BitVec 64) (enabled : BitVec 5)
  | mismatch (lanes : BitVec 64)
  deriving DecidableEq, Repr

/-- The outcome of an instruction's exceptions (R87, R175). -/
def fpOutcome (g : Group) (m : BitVec 64) (f : Nat → BitVec 5) : FpOutcome :=
  let t0 := trapLanes g 0 m f
  let t1 := trapLanes g 1 m f
  if g.lined && ((t0 = 0) != (t1 = 0)) then .mismatch (t0 ||| t1)
  else if t0 = 0 then .record
  else .trap t0 ((lanesOfCopy g 0 m).foldl (fun v l => v ||| (f l &&& g.fpctl)) 0)

/-- ORs the exceptions of each copy into its %fpflags. -/
def recordFlags (m : BitVec 64) (f : Nat → BitVec 5) (g : Group) : Group :=
  (copiesOf g).foldl (fun h k => orFlags h k (flagsIn g k m f)) g

/-- The effect of an instruction whose lanes raise `f` and which otherwise does `write` (R87). -/
def fpFinish (c : Iss) (f : Nat → BitVec 5) (write : Group → Group) (s : State) : State :=
  match fpOutcome c.g c.all f with
  | .record => advance (onGroup s c (fun g => recordFlags c.all f (write g))) c
  | .trap lanes en => raiseIss s c evFpTrap lanes (en.setWidth 64)
  | .mismatch lanes => liningMismatch s c lanes

/-! ### Source modifiers and elements (R172, R79) -/

/-- An encoding with the modifiers of source position `pos` applied: ABS clears the sign, NEG inverts it. -/
def modified (x : Enc) (pos : Nat) (f : Fmt) (n : Nat) : Nat :=
  let w := f.ebits + f.fbits
  let n1 := if x.bit (3 + pos) then n % 2 ^ w else n
  if x.bit pos then (if bits n1 w 1 = 1 then n1 - 2 ^ w else n1 + 2 ^ w) else n1

/-- Element `j` of source A, B or C (0, 1, 2) in a lane, with its modifiers, and flushed for the packed 16-bit
formats (R82). -/
def fpSource (c : Iss) (pos l j : Nat) : Nat :=
  let v := match pos with
    | 0 => srcA c l
    | 1 => srcB c l
    | _ => srcC c l
  let f := fmtOf c.x.ty
  let n := modified c.x pos f (elemAt c.x.ty v j)
  if c.x.ty.isNarrowFloat then flushOperand f n else n

/-- The value of element `j` of a source. -/
def fpArg (c : Iss) (pos l j : Nat) : Fv := decodeFloat (fmtOf c.x.ty) (fpSource c pos l j)

/-- The result register of a lane from its elements, and the exceptions of all of them. -/
def packResults (ty : Ty) (f : Nat → FRes) : BitVec 64 × BitVec 5 :=
  (packElems ty (fun j => (f j).val), (List.range ty.elems).foldl (fun v j => v ||| (f j).flags) 0)

/-- An instruction that computes D lane by lane with exceptions (R87). -/
def fpWriteD (w : Wd) (f : Iss → Nat → BitVec 64 × BitVec 5) (c : Iss) (s : State) : State :=
  fpFinish c (fun l => (f c l).2) (putD c w (fun l => (f c l).1)) s

/-! ### Long-latency producers (R153, R173) -/

/-- A fresh handle for a producer, a store, a copy or a request. -/
def fresh (s : State) : Nat × State := (s.nextOp, { s with nextOp := s.nextOp + 1 })

/-- The register writes of a result of one or two registers in a lane. -/
def regWrites (r : Nat) (two : Bool) (l : Nat) (v : BitVec 64) : List RegWrite :=
  { reg := r, lane := l, val := v.extractLsb' 0 32 } ::
    (if two then [{ reg := r + 1, lane := l, val := v.extractLsb' 32 32 }] else [])

/-- An instruction of the iterative unit whose result arrives later: the destination goes empty; where an enabled
exception is among those it can raise (`can`), the split holds until its exceptions are known (R173). -/
def fpProduce (can : BitVec 5) (f : Iss → Nat → BitVec 64 × BitVec 5) (c : Iss) (s : State) : State :=
  match c.sp.wait with
  | .trapHold _ => s
  | _ =>
    match c.x.d with
    | .v i =>
      let r := i.toNat
      let two := (c.x.span .ty).1 = 2
      let (id, s1) := fresh s
      let ls := lanesOf c.all
      let fl (l : Nat) : BitVec 5 := (f c l).2
      let trap := match fpOutcome c.g c.all fl with
        | .record => none
        | .trap lanes en => some (lanes, en)
        | .mismatch lanes => some (lanes, 0)
      let p : Producer :=
        { id, pc := c.sp.pc, split := c.j, d := r, nregs := if two then 2 else 1, size := if two then 8 else 4
          lanes := c.all, counter := none
          kind := .value (ls.flatMap (fun l => regWrites r two l (f c l).1)) (flagsIn c.g 0 c.all fl)
            (flagsIn c.g 1 c.all fl) trap }
      let s2 := onGroup s1 c (fun g => markEmpty { g with prods := g.prods ++ [p] } r p.nregs)
      if c.g.fpctl &&& can ≠ 0 then waitAs s2 c (.trapHold id) else advance s2 c
    | _ => s

end Sys2Proof.Machine
end

