-- ==== Sys2Proof/Machine/Lane.lean ====
section
/-!
DEFINITION. Random numbers, signatures and lane instructions: majors 0x26 and 0x27 (spec/11 R204 to R212,
spec/05 R99 to R103).
-/
namespace Sys2Proof.Machine

/-! ### The canonical reduction order (R99, R100) -/

/-- One combine step of two nodes, either of which may be absent. -/
def croCombine {β : Type} (op : β → β → β) : Option β → Option β → Option β
  | none, b => b
  | a, none => a
  | some a, some b => some (op a b)

/-- One level of the tree: neighbours combine, a node without a neighbour goes up as it is. -/
def croLevel {β : Type} (op : β → β → β) : List (Option β) → List (Option β)
  | a :: b :: l => croCombine op a b :: croLevel op l
  | l => l

/-- The tree, level by level. -/
def croLevels {β : Type} (op : β → β → β) : Nat → List (Option β) → Option β
  | 0, l => l.head?.getD none
  | n + 1, l =>
    match l with
    | [] => none
    | [a] => a
    | l => croLevels op n (croLevel op l)

/-- Cro of leaves, none for an absent one (R99). -/
def cro {β : Type} (op : β → β → β) (l : List (Option β)) : Option β := croLevels op l.length l

/-- A value on its way through a reduction, with the exceptions of the nodes below it. -/
abbrev Node := BitVec 64 × BitVec 5

/-- Op of Table 11.6 on the elements of two values: 0 add, 1 min, 2 max, 3 and, 4 or, 5 xor. FP16 and BF16 operands are
flushed at each node (R101). DESIGN CHOICE (log entry 88): a leaf that no Op takes, the only one present, is delivered as it
is, a subnormal unflushed and a signalling NaN without IV. -/
def reduceVal (op : Nat) (ty : Ty) (sat : Bool) (a b : BitVec 64) : BitVec 64 × BitVec 5 :=
  match op with
  | 3 => (a &&& b, 0)
  | 4 => (a ||| b, 0)
  | 5 => (a ^^^ b, 0)
  | _ =>
    if ty.isFloat then
      let f := fmtOf ty
      let rd (v : BitVec 64) (j : Nat) : Nat :=
        if ty.isNarrowFloat then flushOperand f (elemAt ty v j) else elemAt ty v j
      packResults ty (fun j =>
        if op = 0 then deliver f 0 false ty.isNarrowFloat (exAdd 0 (decodeFloat f (rd a j)) (decodeFloat f (rd b j)))
        else minMax f (op == 2) (rd a j) (rd b j))
    else
      (if op = 0 then mapInt ty sat (· + ·) a b
        else if op = 1 then mapInt ty false (fun x y => if y < x then y else x) a b
        else mapInt ty false (fun x y => if x < y then y else x) a b, 0)

/-- The operation on nodes: exceptions collect. -/
def reduceNode (op : Nat) (ty : Ty) (sat : Bool) (a b : Node) : Node :=
  let r := reduceVal op ty sat a.1 b.1
  (r.1, a.2 ||| b.2 ||| r.2)

/-- The identity that an empty prefix delivers (R212). -/
def reduceIdentity (op : Nat) (ty : Ty) : BitVec 64 :=
  let f := fmtOf ty
  if ty.isFloat then
    packElems ty (fun _ => if op = 0 then packFloat f true 0 0 else infBits f (op == 2))
  else
    match op with
    | 1 => BitVec.ofNat 64 (wrapTo ty.elemBits (hiOf ty.isSigned ty.elemBits))
    | 2 => BitVec.ofNat 64 (wrapTo ty.elemBits (loOf ty.isSigned ty.elemBits))
    | 3 => BitVec.ofNat 64 (2 ^ ty.elemBits - 1)
    | _ => 0

/-! ### Segments (R206) -/

/-- The segment size of a word: the group's width for SEG 0. -/
def segSize (c : Iss) : Nat := if c.x.bits 0 3 = 0 then c.g.width else 2 ^ c.x.bits 0 3

/-- The first lane of a lane's segment, as a lane of its own copy. -/
def segBase (c : Iss) (l : Nat) : Nat :=
  let i := laneIn c.g l
  l - i + (i - i % segSize c)

/-- The lanes of a lane's segment. -/
def segLanes (c : Iss) (l : Nat) : List Nat := (List.range (segSize c)).map (fun k => segBase c l + k)

/-! ### Major 0x26 -/

/-- Rng (R102). -/
def rngVal (ctr k : W32) : W32 :=
  let x := ctr ^^^ (k * 0x9E3779B9#32)
  let x := x ^^^ (x >>> 16)
  let x := x * 0x6B2FA3C5#32
  let x := x ^^^ (x >>> 13)
  let x := x * 0x3D4E9A17#32
  x ^^^ (x >>> 16)

/-- RNG (R204). -/
def execRng (x : Enc) (s : State) : Out :=
  issue .rng x s (writeD .ty (fun c l => (rngVal ((srcA c l).setWidth 32) ((srcB c l).setWidth 32)).setWidth 64))

/-- One bit of the CRC-64 of R103. -/
def sigBit (v : W64) : W64 := if v.getLsbD 63 then (v <<< 1) ^^^ 0x42F0E1EBA9EA3693#64 else v <<< 1

/-- Folds bytes into a signature (R103). -/
def sigFold (v : W64) (bs : List (BitVec 8)) : W64 :=
  bs.foldl (fun (v : W64) (y : BitVec 8) =>
    let w : W64 := v ^^^ ((y.setWidth 64 : W64) <<< (56 : Nat))
    (List.range 8).foldl (fun (u : W64) _ => sigBit u) w) v

/-- Folds one 16-B record: an address, then data (R103). -/
def sigRecord (v : W64) (addr data : BitVec 64) : W64 := sigFold v (leBytes 8 addr.toNat ++ leBytes 8 data.toNat)

/-- The signature of a copy after its active lanes' records, in ascending lane order (R205). -/
def sigLanes (c : Iss) (copy : Nat) (v : W64) : W64 :=
  (lanesOfCopy c.g copy c.all).foldl (fun v l =>
    sigRecord v (readOperand c.g c.x .two l c.x.a) ((srcB c l).toNat % 2 ^ c.x.ty.regBits |> BitVec.ofNat 64)) v

/-- SIGACC (R205). -/
def execSigacc (x : Enc) (s : State) : Out :=
  issue .sigacc x s (fun c s =>
    match c.x.d with
    | .s i => advance (onGroup s c (fun g => putScalar g i.toNat (fun k => sigLanes c k (srget c.g k i.toNat)))) c
    | _ => s)

/-! ### Major 0x27 -/

/-- The source lane of SHFL for a lane, where it is valid (R207): modes 0 idx, 1 sh, 2 rot, 3 xor. -/
def shflSource (c : Iss) (mode l : Nat) (b : BitVec 64) : Option Nat :=
  let n := b.toNat % 2 ^ 32
  let sn := elemVal true 32 n
  let sz := segSize c
  let base := segBase c l
  let k := l - base
  match mode with
  | 0 => some (base + n % sz)
  | 1 =>
    let j : Int := (k : Int) - sn
    if 0 ≤ j ∧ j < sz then some (base + j.toNat) else none
  | 2 => some (base + (((k : Int) - sn) % (sz : Int)).toNat)
  | _ => some (base + (k ^^^ (n % sz)))

/-- The source lane is valid and active. -/
def shflOk (c : Iss) : Option Nat → Bool
  | some j => c.all.getLsbD j
  | none => false

/-- The effect of a shuffle with a source lane for each lane (R207). -/
def shuffleBody (src : Iss → Nat → Option Nat) (c : Iss) (s : State) : State :=
  let val (l : Nat) : BitVec 64 :=
    match src c l with
    | some j => if c.all.getLsbD j then srcA c j else srcA c l
    | none => srcA c l
  advance (onGroup s c (fun g => putPredE c (fun l => shflOk c (src c l)) (putD c .ty val g))) c

/-- SHFL (R207). -/
def execShfl (x : Enc) (s : State) : Out :=
  issue .shfl x s (shuffleBody (fun c l => shflSource c (x.bits 3 2) l (srcB c l)))

/-- The source lane of BCAST: an index of the group's width or more is invalid (R208). -/
def bcastSource (c : Iss) (l : Nat) : Option Nat :=
  let n := (srcB c l).toNat % 2 ^ 32
  if c.g.width ≤ n then none else some (l - laneIn c.g l + n)

/-- BCAST (R208). -/
def execBcast (x : Enc) (s : State) : Out := issue .bcast x s (shuffleBody bcastSource)

/-- The active lanes of a lane's segment. -/
def segActive (c : Iss) (l : Nat) : List Nat := (segLanes c l).filter (fun j => c.all.getLsbD j)

/-- VOTE's truth value in a lane: 0 all, 1 any, 2 eq (R209). -/
def voteAt (c : Iss) (mode l : Nat) : Bool :=
  let ps := (segActive c l).map (fun j => predOperand c.g j c.x.a)
  match mode with
  | 0 => ps.all id
  | 1 => ps.any id
  | _ => ps.all id || ps.all (!·)

/-- The mask of lanes of a segment that meet a test, by their numbers within the copy. -/
def segMask (c : Iss) (l : Nat) (p : Nat → Bool) : BitVec 64 :=
  maskOf (((segActive c l).filter p).map (laneIn c.g))

/-- VOTE (R209). -/
def execVote (x : Enc) (s : State) : Out :=
  issue .vote x s (fun c s =>
    if x.bits 3 2 = 3 then
      writeD .two (fun c l => segMask c l (fun j => predOperand c.g j c.x.a)) c s
    else advance (onGroup s c (putPredD c (voteAt c (x.bits 3 2)))) c)

/-- MATCH (R210). -/
def execMatchLanes (x : Enc) (s : State) : Out :=
  issue .matchLanes x s (writeD .two (fun c l => segMask c l (fun j =>
    (srcA c j).toNat % 2 ^ x.ty.regBits == (srcA c l).toNat % 2 ^ x.ty.regBits)))

/-- A value each of whose NaN elements is the default NaN of its format (R77). -/
def defaultNans (ty : Ty) (v : BitVec 64) : BitVec 64 :=
  if ty.isFloat then
    let f := fmtOf ty
    packElems ty (fun j => if (decodeFloat f (elemAt ty v j)).isNan then defaultNan f else elemAt ty v j)
  else v

/-- The leaves of a lane's segment: those whose index passes a test and whose lane is active (R211, R212). -/
def segLeaves (c : Iss) (l : Nat) (p : Nat → Bool) : List (Option Node) :=
  (segLanes c l).map (fun j => if c.all.getLsbD j && p j then some (srcA c j, 0) else none)

/-- The canonical reduction of a lane's segment over the leaves that pass a test. A NaN that one leaf alone gives is the
default NaN: R77 names no reduction among the instructions that pass payloads. -/
def segReduce (c : Iss) (l : Nat) (p : Nat → Bool) : Node :=
  match cro (reduceNode (c.x.bits 3 3) c.x.ty c.x.sat) (segLeaves c l p) with
  | some n => (defaultNans c.x.ty n.1, n.2)
  | none => (reduceIdentity (c.x.bits 3 3) c.x.ty, 0)

/-- The effect of a reduction in every active lane: the exceptions of any node count for every active lane of the
copy (R211). -/
def reduceBody (f : Iss → Nat → Node) (c : Iss) (s : State) : State :=
  let all (k : Nat) : BitVec 5 := (lanesOfCopy c.g k c.all).foldl (fun v l => v ||| (f c l).2) 0
  fpFinish c (fun l => all (copyOf c.g l)) (putD c .ty (fun l => (f c l).1)) s

/-- LRED (R211). -/
def execLred (x : Enc) (s : State) : Out := issue .lred x s (reduceBody (fun c l => segReduce c l (fun _ => true)))

/-- LSCAN (R212). -/
def execLscan (x : Enc) (s : State) : Out :=
  issue .lscan x s (reduceBody (fun c l => segReduce c l (fun j => j < l || (j == l && !x.bit 6))))

end Sys2Proof.Machine
end

