-- ==== Sys2Proof/Machine/Registers.lean ====
section
/-!
DEFINITION. The management window of a partition (R418, R419; Tables 27.2 to 27.4, 19.7, 25.3): what an offset
reads as, and what a write of it does.
-/
namespace Sys2Proof.Machine

/-- Fields of a register, each a value at its lowest bit. -/
def packBits (fs : List (Nat × Nat)) : BitVec 64 := BitVec.ofNat 64 (fs.foldl (fun n f => n + f.2 * 2 ^ f.1) 0)

/-- The set numbers of a mask, ascending: the partition's clusters or half-stacks. -/
def nthOf {w : Nat} (m : BitVec w) (i : Nat) : Option Nat := (bitsOf m)[i]?

/-- The clusters of a partition that still have a reserve core (R27). -/
def reserveClusters (s : State) (p : Nat) : List Nat :=
  (bitsOf (partOf s p).clusters).filter (fun k => (clusterOf s k).reserve.isSome && !(clusterOf s k).quarantined)

/-- The hold counters of a bank, by half-stack index, channel and bank (Table 19.7). -/
def backoffBank (s : State) (p i : Nat) : Option (Nat × Nat) :=
  (nthOf (partOf s p).halfStacks (i / 512)).map (fun h => (16 * h + i / 32 % 16, i % 32))

/-- The latency bucket of an index: half-stack, channel, bucket (Table 19.7). -/
def latBucket (s : State) (p i : Nat) : Option (Nat × Nat) :=
  (nthOf (partOf s p).halfStacks (i / 256)).map (fun h => (16 * h + i / 16 % 16, i % 16))

/-- What the register at an offset reads as; none where Tables 27.2, 19.7 and 25.3 have no register. -/
def windowRead (s : State) (p off : Nat) : Option (BitVec 64) :=
  let q := partOf s p
  if off = 0x000 then some (packBits [(16, q.noAuditOk.toNat), (0, q.fraction.toNat)])
  else if off = 0x008 then some (packBits [(32, q.dropped.toNat), (0, q.selected.toNat)])
  else if off = 0x010 then some q.auditLog
  else if off = 0x018 then some (packBits [(32, q.auditRecords.toNat), (0, q.auditInput.toNat)])
  else if off = 0x020 then some (q.journalBase ||| packBits [(0, q.journalLog2.toNat)])
  else if off = 0x028 then some (packBits [(0, q.testPeriod.toNat)])
  else if off = 0x030 then some (packBits [(0, q.rhThreshold.toNat)])
  else if 0x040 ≤ off && off < 0x140 then
    (nthOf q.clusters ((off - 0x40) / 8)).map (fun k => packBits [(0, (clusterOf s k).commits % 2 ^ 32)])
  else if 0x10000 ≤ off && off < 0x40000 then
    (backoffBank s p ((off - 0x10000) / 8)).map (fun cb =>
      let b := mgetD (chanOf s cb.1).banks cb.2 {}
      packBits [(32, b.heldNs.toNat), (0, b.holds.toNat)])
  else if 0x40000 ≤ off && off < 0x80000 then
    (latBucket s p ((off - 0x40000) / 8)).map (fun cj => sget (chanOf s cj.1).lat cj.2)
  else if off = 0x80000 then some (packBits [(0, q.collTimeout.toNat)])
  else if 0x81000 ≤ off && off < 0x81800 then some (sget q.peerAcl ((off - 0x81000) / 8))
  else if 0x84000 ≤ off && off < 0x84800 then some (sget q.rdmaKey ((off - 0x84000) / 8))
  else if off = 0xC0000 then
    some (packBits [(62, q.state), (9, ((reserveClusters s p).length == 1).toNat), (8, q.testMode.toNat), (0, p)])
  else if off = 0xC0008 then some 0
  else if off = 0xC0010 then some (packBits [(32, q.sliceGroups.toNat), (0, q.clusters.toNat)])
  else if off = 0xC0018 then
    some (packBits [(32, q.ualShare.toNat), (24, q.ethShare.toNat), (0, q.halfStacks.toNat)])
  else if off = 0xC0020 then some q.tlbiVa
  else if off = 0xC0028 then some (packBits [(63, q.tlbiDone.toNat)] ||| q.tlbiCtl)
  else if off = 0xC0040 then some q.frBase
  else if off = 0xC0048 then some (packBits [(0, q.frLog2.toNat)])
  else if off = 0xC0050 then some q.frHead
  else if off = 0xC0058 then some q.frTail
  else if off = 0xC0060 then
    some (packBits [(32, s.mantle.temp % 2 ^ 8), (16, s.mantle.watts % 2 ^ 16), (0, s.mantle.mhz % 2 ^ 16)])
  else if 0xC0100 ≤ off && off < 0xC0188 then some (sget s.ready ((off - 0xC0100) / 8))
  else if 0xC1000 ≤ off && off < 0xC1800 then
    let u := queueOf s p ((off - 0xC1000) / 32)
    some (match off / 8 % 4 with | 0 => u.w0 | 1 => u.w1 | 2 => u.w2 | _ => u.w3)
  else if 0xC2000 ≤ off && off < 0xC2400 then
    let c := (off - 0xC2000) / 64
    let w := off / 8 % 8
    some (if w < 5 then sget q.ctx (8 * c + w) else 0)
  else none

/-! ### Writing -/

/-- The bits of a mask take the written value; the others keep theirs (R418). -/
def maskWrite {w : Nat} (mask old v : BitVec w) : BitVec w := (old &&& ~~~ mask) ||| (v &&& mask)

/-- The writable bits of a context entry's word (Table 27.4). -/
def ctxMask (w : Nat) : BitVec 64 :=
  if w = 0 then 0x000FFFFFFFFFE001
  else if w = 2 then 0xFFFFFFFF
  else if w < 5 then 0xFFFFFFFFFFFFFFFF
  else 0

/-- The writable bits of a key's word (Table 25.3). -/
def keyMask (w : Nat) : BitVec 64 :=
  match w with
  | 2 => 0x800000FE03FFFFFF
  | 3 => 0xFFFFFF
  | _ => 0xFFFFFFFFFFFFFFFF

/-- A write of a register that has no step of its own (R418); reserved fields and read-only registers keep their
values. -/
def writeRegister (s : State) (p off : Nat) (v : BitVec 64) : State :=
  let f (g : Partition → Partition) : State := modPart s p g
  if off = 0x000 then f (fun q => { q with noAuditOk := v.getLsbD 16, fraction := v.extractLsb' 0 16 })
  else if off = 0x010 then f (fun q => { q with auditLog := v &&& ~~~ 0xFFF#64 })
  else if off = 0x018 then f (fun q => { q with auditRecords := v.extractLsb' 32 32, auditInput := v.extractLsb' 0 32 })
  else if off = 0x020 then f (fun q => { q with journalBase := v &&& ~~~ 0xFFF#64, journalLog2 := v.extractLsb' 0 5 })
  else if off = 0x028 then f (fun q => { q with testPeriod := v.extractLsb' 0 32 })
  else if off = 0x030 then f (fun q => { q with rhThreshold := v.extractLsb' 0 16 })
  else if off = 0x80000 then f (fun q => { q with collTimeout := v.extractLsb' 0 32 })
  else if 0x81000 ≤ off && off < 0x81800 then
    f (fun q => { q with peerAcl := sput q.peerAcl ((off - 0x81000) / 8) (v &&& 0x80000000FBFFE3FF#64) })
  else if 0x84000 ≤ off && off < 0x84800 then
    let i := (off - 0x84000) / 8
    f (fun q => { q with rdmaKey := sput q.rdmaKey i (v &&& keyMask (i % 4)) })
  else if off = 0xC0020 then f (fun q => { q with tlbiVa := v &&& ~~~ 0xFFFF#64 })
  else if off = 0xC0048 then f (fun q => { q with frLog2 := v.extractLsb' 0 5 })
  else if 0xC2000 ≤ off && off < 0xC2400 then
    let c := (off - 0xC2000) / 64
    let w := off / 8 % 8
    if w < 5 then f (fun q => { q with ctx := sput q.ctx (8 * c + w) (v &&& ctxMask w) }) else s
  else s

/-- A write of a queue descriptor's word (R422): ENABLE alone changes while ENABLE is 1. -/
def writeQueueDescriptor (s : State) (p q word : Nat) (v : BitVec 64) : State :=
  modQueue s p q (fun u =>
    let m1 : BitVec 64 := 0x80000000000F031F
    if word = 1 then
      { u with w1 := if queueEnabled u then maskWrite (1#64 <<< 63) u.w1 v else v &&& m1 }
    else if queueEnabled u then u
    else
      match word with
      | 0 => { u with w0 := v }
      | 2 => { u with w2 := v }
      | 3 => { u with w3 := v }
      | _ => u)

/-- The bits of tlbi_ctl besides DONE (Table 27.2). -/
def tlbiMask : BitVec 64 := 0x0000FFFFFFFF001F

/-- A virtual page range of a context, or of every context (R420): first byte, bytes (0: all of it), context. -/
structure TlbiRange where
  lo : Nat
  len : Nat
  ctx : Option Nat
  deriving DecidableEq, Repr

/-- The range that tlbi_va and tlbi_ctl name. -/
def tlbiRange (q : Partition) (ctl : BitVec 64) : TlbiRange :=
  { lo := q.tlbiVa.toNat, len := 2 ^ 16 * bits ctl.toNat 16 32
    ctx := if ctl.getLsbD 4 then none else some (bits ctl.toNat 0 4) }

/-- `n` bytes at an address of a context lie in a range, in part or in whole. -/
def inRange (r : TlbiRange) (ctx lo n : Nat) : Bool :=
  (match r.ctx with | some c => c == ctx | none => true) && (r.len = 0 || (lo < r.lo + r.len && r.lo < lo + n))

/-- A cached translation lies in a range. -/
def tlbInRange (r : TlbiRange) (p : Nat) (e : TlbEntry) : Bool :=
  e.part == p && inRange r e.ctx (e.vpn * 2 ^ (16 + 10 * e.level)) (2 ^ (16 + 10 * e.level))

/-- The range of the invalidation that is not done: tlbi_va as it was when tlbi_ctl was written (R420). -/
def tlbiPending (q : Partition) : TlbiRange := { tlbiRange q q.tlbiCtl with lo := q.tlbiLo.toNat }

/-- DONE is cleared, and no TLB keeps a translation of the range (R420, R112). -/
def startTlbi (s : State) (p : Nat) (ctl : BitVec 64) : State :=
  let r := tlbiRange (partOf s p) ctl
  let drop (l : List TlbEntry) : List TlbEntry := l.filter (fun e => !tlbInRange r p e)
  let s1 := modPart s p (fun q => { q with tlbiCtl := ctl &&& tlbiMask, tlbiDone := false, tlbiLo := q.tlbiVa })
  { s1 with
    cores := s1.cores.map (fun (e : Nat × PCore) => (e.1, { e.2 with tlb := drop e.2.tlb }))
    clusters := s1.clusters.map (fun (e : Nat × Cluster) => (e.1, { e.2 with tlb := drop e.2.tlb })) }

/-- Accesses of the partition in contexts of a range have not been performed at their homes, or a region that is open or
commits holds a line stored through it (R112). A write of an engine of the package that is on its way to a peer counts
for every range (DESIGN CHOICE, log entry 48). -/
def tlbiBlocked (s : State) (p : Nat) (r : TlbiRange) : Bool :=
  let ctxHit (c : Nat) : Bool := match r.ctx with | some k => k == c | none => true
  let groupHit (gid : Nat) : Bool :=
    match mget s.groups gid with
    | some g => g.part == p && ctxHit g.ctx
    | none => false
  s.sliceQ.any (fun q => groupHit q.gid && inRange r (r.ctx.getD 0) q.va.toNat 256) ||
  s.ual.any (fun q => (q.kind == 1 && q.gid == 0 && q.pc == 0) || q.part == p && ctxHit q.ctx && inRange r (r.ctx.getD 0) q.va.toNat 128) ||
  s.groups.any (fun e => e.2.part == p && (e.2.region.st == .opened || e.2.region.st == .committing) && e.2.region.held.any (fun h =>
    h.2.pages.any (fun v => inRange r e.2.ctx (2 ^ 16 * v) (2 ^ 16))))

/-- A write of the fault-record queue's head or base frees the records that wait (R421). -/
def writeFrHead (s : State) (p : Nat) (v : BitVec 64) : State :=
  let s1 := modPart s p (fun q => { q with frHead := v })
  drainRecords s1 p (partOf s1 p).frWaiting.length
/-- A write of fr_base (R421). -/
def writeFrBase (s : State) (p : Nat) (v : BitVec 64) : State :=
  let s1 := modPart s p (fun q => { q with frBase := v })
  drainRecords s1 p (partOf s1 p).frWaiting.length

/-- A write of 0 clears a counter register; any other value is ignored (R350). -/
def clearCounter (s : State) (p off : Nat) (v : BitVec 64) : State :=
  if v ≠ 0 then s
  else if off = 0x008 then modPart s p (fun q => { q with dropped := 0, selected := 0 })
  else if 0x10000 ≤ off && off < 0x40000 then
    match backoffBank s p ((off - 0x10000) / 8) with
    | some (c, b) => modChan s c (fun ch => { ch with
        banks := mmod ch.banks b (fun k => { k with holds := 0, heldNs := 0 }) })
    | none => s
  else if 0x40000 ≤ off && off < 0x80000 then
    match latBucket s p ((off - 0x40000) / 8) with
    | some (c, j) => modChan s c (fun ch => { ch with lat := sput ch.lat j 0 })
    | none => s
  else s

/-- RELEASE of a halted partition once every stop record has been written (R424): STATE is RUN again, saved
launches are discarded, and what the halt stopped is gone; queues keep STOP. -/
def releasePartition (s : State) (p : Nat) : State :=
  let q := partOf s p
  let pending := match q.halt with
    | some h => !h.units.isEmpty
    | none => false
  if q.state ≠ 1 || pending then s
  else
    let kept := q.saved.flatMap (fun v => v.groups.map (fun e => e.2.serial))
    let s1 := modPart s p (fun q => { q with state := 0, halt := none, saved := [], launches := [], preempts := [] })
    { s1 with
      cores := s1.cores.map (fun e =>
        if q.clusters.getLsbD (clusterOfCore e.1) then
          (e.1, { e.2 with dir := e.2.dir.filter (fun d => d.first == 15 && d.root), rgnReqs := [] })
        else e)
      cloakMons := s1.cloakMons.filter (fun k => k.part != p || !kept.contains k.serial)
      groups := s1.groups.filter (fun e => e.2.part != p || e.2.sageip)
      teams := s1.teams.filter (fun e =>
        e.2.part != p || s.groups.any (fun g => g.2.sageip && g.2.team == e.1)) }

/-- A halt request through part_halt (R423): it has no origin unit. -/
def requestHalt (s : State) (p : Nat) (cause : BitVec 8) : State := raiseHalt s p cause.toNat [] 0 0

/-- A write of 8 bytes at an offset of the window, performed there (R418). -/
def performWindow (s : State) (p off : Nat) (v : BitVec 64) : State :=
  if off = 0xC0008 then (if v.getLsbD 63 then releasePartition s p else requestHalt s p (v.extractLsb' 0 8))
  else if off = 0xC0028 then startTlbi s p v
  else if off = 0xC0040 then writeFrBase s p v
  else if off = 0xC0050 then writeFrHead s p v
  else if off = 0x008 || (0x10000 ≤ off && off < 0x80000) then clearCounter s p off v
  else if 0xC1000 ≤ off && off < 0xC1800 then writeQueueDescriptor s p ((off - 0xC1000) / 32) (off / 8 % 4) v
  else writeRegister s p off v

/-- A write of the window reaches it in issue order (R418): it waits behind those that wait. -/
def inTurn (s : State) (p off : Nat) (v : BitVec 64) (f : State → State) : State :=
  if (partOf s p).windowWaiting.isEmpty then f s
  else modPart s p (fun q => { q with windowWaiting := q.windowWaiting ++ [(off, v)] })

/-- A write of tlbi_ctl: performed only after DONE of the write before it (R420). -/
def writeTlbiCtl (s : State) (p : Nat) (v : BitVec 64) : State :=
  if (partOf s p).tlbiDone then inTurn s p 0xC0028 v (startTlbi · p v)
  else modPart s p (fun q => { q with windowWaiting := q.windowWaiting ++ [(0xC0028, v)] })

/-- A write of 8 bytes at an offset of the window (R418, R420). -/
def windowWrite (s : State) (p off : Nat) (v : BitVec 64) : State :=
  if off = 0xC0028 then writeTlbiCtl s p v else inTurn s p off v (performWindow · p off v)

/-- The writes that waited are performed in order, up to one of tlbi_ctl, which the rest waits for (R418, R420). -/
def drainWindow (p : Nat) : List (Nat × BitVec 64) → State → State
  | [], s => modPart s p (fun q => { q with windowWaiting := [] })
  | w :: ws, s =>
    let s1 := performWindow (modPart s p (fun q => { q with windowWaiting := ws })) p w.1 w.2
    if w.1 = 0xC0028 then s1 else drainWindow p ws s1

/-- DONE is set once the conditions of R112 hold: the stores that used such translations are written back, which
the device may do at any time (R116); the writes of the window that wait are performed. -/
def endTlbi (s : State) (p : Nat) : State :=
  let q := partOf s p
  let cores := (s.cores.map (·.1)).filter (fun c => q.clusters.getLsbD (clusterOfCore c))
  if q.tlbiDone || tlbiBlocked s p (tlbiPending q) || !cores.all (dirtyReady s) then s
  else
    let s1 := cores.foldl (fun st c => l1WriteBackAll st c) s
    drainWindow p q.windowWaiting (modPart s1 p (fun q => { q with tlbiDone := true }))

/-! ### The steps -/

/-- QUEUE_DESCRIPTOR_WRITE (R422). -/
def execQueueDescriptorWrite (part queue word : Nat) (value : BitVec 64) (s : State) : Out :=
  stepEvent s (fun s => inTurn s part (0xC1000 + 32 * queue + 8 * word) value (writeQueueDescriptor · part queue word value))
/-- TLBI_CTL_WRITE (R420). -/
def execTlbiCtlWrite (part : Nat) (value : BitVec 64) (s : State) : Out :=
  stepEvent s (fun s => writeTlbiCtl s part value)
/-- TLBI_DONE (R112, R420). -/
def execTlbiDone (part : Nat) (s : State) : Out := stepEvent s (fun s => endTlbi s part)
/-- HALT_REQUEST (R423). -/
def execHaltRequest (part : Nat) (cause : BitVec 8) (s : State) : Out :=
  stepEvent s (fun s => inTurn s part 0xC0008 (cause.setWidth 64) (requestHalt · part cause))
/-- RELEASE (R424). -/
def execRelease (part : Nat) (s : State) : Out :=
  stepEvent s (fun s => inTurn s part 0xC0008 (1#64 <<< 63) (releasePartition · part))
/-- FR_HEAD_WRITE (R421). -/
def execFrHeadWrite (part : Nat) (value : BitVec 64) (s : State) : Out :=
  stepEvent s (fun s => inTurn s part 0xC0050 value (writeFrHead · part value))
/-- FR_BASE_WRITE (R421). -/
def execFrBaseWrite (part : Nat) (value : BitVec 64) (s : State) : Out :=
  stepEvent s (fun s => inTurn s part 0xC0040 value (writeFrBase · part value))
/-- COUNTER_CLEAR (R350). -/
def execCounterClear (part offset : Nat) (value : BitVec 64) (s : State) : Out :=
  stepEvent s (fun s => inTurn s part offset value (clearCounter · part offset value))
/-- REGISTER_WRITE (R418). -/
def execRegisterWrite (part offset : Nat) (value : BitVec 64) (s : State) : Out :=
  stepEvent s (fun s => inTurn s part offset value (writeRegister · part offset value))

end Sys2Proof.Machine
end

