-- ==== Sys2Proof/Machine/Access.lean ====
section
/-!
DEFINITION. What one access of a group reaches: the pieces of its bytes line by line, what the group reads there
(R117, R123, R124), and how a store enters the core's store order or a held line (R116 to R118, R222).
-/
namespace Sys2Proof.Machine

/-! ### Pieces of an access -/

/-- A piece of an access within one line: `len` bytes from `off` of the line, from byte `start` of the access. -/
structure Seg where
  line : Nat
  off : Nat
  start : Nat
  len : Nat
  cpol : Nat
  ptrap : Bool
  window : Bool
  deriving DecidableEq, Repr

/-- The pieces of the runs of an access, in ascending order. -/
def segsOf (runs : List (Phys × Nat)) : List Seg :=
  (runs.foldl (fun (r : List Seg × Nat) x =>
    (r.1 ++ (linesOf x.1.pa x.2).map (fun line =>
      let lo := max x.1.pa (128 * line)
      let hi := min (x.1.pa + x.2) (128 * line + 128)
      { line, off := lo - 128 * line, start := r.2 + (lo - x.1.pa), len := hi - lo, cpol := x.1.cpol
        ptrap := x.1.ptrap, window := x.1.window }), r.2 + x.2)) ([], 0)).1

/-- What an access reaches: ADDRESS where its address could not be formed (R216). -/
def accRuns (s : State) (q : Accessor) (a : LaneAcc) (need : Need) : Except Fail (List (Phys × Nat)) :=
  if a.bad then .error { cause := evAddress } else reachRuns s q a.addr a.size need

/-- The bytes of a line that accesses store, a later access over an earlier one, and their mask. -/
def accsInLine (s : State) (q : Accessor) (accs : List LaneAcc) (line : Nat) : BitVec 1024 × BitVec 128 :=
  accs.foldl (fun dm a =>
    match accRuns s q a .none with
    | .error _ => dm
    | .ok runs => (segsOf runs).foldl (fun dm sg =>
        if sg.line = line && !sg.window then
          (setLineBytes dm.1 sg.off (((accBytes a).drop sg.start).take sg.len), dm.2 ||| byteMask sg.off sg.len)
        else dm) dm) (0, 0)

/-- The parts whose 16 bytes are all in a mask (R134). -/
def wholeOfMask (m : BitVec 128) : BitVec 8 :=
  (List.range 8).foldl (fun w i => if (m.extractLsb' (16 * i) 16) = BitVec.allOnes 16 then w ||| (1#8 <<< i) else w) 0

/-- Lays the bytes of a mask over a line; a part that they cover whole is sound. -/
def layOver (d : BitVec 1024 × BitVec 8) (e : BitVec 1024) (m : BitVec 128) : BitVec 1024 × BitVec 8 :=
  ((bitsOf m).foldl (fun x i => setLineByte x i (lineByte e i)) d.1, d.2 &&& ~~~ wholeOfMask m)

/-- The tables of the walks of an access are on ways that are ready (R431). -/
def accWalks (s : State) (q : Accessor) (a : LaneAcc) : Bool :=
  a.bad || walkReady s q.core q.part q.ctx a.addr && walkReady s q.core q.part q.ctx (a.addr + BitVec.ofNat 64 (a.size - 1))

/-- The ways of an access are ready (R431): those of its walks, of its line, which one that the L1 holds whole does not
need, and of a dirty line that gives up its place. A register of the window is reached once no write to it waits
(R418, R420). -/
def accReady (s : State) (q : Accessor) (store : Bool) (a : LaneAcc) : Bool :=
  accWalks s q a &&
  match accRuns s q a .none with
  | .error _ => true
  | .ok runs => (segsOf runs).all (fun sg =>
      if sg.window then (partOf s q.part).windowWaiting.isEmpty
      else
        (sg.cpol != 0 || roomReady s q.core sg.line) &&
          (pathReady s q.part sg.line ||
            sg.cpol == 0 && (store || (match mget (coreOf s q.core).l1 sg.line with
              | some l => l.valid == BitVec.allOnes 128
              | none => false))))

/-- An access reaches the management window. -/
def inManagement (s : State) (q : Accessor) (a : LaneAcc) : Bool :=
  q.sageip && (match accRuns s q a .none with
    | .error _ => false
    | .ok runs => runs.any (fun r => r.1.window))

/-- The partition's Sageip groups have an earlier access to the window that is not performed (R418): those of queued stores
and of loads in flight. -/
def windowBefore (s : State) (p id : Nat) : Bool :=
  s.groups.any (fun e => e.2.sageip && e.2.part == p &&
    (e.2.storeQ.any (fun x => x.id < id && x.accs.any (inManagement s (accessorOf e.2))) ||
     e.2.prods.any (fun x => x.id < id && (match x.kind with
       | .load _ as => as.any (inManagement s (accessorOf e.2))
       | _ => false))))

/-- The accesses of an instruction to the window come after all earlier ones (R418). -/
def windowTurn (s : State) (q : Accessor) (id : Nat) (accs : List LaneAcc) : Bool :=
  !accs.any (inManagement s q) || !windowBefore s q.part id

/-! ### What a group reads -/

/-- The reserve-core job a group runs for. -/
def jobOf (s : State) (g : Group) : Option Job := g.job.bind (fun i => s.jobs.find? (fun j => j.id == i))
/-- Changes a job. -/
def modJob (s : State) (i : Nat) (f : Job → Job) : State := { s with jobs := updFirst (fun j => j.id == i) f s.jobs }
/-- The group runs an audit (R339). -/
def auditJob (s : State) (g : Group) : Option Job :=
  (jobOf s g).bind (fun j => match j.kind with | .audit _ => some j | _ => none)

/-- Ends the audit of a region for want of log space: its entries are free again (R338). -/
def dropAudit (s : State) (gid : Nat) (g : Group) : State :=
  modPart (modGroup s gid (fun g => { g with region := { g.region with audited := false, logged := [], logSlots := [] } })) g.part
    (fun q => { q with dropped := if q.dropped = BitVec.allOnes 32 then q.dropped else q.dropped + 1 })

/-- The slots of a partition's input log that are in use: of regions that log and of audits (R338, R340). -/
def inputSlots (s : State) (p : Nat) : List Nat :=
  s.groups.flatMap (fun e => if e.2.part = p then e.2.region.logSlots else []) ++
    s.jobs.flatMap (fun j => if j.part = p then j.logSlots else [])

/-- The first slot of the input log that is free. -/
def freeSlot (s : State) (p : Nat) : Option Nat :=
  let used := inputSlots s p
  (List.range (used.length + 1)).find? (fun n => n < (partOf s p).auditInput.toNat && !used.contains n)

/-- A selected region logs a line it reads from memory, once (R338): an entry of 144 bytes of the input log. -/
def logLine (s : State) (gid line : Nat) (data : BitVec 1024) : State :=
  match mget s.groups gid with
  | none => s
  | some g =>
    if !(g.region.st == .opened && g.region.audited) || (mget g.region.logged line).isSome then s
    else
      let q := partOf s g.part
      match if q.auditLog = 0 then none else freeSlot s g.part with
      | none => dropAudit s gid g
      | some n =>
        let a := q.auditLog.toNat + 144 * n
        let s1 := writeHome (touchHome s g.part g.ctx (chainOf s g) a 144 true) a
          (leBytes 8 (128 * line) ++ leBytes 128 data.toNat ++ leBytes 8 g.serial.toNat)
        modGroup s1 gid (fun g => { g with region := { g.region with
          logged := mput g.region.logged line data, logSlots := g.region.logSlots ++ [n] } })

/-- A line as a group reads it for the bytes of `want` (R117, R123): the core's view, or an audit's log; over it
the group's own queued stores before `before`, and its held bytes. -/
def groupLine (s : State) (gid : Nat) (g : Group) (before line cpol h1 h2 : Nat) (want : BitVec 128) :
    BitVec 1024 × BitVec 8 × State :=
  let heldMask := match mget g.region.held line with
    | some h => h.mask
    | none => 0
  let r : BitVec 1024 × BitVec 8 × State :=
    match auditJob s g with
    | some j =>
      match mget j.log line with
      | some d => (d, 0, s)
      | none => (0, 0, if want &&& ~~~ heldMask = 0 then s else endJob s gid j.id .diverged)
    | none =>
      let (d, p, st) := l1View s g.core g.part g.ctx (chainOf s g) line cpol h1 h2
      (d, p, if want &&& ~~~ heldMask = 0 then st else logLine st gid line d)
  let own := (g.storeQ.filter (fun e => e.id < before && e.kind == .store)).foldl (fun (d : BitVec 1024 × BitVec 8) e =>
    let (ed, em) := accsInLine s (accessorOf g) e.accs line
    layOver d ed em) (r.1, r.2.1)
  let all := match mget g.region.held line with
    | some h => layOver own h.data h.mask
    | none => own
  (all.1, all.2, r.2.2)

/-- What a lane's access finds: the bytes, one flag a byte that tells whether its part is poisoned, and whether the
page of every poisoned part has PTRAP set. -/
structure Found where
  bytes : List (BitVec 8)
  bad : List Bool
  ptrap : Bool
  deriving DecidableEq, Repr

/-- Some byte lies in a poisoned part. -/
def Found.poisoned (f : Found) : Bool := f.bad.any id

/-- The walks of an access at the directory, also of one that fails (R110). -/
def touchAcc (s : State) (q : Accessor) (a : LaneAcc) : State :=
  if a.bad then s else touchPages s q.core q.part q.ctx a.addr a.size

/-- A group reads the bytes of an access at an address (R224): every piece from its line. -/
def readAcc (s : State) (gid : Nat) (before h1 h2 : Nat) (a : LaneAcc) (need : Need := .r) : Except Fail Found × State :=
  match mget s.groups gid with
  | none => (.error { cause := evAddress }, s)
  | some g =>
    let q := accessorOf g
    let s := touchAcc s q a
    match accRuns s q a need with
    | .error f => (.error f, s)
    | .ok runs =>
      let (f, st) := (segsOf runs).foldl (fun (r : Found × State) sg =>
        if sg.window then
          match windowRead r.2 g.part ((128 * sg.line + sg.off) % 2 ^ 20) with
          | some v => ({ r.1 with bytes := r.1.bytes ++ leBytes 8 v.toNat, bad := r.1.bad ++ List.replicate 8 false }, r.2)
          | none =>
            let (v, st) := (Config.freeValue r.2.draws, { r.2 with draws := r.2.draws + 1 })
            ({ r.1 with bytes := r.1.bytes ++ leBytes 8 v.toNat, bad := r.1.bad ++ List.replicate 8 false }, st)
        else
          let g1 := mgetD r.2.groups gid g
          let (d, p, st) := groupLine r.2 gid g1 before sg.line sg.cpol h1 h2 (byteMask sg.off sg.len)
          let st1 := if sg.cpol = 0 then l1Hint st g.core sg.line h1 else st
          let bad := (List.range sg.len).map (fun i => p.getLsbD ((sg.off + i) / 16))
          ({ bytes := r.1.bytes ++ lineBytes d sg.off sg.len, bad := r.1.bad ++ bad
             ptrap := r.1.ptrap && (!(bad.any id) || sg.ptrap) }, st1)) ({ bytes := [], bad := [], ptrap := true }, s)
      (.ok f, st)

/-! ### Stores -/

/-- The lines that accesses reach, each once, ascending, with the cache policy of the page. -/
def linesReached (s : State) (q : Accessor) (accs : List LaneAcc) : List (Nat × Nat) :=
  accs.foldl (fun ls a =>
    match accRuns s q a .none with
    | .error _ => ls
    | .ok runs => (segsOf runs).foldl (fun ls sg => if sg.window then ls else mput ls sg.line sg.cpol) ls) []

/-- A write on its way to a peer. -/
def sendWrite (s : State) (gid : Nat) (g : Group) (e : StoreEntry) (a : LaneAcc) (pa : Nat) (bs : List (BitVec 8)) :
    State :=
  { s with
    ual := s.ual ++ [{ id := s.nextOp, port := ualPort pa, gid, pc := e.pc, va := a.addr, pa, kind := 1, data := bs
                       op := e.id, split := e.split, lane := a.lane, size := a.size, uniform := e.uniform, ctx := g.ctx
                       part := g.part, serial := g.serial, coreid := originCore s g
                       slot := slotByte (identOf s g), gindex := g.index }]
    nextOp := s.nextOp + 1 }

/-- The window and remote pieces of an access are performed in their order, as at one home (R418, R133). -/
def storeBeyond (s : State) (gid : Nat) (g : Group) (e : StoreEntry) (a : LaneAcc) : State :=
  match accRuns s (accessorOf g) a .none with
  | .error _ => s
  | .ok runs => (segsOf runs).foldl (fun st sg =>
      let bs := ((accBytes a).drop sg.start).take sg.len
      if sg.window then
        windowWrite (fireLine st sg.line) g.part ((128 * sg.line + sg.off) % 2 ^ 20) (BitVec.ofNat 64 (leNat bs))
      else if isRemote (128 * sg.line) then
        let st1 := modCore st g.core (fun c => { c with l1 := mdel c.l1 sg.line })
        sendWrite st1 gid g e a (128 * sg.line + sg.off) bs
      else st) s

/-- Accesses of one instruction enter the core's store order (R116, R123): local lines with their byte masks, as
one write each; the others go to their homes. -/
def storeAccs (s : State) (gid : Nat) (g : Group) (e : StoreEntry) (accs : List LaneAcc) : State :=
  let q := accessorOf g
  let s1 := accs.foldl (fun st a => touchAcc st q a) s
  let s2 := (linesReached s1 q accs).foldl (fun st lc =>
    if isRemote (128 * lc.1) then st
    else
      let (d, m) := accsInLine s1 q accs lc.1
      coreStoreLine st q.core q.part q.ctx (chainOf s g) lc.1 lc.2 e.h1 e.h2 d m (wholeOfMask m)) s1
  accs.foldl (fun st a => storeBeyond st gid g e a) s2

/-- Accesses of one instruction are held for the group, with its hints (R117, R154). -/
def holdAccs (s : State) (gid : Nat) (g : Group) (h1 h2 : Nat) (accs : List LaneAcc) : State :=
  let q := accessorOf g
  let s := accs.foldl (fun st a => touchAcc st q a) s
  -- the pages through which the accesses reach a line
  let pages (line : Nat) : List Nat := accs.flatMap (fun a =>
    match accRuns s q a .none with
    | .error _ => []
    | .ok runs => ((segsOf runs).filter (fun sg => sg.line == line)).map
        (fun sg => (a.addr + BitVec.ofNat 64 sg.start).toNat / 2 ^ 16))
  (linesReached s q accs).foldl (fun st lc =>
    let (d, m) := accsInLine s q accs lc.1
    modGroup st gid (fun g =>
      let h := mgetD g.region.held lc.1 { data := 0, mask := 0 }
      let h' := { h with data := (layOver (h.data, 0) d m).1, mask := h.mask ||| m
                         pages := (pages lc.1).foldl addOnce h.pages, h1, h2 }
      { g with region := { g.region with held := mput g.region.held lc.1 h' } })) s

/-- Held lines of a group with those that more accesses would add: R54 counts lines. -/
def heldAfter (s : State) (g : Group) (accs : List LaneAcc) : Nat :=
  ((linesReached s (accessorOf g) accs).foldl (fun ls lc => addOnce ls lc.1) (g.region.held.map (·.1))).length

/-- A held store reaches remote memory or a page whose CPOL bypasses L2 (R117). -/
def holdIllegal (s : State) (g : Group) (accs : List LaneAcc) : Bool :=
  accs.any (fun a =>
    match accRuns s (accessorOf g) a .w with
    | .error _ => false
    | .ok runs => runs.any (fun r => isRemote r.1.pa || r.1.cpol == 2 || r.1.window))

/-! ### Failing lanes -/

/-- A failing lane of an instruction: lane, address, cause. -/
structure FailAt where
  lane : Nat
  addr : BitVec 64
  fail : Fail
  deriving DecidableEq, Repr

/-- The first failing access of each lane, in ascending lane order; lanes of the shadow copy by their twin. -/
def failLanes (g : Group) (fs : List FailAt) : List FailAt :=
  (List.range g.width).filterMap (fun l => fs.find? (fun f => laneIn g f.lane == l))

/-- The mask of failing lanes. -/
def failMask (g : Group) (fs : List FailAt) : BitVec 64 := maskOf ((failLanes g fs).map (·.lane) |>.map (laneIn g))

/-- A lane fails in one copy and not in its twin (R246). -/
def failDiffer (g : Group) (fs : List FailAt) : BitVec 64 :=
  if !g.lined then 0
  else
    let one (k : Nat) : BitVec 64 := maskOf ((fs.filter (fun f => copyOf g f.lane == k)).map (fun f => laneIn g f.lane))
    one 0 ^^^ one 1

/-- Writes the record of an instruction's failing lanes (R218); a uniform instruction's split is unfinished as a
whole. -/
def recordFails (s : State) (g : Group) (pc : Pc) (fs : List FailAt) (done unf : BitVec 64) (kind size : Nat)
    (uniform : Bool) : State :=
  match fs with
  | [] => s
  | f :: _ =>
    groupRecord s g pc f.fail done unf (fs.map (·.addr)) (fs.any (fun x => x.fail.cause != f.fail.cause)) uniform
      (g.live = 0 && (kind = 1 || kind = 6)) kind size

/-- An asynchronous event of an instruction already issued (R354). -/
def raiseAsync (s : State) (gid code split : Nat) (pc : Pc) (lanes info : BitVec 64) (addrs : List (Nat × BitVec 64))
    (op : Nat) : State :=
  raise s gid { code, precise := false, split, epc := pc, lanes, info, info2 := 0, addrs, op }

end Sys2Proof.Machine
end

