-- ==== Sys2Proof/Machine/Loads.lean ====
section
/-!
DEFINITION. Forming addresses (R213 to R216), and loads: issuing one as a producer, and what its data does when it
arrives (R135, R218, R220, R223, R224, R226 to R228).
-/
namespace Sys2Proof.Machine

/-! ### Addresses (R213, R216) -/

/-- An operand's register value as a signed number, in a lane; %zero gives 0. -/
def signedOperand (g : Group) (x : Enc) (w : Wd) (l : Nat) (y : Operand) : Int :=
  let v := readOperand g x w l y
  if y.isV && (x.span w).1 = 1 then (v.extractLsb' 0 32).toInt else v.toInt

/-- The exact sum of base, scaled index and displacement (R216). -/
def exactAddr (g : Group) (x : Enc) (w : Wd) (disp : Int) (l : Nat) : Int :=
  signedOperand g x .two l x.a + signedOperand g x w l x.b * (2 ^ x.scale : Nat) + disp

/-- An exact address lies in the canonical range for `n` bytes (R216). -/
def addrOk (a : Int) (n : Nat) : Bool := -(2 ^ 55 : Nat) ≤ a && a + n - 1 < (2 ^ 55 : Nat)

/-- An access at an exact address; `aligned` asks for alignment to `align` bytes (R216). -/
def accAt (l : Nat) (a : Int) (n align : Nat) (reg : Nat) : LaneAcc :=
  { lane := l, addr := BitVec.ofInt 64 a, size := n, bad := !addrOk a n || a % (align : Nat) != 0, reg }

/-- The bytes a lane stores: vector registers, a scalar or an even and odd pair of scalars (R215). -/
def storeData (g : Group) (x : Enc) (l : Nat) (y : Operand) : BitVec 128 :=
  let d : BitVec 128 := match y with
  | .v i =>
    (List.range x.memRegs).foldl (fun d k => d ||| ((vget g (i.toNat + k) l).setWidth 128 <<< (32 * k))) 0
  | .s i =>
    let lo := srget g (copyOf g l) i.toNat
    if x.size = 2 then (srget g (copyOf g l) (i.toNat + 1)) ++ lo else lo.setWidth 128
  | _ => 0
  BitVec.ofNat 128 (d.toNat % 2 ^ (8 * x.bytes))

/-- The accesses of the lanes of a per-lane instruction with the memory operand, in ascending lane order. -/
def laneAccs (c : Iss) (w : Wd) (disp : Int) (size align : Nat) (d : Nat) (lanes : BitVec 64) : List LaneAcc :=
  (lanesOf lanes).map (fun l => accAt l (exactAddr c.g c.x w disp l) size align d)

/-- The accesses of a block (R226): register d + j of lane i at 4 (W j + i). R216's range check takes the whole block as the
size: every lane of one that leaves the canonical range in part has ADDRESS (DESIGN CHOICE, log entry 94). -/
def blockAccs (c : Iss) (d : Nat) (lanes : BitVec 64) : List LaneAcc :=
  (lanesOf lanes).flatMap (fun l =>
    let base := exactAddr c.g c.x .one c.x.simm l
    let ok := addrOk base (4 * c.x.nb * c.g.width) && base % 16 == 0
    (List.range c.x.nb).map (fun j =>
      let a := base + 4 * (c.g.width * j + laneIn c.g l : Nat)
      { lane := l, addr := BitVec.ofInt 64 a, size := 4, bad := !ok, reg := d + j }))

/-! ### The scratchpad (R113 to R115) -/

/-- The window of a team in bytes. -/
def windowBytes (t : Team) : Nat := 128 * t.launch.scratch

/-- An access to the scratchpad lies in the window. -/
def inWindow (t : Team) (a : LaneAcc) : Bool := !a.bad && 0 ≤ a.addr.toInt && a.addr.toInt + a.size ≤ windowBytes t

/-- A scratchpad access at an exact offset. -/
def scratchAt (l : Nat) (a : Int) (n : Nat) (reg : Nat) : LaneAcc :=
  { lane := l, addr := BitVec.ofInt 64 a, size := n, bad := a < 0 || (2 ^ 40 : Nat) ≤ a, reg }

/-- Some line that an access touches is empty (R114). -/
def lineEmpty (t : Team) (a : LaneAcc) : Bool :=
  (linesOf a.addr.toNat a.size).any (fun l => !(mgetD t.scratchEmpty l []).isEmpty)

/-- A scratchpad access waits: a line of an access in the window is empty. -/
def scratchWaits (t : Team) (accs : List LaneAcc) : Bool := accs.any (fun a => inWindow t a && lineEmpty t a)

/-- Bytes of the scratchpad, with the parts that are poisoned. -/
def readScratch (t : Team) (a : LaneAcc) : Except Fail Found :=
  if inWindow t a then
    let o := a.addr.toNat
    .ok { bytes := getBytes t.scratch o a.size
          bad := (List.range a.size).map (fun i => sget t.scratchPoison ((o + i) / 16) == 1#1), ptrap := true }
  else .error { cause := evScratchBound }

/-! ### Delivering a load -/

/-- A load's register values: whole registers, or one of 1 or 2 bytes extended (R215). -/
def loadRegs (signed : Bool) (bs : List (BitVec 8)) : List W32 :=
  if bs.length < 4 then
    let v := leNat bs
    [BitVec.ofInt 32 (elemVal signed (8 * bs.length) v)]
  else (List.range (bs.length / 4)).map (fun k => BitVec.ofNat 32 (leNat ((bs.drop (4 * k)).take 4)))

/-- Which of those registers receive a byte of a poisoned part. -/
def badRegs (bad : List Bool) : List Bool :=
  if bad.length < 4 then [bad.any id]
  else (List.range (bad.length / 4)).map (fun k => ((bad.drop (4 * k)).take 4).any id)

/-- Writes a lane's registers; a poisoned one receives POISON_VAL where the launch accepts poison (R326). -/
def writeLoad (g : Group) (signed : Bool) (poisonVal : W32) (a : LaneAcc) (f : Found) : Group :=
  (((loadRegs signed f.bytes).zip (badRegs f.bad)).zipIdx).foldl
    (fun g e => vset g (a.reg + e.2) a.lane (if e.1.2 then poisonVal else e.1.1)) g

/-- The launch of a group accepts poison, and what it reads (R326). -/
def acceptOf (s : State) (g : Group) : Option W32 :=
  match teamOf s g with
  | some t => if t.launch.acceptPoison then some t.launch.poisonVal else none
  | none => none

/-- The poison count of the group's queue rises (R326); the device writes the status word (R422). -/
def countPoison (s : State) (g : Group) (n : Nat) : State :=
  if n = 0 then s
  else
    match (teamOf s g).bind (·.queue) with
    | none => s
    | some q =>
      writeQueueWords (modQueue s g.part q (fun u => { u with poison := BitVec.ofNat 24 (min (u.poison.toNat + n) (2 ^ 24 - 1)) }))
        g.part q

/-- POISON for a group (R135, R325): fatal where a page's PTRAP is 0, else an asynchronous event. -/
def raisePoison (s : State) (gid split : Nat) (pc : Pc) (ptrap : Bool) (lanes : BitVec 64) (reg nregs kind : Nat)
    (addrs : List (Nat × BitVec 64)) (op : Nat) : State :=
  let info := BitVec.ofNat 64 (reg + nregs * 2 ^ 8 + kind * 2 ^ 16)
  if ptrap then raiseAsync s gid evPoison split pc lanes info addrs op
  else haltGroup s gid evPoison pc lanes info

/-- The registers of a producer go full, but for those that a lane still holds pending (R135, R151). -/
def fillRegs (g : Group) (d n : Nat) : Group :=
  (List.range n).foldl (fun g i =>
    if g.pend.any (fun p => p.d ≤ d + i && d + i < p.d + p.nregs && p.lanes != 0) then g else markFull g (d + i) 1) g

/-- The counter of an instruction loses 1 once no lane of it is unfinished or pending (R228). -/
def finishCounter (g : Group) (op : Nat) (k : Option Nat) : Group :=
  match k with
  | none => g
  | some k => if g.prods.any (fun p => p.id == op) || g.pend.any (fun p => p.op == op) then g else kdec g k

/-- Registers of an access. -/
def accRegs (a : LaneAcc) : Nat := if a.size ≤ 4 then 1 else a.size / 4

/-- The pending registers of poisoned accesses: for each first register the lanes. -/
def poisonPends (g : Group) (p : Producer) (ps : List (LaneAcc × Found)) : List PoisonPend :=
  (ps.foldl (fun (m : Amap (Nat × BitVec 64)) e =>
    let (n, l) := mgetD m e.1.reg (accRegs e.1, 0)
    mput m e.1.reg (n, l ||| bitMask (laneIn g e.1.lane))) []).map
      (fun e => { d := e.1, nregs := e.2.1, lanes := e.2.2, counter := p.counter, op := p.id })

/-- The data of a load's accesses arrives (R135, R218, R224): good lanes are written, failing ones stay in the
producer and go into one record and the replay entry, poisoned ones are reported. `done` are the lanes performed. -/
def deliverLoad (s : State) (gid : Nat) (p : Producer) (signed scratch : Bool) (lanes : BitVec 64)
    (rs : List (LaneAcc × Except Fail Found)) : State :=
  match mget s.groups gid with
  | none => s
  | some g =>
    let fs : List FailAt := rs.filterMap (fun r => match r.2 with
      | .error f => some { lane := r.1.lane, addr := r.1.addr, fail := f }
      | .ok _ => none)
    let differ := failDiffer g fs
    let unf := failMask g fs &&& ~~~ differ
    let ok : List (LaneAcc × Found) := rs.filterMap (fun r => match r.2 with
      | .ok f => if unf.getLsbD (laneIn g r.1.lane) then none else some (r.1, f)
      | .error _ => none)
    let accept := acceptOf s g
    let ps := ok.filter (fun r => r.2.poisoned)
    let g1 := ok.foldl (fun g r =>
      if r.2.poisoned && accept.isNone then g else writeLoad g signed (accept.getD 0) r.1 r.2) g
    let pends := if accept.isSome then [] else poisonPends g p ps
    let rest : List LaneAcc := (match p.kind with
      | .load _ as => as
      | .loadS _ as => as
      | _ => []).filter (fun a => unf.getLsbD (laneIn g a.lane))
    let p' := { p with kind := if scratch then .loadS signed rest else .load signed rest
                       lanes := maskOf (rest.map (·.lane)) }
    let g2 := { g1 with
      prods := if unf = 0 then g1.prods.filter (fun q => q.id != p.id)
        else updFirst (fun q => q.id == p.id) (fun _ => p') g1.prods
      pend := g1.pend ++ pends }
    let g3 := if unf = 0 then finishCounter (fillRegs g2 p.d p.nregs) p.id p.counter else g2
    let rep : Option Replay := if unf = 0 then none
      else some { what := if scratch then .scratch else .prod p.id, id := p.id, pc := p.pc, lanes := unf
                  cause := (fs.headD { lane := 0, addr := 0, fail := { cause := 0 } }).fail.cause, kind := 0
                  size := p.size, uniform := p.uniform, split := p.split, accs := rest }
    let g4 := if scratch then { g3 with replayS := rep } else { g3 with replayG := rep }
    let s1 := { s with groups := mput s.groups gid g4 }
    let pendLanes := pends.foldl (fun m q => m ||| q.lanes) 0
    let s2 := if unf = 0 then s1
      else recordFails s1 g4 p.pc ((failLanes g fs).filter (fun f => unf.getLsbD (laneIn g f.lane)))
        (lanes &&& ~~~ unf &&& ~~~ pendLanes) unf 0 p.size p.uniform
    let s3 := if accept.isNone then s2
      else countPoison s2 g (((ps.filter (fun r => copyOf g r.1.lane == 0)).map
        (fun r => ((badRegs r.2.bad).filter id).length)).foldl (· + ·) 0)
    let s4 := pends.foldl (fun st q =>
      let mine := ps.filter (fun r => r.1.reg == q.d)
      raisePoison st gid p.split p.pc (mine.all (fun r => r.2.ptrap)) q.lanes q.d q.nregs 0
        ((mine.filter (fun r => copyOf g r.1.lane == 0)).map (fun r => (r.1.lane, r.1.addr))) p.id) s3
    if differ = 0 then s4
    else raiseAsync s4 gid evLiningMismatch p.split p.pc differ (mcInfo 0 4) [] p.id

/-- An armed `.l1c` or `.l1u` injection meets a load of its lane (Table 15.4): a corrected error changes nothing; an
uncorrectable one poisons the line read, and aborts an open region that holds it (R324). -/
def injectLoad (s : State) (gid : Nat) (accs : List LaneAcc) : State :=
  match mget s.groups gid with
  | none => s
  | some g =>
    match g.inj with
    | none => s
    | some i =>
      match if i.kind = 4 || i.kind = 5 then accs.find? (fun a => a.lane == i.lane) else none with
      | none => s
      | some a =>
        match injStep i with
        | (i', false) => modGroup s gid (fun g => { g with inj := i' })
        | (_, true) =>
          let s1 := modGroup s gid (fun g => { g with inj := none })
          if i.kind = 4 then countCorrected s1 (.l1 g.core)
          else
            match accRuns s1 (accessorOf g) a .r with
            | .error _ => s1
            | .ok runs =>
              match segsOf runs with
              | [] => s1
              | sg :: _ =>
                if sg.window then s1
                else if (mget g.region.held sg.line).isSome then abortRegion s1 gid
                else
                  -- the line is read into the L1 first; one that the L1 does not keep has no copy to damage
                  let s2 := (l1View s1 g.core g.part g.ctx (chainOf s1 g) sg.line sg.cpol 0 0).2.2
                  match mget (coreOf s2 g.core).l1 sg.line with
                  | some l => modCore s2 g.core (fun c => { c with
                      l1 := mput c.l1 sg.line { l with poison := BitVec.allOnes 8, whole := 0 } })
                  | none => s2

/-- The reads that an access of a load sent to a peer: one, or one of each byte (R129). -/
def peerReads (s : State) (gid op : Nat) (a : LaneAcc) : List UalReq :=
  s.ual.filter (fun u => u.gid == gid && u.op == op && u.lane == a.lane && u.kind == 0 && decide ((u.va - a.addr).toNat < a.size))

/-- A load reads an access. What it sent to a peer is performed there after the requests before it and before those
after it (R133): an answer that has come is what it reads, and allocates nothing; one that has not sees the requests that
went before. -/
def readIssued (s : State) (gid : Nat) (p : Producer) (a : LaneAcc) : Except Fail Found × State :=
  let us := peerReads s gid p.id a
  if us.isEmpty then readAcc s gid p.id p.h1 p.h2 a
  else if us.any (·.refused) then (.error { cause := evProtection, remote := true }, s)
  else
    let known := us.filter (·.answered)
    let before : Memory := match us.find? (fun u => !u.answered) with
      | some u => remoteView { s with ual := s.ual.filter (fun x => x.id < u.id) }
      | none => s.remote
    let seen : State := { s with remote := known.foldl (fun m u => putBytes m u.pa u.data) before, ual := [] }
    let (v, st) := readAcc seen gid p.id (if !known.isEmpty && p.h1 ≠ 3 then 2 else p.h1) p.h2 a
    (v, { st with remote := s.remote, ual := s.ual })

/-- The bytes of an access that were performed before the rest take the place of those read now (R129). -/
def withEarly (p : Producer) (a : LaneAcc) (f : Found) : Found :=
  let at_ (i : Nat) : Option (BitVec 8 × Bool × Bool) := mget p.early (4096 * a.lane + 4 * a.reg + i)
  { bytes := f.bytes.zipIdx.map (fun b => match at_ b.2 with | some e => e.1 | none => b.1)
    bad := f.bad.zipIdx.map (fun b => match at_ b.2 with | some e => e.2.1 | none => b.1)
    ptrap := f.ptrap && (List.range f.bytes.length).all (fun i => match at_ i with | some e => !e.2.1 || e.2.2 | none => true) }

/-- The lanes of `mask` of a global load are performed (R123, R221): an acquire first drops what the core's L1 holds
clean; the reads it sent to peers are answered. -/
def performLoad (s : State) (gid : Nat) (p : Producer) (signed : Bool) (accs : List LaneAcc) (mask : BitVec 64) :
    State :=
  match mget s.groups gid with
  | none => s
  | some g =>
    let mine := accs.filter (fun a => mask.getLsbD (laneIn g a.lane))
    let s1 := if p.order = 1 || p.order = 4 then acquireAt s g p.scope else s
    let s2 := injectLoad s1 gid mine
    let (rs, s3) := mine.foldl (fun (r : List (LaneAcc × Except Fail Found) × State) a =>
      let (v, st) := readIssued r.2 gid p a
      (r.1 ++ [(a, v.map (withEarly p a))], st)) ([], s2)
    let s4 := { s3 with ual := s3.ual.filter (fun r => !(r.gid == gid && r.op == p.id && r.kind == 0)) }
    deliverLoad s4 gid p signed false mask rs

/-- The lanes of a scratchpad load are performed. -/
def performLoadS (s : State) (gid : Nat) (p : Producer) (signed : Bool) (accs : List LaneAcc) : State :=
  match mget s.groups gid with
  | none => s
  | some g =>
    match teamOf s g with
    | none => s
    | some t =>
      let s1 := if p.order = 1 || p.order = 4 then acquireAt s g (min p.scope 1) else s
      deliverLoad s1 gid p signed true (maskOf (accs.map (fun a => laneIn g a.lane)))
        (accs.map (fun a => (a, (readScratch t a).map (withEarly p a))))

end Sys2Proof.Machine
end

