-- ==== Sys2Proof/Machine/Query.lean ====
section
/-!
DEFINITION. The queries of TRACE and PROBE as shaders answer them: a candidate is accepted, a query goes on or ends, and a
shader returns (R389 to R392).
-/
namespace Sys2Proof.Machine
open Sys2Proof

def f32Fmt : Fmt := fmtOf .f32

/-- The value of an FP32 encoding. -/
def f32 (n : Nat) : Fv := decodeFloat f32Fmt n

/-- The FP32 field `i` of a record's bytes 31:0. -/
def rayField (ray : BitVec 256) (i : Nat) : Nat := bits ray.toNat (32 * i) 32

/-- a ≤ b, false for a NaN. -/
def fvLe (a b : Fv) : Bool := !a.isNan && !b.isNan && !fvLt b a

/-- A field of a traversal's descriptor. -/
def travField (d : BitVec 512) (off n : Nat) : Nat := bits d.toNat (8 * off) (8 * n)

/-- PCs of the any-hit, intersection and closest-hit shaders, by shader kind. -/
def shaderPc (d : BitVec 512) (kind : Nat) : Nat := travField d (16 + 4 * (kind - 1)) 4

/-- A candidate is accepted (R389). -/
def acceptCand (y : Query) (c : Cand) : Query :=
  let better : Bool := match y.best with
    | none => true
    | some b =>
      if y.shape = 0 then
        let x := f32 c.t.toNat
        let z := f32 b.t.toNat
        fvLt x z || (fvEq x z && c.prim < b.prim)
      else c.prim < b.prim
  { y with best := if better then some c else y.best, nhits := y.nhits + 1 }

/-- Where a query goes once no candidate is left. -/
def settleQuery (desc : BitVec 512) (y : Query) : Query :=
  if !y.todo.isEmpty then { y with phase := 1 }
  else if y.shape = 0 && y.best.isSome && y.status = 0 && shaderPc desc 3 ≠ 0 then { y with phase := 2 }
  else { y with phase := 3, status := if y.status ≠ 0 then y.status else if y.nhits = 0 then 2 else 1 }

/-- Changes a traversal, or one of its queries. -/
def modTrav (s : State) (id : Nat) (f : Trav → Trav) : State :=
  { s with travs := updFirst (fun t => t.id == id) f s.travs }

def modQuery (s : State) (id lane : Nat) (f : Query → Query) : State :=
  modTrav s id (fun t => { t with queries := updFirst (fun y => y.lane == lane) f t.queries })

/-- What a query makes of a shader's answer for its candidate: 1 accept, with t of an intersection shader; 3 accept and
end; otherwise ignore (R391). -/
def answerQuery (desc : BitVec 512) (kind : Nat) (a : Nat × W32) (y : Query) : Query :=
  let y1 := { y with busy := false, todo := y.todo.tail }
  match y.todo.head? with
  | none => settleQuery desc y1
  | some (c, _) =>
    let c' := if kind = 2 && a.1 = 1 then { c with t := a.2 } else c
    let t := f32 a.2.toNat
    let fits := kind ≠ 2 || a.1 ≠ 1 || (fvLe (f32 (rayField y.ray 3)) t && fvLe t (f32 (rayField y.ray 7)))
    if a.1 = 1 then settleQuery desc (if fits then acceptCand y1 c' else y1)
    else if a.1 = 3 then settleQuery desc { acceptCand y1 c with status := 3, todo := [] }
    else settleQuery desc y1

/-- A shader returns by EXIT: its stores are released at device scope, its rays take its answers, and its block is free
(R390 to R392). -/
def shaderReturn (s : State) (gid : Nat) : State :=
  match mget s.groups gid with
  | none => s
  | some g =>
    match g.shader with
    | none => s
    | some h =>
      match s.travs.find? (fun t => t.id == h.trav) with
      | none => s
      | some t =>
        let s1 := modTrav (releaseAt s g 4) h.trav (fun t => { t with blocks := t.blocks.filter (· ≠ h.block) })
        h.rays.foldl (fun st r => modQuery st h.trav r.2 (fun y =>
          if h.kind = 3 then { y with busy := false, phase := 3, status := 1 }
          else answerQuery t.desc h.kind (mgetD h.answers r.1 (2, 0)) y)) s1

end Sys2Proof.Machine
end

