-- ==== Sys2Proof/Machine/Retire.lean ====
section
/-!
DEFINITION. Groups and teams leaving a core (R31, R33, R67, R222, R265, R293, R390, R392).
-/
namespace Sys2Proof.Machine

/-- Cores of a team. -/
def coresOf (t : Team) : List Nat := t.home :: t.partner.toList

/-- A group of the context is on the core. -/
def ctxOnCore (s : State) (core p ctx : Nat) : Bool :=
  s.groups.any (fun e => e.2.part == p && e.2.ctx == ctx && e.2.core == core)

/-- A kernel of the context is resident on the core: its root overlay stays pinned (R264). -/
def kernelOnCore (s : State) (core p ctx : Nat) : Bool :=
  s.teams.any (fun e => e.2.part == p && e.2.ctx == ctx && (coresOf e.2).contains core)

/-- With the context's last group the core's pockets for it go EMPTY (R265), but for those of the root overlay while a
kernel of the context is resident (R264; log entry 28). -/
def clearPockets (s : State) (core p ctx : Nat) : State :=
  if ctxOnCore s core p ctx then s
  else modCore s core (fun c => { c with dir := c.dir.filter (fun e =>
    e.part != p || e.ctx != ctx || (e.root && kernelOnCore s core p ctx)) })

/-- A graph retires when all its tasks are DONE and their launches have retired (R67). -/
def settleGraphs (s : State) (p : Nat) : State :=
  modPart s p (fun q => { q with
    graphs := q.graphs.filter (fun g =>
      g.done.length < g.n || q.launches.any (fun l => match l.task with | some t => t.1 == g.table && l.ctx == g.ctx | none => false)) })

/-- A launch's team has exited; when all have, its work retires (R67). -/
def countRetired (s : State) (p launch : Nat) : State :=
  settleGraphs (modPart s p (fun q => { q with
    launches := (q.launches.map (fun l => if l.id = launch then { l with retired := l.retired + 1 } else l)).filter
      (fun l => l.retired < l.total || l.next < l.total) })) p

/-- A team retires when all its groups have exited and its sequencer has ended (R293): its window, slots, barriers
and rings end with it. -/
def retireTeam (s : State) (tid : Nat) : State :=
  match mget s.teams tid with
  | none => s
  | some t =>
    let busy := t.held || s.groups.any (fun e => e.2.team == tid && e.2.job.isNone) || s.copies.any (fun c => c.team == tid) ||
      (match t.seq with | some q => !q.ended || !q.jobs.isEmpty || !q.jobsP.isEmpty | none => false)
    if busy then s
    else
      let s1 := countRetired { s with teams := mdel s.teams tid } t.part t.launchId
      (coresOf t).foldl (fun st c => clearPockets st c t.part t.ctx) s1

/-- Data of a slot or of the accumulator store is on its way to the group (R305, R311). -/
def delivering (g : Group) : Bool := g.prods.any (fun p => match p.kind with | .deliver _ _ => true | _ => false)

/-- The slot of a group whose last lane has exited is freed once its store queue is empty, its copies and the deliveries to
it have landed and its traversals are complete, whose faults name the group (R222, R311, R392). A shader then returns: what
it stored has been performed (R132, R390). -/
def retireGroup (s : State) (gid : Nat) : State :=
  match mget s.groups gid with
  | none => s
  | some g =>
    if g.live ≠ 0 || !g.storeQ.isEmpty || g.job.isSome || delivering g || s.copies.any (fun c => c.gid == gid) ||
        s.travs.any (fun t => t.gid == gid) then s
    else
      let s0 := shaderReturn s gid
      let s1 := { s0 with groups := mdel s0.groups gid }
      retireTeam (clearPockets s1 g.core g.part g.ctx) g.team

end Sys2Proof.Machine
end

