-- ==== Sys2Proof/Machine/Stores.lean ====
section
/-!
DEFINITION. Stores and cache operations: into the group's store queue or a held line at issue, and out of the queue
(R117, R118, R218, R220, R222, R225, R244).
-/
namespace Sys2Proof.Machine

/-- The order field acts as a release (R125). -/
def isRelease (order : Nat) : Bool := order == 2 || order == 3 || order == 4
/-- The order field acts as an acquire (R125). -/
def isAcquire (order : Nat) : Bool := order == 1 || order == 3 || order == 4

/-- The scope at which a store or atomic acts as a release, where it does: its own, or that of an earlier FENCE with
release (R128). -/
def releaseScope (s : State) (g : Group) (order scope : Nat) : Option Nat :=
  match g.fenceRel with
  | none => if isRelease order then some scope else none
  | some f => some (if isRelease order then joinScope s g scope f else f)

/-- Order and scope of a store after a FENCE with release: it acts as a release at that scope (R128). -/
def afterFence (s : State) (g : Group) (order scope : Nat) : Nat × Nat :=
  match releaseScope s g order scope with
  | some f => (if isRelease order then order else 2, f)
  | none => (order, scope)

/-- The release of a store or atomic, where it is one. -/
def releaseBy (s : State) (g : Group) (scope : Option Nat) : State :=
  match scope with
  | some f => releaseAt s g f
  | none => s

/-- The release of a store or atomic waits (R126, R431). -/
def releaseHolds (s : State) (g : Group) (scope : Option Nat) : Bool :=
  match scope with
  | some f => releaseWaits s g f
  | none => false

/-- The failing lanes of a store: a lane fails with any of its bytes (R226). -/
def storeFails (s : State) (g : Group) (kind : StKind) (accs : List LaneAcc) : List FailAt :=
  accs.filterMap (fun a =>
    match accRuns s (accessorOf g) a (if kind = .store then .w else .r) with
    | .error f => some { lane := a.lane, addr := a.addr, fail := f }
    | .ok runs => if kind ≠ .store && runs.any (fun r => r.1.window) then
        some { lane := a.lane, addr := a.addr, fail := { cause := evProtection } } else none)

/-- Cache operations on the line of an access (R244), with the hints of the instruction (R154): its write-backs enter the
L2 by H2. -/
def cacheOp (s : State) (g : Group) (kind : StKind) (h1 h2 : Nat) (a : LaneAcc) : State :=
  let s := touchAcc s (accessorOf g) a
  match accRuns s (accessorOf g) a .r with
  | .error _ => s
  | .ok runs => (segsOf runs).foldl (fun st sg =>
      match kind with
      | .cwb l2 =>
        let s1 := l1WriteBack st g.core sg.line (some h2)
        let s2 := if l2 && !isRemote (128 * sg.line) then l2WriteBack s1 g.part sg.line false else s1
        l1Mark s2 g.core sg.line h1
      | .cinv l2 =>
        let s1 := l1Drop (l1WriteBack st g.core sg.line (some h2)) g.core sg.line
        if l2 && !isRemote (128 * sg.line) then l2WriteBack s1 g.part sg.line true else s1
      | _ => st) s

/-- A cache operation on every line of the core's L1, with `.l2` on every line of the partition's slices too, and with the
hints of the instruction on each line (R154). -/
def cacheAll (s : State) (g : Group) (l2 drop : Bool) (h1 h2 : Nat) : State :=
  let s1 := l1WriteBackAll s g.core (some h2)
  let s2 := if drop || h1 = 3 then modCore s1 g.core (fun c => { c with l1 := [] })
    else ((coreOf s1 g.core).l1.map (·.1)).foldl (fun st l => l1Mark st g.core l h1) s1
  if l2 then l2WriteBackAll s2 g.part drop else s2

/-- Performs the good lanes of a queue entry. -/
def performEntry (s : State) (gid : Nat) (g : Group) (e : StoreEntry) (accs : List LaneAcc) : State :=
  let s1 := if isRelease e.order then releaseAt s g e.scope else s
  let s2 := match e.kind with
    | .store => if e.held then holdAccs s1 gid g e.h1 e.h2 accs else storeAccs s1 gid g e accs
    | .cwbAll l2 => cacheAll s1 g l2 false e.h1 e.h2
    | .cinvAll l2 => cacheAll s1 g l2 true e.h1 e.h2
    | k => accs.foldl (fun st a => cacheOp st g k e.h1 e.h2 a) s1
  if e.order = 4 then releaseAt s2 g e.scope else s2

/-- Bytes of an access of a store: of a block those of a lane (Table 13.4). -/
def storeSize (accs : List LaneAcc) (uniform : Bool) : Nat :=
  let a := accs.headD { lane := 0, addr := 0, size := 4 }
  if uniform then ((accs.filter (fun b => b.lane == a.lane)).map (·.size)).foldl (· + ·) 0 else a.size

/-- Access kind and size of a queue entry's record (Table 13.4). -/
def entryKind (e : StoreEntry) : Nat × Nat :=
  match e.kind with
  | .store => (1, e.size)
  | _ => (6, 128)

/-- The event of a held store that REPLAY performs: what is illegal in a region, or more lines than its budget (R56). -/
def heldEvent (s : State) (g : Group) (e : StoreEntry) (accs : List LaneAcc) : Option Nat :=
  if !e.held then none
  else if holdIllegal s g accs then some evRegionIllegal
  else if g.region.budget < heldAfter s g accs then some evRegionBudget
  else none

/-- The lanes of `mask` of the entry at the head of a group's queue are performed as it leaves the queue (R222): the
good ones enter the core's store order; the failing ones stay and go into a record and the replay entry. -/
def performHead (s : State) (gid : Nat) (mask : BitVec 64) : State :=
  match mget s.groups gid with
  | none => s
  | some g =>
    match g.storeQ with
    | [] => s
    | e :: rest =>
      let mine := e.accs.filter (fun a => mask.getLsbD (laneIn g a.lane))
      let fs := storeFails s g e.kind mine
      let unf := failMask g fs
      let ok := mine.filter (fun a => !unf.getLsbD (laneIn g a.lane))
      match heldEvent s g e ok with
      | some code =>
        raiseAsync (modGroup s gid (fun g => { g with
          storeQ := rest, replayG := none, region := { g.region with held := [] } })) gid code e.split e.pc mask 0 [] e.id
      | none =>
      let s0 := (mine.filter (fun a => unf.getLsbD (laneIn g a.lane))).foldl (fun st a => touchAcc st (accessorOf g) a) s
      let s1 := performEntry s0 gid g e ok
      let left := e.accs.filter (fun a => unf.getLsbD (laneIn g a.lane) || !mask.getLsbD (laneIn g a.lane))
      if unf = 0 then
        retireGroup (modGroup s1 gid (fun g => { g with
          storeQ := if left = [] then rest else { e with accs := left } :: rest
          replayG := none })) gid
      else
        let (kind, size) := entryKind e
        let rep : Replay :=
          { what := .store, id := e.id, pc := e.pc, lanes := unf, kind, size, uniform := e.uniform, accs := left
            split := e.split
            cause := (fs.headD { lane := 0, addr := 0, fail := { cause := 0 } }).fail.cause }
        let s2 := modGroup s1 gid (fun g => { g with
          storeQ := { e with accs := left, performed := 0 } :: rest, replayG := some rep })
        recordFails s2 g e.pc (failLanes g fs) ((mask ||| e.performed) &&& ~~~ unf) unf kind size e.uniform

/-- An earlier atomic, deque or monitor access of the group has not been performed. -/
def earlierAtoms (s : State) (gid : Nat) (g : Group) (id : Nat) : Bool :=
  g.atoms.any (fun a => a.id < id) || s.sliceQ.any (fun r => r.gid == gid && r.op < id)

/-- A scratchpad load in flight. -/
def isScratchLoad (p : Producer) : Bool := match p.kind with | .loadS _ _ => true | _ => false
/-- A global load in flight. -/
def isGlobalLoad (p : Producer) : Bool := match p.kind with | .load _ _ => true | _ => false

/-- An earlier acquire of the group has not been performed: every later access follows it (R125). -/
def acquireBefore (g : Group) (id : Nat) : Bool :=
  g.prods.any (fun p => p.id < id && isAcquire p.order && (isGlobalLoad p || isScratchLoad p))

/-- An earlier load or atomic of the group has not been performed (R123), or an earlier acquire of the scratchpad. -/
def earlierReads (s : State) (gid : Nat) (g : Group) (id : Nat) : Bool :=
  g.prods.any (fun p => p.id < id && isGlobalLoad p) || acquireBefore g id || earlierAtoms s gid g id

/-- All the lanes of an entry. -/
def entryLanes (g : Group) (e : StoreEntry) : BitVec 64 := maskOf (e.accs.map (fun a => laneIn g a.lane))

/-- The entry at the head of the queue may leave it (R222): after the group's earlier loads and atomics, and not while
the replay entry of an earlier access is occupied (R220); a release after what it orders (R125, R126). -/
def mayDrain (s : State) (gid : Nat) (g : Group) (e : StoreEntry) : Bool :=
  let ready := match g.replayG with
    | none => true
    | some r => e.id < r.id && (storeFails s g e.kind e.accs).isEmpty
  !earlierReads s gid g e.id && ready && windowTurn s (accessorOf g) e.id e.accs &&
    (match e.kind with
     | .store => e.accs.all (accReady s (accessorOf g) true)
     | .cwbAll _ | .cinvAll _ => dirtyReady s g.core
     | _ => e.accs.all (accReady s (accessorOf g) false)) &&
    !(isRelease e.order && (g.prods.any (fun p => p.id < e.id && isScratchLoad p) || releaseWaits s g e.scope))

/-- A store leaves the queue; where none may, what is left of a scratchpad store is performed (R129). -/
def drainStore (s : State) (gid : Nat) : State :=
  match mget s.groups gid with
  | none => s
  | some g =>
    match g.storeQ with
    | [] => finishScratch s gid
    | e :: _ =>
      if !mayDrain s gid g e then finishScratch s gid
      else
        let keep := g.replayG
        let s1 := performHead s gid (entryLanes g e)
        if keep.isSome then modGroup s1 gid (fun g => { g with replayG := keep }) else s1

/-! ### Parts of an access (R129) -/

/-- An access of at most 16 bytes aligned to its size is one part; of another each byte is one. -/
def alignedAcc (a : LaneAcc) : Bool := a.addr.toNat % a.size == 0

/-- A byte of an access as an access of its own. -/
def byteAcc (a : LaneAcc) (i : Nat) : LaneAcc :=
  { a with addr := a.addr + BitVec.ofNat 64 i, size := 1, data := a.data >>> (8 * i), cut := true }

/-- The part of some accesses that holds byte `i` of the access numbered `k`: the accesses performed with it, and those
that are left. Aligned accesses in one 16-B part are performed together. -/
def takePart (accs : List LaneAcc) (k i : Nat) : List LaneAcc × List LaneAcc :=
  match accs[k]? with
  | none => ([], accs)
  | some a =>
    if a.cut then ([a], accs.eraseIdx k)
    else if alignedAcc a then
      accs.partition (fun b => !b.cut && alignedAcc b && b.addr.toNat / 16 == a.addr.toNat / 16)
    else if a.size ≤ i then ([], accs)
    else
      ([byteAcc a i], accs.take k ++ ((List.range a.size).filter (· != i)).map (byteAcc a) ++ accs.drop (k + 1))

/-- One part of the store at the head of a group's queue is performed before the rest (R129). -/
def storePart (s : State) (gid op k i : Nat) : State :=
  match mget s.groups gid with
  | none => s
  | some g =>
    match g.storeQ with
    | [] => s
    | e :: rest =>
      let (now, later) := takePart e.accs k i
      if e.id ≠ op || e.kind ≠ .store || e.held || later.isEmpty || !mayDrain s gid g e ||
          !(storeFails s g e.kind e.accs).isEmpty then s
      else
        let lanes (l : List LaneAcc) : BitVec 64 := maskOf (l.map (fun a => laneIn g a.lane))
        modGroup (performEntry s gid g e now) gid (fun g => { g with
          storeQ := { e with accs := later, performed := e.performed ||| (lanes now &&& ~~~ lanes later) } :: rest })

/-- One part of a scratchpad store is performed before the rest (R129). -/
def scratchPart (s : State) (gid op k i : Nat) : State :=
  match mget s.groups gid with
  | none => s
  | some g =>
    match g.sts with
    | none => s
    | some (id, accs) =>
      let (now, later) := takePart accs k i
      if id ≠ op || later.isEmpty then s
      else
        let s1 := now.foldl (fun st a => modTeam st g.team (fun t => writeScratch t a.addr.toNat (accBytes a))) s
        modGroup s1 gid (fun g => { g with sts := some (id, later) })

/-! ### Issuing -/

/-- The lanes whose shadow copy differs from the primary: in being active, address or data (R246, R335). -/
def lanesDiffer (g : Group) (prim shadow : List LaneAcc) : BitVec 64 :=
  if !g.lined then 0
  else
    let of (l : Nat) (as : List LaneAcc) : List (BitVec 64 × Bool × BitVec 128) :=
      (as.filter (fun a => laneIn g a.lane == l)).map (fun a => (a.addr, a.bad, a.data))
    maskOf ((List.range g.width).filter (fun l => of l prim != of l shadow))

/-- The accesses of the primary copy. -/
def primAccs (g : Group) (accs : List LaneAcc) : List LaneAcc := accs.filter (fun a => copyOf g a.lane == 0)
/-- The accesses of the shadow copy. -/
def shadowAccs (g : Group) (accs : List LaneAcc) : List LaneAcc := accs.filter (fun a => copyOf g a.lane == 1)

/-- An armed `.line` injection meets a store of its lane (Table 15.4): whether it fires, and the state. -/
def injectStore (s : State) (c : Iss) : Bool × State :=
  match c.g.inj with
  | some i =>
    if i.kind = 6 && c.act.getLsbD i.lane then
      match injStep i with
      | (i', true) => (true, onGroup s c (fun g => { g with inj := i' }))
      | (i', false) => (false, onGroup s c (fun g => { g with inj := i' }))
    else (false, s)
  | none => (false, s)

/-- A store of an open region (R117, R245): REGION_ILLEGAL and REGION_BUDGET before any effect; good lanes are held,
failing ones wait in the queue for REPLAY. -/
def holdStore (s : State) (c : Iss) (accs : List LaneAcc) (uniform : Bool) : State :=
  match mget s.groups c.gid with
  | none => s
  | some g =>
    let fs := storeFails s g .store accs
    let unf := failMask g fs
    let ok := accs.filter (fun a => !unf.getLsbD (laneIn g a.lane))
    if holdIllegal s g ok then regionIllegal s c
    else if g.region.budget < heldAfter s g ok then
      raiseIss (onGroup s c (fun g => { g with region := { g.region with held := [] } })) c evRegionBudget c.sp.mask 0
    else
      let s0 := (accs.filter (fun a => unf.getLsbD (laneIn g a.lane))).foldl (fun st a => touchAcc st (accessorOf g) a) s
      let s1 := holdAccs s0 c.gid g c.x.h1.toNat c.x.h2.toNat ok
      if unf = 0 then advance s1 c
      else
        let (id, s2) := fresh s1
        let e : StoreEntry :=
          { id, pc := c.sp.pc, split := c.j, kind := .store, accs := accs.filter (fun a => unf.getLsbD a.lane)
            order := 0, scope := 0, uniform, held := true, size := storeSize accs uniform, h1 := c.x.h1.toNat, h2 := c.x.h2.toNat }
        let (kind, size) := entryKind e
        let rep : Replay :=
          { what := .store, id, pc := c.sp.pc, lanes := unf, kind, size, uniform, split := c.j, accs := e.accs
            cause := (fs.headD { lane := 0, addr := 0, fail := { cause := 0 } }).fail.cause }
        let s3 := onGroup s2 c (fun g => { g with storeQ := g.storeQ ++ [e], replayG := some rep })
        advance (recordFails s3 g c.sp.pc (failLanes g fs) (c.act &&& ~~~ unf) unf kind size uniform) c

/-- The lanes of a store at which the copies of a lined group differ: by their accesses, or by an injection. -/
def storeDiffers (c : Iss) (fires : Bool) (accs : List LaneAcc) : BitVec 64 :=
  lanesDiffer c.g (primAccs c.g accs) (shadowAccs c.g accs) |||
    (match c.g.inj with
     | some i => if fires && c.g.lined then bitMask i.lane else 0
     | none => 0)

/-- A store issues (R225, R246): the copies of a lined group are compared; outside a region it enters the queue. It waits
while the global replay entry is occupied (R220), and in an open region while a page walk that it makes would read memory that
is not ready (R431). -/
def issueStore (c : Iss) (s : State) (accs : List LaneAcc) (uniform : Bool) : State :=
  let prim := primAccs c.g accs
  let (fires, s1) := injectStore s c
  if c.g.replayG.isSome || (c.g.region.st == .opened && !prim.all (accWalks s (accessorOf c.g))) then s
  else if storeDiffers c fires accs ≠ 0 then liningMismatch s1 c (storeDiffers c fires accs)
  else if c.g.region.st = .opened then holdStore s1 c prim uniform
  else
    let (id, s2) := fresh s1
    let (order, scope) := afterFence s1 c.g c.x.order c.x.scope
    let e : StoreEntry :=
      { id, pc := c.sp.pc, split := c.j, kind := .store, accs := prim, order, scope, uniform
        h1 := c.x.h1.toNat, h2 := c.x.h2.toNat, size := storeSize prim uniform }
    let s3 := advance (onGroup s2 c (fun g => { g with storeQ := g.storeQ ++ [e] })) c
    -- the one address of a uniform store cannot be formed: its split issues nothing until REPLAY (R218)
    if uniform && prim.any (·.bad) then waitAs s3 c .fault else s3

/-- A cache operation enters the store queue (R244), once the global replay entry is free (R220); the copies of a lined
group are compared. -/
def issueCache (kind : StKind) (c : Iss) (s : State) (accs : List LaneAcc) : State :=
  let differ := lanesDiffer c.g (primAccs c.g accs) (shadowAccs c.g accs)
  if c.g.replayG.isSome then s
  else if differ ≠ 0 then liningMismatch s c differ
  else
    let (id, s1) := fresh s
    let e : StoreEntry :=
      { id, pc := c.sp.pc, split := c.j, kind, accs := primAccs c.g accs, order := 0, scope := 0
        h1 := c.x.h1.toNat, h2 := c.x.h2.toNat }
    advance (onGroup s1 c (fun g => { g with storeQ := g.storeQ ++ [e] })) c

end Sys2Proof.Machine
end

