-- ==== Sys2Proof/Machine/Atomics.lean ====
section
/-!
DEFINITION. Atomics, deque operations and monitors: requests at issue, and what a slice or a peer does with one
(R120, R129, R133 to R135, R234 to R239).
-/
namespace Sys2Proof.Machine

/-- The new value of a location (Table 13.6). -/
def atomNew (op : Nat) (ty : Ty) (old c e : BitVec 64) : BitVec 64 :=
  if op ≤ 5 then (reduceVal op ty false old c).1
  else
    match op with
    | 6 => c
    | 7 => if old = c then e else old
    | 8 => if c.toNat ≤ old.toNat then 0 else old + 1
    | _ => if old = 0 || c.toNat < old.toNat then c else old - 1

/-- The value of an operand in the width of the TYPE. -/
def typed (ty : Ty) (v : BitVec 64) : BitVec 64 := if ty.is64 then v else v &&& 0xFFFFFFFF

/-- Writes the result of an atomic in a lane, in both copies of a lined group (R246). -/
def writeOld (g : Group) (d : Nat) (two : Bool) (l : Nat) (v : BitVec 64) : Group :=
  (lanesOf (bothCopies g (bitMask l))).foldl (fun g l => writeV g d two l v) g

/-- The group's earlier accesses are performed and no replay entry holds the ones that follow (R123, R220). -/
def orderedNow (s : State) (gid : Nat) (g : Group) : Bool :=
  g.storeQ.isEmpty && g.replayG.isNone && !earlierReads s gid g s.nextOp

/-- The same of an instruction that reads or writes at home in its own step: it waits for the partition's memory too (R431,
log entry 44). -/
def homeNow (s : State) (c : Iss) : Bool := orderedNow s c.gid c.g && memReady s c.g.part

/-- Before an atomic is performed the core writes back its dirty bytes of the line and drops its copy (R129). -/
def yieldLine (s : State) (core line : Nat) : State := l1Drop (l1WriteBack s core line) core line

/-! ### One request at its home -/

/-- The requests of an atomic instruction that are not yet answered. -/
def atomPending (s : State) (gid op : Nat) : Bool :=
  s.sliceQ.any (fun r => r.gid == gid && r.op == op) || s.ual.any (fun r => r.gid == gid && r.op == op && r.kind == 2)

/-- Accesses of an instruction of a group are still on their way to a home. -/
def onTheWay (s : State) (gid op : Nat) : Bool :=
  s.sliceQ.any (fun r => r.gid == gid && r.op == op) || s.ual.any (fun u => u.gid == gid && u.op == op && u.kind != 1)

/-- Changes an atomic instruction of a group. -/
def modAtom (s : State) (gid op : Nat) (f : AtomOp → AtomOp) : State :=
  modGroup s gid (fun g => { g with atoms := updFirst (fun a => a.id == op) f g.atoms })

/-- `n` bytes at their home, and whether a poisoned part is among them; of a register of the window its value, which is free
where the register has none (R418). -/
def readUnit (s : State) (g : Group) (pa n : Nat) : List (BitVec 8) × Bool × State :=
  if isWindow pa then
    match windowRead s g.part (pa % 2 ^ 20) with
    | some v => (leBytes 8 v.toNat, false, s)
    | none => (leBytes 8 (Config.freeValue s.draws : BitVec 64).toNat, false, { s with draws := s.draws + 1 })
  else
    let (bs, bad) := readHome s pa n
    (bs, bad, s)

/-- Writes bytes at their home, or a register of the window (R418). -/
def writeUnit (s : State) (g : Group) (pa : Nat) (bs : List (BitVec 8)) : State :=
  if isWindow pa then windowWrite (fireLine s (pa / 128)) g.part (pa % 2 ^ 20) (BitVec.ofNat 64 (leNat bs))
  else writeHome s pa bs

/-- The directory's part in a request at its home; the window is not memory (R121). -/
def touchUnit (s : State) (g : Group) (r : SliceReq) (write : Bool) : State :=
  if isWindow r.pa then s else l2Touch s g.part g.ctx r.chain (r.pa / 128) write (r.cpol ≠ 2) r.h2

/-- One lane's read and write at the location's home, after the core has yielded the line (R129, R235): a poisoned part
changes nothing (R135). -/
def performAtomic (s : State) (r : SliceReq) : State :=
  match mget s.groups r.gid, r.kind with
  | some g, .atomic lane op ty c e d =>
    let n := if ty.is64 then 8 else 4
    let (bs, bad, s) := readUnit (touchUnit (yieldLine s g.core (r.pa / 128)) g r true) g r.pa n
    if bad then
      modAtom s r.gid r.op (fun a => { a with poisoned := a.poisoned ++ [(lane, r.va)], ptrap := a.ptrap && r.ptrap })
    else
      let old := BitVec.ofNat 64 (leNat bs)
      let s2 := writeUnit s g r.pa (leBytes n (typed ty (atomNew op ty old c e)).toNat)
      let s3 := modGroup s2 r.gid (fun g => match d with
        | some d => writeOld g d ty.is64 lane old
        | none => g)
      modAtom s3 r.gid r.op (fun a => { a with done := a.done ||| bitMask lane })
  | _, _ => s

/-- A lane of an atomic fails; its walk is made all the same (R110). -/
def failAtomic (s : State) (r : SliceReq) (f : Fail) : State :=
  let s := match mget s.groups r.gid with
    | some g => if f.cause = evAddress then s else touchTlb s g.core g.part g.ctx r.va
    | none => s
  modAtom s r.gid r.op (fun a => { a with fails := a.fails ++ [(r, f)] })

/-- The lane of a request, 0 for a uniform one. -/
def reqLane (r : SliceReq) : Nat := match r.kind with | .atomic l _ _ _ _ _ => l | _ => 0

/-- Every lane of an atomic has been performed or has failed (R235): destinations with lanes left are empty, the
record and the poison event follow, and the split goes on. -/
def finishAtom (s : State) (gid op : Nat) : State :=
  match mget s.groups gid with
  | none => s
  | some g =>
    match g.atoms.find? (fun a => a.id == op) with
    | none => s
    | some a =>
      if atomPending s gid op then s
      else
        let fs : List FailAt := a.fails.map (fun x => { lane := reqLane x.1, addr := x.1.va, fail := x.2 })
        let unf := failMask g fs
        let accept := acceptOf s g
        let pois := maskOf (a.poisoned.map (·.1))
        let pendLanes := if accept.isSome then 0 else pois
        let g1 : Group := match a.d, accept with
          | some d, some pv => a.poisoned.foldl (fun g x =>
              writeOld g d (a.nregs = 2) x.1 (pv.setWidth 64 ||| (pv.setWidth 64 <<< 32))) g
          | _, _ => g
        let g2 : Group := match a.d with
          | some d =>
            let h : Group := { g1 with pend := if pendLanes = 0 then g1.pend else
                        g1.pend ++ [{ d, nregs := a.nregs, lanes := pendLanes, counter := none, op }] }
            if unf = 0 then (if pendLanes = 0 then fillRegs h d a.nregs else markEmpty h d a.nregs)
            else markEmpty h d a.nregs
          | none => g1
        let rep : Option Replay := if unf = 0 then none
          else some { what := .atomic, id := op, pc := a.pc, lanes := unf, kind := 2, size := a.size
                      cause := (fs.headD { lane := 0, addr := 0, fail := { cause := 0 } }).fail.cause
                      reqs := a.fails.map (·.1) }
        let g3 := { g2 with
          atoms := g2.atoms.filter (fun x => x.id != op)
          replayG := if unf = 0 then g2.replayG else rep }
        let s1 := { s with groups := mput s.groups gid (modIssued g3 op a.split (fun sp =>
            if sp.pc = a.pc && sp.wait = .reply then sp.onward s.clk (sp.pc + 1) else sp)) }
        let s2 := if unf = 0 then s1
          else recordFails s1 g3 a.pc (failLanes g fs) a.done unf 2 a.size false
        let s3 := if isAcquire a.order then acquireAt s2 g a.scope else s2
        let s4 := if accept.isSome && a.d.isSome then countPoison s3 g (a.nregs * a.poisoned.length) else s3
        if pendLanes = 0 then s4
        else raisePoison s4 gid a.split a.pc a.ptrap pendLanes (a.d.getD 0) (if a.d.isSome then a.nregs else 0) 2
          a.poisoned op

/-! ### Uniform requests: deques and monitors -/

/-- The split of a uniform access is unfinished as a whole (R218). What REPLAY performs is kept (R220): the request as it
was sent to its home, with whether its address is misaligned, or the scalars as they were at issue. -/
def uniformFail (s : State) (gid split op : Nat) (pc : Pc) (va : BitVec 64) (f : Fail) (kind size : Nat)
    (req : Option (SliceReq × Bool) := none) : State :=
  match mget s.groups gid with
  | none => s
  | some g =>
    match issuedSplit g op split with
    | none => s
    | some sp =>
      let rep : Replay :=
        { what := .uniform split, id := op, pc, lanes := sp.mask, cause := f.cause, kind, size, uniform := true, split
          accs := [{ lane := 0, addr := va, size, bad := req.any (·.2) }], reqs := (req.map (·.1)).toList }
      let s0 := if f.cause = evAddress then s else touchPages s g.core g.part g.ctx va size
      let s1 := modGroup s0 gid (fun g =>
        modIssued { g with replayG := some rep } op split (fun sp => { sp with
          wait := .fault, caught := sp.caught.orElse (fun _ => some { sregs := g.sregs }) }))
      recordFails s1 g pc [{ lane := 0, addr := va, fail := f }] 0 sp.mask kind size true

/-- A uniform access has been performed: its scalars are written in every copy and the split goes on; an acquire takes
effect (R125). -/
def uniformDone (s : State) (r : SliceReq) (writes : List (Nat × BitVec 64)) : State :=
  let s1 := modGroup s r.gid (fun g =>
    let h := writes.foldl (fun h w => putScalar h w.1 (fun _ => w.2)) g
    modIssued h r.op r.split (fun sp => if sp.pc = r.pc && sp.wait = .reply then sp.onward s.clk (sp.pc + 1) else sp))
  match mget s1.groups r.gid with
  | none => s1
  | some g => if isAcquire r.order then acquireAt s1 g r.scope else s1

/-- A uniform access met poison (R239; for a deque, log entry 29): under ACCEPT_POISON its scalars receive
POISON_VAL in both halves and it is complete; else nothing changes and POISON names no register. -/
def uniformPoison (s : State) (r : SliceReq) (dests : List Nat) (kind : Nat) : State :=
  match mget s.groups r.gid with
  | none => s
  | some g =>
    match acceptOf s g with
    | some pv =>
      let v : BitVec 64 := pv ++ pv
      uniformDone (countPoison s g (2 * dests.length)) r (dests.map (fun d => (d, v)))
    | none =>
      let lanes := match issuedSplit g r.op r.split with
        | some sp => sp.mask
        | none => 0
      let info := BitVec.ofNat 64 (kind * 2 ^ 16)
      let s1 := modGroup s r.gid (fun g => modIssued g r.op r.split (fun sp => { sp with wait := .none }))
      if r.ptrap then
        raise s1 r.gid { code := evPoison, precise := true, split := r.split, epc := r.pc, lanes, info, info2 := 0
                         again := true, addrs := (lanesOf lanes).map (fun l => (l, r.va)), op := r.op }
      else haltGroup s1 r.gid evPoison r.pc lanes info

/-- A deque operation on its descriptor, whole (R236, R237): the difference of BOTTOM and TOP is exact. -/
def performDeque (s : State) (r : SliceReq) (op : DqOp) (c : BitVec 64) (d e : Nat) : State :=
  match mget s.groups r.gid with
  | none => s
  | some g =>
    let q := accessorOf g
    let s := touchUnit (yieldLine s g.core (r.pa / 128)) g r true
    let (bs, bad) := readHome s r.pa 32
    if bad then uniformPoison s r (match op with | .push => [d] | _ => [d, e]) 2
    else
      let s0 := s
      let base := fieldAt bs 0 8
      let lcap := bits (fieldAt bs 8 1) 0 5
      let top : BitVec 64 := BitVec.ofNat 64 (fieldAt bs 16 8)
      let bottom : BitVec 64 := BitVec.ofNat 64 (fieldAt bs 24 8)
      let n : Int := (bottom.toNat : Int) - top.toNat
      let status (k : Nat) : State := uniformDone s0 r [((match op with | .push => d | _ => e), BitVec.ofNat 64 k)]
      if fieldAt bs 9 7 ≠ 0 || bits (fieldAt bs 8 1) 5 3 ≠ 0 || lcap = 0 || 24 < lcap || (2 ^ lcap : Nat) < n then status 3
      else
        let entry (i : BitVec 64) : BitVec 64 := BitVec.ofNat 64 (base + 8 * (i.toNat % 2 ^ lcap))
        let at_ (va : BitVec 64) : Except Fail Phys :=
          if va.toNat % 8 ≠ 0 then .error { cause := evAddress }
          else match reach s q va 8 .rw with
            | .error f => .error f
            | .ok p => if isRemote p.pa || p.window then .error { cause := evProtection } else .ok p
        -- the entry's line at its home, and the directory's part in it
        let entryAt (va : BitVec 64) (p : Phys) : State :=
          let st := touchTlb (yieldLine s0 g.core (p.pa / 128)) g.core g.part g.ctx va
          l2Touch st g.part g.ctx r.chain (p.pa / 128) (op == .push) (p.cpol ≠ 2) r.h2
        let bump (st : State) (off : Nat) (v : BitVec 64) : State := writeHome st (r.pa + off) (leBytes 8 v.toNat)
        match op with
        | .push =>
          if n = (2 ^ lcap : Nat) then status 2
          else
            match at_ (entry bottom) with
            | .error f => uniformFail s r.gid r.split r.op r.pc (entry bottom) f 2 8 (some (r, false))
            | .ok p =>
              let s2 := writeHome (entryAt (entry bottom) p) p.pa (leBytes 8 c.toNat)
              uniformDone (bump s2 24 (bottom + 1)) r [(d, 0)]
        | .pop =>
          if n = 0 then status 1
          else
            match at_ (entry (bottom - 1)) with
            | .error f => uniformFail s r.gid r.split r.op r.pc (entry (bottom - 1)) f 2 8 (some (r, false))
            | .ok p =>
              let s1 := entryAt (entry (bottom - 1)) p
              let (v, vbad) := readHome s1 p.pa 8
              if vbad then uniformPoison s1 { r with va := entry (bottom - 1), ptrap := p.ptrap } [d, e] 2
              else uniformDone (bump s1 24 (bottom - 1)) r [(d, BitVec.ofNat 64 (leNat v)), (e, 0)]
        | .steal =>
          if n = 0 then status 1
          else
            match at_ (entry top) with
            | .error f => uniformFail s r.gid r.split r.op r.pc (entry top) f 2 8 (some (r, false))
            | .ok p =>
              let s1 := entryAt (entry top) p
              let (v, vbad) := readHome s1 p.pa 8
              if vbad then uniformPoison s1 { r with va := entry top, ptrap := p.ptrap } [d, e] 2
              else uniformDone (bump s1 16 (top + 1)) r [(d, BitVec.ofNat 64 (leNat v)), (e, 0)]

/-- MONARM at the line's home (R239): the word is read and the monitor armed in the same step. -/
def performMonarm (s : State) (r : SliceReq) (mon d : Nat) : State :=
  match mget s.groups r.gid with
  | none => s
  | some g =>
    let (bs, bad, s) := readUnit (touchUnit (yieldLine s g.core (r.pa / 128)) g r false) g r.pa 8
    let arm (st : State) : State := modGroup st r.gid (fun g => { g with
      mons := mput g.mons mon { line := r.pa / 128, va := r.va, fired := false } })
    if bad then
      if (acceptOf s g).isSome then uniformPoison (arm s) r [d] 7 else uniformPoison s r [d] 7
    else
      uniformDone (arm s) r [(d, BitVec.ofNat 64 (leNat bs))]

/-! ### A slice's next request (R120, R238) -/

/-- The earlier of two requests that wait at a slice: by source, then by arrival. -/
def sourceBefore (a b : SliceReq) : Bool :=
  a.src.cls < b.src.cls || (a.src.cls == b.src.cls && a.src.inst < b.src.inst)

/-- The first request by source order, the earliest among equals. -/
def firstReq : List SliceReq → Option SliceReq
  | [] => none
  | r :: rs =>
    match firstReq rs with
    | none => some r
    | some q => if sourceBefore q r then some q else some r

/-- A DQSTEAL. -/
def isSteal (r : SliceReq) : Bool := match r.kind with | .deque .steal _ _ _ => true | _ => false
/-- A DQPUSH or DQPOP. -/
def isOwner (r : SliceReq) : Bool :=
  match r.kind with | .deque .push _ _ _ | .deque .pop _ _ _ => true | _ => false

/-- The request a slice performs next: an owner's operation on a descriptor goes before a steal (R238). -/
def nextReq (s : State) (slice : Nat) : Option SliceReq :=
  match firstReq (s.sliceQ.filter (fun r => r.slice == slice)) with
  | none => none
  | some r =>
    if isSteal r then
      match firstReq (s.sliceQ.filter (fun q => q.slice == slice && q.pa == r.pa && isOwner q)) with
      | some q => some q
      | none => some r
    else some r

/-- Performs an atomic, a deque operation or a MONARM at its home; the continuation instructions have their own (`performAny`). Lanes of one instruction that name the same location are performed one after
the other (R235). -/
def performReq (s : State) (r : SliceReq) : State :=
  match r.kind with
  | .atomic _ _ _ _ _ _ =>
    let mine := s.sliceQ.filter (fun q => q.gid == r.gid && q.op == r.op && q.pa == r.pa)
    let s1 := { s with sliceQ := s.sliceQ.filter (fun q => !(q.gid == r.gid && q.op == r.op && q.pa == r.pa)) }
    finishAtom (mine.foldl performAtomic s1) r.gid r.op
  | .deque op c d e =>
    performDeque { s with sliceQ := s.sliceQ.filter (fun q => !(q.gid == r.gid && q.op == r.op)) } r op c d e
  | .monarm mon d =>
    performMonarm { s with sliceQ := s.sliceQ.filter (fun q => !(q.gid == r.gid && q.op == r.op)) } r mon d
  | .resume _ _ _ => s
  | .codrop _ => s
  | .coinfo _ => s
  | .suspend => s

/-! ### A peer's home (R133) -/

/-- A peer's home performs an atomic on what its memory holds. -/
def performRemoteAtomic (s : State) (r : SliceReq) : State :=
  let s1 := performAtomic { s with ual := [] } r
  { s1 with remote := remoteView s1, poison := remotePoison s1, ual := s.ual }

/-- A peer's home performs one request: a read is answered, and its answer waits for the load; an atomic returns. -/
def peerOne (s : State) (u : UalReq) : State :=
  let off : State := { s with ual := s.ual.filter (fun x => x.id != u.id) }
  match u.kind, u.req with
  | 0, _ =>
    { s with ual := updFirst (fun x => x.id == u.id)
                      (fun x => if x.answered then x else { x with answered := true, data := getBytes s.remote u.pa u.size }) s.ual }
  | 1, _ => { off with remote := putBytes s.remote u.pa u.data, poison := writePoison s.poison u.pa u.data.length u.poisoned }
  | _, some r => finishAtom (performRemoteAtomic off r) u.gid u.op
  | _, none => off

/-- Two requests name a line in common. -/
def sameLine (a b : UalReq) : Bool :=
  let last (u : UalReq) : Nat := (u.pa + max 1 (max u.size u.data.length) - 1) / 128
  a.pa / 128 ≤ last b && b.pa / 128 ≤ last a

/-- A read waits for an acquire that its group issued before it (R125). -/
def readHeld (s : State) (u : UalReq) : Bool :=
  u.kind == 0 && !u.answered && (match mget s.groups u.gid with | some g => acquireBefore g u.op | none => false)

/-- A peer's home performs a request, after those to the same line that were issued before it; the lanes of one atomic on
one location follow each other (R133, R235). One that an acquire holds, or that follows such a one, waits (R125). -/
def peerInOrder (s : State) (u : UalReq) : State :=
  let mine (x : UalReq) : Bool := x.id == u.id || (u.kind == 2 && x.kind == 2 && x.gid == u.gid && x.op == u.op && x.pa == u.pa)
  let before := s.ual.filter (fun x => !mine x && x.id < u.id && sameLine x u && !x.refused)
  let now := before ++ s.ual.filter mine
  if now.any (readHeld s) then s else now.foldl peerOne s

/-! ### Issuing -/

/-- What a request of a lane reaches: locally, or at a peer. -/
def reachReq (s : State) (g : Group) (r : SliceReq) (bad : Bool) (n : Nat) (need : Need) (remoteOk : Bool) :
    Except Fail SliceReq :=
  if bad then .error { cause := evAddress }
  else
    match reach s (accessorOf g) r.va n need with
    | .error f => .error f
    | .ok p =>
      if isRemote p.pa && !remoteOk then .error { cause := evProtection }
      else .ok { r with pa := p.pa, ptrap := p.ptrap, cpol := p.cpol
                        slice := if isRemote p.pa then 0 else (homeSlice s g.part (p.pa / 128)).1 }

/-- Sends a request to its home: a slice of this package, or a peer. -/
def sendReq (s : State) (g : Group) (r : SliceReq) : State :=
  let s1 := touchPages s g.core g.part g.ctx r.va 32
  if isRemote r.pa then
    { s1 with ual := s1.ual ++ [{ id := s1.nextOp, port := ualPort r.pa, gid := r.gid, pc := r.pc, va := r.va, pa := r.pa
                                  kind := 2, op := r.op, lane := reqLane r, size := 8, req := some r, ctx := g.ctx, part := g.part
                                  serial := g.serial }]
              nextOp := s1.nextOp + 1 }
  else { s1 with sliceQ := s1.sliceQ ++ [r] }

/-- A request of an instruction, not yet translated. -/
def blankReq (s : State) (c : Iss) (op : Nat) (va : BitVec 64) (kind : ReqKind) : SliceReq :=
  { slice := 0, src := { cls := 0, inst := c.g.core }, gid := c.gid, split := c.j, pc := c.sp.pc, va, pa := 0
    ptrap := true, h2 := c.x.h2.toNat, kind, order := c.x.order, scope := c.x.scope, chain := chainOf s c.g, op }

/-- The operand that `.cas` alone reads (Table 13.6). -/
def casOperand (c : Iss) (l : Nat) : BitVec 64 :=
  if c.x.bits 0 4 = 7 then typed c.x.ty (readOperand c.g c.x .ty l c.x.e) else 0

/-- The requests of the lanes of an atomic, each with whether its address is bad. -/
def atomReqs (s : State) (c : Iss) (op : Nat) (d : Option Nat) (lanes : BitVec 64) : List (SliceReq × Bool) :=
  let n := if c.x.ty.is64 then 8 else 4
  (laneAccs c .ix c.x.simm n n 0 lanes).map (fun a =>
    (blankReq s c op a.addr (.atomic (laneIn c.g a.lane) (c.x.bits 0 4) c.x.ty (typed c.x.ty (srcC c a.lane))
      (casOperand c a.lane) d), a.bad))

/-- The lanes of an atomic at which the copies of a lined group differ: in being active, address or operands (R335). -/
def reqsDiffer (g : Group) (prim shadow : List (SliceReq × Bool)) : BitVec 64 :=
  if !g.lined then 0
  else
    let of (l : Nat) (rs : List (SliceReq × Bool)) : List (BitVec 64 × ReqKind × Bool) :=
      (rs.filter (fun r => reqLane r.1 == l)).map (fun r => (r.1.va, r.1.kind, r.2))
    maskOf ((List.range g.width).filter (fun l => of l prim != of l shadow))

/-- ATOM and RED issue (R235): nothing of the group before them is unperformed; the copies of a lined group agree; a
release takes effect; each lane's request goes to its home. -/
def issueAtom (d : Option Nat) (c : Iss) (s : State) : State :=
  let rel := releaseScope s c.g c.x.order c.x.scope
  if c.sp.wait = .reply || !orderedNow s c.gid c.g || releaseHolds s c.g rel then s
  else
    let (id, s0) := fresh s
    let reqs := atomReqs s c id d c.act
    let shadow := if c.g.lined then atomReqs s c id d (c.all &&& ~~~ c.act) else []
    let differ := reqsDiffer c.g reqs shadow
    if differ ≠ 0 then liningMismatch s c differ
    else if !reqs.all (fun r => r.2 || walkReady s c.g.core c.g.part c.g.ctx r.1.va) then s
    else
      let s1 := releaseBy s0 c.g rel
      let n := if c.x.ty.is64 then 8 else 4
      let a : AtomOp :=
        { id, split := c.j, pc := c.sp.pc, d, nregs := if c.x.ty.is64 then 2 else 1, size := n, order := c.x.order
          scope := c.x.scope }
      let s2 := waitAs (onGroup s1 c (fun g => { g with atoms := g.atoms ++ [a] })) c .reply
      let s3 := reqs.foldl (fun st r =>
        match reachReq st c.g r.1 r.2 n .rw true with
        | .error f => failAtomic st r.1 f
        | .ok q => sendReq st c.g q) s2
      finishAtom s3 c.gid id

/-- A uniform deque or monitor instruction issues (R217, R237, R239). -/
def issueUniform (kind : ReqKind) (n align accessKind : Nat) (need : Need) (c : Iss) (s : State) : State :=
  let rel := if accessKind = 2 then releaseScope s c.g c.x.order c.x.scope else none
  if c.sp.wait = .reply || !orderedNow s c.gid c.g || releaseHolds s c.g rel then s
  else
    let a0 := exactAddr c.g c.x .one c.x.simm 0
    let differ := c.g.lined && (a0 != exactAddr c.g c.x .one c.x.simm c.g.width ||
      (c.x.c.isS && srcC c 0 != srcC c c.g.width))
    if differ then liningMismatch s c c.sp.mask
    else
      let (id, s0) := fresh s
      let s1 := releaseBy s0 c.g rel
      let a := accAt 0 a0 n align 0
      let r := blankReq s c id a.addr kind
      if !accWalks s (accessorOf c.g) a then s else
      match reachReq s1 c.g r a.bad n need false with
      | .error f => uniformFail s1 c.gid c.j id c.sp.pc a.addr f accessKind n (some (r, a.bad))
      | .ok q => sendReq (waitAs s1 c .reply) c.g q

/-! ### Scratchpad atomics (R115, R235) -/

/-- ATOMS on one lane. An offset that is misaligned and outside the window has ADDRESS, before SCRATCH_BOUND (DESIGN CHOICE,
log entry 94). -/
def atomScratch (c : Iss) (t : Team) (a : LaneAcc) : Except Fail (BitVec 64 × Bool × Team) :=
  let n := a.size
  if a.addr.toNat % n ≠ 0 then .error { cause := evAddress }
  else
    match readScratch t a with
    | .error f => .error f
    | .ok f =>
      if f.poisoned then .ok (0, true, t)
      else
        let old := BitVec.ofNat 64 (leNat f.bytes)
        let new := typed c.x.ty (atomNew (c.x.bits 0 4) c.x.ty old (typed c.x.ty (srcC c a.lane))
          (casOperand c a.lane))
        .ok (old, false, writeScratch t a.addr.toNat (leBytes n new.toNat))

end Sys2Proof.Machine
end

