-- ==== Sys2Proof/Machine/Copies.lean ====
section
/-!
DEFINITION. Copies (R130, R230 to R233): their parts, where a part lands, and what the last part completes.
-/
namespace Sys2Proof.Machine

/-! ### Destinations -/

/-- A copy in flight. -/
def copyGet (s : State) (id : Nat) : Option Copy := s.copies.find? (fun c => c.id == id)
/-- Changes a copy. -/
def modCopy (s : State) (id : Nat) (f : Copy → Copy) : State :=
  { s with copies := updFirst (fun c => c.id == id) f s.copies }

/-- Bytes of an operand slot (R296). -/
def slotBytes : Nat := 32768
/-- A slot of a team on the core of a side (0 home, 1 partner). -/
def slotOf (t : Team) (side o : Nat) : Slot := mgetD t.slots (2 * o + side) {}
/-- Changes a slot. -/
def modSlot (s : State) (tid side o : Nat) (f : Slot → Slot) : State :=
  modTeam s tid (fun t => { t with slots := mput t.slots (2 * o + side) (f (slotOf t side o)) })
/-- The side of its team on which a group resides. -/
def sideOf (t : Team) (g : Group) : Nat := if g.core = t.home then 0 else 1

/-- Fills landed: a slot moves on where a LAST fill, SLOT.READY or SLOT.RELEASE waits for them (R297). -/
def settleSlot (u : Slot) : Slot :=
  if u.st = .filling && u.fills = 0 then
    if u.toDrain then { u with st := .draining, toDrain := false, toReady := false, last := false }
    else if u.toReady || u.last then { u with st := .ready, toReady := false, last := false }
    else u
  else u

/-- A destination cannot take a part (R113, R231): cause and access kind. -/
def destFail (s : State) (c : Copy) (p : CopyPart) : Option (Fail × Nat) :=
  match c.dst with
  | .scratch =>
    match mget s.teams c.team with
    | none => some ({ cause := evProtection }, 4)
    | some t =>
      if p.dst < 0 || windowBytes t < p.dst + p.size then some ({ cause := evScratchBound }, 4)
      else if p.dst % (p.size : Nat) ≠ 0 then some ({ cause := evAddress }, 4)
      else none
  | .group gid _ =>
    match mget s.groups gid with
    | some g => if g.team = c.team && g.core = c.core && g.live ≠ 0 then none else some ({ cause := evProtection }, 4)
    | none => some ({ cause := evProtection }, 4)
  | .slot side o =>
    match mget s.teams c.team with
    | none => some ({ cause := evProtection }, 4)
    | some t =>
      if (slotOf t side o).st ≠ .filling then some ({ cause := evProtection }, 4)
      else if p.dst < 0 || slotBytes < p.dst + p.size then some ({ cause := evScratchBound }, 9)
      else if p.dst % (p.size : Nat) ≠ 0 then some ({ cause := evAddress }, 4)
      else none

/-- The scratchpad lines that a part writes. -/
def partLines (p : CopyPart) : List Nat := linesOf p.dst.toNat p.size

/-- At issue a part makes its destination empty (R114, R231), or is unfinished at once. -/
def startPart (s : State) (id : Nat) (k : Nat) : State :=
  match copyGet s id with
  | none => s
  | some c =>
    match mget c.parts k with
    | none => s
    | some p =>
      let put (s : State) (p : CopyPart) : State := modCopy s id (fun c => { c with parts := mput c.parts k p })
      -- every part that targets a slot counts as a fill part of it, until it lands (R297)
      let fill (s : State) : State := match c.dst with
        | .slot side o => modSlot s c.team side o (fun u => { u with fills := u.fills + 1, last := u.last || c.last })
        | _ => s
      match destFail s c p with
      | some (f, kind) => put (fill s) { p with fail := some (f, kind, p.src.getD 0), counted := true }
      | none =>
        let s1 := match c.dst with
          | .scratch => modTeam s c.team (fun t => { t with
              scratchEmpty := (partLines p).foldl (fun m l => mput m l (addOnce (mgetD m l []) id)) t.scratchEmpty })
          | _ => fill s
        put s1 { p with counted := true }

/-! ### Landing -/

/-- The first element of a part that cannot be read: its address. -/
def failingElement (s : State) (q : Accessor) (esz : Nat) (a : BitVec 64) : Nat → BitVec 64
  | 0 => a
  | n + 1 =>
    match reachRuns s q a esz .r with
    | .error _ => a
    | .ok _ => failingElement s q esz (a + BitVec.ofNat 64 esz) n

/-- The bytes of a part with their poison flags, or why it is unfinished. -/
def partBytes (s : State) (c : Copy) (p : CopyPart) : Except (Fail × Nat × BitVec 64) Found × State :=
  match p.bound, destFail s c p with
  | some (a, _), _ => (.error ({ cause := evTensorBound }, 3, a), s)
  | none, some (f, kind) => (.error (f, kind, p.src.getD 0), s)
  | none, none =>
    match p.src with
    | none => (.ok { bytes := List.replicate p.size 0, bad := List.replicate p.size false, ptrap := true }, s)
    | some a =>
      let (r, st) := readAcc s c.gid c.id c.h1 c.h2 { lane := p.lane, addr := a, size := p.rd, bad := p.bad }
      match r with
      | .error f =>
        let q : Accessor := { core := c.core, part := c.part, ctx := c.ctx }
        (.error (f, 3, if c.tensor then failingElement s q c.esz a (p.rd / max c.esz 1) else a), st)
      | .ok f =>
        let tail := p.size - p.lead - p.rd
        (.ok { f with bytes := List.replicate p.lead 0 ++ f.bytes ++ List.replicate tail 0
                      bad := List.replicate p.lead false ++ f.bad ++ List.replicate tail false }, st)

/-- Bytes land in a store of bytes with poison by parts (R134): a part written whole takes the poison of its source;
else poison is added. -/
def landBytes (data : Store 8) (poison : Store 1) (o : Nat) (f : Found) : Store 8 × Store 1 :=
  let clean := (partsWithin o f.bytes.length).foldl (fun p i => sput p i 0#1) poison
  (putBytes data o f.bytes,
    (f.bad.zipIdx).foldl (fun p b => if b.1 then sput p ((o + b.2) / 16) 1#1 else p) clean)

/-- A part's bytes reach their destination. -/
def deposit (s : State) (c : Copy) (p : CopyPart) (f : Found) : State :=
  match c.dst with
  | .scratch => modTeam s c.team (fun t =>
      let (d, q) := landBytes t.scratch t.scratchPoison p.dst.toNat f
      { t with scratch := d, scratchPoison := q })
  | .slot side o => modSlot s c.team side o (fun u =>
      let (d, q) := landBytes u.data u.poison p.dst.toNat f
      { u with data := d, poison := q, fills := if p.counted then u.fills - 1 else u.fills })
  | .group gid d =>
    match mget s.groups gid with
    | none => s
    | some g =>
      let accept := acceptOf s g
      let write (g : Group) : Group := (lanesOf (bothCopies g (bitMask p.lane))).foldl (fun g l =>
        writeLoad g false (accept.getD 0) { lane := l, addr := 0, size := p.size, reg := d } f) g
      if !f.poisoned then modGroup s gid write
      else if accept.isSome then
        countPoison (modGroup s gid write) g ((badRegs f.bad).filter id).length
      else
        let n := if p.size ≤ 4 then 1 else p.size / 4
        let pend (g : Group) : Group :=
          if g.pend.any (fun q => q.op == c.id) then
            { g with pend := updFirst (fun q => q.op == c.id) (fun q => { q with lanes := q.lanes ||| bitMask p.lane }) g.pend }
          else { g with pend := g.pend ++ [{ d, nregs := n, lanes := bitMask p.lane, counter := none, op := c.id }] }
        let s1 := modCopy (modGroup s gid pend) c.id (fun c => { c with poisoned := c.poisoned ||| bitMask p.lane })
        let j := match g.splits with
          | (j, _) :: _ => j
          | [] => 0
        raisePoison s1 gid j c.pc f.ptrap (bitMask p.lane) d n 3 [(p.lane, p.src.getD 0)] c.id

/-- The lanes or rows that still have a part, as UNF numbers them: bit 63 stands for rows 63 and above. -/
def partsLeft (c : Copy) : BitVec 64 := maskOf (c.parts.map (fun p => min p.2.lane 63))

/-- A copy that has landed whole is complete (R130, R228): its counter loses 1, a target's counter too, the target's
registers go full, and the slot moves on. -/
def completeCopy (s : State) (c : Copy) : State :=
  let s1 := { s with copies := s.copies.filter (fun x => x.id != c.id) }
  let s2 := modGroup s1 c.gid (fun g => kdec g c.counter)
  let s3 := match c.dst, c.tke with
    | .group gid _, some k => modGroup s2 gid (fun g => kdec g k)
    | _, _ => s2
  let s4 := match c.dst with
    | .group gid d => modGroup s3 gid (fun g => fillRegs g d (if c.esz ≤ 4 then 1 else c.esz / 4))
    | .slot side o => modSlot s3 c.team side o settleSlot
    | .scratch => s3
  retireTeam (retireGroup s4 c.gid) c.team

/-- Every part of a copy has landed or is unfinished: it is complete, or its record is written (R218). -/
def settleCopy (s : State) (id : Nat) : State :=
  match copyGet s id with
  | none => s
  | some c =>
    if c.unread then s
    else if c.parts.isEmpty then (if c.poisoned = 0 then completeCopy s c else s)
    else if c.reported || c.parts.any (fun p => p.2.fail.isNone) then s
    else
      match mget s.groups c.gid with
      | none => s
      | some g =>
        if g.replayG.isSome then s
        else
          let lowest := (List.range 64).findSome? (fun l => c.parts.find? (fun p => min p.2.lane 63 == l))
          match lowest.bind (fun p => p.2.fail.map (fun f => (p.2, f))) with
          | none => s
          | some (p, f, kind, a) =>
            let unf := partsLeft c
            let done := c.lanes &&& ~~~ unf
            let mixed := c.parts.any (fun q => match q.2.fail with
              | some (x, _, _) => x.cause != f.cause
              | none => false)
            let addrs := a :: c.parts.filterMap (fun q => q.2.fail.map (fun x => x.2.2))
            let rep : Replay :=
              { what := .copy id, id, pc := c.pc, lanes := unf, cause := f.cause, kind, size := c.esz, uniform := c.tensor
                accs := [{ lane := p.lane, addr := a, size := c.esz }] }
            let coords := match p.bound with
              | some (_, k) => k.toNat
              | none => 0
            let s1 := modCopy (modGroup s c.gid (fun g => { g with replayG := some rep })) id
              (fun c => { c with reported := true })
            groupRecord s1 g c.pc f done unf addrs mixed c.tensor false kind c.esz coords

/-- A scratchpad line goes full for a copy when its last part there has landed (R114, R130). -/
def publishLines (s : State) (c : Copy) (ls : List Nat) : State :=
  let left := (c.parts.map (fun p => partLines p.2)).flatten
  modTeam s c.team (fun t => { t with
    scratchEmpty := (ls.filter (fun l => !left.contains l)).foldl (fun m l =>
      let rest := (mgetD m l []).filter (· != c.id)
      if rest.isEmpty then mdel m l else mput m l rest) t.scratchEmpty })

/-- The landing of a part is a release at team scope, and who sees its line or register full or its slot READY acquires
(R130): in a two-core team what happened before it is in memory, and what the cores held clean is read again. -/
def landSync (s : State) (c : Copy) : State :=
  match mget s.teams c.team with
  | some t => if t.partner.isSome then (coresOf t).foldl l1DropClean (l1WriteBackAll s c.core) else s
  | none => s

/-- One part is read and lands, or becomes unfinished. -/
def performPart (s : State) (id k : Nat) : State :=
  match copyGet s id with
  | none => s
  | some c =>
    match mget c.parts k with
    | none => s
    | some p =>
      match partBytes s c p with
      | (.error f, st) => modCopy st id (fun c => { c with parts := mput c.parts k { p with fail := some f } })
      | (.ok f, st) =>
        let s1 := modCopy st id (fun c => { c with
          parts := mdel c.parts k, landed := c.landed + 1
          landedParts := if c.tensor then mput c.landedParts k { p with counted := false, fail := none } else [] })
        let s2 := deposit (landSync s1 c) c p f
        match c.dst, copyGet s2 id with
        | .scratch, some c' => publishLines s2 c' (partLines p)
        | .slot side o, some c' => if c'.parts.isEmpty then s2 else modSlot s2 c.team side o settleSlot
        | _, _ => s2

/-- A copy's parts are read after every earlier global access of the group (R130, R220), while its team is in place
(R363). -/
def copyReady (s : State) (c : Copy) : Bool :=
  match mget s.groups c.gid with
  | none => (mget s.teams c.team).isSome
  | some g =>
    !g.storeQ.any (fun e => e.id < c.id) && !earlierReads s c.gid g c.id &&
      (match g.replayG with
       | none => true
       | some r => c.id < r.id)

/-- A part of a copy lands (R130). -/
def landPart (s : State) (id k : Nat) : State :=
  match copyGet s id with
  | none => s
  | some c =>
    match mget c.parts k with
    | none => s
    | some p =>
      if p.fail.isSome then settleCopy s id
      else if !copyReady s c || !(match p.src with
          | some a => accReady s { core := c.core, part := c.part, ctx := c.ctx } false { lane := p.lane, addr := a, size := p.rd, bad := p.bad }
          | none => true) then s
      else settleCopy (performPart s id k) id

/-! ### Tensors (R232, R233) -/

/-- A tensor descriptor (Table 13.5). -/
structure Tensor where
  base : Nat
  esz : Nat
  fault : Bool
  dims : List Nat
  strides : List Int
  box : List Nat
  deriving DecidableEq, Repr

/-- A descriptor whose fields are in range; none where it is malformed (R232). -/
def parseTensor (bs : List (BitVec 8)) : Option Tensor :=
  let e := fieldAt bs 8 1
  let rank := fieldAt bs 9 1
  let bounds := fieldAt bs 10 1
  let dims := (List.range 4).map (fun j => fieldAt bs (16 + 4 * j) 4)
  let strides : List Int := 0 :: (List.range 3).map (fun j => (BitVec.ofNat 64 (fieldAt bs (32 + 8 * j) 8)).toInt)
  let box := (List.range 4).map (fun j => fieldAt bs (56 + 2 * j) 2)
  let esz := 2 ^ (e % 4)
  let beyond (l : List Nat) : Bool := (List.range 4).all (fun j => j < rank || l.getD j 0 == 1)
  let vol := box.foldl (· * ·) 1
  if 4 ≤ e || rank = 0 || 4 < rank || 1 < bounds || fieldAt bs 11 5 ≠ 0 || dims.any (· == 0) ||
      box.any (fun b => b == 0 || 256 < b) || !beyond dims || !beyond box || box.getD 0 0 * esz % 16 ≠ 0 ||
      slotBytes < vol * esz then none
  else some { base := fieldAt bs 0 8, esz, fault := bounds = 1, dims, strides, box }

/-- The coordinates of element `i` of row `r`. -/
def boxCoords (t : Tensor) (start : List Int) (r i : Nat) : List Int :=
  let b1 := t.box.getD 1 1
  let b2 := t.box.getD 2 1
  let u := [i, r % b1, r / b1 % b2, r / (b1 * b2)]
  (List.range 4).map (fun j => start.getD j 0 + (u.getD j 0 : Nat))

/-- The exact address of an element. -/
def elemAddr (t : Tensor) (x : List Int) : Int :=
  t.base + x.getD 0 0 * t.esz + x.getD 1 0 * t.strides.getD 1 0 + x.getD 2 0 * t.strides.getD 2 0 +
    x.getD 3 0 * t.strides.getD 3 0

/-- The element is inside the tensor and the lower canonical half. -/
def elemInside (t : Tensor) (x : List Int) : Bool :=
  (List.range 4).all (fun j => 0 ≤ x.getD j 0 && x.getD j 0 < t.dims.getD j 1) && 0 ≤ elemAddr t x &&
    elemAddr t x + t.esz ≤ (2 ^ 55 : Nat)

/-- Coordinates as DETAIL holds them (Table 13.4). -/
def packCoords (x : List Int) : BitVec 128 :=
  BitVec.ofNat 128 (leNat ((List.range 4).flatMap (fun j => leBytes 4 (BitVec.ofInt 32 (x.getD j 0)).toNat)))

/-- Part `k` of row `r` of a box: 16 bytes. -/
def boxPart (t : Tensor) (start : List Int) (dest : Int) (r k : Nat) : CopyPart :=
  let n := 16 / t.esz
  let row := t.box.getD 0 1 * t.esz
  let at_ (i : Nat) : List Int := boxCoords t start r (n * k + i)
  let inside := (List.range n).filter (fun i => elemInside t (at_ i))
  let out := (List.range n).find? (fun i => !elemInside t (at_ i))
  let first := inside.headD 0
  { src := if inside.isEmpty then none else some (BitVec.ofInt 64 (elemAddr t (at_ first)))
    lead := first * t.esz, rd := inside.length * t.esz, size := 16, dst := dest + (r * row + 16 * k : Nat), lane := r
    bound := if t.fault then out.map (fun i => (BitVec.ofInt 64 (elemAddr t (at_ i)), packCoords (at_ i))) else none }

/-- Start coordinates: signed 32-bit halves of b and e (R232). -/
def startCoords (v : BitVec 128) : List Int := (List.range 4).map (fun j => (v.extractLsb' (32 * j) 32).toInt)

/-- The rows of a mask of `n` rows, as UNF numbers them. -/
def rowMask (n : Nat) : BitVec 64 := maskBelow n

/-- The descriptor of a CPT cannot be used: one record, and the copy waits for REPLAY (R232). -/
def descFail (s : State) (c : Copy) (f : Fail) (kind : Nat) : State :=
  match mget s.groups c.gid with
  | none => s
  | some g =>
    let rep : Replay :=
      { what := .copy c.id, id := c.id, pc := c.pc, lanes := 1, cause := f.cause, kind, size := 64, uniform := true
        accs := [{ lane := 0, addr := c.descAddr, size := 64 }] }
    let s1 := modCopy (modGroup s c.gid (fun g => { g with replayG := some rep })) c.id (fun c => { c with reported := true })
    groupRecord s1 g c.pc f 0 1 [c.descAddr] false true false kind 64

/-- A CPT.O whose descriptor is not read holds its slot as one fill part does (R297). -/
def holdSlot (s : State) (c : Copy) (on : Bool) : State :=
  match c.dst with
  | .slot side o => modSlot s c.team side o (fun u => { u with fills := if on then u.fills + 1 else u.fills - 1 })
  | _ => s

/-- Reads the descriptor of a CPT with R permission and makes the box's parts (R232). -/
def readTensor (s : State) (id : Nat) : State :=
  match copyGet s id with
  | none => s
  | some c =>
    let bad := c.descAddr.toNat % 64 ≠ 0
    match readAcc s c.gid c.id c.h1 c.h2 { lane := 0, addr := c.descAddr, size := 64, bad } with
    | (.error f, st) => descFail st c f 5
    | (.ok f, st) =>
      if f.poisoned then descFail st c { cause := evTensorBound, poisoned := true } 5
      else
        match parseTensor f.bytes with
        | none => descFail st c { cause := evTensorBound, malformed := true } 5
        | some t =>
          let rows := t.box.getD 1 1 * t.box.getD 2 1 * t.box.getD 3 1
          let per := t.box.getD 0 1 * t.esz / 16
          let start := startCoords c.start
          let parts : Amap CopyPart := (List.range (rows * per)).map (fun i => (i, boxPart t start c.dest (i / per) (i % per)))
          let s1 := modCopy st id (fun c => { c with parts, lanes := rowMask rows, esz := t.esz, unread := false })
          (List.range (rows * per)).foldl (fun st i => startPart st id i) (holdSlot s1 c false)

/-! ### Issuing -/

/-- A copy enters the copy coalescer (R228, R230): its counter rises, its parts make their destinations empty. -/
def launchCopy (s : State) (c : Iss) (y : Copy) : State :=
  let s1 := onGroup { s with copies := s.copies ++ [y] } c (fun g => kput g y.counter (kget g y.counter + 1))
  let s2 := (y.parts.map (·.1)).foldl (fun st k => startPart st y.id k) s1
  let s3 := if y.unread then readTensor (holdSlot s2 y true) y.id else s2
  advance (settleCopy s3 y.id) c

/-- The copy of an issuing instruction, without its parts. -/
def blankCopy (c : Iss) (id : Nat) (dst : CopyDst) : Copy :=
  { id, gid := c.gid, pc := c.sp.pc, split := c.j, core := c.g.core, part := c.g.part, ctx := c.g.ctx, team := c.g.team
    dst, parts := [], lanes := c.act, counter := c.x.kf, esz := c.x.bytes, h1 := c.x.h1.toNat, h2 := c.x.h2.toNat }

/-- The parts of a CPA: one a lane, at the destination offset that `off` gives. -/
def cpaParts (c : Iss) (disp : Int) (off : Nat → Int) : Amap CopyPart :=
  (laneAccs c .ix disp c.x.bytes c.x.bytes 0 c.act).map (fun a =>
    (a.lane, { src := some a.addr, rd := a.size, size := a.size, dst := off a.lane, lane := a.lane, bad := a.bad }))

/-- The destination offset in C of a lane: signed 32 bits (R231). -/
def offC (c : Iss) (l : Nat) : Int :=
  match c.x.c with
  | .v i => (vget c.g i.toNat l).toInt
  | _ => 0

/-- The lanes in which the shadow copy's addresses or offsets of a CPA differ (R246). -/
def cpaDiffer (c : Iss) (disp : Int) : BitVec 64 :=
  if !c.g.lined then 0 else maskOf ((lanesOf c.act).filter (fun l =>
    exactAddr c.g c.x .ix disp l != exactAddr c.g c.x .ix disp (l + c.g.width) || offC c l != offC c (l + c.g.width)))

/-- A copy may issue: no replay entry of a global access is occupied (R220) and the counter has room (R228). -/
def copyMayIssue (c : Iss) : Bool := c.g.replayG.isNone && kget c.g c.x.kf < 255

/-- CPA.S and CPA.O issue. -/
def issueCpa (dst : CopyDst) (last : Bool) (c : Iss) (s : State) : State :=
  if !copyMayIssue c then s
  else if cpaDiffer c c.x.simm ≠ 0 then liningMismatch s c (cpaDiffer c c.x.simm)
  else
    let (id, s1) := fresh s
    launchCopy s1 c { blankCopy c id dst with parts := cpaParts c c.x.simm (offC c), last }

/-- The displacement of CPA.G: bits 10:0 of IMM16 beside an immediate target (R231). -/
def cpaGDisp (x : Enc) : Int := if x.e.isImm then (x.imm.extractLsb' 0 11).toInt else x.simm

/-- The number of CPA.G's target group in its team. -/
def cpaGTarget (c : Iss) (copy : Nat) : Nat :=
  if c.x.e.isImm then (c.x.imm.extractLsb' 11 5).toNat else bits (uniOperand c.g c.x copy c.x.e).toNat 0 5

/-- CPA.G issues (R231): it waits while a target register is empty, and clears them. -/
def issueCpaG (c : Iss) (s : State) : State :=
  let n := cpaGTarget c 0
  let d := c.x.d.idx
  let regs := c.x.memRegs
  let target := s.groups.find? (fun e => e.2.team == c.g.team && e.2.core == c.g.core && e.2.index == n && e.2.live != 0)
  let waits := match target with
    | some (_, g) => (List.range regs).any (fun i => isEmpty g (d + i))
    | none => false
  if !copyMayIssue c || waits then s
  else if c.g.lined && cpaGTarget c 1 != n then liningMismatch s c c.act
  else if cpaDiffer c (cpaGDisp c.x) ≠ 0 then liningMismatch s c (cpaDiffer c (cpaGDisp c.x))
  else
    let (id, s1) := fresh s
    let gid := match target with
      | some (k, _) => k
      | none => 0
    let s2 := modGroup s1 gid (fun g => markEmpty g d regs)
    launchCopy s2 c { blankCopy c id (.group gid d) with
      parts := cpaParts c (cpaGDisp c.x) (fun _ => 0), tke := if c.x.bit 6 then some (c.x.bits 0 4) else none }

/-- CPT issues (R232): its descriptor is read after the group's earlier accesses. -/
def issueCpt (dst : CopyDst) (destOf : Nat → Int) (c : Iss) (s : State) : State :=
  let opnds (k : Nat) : List (BitVec 64) := [c.x.a, c.x.b, c.x.c, c.x.e].map (uniOperand c.g c.x k)
  if !copyMayIssue c || !c.g.storeQ.isEmpty || earlierReads s c.gid c.g s.nextOp || !memReady s c.g.part then s
  else if c.g.lined && opnds 0 != opnds 1 then liningMismatch s c c.sp.mask
  else
    let (id, s1) := fresh s
    launchCopy s1 c { blankCopy c id dst with
      tensor := true, unread := true, descAddr := uniOperand c.g c.x 0 c.x.a, dest := destOf 0
      start := uniOperand c.g c.x 0 c.x.e ++ uniOperand c.g c.x 0 c.x.b }

end Sys2Proof.Machine
end

