-- ==== Sys2Proof/Machine/Arrive.lean ====
section
/-!
DEFINITION. Data arriving for a producer (R153, R173, R224, R305), a refused request of a peer (R399), and what
REPLAY re-performs (R221, R222, R258).
-/
namespace Sys2Proof.Machine

/-! ### Write-back of a producer -/

/-- A read that was sent to a peer waits for an atomic that the package sent to its line before it (R133). -/
def behindAtomic (s : State) (gid op : Nat) : Bool :=
  s.ual.any (fun u => u.gid == gid && u.op == op && u.kind == 0 && !u.answered && !u.refused &&
    s.ual.any (fun x => x.kind == 2 && x.id < u.id && sameLine x u))

/-- A global load may be performed (R123, R220): no earlier load or atomic of the group is left, no earlier cache
operation is in its queue (R244), no earlier access holds the replay entry, and a sequentially consistent one comes after
the group's earlier stores. -/
def loadReady (s : State) (gid : Nat) (g : Group) (p : Producer) : Bool :=
  !earlierReads s gid g p.id && (match p.kind with | .load _ as => windowTurn s (accessorOf g) p.id as | _ => true) && (match g.replayG with | none => true | some r => p.id < r.id) &&
    !g.storeQ.any (fun e => e.id < p.id && (p.order == 4 || e.kind != .store)) && !behindAtomic s gid p.id

/-- The primary lanes of a producer that are left. -/
def prodLanes (g : Group) (p : Producer) : BitVec 64 := maskOf ((lanesOf p.lanes).map (laneIn g))

/-- A global load is performed as far as it may be. Its failing lanes take the replay entry, which must be free. -/
def stepLoad (s : State) (gid id : Nat) : State :=
  match mget s.groups gid with
  | none => s
  | some g =>
    match g.prods.find? (fun p => p.id == id) with
    | none => s
    | some p =>
      match p.kind with
      | .load signed accs =>
        if !loadReady s gid g p || !accs.all (accReady s (accessorOf g) false) then s
        else
          let keep := g.replayG
          let s1 := performLoad s gid p signed accs (prodLanes g p)
          if keep.isNone then s1
          else
            match mget s1.groups gid with
            | some g1 => if g1.replayG.isNone then modGroup s1 gid (fun g => { g with replayG := keep }) else s
            | none => s1
      | _ => s

/-- A scratchpad load may be performed (R115, R220, R227). -/
def loadSReady (s : State) (g : Group) (p : Producer) (accs : List LaneAcc) : Bool :=
  g.replayS.isNone && !acquireBefore g p.id && !g.prods.any (fun q => q.id < p.id && isScratchLoad q) &&
    (match teamOf s g with
     | some t => !scratchWaits t accs
     | none => false)

/-- One part of a load is performed before the rest (R129); a part that fails waits for the rest. -/
def loadPart (s : State) (gid : Nat) (g : Group) (p : Producer) (scratch : Bool) (accs : List LaneAcc) (k i : Nat) : State :=
  let (now, later) := takePart accs k i
  let may := if scratch then loadSReady s g p accs
    else loadReady s gid g p && g.replayG.isNone && accs.all (accReady s (accessorOf g) false) &&
      now.all (fun a => (peerReads s gid p.id a).isEmpty)
  let one (r : State × Bool × Amap (BitVec 8 × Bool × Bool)) (a : LaneAcc) : State × Bool × Amap (BitVec 8 × Bool × Bool) :=
    let off := if a.cut then i else 0
    let (v, st) : Except Fail Found × State := if scratch
      then ((match teamOf s g with | some t => readScratch t a | none => .error { cause := evScratchBound }), r.1)
      else readAcc r.1 gid p.id p.h1 p.h2 a
    match v with
    | .error _ => (r.1, false, r.2.2)
    | .ok f => (st, r.2.1, ((f.bytes.zip f.bad).zipIdx).foldl
        (fun m b => mput m (4096 * a.lane + 4 * a.reg + off + b.2) (b.1.1, b.1.2, f.ptrap)) r.2.2)
  if !may || now.isEmpty || later.isEmpty then s
  else
    let s1 := if p.order = 1 || p.order = 4 then acquireAt s g (if scratch then min p.scope 1 else p.scope) else s
    let r := now.foldl one (s1, true, p.early)
    if r.2.1 then
      modGroup r.1 gid (fun g => { g with prods := updFirst (fun q => q.id == p.id) (fun q => { q with early := r.2.2 }) g.prods })
    else s

/-- A part of an access of a group is performed before the rest of it (R129). -/
def accessPart (s : State) (gid op k i : Nat) : State :=
  match mget s.groups gid with
  | none => s
  | some g =>
    match g.prods.find? (fun p => p.id == op) with
    | none => if g.sts.any (fun x => x.1 == op) then scratchPart s gid op k i else storePart s gid op k i
    | some p =>
      match p.kind with
      | .load _ accs => loadPart s gid g p false accs k i
      | .loadS _ accs => loadPart s gid g p true accs k i
      | _ => s

/-- The results of the iterative unit arrive (R173): written, with the exceptions in each copy's %fpflags; or the
trap is taken and nothing is written. -/
def finishValue (s : State) (gid : Nat) (g : Group) (p : Producer) (writes : List RegWrite) (f fsh : BitVec 5)
    (trap : Option (BitVec 64 × BitVec 5)) : State :=
  let off (g : Group) : Group := { g with prods := g.prods.filter (fun q => q.id != p.id) }
  let held : Bool := match issuedSplit g p.id p.split with
    | some sp => sp.wait == .trapHold p.id
    | none => false
  let free (g : Group) (n : Nat) : Group :=
    if held then modIssued g p.id p.split (fun sp => sp.onward s.clk (sp.pc + BitVec.ofNat 32 n)) else g
  match trap with
  | some (lanes, en) =>
    let s1 := modGroup s gid (fun g => free (markFull (off g) p.d p.nregs) 0)
    raise s1 gid { code := if en = 0 then evLiningMismatch else evFpTrap, precise := true, split := p.split, epc := p.pc
                   lanes, info := if en = 0 then mcInfo 0 4 else en.setWidth 64, info2 := 0, op := p.id }
  | none =>
    modGroup s gid (fun g =>
      let g1 := writes.foldl (fun g w => vset g w.reg w.lane w.val) (off g)
      let g2 := orFlags (orFlags g1 0 f) 1 (if g.lined then fsh else 0)
      free (markFull g2 p.d p.nregs) 1)

/-- Data of a slot or of the accumulator store arrives (R305, R311): poisoned registers are reported as under PTRAP = 1
(R135). For a group whose last lane has exited the data is discarded and its slot is freed. -/
def finishDeliver (s : State) (gid : Nat) (g : Group) (p : Producer) (writes : List RegWrite)
    (bad : List (Nat × Nat × BitVec 64)) : State :=
  let accept := acceptOf s g
  let hit (w : RegWrite) : Bool :=
    bad.any (fun b => b.1 ≤ w.reg && w.reg < b.1 + b.2.1 && b.2.2.getLsbD (laneIn g w.lane))
  let pend : List PoisonPend := if accept.isSome then []
    else bad.map (fun b => { d := b.1, nregs := b.2.1, lanes := b.2.2, counter := none, op := p.id })
  let put (g : Group) (w : RegWrite) : Group :=
    if hit w then (match accept with | some pv => vset g w.reg w.lane pv | none => g) else vset g w.reg w.lane w.val
  let done (g : Group) : Group := { g with prods := g.prods.filter (fun q => q.id != p.id) }
  if g.live = 0 then retireGroup (modGroup s gid done) gid
  else
    let s1 := modGroup s gid (fun g =>
      let g1 := writes.foldl put (done g)
      fillRegs { g1 with pend := g1.pend ++ pend } p.d p.nregs)
    if accept.isSome then countPoison s1 g ((bad.map (fun b => b.2.1 * popMask b.2.2)).foldl (· + ·) 0)
    else bad.foldl (fun st b => raisePoison st gid p.split p.pc true b.2.2 b.1 b.2.1 0 [] p.id) s1

/-- The data of a long-latency producer arrives. A global load is performed after every earlier one of the group
(R123), which this step performs too. -/
def writeBack (s : State) (gid id : Nat) : State :=
  match mget s.groups gid with
  | none => s
  | some g =>
    match g.prods.find? (fun p => p.id == id) with
    | none => s
    | some p =>
      match p.kind with
      | .load _ _ =>
        (g.prods.filter (fun q => q.id ≤ id && isGlobalLoad q)).foldl
          (fun st q => stepLoad st gid q.id) s
      | .loadS signed accs => if loadSReady s g p accs then performLoadS s gid p signed accs else s
      | .value ws f fsh trap => finishValue s gid g p ws f fsh trap
      | .deliver ws po => finishDeliver s gid g p ws po

/-! ### REPLAY of an entry (R221, R258) -/

/-- Re-performs the lanes of an atomic. -/
def replayAtomic (s : State) (gid : Nat) (g : Group) (r : Replay) : State :=
  let n := r.size
  let d := match r.reqs with
    | q :: _ => (match q.kind with | .atomic _ _ _ _ _ d => d | _ => none)
    | [] => none
  let order := match r.reqs with | q :: _ => q.order | [] => 0
  let scope := match r.reqs with | q :: _ => q.scope | [] => 0
  let a : AtomOp := { id := r.id, split := 256, pc := r.pc, d, nregs := n / 4, size := n, order, scope }
  let s1 := modGroup s gid (fun g => { g with atoms := g.atoms ++ [a], replayG := none })
  let s2 := r.reqs.foldl (fun st q =>
    match reachReq st g q (q.va.toNat % n ≠ 0) n .rw true with
    | .error f => failAtomic st q f
    | .ok q' =>
      if isRemote q'.pa then
        performRemoteAtomic ((st.ual.filter (fun u => !u.refused && u.pa / 128 == q'.pa / 128)).foldl peerOne st) q'
      else performAtomic st q') s1
  finishAtom s2 gid r.id

/-- A uniform access is performed again where its address now translates (R221): a request goes to its home as it was sent;
any other instruction issues with the operands that its split keeps. -/
def replayUniform (s : State) (gid : Nat) (g : Group) (r : Replay) (j : Nat) : State :=
  let a := r.accs.headD { lane := 0, addr := 0, size := 8 }
  let need : Need := if r.kind = 7 || r.kind = 0 || r.kind = 5 || r.kind = 3 then .r else if r.kind = 1 then .w else .rw
  let again (wait : Wait) : State :=
    modGroup s gid (fun g => modIssued { g with replayG := none } r.id j (fun sp => { sp with wait, age := s.clk + 1 }))
  match r.reqs with
  | q :: _ =>
    match reachReq s g q a.bad (if r.kind = 7 then 8 else 32) need false with
    | .ok q' => sendReq (again .reply) g q'
    | .error f => recordFails s g r.pc [{ lane := 0, addr := q.va, fail := f }] 0 r.lanes r.kind r.size true
  | [] =>
  let ok :=
    if r.kind = 3 then (reachRuns s (accessorOf g) a.addr a.size need).isOk && a.addr.toNat % 16 = 0
    else
      match reach s (accessorOf g) a.addr a.size need with
      | .ok p => !p.window && a.addr.toNat % a.size = 0
      | .error _ => false
  if ok then again .none
  else
    let f : Fail := match reach s (accessorOf g) a.addr a.size need with
      | .ok _ => { cause := r.cause }
      | .error f => if r.cause = evAddress then { cause := evAddress } else f
    recordFails s g r.pc [{ lane := 0, addr := a.addr, fail := f }] 0 r.lanes r.kind r.size true

/-- Re-performs the parts of a copy that are unfinished, those of a box with their whole rows (R233), or reads a tensor
descriptor again. What it completes is what the record of a further failure calls DONE (R221). -/
def replayCopy (s : State) (gid id : Nat) : State :=
  let s1 := modGroup s gid (fun g => { g with replayG := none })
  let s2 := modCopy s1 id (fun c =>
    let again := c.landedParts.filter (fun p => c.parts.any (fun q => q.2.lane == p.2.lane))
    let parts := again.foldl (fun m p => mput m p.1 p.2) (c.parts.map (fun p => (p.1, { p.2 with fail := none })))
    { c with reported := false, parts, landedParts := c.landedParts.filter (fun p => !again.contains p)
             lanes := if c.unread then c.lanes else partsLeft c })
  match copyGet s2 id with
  | none => s2
  | some c =>
    if c.unread then settleCopy (readTensor s2 id) id
    else settleCopy ((c.parts.map (·.1)).foldl (fun st k => performPart st id k) s2) id

/-- A scratchpad access that lies outside the window fails again (R221). -/
def replayScratch (s : State) (g : Group) (r : Replay) : State :=
  let fs : List FailAt := r.accs.map (fun a => { lane := laneIn g a.lane, addr := a.addr, fail := { cause := r.cause } })
  recordFails s g r.pc (failLanes g fs) 0 r.lanes r.kind r.size false

/-- A refused remote store waits to be sent again: nothing else of the group is ahead of it. -/
def refusedEntry (u : UalReq) (a : LaneAcc) : StoreEntry :=
  { id := u.op, pc := u.pc, split := u.split, kind := .store, accs := [a], order := 0, scope := 0, uniform := u.uniform, size := u.size }

/-- REPLAY of an entry of a group: an acquire at device scope for the lanes it re-performs (R132, R221). -/
def replayEntry (s : State) (gid : Nat) (r : Replay) : State :=
  match mget s.groups gid with
  | none => s
  | some g =>
    let s0 := acquireAt s g 4
    match r.what with
    | .prod id =>
      match g.prods.find? (fun p => p.id == id) with
      | some p =>
        match p.kind with
        | .load signed accs => performLoad s0 gid p signed accs r.lanes
        | _ => s0
      | none => s0
    | .store => performHead s0 gid r.lanes
    | .copy id => replayCopy s0 gid id
    | .uniform j => replayUniform s0 gid g r j
    | .atomic => replayAtomic s0 gid g r
    | .scratch => replayScratch s0 g r

/-! ### A peer refuses (R222, R399) -/

/-- A refused write of a sequencer (R312): the sequencer's record, and the sequencer waits for REPLAY of the cell, which the
request's own data performs; then it goes on where it stood. -/
def refuseSeq (s : State) (u : UalReq) : State :=
  let row := min u.lane 63
  let s1 := emitRecord s u.part (faultRec u.pc evProtection (recFlags false false false true false true true) 0 u.ctx
    0 0 (bitMask row) u.va.toNat u.coreid u.slot u.gindex (1 + u.size * 2 ^ 8))
  modTeam s1 u.team (fun t => { t with seq := t.seq.map (fun q =>
    if q.ended then q
    else
      { q with
        wait := .fault
        unfinished := some { pc := u.pc, kind := 3, e := u.size, base := u.va.toInt, rows := [u.lane], order := 0, scope := 0
                             val := BitVec.ofNat 64 (leNat u.data), cause := evProtection, bad := u.poisoned
                             back := some (q.pc, q.wait) } }) })

/-- A refused store goes back to the head of its group's queue as the unfinished lane of a record with REMOTE set, beside
the other refused lanes of its instruction; after exit its cause is STORE_AFTER_EXIT (R222). -/
def refuseStore (s : State) (u : UalReq) : State :=
  match mget s.groups u.gid with
  | none =>
    if u.gid = 0 then
      -- an engine's write has no record (log entry 81)
      if u.pc = 0 then s else refuseSeq s u
    else
    -- the group's slot is free: the record comes from the request's own tag
    emitRecord s u.part (faultRec u.pc evStoreAfterExit (recFlags true false false true false true u.uniform) 0 u.ctx
      u.serial 0 (bitMask u.lane) u.va.toNat u.coreid u.slot u.gindex (evProtection + 2 ^ 8))
  | some g =>
    let a : LaneAcc := { lane := u.lane, addr := u.va, size := u.data.length, data := BitVec.ofNat 128 (leNat u.data) }
    let e : StoreEntry := refusedEntry u a
    let rep : Replay :=
      { what := .store, id := u.op, pc := u.pc, lanes := bitMask u.lane, cause := evProtection, kind := 1, size := u.size
        uniform := u.uniform, split := u.split, accs := [a] }
    let s1 := modGroup s u.gid (fun g => match g.replayG with
      | none => { g with storeQ := e :: g.storeQ, replayG := some rep }
      | some r => { g with
          storeQ := updFirst (fun x => x.id == u.op) (fun x => { x with accs := x.accs ++ [a] }) g.storeQ
          replayG := some { r with lanes := r.lanes ||| rep.lanes, accs := r.accs ++ [a] } })
    recordFails s1 g u.pc [{ lane := u.lane, addr := u.va, fail := { cause := evProtection, remote := true } }] 0
      (bitMask u.lane) 1 u.size u.uniform

/-- A refused write waits to be taken back: the replay entry of its group holds another access, or its sequencer waits for
REPLAY already (R220, R312). -/
def refusalWaits (s : State) (u : UalReq) : Bool :=
  match mget s.groups u.gid with
  | some g => (match g.replayG with | some r => !(r.what == .store && r.id == u.op) | none => false)
  | none => u.gid = 0 && (match (mget s.teams u.team).bind (·.seq) with | some q => q.unfinished.isSome | none => false)

/-- An error response arrives for a request (R399). -/
def errorResponse (s : State) (request : Nat) : State :=
  match s.ual.find? (fun u => u.id == request) with
  | none => s
  | some u =>
    if u.kind = 1 && refusalWaits s u then s else
    let off : State := { s with ual := s.ual.filter (fun x => x.id != request) }
    match u.kind, u.req with
    | 0, _ => { s with ual := updFirst (fun x => x.id == request) (fun x => { x with refused := true }) s.ual }
    | 2, some r => finishAtom (failAtomic off r { cause := evProtection, remote := true }) u.gid u.op
    | _, _ => refuseStore off u

/-- A request of this package is performed at a peer's home (R133). -/
def peerPerforms (s : State) (request : Nat) : State :=
  match s.ual.find? (fun u => u.id == request && readyBit s 7 u.port) with
  | none => s
  | some u =>
    if u.refused then s else peerInOrder s u

end Sys2Proof.Machine
end

