-- ==== Sys2Proof/Machine/Memory.lean ====
section
/-!
DEFINITION. The memory instructions: majors 0x30 to 0x36 (spec/13), and the steps in which their accesses are
performed.
-/
namespace Sys2Proof.Machine

/-! ### Loads: major 0x30 -/

/-- A read of `n` bytes on its way to a peer (R133). -/
def sendRead (s : State) (c : Iss) (op lane : Nat) (va : BitVec 64) (pa n : Nat) : State :=
  { s with
    ual := s.ual ++ [{ id := s.nextOp, port := ualPort pa, gid := c.gid, pc := c.sp.pc, va, pa, kind := 0, op, split := c.j
                       lane, size := n, ctx := c.g.ctx, part := c.g.part, serial := c.g.serial }]
    nextOp := s.nextOp + 1 }

/-- The reads of an access that go to a peer: one of an access aligned to its size, else one of each byte (R129). -/
def sendReads (s : State) (c : Iss) (op : Nat) (a : LaneAcc) : State :=
  match accRuns s (accessorOf c.g) a .r with
  | .error _ => s
  | .ok runs =>
    (runs.foldl (fun (r : State × Nat) x =>
      let at_ (i : Nat) : BitVec 64 := a.addr + BitVec.ofNat 64 (r.2 + i)
      (if !isRemote x.1.pa then r.1
       else if alignedAcc a then sendRead r.1 c op a.lane (at_ 0) x.1.pa x.2
       else (List.range x.2).foldl (fun st i => sendRead st c op a.lane (at_ i) (x.1.pa + i) 1) r.1, r.2 + x.2)) (s, 0)).1

/-- A load of accesses enters flight (R153, R224): its registers go empty and its counter rises. Reads that go to a
peer are sent. -/
def launchLoad (scratch signed uniform : Bool) (accs : List LaneAcc) (nregs size : Nat) (c : Iss) (s : State) : State :=
  let (id, s1) := fresh s
  let d := c.x.d.idx
  let p : Producer :=
    { id, pc := c.sp.pc, split := c.j, kind := if scratch then .loadS signed accs else .load signed accs, d, nregs
      size, lanes := c.all, counter := some c.x.kf, order := c.x.order, scope := c.x.scope, uniform
      h1 := c.x.h1.toNat, h2 := c.x.h2.toNat }
  let s2 := onGroup s1 c (fun g =>
    kput (markEmpty { g with prods := g.prods ++ [p] } d nregs) c.x.kf (kget g c.x.kf + 1))
  let s3 := if scratch then s2 else (primAccs c.g accs).foldl (fun st a => sendReads st c id a) s2
  let s4 := advance s3 c
  -- the one address of a uniform load cannot be formed: its split issues nothing until REPLAY (R218)
  if uniform && accs.any (·.bad) then waitAs s4 c .fault else s4

/-- LD (R224). -/
def execLd (x : Enc) (s : State) : Out :=
  issue .ld x s (fun c s =>
    if c.g.replayG.isSome || kget c.g x.kf = 255 then s
    else launchLoad false (x.ty == .i32) false (laneAccs c .ix x.simm x.bytes 1 x.d.idx c.all) x.memRegs x.bytes c s)

/-- LDB (R226). -/
def execLdb (x : Enc) (s : State) : Out :=
  issue .ldb x s (fun c s =>
    if c.g.replayG.isSome || kget c.g x.kf = 255 then s
    else launchLoad false false true (blockAccs c x.d.idx c.all) x.nb (4 * x.nb) c s)

/-- The scratchpad accesses of a word, in ascending lane order (R213, R216). -/
def scratchAccs (c : Iss) (size d : Nat) (lanes : BitVec 64) : List LaneAcc :=
  (lanesOf lanes).map (fun l => scratchAt l (exactAddr c.g c.x .one c.x.simm l) size d)

/-- LDS (R227). -/
def execLds (x : Enc) (s : State) : Out :=
  issue .lds x s (fun c s =>
    if c.g.replayS.isSome || kget c.g x.kf = 255 then s
    else launchLoad true (x.ty == .i32) false (scratchAccs c x.bytes x.d.idx c.all) x.memRegs x.bytes c s)

/-! ### Stores: major 0x31 -/

/-- ST (R225). -/
def execSt (x : Enc) (s : State) : Out :=
  issue .st x s (fun c s =>
    issueStore c s ((laneAccs c .ix x.simm x.bytes 1 0 c.all).map (fun a =>
      { a with data := (storeData c.g x a.lane x.c).extractLsb' 0 128 &&& BitVec.ofNat 128 (2 ^ (8 * x.bytes) - 1) })) false)

/-- STB (R226). -/
def execStb (x : Enc) (s : State) : Out :=
  issue .stb x s (fun c s =>
    issueStore c s ((blockAccs c x.c.idx c.all).map (fun a =>
      { a with data := (vget c.g a.reg a.lane).setWidth 128, reg := 0 })) true)

/-- An earlier scratchpad load of the group is still to be performed (R115), or an acquire (R125). -/
def earlierScratch (g : Group) : Bool := g.prods.any (fun p => isScratchLoad p || isAcquire p.order)

/-- The accesses of a scratchpad store or atomic wait: for an earlier scratchpad access, for REPLAY or for a line. -/
def scratchHolds (s : State) (c : Iss) (accs : List LaneAcc) : Bool :=
  c.g.replayS.isSome || earlierScratch c.g ||
    (match teamOf s c.g with
     | some t => scratchWaits t accs
     | none => true)

/-- The replay entry of failing scratchpad lanes, and their record (R218, R220). -/
def scratchFails (s : State) (c : Iss) (fs : List FailAt) (done : BitVec 64) (kind size : Nat) : State :=
  match fs with
  | [] => s
  | f :: _ =>
    let unf := failMask c.g fs
    let rep : Replay :=
      { what := .scratch, id := s.nextOp, pc := c.sp.pc, lanes := unf, cause := f.fail.cause, kind, size
        accs := fs.map (fun x => { lane := x.lane, addr := x.addr, size }) }
    recordFails (onGroup s c (fun g => { g with replayS := some rep })) c.g c.sp.pc fs done unf kind size false

/-- STS (R115, R227): its failing lanes are known at issue; the others are performed by parts (R129), all before the
group's next instruction. A release orders the group's earlier accesses before it: it waits for them (R125). -/
def execSts (x : Enc) (s : State) : Out :=
  issue .sts x s (fun c s =>
    let s := finishScratch s c.gid
    let accs := (scratchAccs c x.bytes 0 c.all).map (fun a => { a with data := storeData c.g x a.lane x.c })
    let prim := primAccs c.g accs
    let (fires, s1) := injectStore s c
    let rel := releaseScope s c.g x.order (min x.scope 1)
    if scratchHolds s c prim then s
    else if rel.isSome && (!orderedNow s c.gid c.g || releaseHolds s c.g rel) then s
    else if storeDiffers c fires accs ≠ 0 then liningMismatch s1 c (storeDiffers c fires accs)
    else
      match teamOf s1 c.g with
      | none => s
      | some t =>
        let s2 := releaseBy s1 c.g rel
        let ok := prim.filter (inWindow t)
        let (op, s2) := fresh s2
        let s3 := onGroup s2 c (fun g => { g with sts := if ok.isEmpty then none else some (op, ok) })
        let fs : List FailAt := (prim.filter (fun a => !inWindow t a)).map
          (fun a => { lane := a.lane, addr := a.addr, fail := { cause := evScratchBound } })
        advance (scratchFails s3 c fs (maskOf (ok.map (·.lane))) 1 x.bytes) c)

/-! ### Copies: major 0x32 -/

/-- CPA.S (R231). -/
def execCpaS (x : Enc) (s : State) : Out := issue .cpaS x s (issueCpa .scratch false)

/-- CPA.G (R231). -/
def execCpaG (x : Enc) (s : State) : Out := issue .cpaG x s issueCpaG

/-- A slot index at or beyond SLOTS raises ILLEGAL_OPERAND (R295). -/
def withSlot (o : Nat) (f : Team → Iss → State → State) (c : Iss) (s : State) : State :=
  match teamOf s c.g with
  | none => s
  | some t => if t.launch.slots ≤ o then raiseIss s c evIllegalOperand c.sp.mask 0 else f t c s

/-- CPA.O (R231). -/
def execCpaO (x : Enc) (s : State) : Out :=
  issue .cpaO x s (withSlot x.d.idx (fun t c s => issueCpa (.slot (sideOf t c.g) x.d.idx) (x.bit 6) c s))

/-- CPT.S (R232). -/
def execCptS (x : Enc) (s : State) : Out :=
  issue .cptS x s (fun c s => issueCpt .scratch (fun k => (uniOperand c.g x k x.c).toInt) c s)

/-- CPT.O (R232). -/
def execCptO (x : Enc) (s : State) : Out :=
  issue .cptO x s (withSlot x.d.idx (fun t c s => issueCpt (.slot (sideOf t c.g) x.d.idx) (fun _ => 0) c s))

/-- COPY_PART_LAND (R130). -/
def execCopyPartLand (copy part : Nat) (s : State) : Out := stepEvent s (fun s => landPart s copy part)

/-! ### Arrival counters: major 0x33 -/

/-- The count of WAITK and KSET in a copy: bits 7:0 of a scalar, or the immediate. -/
def countOperand (c : Iss) (k : Nat) (y : Operand) : Nat := (uniOperand c.g c.x k y).toNat % 256

/-- WAITK (R229). -/
def execWaitk (x : Enc) (s : State) : Out :=
  issue .waitk x s (fun c s =>
    if x.b.isImm && 255 < x.imm.toNat then raiseIss s c evIllegalOperand c.sp.mask 0
    else if kget c.g x.a.idx ≤ countOperand c 0 x.b then advance s c else s)

/-- KSET (R229). -/
def execKset (x : Enc) (s : State) : Out :=
  issue .kset x s (fun c s =>
    if x.a.isImm && 255 < x.imm.toNat then raiseIss s c evIllegalOperand c.sp.mask 0
    else if kget c.g x.d.idx = 0 then advance (onGroup s c (fun g => kput g x.d.idx (countOperand c 0 x.a))) c else s)

/-- KGET (R229). -/
def execKget (x : Enc) (s : State) : Out :=
  issue .kget x s (writeD .one (fun c _ => BitVec.ofNat 64 (kget c.g x.a.idx)))

/-! ### Atomics: major 0x34 -/

/-- ATOM (R235). -/
def execAtom (x : Enc) (s : State) : Out := issue .atom x s (issueAtom (some x.d.idx))

/-- ATOMS (R115, R235). -/
def execAtoms (x : Enc) (s : State) : Out :=
  issue .atoms x s (fun c s =>
    let n := if x.ty.is64 then 8 else 4
    let accs := (scratchAccs c n x.d.idx c.all).map (fun a =>
      { a with data := typed x.ty (srcC c a.lane) ++ casOperand c a.lane })
    let prim := primAccs c.g accs
    let rel := releaseScope s c.g x.order x.scope
    let differ := lanesDiffer c.g prim (shadowAccs c.g accs)
    if scratchHolds s c prim then s
    else if rel.isSome && (!orderedNow s c.gid c.g || releaseHolds s c.g rel) then s
    else if differ ≠ 0 then liningMismatch s c differ
    else
      match teamOf s c.g with
      | none => s
      | some t =>
        let s1 := releaseBy s c.g rel
        let r := prim.foldl (fun (r : Team × List (LaneAcc × Except Fail (BitVec 64 × Bool))) a =>
          match atomScratch c r.1 a with
          | .error f => (r.1, r.2 ++ [(a, .error f)])
          | .ok (old, bad, t') => (t', r.2 ++ [(a, .ok (old, bad))])) (t, [])
        let s2 := { s1 with teams := mput s1.teams c.g.team r.1 }
        let fs : List FailAt := r.2.filterMap (fun e => match e.2 with
          | .error f => some { lane := e.1.lane, addr := e.1.addr, fail := f }
          | .ok _ => none)
        let accept := acceptOf s c.g
        let bad := r.2.filterMap (fun e => match e.2 with
          | .ok (_, true) => some (e.1.lane, e.1.addr)
          | _ => none)
        let pend := if accept.isSome then 0 else maskOf (bad.map (·.1))
        let done := maskOf (r.2.filterMap (fun e => match e.2 with
          | .ok (_, b) => if b && accept.isNone then none else some e.1.lane
          | .error _ => none))
        let d := x.d.idx
        let nregs := n / 4
        let (op, s3) := fresh s2
        let s4 := onGroup s3 c (fun g =>
          let g1 := r.2.foldl (fun g e => match e.2 with
            | .ok (old, false) => writeOld g d x.ty.is64 e.1.lane old
            | .ok (_, true) =>
              match accept with
              | some pv => writeOld g d x.ty.is64 e.1.lane (pv ++ pv)
              | none => g
            | .error _ => g) g
          let g2 := if pend = 0 then g1 else
            { g1 with pend := g1.pend ++ [{ d, nregs, lanes := pend, counter := none, op }] }
          if pend = 0 && fs.isEmpty then markFull g2 d nregs else markEmpty g2 d nregs)
        let s5 := advance (scratchFails s4 c fs done 2 n) c
        let s6 := if isAcquire x.order then acquireAt s5 c.g x.scope else s5
        let s7 := if accept.isSome then countPoison s6 c.g (nregs * bad.length) else s6
        if pend = 0 then s7 else raisePoison s7 c.gid c.j c.sp.pc true pend d nregs 2 bad op)

/-- RED (R235). -/
def execRed (x : Enc) (s : State) : Out := issue .red x s (issueAtom none)

/-! ### Deques and monitors: major 0x35 -/

/-- DQPUSH (R237). -/
def execDqpush (x : Enc) (s : State) : Out :=
  issue .dqpush x s (fun c s => issueUniform (.deque .push (uniOperand c.g x 0 x.c) x.d.idx 0) 32 32 2 .rw c s)
/-- DQPOP (R237). -/
def execDqpop (x : Enc) (s : State) : Out :=
  issue .dqpop x s (issueUniform (.deque .pop 0 x.d.idx x.e.idx) 32 32 2 .rw)
/-- DQSTEAL (R237). -/
def execDqsteal (x : Enc) (s : State) : Out :=
  issue .dqsteal x s (issueUniform (.deque .steal 0 x.d.idx x.e.idx) 32 32 2 .rw)
/-- MONARM (R239). -/
def execMonarm (x : Enc) (s : State) : Out :=
  issue .monarm x s (issueUniform (.monarm (x.bits 0 2) x.d.idx) 8 8 7 .r)

/-- The monitors of a mask that have fired (R240). -/
def firedMask (g : Group) (mask : Nat) : Nat :=
  g.mons.foldl (fun n m => if m.2.fired && mask / 2 ^ m.1 % 2 = 1 then n + 2 ^ m.1 else n) 0

/-- MONWAIT is complete (R240): sd receives the fired monitors, which are disarmed; a result that is not zero acquires
at device scope. -/
def finishMonwait (s : State) (gid j d fired : Nat) : State :=
  let s1 := modGroup s gid (fun g =>
    { putScalar g d (fun _ => BitVec.ofNat 64 fired) with
      mons := g.mons.filter (fun m => fired / 2 ^ m.1 % 2 = 0)
      splits := mmod g.splits j (fun sp => sp.onward s.clk (sp.pc + 1)) })
  match mget s1.groups gid with
  | none => s1
  | some g => if fired = 0 then s1 else acquireAt s1 g 4

/-- MONWAIT (R240). One that was waiting when its group stopped completes with the fired bits of its cloak, and goes on
waiting where there is none, with its timeout counted anew (R241; log entry 62). -/
def execMonwait (x : Enc) (s : State) : Out :=
  issue .monwait x s (fun c s =>
    let mask := x.bits 0 4
    let fired := firedMask c.g mask
    let armed := c.g.mons.any (fun m => mask / 2 ^ m.1 % 2 = 1)
    if c.g.lined && uniOperand c.g x 0 x.a != uniOperand c.g x 1 x.a then liningMismatch s c c.sp.mask
    else if fired ≠ 0 || !armed then
      finishMonwait (modSplit s c.gid c.j (fun sp => { sp with yld := x.yld })) c.gid c.j x.d.idx fired
    else
      match c.sp.wait with
      | .mon _ _ => s
      | _ =>
        let t := (uniOperand c.g x 0 x.a).toNat % 2 ^ 32
        waitAs s c (.mon (BitVec.ofNat 4 mask) (if t = 0 then none else some (s.clk + t))))

/-- MONWAIT_TIMEOUT (R240): the timeout of a split's MONWAIT has expired. -/
def execMonwaitTimeout (gid split : Nat) (s : State) : Out :=
  stepEvent s (fun s =>
    match mget s.groups gid with
    | none => s
    | some g =>
      match mget g.splits split with
      | none => s
      | some sp =>
        match sp.wait with
        | .mon mask (some u) =>
          if s.clk < u then s
          else
            match sp.issued with
            | some (.monwait, x) => finishMonwait s gid split x.d.idx (firedMask g mask.toNat)
            | _ => s
        | _ => s)

/-! ### Fences and cache maintenance: major 0x36 -/

/-- FENCE (R128, R242): it waits until the earlier accesses that it orders are performed. -/
def execFence (x : Enc) (s : State) : Out :=
  issue .fence x s (fun c s =>
    let rel := isRelease x.order
    if earlierReads s c.gid c.g s.nextOp || earlierScratch c.g || c.g.replayG.isSome ||
        (rel && (!c.g.storeQ.isEmpty || releaseWaits s c.g x.scope)) then s
    else
      let s1 := if rel then releaseAt s c.g x.scope else s
      let s2 := if isAcquire x.order then acquireAt s1 c.g x.scope else s1
      let s3 := if rel then onGroup s2 c (fun g => { g with
        fenceRel := some (match g.fenceRel with | some f => joinScope s c.g x.scope f | none => x.scope) }) else s2
      advance s3 c)

/-- PREF (R243): the lines that translate are brought nearer; any failure drops the prefetch. -/
def execPref (x : Enc) (s : State) : Out :=
  issue .pref x s (fun c s =>
    let accs := laneAccs c .ix x.simm 1 1 0 c.act
    if !accs.all (accReady s (accessorOf c.g) false) then s
    else
    advance (accs.foldl (fun st a =>
      let st := touchAcc st (accessorOf c.g) a
      match accRuns st (accessorOf c.g) a .r with
      | .error _ => st
      | .ok runs => (segsOf runs).foldl (fun st sg =>
          if sg.window then st
          else
            let st1 := (l1View st c.g.core c.g.part c.g.ctx (chainOf st c.g) sg.line sg.cpol x.h1.toNat x.h2.toNat).2.2
            if sg.cpol = 0 then l1Hint st1 c.g.core sg.line x.h1.toNat else st1) st) s) c)

/-- The accesses of a cache operation: one line a lane. R216's range check, which CWB, CINV and PREF need for a size that
they do not have, takes one byte (DESIGN CHOICE, log entry 94). -/
def lineAccs (c : Iss) : List LaneAcc := laneAccs c .ix c.x.simm 1 1 0 c.all

/-- CWB (R244). -/
def execCwb (x : Enc) (s : State) : Out := issue .cwb x s (fun c s => issueCache (.cwb (x.bit 0)) c s (lineAccs c))
/-- CWB with ALL (R244). -/
def execCwbAll (x : Enc) (s : State) : Out := issue .cwbAll x s (fun c s => issueCache (.cwbAll (x.bit 0)) c s [])
/-- CINV (R244). -/
def execCinv (x : Enc) (s : State) : Out := issue .cinv x s (fun c s => issueCache (.cinv (x.bit 0)) c s (lineAccs c))
/-- CINV with ALL (R244). -/
def execCinvAll (x : Enc) (s : State) : Out := issue .cinvAll x s (fun c s => issueCache (.cinvAll (x.bit 0)) c s [])

/-! ### The steps of the memory side -/

/-- REGISTER_WRITE_BACK (R153). -/
def execRegisterWriteBack (gid producer : Nat) (s : State) : Out := stepEvent s (fun s => writeBack s gid producer)

/-- STORE_QUEUE_DRAIN (R222). -/
def execStoreQueueDrain (gid : Nat) (s : State) : Out := stepEvent s (fun s => drainStore s gid)

/-- DIRTY_LINE_TIMEOUT (R116); a line whose way is not ready waits (R431). -/
def execDirtyLineTimeout (core line : Nat) (s : State) : Out :=
  stepEvent s (fun s => if lineReady s core line then l1WriteBack s core line else s)

/-- PAGE_WALK (R109, R110): a walk that ends with a translation is kept in the TLBs; one that fails is not. -/
def execPageWalk (core part ctx : Nat) (va : BitVec 64) (s : State) : Out :=
  stepEvent s (fun s => touchTlb s core part ctx va)

/-- UALINK_ERROR_RESPONSE (R222, R399). -/
def execUalinkErrorResponse (request : Nat) (s : State) : Out := stepEvent s (fun s => errorResponse s request)

end Sys2Proof.Machine
end

