-- ==== Sys2Proof/Machine/Splits.lean ====
section
/-!
DEFINITION. Splits: division, merging, the overflow stack, and lanes that exit (R34 to R38, R140, R261).
-/
namespace Sys2Proof.Machine

/-! ### The split table and the overflow stack -/

/-- The lowest free entry of the split table. -/
def freeEntry (m : Amap Split) : Option Nat := (List.range 4).find? (fun i => (mget m i).isNone)

/-- Moves the top of the overflow stack into free entries (R37). -/
def refill (g : Group) : Nat → Group
  | 0 => g
  | n + 1 =>
    match freeEntry g.splits, g.ovf with
    | some i, sp :: rest => refill { g with splits := mput g.splits i sp, ovf := rest } n
    | _, _ => g

/-- Where all four entries are parked, the highest one is exchanged with the top of the overflow stack (R37; log entry
30). -/
def exchange (g : Group) : Group :=
  if g.splits.length = 4 && g.splits.all (fun e => e.2.parked) then
    match g.ovf, mget g.splits 3 with
    | sp :: rest, some old => { g with splits := mput g.splits 3 sp, ovf := old :: rest }
    | _, _ => g
  else g

/-- The split table after entries fell free or splits parked (R37). -/
def settle (g : Group) : Group := exchange (refill g 4)

/-- Pushes a reconvergence target: none where the top is it already; a full stack discards its oldest (R35). -/
def pushTarget (st : List Pc) (t : Pc) : List Pc := if st.head? = some t then st else (t :: st).take 8

/-- Changes an entry of the overflow stack or of the table; the parts of a division that find no free entry go on
the stack, the last one on top. -/
def addSplits (g : Group) : List Split → Group
  | [] => g
  | sp :: rest =>
    match freeEntry g.splits with
    | some i => addSplits { g with splits := mput g.splits i sp } rest
    | none => addSplits { g with ovf := sp :: g.ovf } rest

/-- Writes 64 bytes that the spec does not give into the private block of a group, as stores of its core. DESIGN CHOICE (log
entry 93): nothing is written where they do not translate, or lie in a peer's memory or in the register window. -/
def writeOpenBytes (s : State) (g : Group) (off : Nat) : State :=
  let va := g.priv + BitVec.ofNat 64 off
  match reach s (accessorOf g) va 64 .w with
  | .error _ => s
  | .ok p =>
    let bs := (List.range 8).flatMap (fun k => leBytes 8 (Config.freeValue (s.draws + k)).toNat)
    if isRemote p.pa || p.window then { s with draws := s.draws + 8 }
    else coreStore { s with draws := s.draws + 8 } g.core g.part g.ctx (chainOf s g) p.pa p.cpol 0 0 bs

/-- The overflow stack lies in the last 1,024 bytes of the private block (R34): an entry that has been written since the
stack was `old` holds bytes whose format is not architected. -/
def spilled (s : State) (gid : Nat) (old : List Split) : State :=
  match mget s.groups gid with
  | none => s
  | some g =>
    ((List.range g.ovf.length).filter (fun k => g.ovf.reverse[k]? != old.reverse[k]?)).foldl
      (fun st k => writeOpenBytes st g (g.privSize - 1024 + 64 * k)) s

/-- The entries of the overflow stack that a handler may use: none (R357). -/
def ovfRoom (g : Group) : Nat := if g.aside.isSome then 0 else 16

/-! ### Transfers (R35, R261) -/

/-- Partitions lanes by target, in ascending order of the lowest lane of each part. -/
def partition_ (next : Nat → Pc) : List Nat → List (Pc × BitVec 64)
  | [] => []
  | l :: ls =>
    let rest := partition_ next ls
    let t := next l
    let mine := match rest.find? (fun p => p.1 == t) with
      | some p => p.2
      | none => 0
    (t, mine ||| bitMask l) :: rest.filter (fun p => p.1 != t)

/-- The target that the header of the dividing block names for reconvergence (R35, Table 9.2). -/
def reconvOf (s : State) (g : Group) (pc : Pc) : Option Pc :=
  let (w, h) := headerOf s g.core g.part g.ctx pc
  let r := hdrReconv w
  if r = 0 then none else some (mkPc (pcOverlay pc) ((h : Int) + r).toNat)

/-- The lanes of the issuing split go to their targets (R35): together, or divided. `pre` is what the instruction writes
beside; nothing is written where the division does not fit (R354). -/
def transfer (s : State) (c : Iss) (next : Nat → Pc) (pre : Group → Group) : State :=
  match partition_ next (lanesOf c.sp.mask) with
  | [] => s
  | [(t, _)] => goOn (onGroup s c pre) c t
  | (t, m) :: others =>
    match mget s.groups c.gid with
    | none => s
    | some g =>
      let free := 4 - g.splits.length
      if ovfRoom g < g.ovf.length + (others.length - free) then raiseIss s c evSplitOverflow c.sp.mask 0
      else
        let stack := match reconvOf s g c.sp.pc with
          | some r => pushTarget c.sp.stack r
          | none => c.sp.stack
        let part (t : Pc) (m : BitVec 64) : Split :=
          Split.onward { c.sp with mask := m, stack, yld := c.x.yld } s.clk t
        spilled (modGroup s c.gid (fun g =>
          let g := pre g
          settle (addSplits { g with splits := mput g.splits c.j (part t m) } (others.map (fun o => part o.1 o.2))))) c.gid g.ovf

/-- Targets of the active lanes, checked before any lane transfers (R140, R261); the copies of a lined group agree
(R251). `valid` tells whether a target may be entered. -/
def branch (s : State) (c : Iss) (target : Nat → Option Pc) (pre : Group → Group) : State :=
  let prim := lanesOf c.act
  let shadowMask := (lanesOf c.all).filter (fun l => copyOf c.g l == 1)
  let shadow := shadowMask.map (fun l => (laneIn c.g l, target l))
  let differ := if c.g.lined then maskOf ((List.range c.g.width).filter (fun l =>
    (prim.filter (· == l)).map (fun l => (l, target l)) != shadow.filter (fun e => e.1 == l))) else 0
  if differ ≠ 0 then liningMismatch s c differ
  else if prim.any (fun l => (target l).isNone) then raiseIss s c evBadTarget c.sp.mask 0
  else
    transfer s c (fun l => if c.act.getLsbD l then (target l).getD (c.sp.pc + 1) else c.sp.pc + 1) pre

/-- A code offset's target (R261). -/
def labelTarget (s : State) (c : Iss) : Option Pc := targetPc s c.g.core c.g.part c.g.ctx c.sp.pc c.x.simm

/-- An indirect target: a header of the current overlay (R140, R261). -/
def indirectTarget (s : State) (c : Iss) (v : BitVec 64) : Option Pc :=
  let t : Pc := v.extractLsb' 0 32
  if pcOverlay t = pcOverlay c.sp.pc && isHeaderPc s c.g.core c.g.part c.g.ctx t then some t else none

/-! ### Merging (R36) -/

/-- Every split of the group whose reconvergence stack holds the target is parked at it with it on top. -/
def mayMerge (g : Group) (t : Pc) : Bool :=
  let all := g.splits.map (·.2) ++ g.ovf
  let mine := all.filter (fun sp => sp.stack.contains t)
  !mine.isEmpty && mine.all (fun sp => sp.parked && sp.pc == t && sp.stack.head? == some t)

/-- The merge at a target: the union of the masks, in the lowest entry of the table, or in the place of the merging
split nearest the top of the overflow stack. DESIGN CHOICE (log entry 93): where their stacks differ below the target, the
merged split keeps that entry's. -/
def mergeAt (g : Group) (t : Pc) (clk : Nat) : Group :=
  if !mayMerge g t then g
  else
    let at_ (sp : Split) : Bool := sp.stack.contains t
    let res := g.splits.filter (fun e => at_ e.2)
    let stk := g.ovf.filter at_
    let masks := (res.map (·.2) ++ stk).foldl (fun m sp => m ||| sp.mask) 0
    match res, stk with
    | (i, sp) :: _, _ =>
      let m := { sp with mask := masks, stack := sp.stack.drop 1, parked := false, age := clk + 1 }
      settle { g with splits := mput (g.splits.filter (fun e => !at_ e.2)) i m, ovf := g.ovf.filter (fun x => !at_ x) }
    | [], sp :: _ =>
      let m := { sp with mask := masks, stack := sp.stack.drop 1, parked := false, age := clk + 1 }
      let k := (g.ovf.findIdx? at_).getD 0
      let before := (g.ovf.take k)
      let after := (g.ovf.drop k).filter (fun x => !at_ x)
      settle { g with ovf := before ++ m :: after }
    | [], [] => g

/-- SPLIT_MERGE (R36). -/
def execSplitMerge (gid : Nat) (target : BitVec 32) (s : State) : Out :=
  stepEvent s (fun s =>
    match mget s.groups gid with
    | none => s
    | some g => spilled (modGroup s gid (fun g => mergeAt g target s.clk)) gid g.ovf)

/-! ### Lanes that leave (R38) -/

/-- Removes lanes from every mask of a group. -/
def dropLanes (g : Group) (m : BitVec 64) : Group :=
  let keep (sp : Split) : Split := { sp with mask := sp.mask &&& ~~~ m }
  settle { g with
    live := g.live &&& ~~~ m
    splits := (g.splits.map (fun e => (e.1, keep e.2))).filter (fun e => e.2.mask != 0)
    ovf := (g.ovf.map keep).filter (fun sp => sp.mask != 0) }

end Sys2Proof.Machine
end

