-- ==== Sys2Proof/Machine/Control.lean ====
section
/-!
DEFINITION. System instructions, branches and calls, predicates and split control: majors 0x00 to 0x03 and 0x05
(R253 to R263, R273, R274). EXIT and REPLAY stand in Leave.lean, the overlay instructions in Overlay.lean.
-/
namespace Sys2Proof.Machine

/-! ### Waiting instructions (R253) -/

/-- NOP (R253). -/
def execNop (x : Enc) (s : State) : Out := issue .nop x s (fun c s => advance s c)

/-- YIELD (R253): it acts as YLD = 1. -/
def execYield (x : Enc) (s : State) : Out := issue .yield x s (fun c s => advance s c)

/-- SLEEP (R253): the split is not ready for n clk after issue. -/
def execSleep (x : Enc) (s : State) : Out :=
  issue .sleep x s (fun c s =>
    let n := (uniOperand c.g x 0 x.a).toNat % 2 ^ 32
    if n = 0 then advance s c
    else modSplit (advance s c) c.gid c.j (fun sp => { sp with readyAt := max sp.readyAt (s.clk + 1 + n) }))

/-! ### TRAP and TRET (R255, R256, R358) -/

/-- TRAP (R255): the event of the code, with FLAGS.SOFT. -/
def execTrap (x : Enc) (s : State) : Out :=
  issue .trap x s (fun c s =>
    raise s c.gid { code := x.imm.toNat, precise := true, split := c.j, epc := c.sp.pc, lanes := c.sp.mask, info := 0
                    info2 := 0, soft := true, op := s.nextOp })

/-- A pending register of poisoned lanes belongs to an event that is still to be delivered. -/
def pendQueued (g : Group) (p : PoisonPend) : Bool :=
  g.events.any (fun e => e.code == evPoison && e.op == p.op &&
    bits e.info.toNat 0 8 ≤ p.d && p.d < bits e.info.toNat 0 8 + bits e.info.toNat 8 8)

/-- TRET with an RPC (R358): it must be one that TRET accepts. -/
def tretTo (s : State) (c : Iss) (rpc : Pc) : State :=
  match mget s.groups c.gid with
  | none => s
  | some g =>
    match g.aside with
    | none => s
    | some a =>
      if rpcOk s g a rpc then spilled (modGroup s c.gid (fun g => settle (leaveHandler g a rpc s.clk))) c.gid a.ovf
      else raiseIss s c evBadTarget c.sp.mask 0

/-- TRET (R256, R358): a POISON lane still pending escalates (R325); RPC is read from the event frame as a load of the
group. -/
def execTret (x : Enc) (s : State) : Out :=
  issue .tret x s (fun c s =>
    if c.g.pend.any (fun p => p.lanes != 0 && !pendQueued c.g p) then haltGroup s c.gid evPoison c.sp.pc c.sp.mask 0
    else if c.g.replayG.isSome || earlierReads s c.gid c.g s.nextOp then s
    else
      let a := c.g.priv + 8
      match readAcc s c.gid s.nextOp 0 0 (accAt 0 a.toInt 4 4 0) with
      | (.error f, s1) => uniformFail s1 c.gid c.j s1.nextOp c.sp.pc a f 0 4
      | (.ok f, s1) =>
        if f.poisoned then haltGroup s1 c.gid evPoison c.sp.pc c.sp.mask 0
        else tretTo s1 c (BitVec.ofNat 32 (leNat f.bytes)))

/-! ### Special registers (R257, Table 9.5) -/

/-- The code of a region's state in %region (Table 15.6). -/
def regionCode : RegionSt → Nat
  | .none => 0
  | .waiting => 1
  | .opened => 2
  | .committing => 3
  | .aborted => 4

/-- %region (Table 15.6). -/
def regionReg (r : Region) : BitVec 64 :=
  let b := if r.st == .opened then r.budget else 0
  BitVec.ofNat 64 (regionCode r.st + b * 2 ^ 16 + r.held.length * 2 ^ 32)

/-- The value of a special register in a lane (Table 9.5); a reserve-core job reads the original's identity (R28). -/
def specialReg (s : State) (g : Group) (j l i : Nat) : BitVec 64 :=
  let o := identOf s g
  let team (f : Team → BitVec 64) : BitVec 64 := match teamOf s g with | some t => f t | none => 0
  match i with
  | 0x00 => BitVec.ofNat 64 (laneIn g l)
  | 0x01 => BitVec.ofNat 64 g.index
  | 0x02 => team (·.teamid)
  | 0x03 => team (·.gridid)
  | 0x04 => BitVec.ofNat 64 (originCore s g)
  | 0x05 => BitVec.ofNat 64 (clusterOfCore o.core)
  | 0x06 => BitVec.ofNat 64 g.part
  | 0x07 => BitVec.ofNat 64 s.clk
  | 0x08 => g.fpctl.setWidth 64
  | 0x09 => (flagsOf g (copyOf g l)).setWidth 64
  | 0x0A => regionReg g.region
  | 0x0B => BitVec.ofNat 64 j
  | 0x0C => g.gen.setWidth 64
  | _ => 0

/-- The index of a special register operand. -/
def srIndex : Operand → Nat
  | .sr i => i.toNat
  | _ => 0x3F

/-- A long-latency producer that the group has issued has not completed (R153, R173): an iterative operation or a load in
flight or with a lane that waits for PFIX, or a copy to a group. -/
def valuesInFlight (s : State) (gid : Nat) (g : Group) : Bool :=
  g.prods.any (fun p => match p.kind with | .deliver _ _ => false | _ => true) || g.pend.any (·.counter.isSome) ||
    s.copies.any (fun k => k.gid == gid && (match k.dst with | .group _ _ => true | _ => false))

/-- SRGET (R257). -/
def execSrget (x : Enc) (s : State) : Out :=
  issue .srget x s (fun c s =>
    let i := srIndex x.a
    if i = 0x09 && valuesInFlight s c.gid c.g then s
    else
      let f (l : Nat) : BitVec 64 := specialReg s c.g c.j l i
      match x.d with
      | .s k => advance (onGroup s c (fun g => putScalar g k.toNat (fun k => f (laneOfCopy c.g k)))) c
      | .v r => advance (onGroup s c (fun g => putLanes g r.toNat (x.ty == .n64) (lanesOf c.all) f)) c
      | _ => s)

/-- SRSET (R86, R257): a reserved bit that is not zero raises ILLEGAL_FIELD and changes nothing. -/
def execSrset (x : Enc) (s : State) : Out :=
  issue .srset x s (fun c s =>
    let v (k : Nat) : BitVec 64 := uniOperand c.g x k x.a
    if (copiesOf c.g).any (fun k => (v k).toNat / 32 != 0) then raiseIss s c evIllegalField c.sp.mask 0
    else if srIndex x.d = 0x08 then advance (onGroup s c (fun g => { g with fpctl := (v 0).extractLsb' 0 5 })) c
    else if valuesInFlight s c.gid c.g then s
    else
      advance (onGroup s c (fun g =>
        { g with fpflags := (v 0).extractLsb' 0 5
                 fpflagsSh := if g.lined then (v 1).extractLsb' 0 5 else g.fpflagsSh })) c)

/-! ### PFIX and ERRINJ (R259, R260) -/

/-- A pending entry after PFIX of `n` registers from `r` in lanes: one entry a register, without those that have no
lane left. -/
def fixPend (r n : Nat) (lanes : BitVec 64) (p : PoisonPend) : List PoisonPend :=
  ((List.range p.nregs).map (fun k =>
    { p with d := p.d + k, nregs := 1
             lanes := if r ≤ p.d + k && p.d + k < r + n then p.lanes &&& ~~~ lanes else p.lanes })).filter
    (fun q => q.lanes != 0)

/-- The POISON event that the handler runs for names the register (R259). -/
def pendNames (g : Group) (r : Nat) : Bool :=
  match g.aside with
  | some a => a.named.1 ≤ r && r < a.named.1 + a.named.2
  | none => false

/-- PoisonPending of a register, for the event being handled. -/
def pendLanes (g : Group) (r : Nat) : BitVec 64 :=
  g.pend.foldl (fun m p => if p.d ≤ r && r < p.d + p.nregs && !pendQueued g p then m ||| p.lanes else m) 0

/-- A producer of the group still fills the register: it has unfinished lanes. -/
def prodFills (g : Group) (r : Nat) : Bool := g.prods.any (fun p => p.d ≤ r && r < p.d + p.nregs)

/-- The group after PFIX writes register `r` in the active lanes that are pending (R259). -/
def fixReg (c : Iss) (r part : Nat) (g : Group) : Group :=
  let pending := pendLanes c.g r
  (lanesOf c.all).foldl (fun g l =>
    if pending.getLsbD (laneIn c.g l) then vset g r l ((srcA c l).extractLsb' (32 * part) 32) else g) g

/-- PFIX (R259). -/
def execPfix (x : Enc) (s : State) : Out :=
  issue .pfix x s (fun c s =>
    let r := x.d.idx
    let n := if x.ty == .n64 then 2 else 1
    if !(List.range n).all (fun k => pendNames c.g (r + k)) then raiseIss s c evIllegalOperand c.sp.mask 0
    else
      let g1 := fixReg c r 0 c.g
      let g2 := if n = 2 then fixReg c (r + 1) 1 g1 else g1
      let mine (p : PoisonPend) : Bool := p.d < r + n && r < p.d + p.nregs && !pendQueued c.g p
      let g3 := { g2 with pend := g2.pend.flatMap (fun p => if mine p then fixPend r n c.act p else [p]) }
      let g4 := (List.range n).foldl (fun g k => if prodFills g (r + k) then g else fillRegs g (r + k) 1) g3
      let ops := ((c.g.pend.filter mine).map (fun p => (p.op, p.counter))).eraseDups
      let g5 := ops.foldl (fun g o => finishCounter g o.1 o.2) g4
      let s1 := advance (onGroup s c (fun _ => g5)) c
      ops.foldl (fun st o =>
        match copyGet st o.1 with
        | none => st
        | some _ =>
          let left := (g5.pend.filter (fun p => p.op == o.1)).foldl (fun m p => m ||| p.lanes) 0
          settleCopy (modCopy st o.1 (fun k => { k with poisoned := left })) o.1) s1)

/-- ERRINJ (R260). -/
def execErrinj (x : Enc) (s : State) : Out :=
  issue .errinj x s (fun c s =>
    let n := (uniOperand c.g x 0 x.a).toNat
    if n = 0 || 2 ^ 16 ≤ n then raiseIss s c evIllegalOperand c.sp.mask 0
    else if c.g.width ≤ x.bits 4 6 || (x.bits 0 4 = 6 && !c.g.lined) then raiseIss s c evIllegalField c.sp.mask 0
    else
      advance (onGroup s c (fun g =>
        { g with inj := some { kind := x.bits 0 4, lane := x.bits 4 6, reg := x.bits 10 8, left := n } })) c)

/-! ### Branches (R262) -/

/-- The effect of BRA in a group (R262). -/
def braBody (c : Iss) (s : State) : State := branch s c (fun _ => labelTarget s c) id

/-- BRI (R262). -/
def execBri (x : Enc) (s : State) : Out :=
  issue .bri x s (fun c s => branch s c (fun l => indirectTarget s c (readOperand c.g x .one l x.a)) id)

/-- The whole split goes to the code offset where `taken` says so in both copies, else on; the copies of a lined group
agree (R251). -/
def wholeBranch (s : State) (c : Iss) (taken : Nat → Bool) : State :=
  if c.g.lined && taken 0 != taken 1 then liningMismatch s c c.sp.mask
  else if !taken 0 then advance s c
  else
    match labelTarget s c with
    | some t => goOn s c t
    | none => raiseIss s c evBadTarget c.sp.mask 0

/-- The predicate of the lanes of a split in a copy. -/
def splitPreds (c : Iss) (copy : Nat) : List Bool :=
  (lanesOfCopy c.g copy c.all).map (fun l => predOperand c.g l c.x.a)

/-- BRANY (R262). -/
def execBrany (x : Enc) (s : State) : Out :=
  issue .brany x s (fun c s => wholeBranch s c (fun k => (splitPreds c k).any id))

/-- BRALL (R262). -/
def execBrall (x : Enc) (s : State) : Out :=
  issue .brall x s (fun c s => wholeBranch s c (fun k => (splitPreds c k).all id))

/-- The effect of LOOP in a group (R262). A target that is not valid is found before sd changes. -/
def loopBody (c : Iss) (s : State) : State :=
  let v (k : Nat) : BitVec 64 := srget c.g k c.x.d.idx - 1
  let taken (k : Nat) : Bool := v k != 0
  if c.g.lined && taken 0 != taken 1 then liningMismatch s c c.sp.mask
  else if taken 0 && (labelTarget s c).isNone then raiseIss s c evBadTarget c.sp.mask 0
  else wholeBranch (onGroup s c (fun g => putScalar g c.x.d.idx v)) c taken

/-! ### Calls (R261, R263) -/

/-- A call: the return PC is written to D in each active lane; one past the overlay's end raises BAD_TARGET. -/
def callBody (target : Nat → Option Pc) (c : Iss) (s : State) : State :=
  match returnPc s c.g.core c.g.part c.g.ctx c.sp.pc with
  | none => raiseIss s c evBadTarget c.sp.mask 0
  | some r => branch s c target (fun g => putLanes g c.x.d.idx false (lanesOf c.all) (fun _ => r.setWidth 64))

/-- CALL (R263). -/
def execCall (x : Enc) (s : State) : Out := issue .call x s (fun c s => callBody (fun _ => labelTarget s c) c s)

/-- CALLI (R263). -/
def execCalli (x : Enc) (s : State) : Out :=
  issue .calli x s (fun c s => callBody (fun l => indirectTarget s c (readOperand c.g x .one l x.a)) c s)

/-- RET (R263). -/
def execRet (x : Enc) (s : State) : Out :=
  issue .ret x s (fun c s => branch s c (fun l => indirectTarget s c (readOperand c.g x .one l x.a)) id)

/-! ### Predicates (R273) -/

/-- PLOGIC (R273). -/
def execPlogic (x : Enc) (s : State) : Out :=
  issue .plogic x s (fun c s =>
    advance (onGroup s c (putPredD c (fun l =>
      x.bit (4 * (predOperand c.g l x.a).toNat + 2 * (predOperand c.g l x.b).toNat + (predOperand c.g l x.c).toNat)))) c)

/-- PTOS (R273). -/
def execPtos (x : Enc) (s : State) : Out :=
  issue .ptos x s (writeD .one (fun c l => (((sget c.g.preds l) ||| 0x8000#16).setWidth 64)))

/-- The predicates of a lane after STOP (R273). -/
def stopLane (a b : BitVec 64) (l : Nat) (g : Group) : Group :=
  (List.range 15).foldl (fun g i => if b.getLsbD i then pset g l i (a.getLsbD i) else g) g

/-- STOP (R273). -/
def execStop (x : Enc) (s : State) : Out :=
  issue .stop x s (fun c s =>
    advance (onGroup s c (fun g => (lanesOf c.all).foldl (fun g l =>
      stopLane (readOperand c.g x .one l x.a) (readOperand c.g x .one l x.b) l g) g)) c)

/-- PPOPC (R273). -/
def execPpopc (x : Enc) (s : State) : Out :=
  issue .ppopc x s (writeD .one (fun c l =>
    BitVec.ofNat 64 (((lanesOfCopy c.g (copyOf c.g l) c.all).filter (fun i => predOperand c.g i x.a)).length)))

/-! ### Split control (R274) -/

/-- SPMASK (R274). -/
def execSpmask (x : Enc) (s : State) : Out :=
  issue .spmask x s (fun c s => advance (onGroup s c (fun g => putScalar g x.d.idx (fun _ => c.sp.mask))) c)

/-- JOINX (R274): the top n targets leave the reconvergence stack. -/
def execJoinx (x : Enc) (s : State) : Out :=
  issue .joinx x s (fun c s =>
    modSplit (advance s c) c.gid c.j (fun sp => { sp with stack := sp.stack.drop x.imm.toNat }))

end Sys2Proof.Machine
end

