-- ==== Sys2Proof/Machine/Sequence.lean ====
section
/-!
DEFINITION. The frame in which the uniform sequencer of a team issues (R45, R145, R148, R158, R291, R292), and the
branches it shares with groups (R262, R291).
-/
namespace Sys2Proof.Machine

/-- The instructions a sequencer executes (R45, R291). -/
def seqAllows (op : Op) : Bool :=
  (form op).major == 0x3C || op == .bra || op == .loop || op == .barSync || op == .barArrive || op == .barWait ||
    op == .stagePost || op == .stageTake

/-- A sequencer's instruction at its turn. -/
structure SIss where
  tid : Nat
  t : Team
  q : Seq
  op : Op
  x : Enc
  deriving Repr

/-- Changes a team's sequencer. -/
def modSeq (s : State) (tid : Nat) (f : Seq → Seq) : State := modTeam s tid (fun t => { t with seq := t.seq.map f })

/-- The value of a q register or of the immediate. -/
def qOperand (q : Seq) (x : Enc) : Operand → BitVec 64
  | .s i => sget q.q i.toNat
  | .imm => immVal x.ty x.imm
  | _ => 0

/-- Writes a q register. -/
def qput (s : State) (tid i : Nat) (v : BitVec 64) : State := modSeq s tid (fun q => { q with q := sput q.q i v })

/-- A sequencer goes on at a PC; after a word with YLD set it is no candidate in the next clk (R152, R291). -/
def Seq.onward (q : Seq) (clk : Nat) (pc : Pc) (yld : Bool) : Seq :=
  { q with pc, wait := .none, age := if yld then clk + 2 else clk + 1, readyAt := if yld then clk + 2 else q.readyAt }

/-- The sequencer goes on at a PC (R291). -/
def seqGoOn (s : State) (c : SIss) (pc : Pc) : State := modSeq s c.tid (fun q => q.onward s.clk pc c.x.yld)

/-- The sequencer goes on at the next word. -/
def seqAdvance (s : State) (c : SIss) : State := seqGoOn s c (c.q.pc + 1)

/-- The sequencer waits at its instruction. -/
def seqWait (s : State) (c : SIss) (w : Wait) : State := modSeq s c.tid (fun q => { q with wait := w, issued := some (c.op, c.x) })

/-- In an MSTREAM block no operand is a vector register or a predicate, and the registers are q0 to q31 (R145, R292). -/
def seqOperandOk : Operand → Bool
  | .v _ => false
  | .p _ => false
  | .s i => i.toNat < 32
  | _ => true

/-- The operands that a form reads are ones an MSTREAM block may name. -/
def seqOperandsOk (op : Op) (x : Enc) : Bool :=
  (positions op x).all (fun q => !q.1.used || (q.1.opt && q.2.isUnused) || seqOperandOk q.2)

/-- The event of a sequencer's word at issue, in the order of R158. -/
def seqCheck (op : Op) (x : Enc) : Option Nat :=
  if !seqAllows op then some evRole
  else if !operandsOk op x || !seqOperandsOk op x then
    some evIllegalOperand
  else if !fieldsOk op x || !x.defaultGuard then some evIllegalField
  else none

/-- The instruction at the turn of a team's sequencer issues. Every event is fatal (R292). -/
def issueSeq (op : Op) (x : Enc) (s : State) (tid : Nat) (body : SIss → State → State) : State :=
  match mget s.teams tid with
  | none => s
  | some t =>
    match t.seq with
    | none => s
    | some q =>
      match seqCheck op x with
      | some code => haltSeq s tid code
      | none => body { tid, t, q, op, x } s

/-- What an instruction does that groups and sequencers execute. -/
def issueBoth (op : Op) (x : Enc) (s : State) (body : Iss → State → State) (qbody : SIss → State → State) : Out :=
  powered s (match s.turn with
    | .none => s
    | .split gid j => issueSplit op x s gid j body
    | .seq tid => issueSeq op x s tid qbody)

/-- What an instruction of major 0x3C does: in a group it raises ROLE (R44). -/
def issueQ (op : Op) (x : Enc) (s : State) (qbody : SIss → State → State) : Out :=
  issueBoth op x s (fun _ s => s) qbody

/-- The sequencer as an accessor of memory. -/
def seqAccessor (t : Team) : Accessor := { core := t.home, part := t.part, ctx := t.ctx }

/-- A code offset's target for a sequencer (R261). -/
def seqTarget (s : State) (c : SIss) : Option Pc := targetPc s c.t.home c.t.part c.t.ctx c.q.pc c.x.simm

/-- BRA (R262). -/
def execBra (x : Enc) (s : State) : Out :=
  issueBoth .bra x s braBody (fun c s =>
    match seqTarget s c with
    | some t => seqGoOn s c t
    | none => haltSeq s c.tid evBadTarget)

/-- LOOP (R262), with a q counter in a sequencer. -/
def execLoop (x : Enc) (s : State) : Out :=
  issueBoth .loop x s loopBody (fun c s =>
    let v := sget c.q.q x.d.idx - 1
    if v = 0 then seqAdvance (qput s c.tid x.d.idx v) c
    else
      match seqTarget s c with
      | some t => seqGoOn (qput s c.tid x.d.idx v) c t
      | none => haltSeq s c.tid evBadTarget)

end Sys2Proof.Machine
end

