-- ==== Sys2Proof/Machine/Sync.lean ====
section
/-!
DEFINITION. Team barriers, lane barriers and stage rings: major 0x04 (R46 to R52, R275 to R277, R433).
-/
namespace Sys2Proof.Machine

/-! ### Barriers (R46 to R48) -/

/-- The number of the sequencer as a member (R46). -/
def seqMember : Nat := 32

/-- A barrier of a team. -/
def barOf (t : Team) (b : Nat) : Barrier := mgetD t.bars b {}

/-- Every member of M has arrived in the phase or has exited, and one has arrived (R48). -/
def barComplete (t : Team) (b : Barrier) : Bool :=
  !b.arrived.isEmpty && (bitsOf b.m).all (fun j => b.arrived.contains j || t.exited.contains j)

/-- The barrier after a phase that is complete. -/
def settleBar (t : Team) (b : Barrier) : Barrier :=
  if barComplete t b then { b with phase := b.phase + 1, arrived := [] } else b

/-- Every barrier of a team after a member has exited (R48). -/
def settleBars (t : Team) : Team := { t with bars := t.bars.map (fun e => (e.1, settleBar t e.2)) }

/-- An arrival with mask `m` is valid (R47). -/
def arrivalOk (b : Barrier) (m : BitVec 64) (member : Nat) : Bool :=
  b.bad.isNone && m == b.m.setWidth 64 && b.m.getLsbD member && !b.arrived.contains member

/-- A member arrives in the current phase. -/
def arrive (t : Team) (b member : Nat) : Team :=
  let k := barOf t b
  let k1 := { k with arrived := k.arrived ++ [member], last := mput k.last member k.phase }
  { t with bars := mput t.bars b (settleBar t k1) }

/-- The stop units of a team's members. -/
def memberUnit (s : State) (tid : Nat) (t : Team) (members : List Nat) (u : StopUnit) : Bool :=
  (u.unit = 0 && s.groups.any (fun e => e.2.team == tid && members.contains e.2.index && e.2.serial == u.serial)) ||
    (u.unit = 1 && members.contains seqMember && (match t.seq with
      | some q => u.core == coreidOf s t.home && u.slot == q.index
      | none => false))

/-- DETAIL of a BARRIER_MASK record (Table 13.4). -/
def barDetail (b : Nat) (k : Barrier) (m : BitVec 64) (member : Nat) : Nat :=
  b + k.m.toNat * 2 ^ 8 + m.toNat % 2 ^ 40 * 2 ^ 48 + member * 2 ^ 88

/-- An arrival that is not valid (R47): the record, then BARRIER_MASK for the member and for every member that has
arrived in the phase; later arrivals of the phase receive it too. -/
def barFault (s : State) (tid : Nat) (t : Team) (b : Nat) (m : BitVec 64) (member : Nat) (pc : Pc) (serial : BitVec 64)
    (slot group : Nat) (origin : StopUnit) (gid : Nat) : State :=
  let k := barOf t b
  let s1 := emitRecord s t.part (faultRec pc evBarrierMask 0 0 t.ctx serial 0 0 0 (coreidOf s t.home) slot group
    (barDetail b k m member))
  let s2 := modTeam s1 tid (fun t => { t with bars := mput t.bars b { k with bad := some (m.setWidth 33, member) } })
  let s3 := raiseHalt s2 t.part evBarrierMask [origin] gid (if gid = 0 then tid else 0) (memberUnit s tid t k.arrived)
  modGroup s3 gid stopGroup

/-- The group's earlier accesses of every kind are performed: a release can take place (R48, R125). -/
def releaseReady (s : State) (c : Iss) : Bool :=
  orderedNow s c.gid c.g && !earlierScratch c.g && dirtyReady s c.g.core

/-- Changes the issuing group's team. -/
def onTeam (s : State) (c : Iss) (f : Team → Team) : State := modTeam s c.g.team f

/-- An operand's copies differ in a lined group (R251). -/
def operandDiffers (c : Iss) (y : Operand) : Bool := c.g.lined && uniOperand c.g c.x 0 y != uniOperand c.g c.x 1 y

/-- BAR.SET (R46, R275). -/
def execBarSet (x : Enc) (s : State) : Out :=
  issue .barSet x s (fun c s =>
    if operandDiffers c x.b then liningMismatch s c c.sp.mask
    else
      match teamOf s c.g with
      | none => s
      | some t =>
        let m := uniOperand c.g x 0 x.b
        let can : BitVec 64 := maskBelow t.launch.groups ||| (if t.seq.isSome then bitMask seqMember else 0)
        if !(barOf t x.a.idx).arrived.isEmpty || m &&& ~~~ can != 0 then raiseIss s c evBarrierMask c.sp.mask 0
        else advance (onTeam s c (fun t => { t with
          bars := mput t.bars x.a.idx { barOf t x.a.idx with m := m.setWidth 33 } })) c)

/-- A group arrives at a barrier (R47, R48): its release takes place first. -/
def arriveGroup (after : Nat → State → State) (c : Iss) (s : State) : State :=
  if !releaseReady s c then s
  else if operandDiffers c c.x.b then liningMismatch s c c.sp.mask
  else
    match teamOf s c.g with
    | none => s
    | some t =>
      let b := c.x.a.idx
      let m := uniOperand c.g c.x 0 c.x.b
      if arrivalOk (barOf t b) m c.g.index then
        after (barOf t b).phase (onTeam (releaseAt s c.g 1) c (fun t => arrive t b c.g.index))
      else
        barFault s c.g.team t b m c.g.index c.sp.pc c.g.serial (slotByte c.g) c.g.index
          (groupUnit s c.g evBarrierMask true c.sp.pc 0 c.sp.mask) c.gid

/-- The phase of a barrier that a group waits for has completed (R48): its acquire takes effect. -/
def passBarrier (c : Iss) (s : State) (b phase : Nat) (pass : Team → Team) : State :=
  match teamOf s c.g with
  | none => s
  | some t => if (barOf t b).phase = phase then s else advance (onTeam (acquireAt s c.g 1) c pass) c

/-- The sequencer arrives (R47, R48, R315). -/
def arriveSeq (after : Nat → State → State) (c : SIss) (s : State) : State :=
  let b := c.x.a.idx
  let m := qOperand c.q c.x c.x.b
  let k := barOf c.t b
  if c.t.partner.isSome && !dirtyReady s c.t.home then s
  else if arrivalOk k m seqMember then
    let s1 := if c.t.partner.isSome then l1WriteBackAll s c.t.home else s
    after k.phase (modTeam s1 c.tid (fun t => arrive t b seqMember))
  else
    barFault s c.tid c.t b m seqMember c.q.pc 0 c.q.index 0x20 (seqUnit s c.t c.q evBarrierMask true) 0

/-- The phase of a barrier that the sequencer waits for has completed. -/
def passBarrierSeq (c : SIss) (s : State) (b phase : Nat) (pass : Team → Team) : State :=
  if (barOf c.t b).phase = phase then s
  else
    let s1 := if c.t.partner.isSome then l1DropClean s c.t.home else s
    seqAdvance (modTeam s1 c.tid pass) c

/-- BAR.SYNC (R48, R275). -/
def execBarSync (x : Enc) (s : State) : Out :=
  issueBoth .barSync x s
    (fun c s =>
      match c.sp.wait with
      | .barrier b p => passBarrier c s b p id
      | .resumed => advance (acquireAt s c.g 1) c
      | _ => arriveGroup (fun p s => waitAs s c (.barrier x.a.idx p)) c s)
    (fun c s =>
      match c.q.wait with
      | .barrier b p => passBarrierSeq c s b p id
      | _ => arriveSeq (fun p s => seqWait s c (.barrier x.a.idx p)) c s)

/-- BAR.ARRIVE (R48, R275). -/
def execBarArrive (x : Enc) (s : State) : Out :=
  issueBoth .barArrive x s (fun c s => arriveGroup (fun _ s => advance s c) c s)
    (fun c s => arriveSeq (fun _ s => seqAdvance s c) c s)

/-- A completed wait: nothing is left to wait for until the member arrives again (R275). -/
def waited (b member : Nat) (t : Team) : Team :=
  { t with bars := mmod t.bars b (fun k => { k with last := mdel k.last member }) }

/-- BAR.WAIT (R48, R275). -/
def execBarWait (x : Enc) (s : State) : Out :=
  issueBoth .barWait x s
    (fun c s =>
      match teamOf s c.g with
      | none => s
      | some t =>
        match mget (barOf t x.a.idx).last c.g.index with
        | none => advance (if c.sp.wait = .resumed then acquireAt s c.g 1 else s) c
        | some p => passBarrier c (waitAs s c (.barrier x.a.idx p)) x.a.idx p (waited x.a.idx c.g.index))
    (fun c s =>
      match mget (barOf c.t x.a.idx).last seqMember with
      | none => seqAdvance s c
      | some p => passBarrierSeq c (seqWait s c (.barrier x.a.idx p)) x.a.idx p (waited x.a.idx seqMember))

/-! ### SYNCL (R50, R276) -/

/-- Ends a lane-barrier round that is complete: every split that waits in it goes on. -/
def settleSyncl (g : Group) (clk : Nat) : Group :=
  match g.synclRound with
  | none => g
  | some r =>
    if r.mask &&& g.live &&& ~~~ r.arrived != 0 then g
    else
      let go (sp : Split) : Split :=
        match sp.wait with
        | .syncl _ => sp.onward clk (sp.pc + 1)
        | _ => sp
      let all (m : Amap Split) : Amap Split := m.map (fun e => (e.1, go e.2))
      { g with synclRound := none, splits := all g.splits
               aside := g.aside.map (fun a => { a with splits := all a.splits }) }

/-- SYNCL (R50, R276). One that differs from the round under way raises BARRIER_MASK for its own split alone: the stop record,
where the event halts the partition, is one, with that split's LANES, and the splits that had arrived go on waiting
(DESIGN CHOICE, log entry 97). -/
def execSyncl (x : Enc) (s : State) : Out :=
  issue .syncl x s (fun c s =>
    match c.sp.wait with
    | .syncl _ => s
    | _ =>
      let m := uniOperand c.g x 0 x.a
      let r : SynclRound := c.g.synclRound.getD { mask := m, arrived := 0, splits := [] }
      if operandDiffers c x.a then liningMismatch s c c.act
      else if m &&& ~~~ (allLanes c.g) != 0 || r.mask != m then raiseIss s c evBarrierMask c.sp.mask 0
      else
        onGroup (waitAs s c (.syncl m)) c (fun g =>
          settleSyncl { g with synclRound := some { r with arrived := r.arrived ||| c.act, splits := addOnce r.splits c.j } }
            s.clk))

/-! ### Stage rings (R51, R52, R277, R433) -/

/-- A ring of a team. -/
def ringOf (t : Team) (k : Nat) : Ring := mgetD t.rings k {}
/-- A stage of a ring. -/
def stageOf (r : Ring) (i : Nat) : Stage := mgetD r.stages i {}

/-- Absent members of a ring that count in a lap: members that have exited and have not acted in it (R433). -/
def absentIn (t : Team) (actors done : List Nat) : Nat :=
  (actors.filter (fun j => t.exited.contains j && !done.contains j)).length

/-- A split or sequencer waits for a stage of a ring. -/
def waitsStage (k i : Nat) (w : Wait) : Bool :=
  match w with
  | .stage a b _ => a == k && b == i
  | _ => false

/-- The members of a team that wait for a stage. -/
def stageWaiters (s : State) (tid : Nat) (t : Team) (p : Wait → Bool) : List Nat :=
  (s.groups.filter (fun e => e.2.team == tid && (e.2.splits.any (fun x => p x.2.wait) ||
    (match e.2.aside with | some a => a.splits.any (fun x => p x.2.wait) | none => false)))).map (·.2.index) ++
  (match t.seq with | some q => if p q.wait then [seqMember] else [] | none => [])

/-- The takes of a lap: when the quorum has completed, the take lap advances (R51, R433). -/
def settleTakes (t : Team) (r : Ring) (a : Stage) : Stage :=
  if !a.takes.isEmpty && r.nt ≤ a.takes.length + absentIn t r.takers a.takes then
    { a with take := (a.take + 1) % 4, takes := [] }
  else a

/-- Every member that waits for a stage goes on; its take is an acquire (R51). -/
def releaseTakers (s : State) (tid : Nat) (p : Wait → Bool) : State :=
  let go (sp : Split) : Split := if p sp.wait then sp.onward s.clk (sp.pc + 1) else sp
  let all (m : Amap Split) : Amap Split := m.map (fun e => (e.1, go e.2))
  let who := s.groups.filter (fun e => e.2.team == tid && (e.2.splits.any (fun x => p x.2.wait) ||
    (match e.2.aside with | some a => a.splits.any (fun x => p x.2.wait) | none => false)))
  let s1 := who.foldl (fun st e => modGroup (acquireAt st e.2 1) e.1 (fun g => { g with
    splits := all g.splits, aside := g.aside.map (fun a => { a with splits := all a.splits }) })) s
  match mget s1.teams tid with
  | none => s1
  | some t =>
    match t.seq with
    | none => s1
    | some q =>
      if p q.wait then
        modSeq (if t.partner.isSome then l1DropClean s1 t.home else s1) tid
          (fun q => q.onward s.clk (q.pc + 1) (q.issued.any (fun i => i.2.yld)))
      else s1

/-- Laps of a stage that have their quorum complete (R51, R52, R433): waiting takes complete with the post lap. -/
def settleStage (s : State) (tid k i : Nat) : State :=
  match mget s.teams tid with
  | none => s
  | some t =>
    let r := ringOf t k
    let a := stageOf r i
    let put (st : State) (r : Ring) (a : Stage) : State :=
      modTeam st tid (fun t => { t with rings := mput t.rings k { r with stages := mput r.stages i a } })
    if !a.posts.isEmpty && r.np ≤ a.posts.length + absentIn t r.posters a.posts then
      let ws := stageWaiters s tid t (waitsStage k i)
      let r1 := { r with takers := ws.foldl addOnce r.takers }
      let a1 := { a with post := (a.post + 1) % 4, posts := [], takes := a.takes ++ ws }
      releaseTakers (put s r1 (settleTakes t r1 a1)) tid (waitsStage k i)
    else put s r (settleTakes t r a)

/-- A member of a team has exited (R48, R433): barriers and stages that it completes move on. -/
def memberExits (s : State) (tid member : Nat) : State :=
  let s1 := modTeam s tid (fun t => settleBars { t with exited := addOnce t.exited member })
  match mget s1.teams tid with
  | none => s1
  | some t =>
    t.rings.foldl (fun st e => (List.range e.2.s).foldl (fun st i => settleStage st tid e.1 i) st) s1

/-- STAGE.INIT (R51, R277): a STAGE.TAKE that waits on the ring is delivered STAGE_OVERRUN. -/
def execStageInit (x : Enc) (s : State) : Out :=
  issue .stageInit x s (fun c s =>
    let k := x.a.idx
    let s1 := advance (onTeam s c (fun t => { t with
      rings := mput t.rings k { s := x.bits 0 4 + 1, np := x.bits 4 6 + 1, nt := x.bits 10 6 + 1 } })) c
    match teamOf s c.g with
    | none => s
    | some t =>
      let on (w : Wait) : Bool := match w with | .stage a _ _ => a == k | _ => false
      let ws := stageWaiters s c.g.team t on
      if ws.isEmpty then s1
      else
        modGroup (raiseHalt s1 c.g.part evStageOverrun [groupUnit s c.g evStageOverrun true c.sp.pc 0 c.sp.mask] c.gid 0
          (memberUnit s c.g.team t ws)) c.gid stopGroup)

/-- A stage index is in range: the ring has been initialised and the index is below S (R52). -/
def stageOk (t : Team) (k i : Nat) : Bool := i < (ringOf t k).s

/-- A post of a member to a stage (R51). -/
def postStage (s : State) (tid k i member : Nat) : State :=
  settleStage (modTeam s tid (fun t =>
    let r := ringOf t k
    let a := stageOf r i
    { t with rings := mput t.rings k { r with
        posters := addOnce r.posters member, stages := mput r.stages i { a with posts := a.posts ++ [member] } } })) tid k i

/-- A take of a member that completes at once (R51). -/
def takeStage (s : State) (tid k i member : Nat) : State :=
  settleStage (modTeam s tid (fun t =>
    let r := ringOf t k
    let a := stageOf r i
    { t with rings := mput t.rings k { r with
        takers := addOnce r.takers member, stages := mput r.stages i { a with takes := a.takes ++ [member] } } })) tid k i

/-- Post lap less take lap of a stage (R52). -/
def lapsAhead (t : Team) (k i : Nat) : Nat :=
  let a := stageOf (ringOf t k) i
  (a.post + 4 - a.take) % 4

/-- STAGE.POST (R51, R277). -/
def execStagePost (x : Enc) (s : State) : Out :=
  issueBoth .stagePost x s
    (fun c s =>
      if !releaseReady s c then s
      else
        let i := (uniOperand c.g x 0 x.b).toNat
        match teamOf s c.g with
        | none => s
        | some t =>
          if operandDiffers c x.b then liningMismatch s c c.sp.mask
          else if 16 ≤ i then raiseIss s c evIllegalOperand c.sp.mask 0
          else if !stageOk t x.a.idx i then raiseIss s c evStageOverrun c.sp.mask 0
          else postStage (advance (releaseAt s c.g 1) c) c.g.team x.a.idx i c.g.index)
    (fun c s =>
      let i := (qOperand c.q x x.b).toNat
      if c.t.partner.isSome && !dirtyReady s c.t.home then s
      else if 16 ≤ i then haltSeq s c.tid evIllegalOperand
      else if !stageOk c.t x.a.idx i then haltSeq s c.tid evStageOverrun
      else
        let s1 := if c.t.partner.isSome then l1WriteBackAll s c.t.home else s
        postStage (seqAdvance s1 c) c.tid x.a.idx i seqMember)

/-- STAGE.TAKE (R51, R52, R277). -/
def execStageTake (x : Enc) (s : State) : Out :=
  issueBoth .stageTake x s
    (fun c s =>
      match c.sp.wait with
      | .stage _ _ _ => s
      | .resumed => advance (acquireAt s c.g 1) c
      | _ =>
        let i := (uniOperand c.g x 0 x.b).toNat
        match teamOf s c.g with
        | none => s
        | some t =>
          if operandDiffers c x.b then liningMismatch s c c.sp.mask
          else if 16 ≤ i then raiseIss s c evIllegalOperand c.sp.mask 0
          else if !stageOk t x.a.idx i || 2 ≤ lapsAhead t x.a.idx i then raiseIss s c evStageOverrun c.sp.mask 0
          else if lapsAhead t x.a.idx i = 0 then waitAs s c (.stage x.a.idx i 0)
          else takeStage (advance (acquireAt s c.g 1) c) c.g.team x.a.idx i c.g.index)
    (fun c s =>
      match c.q.wait with
      | .stage _ _ _ => s
      | _ =>
        let i := (qOperand c.q x x.b).toNat
        if 16 ≤ i then haltSeq s c.tid evIllegalOperand
        else if !stageOk c.t x.a.idx i || 2 ≤ lapsAhead c.t x.a.idx i then haltSeq s c.tid evStageOverrun
        else if lapsAhead c.t x.a.idx i = 0 then seqWait s c (.stage x.a.idx i 0)
        else
          let s1 := if c.t.partner.isSome then l1DropClean s c.t.home else s
          takeStage (seqAdvance s1 c) c.tid x.a.idx i seqMember)

end Sys2Proof.Machine
end

