-- ==== Sys2Proof/Machine/Array.lean ====
section
/-!
DEFINITION. The matrix array: slot elements, accumulator cells, the steps of R94 to R96 and SCACC (R97 to R101), and
ARRAY_STEP (R88, R296, R299, R300, R307 to R309, R317, R319).
-/
namespace Sys2Proof.Machine

/-! ### Formats (Tables 5.10, 17.1, 17.5) -/

/-- A slot format: rows and columns of a slot, bytes of an element (0: a t2 element of 2 bits). -/
structure SlotFmt where
  rs : Nat
  ks : Nat
  e : Nat
  deriving DecidableEq, Repr

/-- The slot shape of a TYPE (Table 17.1). -/
def slotFmt (ty : Ty) (cplx : Bool) : SlotFmt :=
  match ty with
  | .f64 => if cplx then { rs := 64, ks := 32, e := 16 } else { rs := 64, ks := 64, e := 8 }
  | .f32 => { rs := 128, ks := 64, e := 4 }
  | .f16x2 | .bf16x2 => { rs := 128, ks := 128, e := 2 }
  | .t2x16 => { rs := 256, ks := 512, e := 0 }
  | _ => { rs := 128, ks := 256, e := 1 }

/-- The chunk width of a format (Table 5.10); one k a step for complex operands (R96). -/
def chunkOf (ty : Ty) : Nat :=
  match ty with
  | .f64 => 1
  | .f32 => 4
  | .f16x2 | .bf16x2 => 8
  | .t2x16 => 32
  | _ => 16

/-- The operands are integers. -/
def intOperands (ty : Ty) : Bool := ty == .i8x4 || ty == .n8x4 || ty == .t2x16

/-! ### Accumulator cells (R299) -/

/-- A view of the accumulator store (Table 17.3). -/
inductive View where
  | word | fp64 | complex
  deriving DecidableEq, Repr

/-- VW of a view. -/
def View.vw : View → Nat
  | .word => 1024
  | .fp64 => 512
  | .complex => 256

/-- The view of a matrix product's TYPE. -/
def viewOf (ty : Ty) (cplx : Bool) : View := if ty == .f64 then if cplx then .complex else .fp64 else .word

/-- A window that is valid in a view (R299). -/
def windowOk (v : View) (w : Window) : Bool :=
  1 ≤ w.rows && 1 ≤ w.cols &&
    ((w.r0 + w.rows ≤ 1024 && w.c0 + w.cols ≤ v.vw) ||
      (v != .word && w.r0 + w.rows ≤ 512 && w.c0 + w.cols ≤ 2 * v.vw))

/-- The window that a q register holds. -/
def windowFrom (q : BitVec 64) : Window :=
  { r0 := bits q.toNat 0 16, c0 := bits q.toNat 16 16, rows := bits q.toNat 32 16, cols := bits q.toNat 48 16 }

/-- The words of a cell, lowest first: a folded cell lies 512 rows further (R299). -/
def cellWords (v : View) (r c : Nat) : List Nat :=
  let (r, c) := if v.vw ≤ c then (r + 512, c - v.vw) else (r, c)
  match v with
  | .word => [1024 * r + c]
  | .fp64 => [1024 * r + 2 * c, 1024 * r + 2 * c + 1]
  | .complex => (List.range 4).map (fun k => 1024 * r + 4 * c + k)

/-- The value of a cell. -/
def cellGet (a : Store 32) (ws : List Nat) : Nat :=
  (ws.zipIdx.map (fun w => (sget a w.1).toNat * 2 ^ (32 * w.2))).foldl (· + ·) 0

/-- Writes a cell. -/
def cellPut (a : Store 32) (ws : List Nat) (n : Nat) : Store 32 :=
  ws.zipIdx.foldl (fun a w => sput a w.1 (BitVec.ofNat 32 (n / 2 ^ (32 * w.2)))) a

/-- A part of a cell is poisoned (R300). -/
def cellBad (p : Store 1) (ws : List Nat) : Bool := ws.any (fun w => sget p (w / 4) == 1#1)

/-- Poisons the parts of a cell. -/
def cellTaint (p : Store 1) (ws : List Nat) : Store 1 := ws.foldl (fun p w => sput p (w / 4) 1#1) p

/-! ### Elements of slots (R296) -/

/-- The element of a slot at (r, k): its bits, and whether its part is poisoned. -/
def slotElem (u : Slot) (f : SlotFmt) (r k : Nat) : Nat × Bool :=
  let i := r * f.ks + k
  if f.e = 0 then (bits (sget u.data (i / 4)).toNat (2 * (i % 4)) 2, sget u.poison (i / 64) == 1#1)
  else (leNat (getBytes u.data (f.e * i) f.e), sget u.poison (f.e * i / 16) == 1#1)

/-- Element (x, k) of an operand that starts at slot `o` with `n` rows (R307). -/
def operandElem (t : Team) (side o n : Nat) (f : SlotFmt) (x k : Nat) : Nat × Bool :=
  slotElem (slotOf t side (o + x / f.rs + (n + f.rs - 1) / f.rs * (k / f.ks))) f (x % f.rs) (k % f.ks)

/-- The slots of an operand of `n` rows and columns K0 to K0 + K − 1 (R307). -/
def operandSlots (f : SlotFmt) (o n k0 k : Nat) : List Nat :=
  let blk := (n + f.rs - 1) / f.rs
  let lo := k0 / f.ks
  let hi := (k0 + k - 1) / f.ks
  (List.range (hi + 1 - lo)).flatMap (fun i => (List.range blk).map (fun j => o + j + blk * (lo + i)))

/-! ### Steps (R88, R94 to R96) -/

/-- Matrix flags (Table 5.7) from exceptions. -/
def stickyOf (f : BitVec 5) : BitVec 6 :=
  (if f &&& fIV != 0 then 1 else 0) ||| (if f &&& fOF != 0 then 2 else 0) ||| (if f &&& fUF != 0 then 4 else 0) |||
    (if f &&& fNX != 0 then 8 else 0)

/-- Flag IW: a t2 element holds 0b10. -/
def flagIw : BitVec 6 := 16
/-- Flag NS: a scale is 0xFF. -/
def flagNs : BitVec 6 := 32

/-- The exact sum of exact terms (R94): −0 where every term is −0, else a zero sum is +0. DESIGN CHOICE (log entry 88):
where a quiet NaN stands beside infinities of both signs, which the rule does not rank, the sum is the default NaN and the
infinities raise no IV. -/
def sumTerms (ts : List Ex) : Ex :=
  if ts.any (fun t => match t with | .nan _ => true | _ => false) then
    .nan (ts.any (fun t => match t with | .nan iv => iv | _ => false))
  else
    let infs := ts.filterMap (fun t => match t with | .inf n _ => some n | _ => none)
    match infs with
    | n :: rest => if rest.all (· == n) then .inf n false else .nan true
    | [] =>
      let nums := ts.filterMap (fun t => match t with | .num n m e => some (n, m, e) | _ => none)
      let e0 := nums.foldl (fun (a : Int) x => if x.2.1 != 0 && x.2.2 < a then x.2.2 else a) (10000 : Int)
      let v := nums.foldl (fun (a : Int) x =>
        if x.2.1 = 0 then a else a + (if x.1 then -1 else 1) * ((x.2.1 * 2 ^ (x.2.2 - e0).toNat : Nat) : Int)) 0
      if v = 0 then .num (nums.all (fun x => x.1 && x.2.1 == 0)) 0 0 else .num (v < 0) v.natAbs e0

/-- One floating-point step of a cell (R94): one rounding to nearest-even, gradual underflow. -/
def floatStep (acc : Fmt) (c : Nat) (prods : List Ex) : Nat × BitVec 6 :=
  let r := deliver acc 0 false false (sumTerms ((decodeFloat acc c).toEx :: prods))
  (r.val, stickyOf r.flags)

/-- A signed or unsigned 8-bit element, or a t2 weight (R95, Table 5.3). -/
def intElem (ty : Ty) (n : Nat) : Int :=
  match ty with
  | .t2x16 => if n = 1 then 1 else if n = 3 then -1 else 0
  | .i8x4 => elemVal true 8 n
  | _ => n

/-- One integer step (R95). -/
def intStep (c : Nat) (x : Int) : Nat × BitVec 6 :=
  let v := elemVal true 32 c + x
  (wrapTo 32 v, if v < -(2 ^ 31) || (2 ^ 31 : Int) ≤ v then 2 else 0)

/-- A fused operation of the complex step (R96). -/
def fusedStep (c : Nat) (x y : Fv) : Nat × BitVec 6 := floatStep (fmtOf .f64) c [exMul x y]

/-- One complex step (R96): four roundings. -/
def complexStep (c a b : Nat) : Nat × BitVec 6 :=
  let d (n : Nat) : Fv := decodeFloat (fmtOf .f64) n
  let lo (n : Nat) : Nat := n % 2 ^ 64
  let hi (n : Nat) : Nat := n / 2 ^ 64
  let r1 := fusedStep (lo c) (d (lo a)) (d (lo b))
  let r2 := fusedStep r1.1 (d (hi a)).negate (d (hi b))
  let i1 := fusedStep (hi c) (d (lo a)) (d (hi b))
  let i2 := fusedStep i1.1 (d (hi a)) (d (lo b))
  (r2.1 + i2.1 * 2 ^ 64, r1.2 ||| r2.2 ||| i1.2 ||| i2.2)

/-- One step of a cell from the elements of its row of A and its column of B (R94 to R96). -/
def cellStep (j : MatJob) (c : Nat) (a b : List Nat) : Nat × BitVec 6 :=
  if j.cplx then complexStep c (a.headD 0) (b.headD 0)
  else if intOperands j.ty then
    let r := intStep c ((a.zip b).map (fun p => intElem j.ty p.1 * intElem j.bty p.2) |>.foldl (· + ·) 0)
    (r.1, r.2 ||| (if j.tern && a.any (· == 2) then flagIw else 0))
  else
    floatStep (if j.ty == .f64 then fmtOf .f64 else fmtOf .f32) c
      ((a.zip b).map (fun p => exMul (decodeFloat (fmtOf j.ty) p.1) (decodeFloat (fmtOf j.bty) p.2)))

/-- What a step writes: for each cell its words, value and whether a poisoned input reached it. -/
structure StepOut where
  cells : List (List Nat × Nat × Bool)
  flags : BitVec 6 := 0
  deriving DecidableEq, Repr

/-- Steps of a cell, and blocks across and in all, of a product. -/
def stepsOf (j : MatJob) : Nat := (j.k + (if j.cplx then 1 else chunkOf j.ty) - 1) / (if j.cplx then 1 else chunkOf j.ty)
def blocksWide (j : MatJob) : Nat := (j.win.cols + 31) / 32
def blocksOf (j : MatJob) : Nat := (j.win.rows + 31) / 32 * blocksWide j

/-- One 32 × 32 step of a product (R307): the block and the chunk that its position names. -/
def productStep (t : Team) (side : Nat) (acc : Store 32) (j : MatJob) : StepOut :=
  let v := viewOf j.ty j.cplx
  let w := if j.cplx then 1 else chunkOf j.ty
  let b := j.pos / stepsOf j
  let s := j.pos % stepsOf j
  let i0 := 32 * (b / blocksWide j)
  let j0 := 32 * (b % blocksWide j)
  let rows := List.range (min 32 (j.win.rows - i0))
  let cols := List.range (min 32 (j.win.cols - j0))
  let ks := (List.range (min w (j.k - s * w))).map (fun k => j.k0 + s * w + k)
  let as := rows.map (fun r => ks.map (operandElem t side j.sa j.win.rows (slotFmt j.ty j.cplx) (i0 + r)))
  let bs := cols.map (fun c => ks.map (operandElem t side j.sb j.win.cols (slotFmt j.bty j.cplx) (j0 + c)))
  (as.zip rows).foldl (fun (o : StepOut) ar =>
    (bs.zip cols).foldl (fun (o : StepOut) bc =>
      let ws := cellWords v (j.win.r0 + i0 + ar.2) (j.win.c0 + j0 + bc.2)
      let c := if j.partial_ && s = 0 then 0 else cellGet acc ws
      let r := cellStep j c (ar.1.map (·.1)) (bc.1.map (·.1))
      { cells := (ws, r.1, ar.1.any (·.2) || bc.1.any (·.2)) :: o.cells, flags := o.flags ||| r.2 }) o) { cells := [] }

/-! ### SCACC (R97 to R101, R309) -/

/-- Rounding an exact sum to FP32. -/
def sum32 (x y : Ex) : FRes := deliver (fmtOf .f32) 0 false false (sumTerms [x, y])

/-- One level of the canonical reduction by addition (R99): pairs combined, an odd one carried. -/
def pairUp : List Ex → List Ex × BitVec 6
  | x :: y :: rest =>
    let r := sum32 x y
    let q := pairUp rest
    ((decodeFloat (fmtOf .f32) r.val).toEx :: q.1, stickyOf r.flags ||| q.2)
  | xs => (xs, 0)

/-- Cro by addition in FP32 (R99): at most five levels for 32 leaves. -/
def croSum : Nat → List Ex → List Ex × BitVec 6
  | 0, xs => (xs, 0)
  | n + 1, xs =>
    let a := pairUp xs
    let b := croSum n a.1
    (b.1, a.2 ||| b.2)

/-- A leaf: a partial times the values of its scales, exact (R98). -/
def scaledLeaf (p ea eb : Nat) : Ex × BitVec 6 :=
  if ea = 255 || eb = 255 then (.nan false, flagNs)
  else
    match (decodeFloat (fmtOf .f32) p).toEx with
    | .num n m e => (.num n m (e + ea + eb - 254), 0)
    | x => (x, 0)

/-- The cell (i, j) of a SCACC (R309). -/
def scaccCell (u : Slot) (acc : Store 32) (bad : Store 1) (k : MatJob) (i j : Nat) : (List Nat × Nat × Bool) × BitVec 6 :=
  let ws := cellWords .word (k.win.r0 + i) (k.win.c0 + j)
  let leaves := (List.range k.nb).map (fun n =>
    let oa := k.off + 64 * n + i / 32
    let ob := k.off + 64 * n + 32 + j / 32
    let pw := cellWords .word (k.prow + n * k.win.rows + i) (k.pcol + j)
    (scaledLeaf (cellGet acc pw) (sget u.data oa).toNat (sget u.data ob).toNat,
      cellBad bad pw || sget u.poison (oa / 16) == 1#1 || sget u.poison (ob / 16) == 1#1))
  let root := croSum 5 (leaves.map (·.1.1))
  let r := sum32 (decodeFloat (fmtOf .f32) (cellGet acc ws)).toEx (root.1.headD (.num false 0 0))
  ((ws, r.val, leaves.any (·.2)), (leaves.map (·.1.2)).foldl (· ||| ·) (root.2 ||| stickyOf r.flags))

/-- A SCACC: every partial is read before any cell is written. -/
def scaccStep (t : Team) (side : Nat) (acc : Store 32) (bad : Store 1) (k : MatJob) : StepOut :=
  let u := slotOf t side k.sa
  (List.range k.win.rows).foldl (fun (o : StepOut) i =>
    (List.range k.win.cols).foldl (fun (o : StepOut) j =>
      let r := scaccCell u acc bad k i j
      { cells := r.1 :: o.cells, flags := o.flags ||| r.2 }) o) { cells := [] }

/-! ### ARRAY_STEP -/

/-- Armed `.mres` injections of the team's groups count a step of its array (R260); the error is that of the cell in row
LANE mod 32 and column 0 of the step, and there is none where the step has no such row. -/
def injectStep (s : State) (tid rows : Nat) : State × Bool :=
  s.groups.foldl (fun (r : State × Bool) e =>
    match e.2.inj with
    | some i =>
      if e.2.team = tid && i.kind = 7 then
        let (i', fire) := injStep i
        (modGroup r.1 e.1 (fun g => { g with inj := i' }), r.2 || (fire && i.lane % 32 < rows))
      else r
    | none => r) (s, false)

/-- The rows of cells that the next step of the array's oldest work has. -/
def stepRows (j : MatJob) : Nat :=
  if j.scacc then j.win.rows else min 32 (j.win.rows - 32 * (j.pos / stepsOf j / blocksWide j))

/-- The work given to the array of a side. -/
def jobsOf (q : Seq) (side : Nat) : List MatJob := if side = 0 then q.jobs else q.jobsP

/-- Changes the work of a side. -/
def setJobs (q : Seq) (side : Nat) (js : List MatJob) : Seq :=
  if side = 0 then { q with jobs := js } else { q with jobsP := js }

/-- The core whose array a side names. -/
def sideCore (t : Team) (side : Nat) : Nat := if side = 0 then t.home else t.partner.getD t.home

/-- A residue error of an array step aborts the open regions of the team's groups; the MCHK vector of a group in state
WAITING, COMMITTING or NONE takes it as an asynchronous event of the lowest split, with the sequencer's PC as EPC (R328,
log entry 83). -/
def abortTeam (s : State) (tid : Nat) (pc : Pc) : State :=
  (s.groups.filter (fun e => e.2.team == tid && e.2.job.isNone)).foldl (fun st e =>
    match e.2.region.st with
    | .opened => abortRegion st e.1
    | .aborted => st
    | _ => raise st e.1 { code := evMachineCheck, precise := false, split := (e.2.splits.head?.map (·.1)).getD 0, epc := pc
                          lanes := e.2.live, info := mcInfo 0 3, info2 := 0, op := st.nextOp }) s

/-- The array performs the next step of a team's oldest work on a side (R317): it updates its cells indivisibly,
carries poison (R300) and ORs the flags into the sequencer's (R88, R308); a residue error poisons the parts of the
step's cells (R319). -/
def arrayStep (s : State) (tid side : Nat) (residueError : Bool) : State :=
  match mget s.teams tid with
  | none => s
  | some t =>
    match t.seq with
    | none => s
    | some q =>
      match jobsOf q side with
      | [] => s
      | j :: rest =>
        if t.held || q.stopped then s
        else
        let core := sideCore t side
        let (s1, fire) := injectStep s tid (stepRows j)
        let k := coreOf s1 core
        let out := if j.scacc then scaccStep t side k.acc k.accPoison j else productStep t side k.acc j
        let bad := residueError || fire
        let s2 := modCore (if bad then abortTeam s1 tid q.pc else s1) core (fun c => { c with
          acc := out.cells.foldl (fun a w => cellPut a w.1 w.2.1) c.acc
          accPoison := out.cells.foldl (fun p w => if w.2.2 || bad then cellTaint p w.1 else p) c.accPoison })
        let last := j.scacc || stepsOf j * blocksOf j ≤ j.pos + 1
        retireTeam (modSeq s2 tid (fun q => setJobs { q with flags := q.flags ||| out.flags } side
          (if last then rest else { j with pos := j.pos + 1 } :: rest))) tid

/-- ARRAY_STEP (R317). -/
def execArrayStep (team side : Nat) (residueError : Bool) (s : State) : Out :=
  stepEvent s (fun s => arrayStep s team side residueError)

end Sys2Proof.Machine
end

