-- ==== Sys2Proof/Machine/Overlay.lean ====
section
/-!
DEFINITION. Overlays and pockets (R136 to R139, R264 to R272, R351): images and their checks, the directory, holds,
and the instructions OVLD, OVWAIT, OVQUERY, OVHOLD, OVDROP, CALLO and RETO.
-/
namespace Sys2Proof.Machine

/-! ### Images (R137 to R139, R142, R351) -/

/-- One bit of CRC-32C, reflected. -/
def crcBit (c : BitVec 32) : BitVec 32 := if c.getLsbD 0 then (c >>> 1) ^^^ 0x82F63B78#32 else c >>> 1

/-- CRC-32C of words in ascending byte order (R142). -/
def crcWords (ws : List Word) : BitVec 32 :=
  ~~~ (ws.foldl (fun (c : BitVec 32) (w : Word) => (leBytes 16 w.toNat).foldl (fun (c : BitVec 32) (b : BitVec 8) =>
    (List.range 8).foldl (fun (v : BitVec 32) _ => crcBit v) (c ^^^ (b.setWidth 32 : BitVec 32))) c) 0xFFFFFFFF#32)

/-- The descriptor word names the overlay, and its reserved field is zero (R139, Table 9.1): WORDS. -/
def descWords (id : Nat) (w : Word) : Option Nat :=
  let n := bits w.toNat 71 13
  if bits w.toNat 96 32 = 0x4F564C59 && bits w.toNat 84 12 = id && id ≠ 0 && 1 ≤ n && n ≤ 4096 && bits w.toNat 0 71 = 0 then some n
  else none

/-- A block header of an image passes R139: `at_` gives the image's words. -/
def headerOk (at_ : Nat → Word) (words id off : Nat) (w : Word) : Bool :=
  let len := hdrLen w
  let body := (List.range len).map (fun i => at_ (off + 1 + i))
  let r := (off : Int) + hdrReconv w
  isHeaderWord w && 1 ≤ len && off + len < words && hdrVlive w ≤ 256 && hdrSlive w ≤ 64 &&
    bits w.toNat 32 8 = 0 && hdrOvl w = id && !(hdrMstream w && hdrRgn w) &&
    (hdrReconv w = 0 || (0 ≤ r && r < words && isHeaderWord (at_ r.toNat))) &&
    body.all (fun b => !isHeaderWord b) && hdrChk w = (crcWords body).toNat

/-- The walk of the headers from an offset ends exactly at the end of the image. -/
def walkHeaders (at_ : Nat → Word) (words id : Nat) : Nat → Nat → Bool
  | 0, off => off == words
  | n + 1, off =>
    if off = words then true
    else headerOk at_ words id off (at_ off) && walkHeaders at_ words id n (off + hdrLen (at_ off) + 1)

/-- The code words of an image pass R139. -/
def imageOk (m : Store 128) (words id : Nat) : Bool := walkHeaders (sget m) words id words 0

/-- The pockets an overlay of so many words occupies (R137). -/
def pocketCount (words : Nat) : Nat := (words + 1023) / 1024

/-- A vector word passes R351: its magic, its reserved field, and every offset names a header. -/
def vectorOk (m : Store 128) (words : Nat) (v : Word) : Bool :=
  bits v.toNat 96 32 = 0x56454354 && bits v.toNat 60 36 = 0 &&
    [0, 12, 24, 36, 48].all (fun sh =>
      let o := bits v.toNat sh 12
      o = 0 || (o < words && isHeaderWord (sget m o)))

/-- Reads `n` code words of 16 bytes in ascending order: the words by offset, and whether one is poisoned. -/
def readWords (rd : State → Nat → Except Fail (Word × Bool) × State) : Nat → Nat → Store 128 → Bool → State →
    Except (Fail × Nat) (Store 128 × Bool) × State
  | 0, _, m, bad, s => (.ok (m, bad), s)
  | n + 1, i, m, bad, s =>
    match rd s i with
    | (.error f, s1) => (.error (f, i), s1)
    | (.ok (w, b), s1) => readWords rd n (i + 1) (sput m i w) (bad || b) s1

/-! ### The directory (R264, R265) -/

/-- P: the context's pocket allocation on a core. -/
def pocketsOf (s : State) (core p ctx : Nat) : Nat :=
  s.teams.foldl (fun n e =>
    if e.2.part = p && e.2.ctx = ctx && (coresOf e.2).contains core then max n e.2.launch.pockets else n) 0

/-- RP: the pockets of the root overlay; Sageip's lies in pocket 15 (R425). -/
def rootPocketsOf (s : State) (core p ctx : Nat) : Nat :=
  (coreOf s core).dir.foldl (fun n e => if e.part = p && e.ctx = ctx && e.root && e.first ≠ 15 then max n (e.first + e.count) else n) 0

/-- The tokens of an overlay: the context's resident groups on the core with a non-zero count, and the sequencers that
run in it (R264, R291). -/
def tokensOf (s : State) (core p ctx id : Nat) : Nat :=
  (s.groups.filter (fun e => e.2.part == p && e.2.ctx == ctx && e.2.core == core && (mgetD e.2.holds id 0) != 0)).length +
    (s.teams.filter (fun e => e.2.part == p && e.2.ctx == ctx && e.2.home == core &&
      (match e.2.seq with | some q => !q.ended && pcOverlay q.pc == id | none => false))).length

/-- Removes directory entries of a context. -/
def evict (s : State) (core p ctx : Nat) (gone : DirEntry → Bool) : State :=
  modCore s core (fun c => { c with dir := c.dir.filter (fun e => !(e.part == p && e.ctx == ctx && gone e)) })

/-- The overlay's state for the group's context on its core. -/
def ovEntry (s : State) (g : Group) (id : Nat) : Option DirEntry := dirFind s g.core g.part g.ctx id

/-- A pocket range overlaps an entry's. -/
def overlaps (first n : Nat) (e : DirEntry) : Bool := e.first < first + n && first < e.first + e.count

/-- OVLD (R266): it waits for the group's earlier accesses (R130), and without F for the tokens of what it evicts. -/
def loadOverlay (f : Bool) (c : Iss) (s : State) : State :=
  if !homeNow s c then s
  else if operandDiffers c c.x.a || operandDiffers c c.x.b then liningMismatch s c c.sp.mask
  else
    let g := c.g
    let first := (uniOperand g c.x 0 c.x.a).toNat
    let n := c.x.bits 12 2 + 1
    let id := c.x.bits 0 12
    if first < rootPocketsOf s g.core g.part g.ctx || pocketsOf s g.core g.part g.ctx < first + n then
      raiseIss s c evIllegalOperand c.sp.mask 0
    else if (ovEntry s g id).isSome then advance s c
    else
      let vs := (coreOf s g.core).dir.filter (fun e => e.part == g.part && e.ctx == g.ctx && overlaps first n e)
      if !f && vs.any (fun e => tokensOf s g.core g.part g.ctx e.id != 0) then s
      else
        let s1 := evict s g.core g.part g.ctx (overlaps first n)
        let e : DirEntry :=
          { part := g.part, ctx := g.ctx, id, st := .loading, first, count := n, image := uniOperand g c.x 0 c.x.b
            gid := c.gid, split := c.j, pc := c.sp.pc, serial := g.serial, slotB := slotByte (identOf s g), index := g.index }
        advance (modCore s1 g.core (fun k => { k with dir := k.dir ++ [e] })) c

/-- OVLD (R266). -/
def execOvld (x : Enc) (s : State) : Out := issue .ovld x s (loadOverlay false)
/-- OVLD.F (R266). -/
def execOvldF (x : Enc) (s : State) : Out := issue .ovldF x s (loadOverlay true)

/-- A word of an image that OVLD loads, read as a copy's source with X permission. -/
def readImageWord (core : Nat) (e : DirEntry) (s : State) (i : Nat) : Except Fail (Word × Bool) × State :=
  let va := e.image + BitVec.ofNat 64 (16 * i)
  match mget s.groups e.gid with
  | some _ =>
    match readAcc s e.gid 0 0 0 (accAt 0 va.toInt 16 16 0) .x with
    | (.error f, s1) => (.error f, s1)
    | (.ok f, s1) => (.ok (BitVec.ofNat 128 (leNat f.bytes), f.poisoned), s1)
  | none =>
    match engineRead s { core, part := e.part, ctx := e.ctx } va 16 .x with
    | .error f => (.error f, s)
    | .ok (bs, bad) =>
      (.ok (BitVec.ofNat 128 (leNat bs), bad), engineTouch s { core, part := e.part, ctx := e.ctx } va 16 0)

/-- A failed image read writes a record with UNIFORM set and access kind 0; the overlay stays LOADING (R266). -/
def imageFault (s : State) (core : Nat) (e : DirEntry) (f : Fail) (i : Nat) : State :=
  let a := e.image + BitVec.ofNat 64 (16 * i)
  let s1 := dirMod s core e.part e.ctx e.id (fun e => { e with faulted := true })
  match mget s.groups e.gid with
  | some g =>
    let mask := match mget g.splits e.split with
      | some sp => sp.mask
      | none => 0
    groupRecord s1 g e.pc f 0 mask [a] false true false 0 16
  | none =>
    emitRecord s1 e.part (faultRec e.pc f.cause (recFlags false f.malformed f.poisoned true false f.remote true) f.level
      e.ctx e.serial 0 0 a.toNat (coreidOf s core) e.slotB e.index (16 * 2 ^ 8))

/-- An image that fails its checks leaves the pockets EMPTY and raises OVERLAY_CORRUPT for the OVLD's group (R265). -/
def imageCorrupt (s : State) (core : Nat) (e : DirEntry) : State :=
  let s1 := evict s core e.part e.ctx (fun d => d.id == e.id)
  match mget s1.groups e.gid with
  | some _ => haltGroup s1 e.gid evOverlayCorrupt e.pc 0 0
  | none => raiseHalt s1 e.part evOverlayCorrupt [] 0 0

/-- The image of a LOADING overlay is read and checked (R265, R266). -/
def finishOverlay (s : State) (core : Nat) (e : DirEntry) : State :=
  let rd := readImageWord core e
  match rd s 0 with
  | (.error f, s1) => imageFault s1 core e f 0
  | (.ok (w, bad), s1) =>
    match descWords e.id w with
    | none => imageCorrupt s1 core e
    | some n =>
      match readWords (fun s i => rd s (i + 1)) n 0 [] bad s1 with
      | (.error (f, i), s2) => imageFault s2 core e f (i + 1)
      | (.ok (m, bad), s2) =>
        if bad || e.count < pocketCount n || !imageOk m n e.id then imageCorrupt s2 core e
        else dirMod s2 core e.part e.ctx e.id (fun e => { e with st := .resident, words := m, len := n })

/-- OVERLAY_LOAD_COMPLETE (R266). -/
def execOverlayLoadComplete (core ctx : Nat) (overlay : BitVec 12) (s : State) : Out :=
  stepEvent s (fun s =>
    match (coreOf s core).dir.find? (fun e => e.ctx == ctx && e.id == overlay.toNat && e.st == .loading && !e.faulted) with
    | some e => if memReady s e.part then finishOverlay s core e else s
    | none => s)

/-! ### Queries (R267) -/

/-- The overlay id that an operand names, in its bits 11:0. -/
def ovOperand (c : Iss) : Nat := (uniOperand c.g c.x 0 c.x.a).toNat % 2 ^ 12

/-- OVWAIT (R267). -/
def execOvwait (x : Enc) (s : State) : Out :=
  issue .ovwait x s (fun c s =>
    if operandDiffers c x.a then liningMismatch s c c.sp.mask
    else
      let done (v : BitVec 64) : State := advance (onGroup s c (fun g => putScalar g x.d.idx (fun _ => v))) c
      match ovEntry s c.g (ovOperand c) with
      | none => done 0
      | some e => if e.st == .loading then s else done 2)

/-- What OVQUERY reads. -/
def ovStatus (s : State) (g : Group) (id : Nat) : BitVec 64 :=
  match ovEntry s g id with
  | none => 0
  | some e =>
    BitVec.ofNat 64 ((if e.st == .loading then 1 else 2) + e.first % 16 * 2 ^ 4 + (e.count - 1) % 4 * 2 ^ 8 +
      tokensOf s g.core g.part g.ctx id % 2 ^ 16 * 2 ^ 16 + (mgetD g.holds id 0 != 0).toNat * 2 ^ 32)

/-- OVQUERY (R267). -/
def execOvquery (x : Enc) (s : State) : Out :=
  issue .ovquery x s (fun c s =>
    if operandDiffers c x.a then liningMismatch s c c.sp.mask
    else advance (onGroup s c (fun g => putScalar g x.d.idx (fun _ => ovStatus s c.g (ovOperand c)))) c)

/-! ### Holds (R264, R268) -/

/-- The hold table has 16 entries and none for the overlay. -/
def holdFull (g : Group) (id : Nat) : Bool := 16 ≤ g.holds.length && (mget g.holds id).isNone

/-- Adds 1 to a count; one that has reached 2^32 - 1 stays. -/
def holdAdd (g : Group) (id : Nat) : Group :=
  let n := mgetD g.holds id 0
  { g with holds := mput g.holds id (if n = BitVec.allOnes 32 then n else n + 1) }

/-- Subtracts 1 from a count and removes the entry at 0; one that has reached 2^32 - 1 stays (R264). -/
def holdSub (g : Group) (id : Nat) : Group :=
  match mget g.holds id with
  | none => g
  | some n =>
    if n = BitVec.allOnes 32 then g
    else if n.toNat ≤ 1 then { g with holds := mdel g.holds id }
    else { g with holds := mput g.holds id (n - 1) }

/-- OVHOLD (R268). -/
def execOvhold (x : Enc) (s : State) : Out :=
  issue .ovhold x s (fun c s =>
    if operandDiffers c x.a then liningMismatch s c c.sp.mask
    else
      let id := ovOperand c
      let r : Nat := if (residentOv s c.g.core c.g.part c.g.ctx id).isNone then 0 else if holdFull c.g id then 2 else 1
      advance (onGroup s c (fun g =>
        putScalar (if r = 1 then holdAdd g id else g) x.d.idx (fun _ => BitVec.ofNat 64 r))) c)

/-- OVDROP (R268). -/
def execOvdrop (x : Enc) (s : State) : Out :=
  issue .ovdrop x s (fun c s =>
    if operandDiffers c x.a then liningMismatch s c c.sp.mask
    else advance (onGroup s c (fun g => holdSub g (ovOperand c))) c)

/-! ### Images that Darner loads for a job (R329, R332) -/

/-- What a load of an overlay for a reserve-core job comes to: loaded, waiting for REPLAY, or not loaded (the job's
run ends). -/
inductive JobLoad where
  | loaded (s : State)
  | waits (s : State)
  | bad
  deriving DecidableEq, Repr

/-- The fault record of a job's image read: UNIFORM, access kind 0, SLOT bit DARNER, in the original's name (R329). -/
def darnerRecord (s : State) (j : Job) (g : Group) (f : Fail) (va : BitVec 64) : State :=
  emitRecord s j.part (faultRec g.region.openPc f.cause
    (recFlags false f.malformed f.poisoned true false f.remote true) f.level g.ctx g.serial 0 g.live va.toNat
    (coreidOf s g.core) (slotByte g + 64) g.index (16 * 2 ^ 8))

/-- Loads an overlay into a reserve core's pockets from the image address that the original core's directory has. A
read that faults in a replay writes a record; in an audit, and where a check fails, the overlay is not loaded. -/
def darnerLoad (s : State) (core : Nat) (j : Job) (id : Nat) : JobLoad :=
  match j.orig, mget j.images id with
  | some g, some (image, root) =>
    let at_ (i : Nat) : BitVec 64 := image + BitVec.ofNat 64 (16 * i)
    let rd (s : State) (i : Nat) : Except Fail (Word × Bool) × State :=
      match engineRead s { core, part := g.part, ctx := g.ctx, sageip := g.sageip } (at_ i) 16 .x with
      | .error f => (.error f, s)
      | .ok (bs, bad) => (.ok (BitVec.ofNat 128 (leNat bs), bad), s)
    let fail (f : Fail) (i : Nat) : JobLoad :=
      match j.kind with
      | .replay _ =>
        .waits (darnerRecord { s with jobs := updFirst (fun k => k.id == j.id) (fun k => { k with faulted := true }) s.jobs }
          j g f (at_ i))
      | _ => .bad
    match (rd s 0).1 with
    | .error f => fail f 0
    | .ok (w, bad) =>
      match descWords id w with
      | none => .bad
      | some n =>
        let m := if root then n + 1 else n
        match (readWords (fun s i => rd s (i + 1)) m 0 [] bad s).1 with
        | .error (f, i) => fail f (i + 1)
        | .ok (ws, bad) =>
          let code := if root then sput ws n 0 else ws
          if bad || !imageOk code n id || (root && !vectorOk code n (sget ws n)) then .bad
          else
            let first := (coreOf s core).dir.foldl (fun a e =>
              if e.part = g.part && e.ctx = g.ctx then max a (e.first + e.count) else a) 0
            let s1 := engineTouch s { core, part := g.part, ctx := g.ctx, sageip := g.sageip } image (16 * (m + 1)) (chainOf s g)
            .loaded (modCore s1 core (fun c => { c with
              dir := c.dir ++ [{ part := g.part, ctx := g.ctx, id, st := .resident, first, count := pocketCount n
                                 words := code, len := n, image, root, vec := if root then sget ws n else 0 }] }))
  | _, _ => .bad

/-- An overlay that a CALLO in a job misses is loaded, and the CALLO issues again; the job waits while the load does. -/
def jobOverlay (s : State) (c : Iss) (j : Job) (id : Nat) : State :=
  if j.faulted then s
  else
    match darnerLoad s c.g.core j id with
    | .loaded s1 => s1
    | .waits s1 => s1
    | .bad => endJob s c.gid j.id .event

/-! ### CALLO and RETO (R269, R270) -/

/-- CALLO to a target (R269). -/
def callOverlay (t : Pc) (c : Iss) (s : State) : State :=
  let g := c.g
  let id := pcOverlay t
  let missing := (residentOv s g.core g.part g.ctx id).isNone
  if c.x.a.isS && operandDiffers c c.x.a then liningMismatch s c c.sp.mask
  else if missing && (jobOf s g).isSome && !holdFull g id then
    (match jobOf s g with | some j => jobOverlay s c j id | none => s)
  else if missing || holdFull g id then
    raise s c.gid { code := evOverlayMiss, precise := true, split := c.j, epc := c.sp.pc, lanes := c.sp.mask
                    info := BitVec.ofNat 64 id, info2 := 0, holdFull := holdFull g id, op := s.nextOp }
  else
    match returnPc s g.core g.part g.ctx c.sp.pc with
    | none => raiseIss s c evBadTarget c.sp.mask 0
    | some r =>
      if isHeaderPc s g.core g.part g.ctx t then
        goOn (onGroup s c (fun g => putScalar (holdAdd g id) c.x.d.idx (fun _ => r.setWidth 64))) c t
      else raiseIss s c evBadTarget c.sp.mask 0

/-- CALLO (R269). -/
def execCallo (x : Enc) (s : State) : Out :=
  issue .callo x s (callOverlay (mkPc (x.bits 0 12) x.imm.toNat))

/-- CALLO with REG = 1 (R269). -/
def execCalloReg (x : Enc) (s : State) : Out :=
  issue .calloReg x s (fun c s => callOverlay ((uniOperand c.g x 0 x.a).extractLsb' 0 32) c s)

/-- RETO (R269): the target is not checked. -/
def execReto (x : Enc) (s : State) : Out :=
  issue .reto x s (fun c s =>
    if operandDiffers c x.a then liningMismatch s c c.sp.mask
    else
      let t : Pc := (uniOperand c.g x 0 x.a).extractLsb' 0 32
      if (residentOv s c.g.core c.g.part c.g.ctx (pcOverlay t)).isSome && !isHeaderPc s c.g.core c.g.part c.g.ctx t then
        raiseIss s c evBadTarget c.sp.mask 0
      else goOn (onGroup s c (fun g => holdSub g (pcOverlay c.sp.pc))) c t)

end Sys2Proof.Machine
end

