-- ==== Sys2Proof/Machine/Place.lean ====
section
/-!
DEFINITION. Placement: what a team takes of a core, the cores that qualify for it, its start, and the victims of a
launch that cannot be placed (R18, R26, R31 to R33, R69 to R71, R264, R292, R294, R334, R351, R362, R364).
-/
namespace Sys2Proof.Machine
open Sys2Proof

/-- A cluster is ready. -/
def clusterReady (s : State) (k : Nat) : Bool := readyBit s 6 (32 + k)
/-- The launch front-end is ready, and the partition's memory, which it reads and writes (R431). -/
def frontReady (s : State) : Bool := readyBit s 7 22

/-- The unretired active cores of the partition's clusters that are not quarantined (R70). -/
def activeCores (s : State) (p : Nat) : List Nat :=
  (bitsOf (partOf s p).clusters).flatMap (fun k =>
    let c := clusterOf s k
    if c.quarantined then []
    else c.map.filterMap (fun e => if (coreOf s (9 * k + e.2)).retired then none else some (9 * k + e.2)))

/-- The cores that the distributor may use now (R69, R431). -/
def openCores (s : State) (p : Nat) : List Nat :=
  (activeCores s p).filter (fun c => clusterReady s (clusterOfCore c) && !(coreOf s c).inTest)

/-- The partner of an active core with an even logical number (R16). -/
def partnerOf (s : State) (core : Nat) : Option Nat :=
  let n := logicalOf s core
  if n % 2 = 0 && n < 8 then physOf s (clusterOfCore core) (n + 1) else none

/-! ### What is in use on a core -/

/-- What is in use on a core: group slots as (side, slot), registers a lane by side × 16 + slice, scratchpad lines,
operand slots, pockets of other contexts and of the context, region lines, sequencers and the contexts of their
teams, the context's root, retired blocks (R30). -/
structure CoreUse where
  core : Nat
  slots : List (Nat × Nat) := []
  regs : Amap Nat := []
  scratch : Nat := 0
  ops : Nat := 0
  others : Nat := 0
  own : Nat := 0
  rgn : Nat := 0
  seqs : Nat := 0
  seqCtx : List Nat := []
  root : Option (Nat × BitVec 64) := none
  blocks : List Nat := []
  deriving DecidableEq, Repr

/-- A group takes its slot and registers. -/
def takeSpot (u : CoreUse) (side slot slice0 n nv : Nat) : CoreUse :=
  { u with
    slots := (side, slot) :: u.slots
    regs := (List.range n).foldl (fun m k =>
      mput m (16 * side + slice0 + k) (mgetD m (16 * side + slice0 + k) 0 + nv)) u.regs }

/-- Scratchpad lines of a team on its home core, or on the partner (R113). -/
def scratchOn (pair home : Bool) (n : Nat) : Nat := if !pair then n else if home then (n + 1) / 2 else n / 2

/-- A team of the context `ctx` of the launch takes its share of a core. -/
def takeTeam (u : CoreUse) (l : Launch) (ctx own : Nat) (home : Bool) : CoreUse :=
  { u with
    scratch := u.scratch + scratchOn l.pair home l.scratch, ops := u.ops + l.slots, rgn := u.rgn + l.rgnCore
    own := if ctx = own then max u.own l.pockets else u.own
    seqs := u.seqs + (if l.seqEntry ≠ 0 then 1 else 0)
    seqCtx := if l.seqEntry ≠ 0 then ctx :: u.seqCtx else u.seqCtx }

/-- Pockets that the other contexts of the partition hold on a core; Sageip holds pocket 15 (R26). -/
def othersPockets (s : State) (core p ctx : Nat) : Nat :=
  ((List.range 16).filter (· ≠ ctx)).foldl (fun n c => n + pocketsOf s core p c) 0 +
    (if s.groups.any (fun e => e.2.sageip && e.2.core == core) then 1 else 0)

/-- What is in use on a core, as a launch of a context meets it. -/
def useOf (s : State) (core p ctx : Nat) : CoreUse :=
  let u0 : CoreUse :=
    { core, others := othersPockets s core p ctx, blocks := (coreOf s core).blocks
      root := (rootOv s core p ctx false).map (fun e => (e.id, e.image)) }
  let u1 := s.groups.foldl (fun u e =>
    if e.2.core = core then takeSpot u e.2.side e.2.slot e.2.slice0 e.2.slices e.2.nv else u) u0
  s.teams.foldl (fun u e =>
    if (coresOf e.2).contains core then takeTeam u e.2.launch e.2.ctx ctx (e.2.home == core) else u) u1

/-- A core of the partition when idle (R70): only Sageip's groups are there. -/
def idleUse (s : State) (core : Nat) : CoreUse :=
  let u0 : CoreUse := { core, blocks := (coreOf s core).blocks }
  s.groups.foldl (fun u e =>
    if e.2.core = core && e.2.sageip then
      { takeSpot u e.2.side e.2.slot e.2.slice0 e.2.slices e.2.nv with others := 1 }
    else u) u0

/-! ### Where a team fits (R69) -/

/-- A place for a group: side, slot and first slice. -/
abbrev Spot := Nat × Nat × Nat

/-- A retired block lies in the slices (R30). -/
def blockRetired (u : CoreUse) (side first n : Nat) : Bool :=
  u.blocks.any (fun b => b / 2 == side && 8 * (b % 2) < first + n && first < 8 * (b % 2) + 8)

/-- The places of a core for a group of `n` slices and `nv` registers a lane. -/
def spotsFor (u : CoreUse) (n nv : Nat) : List Spot :=
  [0, 1].flatMap (fun side =>
    (List.range 16).flatMap (fun slot =>
      if u.slots.contains (side, slot) then []
      else (List.range (16 / n)).filterMap (fun b =>
        let first := n * b
        if blockRetired u side first n ||
            (List.range n).any (fun k => 2048 < mgetD u.regs (16 * side + first + k) 0 + nv) then none
        else some (side, slot, first))))

/-- Places for `k` groups on a core, one after the other. Which of the qualifying places is not stated (log entry 5). -/
def seatGroups (n nv : Nat) : Nat → Nat → CoreUse → Option (List Spot × CoreUse)
  | 0, _, u => some ([], u)
  | k + 1, d, u =>
    match spotsFor u n nv with
    | [] => none
    | x :: l =>
      let spot := (x :: l).getD (Config.corePick d % (l.length + 1)) x
      match seatGroups n nv k (d + 1) (takeSpot u spot.1 spot.2.1 spot.2.2 n nv) with
      | none => none
      | some (ss, u') => some (spot :: ss, u')

/-- Slices of a group of a launch (R18, R334). -/
def launchSlices (l : Launch) : Nat := if l.lining then l.width / 2 else l.width / 4

/-- Everything but the groups' places is free on a core (R69, R264, R294). -/
def coreHasRoom (u : CoreUse) (l : Launch) (ctx : Nat) (home : Bool) : Bool :=
  u.scratch + scratchOn l.pair home l.scratch ≤ 4096 && u.ops + l.slots ≤ 64 &&
    u.others + max u.own l.pockets ≤ 16 && u.rgn + l.rgnCore ≤ 4096 &&
    (u.root.isNone || u.root == some (pcOverlay l.entry, l.root)) &&
    (l.seqEntry = 0 || (u.seqs < 4 && u.seqCtx.all (· == ctx)))

/-- A share of a team on one core: the places of its groups there, and what is then in use. -/
def fitCore (u : CoreUse) (l : Launch) (ctx groups d : Nat) (home : Bool) : Option (List Spot × CoreUse) :=
  if !coreHasRoom u l ctx home then none
  else
    match seatGroups (launchSlices l) l.vregs groups d u with
    | none => none
    | some (ss, u') => some (ss, { takeTeam u' l ctx ctx home with root := some (pcOverlay l.entry, l.root) })

/-- Groups of a team on its home core (R33). -/
def homeGroups (l : Launch) : Nat := if l.pair then (l.groups + 1) / 2 else l.groups

/-- A team on a core, or on a pair. -/
def fitTeam (l : Launch) (ctx d : Nat) (h : CoreUse) (q : Option CoreUse) :
    Option (List Spot × CoreUse × List Spot × Option CoreUse) :=
  match fitCore h l ctx (homeGroups l) d true with
  | none => none
  | some (hs, h') =>
    if !l.pair then some (hs, h', [], none)
    else
      match q with
      | none => none
      | some q =>
        match fitCore q l ctx (l.groups - homeGroups l) (d + 16) false with
        | none => none
        | some (qs, q') => some (hs, h', qs, some q')

/-- The sites for a team: cores, or pairs with the even core as home (R16). -/
def sitesOf (s : State) (cores : List Nat) (pair : Bool) : List (Nat × Option Nat) :=
  if !pair then cores.map (fun c => (c, none))
  else cores.filterMap (fun c =>
    match partnerOf s c with
    | some q => if cores.contains q then some (c, some q) else none
    | none => none)

/-- Teams of a launch that fit a site one after the other, at most `fuel`. -/
def teamsThatFit (l : Launch) (ctx : Nat) (h : CoreUse) (q : Option CoreUse) : Nat → Nat
  | 0 => 0
  | fuel + 1 =>
    match fitTeam l ctx 0 h q with
    | none => 0
    | some (_, h', _, q') => teamsThatFit l ctx h' q' fuel + 1

/-- The partition's cores, when idle, could hold the whole grid (R70). -/
def couldHold (s : State) (p ctx : Nat) (l : Launch) : Bool :=
  let n := (sitesOf s (activeCores s p) l.pair).foldl (fun n x =>
    n + teamsThatFit l ctx (idleUse s x.1) (x.2.map (idleUse s)) 32) 0
  l.gx * l.gy * l.gz ≤ n

/-! ### Starting a team -/

/-- Reading and checking a root image: its words and vector word; a failed read with its address; or an image that
fails its checks or carries poison (R264, R351). -/
inductive RootRead where
  | ok (words : Store 128) (len : Nat) (vec : BitVec 128)
  | fault (f : Fail) (va : BitVec 64)
  | corrupt
  deriving DecidableEq, Repr

/-- The distributor's read of a root image of at most `limit` pockets. -/
def readRoot (s : State) (p ctx id : Nat) (image : BitVec 64) (limit : Nat) : RootRead :=
  let at_ (i : Nat) : BitVec 64 := image + BitVec.ofNat 64 (16 * i)
  let rd (s : State) (i : Nat) : Except Fail (Word × Bool) × State :=
    match engineRead s { core := ioDie, part := p, ctx } (at_ i) 16 .x with
    | .error f => (.error f, s)
    | .ok (bs, bad) => (.ok (BitVec.ofNat 128 (leNat bs), bad), s)
  match (rd s 0).1 with
  | .error f => .fault f image
  | .ok (w, bad) =>
    match descWords id w with
    | none => .corrupt
    | some n =>
      match (readWords (fun s i => rd s (i + 1)) n 0 [] bad s).1 with
      | .error (f, i) => .fault f (at_ (i + 1))
      | .ok (m, bad) =>
        match (rd s (n + 1)).1 with
        | .error f => .fault f (at_ (n + 1))
        | .ok (v, badv) =>
          if bad || badv || limit < pocketCount n || !imageOk m n id || !vectorOk m n v then .corrupt
          else .ok m n v

/-- Puts a root overlay into a core's directory from a logical pocket on. -/
def putRoot (s : State) (core p ctx id first : Nat) (image : BitVec 64) (m : Store 128) (n : Nat) (v : BitVec 128) : State :=
  modCore s core (fun c => { c with
    dir := { part := p, ctx, id, st := .resident, first, count := pocketCount n, words := m, len := n, image
             root := true, vec := v } :: c.dir })

/-- What the placement of a team comes to. -/
inductive Placed where
  | ok (s : State)
  | noRoom
  | fault (f : Fail) (va : BitVec 64)
  | corrupt
  deriving DecidableEq, Repr

/-- The root of a launch on one core of a team: loaded unless it is there (R264). -/
def loadRootOn (s : State) (p ctx : Nat) (l : Launch) (core : Nat) : Placed :=
  match rootOv s core p ctx false with
  | some _ => .ok s
  | none =>
    match readRoot s p ctx (pcOverlay l.entry) l.root l.pockets with
    | .ok m n v =>
      let s1 := engineTouch s { core := ioDie, part := p, ctx } l.root (16 * (n + 2)) l.chain
      .ok (putRoot s1 core p ctx (pcOverlay l.entry) 0 l.root m n v)
    | .fault f va => .fault f va
    | .corrupt => .corrupt

/-- The accumulator store of a core at the placement of a sequencer team: kept for the context that used it last
or is using it, else zero (R294). -/
def claimAcc (s : State) (core p ctx : Nat) : State :=
  modCore s core (fun c =>
    if c.accCtx = some (p, ctx) then c else { c with acc := [], accPoison := [], accCtx := some (p, ctx) })

/-- The next serial of a partition (Table 13.3; log entry 6). -/
def freshSerial (s : State) (p : Nat) : BitVec 64 × State :=
  let n := (partOf s p).serials + 1
  (n, modPart s p (fun q => { q with serials := n }))

/-- A group of a launch at its place, at ENTRY, its registers as log entry 4 says (R31, R32, Table 3.6). -/
def launchGroup (p ctx tid : Nat) (l : Launch) (teamid index serial : Nat) (core : Nat) (x : Spot) (clk : Nat) : Group :=
  { serial := BitVec.ofNat 64 serial, part := p, ctx, team := tid, index, core, side := x.1, slot := x.2.1
    slice0 := x.2.2, slices := launchSlices l, width := l.width, lined := l.lining
    role := l.roles.getD index .vector, nv := l.vregs, ns := l.sregs
    priv := l.priv + BitVec.ofNat 64 (l.privSize * (teamid * l.groups + index)), privSize := l.privSize
    live := maskBelow l.width, splits := [(0, { pc := l.entry, mask := maskBelow l.width, age := clk + 1 })] }

/-- Puts a group into the package under a fresh serial and a fresh handle. -/
def putGroup (s : State) (p ctx tid : Nat) (l : Launch) (teamid index core : Nat) (x : Spot) : State :=
  let (n, s1) := freshSerial s p
  { s1 with
    groups := mput s1.groups s1.nextGid (launchGroup p ctx tid l teamid index n.toNat core x s.clk)
    nextGid := s1.nextGid + 1 }

/-- Puts the groups of a team at their places. -/
def putGroups (p ctx tid : Nat) (l : Launch) (teamid core : Nat) : Nat → List Spot → State → State
  | _, [], s => s
  | i, x :: xs, s => putGroups p ctx tid l teamid core (i + 1) xs (putGroup s p ctx tid l teamid i core x)

/-- The lowest sequencer index that no team has on its home core (R292). -/
def seqIndex (s : State) (core : Nat) : Nat :=
  ((List.range 4).find? (fun i => !s.teams.any (fun e => e.2.home == core &&
    (match e.2.seq with | some q => q.index == i | none => false)))).getD 0

/-- What names group 0 of a team in a fault record. -/
def leadOf (s : State) (tid : Nat) : Option (BitVec 64 × Nat × Nat) :=
  (s.groups.find? (fun e => e.2.team == tid && e.2.index == 0 && e.2.job.isNone)).map (fun e =>
    (e.2.serial, coreidOf s e.2.core, slotByte e.2))

/-- A team starts on its site: roots loaded, accumulator stores claimed, groups and sequencer in place, and its cores
acquire what the launch's packet acquired (R132, R264, R278, R292). -/
def startTeam (s : State) (p : Nat) (li : LaunchInst) (teamid home : Nat) (hs : List Spot) (partner : Option Nat)
    (qs : List Spot) : Placed :=
  let l := li.launch
  let roots := (home :: partner.toList).foldl (fun (r : Placed) c =>
    match r with
    | .ok s => loadRootOn s p li.ctx l c
    | r => r) (.ok s)
  match roots with
  | .ok s1 =>
    let s2 := if l.seqEntry = 0 then s1 else (home :: partner.toList).foldl (fun st c => claimAcc st c p li.ctx) s1
    let q : Option Seq :=
      if l.seqEntry = 0 then none
      else some { pc := l.seqEntry, q := sput (sput [] 0 l.args) 1 (BitVec.ofNat 64 teamid), age := s.clk + 1
                  index := seqIndex s2 home }
    let t : Team :=
      { part := p, ctx := li.ctx, queue := li.queue, prio := li.prio, launchId := li.id, launch := l
        teamid := BitVec.ofNat 64 teamid, gridid := li.gridid, home, partner, seq := q, placedAt := s.clk }
    let tid := s2.nextTid
    let s3 := { s2 with teams := mput s2.teams tid t, nextTid := tid + 1 }
    let s4 := putGroups p li.ctx tid l teamid home 0 hs s3
    let s5 := match partner with
      | some c => putGroups p li.ctx tid l teamid c (homeGroups l) qs s4
      | none => s4
    let s6 := modTeam s5 tid (fun t => { t with lead := leadOf s5 tid })
    .ok ((home :: partner.toList).foldl (fun st c => l1DropClean st c) s6)
  | r => r

/-- The sites where a team of the launch fits now. -/
def openSites (s : State) (p ctx : Nat) (l : Launch) : List (Nat × List Spot × Option Nat × List Spot) :=
  (sitesOf s (openCores s p) l.pair).filterMap (fun x =>
    match fitTeam l ctx s.draws (useOf s x.1 p ctx) (x.2.map (fun c => useOf s c p ctx)) with
    | some (hs, _, qs, _) => some (x.1, hs, x.2, qs)
    | none => none)

/-- Places one team of a launch on one of the qualifying sites (R69; which one is open, log entry 5). -/
def placeTeam (s : State) (p : Nat) (li : LaunchInst) (teamid : Nat) : Placed :=
  match openSites s p li.ctx li.launch with
  | [] => .noRoom
  | x :: l =>
    let y := (x :: l).getD (Config.corePick s.draws % (l.length + 1)) x
    startTeam { s with draws := s.draws + 64 } p li teamid y.1 y.2.1 y.2.2.1 y.2.2.2

/-- Places teams `first` to `first + n - 1`. -/
def placeTeams (p : Nat) (li : LaunchInst) : Nat → Nat → State → Placed
  | 0, _, s => .ok s
  | n + 1, first, s =>
    match placeTeam s p li first with
    | .ok s1 => placeTeams p li n (first + 1) s1
    | r => r

/-! ### Victims (R71, R362) -/

/-- Offset of the full/empty map of a cloak (R285). -/
def cloakSb (ns : Nat) : Nat := 512 + 64 * ((ns + 7) / 8)
/-- Size of a cloak (R285). -/
def cloakSize (w nv ns : Nat) : Nat := cloakSb ns + 64 + 4 * w + 4 * w * nv

/-- A size rounded up to 256 B. -/
def up256 (n : Nat) : Nat := (n + 255) / 256 * 256

/-- What saving a team takes of its context's save area, without the accumulator stores (R364). -/
def teamNeed (s : State) (tid : Nat) (t : Team) : Nat :=
  4096 + 136 * t.launch.scratch + (if t.seq.isSome then 32768 * t.launch.slots else 0) +
    s.groups.foldl (fun n e =>
      if e.2.team = tid && e.2.job.isNone then n + up256 (cloakSize e.2.width e.2.nv e.2.ns) else n) 0

/-- The cores on which the teams hold sequencers. -/
def seqCores (s : State) (tids : List Nat) : List Nat :=
  tids.foldl (fun l i =>
    match mget s.teams i with
    | some t => if t.seq.isSome then (coresOf t).foldl addOnce l else l
    | none => l) []

/-- What saving the teams takes: 4 MiB once for each core on which they hold sequencers (R364). -/
def saveNeed (s : State) (tids : List Nat) : Nat :=
  tids.foldl (fun n i => match mget s.teams i with | some t => n + teamNeed s i t | none => n) 0 +
    2 ^ 22 * (seqCores s tids).length

/-- Bytes of a context's save area that no saved team takes. -/
def saveFree (s : State) (p ctx : Nat) : Nat :=
  ctxWord s p ctx 4 - (partOf s p).saved.foldl (fun n v => if v.team.ctx = ctx then v.blocks.foldl (fun n b => n + b.2) n else n) 0

/-- Teams that a team stops with at once: those that share an accumulator store with it (R318), and its launch's under
CORES_ALL (R362). -/
def stopsWith (t : Team) (u : Team) : Bool :=
  (t.seq.isSome && u.seq.isSome && t.part == u.part && t.ctx == u.ctx &&
    (coresOf t).any (fun c => (coresOf u).contains c)) ||
  (t.launch.coresAll && t.part == u.part && t.launchId == u.launchId)

/-- The teams that stop when the given ones do. -/
def stopClosure (s : State) : Nat → List Nat → List Nat
  | 0, l => l
  | n + 1, l =>
    let more := (s.teams.filter (fun e => !l.contains e.1 && l.any (fun i =>
      match mget s.teams i with | some t => stopsWith t e.2 | none => false))).map (·.1)
    if more.isEmpty then l else stopClosure s n (l ++ more)

/-- The state without the given teams; a job that runs for one of them goes on (R27). -/
def withoutTeams (s : State) (l : List Nat) : State :=
  let s1 := { s with
    teams := s.teams.filter (fun e => !l.contains e.1), groups := s.groups.filter (fun e => !l.contains e.2.team || e.2.job.isSome) }
  l.foldl (fun st i =>
    match mget s.teams i with
    | some t => (coresOf t).foldl (fun st c => clearPockets st c t.part t.ctx) st
    | none => st) s1

/-- What a launch still to be placed asks to place: all its teams under CORES_ALL, else the next one (log entry 31). -/
def askedTeams (li : LaunchInst) : Nat := if li.launch.coresAll then li.total - li.next else 1

/-- `n` teams of the launch would fit. -/
def wouldFit (p ctx : Nat) (l : Launch) : Nat → State → Bool
  | 0, _ => true
  | n + 1, s =>
    match openSites s p ctx l with
    | [] => false
    | x :: _ =>
      let li : LaunchInst := { id := 0, launch := l, ctx, queue := none, prio := 0, gridid := 0, next := 0, total := 0 }
      let t : Team :=
        { part := p, ctx, queue := none, prio := 0, launchId := 0, launch := l, teamid := 0, gridid := 0, home := x.1
          partner := x.2.2.1, seq := if l.seqEntry = 0 then none else some { pc := 0 } }
      let s1 := { s with teams := mput s.teams s.nextTid t, nextTid := s.nextTid + 1 }
      let s2 := putGroups p ctx s.nextTid li.launch 0 x.1 0 x.2.1 s1
      let s3 := match x.2.2.1 with
        | some c => putGroups p ctx s.nextTid li.launch 0 c 0 x.2.2.2 s2
        | none => s2
      wouldFit p ctx l n s3

/-- Team `a` goes before team `b` as a victim: lowest priority first, then the launch whose last team was placed most
recently, then the team placed last (R71). -/
def victimBefore (s : State) (a b : Nat × Team) : Bool :=
  let last (t : Team) : Nat :=
    (((partOf s t.part).launches.find? (fun l => l.id == t.launchId)).map (·.lastPlaced)).getD t.placedAt
  let key (e : Nat × Team) : List Nat := [e.2.prio, last e.2, e.2.launchId, e.2.placedAt, e.1]
  (((key a).zip (key b)).find? (fun x => x.1 != x.2)).elim false (fun x => x.2 < x.1)

/-- Inserts a team into the order of victims. -/
def insertVictim (s : State) (a : Nat × Team) : List (Nat × Team) → List (Nat × Team)
  | [] => [a]
  | b :: l => if victimBefore s a b then a :: b :: l else b :: insertVictim s a l

/-- The launch that asks fits once the given teams have stopped. -/
def fitsWithout (s : State) (p : Nat) (li : LaunchInst) (vs : List Nat) : Bool :=
  wouldFit p li.ctx li.launch (askedTeams li) (withoutTeams s vs)

/-- Adds the teams of one launch, with those that stop with them, one after the other until the launch that asks fits. -/
def takeLaunch (s : State) (p : Nat) (li : LaunchInst) : List (Nat × Team) → List Nat → List Nat
  | [], vs => vs
  | e :: l, vs =>
    if vs.contains e.1 then takeLaunch s p li l vs
    else
      let vs' := stopClosure s s.teams.length (vs ++ [e.1])
      if fitsWithout s p li vs' then vs' else takeLaunch s p li l vs'

/-- The save area of every context holds what the teams need of it. -/
def saveHolds (s : State) (p : Nat) (vs : List Nat) : Bool :=
  (List.range 16).all (fun ctx =>
    let ofCtx := vs.filter (fun i => match mget s.teams i with | some t => t.ctx == ctx | none => false)
    ofCtx.isEmpty || saveNeed s ofCtx ≤ saveFree s p ctx)

/-- Adds victims launch by launch until the launch that asks fits. A launch whose save needs, those of its victim teams with
the teams stopped with them, exceed its save area is passed over whole (R362, R364). DESIGN CHOICE (log entry 31): where all
that may be stopped would not make room, no team is stopped. -/
def gatherVictims (s : State) (p : Nat) (li : LaunchInst) : List (List (Nat × Team)) → List Nat → Option (List Nat)
  | [], vs => if fitsWithout s p li vs then some vs else none
  | ts :: l, vs =>
    if fitsWithout s p li vs then some vs
    else
      let vs' := takeLaunch s p li ts vs
      gatherVictims s p li l (if saveHolds s p vs' then vs' else vs)

/-- Runs of neighbours of one launch. -/
def byLaunch : List (Nat × Team) → List (List (Nat × Team))
  | [] => []
  | e :: l =>
    match byLaunch l with
    | (f :: r) :: rs => if f.2.launchId = e.2.launchId then (e :: f :: r) :: rs else [e] :: (f :: r) :: rs
    | rs => [e] :: rs

/-- A team that a request may stop: of a launch of lower priority, in place, of no earlier request (R71, R362). DESIGN CHOICE
(log entry 31): a team with launchId 0, which is a RESUME's or a shader's (R390), is of no launch; it is never stopped for a
request and asks for none. -/
def mayStop (s : State) (p prio : Nat) (e : Nat × Team) : Bool :=
  e.2.part == p && prio < e.2.prio && !e.2.held && e.2.launchId != 0 &&
    !(partOf s p).preempts.any (fun q => q.victims.contains e.1)

/-- The victims of a request. -/
def chooseVictims (s : State) (p : Nat) (li : LaunchInst) : Option (List Nat) :=
  let cand := (s.teams.filter (mayStop s p li.prio)).foldl (fun l e => insertVictim s e l) []
  gatherVictims s p li (byLaunch cand) []

/-- A victim's units are told to stop (R363): its groups and sequencer issue no more. -/
def tellStop (s : State) (tid : Nat) : State :=
  let s1 := modTeam s tid (fun t => { t with seq := t.seq.map (fun q => { q with stopped := true }) })
  { s1 with groups := s1.groups.map (fun e => if e.2.team = tid && e.2.job.isNone then (e.1, { e.2 with stopped := true }) else e) }

/-- The request at the head is served: its victims are chosen and told to stop; a request that needs no team, or that no
victims could serve, is over (R362). -/
def tellHead (p : Nat) : Nat → State → State
  | 0, s => s
  | n + 1, s =>
    match (partOf s p).preempts with
    | [] => s
    | r :: l =>
      let tell (vs : List Nat) : State :=
        (vs.filter (fun t => !r.acked.contains t)).foldl tellStop
          (modPart s p (fun q => { q with preempts := { r with victims := vs } :: l }))
      match r.ask, r.victims with
      | some li, [] =>
        match chooseVictims s p li with
        | some (v :: vs) => tell (v :: vs)
        | _ => tellHead p n (modPart s p (fun q => { q with preempts := l }))
      | _, vs => tell vs

/-- A request takes its place behind those of its priority or a higher one. -/
def queueRequest (r : Preempt) : List Preempt → List Preempt
  | [] => [r]
  | a :: l => if r.prio < a.prio then r :: a :: l else a :: queueRequest r l

/-- Requests are served one at a time: by the requester's priority, and then in order of arrival (R362). -/
def addRequest (s : State) (p : Nat) (r : Preempt) : State :=
  let s1 := modPart s p (fun q => { q with preempts := match q.preempts with
    | [] => [r]
    | a :: l => if a.victims.isEmpty then queueRequest r (a :: l) else a :: queueRequest r l })
  tellHead p (partOf s1 p).preempts.length s1

/-- A launch that cannot be placed asks for pre-emption (R71); a request already made stands. -/
def askPreempt (s : State) (p : Nat) (li : LaunchInst) : State :=
  if 3 ≤ li.prio || (partOf s p).preempts.any (fun r => r.launchId == li.id) then s
  else addRequest s p { launchId := li.id, prio := li.prio, victims := [], ask := some li }

end Sys2Proof.Machine
end

