-- ==== Sys2Proof/Machine/Front.lean ====
section
/-!
DEFINITION. The launch front-end: the packets of a queue and the distributor's steps (R60, R65 to R71, R422,
Tables 3.5 and 3.6). A front-end access for which the spec states no fault waits while it cannot be performed
(log entry 32).
-/
namespace Sys2Proof.Machine
open Sys2Proof

/-! ### Packets (R66) -/

/-- The bytes from offset `lo` up to `hi` are zero. -/
def zeros (bs : List (BitVec 8)) (lo hi : Nat) : Bool := ((bs.drop lo).take (hi - lo)).all (· == 0)

/-- A role of Table 3.2. -/
def roleOf : Nat → Option Role
  | 0 => some .vector
  | 1 => some .copy
  | 2 => some .system
  | _ => none

/-- The roles of groups 0 to `n - 1`, unless one is illegal. Bits beyond them are not read (log entry 33). -/
def rolesOf (v : Nat) : Nat → Option (List Role)
  | 0 => some []
  | n + 1 =>
    match roleOf (bits v 0 2), rolesOf (v / 4) n with
    | some r, some l => some (r :: l)
    | _, _ => none

/-- The fields of a LAUNCH packet's 128 bytes (Table 3.6), or nothing when it is malformed. -/
def parseLaunch (bs : List (BitVec 8)) : Option Launch :=
  let f (off n : Nat) : Nat := fieldAt bs off n
  let fl := f 2 2
  let wc := bits fl 6 2
  let width := if wc = 0 then 16 else if wc = 1 then 32 else 64
  let pair := bits fl 1 1 = 1
  let lining := bits fl 2 1 = 1
  let ok :=
    f 0 1 = 1 && f 1 1 = 8 && bits fl 8 8 = 0 && bits fl 4 2 ≠ 3 && wc ≠ 3 && !(lining && wc = 2) &&
    bits (f 4 1) 6 2 = 0 && 1 ≤ f 5 1 && f 5 1 ≤ 32 && 1 ≤ f 6 2 && f 6 2 ≤ 256 && 1 ≤ f 8 1 && f 8 1 ≤ 64 &&
    f 9 1 ≤ 64 && 1 ≤ f 10 1 && f 10 1 ≤ 16 && f 11 1 = 0 && f 12 2 ≤ (if pair then 8192 else 4096) &&
    f 14 2 ≤ 4096 && f 16 2 ≤ 4096 && f 18 2 = 0 && 1 ≤ f 48 4 && 1 ≤ f 52 4 && 1 ≤ f 56 4 &&
    4096 ≤ f 60 4 && f 60 4 % 4096 = 0 && zeros bs 80 128
  if !ok then none
  else
    match rolesOf (f 72 8) (f 5 1) with
    | none => none
    | some roles =>
      some { coresAll := bits fl 0 1 = 1, pair, lining, acceptPoison := bits fl 3 1 = 1, audit := bits fl 4 2, width
             chain := bits (f 4 1) 0 6, groups := f 5 1, vregs := f 6 2, sregs := f 8 1, slots := f 9 1
             pockets := f 10 1, scratch := f 12 2, rgnMax := f 14 2, rgnCore := f 16 2
             seqEntry := BitVec.ofNat 32 (f 20 4), entry := BitVec.ofNat 32 (f 24 4)
             poisonVal := BitVec.ofNat 32 (f 28 4), root := BitVec.ofNat 64 (f 32 8), args := BitVec.ofNat 64 (f 40 8)
             gx := f 48 4, gy := f 52 4, gz := f 56 4, privSize := f 60 4, priv := BitVec.ofNat 64 (f 64 8), roles }

/-- A packet of a queue. -/
inductive Packet where
  | launch (l : Launch)
  | fence (entries : List (BitVec 64 × BitVec 64))
  | signal
  | chainEnd
  | tasks (n : Nat) (table : BitVec 64)
  deriving DecidableEq, Repr

/-- LEN16 that a packet's TYPE and byte 2 call for (Table 3.5). -/
def packetLen (type ne : Nat) : Option Nat :=
  if type = 1 then some 8
  else if type = 2 then (if 1 ≤ ne && ne ≤ 12 then some (1 + ne) else none)
  else if type = 3 then some 2
  else if type = 4 then some 1
  else if type = 5 then some 2
  else none

/-- The entries of a FENCE: ADDR with CMP, and VALUE. -/
def fenceEntries (bs : List (BitVec 8)) (n : Nat) : List (BitVec 64 × BitVec 64) :=
  (List.range n).map (fun i => (BitVec.ofNat 64 (fieldAt bs (16 + 16 * i) 8), BitVec.ofNat 64 (fieldAt bs (24 + 16 * i) 8)))

/-- A packet from its bytes, or nothing when it is malformed (R66). -/
def parsePacket (bs : List (BitVec 8)) : Option Packet :=
  let type := fieldAt bs 0 1
  let two := fieldAt bs 2 1
  if packetLen type two ≠ some (fieldAt bs 1 1) then none
  else if type = 1 then (parseLaunch bs).map .launch
  else if type = 2 then
    let es := fenceEntries bs two
    if zeros bs 3 16 && es.all (fun e => bits e.1.toNat 0 3 ≤ 5) then some (.fence es) else none
  else if type = 3 then
    if two ≤ 1 && zeros bs 3 16 && fieldAt bs 16 8 % 8 = 0 then some .signal else none
  else if type = 4 then
    if two < 64 && zeros bs 3 16 then some .chainEnd else none
  else
    let n := fieldAt bs 4 4
    let table := fieldAt bs 8 8
    if zeros bs 2 4 && 1 ≤ n && n ≤ 2 ^ 24 && table % 64 = 0 && zeros bs 16 32 then some (.tasks n (BitVec.ofNat 64 table))
    else none

/-! ### The ring (R422) -/

/-- The front-end's accessor for a queue. -/
def queueAcc (p : Nat) (u : Queue) : Accessor := { core := ioDie, part := p, ctx := queueCtx u }

/-- The front-end reads memory of a queue's context, on ways that are ready (R431). -/
def frontRead (s : State) (q : Accessor) (va : BitVec 64) (n : Nat) (need : Need) : Except Fail (List (BitVec 8) × Bool) :=
  if engineReady s q va n then engineRead s q va n need else .error { cause := evPageFault }

/-- `n` parts of 16 bytes of the ring from a count on, and whether one is poisoned. -/
def readRing (s : State) (p : Nat) (u : Queue) : Nat → Nat → Except Fail (List (BitVec 8) × Bool)
  | 0, _ => .ok ([], false)
  | n + 1, x =>
    match frontRead s (queueAcc p u) (u.w0 + BitVec.ofNat 64 (x % queueSize u)) 16 .r with
    | .error f => .error f
    | .ok (bs, bad) =>
      match readRing s p u n (x + 16) with
      | .error f => .error f
      | .ok (bs', bad') => .ok (bs ++ bs', bad || bad')

/-- Stops a queue with a STOP code at its head (R66, R422). -/
def stopQueue (s : State) (p q code : Nat) : State :=
  writeQueueWords (modQueue s p q (fun u => { u with
    stop := code, offset := BitVec.ofNat 24 (u.head.toNat % queueSize u / 16) })) p q

/-- A queue may go on: its partition runs, the front-end is ready, no record of it waits for room (R421), it is enabled and
not stopped, no write of its words waits for REPLAY, and their way is ready (R431). -/
def queueRuns (s : State) (p : Nat) (u : Queue) : Bool :=
  (partOf s p).state == 0 && frontReady s && !engineRecordWaits s p && queueEnabled u && u.stop == 0 && !u.unwritten &&
    engineReady s (queueAcc p u) u.w3 16

/-- Its earlier packets are performed, and its head packet may be read. -/
def queueIdle (s : State) (p : Nat) (u : Queue) : Bool :=
  queueRuns s p u && u.fence.isEmpty && u.waiting.isEmpty && u.placing.isNone

/-- What reading the head packet comes to: nothing is there or it cannot be read yet, it is malformed, or it is whole,
with its bytes. A packet that carries poison counts as malformed (log entry 34). -/
inductive Head where
  | wait
  | malformed
  | packet (p : Packet) (bs : List (BitVec 8))
  deriving DecidableEq, Repr

/-- The packet at a queue's head. -/
def headPacket (s : State) (p : Nat) (u : Queue) : Head :=
  let avail := (u.tail - u.head).toNat
  if avail < 16 then .wait
  else
    match readRing s p u 1 u.head.toNat with
    | .error _ => .wait
    | .ok (h, _) =>
      match packetLen (fieldAt h 0 1) (fieldAt h 2 1) with
      | none => .malformed
      | some n =>
        if n ≠ fieldAt h 1 1 then .malformed
        else if avail < 16 * n then .wait
        else
          match readRing s p u n u.head.toNat with
          | .error _ => .wait
          | .ok (bs, bad) =>
            if bad then .malformed
            else
              match parsePacket bs with
              | none => .malformed
              | some k => .packet k bs

/-- The task engine's accessor in a context. -/
def taskAcc (p ctx : Nat) : Accessor := { core := ioDie, part := p, ctx }

/-- The address of a field of a task record. -/
def taskField (table : BitVec 64) (i off : Nat) : BitVec 64 := table + BitVec.ofNat 64 (64 * i + off)

/-- Every record of a graph can be reached. -/
def tableReached (s : State) (p ctx : Nat) (table : BitVec 64) (n : Nat) : Bool :=
  (List.range n).all (fun i => (frontRead s (taskAcc p ctx) (taskField table i 0) 64 .r).isOk)

/-- The comparison CMP of a FENCE entry. -/
def fenceHolds (cmp : Nat) (x v : BitVec 64) : Bool :=
  if cmp = 0 then x == v
  else if cmp = 1 then x != v
  else if cmp = 2 then v.toNat ≤ x.toNat
  else if cmp = 3 then x.toNat < v.toNat
  else if cmp = 4 then v.toInt ≤ x.toInt
  else x.toInt < v.toInt

/-- An entry of a FENCE holds. -/
def entryHolds (s : State) (p : Nat) (u : Queue) (e : BitVec 64 × BitVec 64) : Bool :=
  match frontRead s (queueAcc p u) (e.1 &&& ~~~ 7#64) 8 .r with
  | .ok (bs, _) => fenceHolds (bits e.1.toNat 0 3) (BitVec.ofNat 64 (leNat bs)) e.2
  | .error _ => false

/-- The work of every earlier packet of a queue has retired (R67). -/
def earlierRetired (s : State) (p q : Nat) : Bool :=
  (partOf s p).launches.all (fun l => l.queue != some q) && (partOf s p).graphs.all (fun g => g.queue != q)

/-- A pre-empted launch goes before an unplaced one of its own priority, and of a lower one too, of which R365 says nothing:
neither takes room nor asks for victims meanwhile (DESIGN CHOICE, log entry 95). -/
def savedFirst (s : State) (p : Nat) (li : LaunchInst) : Bool :=
  (partOf s p).launches.any (fun l => l.saved.isSome && l.prio ≤ li.prio)

/-- A launch whose next team cannot be placed at all for now: its partition or it is stopped, or a pre-empted launch goes
before it. -/
def launchHeld (s : State) (p : Nat) (li : LaunchInst) : Bool :=
  (partOf s p).state ≠ 0 || !frontReady s || !memReady s p || engineRecordWaits s p || li.total ≤ li.next || li.faulted || li.saved.isSome || savedFirst s p li

/-- The teams of a launch that are placed next find room. -/
def launchCan (s : State) (p : Nat) (li : LaunchInst) : Bool :=
  !launchHeld s p li && (match placeTeams p li (askedTeams li) li.next s with | .noRoom => false | _ => true)

/-- The physical cores of a partition. -/
def partCores (s : State) (p : Nat) : List Nat :=
  (bitsOf (partOf s p).clusters).flatMap (fun k => (List.range 9).map (fun i => 9 * k + i))

/-- A SIGNAL's address can be read where it adds, and written, on a way that is ready, and what a release at system scope
waits for is done (R67, R126, R431). -/
def signalReached (s : State) (p : Nat) (u : Queue) : Bool :=
  let a := BitVec.ofNat 64 (fieldAt u.waiting 16 8)
  let need : Need := if fieldAt u.waiting 2 1 = 1 then .rw else .w
  engineReady s (queueAcc p u) a 8 && (reachRuns s (queueAcc p u) a 8 need).isOk && !peersBehind s 6 &&
    (partCores s p).all (dirtyReady s)

/-- A SIGNAL or CHAIN.END can be performed: the earlier work of its queue has retired, and a SIGNAL's address is reached. -/
def waitReady (s : State) (p q : Nat) (u : Queue) : Bool :=
  earlierRetired s p q && (fieldAt u.waiting 0 1 ≠ 3 || signalReached s p u)

/-- A queue is ready: its head packet can proceed (R68). Its FENCE holds, the work before its SIGNAL or CHAIN.END has
retired, its LAUNCH finds room, or a packet can be read, and a TASKS packet's table reached. -/
def queueCan (s : State) (p q : Nat) : Bool :=
  let u := queueOf s p q
  queueRuns s p u &&
    (if !u.fence.isEmpty then u.fence.all (entryHolds s p u)
     else if !u.waiting.isEmpty then waitReady s p q u
     else match u.placing with
       | some id => (partOf s p).launches.any (fun l => l.id == id && launchCan s p l)
       | none =>
         match headPacket s p u with
         | .wait => false
         | .packet (.tasks n table) _ => tableReached s p (queueCtx u) table n
         | _ => true)

/-- How far a queue stands behind the one served last at its priority, in round-robin order (R68; log entry 87). -/
def queueRank (s : State) (p q : Nat) : Nat :=
  (q + 63 - mgetD (partOf s p).served (queuePrio (queueOf s p q)) 63) % 64

/-- The front-end's turn is the queue's: no ready queue of its partition has a higher priority, and at its own priority
none comes before it in round-robin (R68). -/
def queueTurn (s : State) (p q : Nat) : Bool :=
  (partOf s p).queues.all (fun e => e.1 == q || !queueCan s p e.1 ||
    queuePrio (queueOf s p q) < queuePrio e.2 ||
    (queuePrio (queueOf s p q) == queuePrio e.2 && queueRank s p q < queueRank s p e.1))

/-- A queue has been served (R68). -/
def serveQueue (s : State) (p q : Nat) : State :=
  modPart s p (fun r => { r with served := mput r.served (queuePrio (queueOf s p q)) q })

/-- The directory's part in the front-end's reading of a packet (R121). -/
def touchPacket (s : State) (p : Nat) (u : Queue) (n : Nat) : State :=
  touchAll s (queueAcc p u) 0 ((List.range (n / 16)).map (fun i =>
    (u.w0 + BitVec.ofNat 64 ((u.head.toNat + 16 * i) % queueSize u), 16)))

/-- The head word goes past a packet once it is read whole (R422). -/
def passPacket (s : State) (p q : Nat) (bs : List (BitVec 8)) : State :=
  writeQueueWords (modQueue s p q (fun u => { u with head := u.head + BitVec.ofNat 64 bs.length })) p q

/-- The head packet of an idle queue whose turn it is, if its TYPE is one of the step's: a malformed one stops the queue
(R66, R68). -/
def onPacket (s : State) (p q : Nat) (mine : Nat → Bool) (f : Packet → List (BitVec 8) → State → State) : State :=
  let u := queueOf s p q
  if !queueIdle s p u || !queueTurn s p q then s
  else
    let type := match readRing s p u 1 u.head.toNat with
      | .ok (h, _) => fieldAt h 0 1
      | .error _ => 0
    if !mine type then s
    else
      match headPacket s p u with
      | .wait => s
      | .malformed => stopQueue (serveQueue s p q) p q 1
      | .packet k bs => f k bs (passPacket (touchPacket (serveQueue s p q) p u bs.length) p q bs)

/-! ### The tail and the status word -/

/-- The tail word is read and checked (R422). -/
def checkTail (s : State) (p q : Nat) : State :=
  let u := queueOf s p q
  if !queueEnabled u || u.stop ≠ 0 || (partOf s p).state ≠ 0 || !frontReady s then s
  else
    match frontRead s (queueAcc p u) u.w2 8 .r with
    | .error _ => s
    | .ok (bs, _) =>
      let tail := BitVec.ofNat 64 (leNat bs)
      if tail.toNat % 16 ≠ 0 || queueSize u < (tail - u.head).toNat then stopQueue s p q 3
      else modQueue (engineTouch s (queueAcc p u) u.w2 8 0) p q (fun u => { u with tail })

/-- QUEUE_TAIL_WRITE (R422). -/
def execQueueTailWrite (part queue : Nat) (s : State) : Out := stepEvent s (fun s => checkTail s part queue)

/-- QUEUE_STATUS_WRITE (R422): where software has written 0 to STOP, the queue resumes at its head. REFUSED is as software
left it, and the poison count stays (log entry 35). -/
def execQueueStatusWrite (part queue : Nat) (s : State) : Out :=
  stepEvent s (fun s =>
    let u := queueOf s part queue
    match frontRead s (queueAcc part u) (u.w3 + 8) 8 .r with
    | .error _ => s
    | .ok (bs, _) =>
      if u.stop = 0 || bits (leNat bs) 0 3 ≠ 0 || (partOf s part).state ≠ 0 || !frontReady s then s
      else checkTail (modQueue (engineTouch s (queueAcc part u) (u.w3 + 8) 8 0) part queue (fun u => { u with stop := 0, offset := 0, refused := bits (leNat bs) 3 1 == 1 }))
        part queue)

/-! ### LAUNCH (R67, R69 to R71) -/

/-- The launch counter's value, and its rise (R31). -/
def nextGrid (s : State) (p : Nat) : BitVec 64 × State :=
  ((partOf s p).launchCounter, modPart s p (fun q => { q with launchCounter := q.launchCounter + 1 }))

/-- A launch enters the distributor. -/
def admitLaunch (s : State) (p ctx prio : Nat) (queue : Option Nat) (l : Launch) (task : Option (BitVec 64 × Nat)) :
    Nat × State :=
  let (g, s1) := nextGrid s p
  let id := s1.nextOp
  let li : LaunchInst :=
    { id, launch := l, ctx, queue, prio, gridid := g, next := 0, total := l.gx * l.gy * l.gz, task }
  (id, { modPart s1 p (fun q => { q with launches := q.launches ++ [li] }) with nextOp := id + 1 })

/-- A launch is refused (R70, Table 27.4): REFUSED is written, and the packet is skipped. The launch counter rises for
it all the same, since it was parsed (R31). -/
def refuseLaunch (s : State) (p q : Nat) : State :=
  writeQueueWords (modQueue (nextGrid s p).2 p q (fun u => { u with refused := true })) p q

/-- A launch of a context may be placed at all. -/
def launchAllowed (s : State) (p ctx : Nat) (l : Launch) : Bool :=
  bits (ctxWord s p ctx 0) 0 1 = 1 && (!l.coresAll || couldHold s p ctx l)

/-- LAUNCH_PACKET (R67). A head packet of a TYPE that Table 3.5 lacks is malformed too. -/
def execLaunchPacket (part queue : Nat) (s : State) : Out :=
  stepEvent s (fun s => onPacket s part queue (fun t => t = 1 || t = 0 || 5 < t) (fun k _ s =>
    match k with
    | .launch l =>
      let u := queueOf s part queue
      if !launchAllowed s part (queueCtx u) l then refuseLaunch s part queue
      else
        let (id, s1) := admitLaunch s part (queueCtx u) (queuePrio u) (some queue) l none
        modQueue s1 part queue (fun u => { u with placing := some id })
    | _ => s))

/-- Changes a launch of a partition. -/
def modLaunch (s : State) (p id : Nat) (f : LaunchInst → LaunchInst) : State :=
  modPart s p (fun q => { q with launches := updFirst (fun l => l.id == id) f q.launches })

/-- A request to the collector for a launch, not yet served. -/
def asksFor (r : Preempt) (id : Nat) : Bool := r.ask.isSome && r.victims.isEmpty && r.launchId == id

/-- A launch that needs no place asks for none (R71, R362). -/
def dropAsk (s : State) (p id : Nat) : State :=
  modPart s p (fun q => { q with preempts := q.preempts.filter (fun r => !asksFor r id) })

/-- The launch's teams before `next` are placed; with the last one its packet is performed (R67). -/
def placedUpTo (s : State) (p : Nat) (li : LaunchInst) (next : Nat) : State :=
  let s1 := modLaunch s p li.id (fun l => { l with next, lastPlaced := s.clk })
  if next < li.total then s1
  else
    match li.queue with
    | some q => modQueue (dropAsk s1 p li.id) p q (fun u => if u.placing = some li.id then { u with placing := none } else u)
    | none => dropAsk s1 p li.id

/-- A fault record of the front-end (Table 13.3): SLOT bit TASKENG, access kind, size and DETAIL 53:50. -/
def engineRecord (s : State) (p ctx : Nat) (f : Fail) (va : BitVec 64) (kind size object : Nat) : State :=
  emitRecord (engineWalk s { core := ioDie, part := p, ctx } va (max size 1)) p
    (faultRec 0 f.cause (recFlags false f.malformed f.poisoned true false f.remote true) f.level ctx 0 0 0
    va.toNat 0 32 0 (kind + size * 2 ^ 8 + object * 2 ^ 16))

/-- The distributor places the next team of a launch, or under CORES_ALL the whole grid, in the turn of its queue (R68 to
R71, R264). -/
def placeNext (s : State) (p id : Nat) : State :=
  match (partOf s p).launches.find? (fun l => l.id == id) with
  | none => s
  | some li =>
    let turn := match li.queue with
      | some q => li.task.isSome || queueTurn s p q
      | none => true
    if launchHeld s p li then s
    else
      match placeTeams p li (askedTeams li) li.next s with
      | .ok s1 =>
        if !turn then s
        else
          let s2 := match li.queue with
            | some q => if li.task.isSome then s1 else serveQueue s1 p q
            | none => s1
          placedUpTo s2 p li (li.next + askedTeams li)
      | .noRoom => askPreempt s p li
      | .fault f va => engineRecord (modLaunch s p id (fun l => { l with faulted := true, fva := va })) p li.ctx f va 0 16 0
      | .corrupt => raiseHalt s p evOverlayCorrupt [] 0 0

/-- TEAM_PLACE (R69). -/
def execTeamPlace (part launch : Nat) (s : State) : Out := stepEvent s (fun s => placeNext s part launch)

/-! ### FENCE, SIGNAL and CHAIN.END (R67, R122) -/

/-- FENCE_PACKET: the packet is read and blocks its queue. -/
def execFencePacket (part queue : Nat) (s : State) : Out :=
  stepEvent s (fun s => onPacket s part queue (· == 2) (fun k _ s =>
    match k with
    | .fence es => modQueue s part queue (fun u => { u with fence := es })
    | _ => s))

/-- FENCE_PACKET_PERFORM: all entries hold at once. -/
def execFencePacketPerform (part queue : Nat) (s : State) : Out :=
  stepEvent s (fun s =>
    let u := queueOf s part queue
    if queueRuns s part u && !u.fence.isEmpty && u.fence.all (entryHolds s part u) && queueTurn s part queue then
      modQueue (touchAll (serveQueue s part queue) (queueAcc part u) 0 (u.fence.map (fun e => (e.1 &&& ~~~ 7#64, 8)))) part queue
        (fun u => { u with fence := [] })
    else s)

/-- A SIGNAL or CHAIN.END: read if it is at the head, and performed once the earlier work has retired. -/
def waitPacket (s : State) (p q type : Nat) (perform : Queue → List (BitVec 8) → State → State) : State :=
  let s1 := onPacket s p q (· == type) (fun _ bs s => modQueue s p q (fun u => { u with waiting := bs }))
  let u := queueOf s1 p q
  if queueRuns s1 p u && fieldAt u.waiting 0 1 = type && !u.waiting.isEmpty && waitReady s1 p q u && queueTurn s1 p q then
    perform u u.waiting (serveQueue s1 p q)
  else s1

/-- Every core of a partition writes back its dirty lines: a release of all its work at system scope. -/
def releaseAll (s : State) (p : Nat) : State := (partCores s p).foldl (fun st c => l1WriteBackAll st c) s

/-- A SIGNAL's write or add, as a release at system scope (R67). -/
def performSignal (p q : Nat) (u : Queue) (bs : List (BitVec 8)) (s : State) : State :=
  let a := BitVec.ofNat 64 (fieldAt bs 16 8)
  let v := BitVec.ofNat 64 (fieldAt bs 24 8)
  let add := fieldAt bs 2 1 = 1
  let s1 := if add then engineTouch (releaseAll s p) (queueAcc p u) a 8 0 else releaseAll s p
  match frontRead s1 (queueAcc p u) a 8 (if add then .r else .none) with
  | .error _ => s
  | .ok (old, _) =>
    let w := if add then BitVec.ofNat 64 (leNat old) + v else v
    match engineWrite s1 (queueAcc p u) a (leBytes 8 w.toNat) 0 .w with
    | .error _ => s
    | .ok s2 => modQueue s2 p q (fun u => { u with waiting := [] })

/-- SIGNAL_PACKET (R67). -/
def execSignalPacket (part queue : Nat) (s : State) : Out :=
  stepEvent s (fun s => waitPacket s part queue 3 (performSignal part queue))

/-- CHAIN_END (R67, R122): chain 0 changes nothing. -/
def execChainEnd (part queue : Nat) (s : State) : Out :=
  stepEvent s (fun s => waitPacket s part queue 4 (fun _ bs s =>
    let c := fieldAt bs 2 1 % 64
    let s1 := modQueue s part queue (fun u => { u with waiting := [] })
    if c = 0 then s1 else demoteChain s1 part c))

end Sys2Proof.Machine
end

