-- ==== Sys2Proof/Machine/Fabric.lean ====
section
/-!
DEFINITION. The Ethernet port and UALink as the device meets them: RDMA, datagram rings, peer requests and appends
(R394 to R400); and Mantle's event log (R427).
-/
namespace Sys2Proof.Machine

/-! ### The event log and messages -/

/-- Entries that the event log holds (R427). -/
def logEntries : Nat := 524288

/-- Mantle logs an event: the ring keeps the last entries (R427). -/
def logEvent (s : State) (kind : String) (args : List Nat) : State :=
  let m := s.mantle
  let e : LogEntry := { time := m.time, kind, args }
  let l := mput m.log m.logNext e
  { s with mantle := { m with log := if logEntries ≤ m.logNext then mdel l (m.logNext - logEntries) else l
                              logNext := m.logNext + 1 } }

/-- The package sends a message. -/
def send (s : State) (m : Sent) : State := { s with sent := s.sent ++ [m] }

/-! ### Buffers of any size in a context -/

/-- Cuts `n` bytes at an address at every multiple of 4,096: addresses and lengths. -/
def pieces : Nat → BitVec 64 → Nat → List (BitVec 64 × Nat)
  | 0, _, _ => []
  | fuel + 1, va, n =>
    if n = 0 then []
    else
      let m := min n (4096 - va.toNat % 4096)
      (va, m) :: pieces fuel (va + BitVec.ofNat 64 m) (n - m)

/-- The pieces of a buffer. -/
def bufferPieces (va : BitVec 64) (n : Nat) : List (BitVec 64 × Nat) := pieces (n / 4096 + 2) va n

/-- The first piece that cannot be reached. -/
def bufferFail (s : State) (q : Accessor) (va : BitVec 64) (n : Nat) (need : Need) : Option (BitVec 64 × Fail) :=
  (bufferPieces va n).findSome? (fun p =>
    match reachRuns s q p.1 p.2 need with
    | .error f => some (p.1, f)
    | .ok _ => none)

/-- Reads a buffer at home: its bytes, and for each whether its part is poisoned. -/
def bufferRead (s : State) (q : Accessor) (va : BitVec 64) (n : Nat) : List (BitVec 8 × Bool) :=
  let peers := remoteView s
  (bufferPieces va n).flatMap (fun p =>
    match reachRuns s q p.1 p.2 .none with
    | .error _ => []
    | .ok runs => runs.flatMap (fun x => (List.range x.2).map (fun i =>
        let a := x.1.pa + i
        if isRemote x.1.pa then (sget peers a, false) else (sget s.mem a, sget s.poison (a / 16) == 1#1))))

/-- The lines of a buffer that an engine reads are touched in the L2 (R121, R122). -/
def bufferTouch (s : State) (q : Accessor) (va : BitVec 64) (n chain : Nat) : State :=
  (bufferPieces va n).foldl (fun st p => engineTouch st q p.1 p.2 chain) s

/-- Writes a buffer at home. -/
def bufferWrite (s : State) (q : Accessor) (va : BitVec 64) (bs : List (BitVec 8)) (chain : Nat) : State :=
  ((bufferPieces va bs.length).foldl (fun (r : State × List (BitVec 8)) p =>
    (match engineWrite r.1 q p.1 (r.2.take p.2) chain .none with | .ok t => t | .error _ => r.1, r.2.drop p.2)) (s, bs)).1

/-- Poisons the parts that bytes of a buffer lie in. -/
def bufferTaint (s : State) (q : Accessor) (va : BitVec 64) (n : Nat) : State :=
  match reachRuns s q va n .none with
  | .error _ => s
  | .ok runs => runs.foldl (fun st x => (List.range x.2).foldl (fun st i =>
      if isRemote x.1.pa then st else { st with poison := sput st.poison ((x.1.pa + i) / 16) 1#1 }) st) s

/-! ### RDMA and datagrams (R394 to R396) -/

/-- Word `w` of entry `n` of the RDMA key table (Table 25.3). -/
def rdmaWord (s : State) (p n w : Nat) : BitVec 64 := sget (partOf s p).rdmaKey (4 * n + w)

/-- The Ethernet port is ready (Table 27.6). -/
def ethReady (s : State) : Bool := readyBit s 7 16

/-- The context that an RDMA request reaches, where its rkey and range admit it (R395); `bit` is RD or WR. -/
def rdmaCtx (s : State) (p : Nat) (rkey : BitVec 32) (va : BitVec 64) (n bit : Nat) : Option Nat :=
  let i := bits rkey.toNat 26 6
  let w2 := rdmaWord s p i 2
  let vb := (rdmaWord s p i 0).toNat
  if w2.getLsbD 63 && !w2.getLsbD 35 && w2.getLsbD bit && bits w2.toNat 0 26 == bits rkey.toNat 0 26 &&
      vb ≤ va.toNat && va.toNat + n ≤ vb + (rdmaWord s p i 1).toNat then some (bits w2.toNat 36 4)
  else none

/-- The accessor of an RDMA request. -/
def hostAcc (p ctx : Nat) : Accessor := { core := ioDie, part := p, ctx }

/-- A remote-access NAK, which Mantle logs (R395). -/
def rdmaNak (s : State) (p : Nat) (rkey : BitVec 32) (va : BitVec 64) (n : Nat) : State :=
  logEvent (send s (.nak p)) "RDMA_NAK" [p, rkey.toNat, va.toNat, n]

/-- RDMA_WRITE (R395). -/
def execRdmaWrite (part : Nat) (rkey : BitVec 32) (address : BitVec 64) (data : List (BitVec 8)) (s : State) : Out :=
  stepEvent s (fun s =>
    if !ethReady s || !engineTurn s part 5 then s
    else
      match rdmaCtx s part rkey address data.length 34 with
      | none => rdmaNak s part rkey address data.length
      | some ctx =>
        if (bufferFail s (hostAcc part ctx) address data.length .w).isSome then rdmaNak s part rkey address data.length
        else send (bufferWrite s (hostAcc part ctx) address data 0) (.ack part))

/-- RDMA_READ (R395): one whose data meets poison is not performed. -/
def execRdmaRead (part : Nat) (rkey : BitVec 32) (address : BitVec 64) (length : Nat) (s : State) : Out :=
  stepEvent s (fun s =>
    if !ethReady s || !engineTurn s part 5 then s
    else
      match rdmaCtx s part rkey address length 33 with
      | none => rdmaNak s part rkey address length
      | some ctx =>
        let bs := bufferRead s (hostAcc part ctx) address length
        if (bufferFail s (hostAcc part ctx) address length .r).isSome || bs.any (·.2) then
          rdmaNak s part rkey address length
        else send (bufferTouch s (hostAcc part ctx) address length 0) (.rdmaData part (bs.map (·.1))))

/-- A frame is dropped and counted in the port's error counters (R394). -/
def dropFrame (s : State) : State := { s with mantle := { s.mantle with ethErrors := s.mantle.ethErrors + 1 } }

/-- UNSUPPORTED_ETHERNET_FRAME (R394). -/
def execUnsupportedEthernetFrame (s : State) : Out := stepEvent s dropFrame

/-- The datagram ring of a queue pair number (R396). -/
def ringOfQpn (s : State) (p : Nat) (qpn : BitVec 24) : Option Nat :=
  (List.range 64).find? (fun n =>
    (rdmaWord s p n 2).getLsbD 63 && (rdmaWord s p n 2).getLsbD 35 && bits (rdmaWord s p n 3).toNat 0 24 == qpn.toNat)

/-- A datagram is dropped and counted for its ring (R396). -/
def dropDatagram (s : State) (p n : Nat) : State :=
  modPart s p (fun q => { q with ringDrops := mput q.ringDrops n (mgetD q.ringDrops n 0 + 1) })

/-- A datagram lands in the slot at the ring's tail, whose word then advances as a release at system scope (R396). Head
and tail count slots (log entry 42). -/
def landDatagram (s : State) (p n : Nat) (data : List (BitVec 8)) : State :=
  let vb := rdmaWord s p n 0
  let slots := (rdmaWord s p n 1).toNat / 4096
  let q := hostAcc p (bits (rdmaWord s p n 2).toNat 36 4)
  match engineRead s q (vb - 16) 8 .r, engineRead s q (vb - 8) 8 .w with
  | .ok (h, _), .ok (t, _) =>
    let head := BitVec.ofNat 64 (leNat h)
    let tail := BitVec.ofNat 64 (leNat t)
    let at_ := vb + BitVec.ofNat 64 (4096 * (tail.toNat % slots))
    let bs := leBytes 4 data.length ++ data
    if slots ≤ (tail - head).toNat || 4092 < data.length || (bufferFail s q at_ bs.length .w).isSome then
      dropDatagram s p n
    else bufferWrite (bufferWrite (bufferTouch s q (vb - 16) 16 0) q at_ bs 0) q (vb - 8) (leBytes 8 (tail + 1).toNat) 0
  | _, _ => dropDatagram s p n

/-- UD_SEND (R396). A queue pair number that names no ring is no feature of the port. -/
def execUdSend (part : Nat) (qpn : BitVec 24) (data : List (BitVec 8)) (s : State) : Out :=
  stepEvent s (fun s =>
    if !ethReady s || !engineTurn s part 5 then s
    else
      match ringOfQpn s part qpn with
      | none => dropFrame s
      | some n => landDatagram s part n data)

/-! ### UALink (R397 to R400) -/

/-- A VALID entry of the peer access table that names a source and satisfies `ok` (R399). -/
def peerAdmits (s : State) (p : Nat) (source : BitVec 10) (ok : BitVec 64 → Bool) : Bool :=
  (List.range 256).any (fun n =>
    let e := sget (partOf s p).peerAcl n
    e.getLsbD 63 && bits e.toNat 0 10 == source.toNat && ok e)

/-- A request that no entry admits is dropped: an error response, and Mantle logs it (R399). -/
def refusePeer (s : State) (source : BitVec 10) (address p : Nat) : State :=
  logEvent (send s (.ualError source.toNat)) "PEER_REFUSED" [source.toNat, address, p]

/-- The partition that owns a local address (R105, R414). -/
def ownerOf (s : State) (pa : Nat) : Option Nat :=
  if hbmSize ≤ pa then none
  else (List.range 8).find? (fun p => (partOf s p).halfStacks.getLsbD (pa / 2 ^ 35))

/-- The operands of a peer's atomic: the operation of R235, its type, and one or two words. -/
structure PeerAtomic where
  op : Nat
  ty : Ty
  c : BitVec 64
  e : BitVec 64
  deriving DecidableEq, Repr

/-- A peer's atomic from its kind (2 + 4 × operation + 64 × type) and its data. -/
def peerAtomic (kind : Nat) (data : List (BitVec 8)) : PeerAtomic :=
  let ty : Ty := [.n32, .n64, .b32, .i32, .f32, .i64, .f64].getD (kind / 64) .n32
  let n := if ty.is64 then 8 else 4
  { op := kind / 4 % 16, ty, c := BitVec.ofNat 64 (leNat (data.take n)), e := BitVec.ofNat 64 (leNat ((data.drop n).take n)) }

/-- Operation and type are a pair of Table 13.6, and the location is aligned. -/
def peerAtomicOk (kind pa : Nat) (data : List (BitVec 8)) : Bool :=
  let a := peerAtomic kind data
  pa % (if a.ty.is64 then 8 else 4) = 0 &&
    (match a.op with
      | 0 | 1 | 2 => a.ty != .b32
      | 3 | 4 | 5 | 6 | 7 => a.ty == .b32 || a.ty == .n64
      | 8 | 9 => a.ty == .n32
      | _ => false)

/-- A memory request of a peer is performed at its home: kind 0 a read of as many bytes as `data` has, 1 a write, else
an atomic. Peer writes carry chain 0 (R122). The request names no context: a miss allocates, and moves SEL and BCNT of context
0 (DESIGN CHOICE, log entry 98). -/
def performPeer (s : State) (p : Nat) (source : BitVec 10) (kind pa : Nat) (data : List (BitVec 8)) : State :=
  let n := data.length
  let touch (s : State) (w : Bool) : State := (linesOf pa n).foldl (fun st l => l2Touch st p 0 0 l w true 0) s
  if kind = 0 then
    let (bs, bad) := readHome s pa n
    send (touch s false) (.ualDone source.toNat bs bad)
  else if kind = 1 then send (writeHome (touch s true) pa data) (.ualDone source.toNat [] false)
  else
    let a := peerAtomic kind data
    let w := if a.ty.is64 then 8 else 4
    let (bs, bad) := readHome s pa w
    let old := BitVec.ofNat 64 (leNat bs)
    if bad then send (touch s true) (.ualDone source.toNat bs true)
    else
      send (writeHome (touch s true) pa (leBytes w (atomNew a.op a.ty old a.c a.e).toNat)) (.ualDone source.toNat bs false)

/-- UALINK_MEMORY_REQUEST (R397, R399). A peer's atomic on an operation and type that no row of Table 13.6 has, or on a location
that is not aligned, is refused as one that no entry admits. While a core's request waits at the partition's slices, a
request of the link waits too (R120), and comes again. -/
def execUalinkMemoryRequest (source : BitVec 10) (kind : Nat) (address : BitVec 41) (data : List (BitVec 8)) (s : State) :
    Out :=
  stepEvent s (fun s =>
    let pa := address.toNat
    match ownerOf s pa with
    | none => refusePeer s source pa 0
    | some p =>
      if data.length = 0 || 256 < data.length || ownerOf s (pa + data.length - 1) ≠ some p ||
          !peerAdmits s p source (fun e => e.getLsbD 25) || (2 ≤ kind && !peerAtomicOk kind pa data) then
        refusePeer s source pa p
      else if !engineTurn s p 4 then s
      else performPeer s p source kind pa data)

/-- The append aperture's address of a queue (Table 25.2). -/
def appendAddress (p q : Nat) : Nat := 3 * 2 ^ 39 + p * 2 ^ 12 + q * 2 ^ 6

/-- An append to a queue is admitted (R399). -/
def appendAdmitted (s : State) (p q : Nat) (source : BitVec 10) (type : Nat) : Bool :=
  peerAdmits s p source (fun e =>
    bits e.toNat 13 6 ≤ q && q ≤ bits e.toNat 19 6 && 1 ≤ type && type ≤ 5 && e.getLsbD (26 + type))

/-- UALINK_APPEND (R400): the packet is written at the tail and the tail word advances, as a release at pod scope; with
no room an error response is all. A packet that is malformed stops the queue when it is parsed (R66). -/
def execUalinkAppend (source : BitVec 10) (part queue : Nat) (data : List (BitVec 8)) (s : State) : Out :=
  stepEvent s (fun s =>
    let u := queueOf s part queue
    let n := data.length
    if n < 16 || 256 < n || n % 16 ≠ 0 || !appendAdmitted s part queue source (fieldAt data 0 1) then
      refusePeer s source (appendAddress part queue) part
    else
      if !engineTurn s part 4 then s
      else
      match engineRead s (queueAcc part u) u.w2 8 .r with
      | .error _ => send s (.ualError source.toNat)
      | .ok (t, _) =>
        let tail := BitVec.ofNat 64 (leNat t)
        let size := queueSize u
        let at_ (k : Nat) : BitVec 64 := u.w0 + BitVec.ofNat 64 ((tail.toNat + 16 * k) % size)
        if size < (tail - u.head).toNat + n || !queueEnabled u ||
            (List.range (n / 16)).any (fun k => !(reachRuns s (queueAcc part u) (at_ k) 16 .w).isOk) then
          send s (.ualError source.toNat)
        else
          let s1 := (List.range (n / 16)).foldl (fun st k =>
            bufferWrite st (queueAcc part u) (at_ k) ((data.drop (16 * k)).take 16) 0) (engineTouch s (queueAcc part u) u.w2 8 0)
          send (bufferWrite s1 (queueAcc part u) u.w2 (leBytes 8 (tail.toNat + n)) 0) (.ualDone source.toNat [] false))

/-- LINK_LEVEL_RETRY (R133): a port resends a failed flit and every flit after it in their first order: the requests of
the port keep their order, and those of other ports may arrive before them. -/
def execLinkLevelRetry (port flit : Nat) (s : State) : Out :=
  stepEvent s (fun s =>
    let late (u : UalReq) : Bool := u.port == port && flit ≤ u.id
    { s with ual := s.ual.filter (fun u => !late u) ++ s.ual.filter late })

end Sys2Proof.Machine
end

