-- ==== Sys2Proof/Machine/Coll.lean ====
section
/-!
DEFINITION. The collective engine: member sets, descriptors, refusals, exchange, loss and the end of an operation, and
major 0x3E (R401 to R413).
-/
namespace Sys2Proof.Machine

/-! ### Member sets and descriptors (R401 to R404) -/

/-- What reading an operation's descriptor and member set comes to: a read that faults, or the operation. -/
inductive CollRead where
  | fault (va : BitVec 64) (f : Fail) (size : Nat)
  | refused (reason : Nat)
  | ok (mset source dest lost : BitVec 64) (count root nleaves self setid : Nat) (members : List Member) (reserved : Bool)
  deriving DecidableEq, Repr

/-- The engine as it acts for a group. -/
def collAcc (g : Group) : Accessor := { core := ioDie, part := g.part, ctx := g.ctx, sageip := g.sageip }

/-- A member from its entry (R401). -/
def memberOf (w : Nat) : Member := { base := bits w 32 32, lb := bits w 20 5, pod := bits w 10 9, accid := bits w 0 10 }

/-- A buffer is not all in local memory. -/
def beyondLocal (s : State) (q : Accessor) (va : BitVec 64) (n : Nat) : Bool :=
  (bufferPieces va n).any (fun p =>
    match reachRuns s q p.1 p.2 .none with
    | .error _ => false
    | .ok runs => runs.any (fun x => isRemote x.1.pa || x.1.window))

/-- Reads a descriptor and the member set it names, which must lie in local memory: PROTECTION elsewhere, as for a structure
descriptor (R367, R401, R403; log entry 86). One that is misaligned, poisoned or has NMEMB out of range
leaves nothing to check: reason 4 (log entry 43). -/
def readColl (s : State) (q : Accessor) (desc : BitVec 64) : CollRead :=
  if desc.toNat % 64 ≠ 0 then .refused 4
  else
    match engineRead s q desc 64 .r with
    | .error f => .fault desc f 64
    | .ok (d, bad) =>
      let mset := BitVec.ofNat 64 (fieldAt d 0 8)
      if bad || mset.toNat % 16 ≠ 0 then .refused 4
      else if beyondLocal s q mset 16 then .fault mset { cause := evProtection } 16
      else
        match engineRead s q mset 16 .r with
        | .error f => .fault mset f 16
        | .ok (h, bad) =>
          let n := fieldAt h 0 4
          if bad || n = 0 || 2 ^ 19 < n then .refused 4
          else
            match bufferFail s q (mset + 16) (8 * n) .r, beyondLocal s q (mset + 16) (8 * n) with
            | some (va, f), _ => .fault va f 8
            | none, true => .fault (mset + 16) { cause := evProtection } 8
            | none, false =>
              let es := bufferRead s q (mset + 16) (8 * n)
              let ws := (List.range n).map (fun m => leNat (((es.drop (8 * m)).take 8).map (·.1)))
              if es.any (·.2) then .refused 4
              else
                .ok mset (BitVec.ofNat 64 (fieldAt d 8 8)) (BitVec.ofNat 64 (fieldAt d 16 8))
                  (BitVec.ofNat 64 (fieldAt d 24 8)) (fieldAt d 32 4) (fieldAt d 36 4) (fieldAt h 4 4) (fieldAt h 8 4)
                  (fieldAt h 12 4) (ws.map memberOf)
                  (fieldAt d 40 24 != 0 || ws.any (fun w => bits w 25 7 != 0 || bits w 19 1 != 0))

/-- A member set is aligned (R402): `next` is the leaf where the next block must start. -/
def setAligned (nleaves : Nat) : Nat → List Member → Bool
  | next, [] => nleaves ≤ next
  | next, m :: ms => m.base % 2 ^ m.lb == 0 && m.base == next && m.base < nleaves && setAligned nleaves (next + 2 ^ m.lb) ms

/-- The leaves a member holds below NLEAVES. -/
def leavesHeld (nleaves : Nat) (m : Member) : Nat := min (2 ^ m.lb) (nleaves - m.base)

/-- All members lie in one pod. -/
def onePod (ms : List Member) : Bool := ms.all (fun m => m.pod == (ms.headD { base := 0, lb := 0, pod := 0, accid := 0 }).pod)

/-- Bytes of an element. -/
def elemBytes (ty : Ty) : Nat := if ty.is64 then 8 else 4

/-- Two buffers overlap. -/
def overlap (a n b m : Nat) : Bool := a < b + m && b < a + n

/-- The reason why an operation is refused (Table 25.4), 0 for none; reasons are taken in the table's order (log entry
43). -/
def collReason (s : State) (minor scope : Nat) (ty : Ty) : CollRead → Nat
  | .fault _ _ _ => 0
  | .refused r => r
  | .ok _ source dest _ count root nleaves self _ ms reserved =>
    let e := elemBytes ty
    let n := ms.length
    match ms[self]? with
    | none => if setAligned nleaves 0 ms then 2 else 1
    | some me =>
      let srcBytes := e * count * (if minor = 1 then 1 else leavesHeld nleaves me)
      let dstBytes := e * count * (if minor = 2 then nleaves else 1)
      if !setAligned nleaves 0 ms then 1
      else if me.pod ≠ s.mantle.pod || me.accid ≠ s.mantle.accid then 2
      else if (scope = 4 && n ≠ 1) || (scope = 5 && !onePod ms) then 3
      else if reserved || count = 0 || 2 ^ 28 < count || nleaves = 0 || 2 ^ 24 < nleaves ||
          (if minor = 1 then n ≤ root else root ≠ 0) || ms.any (fun m => 24 < m.lb || 390 < m.pod) ||
          (onePod ms && 1024 < n) || source.toNat % e ≠ 0 || dest.toNat % e ≠ 0 ||
          overlap source.toNat srcBytes dest.toNat dstBytes then 4
      else if minor = 3 && count % n ≠ 0 then 5
      else 0

/-! ### Issue (R405, R411) -/

/-- The collective engine is ready (R431). -/
def collReady (s : State) : Bool := readyBit s 7 21

/-- The operation that an instruction starts. -/
def newColl (s : State) (c : Iss) (id minor : Nat) : CollRead → Option CollOp
  | .ok _ source dest lost count root nleaves self setid ms _ =>
    some
      { id, part := c.g.part, ctx := c.g.ctx, gid := c.gid, core := c.g.core, pc := c.sp.pc, tag := c.x.kf, minor
        op := c.x.bits 0 3, ty := c.x.ty, sat := c.x.sat, scope := c.x.scope, desc := uniOperand c.g c.x 0 c.x.a, source
        dest, lostAddr := lost, count, root, self, nleaves, setid, n := mgetD s.collCounts setid 0, members := ms
        serial := c.g.serial, slot := slotByte c.g, gindex := c.g.index, chain := chainOf s c.g, since := s.mantle.time
        buffers := ms.length - 1 }
  | _ => none

/-! ### The exchange (R405 to R407) -/

/-- An operation in flight. -/
def collGet (s : State) (id : Nat) : Option CollOp := s.colls.find? (fun o => o.id == id)
/-- Changes an operation. -/
def modColl (s : State) (id : Nat) (f : CollOp → CollOp) : State :=
  { s with colls := updFirst (fun o => o.id == id) f s.colls }

/-- The number of element `e` of member `m`. -/
def collKey (m e : Nat) : Nat := m * 2 ^ 56 + e

/-- A member of an operation. -/
def collMember (o : CollOp) (m : Nat) : Member := o.members.getD m { base := 0, lb := 0, pod := 0, accid := 0 }

/-- Elements that a member supplies to an operation (R408). -/
def supplies (o : CollOp) (m : Nat) : Nat :=
  if o.minor = 1 then (if m = o.root then o.count else 0) else o.count * leavesHeld o.nleaves (collMember o m)

/-- Everything that a member supplies has arrived, and its announcement, by which the members check their operations
against each other also where it supplies nothing (R405). -/
def arrived (o : CollOp) (m : Nat) : Bool :=
  (mget o.heard m).isSome && (o.got.filter (fun e => e.1 / 2 ^ 56 == m)).length == supplies o m

/-! ### The start of an operation: this member's own source -/

/-- The engine as it acts for an operation. -/
def opAcc (o : CollOp) : Accessor := { core := ioDie, part := o.part, ctx := o.ctx }

/-- A fault record of an operation (R409): UNIFORM, with the issuing group's CORE and SERIAL. -/
def collRecord (s : State) (o : CollOp) (va : BitVec 64) (f : Fail) (kind : Nat) : State :=
  emitRecord (modColl s o.id (fun o => { o with faulted := true })) o.part
    (faultRec o.pc f.cause (recFlags false f.malformed f.poisoned true false f.remote true) f.level o.ctx o.serial 0 1
      va.toNat (coreidOf s o.core) o.slot o.gindex (kind + elemBytes o.ty * 2 ^ 8))

/-- The elements of this member's own source, with poison. -/
def ownElems (s : State) (o : CollOp) : List (BitVec 64 × Bool) :=
  let e := elemBytes o.ty
  let bs := bufferRead s (opAcc o) o.source (e * supplies o o.self)
  (List.range (supplies o o.self)).map (fun i =>
    let b := (bs.drop (e * i)).take e
    (BitVec.ofNat 64 (leNat (b.map (·.1))), b.any (·.2)))

/-- What the chunks of an operation say of it (R405). -/
def collKeyOf (o : CollOp) : CollKey :=
  { setid := o.setid, n := o.n, minor := o.minor, op := o.op, ty := o.ty, sat := o.sat, count := o.count
    nleaves := o.nleaves, root := o.root, entries := o.members.map (fun m => (m.base, m.lb, m.pod, m.accid)) }

/-- What a member tells another when it has reserved its buffers: a chunk without elements (R405, R406; log entry 86). -/
def announce (o : CollOp) (m : Nat) : Sent :=
  .chunk (collMember o m).pod (collMember o m).accid (collKeyOf o) o.self 0 [] []

/-- The other members of an operation. -/
def otherMembers (o : CollOp) : List Nat := (List.range o.members.length).filter (· != o.self)

/-- The chunks in which a member sends its elements to another, each of at most 4 KiB (R406). -/
def ownChunks (o : CollOp) (m : Nat) : List Sent :=
  let e := elemBytes o.ty
  let n := 4096 / e
  let own : List (BitVec 64 × Bool) := (List.range (supplies o o.self)).map (fun i =>
    (mgetD o.got (collKey o.self i) 0, o.poisoned.contains (collKey o.self i)))
  (List.range ((own.length + n - 1) / n)).map (fun k =>
    let part := (own.drop (n * k)).take n
    .chunk (collMember o m).pod (collMember o m).accid (collKeyOf o) o.self (n * k) (part.map (·.1))
      ((part.zipIdx.filter (fun x => x.1.2)).map (·.2)))

/-- This member's source is read, and sent to every other member that has announced its buffers; one that faults waits for
REPLAY, and R407 applies meanwhile (R406, R409). When the engine reads it, and which members send to which, is not architected (log entry 86). -/
def supplyOwn (s : State) (o : CollOp) : State :=
  let n := elemBytes o.ty * supplies o o.self
  match bufferFail s (opAcc o) o.source n .r with
  | some (va, f) => collRecord s o va f 3
  | none =>
    let own := ownElems s o
    let s1 := modColl (bufferTouch s (opAcc o) o.source n o.chain) o.id (fun o =>
      let keyed := own.zipIdx
      { o with
        read := true, faulted := false
        got := keyed.foldl (fun g x => mput g (collKey o.self x.2) x.1.1) o.got
        poisoned := keyed.foldl (fun l x => if x.1.2 then addOnce l (collKey o.self x.2) else l) o.poisoned })
    match collGet s1 o.id with
    | none => s1
    | some o => { s1 with sent := s1.sent ++ ((otherMembers o).filter (fun m => (mget o.heard m).isSome)).flatMap (ownChunks o) }

/-- An operation instruction (R404, R411): it waits for its tag, for one of the partition's 64 operations and for its receive
buffers (R406); its issue is a release of the group's earlier accesses; a descriptor that faults waits for REPLAY; a refusal
is an asynchronous event. -/
def issueColl (minor : Nat) (c : Iss) (s : State) : State :=
  if operandDiffers c c.x.a then liningMismatch s c c.sp.mask
  else if (mget c.g.tags c.x.kf).isSome || 64 ≤ (s.colls.filter (fun o => o.part == c.g.part)).length || !collReady s ||
      !releaseReady s c || peersBehind s c.x.scope || !engineTurn s c.g.part 3 then s
  else
    let s0 := releaseAt s c.g c.x.scope
    let desc := uniOperand c.g c.x 0 c.x.a
    let (id, s1) := fresh s0
    let r := readColl s1 (collAcc c.g) desc
    match r with
    | .fault va f size => uniformFail s1 c.gid c.j id c.sp.pc va f 5 size
    | _ =>
      let why := collReason s1 minor c.x.scope c.x.ty r
      if why ≠ 0 then
        advance (raise s1 c.gid { code := evCollMisaligned, precise := false, split := c.j, epc := c.sp.pc
                                  lanes := c.sp.mask, info := BitVec.ofNat 64 why, info2 := desc, op := id }) c
      else
        match newColl s1 c id minor r with
        | none => s1
        | some o =>
          if (partOf s c.g.part).rcvFree < o.buffers then s
          else
            let s2 := modPart { s1 with colls := s1.colls ++ [o], collCounts := mput s1.collCounts o.setid (o.n + 1) } o.part
              (fun q => { q with rcvFree := q.rcvFree - o.buffers })
            let s3 := onGroup (bufferTouch s2 (collAcc c.g) desc 64 o.chain) c (fun g => { g with
              tags := mput g.tags o.tag { st := 1, status := 0xFFFF00000001#64, scope := o.scope } })
            advance (supplyOwn { s3 with sent := s3.sent ++ (otherMembers o).map (announce o) } o) c

/-- COLL.REDUCE (R408). -/
def execCollReduce (x : Enc) (s : State) : Out := issue .collReduce x s (issueColl 0)
/-- COLL.BCAST (R408). -/
def execCollBcast (x : Enc) (s : State) : Out := issue .collBcast x s (issueColl 1)
/-- COLL.ALLGATHER (R408). -/
def execCollAllgather (x : Enc) (s : State) : Out := issue .collAllgather x s (issueColl 2)
/-- COLL.RSCATTER (R408). -/
def execCollRscatter (x : Enc) (s : State) : Out := issue .collRscatter x s (issueColl 3)

/-! ### What comes from the others (R405 to R407) -/

/-- coll_ctl's TIMEOUT has passed since the last chunk of a member, or since issue (R407). -/
def collLate (s : State) (o : CollOp) (member : Nat) : Bool :=
  mgetD o.heard member o.since + 1000 * max 10 (partOf s o.part).collTimeout.toNat ≤ s.mantle.time

/-- The status word of an operation that runs (Table 25.6): the members lost so far. -/
def runningStatus (o : CollOp) : BitVec 64 :=
  let first := match o.lost with
    | [] => 0xFFFF
    | m :: _ => m % 2 ^ 16
  BitVec.ofNat 64 (1 + 4 * (!o.lost.isEmpty).toNat + 2 ^ 16 * min o.lost.length 0xFFFF + 2 ^ 32 * first)

/-- The tag of a group's operation, wherever the group is: resident, or saved by pre-emption. -/
def setTag (s : State) (gid tag st : Nat) (status : BitVec 64) : State :=
  let f (g : Group) : Group := { g with tags := mmod g.tags tag (fun t => { t with st, status }) }
  if (mget s.groups gid).isSome then modGroup s gid f
  else { s with parts := s.parts.map (fun p => (p.1, { p.2 with
    saved := p.2.saved.map (fun v => { v with groups := mmod v.groups gid f }) })) }

/-- A member is lost (R407): the others are told this member's lost set, and the running status shows it (R412). -/
def loseMember (s : State) (o : CollOp) (member : Nat) : State :=
  let o := { o with lost := insertNat o.lost member }
  let s1 := modColl s o.id (fun k => { k with lost := o.lost })
  let told := ((otherMembers o).filter (fun m => !o.lost.contains m)).map (fun m =>
    Sent.lostSet (collMember o m).pod (collMember o m).accid (collKeyOf o) o.self o.lost)
  setTag { s1 with sent := s1.sent ++ told } o.gid o.tag 1 (runningStatus o)

/-- COLL_CHUNK_ARRIVAL (R405 to R407): elements from number `chunk` on of a member's source, at most 4 KiB of them; `poisoned`
numbers those that are. It belongs to the operation of its SETID and number; one that the members do not agree on ends with
MISMATCH. Traffic of a lost member is discarded, and one that comes later than TIMEOUT finds it lost. The first chunk of a
member tells that its buffers are reserved: this member's own chunks go to it (R406). -/
def execCollChunkArrival (part member chunk : Nat) (key : CollKey) (data : List (BitVec 64)) (poisoned : List Nat)
    (s : State) : Out :=
  stepEvent s (fun s =>
    match s.colls.find? (fun o => o.part == part && o.setid == key.setid && o.n == key.n) with
    | none => s
    | some o =>
      if member = o.self || o.members.length ≤ member || o.lost.contains member || o.ending then s
      else if !arrived o member && collLate s o member then loseMember s o member
      else if collKeyOf o != key then modColl s o.id (fun o => { o with mismatch := true })
      else if elemBytes o.ty * data.length > 4096 || supplies o member < chunk + data.length then s
      else
        let keys := (List.range data.length).map (fun i => collKey member (chunk + i))
        let s1 := modColl s o.id (fun o => { o with
          got := (keys.zip data).foldl (fun g e => mput g e.1 e.2) o.got
          poisoned := (poisoned.filter (· < data.length)).foldl (fun l i => addOnce l (collKey member (chunk + i))) o.poisoned
          heard := mput o.heard member s.mantle.time })
        if o.read && (mget o.heard member).isNone then { s1 with sent := s1.sent ++ ownChunks o member } else s1)

/-- COLL_MEMBER_TIMEOUT (R407): a member from which a chunk is still awaited when TIMEOUT has passed is lost. -/
def execCollMemberTimeout (op member : Nat) (s : State) : Out :=
  stepEvent s (fun s =>
    match collGet s op with
    | none => s
    | some o =>
      if member = o.self || o.members.length ≤ member || o.ending || arrived o member || o.lost.contains member ||
          !collLate s o member then s
      else loseMember s o member)

/-! ### The end of an operation (R407 to R409, R412) -/

/-- An element of a member that is not lost. -/
def memberElem (o : CollOp) (m i : Nat) : BitVec 64 × Bool :=
  (mgetD o.got (collKey m i) 0, o.poisoned.contains (collKey m i))

/-- The leaves in order, each with its owner and its number there; none where the owner is lost. -/
def leavesOf (o : CollOp) : List (Option (Nat × Nat)) :=
  (List.range o.members.length).flatMap (fun m =>
    (List.range (leavesHeld o.nleaves (collMember o m))).map (fun l =>
      if o.lost.contains m then none else some (m, l)))

/-- Element `e` of a reduction over the present leaves (R99, R408), with its exceptions and poison. -/
def reduceElem (o : CollOp) (e : Nat) : Option (BitVec 64 × BitVec 5 × Bool) :=
  let ls := (leavesOf o).map (fun l => l.map (fun p => memberElem o p.1 (o.count * p.2 + e)))
  (cro (reduceNode o.op o.ty o.sat) (ls.map (fun l => l.map (fun v => ((v.1, 0) : Node))))).map (fun r =>
    (defaultNans o.ty r.1, r.2, ls.any (fun l => match l with | some v => v.2 | none => false)))

/-- Every element of a reduction: a reduce-scatter's status takes the exceptions and the poison of the shares of all
members, since they are those of any node (R408). -/
def collNodes (o : CollOp) : List (Nat × BitVec 64 × BitVec 5 × Bool) :=
  (List.range o.count).filterMap (fun e => (reduceElem o e).map (fun r => (e, r)))

/-- What an operation writes to DEST: for each element its number, value, exceptions and poison (R408). -/
def collResult (o : CollOp) : List (Nat × BitVec 64 × BitVec 5 × Bool) :=
  let share := o.count / o.members.length
  let reduce (es : List Nat) := es.filterMap (fun e => (reduceElem o e).map (fun r => (e, r)))
  match o.minor with
  | 0 => reduce (List.range o.count)
  | 3 => reduce ((List.range share).map (fun e => o.self * share + e))
  | 1 =>
    if o.lost.contains o.root then []
    else (List.range o.count).map (fun e => let v := memberElem o o.root e; (e, v.1, 0, v.2))
  | _ =>
    (leavesOf o).zipIdx.flatMap (fun l =>
      match l.1 with
      | none => []
      | some (m, i) => (List.range o.count).map (fun e =>
          let v := memberElem o m (o.count * i + e)
          (o.count * l.2 + e, v.1, 0, v.2)))

/-- Neighbouring elements gathered into runs: first number and bytes. -/
def gatherRuns (e : Nat) : List (Nat × BitVec 64 × BitVec 5 × Bool) → List (Nat × List (BitVec 8))
  | [] => []
  | (i, v, _, _) :: rest =>
    match gatherRuns e rest with
    | (k, bs) :: more => if k = i + 1 then (i, leBytes e v.toNat ++ bs) :: more else (i, leBytes e v.toNat) :: (k, bs) :: more
    | [] => [(i, leBytes e v.toNat)]

/-- The address of element `i` of DEST. -/
def destAt (o : CollOp) (i : Nat) : BitVec 64 := o.dest + BitVec.ofNat 64 (elemBytes o.ty * i)

/-- The lost-member bitmap (R403, R412). -/
def lostBytes (o : CollOp) : List (BitVec 8) :=
  leBytes (8 * ((o.members.length + 63) / 64)) (o.lost.foldl (fun n m => n + 2 ^ m) 0)

/-- The status word of an operation that has ended (Table 25.6). -/
def collStatus (o : CollOp) (flags : BitVec 5) (excluded poisoned : Bool) : BitVec 64 :=
  let first := match o.lost with
    | [] => 0xFFFF
    | m :: _ => m % 2 ^ 16
  BitVec.ofNat 64 (2 + 4 * (!o.lost.isEmpty).toNat + 8 * poisoned.toNat + 16 * excluded.toNat + 32 * o.mismatch.toNat +
    2 ^ 8 * flags.toNat + 2 ^ 16 * min o.lost.length 0xFFFF + 2 ^ 32 * first)

/-- The operation's exchange is over: DEST is written, then LOST, and its tag becomes ENDED; a buffer that faults waits for
REPLAY (R409). -/
def finishColl (s : State) (o : CollOp) : State :=
  let q := opAcc o
  let e := elemBytes o.ty
  let excluded := o.lost.contains o.self
  let writes := !o.mismatch && !excluded
  let res := if writes then collResult o else []
  let runs := gatherRuns e res
  let lost := if o.lostAddr = 0 then [] else lostBytes o
  let dstFail := (runs.findSome? (fun r => bufferFail s q (destAt o r.1) r.2.length .w)).orElse
    (fun _ => bufferFail s q o.lostAddr lost.length .w)
  match dstFail with
  | some (va, f) => collRecord s o va f 4
  | none =>
    let s1 := runs.foldl (fun st r => bufferWrite st q (destAt o r.1) r.2 o.chain) s
    let s2 := (res.filter (fun r => r.2.2.2)).foldl (fun st r => bufferTaint st q (destAt o r.1) e) s1
    let s3 := bufferWrite s2 q o.lostAddr lost o.chain
    let nodes := if writes && o.minor = 3 then collNodes o else res
    let flags := nodes.foldl (fun f r => f ||| r.2.2.1) (0 : BitVec 5)
    let s4 := modPart { s3 with colls := s3.colls.filter (fun k => k.id != o.id) } o.part
      (fun p => { p with rcvFree := p.rcvFree + o.buffers })
    setTag s4 o.gid o.tag 2 (collStatus o flags excluded (nodes.any (fun r => r.2.2.2)))

/-- COLL_OPERATION_END (R407, R408, R412): the survivors agree on the union of their lost sets, which `lost` adds to this
member's; with every awaited chunk of the others at hand, at a mismatch, or where this member is in the union, the operation
ends. -/
def execCollOperationEnd (op : Nat) (lost : List Nat) (s : State) : Out :=
  stepEvent s (fun s =>
    match collGet s op with
    | none => s
    | some o =>
      let all := (lost.filter (fun m => m < o.members.length)).foldl insertNat o.lost
      let o' := { o with lost := all, ending := true }
      let whole := (List.range o.members.length).all (fun m =>
        all.contains m || (if m = o.self then o.read else arrived o m))
      if o.ending || !engineTurn s o.part 3 || !(whole || o.mismatch || all.contains o.self) then s
      else finishColl (modColl s op (fun _ => o')) o')

/-- REPLAY of the operation's record (R409): what it could not read or write is tried again. -/
def replayColl (s : State) (id : Nat) : State :=
  match collGet s id with
  | none => s
  | some o =>
    if o.ending then finishColl (modColl s id (fun o => { o with faulted := false })) { o with faulted := false }
    else supplyOwn (modColl s id (fun o => { o with faulted := false })) o

/-! ### Status (R412, R413) -/

/-- The status word of a tag: 0 where it is IDLE. -/
def tagStatus (g : Group) (tag : Nat) : BitVec 64 :=
  match mget g.tags tag with
  | some t => t.status
  | none => 0

/-- COLL.WAIT (R412): it waits until its tag is ENDED, and is then an acquire at the operation's scope. -/
def execCollWait (x : Enc) (s : State) : Out :=
  issue .collWait x s (fun c s =>
    match mget c.g.tags x.kf with
    | none => advance (onGroup s c (fun g => putScalar g x.d.idx (fun _ => 0))) c
    | some t =>
      if t.st ≠ 2 then s
      else
        advance (acquireAt (onGroup s c (fun g =>
          { putScalar g x.d.idx (fun _ => t.status) with tags := mdel g.tags x.kf })) c.g t.scope) c)

/-- COLL.STATUS (R412). -/
def execCollStatus (x : Enc) (s : State) : Out :=
  issue .collStatus x s (fun c s =>
    advance (onGroup s c (fun g => putScalar g x.d.idx (fun _ => tagStatus g x.kf))) c)

end Sys2Proof.Machine
end

