-- ==== Sys2Proof/Machine/Region.lean ====
section
/-!
DEFINITION. Regions: major 0x07 (R53 to R59, R117, R118, R281, R282), the selection of a region for audit and its
signature (R337, R338), and the commit journal (R341).
-/
namespace Sys2Proof.Machine

/-! ### Budgets (R54) -/

/-- Lines of a core's region-buffer pool. -/
def regionPool : Nat := 4096

/-- The region of a group holds a reservation on its core. -/
def holdsBudget (g : Group) : Bool :=
  g.region.granted && (g.region.st == .waiting || g.region.st == .opened || g.region.st == .committing)

/-- Lines reserved on a core. -/
def reservedOn (s : State) (core : Nat) : Nat :=
  s.groups.foldl (fun n e => if e.2.core = core && holdsBudget e.2 then n + e.2.region.budget else n) 0

/-- Lines that a team has reserved on a core, with the requests that wait. -/
def teamAsked (s : State) (tid core : Nat) : Nat :=
  s.groups.foldl (fun n e =>
    if e.2.team = tid && e.2.core = core && e.2.job.isNone && (holdsBudget e.2 || e.2.region.st == .waiting) then
      n + e.2.region.budget else n) 0

/-- REGION_BUDGET_GRANT (R54): the oldest request on the core is granted where it fits. -/
def grantBudget (s : State) (core : Nat) : State :=
  match (coreOf s core).rgnReqs with
  | [] => s
  | r :: rest =>
    let drop (st : State) : State := modCore st core (fun c => { c with rgnReqs := rest })
    match mget s.groups r.gid with
    | none => drop s
    | some g =>
      if g.region.st != .waiting then drop s
      else if reservedOn s core + r.budget ≤ regionPool then
        drop (modGroup s r.gid (fun g => { g with region := { g.region with granted := true } }))
      else s

/-- REGION_BUDGET_GRANT (R54). -/
def execRegionBudgetGrant (core : Nat) (s : State) : Out := stepEvent s (fun s => grantBudget s core)

/-! ### The record (R55, Table 3.8) -/

/-- WIDTH code of Table 3.6. -/
def widthCode (w : Nat) : Nat := if w = 16 then 0 else if w = 32 then 1 else 2

/-- Offset of the predicates in a record of `ns` scalars. -/
def recordPb (ns : Nat) : Nat := 64 + 64 * ((ns + 7) / 8)
/-- Size of the record. -/
def recordSize (w nv ns : Nat) : Nat := recordPb ns + 4 * w + 4 * w * nv

/-- The record's bytes: the primary copy of a group. -/
def recordBytes (g : Group) (pc : Pc) (nv ns budget : Nat) : List (BitVec 8) :=
  let pad (n : Nat) (bs : List (BitVec 8)) : List (BitVec 8) := bs ++ List.replicate (n - bs.length) 0
  let head := pad 64 (leBytes 4 pc.toNat ++ leBytes 2 nv ++ leBytes 1 ns ++
    leBytes 1 (widthCode g.width + 4 * g.lined.toNat) ++ leBytes 1 g.fpctl.toNat ++ leBytes 1 g.fpflags.toNat ++
    leBytes 2 budget)
  let scal := pad (recordPb ns - 64) ((List.range ns).flatMap (fun j => leBytes 8 (srget g 0 j).toNat))
  let preds := (List.range g.width).flatMap (fun i => leBytes 4 ((sget g.preds i).toNat % 2 ^ 15))
  let vecs := (List.range nv).flatMap (fun j => (List.range g.width).flatMap (fun i => leBytes 4 (vget g j i).toNat))
  head ++ scal ++ preds ++ vecs

/-- The snapshot of a group, as its record holds it: a lined group's primary copy, in both copies (R55). -/
def takeSnap (g : Group) (j nv ns : Nat) (sp : Split) : Snapshot :=
  let w := g.width
  let both (l : Nat) : List Nat := if g.lined then [l, l + w] else [l]
  { nv, ns, preds := (List.range w).foldl (fun m l => (both l).foldl (fun m k => sput m k (sget g.preds l)) m) []
    vregs := (List.range nv).foldl (fun m r => (List.range w).foldl (fun m l =>
      (both l).foldl (fun m k => sput m (64 * r + k) (vget g r l)) m) m) []
    sregs := (List.range ns).foldl (fun m i => (copiesOf g).foldl (fun m k => sput m (64 * k + i) (srget g 0 i)) m) []
    fpctl := g.fpctl, fpflags := g.fpflags, fpflagsSh := if g.lined then g.fpflags else g.fpflagsSh
    entry := j, split := { sp with wait := .none } }

/-! ### Selection for audit (R337) -/

/-- A region of an original group enters OPEN: it is selected by its launch or by the accumulator. While audit logging
is disabled a selected region counts as dropped (R350). -/
def selectRegion (s : State) (gid : Nat) : State :=
  match mget s.groups gid with
  | none => s
  | some g =>
    if g.job.isSome then s
    else
      let q := partOf s g.part
      let audit := match teamOf s g with
        | some t => t.launch.audit
        | none => 0
      let plain := !(audit = 1 || (audit = 2 && q.noAuditOk))
      let sum := q.auditAcc.toNat + q.fraction.toNat
      let sel := audit = 1 || (plain && 2 ^ 16 ≤ sum)
      let up (v : BitVec 32) : BitVec 32 := if v = BitVec.allOnes 32 then v else v + 1
      let s1 := modPart s g.part (fun q => { q with
        auditAcc := if plain then BitVec.ofNat 16 sum else q.auditAcc
        selected := if sel then up q.selected else q.selected
        dropped := if sel && q.auditLog = 0 then up q.dropped else q.dropped })
      modGroup s1 gid (fun g => { g with region := { g.region with audited := sel && q.auditLog != 0 } })

/-! ### REGION.OPEN (R53, R54, R281) -/

/-- The header of the block that holds the issuing instruction. -/
def issHeader (s : State) (c : Iss) : Word := (headerOf s c.g.core c.g.part c.g.ctx c.sp.pc).1

/-- A request for budget enters the core's list, and the group waits. -/
def askBudget (c : Iss) (s : State) : State :=
  let g := c.g
  let h := issHeader s c
  let b := (uniOperand g c.x 0 c.x.a).toNat
  match teamOf s g with
  | none => s
  | some t =>
    let big := 0x400 + recordSize g.width (hdrVlive h) (hdrSlive h) + 1024 > g.privSize
    if operandDiffers c c.x.a then liningMismatch s c c.sp.mask
    else if !hdrRgn h then raiseIss s c evRegionIllegal c.sp.mask 0
    else if b = 0 || t.launch.rgnMax < b || t.launch.rgnCore < teamAsked s g.team g.core + b || big then
      raiseIss s c evRegionBudget c.sp.mask 0
    else
      let s1 := onGroup (waitAs s c .region) c (fun g => { g with
        region := { st := .waiting, budget := b, openPc := c.sp.pc } })
      modCore s1 g.core (fun k => { k with rgnReqs := k.rgnReqs ++ [{ gid := c.gid, budget := b }] })

/-- The reservation is granted: once every register it saves is full the record is written and the region is OPEN
(R54, R328). A record write that faults keeps it WAITING (R54). -/
def openRegion (c : Iss) (s : State) : State :=
  let g := c.g
  let h := issHeader s c
  let nv := hdrVlive h
  let ns := hdrSlive h
  match savedHit g nv ns with
  | some (r, lanes) => raiseIss (onGroup s c (fun g => damage g r)) c evMachineCheck lanes (damageInfo r)
  | none =>
    if (List.range nv).any (isEmpty g) || !orderedNow s c.gid g || !memReady s g.part then s
    else
      let accs := storeWords (g.priv + 0x400) (recordBytes g c.sp.pc nv ns g.region.budget) (recordSize g.width nv ns / 8)
      match storeFails s g .store accs with
      | f :: _ => uniformFail s c.gid c.j s.nextOp c.sp.pc f.addr f.fail 1 8
      | [] =>
        let (id, s1) := fresh s
        let e : StoreEntry := { id, pc := c.sp.pc, split := c.j, kind := .store, accs, order := 0, scope := 0 }
        let s2 := storeAccs s1 c.gid g e accs
        let s3 := onGroup s2 c (fun g => { g with
          region := { g.region with st := .opened, snap := some (takeSnap g c.j nv ns c.sp), mark := s2.nextOp } })
        advance (selectRegion s3 c.gid) c

/-- REGION.OPEN (R54, R281). -/
def execRegionOpen (x : Enc) (s : State) : Out :=
  issue .regionOpen x s (fun c s =>
    match c.g.region.st with
    | .none => askBudget c s
    | .waiting => if c.g.region.granted then openRegion c s else s
    | _ => s)

/-! ### The signature of an audited region (R103, R338, Table 19.4) -/

/-- The records of the held lines. -/
def sigLines (v : W64) (held : Amap HeldLine) : W64 :=
  held.foldl (fun (v : W64) e => (List.range 16).foldl (fun (v : W64) i =>
    let m := (e.2.mask.extractLsb' (8 * i) 8).toNat
    if m = 0 then v
    else
      let bytes := (List.range 8).map (fun k => if m / 2 ^ k % 2 = 1 then lineByte e.2.data (8 * i + k) else 0)
      sigRecord v (BitVec.ofNat 64 ((128 * e.1 + 8 * i) % 2 ^ 56 + m * 2 ^ 56)) (BitVec.ofNat 64 (leNat bytes))) v) v

/-- The signature of a region at its commit. -/
def regionSig (g : Group) (nv ns : Nat) : W64 :=
  let v1 := sigLines 0 g.region.held
  let v2 := (List.range nv).foldl (fun (v : W64) j => (List.range g.width).foldl (fun (v : W64) i =>
    sigRecord v (BitVec.ofNat 64 (0xFE00000000000000 + 2 ^ 16 * j + i)) ((vget g j i).setWidth 64)) v) v1
  let v3 := (List.range ns).foldl (fun (v : W64) j =>
    sigRecord v (BitVec.ofNat 64 (0xFD00000000000000 + j)) (srget g 0 j)) v2
  let v4 := (List.range g.width).foldl (fun (v : W64) i =>
    sigRecord v (BitVec.ofNat 64 (0xFC00000000000000 + i)) (BitVec.ofNat 64 ((sget g.preds i).toNat % 2 ^ 15))) v3
  sigRecord v4 0xFB00000000000000 (g.fpflags.setWidth 64)

/-! ### REGION.CLOSE (R57, R118, R281) -/

/-- The live registers of a block agree in the copies of a lined group (Table 19.3). -/
def liveAgree (g : Group) (nv ns : Nat) : Bool :=
  !g.lined || ((List.range nv).all (fun j => (List.range g.width).all (fun i => vget g j i == vget g j (i + g.width))) &&
    (List.range ns).all (fun j => srget g 0 j == srget g 1 j))

/-- The lanes at which saved vector registers of the copies differ, or every lane where scalars do (R335). -/
def liveDiffer (g : Group) (nv ns : Nat) : BitVec 64 :=
  if g.lined && (List.range ns).any (fun j => srget g 0 j != srget g 1 j) then g.live
  else maskOf ((List.range g.width).filter (fun i => (List.range nv).any (fun j => vget g j i != vget g j (i + g.width))))

/-- The close may go on: no replay entry, every earlier access performed, no live register on its way; in a job every
counter zero (R245, R329). -/
def closeReady (s : State) (c : Iss) (nv : Nat) : Bool :=
  c.g.replayG.isNone && c.g.replayS.isNone && releaseReady s c &&
    !(List.range nv).any (fun r => isEmpty c.g r && prodFills c.g r) && (c.g.job.isNone || c.g.counters.isEmpty)

/-- REGION.CLOSE (R57, R281): the region enters COMMITTING; an audit run ends with its signature. -/
def execRegionClose (x : Enc) (s : State) : Out :=
  issue .regionClose x s (fun c s =>
    match c.g.region.st with
    | .opened =>
      let h := issHeader s c
      if !hdrRgn h then regionIllegal s c
      else if !closeReady s c (hdrVlive h) then s
      else if !liveAgree c.g (hdrVlive h) (hdrSlive h) then
        liningMismatch s c (liveDiffer c.g (hdrVlive h) (hdrSlive h))
      else
        match auditJob s c.g with
        | some j =>
          let sig := regionSig c.g (hdrVlive h) (hdrSlive h)
          endJob (modJob s j.id (fun j => { j with sigs := j.sigs ++ [sig] })) c.gid j.id .committed
        | none =>
          onGroup (waitAs s c .region) c (fun g => { g with
            region := { g.region with st := .committing, scope := x.scope, closePc := c.sp.pc } })
    | .committing => s
    | _ => regionIllegal s c)

/-- The cache policy of a held line, from a page it was stored through. -/
def heldCpol (s : State) (g : Group) (h : HeldLine) : Nat :=
  match h.pages with
  | v :: _ =>
    match translate s g.core g.part g.ctx (BitVec.ofNat 64 (2 ^ 16 * v)) with
    | .ok e => e.cpol
    | .error _ => 0
  | [] => 0

/-- A held line enters the core's store order as the bytes of its mask; parts that an error struck in the commit are
poisoned (R118, R328). -/
def enterLine (s : State) (g : Group) (line : Nat) (h : HeldLine) : State :=
  let s1 := coreStoreLine s g.core g.part g.ctx (chainOf s g) line (heldCpol s g h) h.h1 h.h2 h.data h.mask (wholeOfMask h.mask)
  if h.poison = 0 then s1 else taintLine s1 g.core line (h.poison &&& partsOfMask h.mask)

/-- A batch enters the core's store order whole: no observer sees it in part (R57, R118). The core writes its lines
back in the same step. -/
def enterBatch (s : State) (g : Group) (held : Amap HeldLine) : State :=
  let s1 := held.foldl (fun st e => enterLine st g e.1 e.2) s
  held.foldl (fun st e => l1WriteBack st g.core e.1) s1

/-- The place of a cluster among those of its partition. -/
def clusterPlace (s : State) (p k : Nat) : Nat := ((bitsOf (partOf s p).clusters).filter (· < k)).length

/-- The newest journal index at which a core of the cluster passed its test. -/
def lastPass (c : Cluster) : Nat := c.passed.foldl (fun n e => max n e.2) 0

/-- The virtual address of a held line, through the first page by which a store reached it (R341). -/
def heldAddr (e : Nat × HeldLine) : Nat := 2 ^ 16 * e.2.pages.headD 0 + 128 * e.1 % 2 ^ 16

/-- A commit's journal entry (R341), with the lowest and the highest virtual address of its lines; none where the journal is
disabled. -/
def journalCommit (s : State) (g : Group) (pc : Pc) (lines : List Nat) : State :=
  let k := clusterOfCore g.core
  let q := partOf s g.part
  let s1 := modCluster s k (fun c => { c with commits := c.commits + 1 })
  if q.journalBase = 0 then s1
  else
    let n := (clusterOf s k).journal
    let size := 2 ^ q.journalLog2.toNat
    let a := q.journalBase.toNat + 32 * (size * clusterPlace s g.part k + n % size)
    let addrs := g.region.held.map heldAddr
    let lo := addrs.foldl min (addrs.headD 0)
    let hi := addrs.foldl max 0
    let s2 := writeHome (touchHome s1 g.part g.ctx (chainOf s g) a 32 true) a (leBytes 8 g.serial.toNat ++ leBytes 4 pc.toNat ++ leBytes 1 (chainOf s g) ++ leBytes 1 0 ++
      leBytes 2 lines.length ++ leBytes 8 lo ++ leBytes 8 hi)
    modCluster s2 k (fun c => { c with journal := n + 1, overflow := c.overflow || lastPass c + size ≤ n })

/-- An audited region's audit becomes a reserve-core job (R338, R339). -/
def startAudit (s : State) (g : Group) (nv ns : Nat) : State :=
  if !g.region.audited then s
  else
    let job : Job :=
      { id := s.nextOp, part := g.part, kind := .audit 1, origin := clusterOfCore g.core, orig := some g
        coreid := coreidOf s g.core
        team := teamOf s g, sigs := [regionSig g nv ns], log := g.region.logged, logSlots := g.region.logSlots
        closePc := g.region.closePc
        images := (coreOf s g.core).dir.filterMap (fun e =>
          if e.part = g.part && e.ctx = g.ctx then some (e.id, e.image, e.root) else none) }
    { s with jobs := s.jobs ++ [job], nextOp := s.nextOp + 1 }

/-- REGION_COMMIT (R57, R118): the batch, a release at the scope of CLOSE; the reservation is returned. A replay's
batch is a release at device scope or wider, and its run ends (R329). -/
def commitRegion (s : State) (gid : Nat) : State :=
  match mget s.groups gid with
  | none => s
  | some g =>
    if g.region.st != .committing then s
    else
      let (h, _) := headerOf s g.core g.part g.ctx g.region.closePc
      let own := if g.job.isSome then max g.region.scope 4 else g.region.scope
      let scope := match g.fenceRel with | some f => joinScope s g own f | none => own
      let lines := g.region.held.map (·.1)
      if releaseWaits s g scope then s
      else
      let s1 := releaseAt s g scope
      let s2 := enterBatch s1 g g.region.held
      let s3 := journalCommit s2 g g.region.openPc lines
      match g.job with
      | some i => endJob (modJob s3 i (fun j => { j with batch := lines, closePc := g.region.closePc })) gid i .committed
      | none =>
        let s4 := startAudit s3 g (hdrVlive h) (hdrSlive h)
        modGroup s4 gid (fun g => { g with
          region := {}
          splits := g.splits.map (fun e => (e.1, e.2.onward s.clk (g.region.closePc + 1))) })

/-- REGION_COMMIT (R57). -/
def execRegionCommit (gid : Nat) (s : State) : Out := stepEvent s (fun s => commitRegion s gid)

/-! ### REGION.ABORT and REGION.INFO (R57, R282) -/

/-- The abort target: a header whose RGN is 0 (R282). -/
def abortTarget (s : State) (c : Iss) : Option Pc :=
  match labelTarget s c with
  | some t => if hdrRgn (headerOf s c.g.core c.g.part c.g.ctx t).1 then none else some t
  | none => none

/-- REGION.ABORT (R57, R282). In a replay its run ends there (R332). -/
def execRegionAbort (x : Enc) (s : State) : Out :=
  issue .regionAbort x s (fun c s =>
    if c.g.region.st != .opened then regionIllegal s c
    else
      match abortTarget s c with
      | none => raiseIss s c evBadTarget c.sp.mask 0
      | some t =>
        match c.g.job with
        | some i => endJob s c.gid i (.aborted t)
        | none =>
          onGroup (rollback s c.gid) c (fun g => { g with
            splits := g.splits.map (fun e => (e.1, Split.onward { e.2 with yld := x.yld } s.clk t)) }))

/-- REGION.INFO (R282). -/
def execRegionInfo (x : Enc) (s : State) : Out :=
  issue .regionInfo x s (fun c s =>
    let free := regionPool - reservedOn s c.g.core
    let mine := s.groups.foldl (fun n e =>
      if e.2.team = c.g.team && e.2.core = c.g.core && holdsBudget e.2 then n + e.2.region.budget else n) 0
    let v : BitVec 64 := BitVec.ofNat 64 (free % 2 ^ 13 + mine % 2 ^ 13 * 2 ^ 16)
    advance (onGroup s c (fun g => putScalar g x.d.idx (fun _ => v))) c)

end Sys2Proof.Machine
end

