-- ==== Sys2Proof/Machine/Struct.lean ====
section
/-!
DEFINITION. Structures as they lie in memory: the descriptor, its generation table, nodes and the node map, pins and
reclamation (R367, R370, R371, R373, R375, R376, Tables 23.1 and 23.2).
-/
namespace Sys2Proof.Machine
open Sys2Proof

/-- PENDROOT for none. -/
def noSlot : Nat := 0xFFFFFFFF

/-- An entry of GENTAB. -/
structure GenEntry where
  gen : Nat
  root : Nat
  pins : Nat
  prims : BitVec 64
  deriving DecidableEq, Repr

/-- A structure descriptor as read at a physical address (Table 23.1). -/
structure Desc where
  pa : Nat
  prims : BitVec 64
  count : Nat
  kind : Nat
  mode : Nat
  pstride : Nat
  nodebase : BitVec 64
  nodecap : Nat
  curgen : Nat
  pendroot : Nat
  refits : Nat
  depth : Nat
  sah : Nat
  overlap : Nat
  used : Nat
  tcount : Nat
  /-- the reserved bytes, those of GENTAB among them, are zero -/
  clean : Bool
  gens : List GenEntry
  deriving DecidableEq, Repr

/-- The descriptor's address: 512-B aligned, in local memory, on a page with R and W (R367). -/
def descAt (s : State) (q : Accessor) (va : BitVec 64) : Except Fail Nat :=
  if va.toNat % 512 ≠ 0 then .error { cause := evAddress }
  else
    match reach s q va 512 .rw with
    | .error f => .error f
    | .ok p => if isRemote p.pa || p.window then .error { cause := evProtection } else .ok p.pa

/-- Reads a descriptor at its home, and whether it carries poison. -/
def readDesc (s : State) (pa : Nat) : Desc × Bool :=
  let (bs, bad) := readHome s pa 512
  let f (off n : Nat) : Nat := fieldAt bs off n
  ({ pa, prims := BitVec.ofNat 64 (f 0 8), count := f 8 4, kind := f 12 1, mode := f 13 1, pstride := f 14 2
     nodebase := BitVec.ofNat 64 (f 16 8), nodecap := f 24 4, curgen := f 28 4, pendroot := f 32 4, refits := f 36 4
     depth := f 40 4, sah := f 44 4, overlap := f 48 4, used := f 52 4, tcount := f 56 4
     clean := ((bs.drop 60).take 68).all (· == 0) && (List.range 16).all (fun i => f (140 + 24 * i) 4 == 0)
     gens := (List.range 16).map (fun i =>
       { gen := f (128 + 24 * i) 4, root := f (132 + 24 * i) 4, pins := f (136 + 24 * i) 4
         prims := BitVec.ofNat 64 (f (144 + 24 * i) 8) }) }, bad)

/-- Writes a field of a descriptor at its home. -/
def putDesc (s : State) (q : Accessor) (pa off n v : Nat) : State :=
  writeHome (touchHome s q.part q.ctx q.chain (pa + off) n true) (pa + off) (leBytes n v)

/-- The directory's part in reading a descriptor (R121, R122). -/
def touchDesc (s : State) (q : Accessor) (pa : Nat) : State := touchHome s q.part q.ctx q.chain pa 512 false

/-- The live generations. -/
def Desc.live (d : Desc) : List Nat := (d.gens.map (·.gen)).filter (· ≠ 0)

/-- The structure has a pending tree. A descriptor that no build has written yet, all zero from CURGEN on, has none
(log entry 38). -/
def Desc.pending (d : Desc) : Bool := d.pendroot ≠ noSlot && d.used ≠ 0

/-- The index of a generation's entry. -/
def Desc.entryOf (d : Desc) (gen : Nat) : Option Nat :=
  if gen = 0 then none else d.gens.findIdx? (fun e => e.gen == gen)

/-! ### Nodes (R370, R371) -/

/-- A child of a node: its box as six FP32 encodings, CKIND and INDEX. -/
structure Kid where
  box : List Nat
  kind : Nat
  index : Nat
  deriving DecidableEq, Repr

/-- A node: its slot and its children. -/
structure NodeRec where
  slot : Nat
  kids : List Kid
  deriving DecidableEq, Repr

/-- The empty child: the box from +∞ to −∞. -/
def emptyKid : Kid :=
  { box := [0x7F800000, 0x7F800000, 0x7F800000, 0xFF800000, 0xFF800000, 0xFF800000], kind := 0, index := 0 }

/-- The address of a node slot. -/
def slotAddr (d : Desc) (n : Nat) : BitVec 64 := d.nodebase + BitVec.ofNat 64 (256 * n)
/-- The address of a slot's entry in the node map. -/
def mapAddr (d : Desc) (n : Nat) : BitVec 64 := d.nodebase + BitVec.ofNat 64 (256 * d.nodecap + 8 * n)

/-- A node from its 256 bytes. -/
def parseNode (slot : Nat) (bs : List (BitVec 8)) : NodeRec :=
  { slot, kids := (List.range 8).map (fun k =>
      let r := fieldAt bs (192 + 8 * k) 8
      { box := (List.range 6).map (fun i => fieldAt bs (24 * k + 4 * i) 4), kind := bits r 62 2, index := bits r 0 32 }) }

/-- The 256 bytes of a node. -/
def nodeBytes (kids : List Kid) : List (BitVec 8) :=
  kids.flatMap (fun k => k.box.flatMap (fun v => leBytes 4 v)) ++
    kids.flatMap (fun k => leBytes 8 (k.index + k.kind * 2 ^ 62))

/-- Why a read of an engine cannot go on: a fault at an address, or poison. -/
inductive EngFail where
  | fault (f : Fail) (va : BitVec 64)
  | poison
  deriving DecidableEq, Repr

/-- An engine's read of memory, poison included. -/
def engGet (s : State) (q : Accessor) (va : BitVec 64) (n : Nat) : Except EngFail (List (BitVec 8)) :=
  match engineRead s q va n .r with
  | .error f => .error (.fault f va)
  | .ok (bs, bad) => if bad then .error .poison else .ok bs

/-- Applies a read to each element, in order, up to the first that fails. -/
def readAll {α β ε : Type} (f : α → Except ε β) : List α → Except ε (List β)
  | [] => .ok []
  | a :: l =>
    match f a with
    | .error e => .error e
    | .ok b =>
      match readAll f l with
      | .error e => .error e
      | .ok bs => .ok (b :: bs)

/-- Reads a node. -/
def readNode (s : State) (q : Accessor) (d : Desc) (slot : Nat) : Except EngFail NodeRec :=
  match engGet s q (slotAddr d slot) 256 with
  | .error e => .error e
  | .ok bs => .ok (parseNode slot bs)

/-- The slots of the node children of nodes, in order. -/
def nodeKids (ns : List NodeRec) : List Nat := ns.flatMap (fun n => (n.kids.filter (·.kind == 1)).map (·.index))

/-- The levels of a tree from the given nodes down. A tree of 2^24 primitives has fewer than ten. -/
def readLevels (s : State) (q : Accessor) (d : Desc) : Nat → List Nat → Except EngFail (List (List NodeRec))
  | 0, _ => .ok []
  | _ + 1, [] => .ok []
  | n + 1, slots =>
    match readAll (readNode s q d) slots with
    | .error e => .error e
    | .ok ns =>
      match readLevels s q d n (nodeKids ns) with
      | .error e => .error e
      | .ok ls => .ok (ns :: ls)

/-- The levels of the tree at a root slot. -/
def treeAt (s : State) (q : Accessor) (d : Desc) (root : Nat) : Except EngFail (List (List NodeRec)) :=
  readLevels s q d 16 [root]

/-- The slots of a tree. -/
def treeSlots (ls : List (List NodeRec)) : List Nat := ls.flatMap (fun l => l.map (·.slot))

/-- BIRTH and DEATH of a slot. -/
def slotSpan (s : State) (q : Accessor) (d : Desc) (n : Nat) : Except EngFail (Nat × Nat) :=
  match engGet s q (mapAddr d n) 8 with
  | .error e => .error e
  | .ok bs => .ok (fieldAt bs 0 4, fieldAt bs 4 4)

/-- A slot's span holds a live generation (R376). -/
def spanLive (d : Desc) (x : Nat × Nat) : Bool :=
  d.live.any (fun g => x.1 != 0 && x.1 ≤ g && (x.2 == 0 || g < x.2))

/-- The slots in use, in ascending order: those whose span holds a live generation, and the pending tree's (R376). -/
def usedSlots (s : State) (q : Accessor) (d : Desc) : Except EngFail (List Nat) :=
  match (if d.pending then treeAt s q d d.pendroot else .ok []) with
  | .error e => .error e
  | .ok ls =>
    let pend := treeSlots ls
    match readAll (slotSpan s q d) (List.range d.nodecap) with
    | .error e => .error e
    | .ok spans =>
      .ok ((spans.zip (List.range d.nodecap)).filterMap (fun x =>
        if spanLive d x.1 || pend.contains x.2 then some x.2 else none))

/-- Reclamation: USED counts the slots in use (R376). It is left as it was where the node map cannot be read. -/
def reclaim (s : State) (q : Accessor) (pa : Nat) : State :=
  match usedSlots s q (readDesc s pa).1 with
  | .ok l => putDesc s q pa 52 4 l.length
  | .error _ => s

/-! ### Pins (R375, R376) -/

/-- An engine's accessor in a context, for a kernel of a chain. -/
def engAcc (p ctx : Nat) (chain : Nat := 0) : Accessor := { core := ioDie, part := p, ctx, chain }

/-- Adds a pin to a generation's entry. -/
def addPin (s : State) (q : Accessor) (pa i : Nat) : State :=
  let e := ((readDesc s pa).1.gens.getD i { gen := 0, root := 0, pins := 0, prims := 0 })
  putDesc s q pa (136 + 24 * i) 4 (e.pins + 1)

/-- Releases a pin of a generation at a physical descriptor: an OLD entry without pins falls FREE (Table 23.2). -/
def dropPinAt (s : State) (q : Accessor) (pa gen : Nat) : State :=
  let d := (readDesc s pa).1
  match d.entryOf gen with
  | none => s
  | some i =>
    let pins := (d.gens.getD i { gen := 0, root := 0, pins := 0, prims := 0 }).pins - 1
    let s1 := putDesc (touchDesc s q pa) q pa (136 + 24 * i) 4 pins
    if pins = 0 && gen ≠ d.curgen then reclaim (putDesc s1 q pa (128 + 24 * i) 4 0) q pa else s1

/-- Releases a pin of a generation of a structure; nothing where its descriptor cannot be reached (log entry 32). -/
def dropPin (s : State) (p ctx : Nat) (desc : BitVec 64) (gen : Nat) (chain : Nat := 0) : State :=
  if gen = 0 then s
  else
    match descAt s (engAcc p ctx) desc with
    | .error _ => s
    | .ok pa => dropPinAt s (engAcc p ctx chain) pa gen

/-- Why the pin of a group cannot be released: its descriptor cannot be reached (R218, R386). -/
def pinFault (s : State) (g : Group) : Option Fail :=
  if g.gen = 0 then none
  else
    match descAt s (engAcc g.part g.ctx) g.genDesc with
    | .error f => some f
    | .ok _ => none

/-- A group's pin is released and %gen is 0 (R382, R386). -/
def releasePin (s : State) (gid : Nat) : State :=
  match mget s.groups gid with
  | none => s
  | some g =>
    modGroup (dropPin s g.part g.ctx g.genDesc g.gen.toNat (chainOf s g)) gid (fun g => { g with gen := 0, genDesc := 0 })

end Sys2Proof.Machine
end

