-- ==== Sys2Proof/Machine/Shape.lean ====
section
/-!
DEFINITION. Primitives, boxes and trees: exact arithmetic on dyadic numbers, the boxes and degenerate cases of R368,
the tree of a build (R369), refitting (R372) and the quality figures (R377).
-/
namespace Sys2Proof.Machine
open Sys2Proof

/-! ### Exact numbers m × 2^e -/

/-- A dyadic number. -/
structure Dy where
  m : Int
  e : Int
  deriving DecidableEq, Repr

def Dy.zero : Dy := { m := 0, e := 0 }
/-- The mantissa at a lower exponent. -/
def Dy.at (a : Dy) (e : Int) : Int := a.m * (2 ^ (a.e - e).toNat : Nat)
def Dy.add (a b : Dy) : Dy := let e := min a.e b.e; { m := a.at e + b.at e, e }
def Dy.neg (a : Dy) : Dy := { a with m := -a.m }
def Dy.sub (a b : Dy) : Dy := a.add b.neg
def Dy.mul (a b : Dy) : Dy := { m := a.m * b.m, e := a.e + b.e }
def Dy.lt (a b : Dy) : Bool := (a.sub b).m < 0
def Dy.le (a b : Dy) : Bool := !b.lt a
def Dy.isZero (a : Dy) : Bool := a.m == 0

/-- A number of the extended reals. -/
inductive Xr where
  | ninf
  | fin (d : Dy)
  | pinf
  deriving DecidableEq, Repr

/-- a ≤ b. -/
def Xr.le : Xr → Xr → Bool
  | .ninf, _ => true
  | _, .pinf => true
  | .fin a, .fin b => a.le b
  | _, _ => false

/-- The value of a number that is not a NaN; a NaN counts as 0 where it cannot occur. -/
def xrOf : Fv → Xr
  | .nan _ => .fin Dy.zero
  | .inf n => if n then .ninf else .pinf
  | .fin n m e => .fin { m := if n then -(m : Int) else m, e }

def f64Fmt : Fmt := fmtOf .f64
/-- The dyadic value of a finite FP32 encoding. -/
def dy32 (n : Nat) : Dy := match xrOf (f32 n) with | .fin d => d | _ => Dy.zero
/-- An exact number as a result to round. -/
def Dy.toEx (d : Dy) : Ex := .num (d.m < 0) d.m.natAbs d.e
/-- An exact number rounded to nearest even in a format, as its encoding. -/
def Dy.round (f : Fmt) (d : Dy) : Nat := (deliver f 0 false false d.toEx).val
/-- The number as a value. -/
def Dy.toFv (d : Dy) : Fv := .fin (d.m < 0) d.m.natAbs d.e

/-- a / b in FP64 nearest even. -/
def div64 (a b : Dy) : Fv := decodeFloat f64Fmt (deliver f64Fmt 0 false false (exDiv 53 a.toFv b.toFv)).val

/-! ### Primitives (R368) -/

/-- Bytes of a primitive of a KIND. -/
def primSize (kind : Nat) : Nat := if kind = 0 then 36 else if kind = 1 then 28 else 24

/-- The least and greatest of FP32 encodings, −0 below +0. -/
def min32 (a b : Nat) : Nat := (minMax f32Fmt false a b).val
def max32 (a b : Nat) : Nat := (minMax f32Fmt true a b).val

/-- min − radius rounded toward −∞, max + radius toward +∞. -/
def grow32 (up : Bool) (a r : Nat) : Nat :=
  let y := if up then f32 r else (f32 r).negate
  let rnd := if up then 2 else 3
  (deliver f32Fmt rnd false false (exAdd rnd (f32 a) y)).val

/-- The box of a primitive given as its FP32 fields. -/
def primBox (kind : Nat) (v : List Nat) : List Nat :=
  let x (i : Nat) : Nat := v.getD i 0
  if kind = 0 then
    (List.range 3).map (fun i => min32 (min32 (x i) (x (3 + i))) (x (6 + i))) ++
      (List.range 3).map (fun i => max32 (max32 (x i) (x (3 + i))) (x (6 + i)))
  else if kind = 1 then
    (List.range 3).map (fun i => grow32 false (min32 (x i) (x (3 + i))) (x 6)) ++
      (List.range 3).map (fun i => grow32 true (max32 (x i) (x (3 + i))) (x 6))
  else v.take 6

/-- A vector of exact numbers. -/
abbrev V3 := Dy × Dy × Dy
def V3.sub (a b : V3) : V3 := (a.1.sub b.1, a.2.1.sub b.2.1, a.2.2.sub b.2.2)
def V3.isZero (a : V3) : Bool := a.1.isZero && a.2.1.isZero && a.2.2.isZero
def V3.cross (a b : V3) : V3 :=
  ((a.2.1.mul b.2.2).sub (a.2.2.mul b.2.1), (a.2.2.mul b.1).sub (a.1.mul b.2.2), (a.1.mul b.2.1).sub (a.2.1.mul b.1))
/-- Three FP32 fields from an index on. -/
def vecAt (v : List Nat) (i : Nat) : V3 := (dy32 (v.getD i 0), dy32 (v.getD (i + 1) 0), dy32 (v.getD (i + 2) 0))

/-- The reason a primitive is degenerate, 0 for none (R368). -/
def degenerate (kind mode : Nat) (v : List Nat) : Nat :=
  let finite (n : Nat) : Bool := match f32 n with | .fin _ _ _ => true | _ => false
  if !v.all finite then 1
  else if kind = 0 && mode % 2 = 1 &&
      (V3.cross ((vecAt v 3).sub (vecAt v 0)) ((vecAt v 6).sub (vecAt v 0))).isZero then 2
  else if kind = 1 && (dy32 (v.getD 6 0)).m < 0 then 3
  else if kind = 2 && (List.range 3).any (fun i => (dy32 (v.getD (3 + i) 0)).lt (dy32 (v.getD i 0))) then 3
  else 0

/-- Reads a primitive's fields. -/
def readPrim (s : State) (q : Accessor) (prims : BitVec 64) (stride kind j : Nat) : Except EngFail (List Nat) :=
  match engGet s q (prims + BitVec.ofNat 64 (stride * j)) (primSize kind) with
  | .error e => .error e
  | .ok bs => .ok ((List.range (primSize kind / 4)).map (fun i => fieldAt bs (4 * i) 4))

/-! ### The tree of a build (R369) -/

/-- The union of boxes; of none, the empty box. -/
def unionBoxes (bs : List (List Nat)) : List Nat :=
  bs.foldl (fun u b =>
    (List.range 6).map (fun i => if i < 3 then min32 (u.getD i 0) (b.getD i 0) else max32 (u.getD i 0) (b.getD i 0)))
    emptyKid.box

/-- The centroid of a box on an axis, doubled: min + max. -/
def twiceCentre (b : List Nat) (i : Nat) : Dy := (dy32 (b.getD i 0)).add (dy32 (b.getD (3 + i) 0))

/-- A box value on an axis is infinite: only a segment whose box overflows FP32 has one. -/
def boxInfinite (b : List Nat) : Bool := b.any (fun n => match f32 n with | .inf _ => true | _ => false)

/-- The quantised centroid on an axis; `free` where the bounds or the box are infinite and the rule states no value. -/
def quantise (lo hi : Nat) (b : List Nat) (i free : Nat) : Nat :=
  if boxInfinite [lo, hi, b.getD i 0, b.getD (3 + i) 0] then free % 2 ^ 21
  else
    let l := dy32 lo
    let h := dy32 hi
    if (h.sub l).isZero then 0
    else
      let two : Dy := { m := 2, e := 0 }
      match div64 ((twiceCentre b i).sub (two.mul l)) (two.mul (h.sub l)) with
      | .fin false m e => min (m * 2 ^ 21 * 2 ^ e.toNat / 2 ^ (-e).toNat) (2 ^ 21 - 1)
      | _ => 0

/-- The Morton code of three quantised values. -/
def morton (qx qy qz : Nat) : Nat :=
  (List.range 21).foldl (fun n b => n + (bits qx b 1 * 4 + bits qy b 1 * 2 + bits qz b 1) * 2 ^ (3 * b)) 0

/-- Inserts a keyed element into an ascending list, after those with an equal key. -/
def insertKey {α : Type} (k : Nat) (a : α) : List (Nat × α) → List (Nat × α)
  | [] => [(k, a)]
  | x :: l => if x.1 ≤ k then x :: insertKey k a l else (k, a) :: x :: l

/-- The boxes in Morton order, each with its primitive index. -/
def sortBoxes (boxes : List (List Nat)) (free : Nat → Nat) : List (Nat × List Nat) :=
  let u := unionBoxes boxes
  let code (b : List Nat) (j : Nat) : Nat :=
    morton (quantise (u.getD 0 0) (u.getD 3 0) b 0 (free (3 * j)))
      (quantise (u.getD 1 0) (u.getD 4 0) b 1 (free (3 * j + 1))) (quantise (u.getD 2 0) (u.getD 5 0) b 2 (free (3 * j + 2)))
  let keyed : List (Nat × (Nat × List Nat)) := (boxes.zip (List.range boxes.length)).foldl
    (fun (l : List (Nat × (Nat × List Nat))) x => insertKey (code x.1 x.2) (x.2, x.1) l) []
  keyed.map (·.2)

/-- Runs of eight. -/
def chunks8 {α : Type} : Nat → List α → List (List α)
  | 0, _ => []
  | _ + 1, [] => []
  | n + 1, l => l.take 8 :: chunks8 n (l.drop 8)

/-- Eight children of a node, the unused ones empty. -/
def padKids (l : List Kid) : List Kid := l ++ List.replicate (8 - l.length) emptyKid

/-- Levels above the given nodes, bottom-up: each node's children take the slots of the level below in order. -/
def levelsUp (slot : Nat → Nat) : Nat → Nat → List NodeRec → List (List NodeRec)
  | 0, _, _ => []
  | fuel + 1, next, below =>
    if below.length ≤ 1 then []
    else
      let kids := below.map (fun n => ({ box := unionBoxes (n.kids.map (·.box)), kind := 1, index := n.slot } : Kid))
      let groups := chunks8 kids.length kids
      let nodes := (groups.zip (List.range groups.length)).map (fun x =>
        ({ slot := slot (next + x.2), kids := padKids x.1 } : NodeRec))
      nodes :: levelsUp slot fuel (next + nodes.length) nodes

/-- The tree of a build from the primitives' boxes, bottom-up, its n-th node in slot `slot n`. -/
def buildLevels (boxes : List (List Nat)) (free slot : Nat → Nat) : List (List NodeRec) :=
  let kids := (sortBoxes boxes free).map (fun x => ({ box := x.2, kind := 2, index := x.1 } : Kid))
  let groups := if kids.isEmpty then [[]] else chunks8 kids.length kids
  let nodes := (groups.zip (List.range groups.length)).map (fun x => ({ slot := slot x.2, kids := padKids x.1 } : NodeRec))
  nodes :: levelsUp slot 16 nodes.length nodes

/-! ### Refitting (R372) -/

/-- A node refitted: its children's new boxes and references; a node whose content differs takes a new slot. Given are
the slot and box that each node of the level below now has, by old slot; answered are this level's, the nodes written,
and how many new slots are taken. -/
def refitNode (slot : Nat → Nat) (below : Amap (Nat × List Nat)) (primBoxOf : Nat → List Nat) (taken : Nat) (n : NodeRec) :
    NodeRec × Option NodeRec × Nat :=
  let kids := n.kids.map (fun k =>
    if k.kind = 2 then { k with box := primBoxOf k.index }
    else if k.kind = 1 then
      match mget below k.index with
      | some x => { k with index := x.1, box := x.2 }
      | none => k
    else k)
  if kids = n.kids then (n, none, taken)
  else
    let m : NodeRec := { slot := slot taken, kids }
    (m, some m, taken + 1)

/-- Refits a level, nodes in ascending position. -/
def refitLevel (slot : Nat → Nat) (below : Amap (Nat × List Nat)) (primBoxOf : Nat → List Nat) (taken : Nat)
    (l : List NodeRec) : Amap (Nat × List Nat) × List NodeRec × List NodeRec × Nat :=
  l.foldl (fun (r : Amap (Nat × List Nat) × List NodeRec × List NodeRec × Nat) n =>
    let (m, w, t) := refitNode slot below primBoxOf r.2.2.2 n
    (mput r.1 n.slot (m.slot, unionBoxes (m.kids.map (·.box))), r.2.1 ++ [m], r.2.2.1 ++ w.toList, t)) ([], [], [], taken)

/-- Refits the levels of a tree, bottom-up: the nodes to write in that order, the new levels bottom-up, and the new
slots taken. -/
def refitLevels (slot : Nat → Nat) (primBoxOf : Nat → List Nat) :
    List (List NodeRec) → Amap (Nat × List Nat) → Nat → List NodeRec × List (List NodeRec) × Nat
  | [], _, t => ([], [], t)
  | l :: up, below, t =>
    let (m, now, ws, t1) := refitLevel slot below primBoxOf t l
    let (ws', ls, t2) := refitLevels slot primBoxOf up m t1
    (ws ++ ws', now :: ls, t2)

/-! ### Quality (R377) -/

/-- FP64 nearest-even operations on encodings' values. -/
def r64 (e : Ex) : Fv := decodeFloat f64Fmt (deliver f64Fmt 0 false false e).val
def add64 (a b : Fv) : Fv := r64 (exAdd 0 a b)
def sub64 (a b : Fv) : Fv := r64 (exAdd 0 a b.negate)
def mul64 (a b : Fv) : Fv := r64 (exMul a b)

/-- A box is empty: some maximum lies below its minimum. -/
def boxEmpty (b : List Nat) : Bool := (List.range 3).any (fun i => fvLt (f32 (b.getD (3 + i) 0)) (f32 (b.getD i 0)))

/-- SA of a box. -/
def boxArea (b : List Nat) : Fv :=
  if boxEmpty b then .fin false 0 0
  else
    let w (i : Nat) : Fv := sub64 (f32 (b.getD (3 + i) 0)) (f32 (b.getD i 0))
    let t := add64 (add64 (mul64 (w 0) (w 1)) (mul64 (w 1) (w 2))) (mul64 (w 2) (w 0))
    match t with
    | .fin n m e => .fin n m (e + 1)
    | t => t

/-- The intersection of two boxes. -/
def meetBox (a b : List Nat) : List Nat :=
  (List.range 6).map (fun i => if i < 3 then max32 (a.getD i 0) (b.getD i 0) else min32 (a.getD i 0) (b.getD i 0))

/-- An exact sum of areas; nothing where one is infinite. -/
def sumAreas (l : List Fv) : Option Dy :=
  l.foldl (fun r a =>
    match r, xrOf a with
    | some d, .fin x => some (d.add x)
    | _, _ => none) (some Dy.zero)

/-- A figure: numerator over denominator, rounded once to FP32; 0 where the denominator is 0; `free` where an area is
infinite and the rule states no value. -/
def figure (num den : List Fv) (free : Nat) : Nat :=
  match sumAreas num, sumAreas den with
  | some a, some b =>
    if b.isZero then 0 else (deliver f32Fmt 0 false false (exDiv 24 a.toFv b.toFv)).val
  | _, _ => free % 2 ^ 32

/-- The pairs of a list. -/
def pairsOf {α : Type} : List α → List (α × α)
  | [] => []
  | a :: l => l.map (fun b => (a, b)) ++ pairsOf l

/-- The children of a node that are not empty. -/
def realKids (n : NodeRec) : List Kid := n.kids.filter (·.kind != 0)

/-- The box of a node. -/
def nodeBox (n : NodeRec) : List Nat := unionBoxes ((realKids n).map (·.box))

/-- SAH of a tree's levels, top-down. -/
def sahOf (ls : List (List NodeRec)) (free : Nat) : Nat :=
  let nodes := ls.flatMap id
  let areas := nodes.map (fun n => boxArea (nodeBox n))
  let prims := nodes.flatMap (fun n => ((realKids n).filter (·.kind == 2)).map (fun _ => boxArea (nodeBox n)))
  figure (areas ++ prims) ((ls.headD []).map (fun n => boxArea (nodeBox n))) free

/-- OVERLAP of a tree's levels. -/
def overlapOf (ls : List (List NodeRec)) (free : Nat) : Nat :=
  let nodes := ls.flatMap id
  figure (nodes.flatMap (fun n => (pairsOf (realKids n)).map (fun x => boxArea (meetBox x.1.box x.2.box))))
    (nodes.flatMap (fun n => (realKids n).map (fun k => boxArea k.box))) free

end Sys2Proof.Machine
end

