-- ==== Sys2Proof/Machine/Task.lean ====
section
/-!
DEFINITION. Task graphs: seeding, decrements, dispatch, and the instructions TKDONE, TKADD, TKPEEK and LAUNCH (R60 to
R64, R278 to R280, Tables 3.4 and 13.4).
-/
namespace Sys2Proof.Machine
open Sys2Proof

/-! ### Task records (R60) -/

/-- Reads a field of a task record at its home; nothing while it cannot be read (log entry 32). -/
def taskRead (s : State) (p ctx : Nat) (table : BitVec 64) (i off n : Nat) : Option Nat :=
  match engineRead s (taskAcc p ctx) (taskField table i off) n .r with
  | .ok (bs, _) => some (leNat bs)
  | .error _ => none

/-- The directory's part in reading a task record (R121, R122). -/
def taskTouch (s : State) (p ctx : Nat) (table : BitVec 64) (i : Nat) (chain : Nat := 0) : State :=
  engineTouch s (taskAcc p ctx) (taskField table i 0) 64 chain

/-- Writes a field of a task record at its home, for a kernel of a chain. -/
def taskWrite (s : State) (p ctx : Nat) (table : BitVec 64) (i off n v : Nat) (chain : Nat := 0) : State :=
  match engineWrite s (taskAcc p ctx) (taskField table i off) (leBytes n v) chain .w with
  | .ok s1 => s1
  | .error _ => s

/-- Task `a` goes before task `b` in the ready queue (R63). -/
def readyBefore (a b : ReadyTask) : Bool :=
  a.prio > b.prio || (a.prio == b.prio && (a.release < b.release || (a.release == b.release && a.index < b.index)))

/-- Puts a task into the ready queue in the order of R63. -/
def insertReady (a : ReadyTask) : List ReadyTask → List ReadyTask
  | [] => [a]
  | b :: l => if readyBefore a b then a :: b :: l else b :: insertReady a l

/-- The graphs of a partition that hold a table in a context. -/
def graphsOf (s : State) (p ctx : Nat) (table : BitVec 64) : List Graph :=
  (partOf s p).graphs.filter (fun g => g.table == table && g.ctx == ctx)

/-- Releases a task: STATE READY, RELEASE stamped, and into the ready queue (R61). -/
def releaseTask (s : State) (p ctx : Nat) (table : BitVec 64) (i : Nat) (chain : Nat := 0) : State :=
  let s1 := taskWrite (taskWrite s p ctx table i 20 4 1 chain) p ctx table i 40 8 s.clk chain
  let prio := bits ((taskRead s1 p ctx table i 18 1).getD 0) 0 3
  let seeded := ((graphsOf s p ctx table).filter (fun g => decide (i < g.n))).getLast?
  let t : ReadyTask :=
    { table, index := i, prio, release := s.clk, ctx, queue := seeded.map (·.queue), qprio := (seeded.map (·.prio)).getD 0 }
  modPart s1 p (fun q => { q with readyQ := insertReady t q.readyQ })

/-- Seeds a graph (R61). -/
def seedGraph (s : State) (p q ctx prio : Nat) (table : BitVec 64) (n : Nat) : State :=
  let s1 := (List.range n).foldl (fun st i => taskWrite st p ctx table i 20 4 0) s
  let s2 := modPart s1 p (fun pt => { pt with graphs := pt.graphs ++ [{ table, n, ctx, queue := q, prio }] })
  (List.range n).foldl (fun st i =>
    let t := taskTouch st p ctx table i
    if taskRead st p ctx table i 16 2 = some 0 then releaseTask t p ctx table i else t) s2

/-- TASKS_PACKET (R61, R67). The packet waits while a record cannot be reached (log entry 32). -/
def execTasksPacket (part queue : Nat) (s : State) : Out :=
  stepEvent s (fun s =>
    let u := queueOf s part queue
    let open_ := match headPacket s part u with
      | .packet (.tasks n table) _ => tableReached s part (queueCtx u) table n
      | _ => true
    if !open_ then s
    else onPacket s part queue (· == 5) (fun k _ s =>
      match k with
      | .tasks n table => seedGraph s part queue (queueCtx u) (queuePrio u) table n
      | _ => s))

/-! ### Fault records of tasks (Table 13.4) -/

/-- Who sent a TKDONE or TKADD, as a record names it. -/
structure TaskSource where
  pc : Pc
  ctx : Nat
  serial : BitVec 64
  coreid : Nat
  slot : Nat
  gidx : Nat
  deriving DecidableEq, Repr

/-- A TASK_UNDERFLOW or TASK_INDEX record: task index, source %coreid and successor index. -/
def taskRecord (s : State) (p : Nat) (o : TaskSource) (cause task succ : Nat) : State :=
  emitRecord s p (faultRec o.pc cause 0 0 o.ctx o.serial 0 0 0 o.coreid o.slot o.gidx
    (task % 2 ^ 32 + o.coreid * 2 ^ 32 + succ % 2 ^ 32 * 2 ^ 48))

/-- A TASK_IMAGE record of the task engine, with its reason. -/
def imageRecord (s : State) (p ctx task reason : Nat) : State :=
  emitRecord s p (faultRec 0 evTaskImage 0 0 ctx 0 0 0 0 0 32 0 (task + 0xFFFF * 2 ^ 32 + reason * 2 ^ 80))

/-! ### Decrements (R62) -/

/-- Who sent a decrement. -/
def decSource (d : TaskDec) : TaskSource :=
  { pc := d.pc, ctx := d.ctx, serial := d.serial, coreid := d.coreid, slot := d.slot, gidx := d.gidx }

/-- The number of tasks of the seeded graph at a table, 0 where there is none. -/
def tasksAt (s : State) (p ctx : Nat) (table : BitVec 64) : Nat :=
  (graphsOf s p ctx table).foldl (fun n g => max n g.n) 0

/-- Performs a decrement or an increment at the counter's home. -/
def performDec (s : State) (p : Nat) (d : TaskDec) (count state : Nat) : State :=
  let o := decSource d
  if d.add = 0 then
    if count = 0 then taskRecord s p o evTaskUnderflow d.task d.index
    else
      let s1 := taskWrite s p d.ctx d.table d.index 16 2 (count - 1) d.chain
      if count = 1 then releaseTask s1 p d.ctx d.table d.index d.chain else s1
  else if tasksAt s p d.ctx d.table ≤ d.index || state ≠ 0 || 0xFFFF < count + d.add then
    taskRecord s p o evTaskIndex d.index 0
  else taskWrite s p d.ctx d.table d.index 16 2 (count + d.add) d.chain

/-- TASK_DECREMENT (R62): the first in order of arrival, in the task engine's turn (R120), while no record of the engine waits
(R421). -/
def execTaskDecrement (part : Nat) (s : State) : Out :=
  stepEvent s (fun s =>
    match (partOf s part).decs with
    | [] => s
    | d :: ds =>
      if !engineTurn s part 7 || engineRecordWaits s part then s
      else if d.add ≠ 0 && tasksAt s part d.ctx d.table ≤ d.index then
        performDec (modPart s part (fun q => { q with decs := ds })) part d 0 0
      else
        match taskRead s part d.ctx d.table d.index 16 2, taskRead s part d.ctx d.table d.index 20 4 with
        | some count, some state => 
          performDec (taskTouch (modPart s part (fun q => { q with decs := ds })) part d.ctx d.table d.index d.chain) part d count state
        | _, _ => s)

/-! ### Dispatch (R61, R63, R64) -/

/-- Takes the head off the ready queue. -/
def popReady (s : State) (p : Nat) : State := modPart s p (fun q => { q with readyQ := q.readyQ.tail })

/-- An image that is malformed or poisoned: the task is FAILED (R64). -/
def failTask (s : State) (p : Nat) (t : ReadyTask) (reason : Nat) : State :=
  imageRecord (taskWrite (popReady s p) p t.ctx t.table t.index 20 4 4) p t.ctx t.index reason

/-- A task whose image is well formed goes out as a launch with its own ARGS. One that the partition could never hold is
refused as a queue's launch is (log entry 36). -/
def dispatchTask (s : State) (p : Nat) (t : ReadyTask) (l : Launch) (args : Nat) : State :=
  let l := { l with args := BitVec.ofNat 64 args }
  let (q, prio) := (t.queue, t.qprio)
  let s1 := taskWrite (popReady s p) p t.ctx t.table t.index 20 4 2
  if launchAllowed s p t.ctx l then (admitLaunch s1 p t.ctx prio q l (some (t.table, t.index))).2
  else
    match q with
    | some q => refuseLaunch s1 p q
    | none => s1

/-- TASK_DISPATCH (R64): the head task, once the task before it is placed (R63). -/
def execTaskDispatch (part : Nat) (s : State) : Out :=
  stepEvent s (fun s =>
    match (partOf s part).readyQ with
    | [] => s
    | t :: _ =>
      let busy := (partOf s part).launches.any (fun l => l.task.isSome && l.next < l.total && l.saved.isNone)
      if t.faulted || busy || (partOf s part).state ≠ 0 || !frontReady s ||
          engineRecordWaits s part || !engineTurn s part 7 then s
      else
        match taskRead s part t.ctx t.table t.index 0 8, taskRead s part t.ctx t.table t.index 8 8 with
        | some kernel, some args =>
          match engineRead s (taskAcc part t.ctx) (BitVec.ofNat 64 kernel) 128 .r with
          | .error f =>
            let s1 := modPart s part (fun q => { q with
              readyQ := { t with faulted := true, fva := BitVec.ofNat 64 kernel } :: q.readyQ.tail })
            engineRecord s1 part t.ctx f (BitVec.ofNat 64 kernel) 5 128 t.index
          | .ok (bs, bad) =>
            let s1 := engineTouch (taskTouch s part t.ctx t.table t.index) (taskAcc part t.ctx) (BitVec.ofNat 64 kernel) 128 0
            if bad then failTask s1 part t 2
            else
              match parseLaunch bs with
              | none => failTask s1 part t 1
              | some l => dispatchTask s1 part t l args
        | _, _ => s)

/-! ### TKDONE, TKADD and TKPEEK (R278, R279) -/

/-- The group as the source of a task instruction. -/
def issSource (s : State) (c : Iss) : TaskSource :=
  let g := identOf s c.g
  { pc := c.sp.pc, ctx := g.ctx, serial := g.serial, coreid := coreidOf s g.core, slot := slotByte g, gidx := g.index }

/-- A decrement or increment of the group on its way. -/
def sendDec (s : State) (c : Iss) (table : BitVec 64) (index task add : Nat) : State :=
  let o := issSource s c
  let d : TaskDec :=
    { table, index, ctx := c.g.ctx, src := { cls := 0, inst := c.g.core }, coreid := o.coreid, pc := o.pc
      serial := o.serial, gidx := o.gidx, slot := o.slot, task, add, chain := chainOf s c.g }
  modPart s c.g.part (fun q => { q with decs := q.decs ++ [d] })

/-- The decrements of a task that is DONE, one for each successor; an index of N or more writes TASK_INDEX (R61, R62). NSUCC
is 0 to 4; a record that holds 5 to 7 counts as 4 (DESIGN CHOICE, log entry 96). -/
def sendDecs (s : State) (c : Iss) (table : BitVec 64) (task n : Nat) : State :=
  let p := c.g.part
  let count := min 4 (bits ((taskRead s p c.g.ctx table task 19 1).getD 0) 0 3)
  (List.range count).foldl (fun st k =>
    let i := (taskRead s p c.g.ctx table task (24 + 4 * k) 4).getD 0
    if n ≤ i then taskRecord st p (issSource s c) evTaskIndex task i else sendDec st c table i task 0) s

/-- The lined copies differ in an operand of a task instruction (R251). -/
def taskDiffers (c : Iss) : Bool := operandDiffers c c.x.a || operandDiffers c c.x.b || operandDiffers c c.x.c

/-- TKDONE (R278). -/
def execTkdone (x : Enc) (s : State) : Out :=
  issue .tkdone x s (fun c s =>
    if taskDiffers c then liningMismatch s c c.sp.mask
    else if !releaseReady s c || !memReady s c.g.part then s
    else
      let table := uniOperand c.g c.x 0 c.x.a
      let b := (uniOperand c.g c.x 0 c.x.b).toNat
      let p := c.g.part
      let n := tasksAt s p c.g.ctx table
      let s1 := releaseAt s c.g 4
      if n ≤ b then advance (taskRecord s1 p (issSource s c) evTaskIndex b 0) c
      else if (taskRead s1 p c.g.ctx table b 0 64).isNone then s
      else
        let s2 := taskWrite (taskTouch s1 p c.g.ctx table b (chainOf s c.g)) p c.g.ctx table b 20 4 3 (chainOf s c.g)
        let s3 := modPart s2 p (fun q => { q with
          graphs := q.graphs.map (fun g =>
            if g.table = table && g.ctx = c.g.ctx && b < g.n then { g with done := addOnce g.done b } else g) })
        advance (settleGraphs (sendDecs s3 c table b n) p) c)

/-- TKADD (R279). An n of 0 raises ILLEGAL_OPERAND (log entry 37). -/
def execTkadd (x : Enc) (s : State) : Out :=
  issue .tkadd x s (fun c s =>
    if taskDiffers c then liningMismatch s c c.sp.mask
    else
      let n := (uniOperand c.g c.x 0 c.x.c).toNat % 2 ^ 16
      if n = 0 then raiseIss s c evIllegalOperand c.sp.mask 0
      else
        let table := uniOperand c.g c.x 0 c.x.a
        let b := (uniOperand c.g c.x 0 c.x.b).toNat
        advance (sendDec s c table b b n) c)

/-- A read of 8 bytes at their home slice, in one access. -/
def readAtHome (s : State) (c : Iss) (va : BitVec 64) (need : Need) : Except Fail (BitVec 64 × Bool × Bool) × State :=
  if va.toNat % 8 ≠ 0 then (.error { cause := evAddress }, s)
  else
    match reach s (accessorOf c.g) va 8 need with
    | .error f => (.error f, s)
    | .ok p =>
      let off := p.pa % 128
      let g := mgetD s.groups c.gid c.g
      let s0 := touchTlb s g.core g.part g.ctx va
      if p.window then
        let (bs, bad, s1) := readUnit s0 g p.pa 8
        (.ok (BitVec.ofNat 64 (leNat bs), bad, p.ptrap), s1)
      else
        let (d, bad, s1) := groupLine s0 c.gid g 0 (p.pa / 128) (if p.cpol = 2 then 2 else 1) 0 c.x.h2.toNat (byteMask off 8)
        (.ok (BitVec.ofNat 64 (leNat (lineBytes d off 8)), bad.getLsbD (off / 16), p.ptrap), s1)

/-- Writes a scalar result that was read at home, or deals with its poison as R135 says. -/
def homeResult (s : State) (c : Iss) (va v : BitVec 64) (bad ptrap : Bool) : State :=
  let d := c.x.d.idx
  if !bad then advance (onGroup s c (putScalar · d (fun _ => v))) c
  else
    match acceptOf s c.g with
    | some pv => advance (onGroup (countPoison s c.g 2) c (putScalar · d (fun _ => pv ++ pv))) c
    | none =>
      if ptrap then
        raise s c.gid { code := evPoison, precise := true, split := c.j, epc := c.sp.pc, lanes := c.sp.mask, info := 0, info2 := 0
                        again := true, addrs := (lanesOf c.sp.mask).map (fun l => (l, va)), op := s.nextOp }
      else haltGroup s c.gid evPoison c.sp.pc c.sp.mask 0

/-- TKPEEK (R279): bytes 23:16 of the record at its home slice. -/
def execTkpeek (x : Enc) (s : State) : Out :=
  issue .tkpeek x s (fun c s =>
    if taskDiffers c then liningMismatch s c c.sp.mask
    else if !homeNow s c then s
    else
      let va := taskField (uniOperand c.g c.x 0 c.x.a) (uniOperand c.g c.x 0 c.x.b).toNat 16
      match readAtHome s c va .r with
      | (.error f, s1) =>
        let (id, s2) := fresh s1
        uniformFail s2 c.gid c.j id c.sp.pc va f 0 8
      | (.ok (v, bad, ptrap), s1) => homeResult s1 c va v bad ptrap)

/-! ### LAUNCH (R280) -/

/-- The parts of a packet written into the ring at a count, a poisoned part as poison (R130, R422). -/
def writeRing (p : Nat) (u : Queue) (chain : Nat) : List (BitVec 8) → List Bool → Nat → Nat → State → Option State
  | _, _, _, 0, s => some s
  | bs, bad, x, n + 1, s =>
    let va := u.w0 + BitVec.ofNat 64 (x % queueSize u)
    match engineWrite s (queueAcc p u) va (bs.take 16) chain .w with
    | .error _ => none
    | .ok s1 =>
      let s2 := if (bad.take 16).any id then
          match reach s (queueAcc p u) va 16 .w with
          | .ok ph => addPoison s1 (ph.pa / 128) (BitVec.ofNat 8 (2 ^ (ph.pa % 128 / 16)))
          | .error _ => s1
        else s1
      writeRing p u chain (bs.drop 16) (bad.drop 16) (x + 16) n s2

/-- The status of LAUNCH for a queue with a tail (R280). -/
def launchStatus (u : Queue) (tail : BitVec 64) : Nat :=
  if u.stop = 1 then 2 else if queueSize u < (tail - u.head).toNat + 128 then 1 else 0

/-- LAUNCH (R280). -/
def execLaunch (x : Enc) (s : State) : Out :=
  issue .launch x s (fun c s =>
    if taskDiffers c then liningMismatch s c c.sp.mask
    else
      let a := uniOperand c.g c.x 0 c.x.a
      let q := (uniOperand c.g c.x 0 c.x.b).toNat
      let d := c.x.d.idx
      if 64 ≤ q then raiseIss s c evIllegalOperand c.sp.mask 0
      else if !releaseReady s c || !memReady s c.g.part then s
      else
        let u := queueOf s c.g.part q
        let done (st : Nat) (s : State) : State := advance (onGroup s c (putScalar · d (fun _ => BitVec.ofNat 64 st))) c
        match readAcc s c.gid 0 0 0 (accAt 0 a.toInt 128 16 0) with
        | (.error f, s1) =>
          let (id, s2) := fresh s1
          uniformFail s2 c.gid c.j id c.sp.pc a f 3 128
        | (.ok f, s1) =>
          match engineRead s1 (queueAcc c.g.part u) u.w2 8 .r with
          | .error _ => s
          | .ok (tb, _) =>
            let tail := BitVec.ofNat 64 (leNat tb)
            let st := launchStatus u tail
            let s1 := engineTouch s1 (queueAcc c.g.part u) u.w2 8 (chainOf s c.g)
            if st ≠ 0 then done st s1
            else
              match writeRing c.g.part u (chainOf s c.g) f.bytes f.bad tail.toNat 8 (releaseAt s1 c.g 4) with
              | none => s
              | some s2 =>
                match engineWrite s2 (queueAcc c.g.part u) u.w2 (leBytes 8 (tail + 128).toNat) (chainOf s c.g) .w with
                | .error _ => s
                | .ok s3 => done 0 s3)

end Sys2Proof.Machine
end

