-- ==== Sys2Proof/Machine/Tailor.lean ====
section
/-!
DEFINITION. Tailor: BLD.BUILD, BLD.REFIT, BLD.REBAL, BLD.PUBLISH, BLD.STAT, GEN.PIN and GEN.UNPIN (R371 to R378, R381 to
R386).
-/
namespace Sys2Proof.Machine
open Sys2Proof

/-! ### Issue (R378, R383) -/

/-- BLD.* of a kind: the operation goes to Tailor, and the split waits for its status. -/
def issueTailor (kind : Nat) (c : Iss) (s : State) : State :=
  if operandDiffers c c.x.a then liningMismatch s c c.sp.mask
  else if c.sp.wait = .tailor then s
  else
    let (id, s1) := fresh s
    let o : TailorOp :=
      { id, kind, gid := c.gid, split := c.j, pc := c.sp.pc, d := c.x.d.idx, desc := uniOperand c.g c.x 0 c.x.a, core := c.g.core
        part := c.g.part, ctx := c.g.ctx }
    waitAs { s1 with tailor := s1.tailor ++ [o] } c .tailor

def execBldBuild (x : Enc) (s : State) : Out := issue .bldBuild x s (issueTailor 0)
def execBldRefit (x : Enc) (s : State) : Out := issue .bldRefit x s (issueTailor 1)
def execBldRebal (x : Enc) (s : State) : Out := issue .bldRebal x s (issueTailor 2)
def execBldPublish (x : Enc) (s : State) : Out := issue .bldPublish x s (issueTailor 3)

/-! ### What an operation comes to -/

/-- An operation's end: a status; an event with its status 5; a read or write that faults and waits for REPLAY; or, for
a publish, waiting for an entry (R374, R383, R384). -/
inductive TailorEnd where
  | status (n : Nat) (s : State)
  | event (code : Nat) (info info2 : BitVec 64) (s : State)
  | fault (f : Fail) (va : BitVec 64)
  | wait
  deriving DecidableEq, Repr

/-- A failed read of an operation. -/
def engEnd (s : State) : EngFail → TailorEnd
  | .fault f va => .fault f va
  | .poison => .status 3 s

/-- A reserved field is non-zero or a field is out of range (R367). -/
def descBad (d : Desc) : Bool :=
  d.prims.toNat % 4 ≠ 0 || 2 ^ 24 < d.count || 2 < d.kind || 4 ≤ d.mode || d.pstride % 4 ≠ 0 ||
    d.pstride < primSize d.kind || d.nodebase.toNat % 256 ≠ 0 || d.nodecap = 0 || !d.clean

/-- The slots of build memory that are free, ascending. -/
def freeSlots (d : Desc) (used : List Nat) : List Nat := (List.range d.nodecap).filter (fun n => !used.contains n)

/-- The first address at which writing nodes cannot be performed. -/
def writeFault (s : State) (q : Accessor) (as : List (BitVec 64 × Nat)) : Option (Fail × BitVec 64) :=
  as.findSome? (fun x => match reachRuns s q x.1 x.2 .w with | .error f => some (f, x.1) | .ok _ => none)

/-- Writes at engine addresses that can be performed. -/
def engPut (s : State) (q : Accessor) (chain : Nat) (va : BitVec 64) (bs : List (BitVec 8)) : State :=
  match engineWrite s q va bs chain .w with
  | .ok s1 => s1
  | .error _ => s

/-- Writes nodes and makes the tree with root slot `root` pending (R371, R372): nothing is written where slots or writes
fail. -/
def leavePending (s : State) (q : Accessor) (d : Desc) (desc : BitVec 64) (chain : Nat) (nodes : List NodeRec)
    (freeN : Nat) (root : Nat) (refit : Bool) : TailorEnd :=
  if freeN < nodes.length then .event evBuildMemory (BitVec.ofNat 64 (264 * (nodes.length - freeN))) desc s
  else
    match writeFault s q (nodes.map (fun n => (slotAddr d n.slot, 256))) with
    | some (f, va) => .fault f va
    | none =>
      let s1 := nodes.foldl (fun st n => engPut st q chain (slotAddr d n.slot) (nodeBytes n.kids)) s
      let s2 := putDesc (putDesc s1 q d.pa 32 4 root) q d.pa 56 4 d.count
      let s3 := reclaim (putDesc s2 q d.pa 52 4 1) q d.pa
      let l := s3.refitPending.filter (· ≠ d.pa)
      .status 0 { s3 with refitPending := if refit then d.pa :: l else l }

/-- The primitives of a structure, and the lowest degenerate one with its reason. -/
def readPrims (s : State) (q : Accessor) (d : Desc) : Except EngFail (List (List Nat)) :=
  readAll (readPrim s q d.prims d.pstride d.kind) (List.range d.count)

/-- The lowest degenerate primitive and its reason. -/
def firstDegenerate (d : Desc) (ps : List (List Nat)) : Option (Nat × Nat) :=
  ((ps.map (degenerate d.kind d.mode)).zip (List.range ps.length)).findSome? (fun x =>
    if x.1 = 0 then none else some (x.2, x.1))

/-- BLD.BUILD and BLD.REBAL (R369, R372). -/
def buildTree (s : State) (q : Accessor) (d : Desc) (desc : BitVec 64) (chain : Nat) : TailorEnd :=
  match readPrims s q d with
  | .error e => engEnd s e
  | .ok ps =>
    match firstDegenerate d ps with
    | some (j, r) => .event evDegenerate (BitVec.ofNat 64 (j + r * 2 ^ 32)) desc s
    | none =>
      match usedSlots s q d with
      | .error e => engEnd s e
      | .ok used =>
        let free := freeSlots d used
        let boxes := ps.map (primBox d.kind)
        let ls := buildLevels boxes (fun i => (Config.freeValue (s.draws + i)).toNat) (fun i => free.getD i 0)
        let root := ((ls.getLastD []).headD { slot := 0, kids := [] }).slot
        leavePending { s with draws := s.draws + 3 * boxes.length } q d desc chain (ls.flatMap id) free.length root false

/-- The root slot that a refit starts from: the pending tree's, or the current generation's (R372). -/
def startRoot (d : Desc) : Option Nat :=
  if d.pending then some d.pendroot else (d.entryOf d.curgen).bind (fun i => (d.gens[i]?).map (·.root))

/-- BLD.REFIT (R372). -/
def refitTree (s : State) (q : Accessor) (d : Desc) (desc : BitVec 64) (chain root : Nat) : TailorEnd :=
  match treeAt s q d root with
  | .error e => engEnd s e
  | .ok ls =>
    match readPrims s q d with
    | .error e => engEnd s e
    | .ok ps =>
      match firstDegenerate d ps with
      | some (j, r) => .event evDegenerate (BitVec.ofNat 64 (j + r * 2 ^ 32)) desc s
      | none =>
        match usedSlots s q d with
        | .error e => engEnd s e
        | .ok used =>
          let free := freeSlots d used
          let boxes := ps.map (primBox d.kind)
          let (ws, now, _) := refitLevels (fun i => free.getD i 0) (fun j => boxes.getD j emptyKid.box) ls.reverse [] 0
          let root' := ((now.getLastD []).headD { slot := root, kids := [] }).slot
          leavePending s q d desc chain ws free.length root' true

/-- The writes of the node map at a publish: BIRTH of the new slots, DEATH of the replaced ones (R374). -/
def mapWrites (d : Desc) (gen : Nat) (new old : List Nat) : List (BitVec 64 × List (BitVec 8)) :=
  (new.filter (fun n => !old.contains n)).map (fun n => (mapAddr d n, leBytes 4 gen ++ leBytes 4 0)) ++
    (old.filter (fun n => !new.contains n)).map (fun n => (mapAddr d n + 4, leBytes 4 gen))

/-- BLD.PUBLISH (R374). -/
def publishTree (s : State) (q : Accessor) (d : Desc) (desc : BitVec 64) (chain : Nat) : TailorEnd :=
  if !d.pending then .status 2 s
  else
    match d.gens.findIdx? (fun e => e.gen == 0) with
    | none => if d.mode / 2 % 2 = 1 then .event evGenTableFull desc 0 s else .wait
    | some i =>
      match treeAt s q d d.pendroot with
      | .error e => engEnd s e
      | .ok ls =>
        let cur := d.entryOf d.curgen
        match (match cur with | some k => treeAt s q d (d.gens.getD k { gen := 0, root := 0, pins := 0, prims := 0 }).root | none => .ok []) with
        | .error e => engEnd s e
        | .ok old =>
          let gen := d.curgen + 1
          let ws := mapWrites d gen (treeSlots ls) (treeSlots old)
          match writeFault s q (ws.map (fun w => (w.1, w.2.length))) with
          | some (f, va) => .fault f va
          | none =>
            let s1 := ws.foldl (fun st w => engPut st q chain w.1 w.2) s
            let s2 := writeHome (touchHome s1 q.part q.ctx chain (d.pa + 128 + 24 * i) 24 true) (d.pa + 128 + 24 * i)
              (leBytes 4 gen ++ leBytes 4 d.pendroot ++ leBytes 4 0 ++ leBytes 4 0 ++ leBytes 8 d.prims.toNat)
            let s3 := match cur with
              | some k =>
                if (d.gens.getD k { gen := 0, root := 0, pins := 1, prims := 0 }).pins = 0 then putDesc s2 q d.pa (128 + 24 * k) 4 0 else s2
              | none => s2
            let refit := s.refitPending.contains d.pa
            let s4 := putDesc (putDesc s3 q d.pa 28 4 gen) q d.pa 32 4 noSlot
            let s5 := putDesc (putDesc s4 q d.pa 36 4 (if refit then d.refits + 1 else 0)) q d.pa 40 4 ls.length
            let s6 := putDesc s5 q d.pa 44 4 (sahOf ls (Config.freeValue s.draws).toNat)
            let s7 := putDesc s6 q d.pa 48 4 (overlapOf ls (Config.freeValue (s.draws + 1)).toNat)
            let s8 := reclaim s7 q d.pa
            .status 0 { s8 with draws := s.draws + 2, refitPending := s8.refitPending.filter (· ≠ d.pa) }

/-- An operation on its structure, whole (R383). -/
def runTailor (s : State) (q : Accessor) (o : TailorOp) (chain : Nat) : TailorEnd :=
  match descAt s q o.desc with
  | .error f => .fault f o.desc
  | .ok pa =>
    let s1 := if (readDesc s pa).1.live.isEmpty then s else reclaim s q pa
    let (d, bad) := readDesc s1 pa
    if bad then .status 3 s1
    else if descBad d then .status 4 s1
    else if o.kind = 0 then
      if d.pending || !d.live.isEmpty then .status 1 s1 else buildTree s1 q d o.desc chain
    else if o.kind = 3 then publishTree s1 q d o.desc chain
    else
      match startRoot d with
      | none => .status 2 s1
      | some root =>
        if o.kind = 2 then buildTree s1 q d o.desc chain
        else if d.count ≠ d.tcount then .status 4 s1
        else refitTree s1 q d o.desc chain root

/-- The physical descriptor of an operation. -/
def opDesc (s : State) (o : TailorOp) : Option Nat :=
  match mget s.groups o.gid with
  | none => none
  | some g => match descAt s (engAcc g.part g.ctx) o.desc with | .ok pa => some pa | .error _ => none

/-- An earlier operation on the same structure has not ended (R378). -/
def behind (s : State) (o : TailorOp) : Bool :=
  s.tailor.any (fun e => e.id < o.id &&
    (match opDesc s e, opDesc s o with
     | some a, some b => a == b
     | _, _ => e.desc == o.desc))

/-- The issuing split goes on with its status in every copy. -/
def tailorStatus (s : State) (o : TailorOp) (n : Nat) : State :=
  modGroup { s with tailor := s.tailor.filter (fun e => e.id != o.id) } o.gid (fun g =>
    let h := putScalar g o.d (fun _ => BitVec.ofNat 64 n)
    modIssued h o.id o.split (fun sp => if sp.wait = .tailor then sp.onward s.clk (sp.pc + 1) else sp))

/-- What an operation reads: the descriptor, the primitives, the nodes of the trees it walks and the node map. -/
def tailorReads (s : State) (q : Accessor) (o : TailorOp) : List (BitVec 64 × Nat) :=
  match descAt s q o.desc with
  | .error _ => []
  | .ok pa =>
    let d := (readDesc s pa).1
    let nodes (root : Option Nat) : List (BitVec 64 × Nat) :=
      match root.map (treeAt s q d) with
      | some (.ok ls) => (treeSlots ls).map (fun n => (slotAddr d n, 256))
      | _ => []
    let pend := nodes (if d.pending then some d.pendroot else none)
    let used := pend ++ [(mapAddr d 0, 8 * d.nodecap)]
    let prims := (List.range d.count).map (fun j => (d.prims + BitVec.ofNat 64 (d.pstride * j), primSize d.kind))
    (o.desc, 512) ::
      (if descBad d then []
       else if o.kind = 0 && (d.pending || !d.live.isEmpty) then used
       else if o.kind = 3 then pend ++ nodes ((d.entryOf d.curgen).bind (fun i => (d.gens[i]?).map (·.root))) ++ used
       else prims ++ (if o.kind = 1 then nodes (startRoot d) else []) ++ used)

/-- A Tailor operation is performed in its turn (R120) and ends. -/
def endTailor (s : State) (id : Nat) : State :=
  match s.tailor.find? (fun o => o.id == id) with
  | none => s
  | some o =>
    match mget s.groups o.gid with
    | none => s
    | some g =>
      if o.faulted || behind s o || !readyBit s 7 (17 + clusterOfCore o.core / 8) || !engineTurn s g.part 2 then s
      else
        let q := engAcc g.part g.ctx (chainOf s g)
        match runTailor (touchAll s q (chainOf s g) (tailorReads s q o)) q o (chainOf s g) with
        | .wait => s
        | .status n s1 => tailorStatus s1 o n
        | .event code info info2 s1 =>
          let lanes := match mget g.splits o.split with | some sp => sp.mask | none => 0
          raise (tailorStatus s1 o 5) o.gid
            { code, precise := false, split := o.split, epc := o.pc, lanes, info, info2, op := id }
        | .fault f va =>
          let s1 := { s with tailor := updFirst (fun e => e.id == id) (fun e => { e with faulted := true }) s.tailor }
          groupRecord s1 g o.pc f 0 (match mget g.splits o.split with | some sp => sp.mask | none => 0) [va] false true false 5 0

/-- TAILOR_OPERATION_END (R383). -/
def execTailorOperationEnd (op : Nat) (s : State) : Out := stepEvent s (fun s => endTailor s op)

/-! ### BLD.STAT, GEN.PIN and GEN.UNPIN (R385, R386) -/

/-- The figure that `b` selects (R385). -/
def statOf (d : Desc) (b : Nat) : Nat :=
  if b = 0 then d.sah else if b = 1 then d.overlap else if b = 2 then d.refits else if b = 3 then d.depth
  else if b = 4 then d.curgen else if b = 5 then d.used else if b = 6 then d.nodecap - d.used else d.live.length

/-- The bytes of the descriptor that hold the figure (R367). -/
def statBytes (b : Nat) : List (Nat × Nat) :=
  if b = 0 then [(44, 4)] else if b = 1 then [(48, 4)] else if b = 2 then [(36, 4)] else if b = 3 then [(40, 4)]
  else if b = 4 then [(28, 4)] else if b = 5 then [(52, 4)] else if b = 6 then [(24, 4), (52, 4)]
  else (List.range 16).map (fun i => (128 + 24 * i, 4))

/-- BLD.STAT (R385): only poison of the bytes that hold the figure counts. -/
def execBldStat (x : Enc) (s : State) : Out :=
  issue .bldStat x s (fun c s =>
    let b := (uniOperand c.g x 0 x.b).toNat
    let a := uniOperand c.g x 0 x.a
    if operandDiffers c x.a || operandDiffers c x.b then liningMismatch s c c.sp.mask
    else if 8 ≤ b then raiseIss s c evIllegalOperand c.sp.mask 0
    else if !homeNow s c then s
    else
      match descAt s (accessorOf c.g) a with
      | .error f =>
        let (id, s1) := fresh s
        uniformFail s1 c.gid c.j id c.sp.pc a f 0 8
      | .ok pa =>
        let bad := (statBytes b).any (fun x => (readHome s (pa + x.1) x.2).2)
        let ptrap := match reach s (accessorOf c.g) a 512 .rw with | .ok p => p.ptrap | .error _ => true
        homeResult (touchAll s (accessorOf c.g) (chainOf s c.g) ((statBytes b).map (fun x => (a + BitVec.ofNat 64 x.1, x.2))))
          c a (BitVec.ofNat 64 (statOf (readDesc s pa).1 b)) bad ptrap)

/-- GEN.PIN (R375, R386): the new pin is taken before an old one is released. -/
def execGenPin (x : Enc) (s : State) : Out :=
  issue .genPin x s (fun c s =>
    let a := uniOperand c.g x 0 x.a
    if operandDiffers c x.a then liningMismatch s c c.sp.mask
    else if !homeNow s c then s
    else
      match descAt s (accessorOf c.g) a with
      | .error f =>
        let (id, s1) := fresh s
        uniformFail s1 c.gid c.j id c.sp.pc a f 2 8
      | .ok pa =>
        let q := engAcc c.g.part c.g.ctx (chainOf s c.g)
        let d := (readDesc s pa).1
        match pinFault s c.g with
        | some f =>
          let (id, s1) := fresh s
          uniformFail s1 c.gid c.j id c.sp.pc c.g.genDesc f 2 8
        | none =>
        let s := touchDesc s q pa
        let done (s : State) (gen : Nat) (desc : BitVec 64) : State :=
          advance (onGroup (acquireAt (releasePin s c.gid) c.g 4) c (fun g =>
            { putScalar g x.d.idx (fun _ => BitVec.ofNat 64 gen) with gen := BitVec.ofNat 32 gen, genDesc := desc })) c
        match d.entryOf d.curgen with
        | none => done s 0 0
        | some i => done (addPin s q pa i) d.curgen a)

/-- GEN.UNPIN (R386). A descriptor that cannot be reached writes a record, and the split waits for REPLAY (R218). -/
def execGenUnpin (x : Enc) (s : State) : Out :=
  issue .genUnpin x s (fun c s =>
    if c.g.gen ≠ 0 && !homeNow s c then s
    else
      match pinFault s c.g with
      | some f =>
        let (id, s1) := fresh s
        uniformFail s1 c.gid c.j id c.sp.pc c.g.genDesc f 2 8
      | none => advance (releasePin s c.gid) c)

end Sys2Proof.Machine
end

