-- ==== Sys2Proof/Machine/Trace.lean ====
section
/-!
DEFINITION. The traversal unit: TRACE and PROBE, the exact tests, candidates and shaders, and the instructions HIT.* and
TRV.INFO (R379, R380, R387 to R392).
-/
namespace Sys2Proof.Machine
open Sys2Proof

/-! ### Exact tests (R388) -/

/-- A fraction with a positive denominator. -/
structure Fr where
  n : Dy
  d : Dy
  deriving DecidableEq, Repr

def Fr.le (a b : Fr) : Bool := (a.n.mul b.d).le (b.n.mul a.d)
/-- n / d with the sign in the numerator. -/
def frOf (n d : Dy) : Fr := if d.m < 0 then { n := n.neg, d := d.neg } else { n, d }
/-- x ≤ f for an extended real. -/
def xrLeFr : Xr → Fr → Bool
  | .ninf, _ => true
  | .pinf, _ => false
  | .fin a, f => (a.mul f.d).le f.n
def frLeXr : Fr → Xr → Bool
  | _, .pinf => true
  | _, .ninf => false
  | f, .fin a => f.n.le (a.mul f.d)

/-- An encoding is a NaN, or an infinity. -/
def nan32 (n : Nat) : Bool := (f32 n).isNan
def inf32 (n : Nat) : Bool := match f32 n with | .inf _ => true | _ => false

/-- Entry and exit parameters of a ray through one axis of a box; nothing where it misses. -/
def rayAxis (o d : Dy) (lo hi : Xr) : Option (List Fr × List Fr) :=
  if d.isZero then if lo.le (.fin o) && Xr.le (.fin o) hi then some ([], []) else none
  else
    let at_ : Xr → List Fr
      | .fin v => [frOf (v.sub o) d]
      | _ => []
    if d.m < 0 then some (at_ hi, at_ lo) else some (at_ lo, at_ hi)

/-- A ray meets a box: its entry parameters. -/
def rayBox (ray : BitVec 256) (box : List Nat) : Option (List Fr) :=
  let ax := (List.range 3).map (fun i =>
    rayAxis (dy32 (rayField ray i)) (dy32 (rayField ray (4 + i))) (xrOf (f32 (box.getD i 0))) (xrOf (f32 (box.getD (3 + i) 0))))
  if ax.any (·.isNone) then none
  else
    let ins := ax.flatMap (fun x => (x.getD ([], [])).1)
    let outs := ax.flatMap (fun x => (x.getD ([], [])).2)
    let tmin := xrOf (f32 (rayField ray 3))
    let tmax := xrOf (f32 (rayField ray 7))
    if tmin.le tmax && ins.all (fun a => outs.all (fun b => a.le b)) && ins.all (fun a => frLeXr a tmax) &&
        outs.all (fun b => xrLeFr tmin b) then some ins
    else none

/-- The square of the distance from a centre to a box on one axis, in the extended reals; none where it is infinite. -/
def axisGap (c lo hi : Xr) : Option Dy :=
  if lo.le c && c.le hi then some Dy.zero
  else
    match c, (if c.le hi then lo else hi) with
    | .fin a, .fin b => some ((a.sub b).mul (a.sub b))
    | _, _ => none

/-- A sphere meets a box. -/
def sphereBox (ray : BitVec 256) (box : List Nat) : Bool :=
  let r := xrOf (f32 (rayField ray 3))
  match r with
  | .ninf => false
  | .pinf => true
  | .fin r =>
    let gaps := (List.range 3).map (fun i =>
      axisGap (xrOf (f32 (rayField ray i))) (xrOf (f32 (box.getD i 0))) (xrOf (f32 (box.getD (3 + i) 0))))
    0 ≤ r.m && gaps.all (·.isSome) && ((gaps.filterMap id).foldl Dy.add Dy.zero).le (r.mul r)

/-- A closed query box meets a box. A query box whose minimum exceeds its maximum on an axis is empty and meets nothing. -/
def boxBox (ray : BitVec 256) (box : List Nat) : Bool :=
  (List.range 3).all (fun i =>
    (xrOf (f32 (rayField ray i))).le (xrOf (f32 (rayField ray (4 + i)))) &&
      (xrOf (f32 (rayField ray i))).le (xrOf (f32 (box.getD (3 + i) 0))) &&
      (xrOf (f32 (box.getD i 0))).le (xrOf (f32 (rayField ray (4 + i)))))

/-- A query meets a child's box. A query with a NaN meets nothing; where a ray has an infinite origin or direction the
rule states no outcome, and `free` decides (log entry 39). -/
def meets (shape : Nat) (ray : BitVec 256) (box : List Nat) (free : Bool) : Bool :=
  let fields := if shape = 0 then [0, 1, 2, 3, 4, 5, 6, 7] else if shape = 1 then [0, 1, 2, 3] else [0, 1, 2, 4, 5, 6]
  if fields.any (fun i => nan32 (rayField ray i)) then false
  else if shape = 1 then sphereBox ray box
  else if shape = 2 then boxBox ray box
  else if [0, 1, 2, 4, 5, 6].any (fun i => inf32 (rayField ray i)) then free
  else (rayBox ray box).isSome

/-- FP64 vectors as they are rounded (R388). -/
def dot64 (a b : List Fv) : Fv :=
  let m (i : Nat) : Fv := mul64 (a.getD i (.nan false)) (b.getD i (.nan false))
  add64 (add64 (m 0) (m 1)) (m 2)
def cross64 (a b : List Fv) : List Fv :=
  let m (i j : Nat) : Fv := mul64 (a.getD i (.nan false)) (b.getD j (.nan false))
  [sub64 (m 1 2) (m 2 1), sub64 (m 2 0) (m 0 2), sub64 (m 0 1) (m 1 0)]
def sub64v (a b : List Fv) : List Fv := (a.zip b).map (fun x => sub64 x.1 x.2)
def quot64 (a b : Fv) : Fv := r64 (exDiv 53 a b)
def to32 (v : Fv) : W32 := BitVec.ofNat 32 (deliver f32Fmt 0 false false v.toEx).val

/-- The triangle test: t, u and v of a candidate. A triangle of zero area in exact arithmetic is never hit (R368). -/
def triangleHit (ray : BitVec 256) (tri : List Nat) : Option (W32 × W32 × W32) :=
  let vec (i : Nat) : List Fv := [f32 (tri.getD i 0), f32 (tri.getD (i + 1) 0), f32 (tri.getD (i + 2) 0)]
  let rv (i : Nat) : List Fv := [f32 (rayField ray i), f32 (rayField ray (i + 1)), f32 (rayField ray (i + 2))]
  let d := rv 4
  let e1 := sub64v (vec 3) (vec 0)
  let e2 := sub64v (vec 6) (vec 0)
  let so := sub64v (rv 0) (vec 0)
  let p := cross64 d e2
  let det := dot64 e1 p
  let zero : Fv := .fin false 0 0
  if fvEq det zero || degenerate 0 1 tri = 2 then none
  else
    let u := quot64 (dot64 so p) det
    let q := cross64 so e1
    let v := quot64 (dot64 d q) det
    let t := quot64 (dot64 e2 q) det
    if fvLe zero u && fvLe zero v && fvLe (add64 u v) (.fin false 1 0) && fvLe (f32 (rayField ray 3)) t &&
        fvLe t (f32 (rayField ray 7)) then some (to32 t, to32 u, to32 v)
    else none

/-- The box-entry parameter Max(tmin, slab entry) rounded to FP32; `free` for a ray with an infinite origin or direction,
of which the rule states none (log entry 39). -/
def entryParam (ray : BitVec 256) (box : List Nat) (free : W32) : W32 :=
  let tmin := rayField ray 3
  if [0, 1, 2, 4, 5, 6].any (fun i => inf32 (rayField ray i)) then free
  else
  match rayBox ray box with
  | none => BitVec.ofNat 32 tmin
  | some ins =>
    let top := ins.foldl (fun (m : Option Fr) a => match m with | none => some a | some b => if b.le a then some a else some b) none
    match top with
    | none => BitVec.ofNat 32 tmin
    | some f =>
      if frLeXr f (xrOf (f32 tmin)) then BitVec.ofNat 32 tmin
      else BitVec.ofNat 32 (deliver f32Fmt 0 false false (exDiv 24 f.n.toFv f.d.toFv)).val

/-! ### Traversal descriptors (R379) -/

/-- The descriptor is bad. -/
def travBad (d : BitVec 512) : Bool :=
  1 < travField d 28 1 || travField d 29 1 < 2 || 64 < travField d 29 1 || travField d 30 2 < 8 ||
    256 < travField d 30 2 || travField d 48 2 = 0 || travField d 50 14 ≠ 0

/-! ### The walk (R388, R389) -/

/-- The primitive children whose boxes a query meets in the levels from the given slots down, and the slots of the nodes
visited. -/
def walkNodes (s : State) (q : Accessor) (d : Desc) (hit : List Nat → Nat → Bool) : Nat → List Nat →
    Except EngFail (List Kid × List Nat)
  | 0, _ => .ok ([], [])
  | _ + 1, [] => .ok ([], [])
  | n + 1, slots =>
    match readAll (readNode s q d) slots with
    | .error e => .error e
    | .ok ns =>
      let kids := ns.flatMap (fun n => n.kids.filter (fun k => k.kind != 0 && hit k.box (k.index + 2 ^ 32 * k.kind)))
      match walkNodes s q d hit n ((kids.filter (·.kind == 1)).map (·.index)) with
      | .error e => .error e
      | .ok l => .ok (kids.filter (·.kind == 2) ++ l.1, slots ++ l.2)

/-- A primitive child as a candidate with the shader that decides it (0: accepted at once; R389). -/
def candidateOf (s : State) (q : Accessor) (d : Desc) (prims : BitVec 64) (desc : BitVec 512) (shape : Nat) (ray : BitVec 256)
    (free : Nat → W32) (k : Kid) : Except EngFail (Option (Cand × Nat)) :=
  if shape ≠ 0 then .ok (some ({ prim := k.index, t := 0, u := 0, v := 0 }, if shaderPc desc 1 = 0 then 0 else 1))
  else if d.kind = 0 then
    match readPrim s q prims d.pstride d.kind k.index with
    | .error e => .error e
    | .ok tri =>
      .ok ((triangleHit ray tri).map (fun x =>
        ({ prim := k.index, t := x.1, u := x.2.1, v := x.2.2 },
          if travField desc 28 1 % 2 = 1 || shaderPc desc 1 = 0 then 0 else 1)))
  else
    .ok (some ({ prim := k.index, t := entryParam ray k.box (free k.index), u := 0, v := 0 }, if shaderPc desc 2 = 0 then 0 else 2))

/-- The accessor of a traversal. -/
def travAcc (t : Trav) : Accessor := engAcc t.part t.ctx t.launch.chain

/-- The walk of one query, and what it reads: the structure's descriptor, the nodes it visits and the triangles it tests. -/
def walkQuery (s : State) (t : Trav) (y : Query) : Except EngFail (Query × List (BitVec 64 × Nat)) :=
  let q := travAcc t
  match descAt s q t.struct with
  | .error f => .error (.fault f t.struct)
  | .ok pa =>
    let d := (readDesc s pa).1
    let free (salt : Nat) : Bool := (Config.freeValue (s.draws + salt)).getLsbD 0
    let freeT (salt : Nat) : W32 := (Config.freeValue (s.draws + 2 ^ 35 + salt)).setWidth 32
    match walkNodes s q d (fun box salt => meets y.shape y.ray box (free salt)) 16 [t.rootSlot] with
    | .error e => .error e
    | .ok (kids, slots) =>
      match readAll (candidateOf s q d t.prims t.desc y.shape y.ray freeT) kids with
      | .error e => .error e
      | .ok cs =>
        let cs := cs.filterMap id
        let y1 := (cs.filter (fun c => c.2 = 0)).foldl (fun y c => acceptCand y c.1) y
        let tested := if y.shape = 0 && d.kind = 0 then kids else []
        .ok (settleQuery t.desc { y1 with todo := cs.filter (fun c => c.2 ≠ 0) },
          (t.struct, 512) :: slots.map (fun n => (slotAddr d n, 256)) ++
            tested.map (fun k => (t.prims + BitVec.ofNat 64 (d.pstride * k.index), primSize d.kind)))

/-- The group that a traversal belongs to, for its records. -/
def travGroup (s : State) (t : Trav) : Option Group :=
  match mget s.groups t.gid with
  | some g => some g
  | none => (s.parts.flatMap (fun p => p.2.saved.flatMap (fun v => v.groups))).find? (fun e => e.1 == t.gid) |>.map (·.2)

/-- A read or write of the unit that faults: a record with UNIFORM and kind 5 naming the issuing group (R392). -/
def travRecord (s : State) (t : Trav) (f : Fail) (va : BitVec 64) (lanes : BitVec 64) : State :=
  match travGroup s t with
  | some g => groupRecord s g t.pc f 0 lanes [va] false true false 5 0
  | none => s

/-- The ray record at an address, read as a load of the issuing group, so that its own queued stores are seen (R123, R380):
bytes 31:0 and whether they carry poison, or why it cannot be read or written. `before`: the stores seen are those issued
before that operation. -/
def readRay (s : State) (gid before : Nat) (va : BitVec 64) : Except Fail (BitVec 256 × Bool) × State :=
  match mget s.groups gid with
  | none => (.error { cause := evAddress }, s)
  | some g =>
    match readAcc s gid before 0 0 (accAt 0 va.toInt 32 128 0) with
    | (.error f, s1) => (.error f, s1)
    | (.ok f, s1) =>
      match reachRuns s1 (accessorOf g) (va + 32) 96 .w with
      | .error f => (.error f, s1)
      | .ok _ => (.ok (BitVec.ofNat 256 (leNat f.bytes), f.poisoned), s1)

/-- A query whose record has been read: it ends at once with the status fixed for the whole instruction, with POISONED, or
walks (R379, R380, R387). -/
def startQuery (y : Query) (fixed : Nat) (ray : BitVec 256) (bad : Bool) : Query :=
  if fixed ≠ 0 then { y with phase := 3, status := fixed }
  else if bad then { y with phase := 3, status := 4 }
  else { y with ray, phase := 0 }

/-- A record is written with STATUS 0 and its generation (R387). -/
def openRecord (s : State) (q : Accessor) (chain : Nat) (va : BitVec 64) (gen : BitVec 32) : State :=
  engPut (engPut s q chain (va + 32) (leBytes 4 0)) q chain (va + 56) (leBytes 4 gen.toNat)

/-- One query goes on as far as it can without a shader. -/
def stepQuery (s : State) (id lane : Nat) : State :=
  match s.travs.find? (fun t => t.id == id) with
  | none => s
  | some t =>
    match t.queries.find? (fun y => y.lane == lane) with
    | none => s
    | some y =>
      if y.faulted || y.busy then s
      else
        let end_ (e : EngFail) : State :=
          match e with
          | .poison => modQuery s id lane (fun y => { y with phase := 3, status := 4, best := none, nhits := 0, todo := [] })
          | .fault f va => travRecord (modQuery s id lane (fun y => { y with faulted := true, unf := bitMask lane, fva := va })) t f va (bitMask lane)
        if y.phase = 4 then
          if (mget s.groups t.gid).isNone then s
          else
            match readRay s t.gid t.id y.record with
            | (.error f, _) => end_ (.fault f y.record)
            | (.ok (ray, bad), s1) =>
              modQuery (openRecord s1 (travAcc t) t.launch.chain y.record t.gen) id lane (fun y => startQuery y y.status ray bad)
        else if y.phase = 0 then
          match walkQuery s t y with
          | .error e => end_ e
          | .ok (y1, reads) =>
            modQuery { touchAll s (travAcc t) t.launch.chain reads with draws := s.draws + 2 ^ 36 } id lane (fun _ => y1)
        else s

/-- Every query of a traversal goes on as far as it can without a shader. -/
def progress (s : State) (id : Nat) : State :=
  match s.travs.find? (fun t => t.id == id) with
  | none => s
  | some t => if engineTurn s t.part 1 then t.queries.foldl (fun st y => stepQuery (stepQuery st id y.lane) id y.lane) s else s

/-! ### Shaders (R390, R391) -/

/-- The LAUNCH of a shader group (R390). -/
def shaderLaunch (t : Trav) (kind block : Nat) : Launch :=
  { lining := t.launch.lining, acceptPoison := t.launch.acceptPoison, audit := t.launch.audit, width := 16
    chain := t.launch.chain, groups := 1, vregs := travField t.desc 30 2, sregs := travField t.desc 29 1, slots := 0
    pockets := t.launch.pockets, scratch := 0, rgnMax := 0, rgnCore := 0, seqEntry := 0
    entry := BitVec.ofNat 32 (shaderPc t.desc kind), poisonVal := t.launch.poisonVal
    root := BitVec.ofNat 64 (travField t.desc 8 8), args := BitVec.ofNat 64 (travField t.desc 32 8)
    privSize := 4096, priv := BitVec.ofNat 64 (travField t.desc 40 8 + 4096 * block), roles := [.vector] }

/-- The queries that wait for a shader of a kind, at most 16. -/
def shaderRays (t : Trav) (kind : Nat) : List Query :=
  (t.queries.filter (fun y =>
    !y.busy && !y.faulted &&
      (if kind = 3 then y.phase == 2
       else y.phase == 1 && (match y.todo.head? with | some c => c.2 == kind | none => false)))).take 16

/-- The candidate that a shader sees. -/
def shownCand (kind : Nat) (y : Query) : Cand :=
  let none_ : Cand := { prim := 0, t := 0, u := 0, v := 0 }
  if kind = 3 then y.best.getD none_ else (y.todo.head?.map (·.1)).getD none_

/-- Blocks of SHPRIV in use by the traversals that name it. -/
def blocksUsed (s : State) (t : Trav) : List Nat :=
  (s.travs.filter (fun u => u.part == t.part && u.ctx == t.ctx && travField u.desc 40 8 == travField t.desc 40 8)).flatMap (·.blocks)

/-- A value in both copies of a lined group. -/
def putBoth (g : Group) (r l : Nat) (v : W32) : Group :=
  (copiesOf g).foldl (fun g k => vset g r (l + k * g.width) v) g

/-- The entry state of a shader group (R390). -/
def enterShader (g : Group) (t : Trav) (kind block : Nat) (rays : List Query) : Group :=
  let ls := rays.zip (List.range rays.length)
  let g1 := ls.foldl (fun (g : Group) (x : Query × Nat) =>
    let c := shownCand kind x.1
    let probe := x.1.shape ≠ 0 && kind ≠ 3
    let vals : List W32 :=
      [x.1.record.setWidth 32, (x.1.record >>> 32).setWidth 32, BitVec.ofNat 32 c.prim, (if probe then 0 else c.t),
       (if probe then 0 else c.u), (if probe then 0 else c.v), t.gen]
    (vals.zip (List.range 7)).foldl (fun g w => putBoth g w.2 x.2 w.1) g) g
  let g2 := putScalar (putScalar g1 0 (fun _ => BitVec.ofNat 64 (travField t.desc 32 8))) 1 (fun _ => BitVec.ofNat 64 kind)
  let live := maskBelow rays.length
  { g2 with
    live, splits := g2.splits.map (fun e => (e.1, { e.2 with mask := live }))
    shader := some { trav := t.id, kind, block, rays := ls.map (fun x => (x.2, x.1.lane)), answers := [] } }

/-- SHADER_DISPATCH (R390): rays needing one shader go out as a group of width 16. -/
def dispatchShader (s0 : State) (id kind : Nat) : State :=
  let s := progress s0 id
  match s.travs.find? (fun t => t.id == id) with
  | none => s
  | some t =>
    let rays := shaderRays t kind
    let used := blocksUsed s t
    match (List.range (travField t.desc 48 2)).find? (fun b => !used.contains b) with
    | none => s
    | some block =>
      if !engineTurn s t.part 1 || rays.isEmpty || t.rootFaulted || (partOf s t.part).state ≠ 0 || kind = 0 || 3 < kind then s
      else
        let li : LaunchInst :=
          { id := 0, launch := shaderLaunch t kind block, ctx := t.ctx, queue := t.queue, prio := t.prio, gridid := 0, next := 0, total := 1 }
        let gid := s.nextGid
        match placeTeam s t.part li 0 with
        | .noRoom => s
        | .fault f va => engineRecord (modTrav s id (fun t => { t with rootFaulted := true, fva := va })) t.part t.ctx f va 0 16 0
        | .corrupt => raiseHalt s t.part evOverlayCorrupt [] 0 0
        | .ok s1 =>
          let s2 := modGroup s1 gid (fun g => enterShader g t kind block rays)
          let s3 := modTrav s2 id (fun t => { t with blocks := block :: t.blocks })
          rays.foldl (fun st y => modQuery st id y.lane (fun y => { y with busy := true })) s3

/-- SHADER_DISPATCH (R390). -/
def execShaderDispatch (trav kind : Nat) (s : State) : Out := stepEvent s (fun s => dispatchShader s trav kind)

/-! ### Issue (R380, R387) -/

/-- The record address of a lane. -/
def recordOf (c : Iss) (l : Nat) : BitVec 64 := readOperand c.g c.x .two l c.x.b

/-- A lane's query begins: its record is read and receives STATUS 0 and GEN; a read that faults leaves the query to
REPLAY, with the status that ends every lane at once (`fixed`) kept for it. -/
def beginQuery (c : Iss) (shape : Nat) (gen : BitVec 32) (fixed id : Nat) (r : List Query × List FailAt × State) (l : Nat) :
    List Query × List FailAt × State :=
  let va := recordOf c l
  let y : Query := { lane := l, record := va, shape, ray := 0, gen }
  match readRay r.2.2 c.gid id va with
  | (.error f, s1) => (r.1 ++ [{ y with phase := 4, faulted := true, status := fixed }], r.2.1 ++ [{ lane := l, addr := va, fail := f }], s1)
  | (.ok (ray, bad), s1) =>
    let s2 := openRecord s1 (engAcc c.g.part c.g.ctx) (chainOf s1 c.g) va gen
    (r.1 ++ [startQuery y fixed ray bad], r.2.1, s2)

/-- A TRACE or PROBE begins on a generation, or with a status that ends every lane. -/
def beginTrav (c : Iss) (s : State) (shape id fixed : Nat) (desc : BitVec 512) (gen root : Nat) (prims : BitVec 64) (own : Bool) :
    State :=
  let (ys, fs, s1) := (lanesOf c.act).foldl (beginQuery c shape (BitVec.ofNat 32 gen) fixed id) ([], [], s)
  let ys := ys.map (fun y => if y.faulted then { y with unf := failMask c.g fs, fva := (fs.headD { lane := 0, addr := 0, fail := { cause := 0 } }).addr }
    else y)
  let (l, queue, prio) := match teamOf s c.g with
    | some t => (t.launch, t.queue, t.prio)
    | none => ({}, none, 0)
  let t : Trav :=
    { id, gid := c.gid, pc := c.sp.pc, split := c.j, core := c.g.core, part := c.g.part, ctx := c.g.ctx, queue, prio
      launch := l, struct := BitVec.ofNat 64 (travField desc 0 8), desc, gen := BitVec.ofNat 32 gen, rootSlot := root
      prims, ownPin := own, queries := ys }
  let s2 := if fs.isEmpty then s1
    else recordFails s1 c.g c.sp.pc fs (c.act &&& ~~~ maskOf (fs.map (·.lane))) (maskOf (fs.map (·.lane))) 5 32 true
  advance (onGroup { s2 with travs := s2.travs ++ [t] } c (fun g => { g with trvCount := g.trvCount + 1 })) c

/-- The generation that a TRACE or PROBE runs on: its number, root slot, primitives, and whether the instruction pins it
(R387). -/
def chooseGen (s : State) (c : Iss) (pa : Nat) (struct : BitVec 64) : Option (Nat × Nat × BitVec 64 × Bool) :=
  let d := (readDesc s pa).1
  let held := c.g.gen ≠ 0 && c.g.genDesc == struct
  let gen := if held then c.g.gen.toNat else d.curgen
  match d.entryOf gen with
  | none => none
  | some i =>
    let e := d.gens.getD i { gen := 0, root := 0, pins := 0, prims := 0 }
    some (gen, e.root, e.prims, !held)

/-- TRACE and PROBE (R387). -/
def issueTrav (shape : Nat) (c : Iss) (s : State) : State :=
  let a := uniOperand c.g c.x 0 c.x.a
  let differ := (lanesOf c.act).filter (fun l => c.g.lined && recordOf c l != recordOf c (l + c.g.width))
  if operandDiffers c c.x.a || !differ.isEmpty then liningMismatch s c (if differ.isEmpty then c.act else maskOf differ)
  else if 255 ≤ c.g.trvCount || c.g.replayG.isSome || earlierReads s c.gid c.g s.nextOp || !memReady s c.g.part then s
  else
    let (id, s0) := fresh s
    match readAcc s0 c.gid id 0 0 (accAt 0 a.toInt 64 64 0) with
    | (.error f, s1) => uniformFail s1 c.gid c.j id c.sp.pc a f 5 64
    | (.ok f, s1) =>
      let desc := BitVec.ofNat 512 (leNat f.bytes)
      let struct := BitVec.ofNat 64 (travField desc 0 8)
      if f.poisoned then beginTrav c s1 shape id 4 desc 0 0 0 false
      else if travBad desc then beginTrav c s1 shape id 6 desc 0 0 0 false
      else
        match descAt s1 (accessorOf c.g) struct with
        | .error f => uniformFail s1 c.gid c.j id c.sp.pc struct f 5 8
        | .ok pa =>
          let q := engAcc c.g.part c.g.ctx (chainOf s c.g)
          let s1 := touchDesc s1 q pa
          match chooseGen s1 c pa struct with
          | none => beginTrav c s1 shape id 5 desc 0 0 0 false
          | some (gen, root, prims, own) =>
            let s2 := if own then
                match (readDesc s1 pa).1.entryOf gen with
                | some i => acquireAt (addPin s1 q pa i) c.g 4
                | none => s1
              else s1
            beginTrav c s2 shape id 0 desc gen root prims own

def execTrace (x : Enc) (s : State) : Out := issue .trace x s (issueTrav 0)
def execProbeSph (x : Enc) (s : State) : Out := issue .probeSph x s (issueTrav 1)
def execProbeBox (x : Enc) (s : State) : Out := issue .probeBox x s (issueTrav 2)

/-! ### Completion (R387, R389) -/

/-- The final fields of a record from byte 32 on (Table 23.4); U and V of a query without a hit are not stated. -/
def finalWrites (y : Query) (gen : BitVec 32) (free : BitVec 64) : List (Nat × List (BitVec 8)) :=
  let prim := match y.best with | some c => c.prim | none => noSlot
  let hit : List (Nat × List (BitVec 8)) :=
    if y.shape ≠ 0 then []
    else match y.best with
      | some c => [(40, leBytes 4 c.t.toNat), (44, leBytes 4 c.u.toNat), (48, leBytes 4 c.v.toNat)]
      | none => [(40, leBytes 4 0x7F800000), (44, leBytes 8 free.toNat)]
  [(36, leBytes 4 prim), (52, leBytes 4 y.nhits), (56, leBytes 4 (if y.status = 5 || y.status = 6 then 0 else gen.toNat))] ++ hit ++
    [(32, leBytes 4 y.status)]

/-- The record of a query that is final can be written. -/
def recordFault (s : State) (t : Trav) (y : Query) : Option Fail :=
  match reachRuns s (travAcc t) (y.record + 32) 32 .w with
  | .error f => some f
  | .ok _ => none

/-- TRAVERSAL_COMPLETE (R387): every lane's record receives its final fields, the instruction's own pin is released, the
count drops, and the group acquires at device scope. -/
def completeTrav (s0 : State) (id : Nat) : State :=
  let s := progress s0 id
  match s.travs.find? (fun t => t.id == id) with
  | none => s
  | some t =>
    if !engineTurn s t.part 1 || t.queries.any (fun y => y.phase != 3 || y.faulted) || (travGroup s t).isSome && (mget s.groups t.gid).isNone then s
    else
      match t.queries.find? (fun y => (recordFault s t y).isSome) with
      | some y =>
        match recordFault s t y with
        | some f => travRecord (modQuery s id y.lane (fun y => { y with faulted := true, unf := bitMask y.lane, fva := y.record })) t f
            y.record (bitMask y.lane)
        | none => s
      | none =>
        let s1 := (t.queries.zip (List.range t.queries.length)).foldl (fun st x =>
          (finalWrites x.1 t.gen (Config.freeValue (s.draws + x.2))).foldl (fun st w =>
            engPut st (travAcc t) t.launch.chain (x.1.record + BitVec.ofNat 64 w.1) w.2) st)
          { s with draws := s.draws + t.queries.length }
        let s2 := if t.ownPin then dropPin s1 t.part t.ctx t.struct t.gen.toNat t.launch.chain else s1
        let s3 := modGroup { s2 with travs := s2.travs.filter (fun u => u.id != id) } t.gid
          (fun g => { g with trvCount := g.trvCount - 1 })
        match mget s3.groups t.gid with
        | some g => retireGroup (acquireAt s3 g 4) t.gid
        | none => s3

/-- TRAVERSAL_COMPLETE (R387). -/
def execTraversalComplete (trav : Nat) (s : State) : Out := stepEvent s (fun s => completeTrav s trav)

/-! ### HIT.* and TRV.INFO (R387, R391) -/

/-- A lane's first answer counts (R391). -/
def putAnswer (h : ShaderCtx) (l : Nat) (a : Nat × W32) : ShaderCtx :=
  if (mget h.answers l).isSome then h else { h with answers := mput h.answers l a }

/-- HIT.*: answers for the active lanes of an any-hit or intersection shader; where it may stand is checked at issue
(`hitOk`, `hitOperandOk`). -/
def answerHit (code : Nat) (val : Iss → Nat → W32) (c : Iss) (s : State) : State :=
  advance (onGroup s c (fun g =>
    { g with shader := g.shader.map (fun h => (lanesOf c.act).foldl (fun h l => putAnswer h l (code, val c l)) h) })) c

def execHitAccept (x : Enc) (s : State) : Out :=
  issue .hitAccept x s (answerHit 1 (fun c l => (readOperand c.g c.x .one l c.x.a).setWidth 32))
def execHitIgnore (x : Enc) (s : State) : Out := issue .hitIgnore x s (answerHit 2 (fun _ _ => 0))
def execHitEnd (x : Enc) (s : State) : Out := issue .hitEnd x s (answerHit 3 (fun _ _ => 0))

/-- TRV.INFO.wait (R387). -/
def execTrvInfoWait (x : Enc) (s : State) : Out :=
  issue .trvInfoWait x s (fun c s =>
    if operandDiffers c x.b then liningMismatch s c c.sp.mask
    else if c.g.trvCount ≤ (uniOperand c.g x 0 x.b).toNat % 256 then advance s c else s)

/-- TRV.INFO.cnt (R387). -/
def execTrvInfoCnt (x : Enc) (s : State) : Out :=
  issue .trvInfoCnt x s (fun c s =>
    advance (onGroup s c (fun g => putScalar g x.d.idx (fun _ => BitVec.ofNat 64 c.g.trvCount))) c)

/-- TRV.INFO.kind (R387). -/
def execTrvInfoKind (x : Enc) (s : State) : Out :=
  issue .trvInfoKind x s (writeD .one (fun c _ =>
    BitVec.ofNat 64 (match c.g.shader with | some h => h.kind | none => 0)))

end Sys2Proof.Machine
end

