-- ==== Sys2Proof/Machine/Contin.lean ====
section
/-!
DEFINITION. Continuations: cloaks, SUSPEND, RESUME, CODROP and COINFO (R241, R247, R283 to R290, Tables 15.7 and 15.8).
-/
namespace Sys2Proof.Machine
open Sys2Proof

/-! ### Writing a cloak (R284, R285) -/

/-- VLIVE and SLIVE of the block that holds a PC; VREGS and SREGS where its overlay is not resident (R285). -/
def liveAt (s : State) (g : Group) (pc : Pc) : Nat × Nat :=
  match residentOv s g.core g.part g.ctx (pcOverlay pc) with
  | none => (g.nv, g.ns)
  | some _ => let h := (headerOf s g.core g.part g.ctx pc).1; (hdrVlive h, hdrSlive h)

/-- NV and NS of a cloak: the greatest among the splits that it keeps. -/
def cloakLive (s : State) (g : Group) : Nat × Nat :=
  let pcs := g.splits.map (fun e => e.2.pc) ++ g.ovf.map (·.pc) ++
    (match g.aside with | some a => a.splits.map (fun e => e.2.pc) ++ a.ovf.map (·.pc) | none => [])
  pcs.foldl (fun m pc => let x := liveAt s g pc; (max m.1 x.1, max m.2 x.2)) (0, 0)

/-- The monitors armed, and those fired, by number. -/
def monBits (g : Group) : Nat :=
  g.mons.foldl (fun n m => n + 2 ^ m.1 + (if m.2.fired then 16 * 2 ^ m.1 else 0)) 0

/-- The header of a cloak (Table 15.7). -/
def cloakHeader (g : Group) (teamid gridid : BitVec 64) (root nv ns : Nat) (home : BitVec 64) (rights : Nat) (preempted : Bool)
    (state : Nat) : List (BitVec 8) :=
  let holds := g.holds.filter (fun h => h.2 != 0)
  let wc := widthCode g.width
  let fixed : List (Nat × Nat) :=
    [(0, 0xC10A0001), (4, cloakSize g.width nv ns), (8, state), (12, 1), (13, rights),
     (14, wc + 4 * g.lined.toNat + 8 * preempted.toNat + 16 * (g.gen != 0).toNat),
     (15, g.splits.length + 8 * g.ovf.length), (16, g.part + 8 * g.ctx), (17, g.fpctl.toNat), (18, g.fpflags.toNat),
     (19, monBits g), (20, nv), (22, ns), (23, holds.length), (24, home.toNat), (32, g.serial.toNat), (40, g.priv.toNat),
     (48, g.gen.toNat), (56, g.nv), (58, g.ns), (59, g.index), (60, root), (64, teamid.toNat), (72, gridid.toNat)]
  let ks := (List.range 16).map (fun k => (80 + k, kget g k))
  let lines := g.mons.map (fun m => (96 + 8 * m.1, m.2.va.toNat / 128 * 128))
  let toks := (holds.zip (List.range holds.length)).map (fun x => (128 + 8 * x.2, x.1.2.toNat + x.1.1 * 2 ^ 32))
  leBytes 256 (packFields (fixed ++ ks ++ lines ++ toks))

/-- A split is marked WAITING: its arrival, post or arming is done and its wait remains (R285). -/
def isWaiting (sp : Split) : Bool :=
  match sp.wait with
  | .barrier _ _ => true
  | .syncl _ => true
  | .stage _ _ _ => true
  | .mon _ _ => true
  | _ => false

/-- An entry of a cloak's split table (R285). -/
def splitEntry (j : Nat) (desc : BitVec 64) : Option Split → List (BitVec 8)
  | none => leBytes 64 (if j = 0 then desc.toNat * 2 ^ 448 else 0)
  | some sp =>
    leBytes 64 (packFields ([(0, sp.pc.toNat), (4, 1 + 2 * sp.parked.toNat + 4 * (isWaiting sp).toNat), (5, sp.stack.length),
      (8, sp.mask.toNat)] ++ (sp.stack.reverse.zip (List.range 8)).map (fun x => (16 + 4 * x.2, x.1.toNat)) ++
      (if j = 0 then [(56, desc.toNat)] else [])))

/-- The bytes of a cloak: header, split table, scalars, full/empty map, predicates and vector registers (R285). A lined
group saves one copy. -/
def cloakBytes (g : Group) (teamid gridid : BitVec 64) (root nv ns : Nat) (home : BitVec 64) (rights : Nat) (preempted : Bool)
    (state : Nat) : List (BitVec 8) :=
  let desc : BitVec 64 := if g.gen ≠ 0 then g.genDesc else 0
  let scal := (List.range (8 * ((ns + 7) / 8))).flatMap (fun j => leBytes 8 (if j < ns then (srget g 0 j).toNat else 0))
  let full := (List.range 256).foldl (fun n j => n + (if isEmpty g j || g.damaged.contains j then 0 else 2 ^ j)) 0
  let preds := (List.range g.width).flatMap (fun i => leBytes 4 ((sget g.preds i).toNat % 2 ^ 15))
  let vecs := (List.range nv).flatMap (fun j => (List.range g.width).flatMap (fun i => leBytes 4 (vget g j i).toNat))
  cloakHeader g teamid gridid root nv ns home rights preempted state ++
    (List.range 4).flatMap (fun j => splitEntry j desc (mget g.splits j)) ++ scal ++ leBytes 64 full ++ preds ++ vecs

/-- The id of the root overlay that the group's context holds on its core. -/
def rootId (s : State) (g : Group) : Nat :=
  match rootOv s g.core g.part g.ctx g.sageip with
  | some e => e.id
  | none => 0

/-- %teamid and %gridid of a group. -/
def teamIds (s : State) (g : Group) : BitVec 64 × BitVec 64 :=
  match teamOf s g with
  | some t => (t.teamid, t.gridid)
  | none => (0, 0)

/-! ### SUSPEND (R283) -/

/-- No access of the group is in flight (R174, R247, R283), no traversal, build or tag is outstanding (R382, chapter on
fabric). -/
def quiet (s : State) (gid : Nat) (g : Group) : Bool :=
  g.prods.isEmpty && g.atoms.isEmpty && g.storeQ.isEmpty && g.replayG.isNone && g.replayS.isNone && g.events.isEmpty &&
    !s.copies.any (fun c => c.gid == gid || (match c.dst with | .group t _ => t == gid | _ => false)) &&
    !s.sliceQ.any (fun r => r.gid == gid) && !s.ual.any (fun u => u.gid == gid && u.kind != 1) &&
    g.trvCount = 0 && !s.tailor.any (fun o => o.gid == gid) && g.tags.isEmpty

/-- A slot of the group's team is claimed (R283). -/
def slotsClaimed (s : State) (g : Group) : Bool :=
  match teamOf s g with
  | some t => t.slots.any (fun e => e.2.st != .empty)
  | none => false

/-- The lined copies agree in the registers that the cloak saves (R251). -/
def savedAgree (g : Group) (nv ns : Nat) : Bool :=
  liveAgree g nv ns && (!g.lined || ((List.range g.width).all (fun i => sget g.preds i == sget g.preds (i + g.width)) &&
    g.fpflags == g.fpflagsSh))

/-- The lanes at which they differ (R335). -/
def savedDiffer (g : Group) (nv ns : Nat) : BitVec 64 :=
  if g.fpflags != g.fpflagsSh then g.live
  else liveDiffer g nv ns |||
    maskOf ((List.range g.width).filter (fun i => sget g.preds i != sget g.preds (i + g.width)))

/-- The monitors of a group stay armed for a cloak (R241). -/
def retagMons (s : State) (g : Group) (cloak : Nat) : State :=
  { s with cloakMons := s.cloakMons ++ g.mons.map (fun m =>
    { part := g.part, ctx := g.ctx, serial := g.serial, cloak := BitVec.ofNat 64 cloak, mon := m.1, line := m.2.line }) }

/-- A request for a peer's memory around an address waits at the links. -/
def linkHolds (s : State) (pa n : Nat) : Bool :=
  isRemote pa && s.ual.any (fun u => u.kind != 0 && u.pa / 128 ≤ (pa + n - 1) / 128 &&
    pa / 128 ≤ (u.pa + max 1 (max u.size u.data.length) - 1) / 128)

/-- The STATE word of a cloak changes at its home (R286); at a peer, after the requests that wait for its line (R133). -/
def putState (s : State) (pa v : Nat) : State :=
  if isRemote pa && !linkHolds s (pa + 8) 4 then { s with remote := putBytes s.remote (pa + 8) (leBytes 4 v) }
  else writeHome s (pa + 8) (leBytes 4 v)

/-- STATE changes for a request at its home, an access of its line (R121, R286). -/
def setState (s : State) (g : Group) (r : SliceReq) (v : Nat) : State := putState (touchUnit s g r true) r.pa v

/-- The lines of `n` 64-B parts from an address on leave the L1 of a core, dirty bytes home first (R129). -/
def yieldParts (s : State) (q : Accessor) (core : Nat) (va : BitVec 64) (n : Nat) : State :=
  (List.range n).foldl (fun st i =>
    match reach st q (va + BitVec.ofNat 64 (64 * i)) 64 .none with
    | .ok p => if p.window then st else yieldLine st core (p.pa / 128)
    | .error _ => st) s

/-- The group leaves its core as though it had exited: its slot, tokens and monitors are free, and it counts as exited for
its team (R283). Its pin stays with the cloak. -/
def leaveCore (s : State) (gid : Nat) : State :=
  match mget s.groups gid with
  | none => s
  | some g =>
    let s1 := modGroup s gid (fun g => { g with
      live := 0, splits := [], ovf := [], holds := [], mons := [], pend := [], empty := [], gen := 0, genDesc := 0, inj := none })
    retireGroup (memberExits s1 g.team g.index) gid

/-- SUSPEND's last step, at the home of the STATE word (R283, R290): STATE is SUSPENDED, the monitors, with those that have
fired meanwhile, stay armed for the cloak, and the group leaves. -/
def performSuspend (s : State) (r : SliceReq) : State :=
  match mget s.groups r.gid with
  | none => s
  | some g =>
    let s1 := setState (yieldParts s (accessorOf g) g.core r.va 1) g r 1
    let s2 := if g.mons.any (·.2.fired) then writeHome s1 (r.pa + 19) [BitVec.ofNat 8 (monBits g)] else s1
    leaveCore (retagMons s2 g r.pa) r.gid

/-- SUSPEND (R283): it writes the cloak with STATE EMPTY and sends STATE's change to the word's home. The group resumes at
the next word. -/
def execSuspend (x : Enc) (s : State) : Out :=
  issue .suspend x s (fun c s =>
    let a := uniOperand c.g x 0 x.a
    let r := (uniOperand c.g x 0 x.b).toNat
    let next : Group := { c.g with splits := [(c.j, { c.sp with pc := c.sp.pc + 1, wait := .none })] }
    let (nv, ns) := cloakLive s next
    if operandDiffers c x.a || operandDiffers c x.b then liningMismatch s c c.sp.mask
    else if 8 ≤ r then raiseIss s c evIllegalOperand c.sp.mask 0
    else if c.g.aside.isSome || slotsClaimed s c.g || (c.g.gen ≠ 0 && !x.bit 0) then raiseIss s c evSuspendIllegal c.sp.mask 0
    else if c.sp.wait = .reply || !quiet s c.gid c.g || !memReady s c.g.part then s
    else
      match savedHit next nv ns with
      | some (r, lanes) => raiseIss (onGroup s c (fun g => damage g r)) c evMachineCheck lanes (damageInfo r)
      | none =>
      let fail (va : BitVec 64) (f : Fail) : State :=
        let (id, s1) := fresh s
        uniformFail s1 c.gid c.j id c.sp.pc va f 1 8
      if a.toNat % 256 ≠ 0 then fail a { cause := evAddress }
      else if !savedAgree next nv ns then liningMismatch s c (savedDiffer next nv ns)
      else
        let (teamid, gridid) := teamIds s c.g
        let bs := cloakBytes next teamid gridid (rootId s c.g) nv ns a r false 0
        let accs := storeWords a bs (bs.length / 8)
        match storeFails s c.g .store accs with
        | f :: _ => fail f.addr f.fail
        | [] =>
          let e : StoreEntry := { id := s.nextOp, pc := c.sp.pc, split := c.j, kind := .store, accs, order := 0, scope := 0 }
          let s1 := releaseAt (storeAccs s c.gid c.g e accs) c.g 4
          match reachReq s c.g (blankReq s c s.nextOp a .suspend) false 64 .rw true with
          | .error f => fail a f
          | .ok q =>
            let s2 := waitAs { s1 with nextOp := s.nextOp + 1 } c .reply
            if isRemote q.pa then performSuspend s2 q else sendReq s2 c.g q)

/-! ### RESUME (R287, R288) -/

/-- A cloak as read from memory. -/
def cloakField (bs : List (BitVec 8)) (off n : Nat) : Nat := fieldAt bs off n

/-- Reads `n` parts of 64 bytes from an address on. -/
def readParts (s : State) (q : Accessor) (va : BitVec 64) (n : Nat) : Except EngFail (List (BitVec 8)) :=
  match readAll (fun i => engGet s q (va + BitVec.ofNat 64 (64 * i)) 64) (List.range n) with
  | .error e => .error e
  | .ok l => .ok (l.flatMap id)

/-- The lane count of a SHAPE. -/
def shapeWidth (shape : Nat) : Nat := if shape % 4 = 0 then 16 else if shape % 4 = 1 then 32 else 64

/-- Bytes of the cloak that a header describes, in parts of 64. -/
def headerParts (h : List (BitVec 8)) : Nat :=
  cloakSize (shapeWidth (cloakField h 14 1)) (min 256 (cloakField h 20 2)) (min 64 (cloakField h 22 1)) / 64

/-- A split of a cloak's split table (R285); one marked WAITING completes its wait at once. -/
def splitOf (bs : List (BitVec 8)) (j : Nat) (clk : Nat) : Option Split :=
  let f (off n : Nat) : Nat := fieldAt bs (256 + 64 * j + off) n
  if f 4 1 % 2 = 0 then none
  else
    some { pc := BitVec.ofNat 32 (f 0 4), mask := BitVec.ofNat 64 (f 8 8)
           stack := ((List.range (min 8 (f 5 1))).map (fun e => BitVec.ofNat 32 (f (16 + 4 * e) 4))).reverse
           parked := f 4 1 / 2 % 2 = 1, wait := if f 4 1 / 4 % 2 = 1 then .resumed else .none, age := clk + 1 }

/-- The group of a cloak at a place of a core (R287): registers at or above NV or NS read 0 and are full. -/
def groupOfCloak (bs : List (BitVec 8)) (g : Group) (tid core : Nat) (x : Spot) (priv : BitVec 64) (clk : Nat) : Group :=
  let f (off n : Nat) : Nat := fieldAt bs off n
  let w := shapeWidth (f 14 1)
  let lined := f 14 1 / 4 % 2 = 1
  let nv := min 256 (f 20 2)
  let ns := min 64 (f 22 1)
  let sb := cloakSb ns
  let vb := sb + 64 + 4 * w
  let splits := (List.range 4).filterMap (fun j => (splitOf bs j clk).map (fun sp => (j, sp)))
  let copies := if lined then [0, 1] else [0]
  let g0 : Group :=
    { serial := BitVec.ofNat 64 (f 32 8), part := g.part, ctx := g.ctx, team := tid, index := f 59 1, core, side := x.1
      slot := x.2.1, slice0 := x.2.2, slices := if lined then w / 2 else w / 4, width := w, lined, role := g.role
      nv := f 56 2, ns := f 58 1, priv, privSize := g.privSize
      empty := (List.range nv).filter (fun j => f (sb + j / 8) 1 / 2 ^ (j % 8) % 2 = 0)
      fpctl := BitVec.ofNat 5 (f 17 1), fpflags := BitVec.ofNat 5 (f 18 1), fpflagsSh := BitVec.ofNat 5 (f 18 1)
      counters := (List.range 16).foldl (fun m k => sput m k (BitVec.ofNat 8 (f (80 + k) 1))) []
      live := splits.foldl (fun m e => m ||| e.2.mask) 0, splits
      holds := (List.range (min 16 (f 23 1))).foldl (fun m i =>
        mput m (f (128 + 8 * i + 4) 2 % 2 ^ 12) (BitVec.ofNat 32 (f (128 + 8 * i) 4))) []
      gen := if f 14 1 / 16 % 2 = 1 then BitVec.ofNat 32 (f 48 8) else 0
      genDesc := if f 14 1 / 16 % 2 = 1 then BitVec.ofNat 64 (f 312 8) else 0 }
  let g1 := copies.foldl (fun h k => (List.range ns).foldl (fun h j => srset h k j (BitVec.ofNat 64 (f (512 + 8 * j) 8))) h) g0
  let g2 := copies.foldl (fun h k => (List.range w).foldl (fun h i =>
    { h with preds := sput h.preds (i + k * w) (BitVec.ofNat 16 (f (sb + 64 + 4 * i) 4 % 2 ^ 15)) }) h) g1
  copies.foldl (fun h k => (List.range nv).foldl (fun h j => (List.range w).foldl (fun h i =>
    vset h j (i + k * w) (BitVec.ofNat 32 (f (vb + 4 * (w * j + i)) 4))) h) h) g2

/-- The monitors of a group that comes back from a cloak at a physical address: those kept for it, and those that its
header says have fired, in a copy of a cloak too (R241, R287). -/
def restoreMons (s : State) (cloak : Nat) (bs : List (BitVec 8)) (g : Group) : Group :=
  let fired (m : Nat) : Bool := fieldAt bs 19 1 / 2 ^ (4 + m) % 2 = 1
  { g with mons := (List.range 4).foldl (fun ms m =>
      let va := BitVec.ofNat 64 (fieldAt bs (96 + 8 * m) 8)
      match s.cloakMons.find? (fun k => k.cloak.toNat == cloak && k.mon == m) with
      | some k => mput ms m { line := k.line, va, fired := fired m }
      | none => if fired m then mput ms m { line := 0, va, fired := true } else ms) g.mons }

/-- The monitors of a cloak are no longer kept. -/
def dropCloakMons (s : State) (cloak : Nat) : State :=
  { s with cloakMons := s.cloakMons.filter (fun k => k.cloak.toNat != cloak) }

/-- The team of its own that a resumed group forms (R288). What its cloak does not keep is as the resumer's launch has it
(log entry 40). -/
def resumedTeam (s : State) (g : Group) (bs : List (BitVec 8)) (core : Nat) : Team :=
  let (l, queue, prio) := match teamOf s g with
    | some t => (t.launch, t.queue, t.prio)
    | none => ({}, none, 0)
  { part := g.part, ctx := g.ctx, queue, prio, launchId := 0
    launch := { l with
      coresAll := false, pair := false, groups := fieldAt bs 59 1 + 1, scratch := 0, slots := 0, seqEntry := 0
      vregs := fieldAt bs 56 2, sregs := fieldAt bs 58 1, width := shapeWidth (fieldAt bs 14 1)
      lining := fieldAt bs 14 1 / 4 % 2 = 1 }
    teamid := BitVec.ofNat 64 (fieldAt bs 64 8), gridid := BitVec.ofNat 64 (fieldAt bs 72 8), home := core, partner := none
    placedAt := s.clk }

/-- A resumer's group is placed on its core: PRIV is b, or the header's where b is %zero (R287). -/
def placeResumed (s : State) (g : Group) (bs : List (BitVec 8)) (x : Spot) (cloak : Nat) (b : BitVec 64) (zero : Bool) :
    State :=
  let tid := s.nextTid
  let gid := s.nextGid
  let priv := if zero then BitVec.ofNat 64 (fieldAt bs 40 8) else b
  let h := restoreMons s cloak bs (groupOfCloak bs g tid g.core x priv s.clk)
  { s with
    teams := mput s.teams tid (resumedTeam s g bs g.core), groups := mput s.groups gid h
    nextTid := tid + 1, nextGid := gid + 1 }

/-- OWNER of a header: partition and context. -/
def cloakOwner (h : List (BitVec 8)) : Nat × Nat := (fieldAt h 16 1 % 8, fieldAt h 16 1 / 8 % 16)

/-- An operation on STATE raises a precise event of the instruction that sent it; nothing else happens. -/
def stateRaise (s : State) (r : SliceReq) (code : Nat) : State :=
  match mget s.groups r.gid with
  | none => s
  | some g =>
    let lanes := match issuedSplit g r.op r.split with
      | some sp => sp.mask
      | none => 0
    raise (modGroup s r.gid (fun g => modIssued g r.op r.split (fun sp => { sp with wait := .none }))) r.gid
      { code, precise := true, split := r.split, epc := r.pc, lanes, info := r.va, info2 := 0, op := r.op }

/-- Reads the `n` 64-B parts of a cloak. Where the launch accepts poison, a poisoned part of the scalar or vector image
gives POISON_VAL in its registers, which are counted (R326); any other poison ends the read. -/
def readCloak (s : State) (q : Accessor) (va : BitVec 64) (n : Nat) (image : Nat → Bool) (accept : Option W32) :
    Except EngFail (List (BitVec 8) × Nat) :=
  match readAll (fun i =>
    match engineRead s q (va + BitVec.ofNat 64 (16 * i)) 16 .r with
    | .error f => .error (.fault f (va + BitVec.ofNat 64 (16 * i)))
    | .ok (bs, false) => .ok (bs, 0)
    | .ok (_, true) =>
      match accept with
      | some pv => if image (16 * i) then .ok ((List.range 4).flatMap (fun _ => leBytes 4 pv.toNat), 4) else .error .poison
      | none => .error .poison) (List.range (4 * n)) with
  | .error e => .error e
  | .ok l => .ok (l.flatMap (·.1), l.foldl (fun k x => k + x.2) 0)

/-- A byte of the cloak lies in its scalar or vector image (R285). -/
def inImages (h : List (BitVec 8)) (off : Nat) : Bool :=
  let sb := cloakSb (min 64 (fieldAt h 22 1))
  (512 ≤ off && off < sb) || sb + 64 + 4 * shapeWidth (fieldAt h 14 1) ≤ off

/-- The place for the group of a cloak on a resumer's core. -/
def resumeSpot (s : State) (g : Group) (bs : List (BitVec 8)) : Option Spot :=
  let w := shapeWidth (fieldAt bs 14 1)
  let n := if fieldAt bs 14 1 / 4 % 2 = 1 then min 16 (w / 2) else w / 4
  match spotsFor (useOf s g.core g.part g.ctx) n (fieldAt bs 56 2) with
  | [] => none
  | x :: l => some ((x :: l).getD (Config.corePick s.draws % (l.length + 1)) x)

/-- RESUME with the cloak read: it waits for a slot, slices and registers, then the group is placed and the cloak is
CONSUMED. -/
def finishResume (s : State) (r : SliceReq) (g : Group) (bs : List (BitVec 8)) (b : BitVec 64) (zero : Bool) (d : Nat) :
    State :=
  match resumeSpot s g bs with
  | none => s
  | some x =>
    let s1 := placeResumed { s with draws := s.draws + 1 } g bs x r.pa b zero
    let s2 := dropCloakMons (setState (releaseAt s1 g 4) g r 3) r.pa
    uniformDone s2 r [(d, 0)]

/-- RESUME's checks in order (R287), at the home of the STATE word: the header's read is an acquire at device scope, and a
cloak that passes them becomes RESUMING. -/
def performResume (s : State) (r : SliceReq) (d : Nat) : State :=
  match mget s.groups r.gid with
  | none => s
  | some g =>
    let q := accessorOf g
    let s := engineTouch (acquireAt (yieldParts s q g.core r.va 4) g 4) q r.va 256 (chainOf s g)
    let fail (f : Fail) (va : BitVec 64) (kind size : Nat) : State := uniformFail s r.gid r.split r.op r.pc va f kind size
    match readParts s q r.va 4 with
    | .error (.fault f va) => fail f va (if f.cause = evAddress then 0 else 2) 8
    | .error .poison => uniformPoison s r [d] 2
    | .ok h =>
      if fieldAt h 0 4 ≠ 0xC10A0001 || fieldAt h 12 1 ≠ 1 || fieldAt h 8 4 = 0 then stateRaise s r evCloakVersion
      else if cloakOwner h != (g.part, g.ctx) || fieldAt h 13 1 % 2 = 0 ||
          (fieldAt h 24 8 ≠ r.va.toNat && fieldAt h 13 1 / 2 % 2 = 0) then stateRaise s r evCloakRights
      else if fieldAt h 8 4 ≠ 1 then stateRaise s r evDoubleResume
      else modGroup (setState s g r 2) r.gid (fun g => modIssued g r.op r.split (fun sp =>
        { sp with caught := sp.caught.map (fun m => { m with resuming := true }) }))

/-- A request is for the STATE word of a cloak. -/
def isState (r : SliceReq) : Bool :=
  match r.kind with
  | .resume _ _ _ | .codrop _ | .coinfo _ | .suspend => true
  | _ => false

/-- RESUME of a cloak that is RESUMING (R287): without its root the cloak is SUSPENDED again, once the requests for its STATE
that came with this one have been performed (R290); else its body is read and its group placed. -/
def resumeBody (s : State) (r : SliceReq) (b : BitVec 64) (zero : Bool) (d : Nat) : State :=
  match mget s.groups r.gid with
  | none => s
  | some g =>
    let q := accessorOf g
    match readParts s q r.va 4 with
    | .error (.fault f va) => uniformFail s r.gid r.split r.op r.pc va f 0 64
    | .error .poison => uniformPoison (setState s g r 1) r [d] 0
    | .ok h =>
      if (rootOv s g.core g.part g.ctx false).map (·.id) ≠ some (fieldAt h 60 2 % 2 ^ 12) then
        if s.sliceQ.any (fun k => isState k && k.pa == r.pa) then s else uniformDone (setState s g r 1) r [(d, 1)]
      else
        let s0 := yieldParts s q g.core r.va (headerParts h)
        match readCloak s0 q r.va (headerParts h) (inImages h) (acceptOf s g) with
        | .error (.fault f va) => uniformFail s0 r.gid r.split r.op r.pc va f 0 64
        | .error .poison => uniformPoison (setState s0 g r 1) r [d] 0
        | .ok (bs, n) =>
          if (resumeSpot s0 g bs).isNone then s
          else finishResume (countPoison (engineTouch s0 q r.va (64 * headerParts h) (chainOf s g)) g n) r g bs b zero d

/-- A split keeps its operands while a home performs what it asked for. -/
def waitCaught (s : State) (c : Iss) : State :=
  modSplit (waitAs s c .reply) c.gid c.j (fun sp => { sp with caught := sp.caught.orElse (fun _ => some { sregs := c.g.sregs }) })

/-- RESUME (R287): what it does to the STATE word goes to the word's home slice, among the requests there (R290). -/
def execResume (x : Enc) (s : State) : Out :=
  issue .resume x s (fun c s =>
    let a := uniOperand c.g x 0 x.a
    let b := uniOperand c.g x 0 x.b
    let zero := x.b == .sr 0x3F
    let d := x.d.idx
    let r := blankReq s c s.nextOp a (.resume b zero d)
    if operandDiffers c x.a || operandDiffers c x.b then liningMismatch s c c.sp.mask
    else if c.sp.caught.any (·.resuming) then
      let (id, s1) := fresh s
      match reachReq s c.g r false 256 .rw true with
      | .error f => uniformFail s1 c.gid c.j id c.sp.pc a f 2 8
      | .ok r => resumeBody (if c.sp.wait = .reply then s else waitAs s c .reply) r b zero d
    else if c.sp.wait = .reply || !homeNow s c then s
    else
      let (id, s1) := fresh s
      match reachReq s c.g r (a.toNat % 64 ≠ 0) 256 .rw true with
      | .error f => uniformFail s1 c.gid c.j id c.sp.pc a f (if f.cause = evAddress then 0 else 2) 8
      | .ok r =>
        if !isRemote r.pa then sendReq (waitCaught s1 c) c.g r
        else if linkHolds s r.pa 256 then s
        else performResume (waitCaught s1 c) r d)

/-! ### CODROP and COINFO (R289) -/

/-- The pin of a cloak is released (R382). -/
def dropCloakPin (s : State) (g : Group) (h : List (BitVec 8)) (desc : Nat) : State :=
  if fieldAt h 14 1 / 16 % 2 = 1 then dropPin s g.part (cloakOwner h).2 (BitVec.ofNat 64 desc) (fieldAt h 48 8) else s

/-- CODROP at the home of the STATE word (R289). A pin that the cloak holds is found through the address in entry 0 of its
split table (R285). -/
def performCodrop (s : State) (r : SliceReq) (d : Nat) : State :=
  match mget s.groups r.gid with
  | none => s
  | some g =>
    let q := accessorOf g
    let s := engineTouch (yieldParts s q g.core r.va 1) q r.va 64 (chainOf s g)
    match readParts s q r.va 1 with
    | .error (.fault f va) => uniformFail s r.gid r.split r.op r.pc va f 2 8
    | .error .poison => uniformPoison s r [d] 2
    | .ok h =>
      if (cloakOwner h).1 ≠ g.part then stateRaise s r evCloakRights
      else if fieldAt h 8 4 ≠ 1 then uniformDone s r [(d, 1)]
      else
        let drop (s : State) (desc : Nat) : State :=
          uniformDone (dropCloakPin (dropCloakMons (setState s g r 4) r.pa) g h desc) r [(d, 0)]
        if fieldAt h 14 1 / 16 % 2 = 0 then drop s 0
        else
          let s := yieldParts s q g.core (r.va + 256) 1
          match engGet s q (r.va + 312) 8 with
          | .error (.fault f va) => uniformFail s r.gid r.split r.op r.pc va f 2 8
          | .error .poison => uniformPoison s r [d] 2
          | .ok bs => drop s (leNat bs)

/-- CODROP (R289). -/
def execCodrop (x : Enc) (s : State) : Out :=
  issue .codrop x s (fun c s =>
    let a := uniOperand c.g x 0 x.a
    let r := blankReq s c s.nextOp a (.codrop x.d.idx)
    if operandDiffers c x.a then liningMismatch s c c.sp.mask
    else if c.sp.wait = .reply || !homeNow s c then s
    else
      let (id, s1) := fresh s
      match reachReq s c.g r (a.toNat % 8 ≠ 0) 64 .rw true with
      | .error f => uniformFail s1 c.gid c.j id c.sp.pc a f 2 8
      | .ok r =>
        if !isRemote r.pa then sendReq (waitCaught s1 c) c.g r
        else if linkHolds s r.pa 64 then s
        else performCodrop (waitCaught s1 c) r x.d.idx)

/-- COINFO at the home of the STATE word, in one read (R289). -/
def performCoinfo (s : State) (r : SliceReq) (d : Nat) : State :=
  match mget s.groups r.gid with
  | none => s
  | some g =>
    let q := accessorOf g
    let s := engineTouch (yieldParts s q g.core r.va 1) q r.va 64 (chainOf s g)
    match engineRead s q (r.va + 8) 16 .r with
    | .error f => uniformFail s r.gid r.split r.op r.pc r.va f 0 8
    | .ok (_, true) => uniformPoison s r [d] 0
    | .ok (bs, false) =>
      if fieldAt bs 8 1 % 8 ≠ g.part then stateRaise s r evCloakRights
      else uniformDone s r [(d, BitVec.ofNat 64 (fieldAt bs 0 8 % 2 ^ 43))]

/-- COINFO (R289). -/
def execCoinfo (x : Enc) (s : State) : Out :=
  issue .coinfo x s (fun c s =>
    let a := uniOperand c.g x 0 x.a
    let r := blankReq s c s.nextOp a (.coinfo x.d.idx)
    if operandDiffers c x.a then liningMismatch s c c.sp.mask
    else if c.sp.wait = .reply || !homeNow s c then s
    else
      let (id, s1) := fresh s
      match reachReq s c.g r (a.toNat % 8 ≠ 0) 24 .r true with
      | .error f => uniformFail s1 c.gid c.j id c.sp.pc a f 0 8
      | .ok r =>
        if !isRemote r.pa then sendReq (waitCaught s1 c) c.g r
        else if linkHolds s r.pa 64 then s
        else performCoinfo (waitCaught s1 c) r x.d.idx)

/-! ### A slice's turn (R120) -/

/-- A slice performs a request. -/
def performAny (s : State) (r : SliceReq) : State :=
  let s1 := { s with sliceQ := s.sliceQ.filter (fun q => !(q.gid == r.gid && q.op == r.op)) }
  match r.kind with
  | .resume _ _ d => performResume s1 r d
  | .codrop d => performCodrop s1 r d
  | .coinfo d => performCoinfo s1 r d
  | .suspend => performSuspend s1 r
  | .atomic _ _ _ _ _ _ => performReq s r
  | .deque _ _ _ _ => performReq s r
  | .monarm _ _ => performReq s r

/-- A slice performs one request. -/
def sliceStep (s : State) (slice : Nat) : State :=
  match nextReq s slice with
  | none => s
  | some r =>
    match mget s.groups r.gid with
    | some g => if pathReady s g.part (r.pa / 128) then performAny s r else s
    | none => performAny s r

/-- L2_SLICE_REQUEST (R120, R238). -/
def execL2SliceRequest (slice : Nat) (s : State) : Out := stepEvent s (fun s => sliceStep s slice)

end Sys2Proof.Machine
end

