-- ==== Sys2Proof/Machine/Float.lean ====
section
/-!
DEFINITION. FP64, FP32 and packed 16-bit arithmetic, comparison, classification and conversion: majors 0x20 to
0x24 (spec/11 R194 to R202).
-/
namespace Sys2Proof.Machine

/-! ### Values of a lane -/

/-- A result in the format of the TYPE, with RND and SAT of the word, flushed for the packed formats (R195). -/
def fpDeliver (c : Iss) (e : Ex) : FRes :=
  deliver (fmtOf c.x.ty) c.x.rnd.toNat c.x.sat c.x.ty.isNarrowFloat e

/-- An operation on the elements of one lane. -/
def fpMap (e : Iss → Nat → Nat → Ex) (c : Iss) (l : Nat) : BitVec 64 × BitVec 5 :=
  packResults c.x.ty (fun j => fpDeliver c (e c l j))

/-- x + y. -/
def exprAdd (c : Iss) (l j : Nat) : Ex := exAdd c.x.rnd.toNat (fpArg c 0 l j) (fpArg c 1 l j)
/-- x − y. -/
def exprSub (c : Iss) (l j : Nat) : Ex := exAdd c.x.rnd.toNat (fpArg c 0 l j) (fpArg c 1 l j).negate
/-- x × y. -/
def exprMul (c : Iss) (l j : Nat) : Ex := exMul (fpArg c 0 l j) (fpArg c 1 l j)
/-- x × y + z. -/
def exprFma (c : Iss) (l j : Nat) : Ex := exFma c.x.rnd.toNat (fpArg c 0 l j) (fpArg c 1 l j) (fpArg c 2 l j)
/-- x / y. -/
def exprDiv (c : Iss) (l j : Nat) : Ex := exDiv ((fmtOf c.x.ty).fbits + 1) (fpArg c 0 l j) (fpArg c 1 l j)
/-- √x. -/
def exprSqrt (c : Iss) (l j : Nat) : Ex := exSqrt ((fmtOf c.x.ty).fbits + 1) (fpArg c 0 l j)

/-- Rounding to an integral value (R196). -/
def roundLane (c : Iss) (l : Nat) : BitVec 64 × BitVec 5 :=
  packResults c.x.ty (fun j => roundIntegral (fmtOf c.x.ty) c.x.rnd.toNat (fpSource c 0 l j))

/-- Minimum or maximum (R197). -/
def minMaxLane (max : Bool) (c : Iss) (l : Nat) : BitVec 64 × BitVec 5 :=
  packResults c.x.ty (fun j => minMax (fmtOf c.x.ty) max (fpSource c 0 l j) (fpSource c 1 l j))

/-! ### FP64: major 0x20 -/

/-- DADD (R195). -/
def execDadd (x : Enc) (s : State) : Out := issue .dadd x s (fpWriteD .ty (fpMap exprAdd))
/-- DSUB (R195). -/
def execDsub (x : Enc) (s : State) : Out := issue .dsub x s (fpWriteD .ty (fpMap exprSub))
/-- DMUL (R195). -/
def execDmul (x : Enc) (s : State) : Out := issue .dmul x s (fpWriteD .ty (fpMap exprMul))
/-- DFMA (R195). -/
def execDfma (x : Enc) (s : State) : Out := issue .dfma x s (fpWriteD .ty (fpMap exprFma))
/-- DDIV (R195, R173): it can raise every exception. -/
def execDdiv (x : Enc) (s : State) : Out := issue .ddiv x s (fpProduce 31 (fpMap exprDiv))
/-- DSQRT (R195, R173): it can raise IV and NX. -/
def execDsqrt (x : Enc) (s : State) : Out := issue .dsqrt x s (fpProduce (fIV ||| fNX) (fpMap exprSqrt))
/-- DMIN (R197). -/
def execDmin (x : Enc) (s : State) : Out := issue .dmin x s (fpWriteD .ty (minMaxLane false))
/-- DMAX (R197). -/
def execDmax (x : Enc) (s : State) : Out := issue .dmax x s (fpWriteD .ty (minMaxLane true))
/-- DROUND (R196). -/
def execDround (x : Enc) (s : State) : Out := issue .dround x s (fpWriteD .ty roundLane)

/-! ### FP32: major 0x21 -/

/-- FADD (R195). -/
def execFadd (x : Enc) (s : State) : Out := issue .fadd x s (fpWriteD .ty (fpMap exprAdd))
/-- FSUB (R195). -/
def execFsub (x : Enc) (s : State) : Out := issue .fsub x s (fpWriteD .ty (fpMap exprSub))
/-- FMUL (R195). -/
def execFmul (x : Enc) (s : State) : Out := issue .fmul x s (fpWriteD .ty (fpMap exprMul))
/-- FFMA (R195). -/
def execFfma (x : Enc) (s : State) : Out := issue .ffma x s (fpWriteD .ty (fpMap exprFma))
/-- FDIV (R195, R173). -/
def execFdiv (x : Enc) (s : State) : Out := issue .fdiv x s (fpProduce 31 (fpMap exprDiv))
/-- FSQRT (R195, R173). -/
def execFsqrt (x : Enc) (s : State) : Out := issue .fsqrt x s (fpProduce (fIV ||| fNX) (fpMap exprSqrt))
/-- FMIN (R197). -/
def execFmin (x : Enc) (s : State) : Out := issue .fmin x s (fpWriteD .ty (minMaxLane false))
/-- FMAX (R197). -/
def execFmax (x : Enc) (s : State) : Out := issue .fmax x s (fpWriteD .ty (minMaxLane true))
/-- FROUND (R196). -/
def execFround (x : Enc) (s : State) : Out := issue .fround x s (fpWriteD .ty roundLane)

/-! ### Packed 16-bit: major 0x22 -/

/-- HADD2 (R195). -/
def execHadd2 (x : Enc) (s : State) : Out := issue .hadd2 x s (fpWriteD .ty (fpMap exprAdd))
/-- HMUL2 (R195). -/
def execHmul2 (x : Enc) (s : State) : Out := issue .hmul2 x s (fpWriteD .ty (fpMap exprMul))
/-- HFMA2 (R195). -/
def execHfma2 (x : Enc) (s : State) : Out := issue .hfma2 x s (fpWriteD .ty (fpMap exprFma))
/-- HMIN2 (R197). -/
def execHmin2 (x : Enc) (s : State) : Out := issue .hmin2 x s (fpWriteD .ty (minMaxLane false))
/-- HMAX2 (R197). -/
def execHmax2 (x : Enc) (s : State) : Out := issue .hmax2 x s (fpWriteD .ty (minMaxLane true))

/-! ### Comparison and classification: major 0x23 -/

/-- The condition of element `j` in a lane, and its exceptions (R198). -/
def condAt (c : Iss) (l j : Nat) : Bool × BitVec 5 :=
  let (r, iv) := floatCond (c.x.bits 6 4) (fpArg c 0 l j) (fpArg c 1 l j)
  (r, if iv then fIV else 0)

/-- p[c] combined with the result of element `j`. -/
def condPred (c : Iss) (j l : Nat) : Bool :=
  combine (c.x.bits 22 2) (condAt c l j).1 (predOperand c.g l c.x.c)

/-- The exceptions of a comparison in a lane. -/
def condFlags (c : Iss) (l : Nat) : BitVec 5 :=
  (List.range c.x.ty.elems).foldl (fun v j => v ||| (condAt c l j).2) 0

/-- A comparison of single values (R198). -/
def compareBody (c : Iss) (s : State) : State := fpFinish c (condFlags c) (putPredD c (condPred c 0)) s

/-- DCMP (R198). -/
def execDcmp (x : Enc) (s : State) : Out := issue .dcmp x s compareBody
/-- FCMP (R198). -/
def execFcmp (x : Enc) (s : State) : Out := issue .fcmp x s compareBody
/-- HCMP2 (R198): element 0 to p[d], element 1 to p[e]. -/
def execHcmp2 (x : Enc) (s : State) : Out :=
  issue .hcmp2 x s (fun c s =>
    fpFinish c (condFlags c) (fun g => putPredE c (condPred c 1) (putPredD c (condPred c 0) g)) s)

/-- The class test of a lane (R199). -/
def classAt (c : Iss) (l : Nat) : Bool :=
  combine (c.x.bits 22 2)
    (c.x.bit (6 + classOf (fmtOf c.x.ty) ((srcA c l).toNat % 2 ^ c.x.ty.elemBits))) (predOperand c.g l c.x.c)

/-- DCLASS (R199). -/
def execDclass (x : Enc) (s : State) : Out :=
  issue .dclass x s (fun c s => advance (onGroup s c (putPredD c (classAt c))) c)
/-- FCLASS (R199). -/
def execFclass (x : Enc) (s : State) : Out :=
  issue .fclass x s (fun c s => advance (onGroup s c (putPredD c (classAt c))) c)

/-! ### Convert: major 0x24 -/

/-- CVT in a lane (R200, R83). -/
def cvtLane (c : Iss) (l : Nat) : BitVec 64 × BitVec 5 :=
  let v := readOperand c.g c.x .sty l c.x.a
  let r := convertVal c.x.sty c.x.ty c.x.rnd.toNat c.x.sat (elemAt c.x.sty v (c.x.bits 4 2))
  (BitVec.ofNat 64 r.val, r.flags)

/-- CVT (R200). -/
def execCvt (x : Enc) (s : State) : Out := issue .cvt x s (fpWriteD .ty cvtLane)

/-- One element of CVTP (R201, R83, R84). -/
def packOne (x : Enc) (v : BitVec 64) : FRes :=
  if x.ty.isInt then
    { val := intResult x.sat x.ty.isSigned x.ty.elemBits (toInt .i32 v), flags := 0 }
  else convertVal x.sty x.ty x.rnd.toNat x.sat (v.toNat % 2 ^ x.sty.elemBits)

/-- CVTP in a lane (R201): A, B, C and E supply elements 0 to 3. -/
def cvtpLane (c : Iss) (l : Nat) : BitVec 64 × BitVec 5 :=
  packResults c.x.ty (fun j =>
    packOne c.x (readOperand c.g c.x .sty l (match j with | 0 => c.x.a | 1 => c.x.b | 2 => c.x.c | _ => c.x.e)))

/-- CVTP (R201). -/
def execCvtp (x : Enc) (s : State) : Out := issue .cvtp x s (fpWriteD .one cvtpLane)

/-- SCALEB in a lane (R202): x × 2^n is exact before the one rounding. -/
def scalebLane (c : Iss) (l : Nat) : BitVec 64 × BitVec 5 :=
  let n := elemVal true 32 ((srcB c l).toNat % 2 ^ 32)
  let e := match decodeFloat (fmtOf c.x.ty) ((srcA c l).toNat % 2 ^ c.x.ty.elemBits) with
    | .fin neg m e => Ex.num neg m (e + n)
    | v => v.toEx
  let r := deliver (fmtOf c.x.ty) c.x.rnd.toNat false false e
  (BitVec.ofNat 64 r.val, r.flags)

/-- SCALEB (R202). -/
def execScaleb (x : Enc) (s : State) : Out := issue .scaleb x s (fpWriteD .ty scalebLane)

end Sys2Proof.Machine
end

