-- ==== Sys2Proof/Machine/Hbm.lean ====
section
/-!
DEFINITION. The HBM channels: requests, activation counting and directed RFM, pin repair and row remapping (R321, R323,
R344 to R349).
-/
namespace Sys2Proof.Machine

/-! ### Channels and their readiness -/


/-- Sets or clears bit `b` of word `w` of the readiness map. -/
def setReady (s : State) (w b : Nat) (v : Bool) : State :=
  let old := sget s.ready w
  { s with ready := sput s.ready w (if v then old ||| bitMask b else old &&& ~~~ bitMask b) }

/-- Marks a channel degraded (R344, R345), which Mantle logs. -/
def degradeChannel (s : State) (ch : Nat) : State :=
  logEvent (setReady s (8 + ch / 64) (ch % 64) true) "DEGRADED_CHANNEL" [ch]

/-- The partition that owns a channel's half-stack. -/
def channelOwner (s : State) (ch : Nat) : Option Nat :=
  (List.range 8).find? (fun p => (partOf s p).halfStacks.getLsbD (ch / 16))

/-- The threshold T of a channel (R348, Table 19.7). -/
def rowThreshold (s : State) (ch : Nat) : Nat :=
  match channelOwner s ch with
  | some p => max 32 (partOf s p).rhThreshold.toNat
  | none => 4096

/-- The bank number of a local address (R346, Table 19.6). -/
def bankOf (pa : Nat) : Nat :=
  let l := bits pa 11 24
  16 * bits l 3 1 + 4 * bits l 4 2 + bits l 6 2

/-- The row of a local address (Table 19.6). -/
def rowOf (pa : Nat) : Nat := bits (bits pa 11 24) 8 16

/-- A bank of a channel. -/
def bankAt (c : Channel) (b : Nat) : Bank := mgetD c.banks b {}

/-- Changes a bank. -/
def modBank (s : State) (ch b : Nat) (f : Bank → Bank) : State :=
  modChan s ch (fun c => { c with banks := mput c.banks b (f (bankAt c b)) })

/-! ### Activation counting (R347) -/

/-- A count that has reached T waits for its RFM. -/
def addDue (k : Bank) (t n code : Nat) : Bank := if t ≤ n then { k with due := addOnce k.due code } else k

/-- An activation of a row is counted: in its entry, in a free one of 512, or in the pool of its 1,024 rows. -/
def countRow (t row : Nat) (k : Bank) : Bank :=
  match mget k.rows row with
  | some n => addDue { k with rows := mput k.rows row (n + 1) } t (n + 1) (2 * row)
  | none =>
    if k.rows.length < 512 then addDue { k with rows := mput k.rows row 1 } t 1 (2 * row)
    else
      let g := row / 1024
      let n := mgetD k.pools g 0 + 1
      addDue { k with pools := mput k.pools g n } t n (2 * g + 1)

/-- The physical row of a row of a bank: the spare it is mapped to (R344). Spare rows lie beyond the 65,536 of the bank
(DESIGN CHOICE, log entry 79). -/
def physRow (c : Channel) (b row : Nat) : Nat :=
  match mget c.remap (65536 * b + row) with
  | some spare => 65536 + spare
  | none => row

/-! ### Requests (R321, R323, R347, R349) -/

/-- A request may go: its bank is not held and has no RFM due; in a pause whatever is due. -/
def mayGo (c : Channel) (r : Nat × Bool) : Bool :=
  let k := bankAt c (bankOf r.1)
  !k.held && (c.paused || k.due.isEmpty)

/-- The requests that may be served: in a pause those already queued when it began, which stand first (R345). -/
def served (c : Channel) : List (Nat × Bool) := if c.paused then c.queue.take c.drain else c.queue

/-- Removes the first element that meets a test. -/
def dropFirst {α : Type} (p : α → Bool) : List α → List α
  | [] => []
  | a :: l => if p a then l else a :: dropFirst p l

/-- The bucket of a latency (R349). -/
def latencyBucket (ns : Nat) : Nat := min 15 (Nat.log2 (max 1 ns))

/-- The DQ lanes that a burst lost: burst 0 as lanes 0 to 63, burst 1 as 64 to 127. -/
def lostIn (lanes : List Nat) (burst : Nat) : List Nat :=
  (lanes.filter (fun l => l / 64 == burst)).foldl (fun l x => addOnce l (x % 64)) []

/-- The check of one burst of a read (R321, R323): the loss of one lane is corrected and counted; more poison every part
of the burst. -/
def checkBurst (ch line : Nat) (lanes : List Nat) (s : State) (burst : Nat) : State :=
  match lostIn lanes burst with
  | [] => s
  | [l] => modChan (countCorrected s (.hbm ch)) ch (fun c => { c with corrected := mput c.corrected l (mgetD c.corrected l 0 + 1) })
  | _ => addPoison s line (BitVec.ofNat 8 (0xF * 16 ^ burst))

/-- The channel completes a request. -/
def completeRequest (s : State) (ch : Nat) (activates : Bool) (ns : Nat) (lanes : List Nat) : State :=
  let c := chanOf s ch
  match (served c).find? (mayGo c) with
  | none => s
  | some r =>
    let b := bankOf r.1
    let s1 := modChan s ch (fun c => { c with
      queue := dropFirst (mayGo c) c.queue, drain := c.drain - c.paused.toNat
      lat := sput c.lat (latencyBucket ns) (sget c.lat (latencyBucket ns) + 1) })
    let s2 := if activates then modBank s1 ch b (countRow (rowThreshold s ch) (physRow c b (rowOf r.1))) else s1
    if r.2 then s2 else [0, 1].foldl (checkBurst ch (r.1 / 128) lanes) s2

/-- HBM_REQUEST (R347): the first request that may go completes `ns` after its arrival, activating its row or not, with
the DQ lanes it lost. A channel that is not ready completes none (R431). -/
def execHbmRequest (channel : Nat) (activates : Bool) (ns : Nat) (lanesLost : List Nat) (s : State) : Out :=
  stepEvent s (fun s => if channelReady s channel then completeRequest s channel activates ns lanesLost else s)

/-! ### Directed RFM (R348, R349) -/

/-- The least number of a list. -/
def leastOf : List Nat → Option Nat
  | [] => none
  | a :: l => match leastOf l with | some b => some (min a b) | none => some a

/-- The due count served first: rows before pools, lower rows first. -/
def nextDue (k : Bank) : Option Nat :=
  match leastOf (k.due.filter (· % 2 == 0)) with
  | some n => some n
  | none => leastOf k.due

/-- RFM_THRESHOLD (R348): the count becomes 0, an alert is logged, and the bank's requests are held. During a pause it
waits for the resumption. -/
def execRfmThreshold (channel bank : Nat) (s : State) : Out :=
  stepEvent s (fun s =>
    let c := chanOf s channel
    let k := bankAt c bank
    if c.paused || k.held then s
    else
      match nextDue k with
      | none => s
      | some n =>
        let s1 := modBank s channel bank (fun k => { k with
          due := k.due.filter (· != n), held := true
          rows := if n % 2 = 0 then mput k.rows (n / 2) 0 else k.rows
          pools := if n % 2 = 0 then k.pools else mput k.pools (n / 2) 0 })
        logEvent s1 "RFM" [channel / 32, channel % 32, bank, n / 2, n % 2])

/-- RFM_HOLD_END (R348, R349): the hold, of `ns`, is over and counted. -/
def execRfmHoldEnd (channel bank ns : Nat) (s : State) : Out :=
  stepEvent s (fun s =>
    if (bankAt (chanOf s channel) bank).held then
      modBank s channel bank (fun k => { k with
        held := false, holds := k.holds + 1, heldNs := k.heldNs + BitVec.ofNat 32 ns })
    else s)

/-- REFRESH_WINDOW_END (R347): every entry is freed and every pool counter is zero. An RFM that fell due stays due (R348). -/
def execRefreshWindowEnd (channel bank : Nat) (s : State) : Out :=
  stepEvent s (fun s => modBank s channel bank (fun k => { k with rows := [], pools := [] }))

/-! ### Repair (R344, R345) -/

/-- ROW_REMAP (R344): 64 entries for each bank group; a further row marks the channel degraded. `row` names the row of the
bank group: 65,536 × bank within the group + row of that bank (R346). -/
def execRowRemap (channel group row spare : Nat) (s : State) : Out :=
  stepEvent s (fun s =>
    let key := 262144 * group + row
    let m := (chanOf s channel).remap
    if (mget m key).isNone && 64 ≤ (m.filter (fun e => e.1 / 262144 == group)).length then degradeChannel s channel
    else
      logEvent (modChan s channel (fun c => { c with remap := mput c.remap key spare })) "ROW_REMAP"
        [channel, group, row, spare])

/-- DQ_REPAIR (R345): the channel pauses and drains, unless the lane's group has no spare left. -/
def execDqRepair (channel lane : Nat) (s : State) : Out :=
  stepEvent s (fun s =>
    let c := chanOf s channel
    if (mget c.spares (lane / 16)).isSome then degradeChannel s channel
    else if c.paused then s
    else modChan s channel (fun c => { c with paused := true, drain := c.queue.length, repairing := some lane }))

/-- The channel resumes, on the new mapping or the old one. -/
def resumeChannel (s : State) (ch : Nat) (spares : Amap Nat) : State :=
  modChan s ch (fun c => { c with paused := false, drain := 0, repairing := none, spares })

/-- RETRAIN_COMPLETE (R345): the failed lane is steered onto its group's spare. -/
def execRetrainComplete (channel : Nat) (s : State) : Out :=
  stepEvent s (fun s =>
    let c := chanOf s channel
    match c.repairing with
    | none => s
    | some l =>
      if c.drain ≠ 0 then s
      else logEvent (resumeChannel s channel (mput c.spares (l / 16) l)) "PIN_REPAIR" [channel, l])

/-- PIN_REPAIR_TIMEOUT (R345): the channel resumes on the old mapping, and Mantle logs a failed repair. -/
def execPinRepairTimeout (channel : Nat) (s : State) : Out :=
  stepEvent s (fun s =>
    let c := chanOf s channel
    match c.repairing with
    | none => s
    | some l => logEvent (resumeChannel s channel c.spares) "PIN_REPAIR_FAILED" [channel, l])

end Sys2Proof.Machine
end

