-- ==== Sys2Proof/Machine/Integer.lean ====
section
/-!
DEFINITION. Integer, logic, shift, bit-field, address and move instructions: majors 0x10 to 0x18 (spec/11 R177
to R193, spec/05 R83, R84, R92, R93).
-/
namespace Sys2Proof.Machine

/-! ### Values -/

/-- A number from its bits. -/
def fromBits (n : Nat) (f : Nat → Bool) : BitVec 64 :=
  BitVec.ofNat 64 ((List.range n).foldl (fun m k => m + (f k).toNat * 2 ^ k) 0)

/-- Truncating division and its remainder, with the edges of Table 5.9 (R92). -/
def divRem (signed : Bool) (w : Nat) (a b : Int) : Int × Int :=
  if b = 0 then (if signed then (if 0 ≤ a then -1 else 1) else (2 ^ w : Nat) - 1, a)
  else (a.tdiv b, a.tmod b)

/-- An operation on two exact values of a plain integer type, keeping the low bits. -/
def mapPlain (ty : Ty) (f : Int → Int → Int) (a b : BitVec 64) : BitVec 64 :=
  BitVec.ofNat 64 (wrapTo ty.elemBits (f (toInt ty a) (toInt ty b)))

/-- An operation on three exact values of a plain integer type (R178, R180). -/
def mapPlain3 (ty : Ty) (sat : Bool) (f : Int → Int → Int → Int) (a b c : BitVec 64) : BitVec 64 :=
  BitVec.ofNat 64 (intResult sat ty.isSigned ty.elemBits (f (toInt ty a) (toInt ty b) (toInt ty c)))

/-- IMADW: a 32-bit product and a 64-bit addend (R180). -/
def madWide (ty : Ty) (sat : Bool) (a b c : BitVec 64) : BitVec 64 :=
  BitVec.ofNat 64 (intResult sat ty.isSigned 64 (toInt ty a * toInt ty b + elemVal ty.isSigned 64 c.toNat))

/-- The sum of IADDC with its carry out (R179). -/
def addCarry (w : Nat) (sub cin : Bool) (a b : BitVec 64) : BitVec 64 × Bool :=
  let x := a.toNat % 2 ^ w
  let y := b.toNat % 2 ^ w
  let t := x + (if sub then 2 ^ w - 1 - y else y) + cin.toNat
  (BitVec.ofNat 64 (t % 2 ^ w), 2 ^ w ≤ t)

/-- A condition of Table 11.2. -/
def intCond (cc : Nat) (a b : Int) : Bool :=
  match cc with
  | 0 => a == b
  | 1 => a != b
  | 2 => a < b
  | 3 => a ≤ b
  | 4 => b < a
  | _ => b ≤ a

/-- LOGIC3: bit k is the bit of LUT that the three source bits name (R185). -/
def logic3 (lut w : Nat) (a b c : BitVec 64) : BitVec 64 :=
  fromBits w (fun k => bits lut (4 * (a.getLsbD k).toNat + 2 * (b.getLsbD k).toNat + (c.getLsbD k).toNat) 1 == 1)

/-- The shift instructions: 0 SHL, 1 SHR, 2 SAR, 3 ROL, 4 ROR (R186). -/
def shiftVal (kind w : Nat) (a b : BitVec 64) : BitVec 64 :=
  let n := b.toNat % 2 ^ 32
  let v := a.toNat % 2 ^ w
  match kind with
  | 0 => if w ≤ n then 0 else BitVec.ofNat 64 (v * 2 ^ n % 2 ^ w)
  | 1 => if w ≤ n then 0 else BitVec.ofNat 64 (v / 2 ^ n)
  | 2 => BitVec.ofNat 64 (wrapTo w (elemVal true w v / (2 ^ min n w : Nat)))
  | 3 => let r := n % w; BitVec.ofNat 64 ((v * 2 ^ r % 2 ^ w) + v / 2 ^ (w - r))
  | _ => let r := n % w; BitVec.ofNat 64 ((v / 2 ^ r) + v * 2 ^ (w - r) % 2 ^ w)

/-- SHF: a window of the ring of a and b (R187). -/
def funnel (left : Bool) (w : Nat) (a b c : BitVec 64) : BitVec 64 :=
  let n := c.toNat % 2 ^ 32
  let p := if left then (w + 2 * w - n % (2 * w)) % (2 * w) else n % (2 * w)
  fromBits w (fun k =>
    let i := (p + k) % (2 * w)
    if i < w then b.getLsbD i else a.getLsbD (i - w))

/-- BitExtract (R93). -/
def bitExtract (a : BitVec 64) (w o : Nat) (signed : Bool) (wd : Nat) : BitVec 64 :=
  let at_ (j : Nat) : Bool := if o + j < wd then a.getLsbD (o + j) else signed && a.getLsbD (wd - 1)
  if w = 0 then 0
  else fromBits wd (fun j => if j < min w wd then at_ j else signed && at_ (w - 1))

/-- BitInsert (R93). -/
def bitInsert (d a : BitVec 64) (w o wd : Nat) : BitVec 64 :=
  fromBits wd (fun i => if o ≤ i ∧ i < o + w then a.getLsbD (i - o) else d.getLsbD i)

/-- The number of one bits. -/
def popCount (w : Nat) (a : BitVec 64) : Nat := ((List.range w).filter (fun i => a.getLsbD i)).length
/-- Zero bits above the highest one. -/
def leadZeros (w : Nat) (a : BitVec 64) : Nat :=
  (((List.range w).reverse).takeWhile (fun i => !a.getLsbD i)).length
/-- Zero bits below the lowest one. -/
def trailZeros (w : Nat) (a : BitVec 64) : Nat := ((List.range w).takeWhile (fun i => !a.getLsbD i)).length

/-- PERMB (R190). -/
def permuteBytes (a b c : BitVec 64) : BitVec 64 :=
  let pool (i : Nat) : Nat := if i < 4 then bits a.toNat (8 * i) 8 else bits b.toNat (8 * (i - 4)) 8
  let rev (n : Nat) : Nat := (List.range 8).foldl (fun m k => m + bits n k 1 * 2 ^ (7 - k)) 0
  let byte (j : Nat) : Nat :=
    let k := bits c.toNat (8 * j) 8
    match bits k 3 2 with
    | 0 => pool (bits k 0 3)
    | 1 => 0
    | 2 => 0xFF
    | _ => rev (pool (bits k 0 3))
  BitVec.ofNat 64 ((List.range 4).foldl (fun n j => n + byte j * 2 ^ (8 * j)) 0)

/-- LEA (R191). -/
def leaVal (ty : Ty) (sh : Nat) (a b : BitVec 64) : BitVec 64 :=
  a + BitVec.ofInt 64 (toInt ty b * (2 ^ sh : Nat))

/-! ### Major 0x10 -/

/-- IADD (R178). -/
def execIadd (x : Enc) (s : State) : Out :=
  issue .iadd x s (writeD .ty (fun c l => mapInt x.ty x.sat (· + ·) (srcA c l) (srcB c l)))

/-- ISUB (R178). -/
def execIsub (x : Enc) (s : State) : Out :=
  issue .isub x s (writeD .ty (fun c l => mapInt x.ty x.sat (· - ·) (srcA c l) (srcB c l)))

/-- IADD3 (R178). -/
def execIadd3 (x : Enc) (s : State) : Out :=
  issue .iadd3 x s (writeD .ty (fun c l => mapPlain3 x.ty x.sat (fun a b d => a + b + d) (srcA c l) (srcB c l) (srcC c l)))

/-- The carry in of a lane (R179). -/
def carryIn (c : Iss) (l : Nat) : Bool := xor (predOperand c.g l c.x.c) (c.x.bit 1)

/-- IADDC's sum and carry in a lane. -/
def iaddcAt (c : Iss) (l : Nat) (cin : Bool) : BitVec 64 × Bool :=
  addCarry c.x.ty.elemBits (c.x.bit 0) cin (srcA c l) (srcB c l)

/-- The values a uniform instruction writes in its copies: where the lanes of a split disagree on a predicate
that the value depends on, the spec names no lane, and which of the two values is written is free (log entry 9). -/
def uniformChoice (c : Iss) (s : State) (y : Operand) (f : Nat → Bool → BitVec 64) : (Nat → BitVec 64) × State :=
  ((copiesOf c.g).foldl (fun (r : (Nat → BitVec 64) × State) k =>
    match sharedPred c k y with
    | some b => (fun i => if i = k then f k b else r.1 i, r.2)
    | none =>
      let (v, s1) := draw r.2
      (fun i => if i = k then f k (v.getLsbD 0) else r.1 i, s1)) (fun _ => 0, s))

/-- The effect of IADDC: D, and the carry in p[e] of each active lane (R179). DESIGN CHOICE (log entry 88): the uniform form
writes p[e] in every active lane from that lane's own p[c], while D is one value, that of either carry where the lanes' carries differ. -/
def iaddcBody (c : Iss) (s : State) : State :=
  let carries := putPredE c (fun l => (iaddcAt c l (carryIn c l)).2)
  match c.x.d with
  | .s i =>
    let (f, s1) := uniformChoice c s c.x.c (fun k b => (iaddcAt c (laneOfCopy c.g k) (xor b (c.x.bit 1))).1)
    advance (onGroup s1 c (fun g => carries (putScalar g i.toNat (fun k => scalarResult c.x .ty (f k))))) c
  | _ => advance (onGroup s c (fun g => carries (putD c .ty (fun l => (iaddcAt c l (carryIn c l)).1) g))) c

/-- IADDC (R179). -/
def execIaddc (x : Enc) (s : State) : Out := issue .iaddc x s iaddcBody

/-- INEG (R178). -/
def execIneg (x : Enc) (s : State) : Out :=
  issue .ineg x s (writeD .ty (fun c l => mapInt x.ty x.sat (fun a _ => -a) (srcA c l) 0))

/-- IABS (R178). -/
def execIabs (x : Enc) (s : State) : Out :=
  issue .iabs x s (writeD .ty (fun c l => mapInt x.ty x.sat (fun a _ => (a.natAbs : Int)) (srcA c l) 0))

/-! ### Majors 0x11 and 0x12 -/

/-- IMUL (R180). -/
def execImul (x : Enc) (s : State) : Out :=
  issue .imul x s (writeD .ty (fun c l => mapInt x.ty x.sat (· * ·) (srcA c l) (srcB c l)))

/-- IMULH (R180). -/
def execImulh (x : Enc) (s : State) : Out :=
  issue .imulh x s (writeD .ty (fun c l =>
    mapPlain x.ty (fun a b => a * b / (2 ^ x.ty.elemBits : Nat)) (srcA c l) (srcB c l)))

/-- IMAD (R180). -/
def execImad (x : Enc) (s : State) : Out :=
  issue .imad x s (writeD .ty (fun c l => mapPlain3 x.ty x.sat (fun a b d => a * b + d) (srcA c l) (srcB c l) (srcC c l)))

/-- IMADW (R180): C and D are 64 bits wide. -/
def execImadw (x : Enc) (s : State) : Out :=
  issue .imadw x s (writeD .two (fun c l =>
    madWide x.ty x.sat (srcA c l) (srcB c l) (readOperand c.g x .two l x.c)))

/-- IDIV (R181, R92). -/
def execIdiv (x : Enc) (s : State) : Out :=
  issue .idiv x s (writeD .ty (fun c l =>
    mapPlain x.ty (fun a b => (divRem x.ty.isSigned x.ty.elemBits a b).1) (srcA c l) (srcB c l)))

/-- IREM (R181, R92). -/
def execIrem (x : Enc) (s : State) : Out :=
  issue .irem x s (writeD .ty (fun c l =>
    mapPlain x.ty (fun a b => (divRem x.ty.isSigned x.ty.elemBits a b).2) (srcA c l) (srcB c l)))

/-! ### Major 0x13 -/

/-- IMIN (R182). -/
def execImin (x : Enc) (s : State) : Out :=
  issue .imin x s (writeD .ty (fun c l => mapInt x.ty false (fun a b => if b < a then b else a) (srcA c l) (srcB c l)))

/-- IMAX (R182). -/
def execImax (x : Enc) (s : State) : Out :=
  issue .imax x s (writeD .ty (fun c l => mapInt x.ty false (fun a b => if a < b then b else a) (srcA c l) (srcB c l)))

/-- ICMP's predicate in a lane (R183). -/
def icmpAt (c : Iss) (l : Nat) : Bool :=
  combine (c.x.bits 22 2) (intCond (c.x.bits 0 3) (toInt c.x.ty (srcA c l)) (toInt c.x.ty (srcB c l)))
    (predOperand c.g l c.x.c)

/-- ICMP (R183). -/
def execIcmp (x : Enc) (s : State) : Out :=
  issue .icmp x s (fun c s => advance (onGroup s c (putPredD c (icmpAt c))) c)

/-- The effect of SEL (R184). -/
def selBody (c : Iss) (s : State) : State :=
  match c.x.d with
  | .s i =>
    let (f, s1) := uniformChoice c s c.x.c (fun k b =>
      if b then srcA c (laneOfCopy c.g k) else srcB c (laneOfCopy c.g k))
    advance (onGroup s1 c (fun g => putScalar g i.toNat (fun k => scalarResult c.x .ty (f k)))) c
  | _ => writeD .ty (fun c l => if predOperand c.g l c.x.c then srcA c l else srcB c l) c s

/-- SEL (R184). -/
def execSel (x : Enc) (s : State) : Out := issue .sel x s selBody

/-! ### Majors 0x14 to 0x16 -/

/-- LOGIC3 (R185). -/
def execLogic3 (x : Enc) (s : State) : Out :=
  issue .logic3 x s (writeD .ty (fun c l => logic3 (x.bits 0 8) x.ty.elemBits (srcA c l) (srcB c l) (srcC c l)))

/-- SHL (R186). -/
def execShl (x : Enc) (s : State) : Out :=
  issue .shl x s (writeD .ty (fun c l => shiftVal 0 x.ty.elemBits (srcA c l) (srcB c l)))
/-- SHR (R186). -/
def execShr (x : Enc) (s : State) : Out :=
  issue .shr x s (writeD .ty (fun c l => shiftVal 1 x.ty.elemBits (srcA c l) (srcB c l)))
/-- SAR (R186). -/
def execSar (x : Enc) (s : State) : Out :=
  issue .sar x s (writeD .ty (fun c l => shiftVal 2 x.ty.elemBits (srcA c l) (srcB c l)))
/-- ROL (R186). -/
def execRol (x : Enc) (s : State) : Out :=
  issue .rol x s (writeD .ty (fun c l => shiftVal 3 x.ty.elemBits (srcA c l) (srcB c l)))
/-- ROR (R186). -/
def execRor (x : Enc) (s : State) : Out :=
  issue .ror x s (writeD .ty (fun c l => shiftVal 4 x.ty.elemBits (srcA c l) (srcB c l)))

/-- SHF (R187). -/
def execShf (x : Enc) (s : State) : Out :=
  issue .shf x s (writeD .ty (fun c l => funnel (x.bit 0) x.ty.elemBits (srcA c l) (srcB c l) (srcC c l)))

/-- BFX (R188, R93): offset B, width C. -/
def execBfx (x : Enc) (s : State) : Out :=
  issue .bfx x s (writeD .ty (fun c l =>
    bitExtract (srcA c l) (bits (srcC c l).toNat 0 6) (bits (srcB c l).toNat 0 6) x.ty.isSigned x.ty.elemBits))

/-- BFI (R188, R93): D is read as well. -/
def execBfi (x : Enc) (s : State) : Out :=
  issue .bfi x s (writeD .ty (fun c l =>
    bitInsert (oldD c l) (srcA c l) (bits (srcC c l).toNat 0 6) (bits (srcB c l).toNat 0 6) x.ty.elemBits))

/-- POPC (R189). -/
def execPopc (x : Enc) (s : State) : Out :=
  issue .popc x s (writeD .one (fun c l => BitVec.ofNat 64 (popCount x.ty.elemBits (srcA c l))))
/-- CLZ (R189). -/
def execClz (x : Enc) (s : State) : Out :=
  issue .clz x s (writeD .one (fun c l => BitVec.ofNat 64 (leadZeros x.ty.elemBits (srcA c l))))
/-- CTZ (R189). -/
def execCtz (x : Enc) (s : State) : Out :=
  issue .ctz x s (writeD .one (fun c l => BitVec.ofNat 64 (trailZeros x.ty.elemBits (srcA c l))))
/-- BREV (R189). -/
def execBrev (x : Enc) (s : State) : Out :=
  issue .brev x s (writeD .ty (fun c l =>
    fromBits x.ty.elemBits (fun j => (srcA c l).getLsbD (x.ty.elemBits - 1 - j))))
/-- PERMB (R190). -/
def execPermb (x : Enc) (s : State) : Out :=
  issue .permb x s (writeD .ty (fun c l => permuteBytes (srcA c l) (srcB c l) (srcC c l)))

/-! ### Majors 0x17 and 0x18 -/

/-- LEA (R191): D and A are 64 bits wide. -/
def execLea (x : Enc) (s : State) : Out :=
  issue .lea x s (writeD .two (fun c l => leaVal x.ty (x.bits 0 3) (readOperand c.g x .two l x.a) (srcB c l)))

/-- MOV (R192). -/
def execMov (x : Enc) (s : State) : Out := issue .mov x s (writeD .ty (fun c l => srcA c l))

/-- MOVI (R192). -/
def execMovi (x : Enc) (s : State) : Out :=
  issue .movi x s (writeD .ty (fun _ _ => BitVec.ofNat 64 (x.imm.toNat * 2 ^ (16 * x.bits 0 2))))

/-- MOVH (R192): D is read as well. -/
def execMovh (x : Enc) (s : State) : Out :=
  issue .movh x s (writeD .ty (fun c l =>
    bitInsert (oldD c l) (BitVec.ofNat 64 x.imm.toNat) 16 (16 * x.bits 0 2) x.ty.elemBits))

/-- I2I (R193, R83): A is read as STYPE. -/
def execI2i (x : Enc) (s : State) : Out :=
  issue .i2i x s (writeD .ty (fun c l =>
    BitVec.ofNat 64 (intResult x.sat x.ty.isSigned x.ty.elemBits (toInt x.sty (readOperand c.g x .sty l x.a)))))

end Sys2Proof.Machine
end

