-- ==== Sys2Proof/Machine/Sage.lean ====
section
/-!
DEFINITION. Sageip's start and its move to another core (R425), and the vacating of cores and blocks that Mantle takes
out of placement (R29, R30, R342).
-/
namespace Sys2Proof.Machine
open Sys2Proof

/-! ### Where Sageip runs (R425) -/

/-- The active core with the lowest logical number in the partition's lowest-numbered ready cluster. -/
def sageCore (s : State) (p : Nat) : Option Nat :=
  ((bitsOf (partOf s p).clusters).filter (fun k => clusterReady s k && !(clusterOf s k).quarantined)).findSome? (fun k =>
    ((clusterOf s k).map.find? (fun e => !(coreOf s (9 * k + e.2)).retired && !(coreOf s (9 * k + e.2)).inTest)).map
      (fun e => 9 * k + e.2))

/-- Registers of a Sageip group: all that an instruction can name (the spec gives no number; log entry 5). -/
def sageVregs : Nat := 256
def sageSregs : Nat := 64

/-- A place on each side of a core, where pocket 15 is free too. -/
def sageSpots (s : State) (p core : Nat) : Option (Spot × Spot) :=
  let u := useOf s core p 0
  let xs := spotsFor u 4 sageVregs
  match xs.find? (fun x => x.1 == 0), xs.find? (fun x => x.1 == 1) with
  | some a, some b => if u.others + u.own ≤ 15 then some (a, b) else none
  | _, _ => none

/-- The highest-numbered half-stack of a partition. -/
def topHalfStack (s : State) (p : Nat) : Nat := ((bitsOf (partOf s p).halfStacks).getLast?).getD 0
/-- Sageip's memory: the top 256 MiB of that half-stack, and the virtual address it is mapped at. -/
def sageBase (s : State) (p : Nat) : Nat := 2 ^ 35 * (topHalfStack s p + 1) - 2 ^ 28
def sageVa : BitVec 64 := 0xFFFFFFFFF0000000

/-! ### Context 0 (R107, R108, R425) -/

/-- A table entry that points to a table. -/
def tableEntry (p pa : Nat) : Nat := pa / 2 ^ 13 * 2 ^ 13 + p * 2 ^ 10 + 1
/-- A leaf with R, W and the given X and CPOL. -/
def leafEntry (p pa x cpol : Nat) : Nat := pa / 2 ^ 13 * 2 ^ 13 + p * 2 ^ 10 + cpol * 2 ^ 7 + x * 2 ^ 4 + 2 ^ 3 + 2 ^ 2 + 2 + 1

/-- A table is written: zero but for its entries. -/
def writeTable (s : State) (pa : Nat) (es : List (Nat × Nat)) : State :=
  es.foldl (fun st e => writeHome st (pa + 8 * e.1) (leBytes 8 e.2)) (writeHome s pa (List.replicate 8192 0))

/-- The management window's address (Table 27.1). -/
def windowBase (p : Nat) : Nat := 2 ^ 40 + p * 2 ^ 20

/-- Mantle's tables for context 0: Sageip's memory as four leaves of 64 MiB, the window as sixteen pages of 64 KiB. -/
def writeSageTables (s : State) (p : Nat) : State :=
  let base := sageBase s p
  let t (i : Nat) : Nat := base + 8192 * (Config.sageTables p % 32765 + i)
  let w := Config.windowSlot p % 1020
  let s1 := writeTable s (t 0) [(1023, tableEntry p (t 1))]
  let s2 := writeTable s1 (t 1) [(1023, tableEntry p (t 2))]
  let s3 := writeTable s2 (t 2) ((w, tableEntry p (t 3)) :: (List.range 4).map (fun i =>
    (1020 + i, leafEntry p (base + 2 ^ 26 * i) 1 0)))
  let s4 := writeTable s3 (t 3) ((List.range 16).map (fun i => (i, leafEntry p (windowBase p + 2 ^ 16 * i) 0 2)))
  modPart s4 p (fun q => { q with
    ctx := (List.range 7).foldl (fun m i => sput m (1 + i) 0) (sput q.ctx 0 (BitVec.ofNat 64 (t 0 + 1))) })

/-! ### The image and the start (R351, R425, R428) -/

/-- The active firmware bank. -/
def activeBank (m : Mantle) : FwBank := if m.activeB then m.bankB else m.bankA

/-- The Sageip image of a bank: its code words, their number and its vector word, where it passes its checks. -/
def sageImage (b : FwBank) : Option (Store 128 × Nat × Word) :=
  let at_ (i : Nat) : Word := BitVec.ofNat 128 (fieldAt b.image (16 * i) 16)
  match descWords 0xFFF (at_ 0) with
  | none => none
  | some n =>
    let m := (List.range n).foldl (fun (m : Store 128) i => sput m i (at_ (i + 1))) []
    if 1024 < n || !imageOk m n 0xFFF || !vectorOk m n (at_ (n + 1)) then none else some (m, n, at_ (n + 1))

/-- The entry of Sageip's overlay in pocket 15. -/
def sageEntry (p : Nat) (x : Store 128 × Nat × Word) : DirEntry :=
  { part := p, ctx := 0, id := 0xFFF, st := .resident, first := 15, count := 1, words := x.1, len := x.2.1, image := 0
    root := true, vec := x.2.2 }

/-- The launch fields of Sageip's team. -/
def sageLaunch : Launch :=
  { width := 16, groups := 2, vregs := sageVregs, sregs := sageSregs, pockets := 0, roles := [.system, .system] }

/-- One Sageip group at its place: role system, s0 the partition, s1 the base of Sageip's memory. -/
def sageGroup (p tid index core : Nat) (serial : BitVec 64) (x : Spot) (clk : Nat) : Group :=
  let g : Group :=
    { serial, part := p, ctx := 0, team := tid, index, core, side := x.1, slot := x.2.1, slice0 := x.2.2, slices := 4
      width := 16, lined := false, role := .system, sageip := true, nv := sageVregs, ns := sageSregs
      priv := sageVa + BitVec.ofNat 64 (4096 * (Config.sagePriv p index % 65536)), privSize := 4096
      live := maskBelow 16, splits := [(0, { pc := mkPc 0xFFF 0, mask := maskBelow 16, age := clk + 1 })] }
  srset (srset g 0 0 (BitVec.ofNat 64 p)) 0 1 sageVa

/-- Sageip's groups of a partition are in place. -/
def hasSage (s : State) (p : Nat) : Bool := s.groups.any (fun e => e.2.part == p && e.2.sageip)

/-- Mantle starts Sageip of a STOPPED partition (R425), once a cluster is ready; every queue is disabled. -/
def startSageip (s : State) (p : Nat) : State :=
  let q := partOf s p
  if q.clusters = 0 || q.state ≠ 2 || hasSage s p then s
  else
    match sageImage (activeBank s.mantle), sageCore s p with
    | some img, some core =>
      match sageSpots s p core with
      | none => s
      | some (a, b) =>
        let s1 := writeSageTables s p
        let s2 := modCore s1 core (fun c => { c with dir := sageEntry p img :: c.dir })
        let tid := s2.nextTid
        let (n0, s3) := freshSerial s2 p
        let (n1, s4) := freshSerial s3 p
        let team : Team :=
          { part := p, ctx := 0, queue := none, prio := 0, launchId := 0, launch := sageLaunch, teamid := 0, gridid := 0
            home := core, partner := none, placedAt := s.clk }
        let s5 := { s4 with
          teams := mput s4.teams tid team, nextTid := tid + 1, nextGid := s4.nextGid + 2
          groups := mput (mput s4.groups s4.nextGid (sageGroup p tid 0 core n0 a s.clk)) (s4.nextGid + 1)
            (sageGroup p tid 1 core n1 b s.clk) }
        logEvent (modPart s5 p (fun q => { q with
          state := 0
          queues := q.queues.map (fun e => (e.1, { e.2 with w1 := e.2.w1 &&& ~~~ (bitMask 63) })) })) "SAGEIP_START" [p, core]
    | _, _ => s

/-! ### Placing a group again (R241, R287, R365) -/

/-- A group as its cloak of NV = `nv` and NS = `ns` brings it back at a place of a core: registers at or above them
read 0 and are full, one copy of a lined group goes to both, and a wait for a monitor completes at once. -/
def reseat (g : Group) (nv ns core : Nat) (x : Spot) (clk : Nat) : Group :=
  let both {w : Nat} (m : Store w) (n stride : Nat) : Store w :=
    if g.lined then m.foldl (fun r e => if e.1 % stride < n then sput r (e.1 + n) e.2 else r) m else m
  let ready (sp : Split) : Split :=
    { sp with wait := (match sp.wait with | .mon _ _ => .resumed | w => w), age := clk + 1, readyAt := 0 }
  { g with
    core, side := x.1, slot := x.2.1, slice0 := x.2.2, stopped := false, inj := none
    vregs := both ((g.vregs.filter (fun e => e.1 / 64 < nv && (!g.lined || e.1 % 64 < g.width)))) g.width 64
    sregs := both ((g.sregs.filter (fun e => e.1 % 64 < ns && (!g.lined || e.1 < 64)))) 64 128
    preds := both (g.preds.filter (fun e => !g.lined || e.1 < g.width)) g.width 64
    fpflagsSh := if g.lined then g.fpflags else g.fpflagsSh
    empty := g.empty.filter (· < nv), damaged := g.damaged.filter (savedReg nv ns)
    splits := g.splits.map (fun e => (e.1, ready e.2)), ovf := g.ovf.map ready
    aside := g.aside.map (fun a => { a with splits := a.splits.map (fun e => (e.1, ready e.2)), ovf := a.ovf.map ready }) }

/-! ### Vacating cores (R29, R30, R342) -/

/-- A group has a slice of a retired block. -/
def onRetired (s : State) (g : Group) : Bool :=
  (coreOf s g.core).blocks.any (fun b => b / 2 == g.side && 8 * (b % 2) < g.slice0 + g.slices && g.slice0 < 8 * (b % 2) + 8)

/-- A core that may hold no work. -/
def barredCore (s : State) (c : Nat) : Bool :=
  (coreOf s c).retired || (coreOf s c).inTest || (clusterOf s (clusterOfCore c)).quarantined

/-- A team must leave its place. -/
def mustLeave (s : State) (e : Nat × Team) : Bool :=
  (coresOf e.2).any (barredCore s) || s.groups.any (fun g => g.2.team == e.1 && g.2.job.isNone && onRetired s g.2)

/-- The team of Sageip. -/
def isSageTeam (s : State) (tid : Nat) : Bool := s.groups.any (fun e => e.2.team == tid && e.2.sageip)

/-- The teams that a request of Mantle's stops: those that must leave with those that stop with them, as far as their
context's save area holds them (R362). -/
def leavers (s : State) (p : Nat) : List Nat :=
  let free (e : Nat × Team) : Bool :=
    e.2.part == p && !e.2.held && !isSageTeam s e.1 && !(partOf s p).preempts.any (fun q => q.victims.contains e.1)
  (s.teams.filter (fun e => free e && mustLeave s e)).foldl (fun (l : List Nat) e =>
    let l' := stopClosure s s.teams.length (if l.contains e.1 then l else l ++ [e.1])
    let ofCtx := l'.filter (fun i => match mget s.teams i with | some t => t.ctx == e.2.ctx | none => false)
    if saveFree s p e.2.ctx < saveNeed s ofCtx then l else l') []

/-- Sageip's groups are moved: once R247 holds of both, their cloaks are written, a core is chosen by the rule of their
start, and they go on there with their memory unchanged (R425). -/
def moveSageip (s : State) (p : Nat) : State :=
  match s.groups.filter (fun e => e.2.part == p && e.2.sageip) with
  | [] => s
  | (i, g) :: rest =>
    let stop (s : State) : State := tellStop s g.team
    let gs := (i, g) :: rest
    if !gs.all (fun e => quiet s e.1 e.2) then stop s
    else
      match sageCore s p, (coreOf s g.core).dir.find? (fun e => e.part == p && e.ctx == 0 && e.first == 15) with
      | some core, some ov =>
        match sageSpots (withoutTeams s [g.team]) p core with
        | none => stop s
        | some (a, b) =>
          let s1 := l1WriteBackAll s g.core
          let s2 := modCore s1 g.core (fun c => { c with dir := c.dir.filter (fun e => !(e.part == p && e.ctx == 0 && e.first == 15)) })
          let s3 := modCore (l1DropClean s2 core) core (fun c => { c with dir := ov :: c.dir })
          let s4 := gs.foldl (fun st e =>
            let (nv, ns) := cloakLive s e.2
            modGroup st e.1 (fun g => reseat g nv ns core (if g.side = 0 then a else b) s.clk)) s3
          modTeam s4 g.team (fun t => { t with home := core })
      | _, _ => stop s

/-- Mantle clears cores and blocks that hold no work any more: their teams are pre-empted, and Sageip's groups moved. -/
def vacate (s : State) (p : Nat) : State :=
  let vs := leavers s p
  let s1 :=
    if vs.isEmpty then s
    else addRequest s p { launchId := 0, prio := 0, victims := vs }
  if s1.groups.any (fun e => e.2.part == p && e.2.sageip && (barredCore s1 e.2.core || onRetired s1 e.2)) then
    moveSageip s1 p
  else s1

/-- The partition that owns a cluster (R414). -/
def clusterOwner (s : State) (k : Nat) : Option Nat := (List.range 8).find? (fun p => (partOf s p).clusters.getLsbD k)

/-- Mantle clears what it must of a cluster's partition. -/
def vacateCluster (s : State) (k : Nat) : State :=
  match clusterOwner s k with
  | some p => vacate s p
  | none => s

/-- A cluster is quarantined (R342): no work is placed on it, its teams are pre-empted, and its READY bit clears. -/
def quarantine (s : State) (k : Nat) : State :=
  logEvent (vacateCluster (setReady (modCluster s k (fun c => { c with quarantined := true })) 6 (32 + k) false) k)
    "QUARANTINE" [k]

end Sys2Proof.Machine
end

