-- ==== Sys2Proof/Machine/Preempt.lean ====
section
/-!
DEFINITION. Delivery of asynchronous events (R354), the stop of units under a halt (R360, R361), and pre-emption: the
stops, the save and the restore (R241, R247, R318, R362 to R366).
-/
namespace Sys2Proof.Machine
open Sys2Proof

/-! ### EVENT_DELIVERY (R354) -/

/-- A waiting event is delivered before another: by code, then by split. -/
def eventBefore (a b : Event) : Bool :=
  if a.precise != b.precise then a.precise
  else a.code < b.code || (a.code == b.code && a.split < b.split)

/-- The waiting event delivered first. -/
def firstEvent : List Event → Option Event
  | [] => none
  | e :: l =>
    match firstEvent l with
    | none => some e
    | some f => if eventBefore f e then some f else some e

/-- The first event equal to another is taken out. -/
def takeEvent (e : Event) : List Event → List Event
  | [] => []
  | f :: l => if f = e then l else f :: takeEvent e l

/-- A group's first waiting event is delivered at its split's instruction boundary, when no handler runs. -/
def deliverEvent (s : State) (gid : Nat) : State :=
  match mget s.groups gid with
  | none => s
  | some g =>
    match firstEvent g.events with
    | none => s
    | some e =>
      match eventSplit g e, vectorPc s g e.code with
      | some (j, sp), some vec =>
        if g.aside.isSome || g.stopped || g.region.st == .committing || g.region.st == .aborted ||
            (sp.wait != .none && !g.kept && !(g.region.st == .waiting && opensRegion g sp)) then s
        else
          let s1 := modGroup s gid (fun g => { g with events := takeEvent e g.events, kept := g.kept && g.events.length != 1 })
          enterHandler s1 gid { e with split := j } vec
      | some _, none => haltGroup s gid e.code e.epc e.lanes e.info
      | none, _ => s

/-- EVENT_DELIVERY (R354). -/
def execEventDelivery (gid : Nat) (s : State) : Out := stepEvent s (fun s => deliverEvent s gid)

/-! ### UNIT_HALT_STOP (R360, R361, Table 21.5) -/

/-- The stop area of a context and the records it holds. -/
def stopArea (s : State) (p ctx : Nat) : BitVec 64 := BitVec.ofNat 64 (ctxWord s p ctx 1)
def stopCap (s : State) (p ctx : Nat) : Nat := ctxWord s p ctx 2 % 2 ^ 32

/-- A stop record. -/
def stopRecord (u : StopUnit) (skid : BitVec 32) (time : Nat) : List (BitVec 8) :=
  leBytes 64 (packFields [(0, u.unit), (1, u.cause),
    (2, u.origin.toNat + 2 * u.inRegion.toNat + 4 * u.inHandler.toNat + 8 * u.lined.toNat + 16 * u.discarded.toNat),
    (3, u.ctx), (4, u.pc.toNat), (8, u.serial.toNat), (16, u.core), (17, u.slot), (18, u.group), (20, skid.toNat),
    (24, u.lanes.toNat), (32, u.progress.toNat), (40, u.object.toNat), (48, u.detail.toNat), (56, time)])

/-- Changes a halt in progress. -/
def modHalt (s : State) (p : Nat) (f : Halt → Halt) : State := modPart s p (fun q => { q with halt := q.halt.map f })

/-- The record of a unit is written in its context's stop area; one that cannot be written sets OVERFLOW. -/
def writeStop (s : State) (p : Nat) (h : Halt) (u : StopUnit) (skid : BitVec 32) : State :=
  let n := mgetD h.counts u.ctx 0
  let base := stopArea s p u.ctx
  let s1 := modHalt s p (fun h => { h with counts := mput h.counts u.ctx (n + 1) })
  let lost : State := modHalt s1 p (fun h => { h with overran := addOnce h.overran u.ctx })
  if base = 0 then s1
  else if stopCap s p u.ctx ≤ n then lost
  else
    match engineWrite s1 (hostAcc p u.ctx) (base + BitVec.ofNat 64 (64 * (n + 1))) (stopRecord u skid s.mantle.time) 0 .w with
    | .ok s2 => s2
    | .error _ => lost

/-- The header of a context's stop area. -/
def writeStopHeader (h : Halt) (p : Nat) (s : State) (ctx : Nat) : State :=
  let base := stopArea s p ctx
  if base = 0 || ctxWord s p ctx 0 % 2 = 0 then s
  else
    let bs := leBytes 64 (packFields [(0, mgetD h.counts ctx 0), (4, h.cause), (5, (h.overran.contains ctx).toNat), (8, h.time)])
    match engineWrite s (hostAcc p ctx) base bs 0 .w with
    | .ok s1 => s1
    | .error _ => s

/-- Once no unit is left to stop, the headers are written. -/
def finishHalt (s : State) (p : Nat) : State :=
  match (partOf s p).halt with
  | some h =>
    if h.units.isEmpty && !h.headed then
      modHalt ((List.range 16).foldl (writeStopHeader h p) s) p (fun h => { h with headed := true })
    else s
  | none => s

/-- Every unit that a halt has still to stop does so at once, and its record is written. -/
def stopUnits (s : State) (p : Nat) : State :=
  match (partOf s p).halt with
  | none => s
  | some h =>
    finishHalt (h.units.foldl (fun (st : State) u =>
      match (partOf st p).halt with
      | some k => writeStop st p k u 0
      | none => st) (modHalt s p (fun h => { h with units := [] }))) p

/-- UNIT_HALT_STOP (R360): the next unit stops, `skid` clk after the line reached it. Its record is written once the memory
is ready (R431). -/
def execUnitHaltStop (part : Nat) (skid : BitVec 32) (s : State) : Out :=
  stepEvent s (fun s =>
    match (partOf s part).halt with
    | none => s
    | some h =>
      if !unitsReady s part then s
      else
      match h.units with
      | [] => finishHalt s part
      | u :: rest =>
        finishHalt (writeStop (modHalt s part (fun h => { h with units := rest })) part h u skid) part)

/-! ### Stops (R247, R363, Table 21.6) -/

/-- Nothing of a group is in flight but what R363 lets go on: copies to scratchpad, traversals, Tailor operations and
collectives. -/
def restful (s : State) (gid : Nat) (g : Group) : Bool :=
  g.prods.isEmpty && g.atoms.isEmpty && g.storeQ.isEmpty && g.replayG.isNone && g.replayS.isNone &&
    (g.region.st == .none) &&
    !s.copies.any (fun c => match c.dst with
      | .scratch => c.gid == gid && c.parts.any (fun q => q.2.fail.isSome)
      | .group t _ => c.gid == gid || t == gid
      | .slot _ _ => c.gid == gid) &&
    !s.sliceQ.any (fun r => r.gid == gid) && !s.ual.any (fun u => u.gid == gid && u.kind != 1)

/-- A team has stopped: its groups are at rest, and no fill of its slots is under way (R318). -/
def teamStopped (s : State) (tid : Nat) (t : Team) : Bool :=
  s.groups.all (fun e => e.2.team != tid || e.2.job.isSome || restful s e.1 e.2) && t.slots.all (fun o => o.2.fills == 0)

/-- The regions of a team that are OPEN or WAITING are rolled back (R59). -/
def rollbackTeam (s : State) (tid : Nat) : State :=
  (s.groups.filter (fun e => e.2.team == tid && e.2.job.isNone && (e.2.region.st == .opened || e.2.region.st == .waiting))).foldl
    (fun st e => rollback st e.1) s

/-- Changes the pre-emption being served. -/
def modPreempt (s : State) (p : Nat) (f : Preempt → Preempt) : State :=
  modPart s p (fun q => { q with preempts := match q.preempts with | [] => [] | r :: l => f r :: l })

/-- PREEMPT_STOP_ACK (R363): a victim team has stopped. Sageip's team moves once it has stopped (R425). -/
def execPreemptStopAck (part team : Nat) (s : State) : Out :=
  stepEvent s (fun s =>
    if isSageTeam s team then
      (if s.groups.any (fun e => e.2.team == team && e.2.stopped) && (partOf s part).state ≠ 2 then moveSageip s part else s)
    else
      match (partOf s part).preempts, mget s.teams team with
      | r :: _, some t =>
        if !r.victims.contains team || r.acked.contains team then s
        else
          let s1 := rollbackTeam s team
          if teamStopped s1 team t then modPreempt s1 part (fun r => { r with acked := r.acked ++ [team] }) else s1
      | _, _ => s)

/-! ### The save (R364) -/

/-- `n` bytes whose values the spec does not give (log entry 2). -/
def freeBytes (draw n : Nat) : List (BitVec 8) := (List.range n).map (fun i => (Config.freeValue (draw + i)).setWidth 8)

/-- Bytes of a team's record: all that it may take (R364; its layout is not architected). -/
def recordBytesOf (t : Team) (accs : Nat) : Nat :=
  4096 + 136 * t.launch.scratch + (if t.seq.isSome then 32768 * t.launch.slots else 0) + 2 ^ 22 * accs

/-- Groups of a team in ascending %groupid. -/
def groupsOf (s : State) (tid : Nat) : List (Nat × Group) :=
  let gs := s.groups.filter (fun e => e.2.team == tid && e.2.job.isNone)
  (List.range 32).flatMap (fun i => gs.filter (fun e => e.2.index == i))

/-- Blocks of a save area of `size` bytes for cloaks of the given sizes, each the lowest free one at a multiple of 256. -/
def cloakBlocks (size : Nat) : List (Nat × Nat) → List Nat → Option (List (Nat × Nat))
  | _, [] => some []
  | taken, n :: l =>
    let m := up256 n
    match (0 :: taken.map (fun b => up256 (b.1 + b.2))).filter (fun o =>
        o + m ≤ size && taken.all (fun b => o + m ≤ b.1 || b.1 + b.2 ≤ o)) with
    | [] => none
    | o :: os =>
      let a := os.foldl min o
      (cloakBlocks size ((a, m) :: taken) l).map ((a, m) :: ·)

/-- The highest free block of `n` bytes of a save area, for a team record: it may lie at any offset (R364). -/
def recordBlock (size : Nat) (taken : List (Nat × Nat)) (n : Nat) : Option (Nat × Nat) :=
  match (size :: taken.map (·.1)).filter (fun e => n ≤ e && taken.all (fun b => e ≤ b.1 || b.1 + b.2 ≤ e - n)) with
  | [] => none
  | e :: es => some (es.foldl max e - n, n)

/-- The blocks that a team's cloaks and record take in its context's save area (log entry 85). -/
def saveBlocks (s : State) (p ctx : Nat) (cloaks : List Nat) (record : Nat) : Option (List (Nat × Nat)) :=
  let taken := (partOf s p).saved.flatMap (fun v => if v.team.ctx = ctx then v.blocks else [])
  let size := ctxWord s p ctx 4
  match cloakBlocks size taken cloaks with
  | none => none
  | some bs => (recordBlock size (bs ++ taken) record).map (fun b => bs ++ [b])

/-- What saving a team comes to. -/
inductive SaveResult where
  | ok (s : State)
  | fault (f : Fail) (va : BitVec 64) (gid : Option Nat) (tid : Nat)
  | full
  deriving DecidableEq, Repr

/-- A team is saved: its record and then its cloaks, with their monitors retagged; its cores' stores are released. `done`
holds the cores whose accumulator store an earlier team of the request has saved. -/
def saveTeam (s : State) (p tid order : Nat) (done : List Nat) : SaveResult :=
  match mget s.teams tid with
  | none => .ok s
  | some t =>
    let gs := groupsOf s tid
    let accs := if t.seq.isSome then ((coresOf t).filter (fun c => !done.contains c)).length else 0
    let rec_ := recordBytesOf t accs
    let q := hostAcc p t.ctx
    match saveBlocks s p t.ctx (gs.map (fun e => cloakSize e.2.width e.2.nv e.2.ns)) rec_ with
    | none => .full
    | some blocks =>
      let offs := (blocks.take gs.length).map (·.1)
      let ro := (blocks.getD gs.length (0, 0)).1
      let at_ (k : Nat) : BitVec 64 := BitVec.ofNat 64 (ctxWord s p t.ctx 3 + k)
      let s0 := (coresOf t).foldl l1WriteBackAll s
      match bufferFail s0 q (at_ ro) rec_ .w with
      | some (va, f) => .fault f va none tid
      | none =>
        match (gs.zip offs).findSome? (fun x =>
            (bufferFail s0 q (at_ x.2) (cloakSize x.1.2.width x.1.2.nv x.1.2.ns) .w).map (fun y => (y, x.1.1))) with
        | some ((va, f), gid) => .fault f va (some gid) tid
        | none =>
          let s1 := { bufferWrite s0 q (at_ ro) (freeBytes s0.draws rec_) 0 with draws := s0.draws + rec_ }
          let s2 := (gs.zip offs).foldl (fun st x =>
            let g := x.1.2
            let (nv, ns) := cloakLive st g
            let a := at_ x.2
            let bs := cloakBytes g t.teamid t.gridid (rootId st g) nv ns a 0 true 1
            let pa := match reach st q a 8 .w with | .ok y => y.pa | .error _ => remoteBit
            retagMons (bufferWrite st q a bs 0) g pa) s1
          let saved : SavedTeam :=
            { launchId := t.launchId, tid, order, team := { t with held := true }, blocks
              cloaks := offs.map at_
              groups := gs.map (fun e =>
                let (nv, ns) := cloakLive s e.2
                (e.1, { reseat e.2 nv ns e.2.core (e.2.side, e.2.slot, e.2.slice0) s.clk with stopped := true, kept := !e.2.events.isEmpty }))
              accs := if t.seq.isSome then (coresOf t).map (fun c => ((coreOf s c).acc, (coreOf s c).accPoison)) else [] }
          .ok (modPart s2 p (fun q => { q with saved := q.saved ++ [saved] }))

/-- The victims are saved one after the other. -/
def saveTeams (p order : Nat) : List Nat → List Nat → State → SaveResult
  | [], _, s => .ok s
  | t :: ts, done, s =>
    match saveTeam s p t order done with
    | .ok s1 => saveTeams p order ts (done ++ (match mget s.teams t with
      | some u => if u.seq.isSome then coresOf u else []
      | none => [])) s1
    | r => r

/-- The record of a save's write that faults: it names the group, or group 0 of the team (R364). -/
def saveFault (s : State) (p : Nat) (f : Fail) (va : BitVec 64) (gid : Option Nat) (tid : Nat) : State :=
  let waits (serial : BitVec 64) : State := modPreempt s p (fun r => { r with faulted := some serial })
  let named (g : Group) : State := groupRecord (waits g.serial) g (groupPc g) f 0 g.live [va] false true false 1 8
  match gid.bind (mget s.groups), (groupsOf s tid).find? (fun e => e.2.index == 0), mget s.teams tid with
  | some g, _, _ => named g
  | none, some e, _ => named e.2
  | none, none, some t =>
    match t.lead, groupsOf s tid with
    | some (serial, core, slot), _ =>
      emitRecord (waits serial) p (faultRec 0 f.cause (recFlags false f.malformed f.poisoned true false f.remote true) f.level
        t.ctx serial 0 0 va.toNat core slot 0 (1 + 8 * 2 ^ 8))
    | none, e :: _ => named e.2
    | none, [] => s
  | none, none, none => s

/-- The victims leave their cores, and the next request is served. -/
def leaveVictims (s : State) (p : Nat) (r : Preempt) : State :=
  let s1 := withoutTeams s r.victims
  let ids := r.victims.filterMap (fun t => (mget s.teams t).map (·.launchId))
  let s2 := modPart s1 p (fun q => { q with
    preempts := q.preempts.drop 1, orders := q.orders + 1
    launches := q.launches.map (fun l => if ids.contains l.id && l.saved.isNone then { l with saved := some q.orders } else l) })
  vacate (tellHead p (partOf s2 p).preempts.length s2) p

/-- PREEMPT_SAVE (R364), once every victim has acknowledged. Where the save area has no room in one piece it waits. -/
def execPreemptSave (part : Nat) (s : State) : Out :=
  stepEvent s (fun s =>
    match (partOf s part).preempts with
    | [] => s
    | r :: _ =>
      let vs := r.victims.filter (fun t => (mget s.teams t).isSome)
      if (partOf s part).state ≠ 0 || !memReady s part || r.faulted.isSome || !vs.all (fun t => r.acked.contains t) then s
      else
        match saveTeams part (partOf s part).orders vs [] s with
        | .ok s1 => leaveVictims s1 part { r with victims := vs }
        | .fault f va gid tid => saveFault s part f va gid tid
        | .full => s)

/-! ### The restore (R365) -/

/-- Saved teams that are placed again with a team: all of a CORES_ALL launch, and those whose sequencers share an
accumulator store with it (R318, R362). -/
def restoresWith (t u : SavedTeam) : Bool := t.order == u.order && (t.tid == u.tid || stopsWith t.team u.team)

/-- All that are placed again together: the teams tied to one of the given, directly or through others. -/
def restoreClosure (l : List SavedTeam) : Nat → List SavedTeam → List SavedTeam
  | 0, vs => vs
  | n + 1, vs =>
    let more := l.filter (fun u => !vs.any (fun v => v.tid == u.tid) && vs.any (fun v => restoresWith v u))
    if more.isEmpty then vs else restoreClosure l n (vs ++ more)

/-- Saved teams in the order of placement: by priority, then the earliest pre-empted. -/
def savedBefore (a b : SavedTeam) : Bool :=
  a.team.prio < b.team.prio || (a.team.prio == b.team.prio && (a.order < b.order || (a.order == b.order && a.tid < b.tid)))

/-- The saved team placed first. -/
def firstSaved : List SavedTeam → Option SavedTeam
  | [] => none
  | v :: l =>
    match firstSaved l with
    | none => some v
    | some u => if savedBefore u v then some u else some v

/-- Places for groups on a core, each of its own width. -/
def seatSaved : Nat → List (Nat × Group) → CoreUse → Option (List (Nat × Spot) × CoreUse)
  | _, [], u => some ([], u)
  | d, e :: l, u =>
    match spotsFor u e.2.slices e.2.nv with
    | [] => none
    | x :: xs =>
      let y := (x :: xs).getD (Config.corePick d % (xs.length + 1)) x
      match seatSaved (d + 1) l (takeSpot u y.1 y.2.1 y.2.2 e.2.slices e.2.nv) with
      | none => none
      | some (ss, u') => some ((e.1, y) :: ss, u')

/-- A saved team at a site: the places of its groups. -/
def fitSaved (s : State) (p : Nat) (v : SavedTeam) (x : Nat × Option Nat) : Option (List (Nat × Spot)) :=
  let l := v.team.launch
  let onCore (home : Bool) (c : Nat) (gs : List (Nat × Group)) : Option (List (Nat × Spot)) :=
    let u := useOf s c p v.team.ctx
    if coreHasRoom u l v.team.ctx home then (seatSaved s.draws gs u).map (·.1) else none
  match onCore true x.1 (v.groups.filter (fun e => e.2.core == v.team.home)), x.2 with
  | none, _ => none
  | some hs, none => some hs
  | some hs, some c => (onCore false c (v.groups.filter (fun e => e.2.core != v.team.home))).map (hs ++ ·)

/-- The accumulator store of core `o` may go on at core `n`: where it has been placed already, it goes there; else to a core
whose store no other team with a sequencer has. -/
def storeMay (s : State) (moves : Amap Nat) (o n : Nat) : Bool :=
  match mget moves o with
  | some m => m == n
  | none => !moves.any (fun e => e.2 == n) && !s.teams.any (fun e => e.2.seq.isSome && (coresOf e.2).contains n)

/-- The sites where a saved team fits; `moves` tells for the stores of the cores of teams already placed with it where each
has gone. -/
def savedSites (s : State) (p : Nat) (v : SavedTeam) (moves : Amap Nat) :
    List ((Nat × Option Nat) × List (Nat × Spot)) :=
  ((sitesOf s (openCores s p) v.team.partner.isSome).filter (fun x =>
    v.team.seq.isNone || ((coresOf v.team).zip (x.1 :: x.2.toList)).all (fun e => storeMay s moves e.1 e.2))).filterMap (fun x =>
      (fitSaved s p v x).map (fun g => (x, g)))

/-- The roots of a saved team are loaded on its cores (R264). -/
def savedRoots (s : State) (p : Nat) (v : SavedTeam) (cores : List Nat) : Placed :=
  cores.foldl (fun (r : Placed) c =>
    match r with
    | .ok s => loadRootOn s p v.team.ctx v.team.launch c
    | r => r) (.ok s)

/-- A cloak that the distributor restores becomes CONSUMED, and its fired monitors reach the group (R241, R286). -/
def consumeCloak (s : State) (p ctx : Nat) (va : BitVec 64) (g : Group) : State × Group :=
  match reach s (hostAcc p ctx) va 64 .none with
  | .error _ => (s, g)
  | .ok y =>
    let fired := fieldAt (readHome s y.pa 64).1 19 1 / 16
    let g1 := { g with mons := g.mons.map (fun m => (m.1, { m.2 with fired := m.2.fired || fired / 2 ^ m.1 % 2 == 1 })) }
    (dropCloakMons (putState s y.pa 3) y.pa, g1)

/-- A saved team at its site: team record, groups, accumulator stores and copies go on there. -/
def placeSaved (s : State) (p : Nat) (v : SavedTeam) (x : Nat × Option Nat) (spots : List (Nat × Spot)) : State :=
  let cores := x.1 :: x.2.toList
  let onNew (c : Nat) : Nat := if c = v.team.home then x.1 else x.2.getD x.1
  let s1 := (cores.zip v.accs).foldl (fun st e =>
    modCore st e.1 (fun c => { c with acc := e.2.1, accPoison := e.2.2, accCtx := some (p, v.team.ctx) })) s
  let seq := v.team.seq.map (fun q => { q with index := seqIndex s1 x.1, stopped := false, age := s.clk + 1 })
  let t : Team := { v.team with home := x.1, partner := x.2, seq, held := false, placedAt := s.clk }
  let s2 := { s1 with teams := mput s1.teams v.tid t }
  let s3 := (v.groups.zip v.cloaks).foldl (fun st e =>
    let spot := ((spots.find? (fun y => y.1 == e.1.1)).map (·.2)).getD (0, 0, 0)
    let (st1, g) := consumeCloak st p v.team.ctx e.2 e.1.2
    { st1 with groups := mput st1.groups e.1.1 (reseat g g.nv g.ns (onNew g.core) spot s.clk) }) s2
  let mine (gid : Nat) : Bool := v.groups.any (fun e => e.1 == gid)
  let s4 := { s3 with
    copies := s3.copies.map (fun c => if c.team = v.tid then { c with core := onNew c.core } else c)
    tailor := s3.tailor.map (fun o => if mine o.gid then { o with core := onNew o.core } else o)
    travs := s3.travs.map (fun o => if mine o.gid then { o with core := onNew o.core } else o)
    colls := s3.colls.map (fun o => if mine o.gid then { o with core := onNew o.core } else o) }
  let s5 := modPart s4 p (fun q => { q with
    saved := q.saved.filter (fun u => u.tid != v.tid)
    preempts := if q.saved.any (fun u => u.launchId == v.launchId && u.tid != v.tid) then q.preempts
      else q.preempts.filter (fun r => !asksFor r v.launchId)
    launches := q.launches.map (fun l => if l.id = v.launchId then { l with lastPlaced := s.clk } else l) })
  cores.foldl l1DropClean (modTeam s5 v.tid (fun t => { t with lead := (leadOf s5 v.tid).orElse (fun _ => t.lead) }))

/-- Places saved teams, all or none; the stores of their sequencers stay shared as they were. -/
def placeAllSaved (p : Nat) : List SavedTeam → Amap Nat → State → Placed
  | [], _, s => .ok s
  | v :: vs, moves, s =>
    match savedSites s p v moves with
    | [] => .noRoom
    | x :: l =>
      let y := (x :: l).getD (Config.corePick s.draws % (l.length + 1)) x
      match savedRoots { s with draws := s.draws + 64 } p v (y.1.1 :: y.1.2.toList) with
      | .ok s1 =>
        let moved := if v.team.seq.isNone then moves
          else ((coresOf v.team).zip (y.1.1 :: y.1.2.toList)).foldl (fun (m : Amap Nat) e => mput m e.1 e.2) moves
        placeAllSaved p vs moved (placeSaved s1 p v y.1 y.2)
      | r => r

/-- A launch none of whose teams is saved any more is not pre-empted any more. -/
def clearSaved (s : State) (p : Nat) : State :=
  modPart s p (fun q => { q with
    launches := q.launches.map (fun l => if q.saved.any (fun v => v.launchId == l.id) then l else { l with saved := none }) })

/-- A saved team that finds no place may cause pre-emption of a lower priority (R71, R365). -/
def askForSaved (s : State) (p : Nat) (v : SavedTeam) (n : Nat) : State :=
  askPreempt s p
    { id := v.launchId, launch := v.team.launch, ctx := v.team.ctx, queue := v.team.queue, prio := v.team.prio
      gridid := v.team.gridid, next := 0, total := n }

/-- PREEMPT_RESTORE (R365): the saved team that comes first, if it is of the launch, with those restored with it. -/
def execPreemptRestore (part launch : Nat) (s : State) : Out :=
  stepEvent s (fun s =>
    let q := partOf s part
    match firstSaved q.saved with
    | none => s
    | some v =>
      if v.launchId ≠ launch || v.faulted || q.state ≠ 0 || !frontReady s || !memReady s part || engineRecordWaits s part then s
      else
        let vs := restoreClosure q.saved q.saved.length [v]
        match placeAllSaved part vs [] s with
        | .ok s1 => clearSaved s1 part
        | .noRoom => askForSaved s part v vs.length
        | .fault f va =>
          engineRecord (modPart s part (fun q => { q with
            saved := q.saved.map (fun u => if u.tid = v.tid then { u with faulted := true, fva := va } else u) }))
            part v.team.ctx f va 0 16 0
        | .corrupt => raiseHalt s part evOverlayCorrupt [] 0 0)

end Sys2Proof.Machine
end

