-- ==== Sys2Proof/Machine/Jobs.lean ====
section
/-!
DEFINITION. Reserve-core jobs (R27, R28): region replay by Darner (R329 to R332), audit re-execution (R339, R340), the
in-field test (R342, R343), and the retirement of cores, slices and ways (R29, R30, R344).
-/
namespace Sys2Proof.Machine
open Sys2Proof

/-! ### Reliability records (R340, Table 19.5) -/

/-- A reliability record. -/
structure RelRecord where
  type : Nat
  flags : Nat := 0
  cluster : Nat := 0x1F
  chain : Nat := 0
  pc : Pc := 0
  serial : BitVec 64 := 0
  sigs : List (BitVec 64) := []
  first : Nat := 0
  last : Nat := 0
  deriving DecidableEq, Repr

/-- The bytes of a reliability record. -/
def relBytes (r : RelRecord) (time : Nat) : List (BitVec 8) :=
  leBytes 64 (packFields ([(0, r.type), (1, r.flags), (2, r.cluster), (3, r.chain), (4, r.pc.toNat), (8, r.serial.toNat),
    (40, r.first), (48, r.last % 2 ^ 64), (56, time)] ++
    ((List.range 3).map (fun i => (16 + 8 * i, (r.sigs.getD i 0).toNat)))))

/-- A reliability record goes to the record ring of the partition's audit log, which follows its input log, with a copy
to Mantle's event log. -/
def relRecord (s : State) (p : Nat) (r : RelRecord) : State :=
  let q := partOf s p
  let s1 :=
    if q.auditLog = 0 || q.auditRecords = 0 then s
    else
      let a := q.auditLog.toNat + 144 * q.auditInput.toNat + 64 * (q.recordCount % q.auditRecords.toNat)
      modPart (writeHome s a (relBytes r s.mantle.time)) p (fun q => { q with recordCount := q.recordCount + 1 })
  logEvent s1 "RELIABILITY" [p, r.type, r.flags, r.cluster, r.chain, r.pc.toNat, r.serial.toNat, (r.sigs.getD 0 0).toNat,
    (r.sigs.getD 1 0).toNat, (r.sigs.getD 2 0).toNat, r.first, r.last]

/-! ### Clusters and their cores -/

/-- Words 14 to 16 and READY of the readiness map, as a cluster's cores stand (R432, Table 27.6). -/
def refreshCluster (s : State) (k : Nat) : State :=
  let c := clusterOf s k
  let n := (c.map.filter (fun e => !(coreOf s (9 * k + e.2)).retired)).length
  let w := 15 + k / 16
  let sh := 4 * (k % 16)
  let s1 := setReady s 14 (32 + k) c.reserve.isNone
  let word := (sget s1.ready w &&& ~~~ (0xF#64 <<< sh)) ||| (BitVec.ofNat 64 n <<< sh)
  let s2 := { s1 with ready := sput s1.ready w word }
  if n = 0 then setReady s2 6 (32 + k) false else s2

/-- No group or team is on a core. -/
def coreEmpty (s : State) (core : Nat) : Bool :=
  !s.groups.any (fun e => e.2.core == core) && !s.teams.any (fun e => (coresOf e.2).contains core)

/-! ### Which job a reserve core takes (R27, R332, R339) -/

/-- The order of the kinds of jobs (R27). -/
def jobRank : JobKind → Nat
  | .takeover _ => 0
  | .replay _ => 1
  | .test _ => 2
  | .audit _ => 3

/-- The clusters of a list other than one, or all of them where there is no other. -/
def preferOther (l : List Nat) (k : Nat) : List Nat :=
  if l.any (· != k) then l.filter (· != k) else l

/-- The clusters whose reserve core may run a job. -/
def jobHosts (s : State) (j : Job) : List Nat :=
  let hosts := reserveClusters s j.part
  let fresh := hosts.filter (fun k => !j.used.contains k)
  match j.kind with
  | .takeover _ => j.cluster.toList
  | .test _ => j.cluster.toList
  | .replay _ => if fresh.isEmpty then (j.used.getLast?).toList else preferOther fresh j.origin
  | .audit n => if n = 1 then preferOther hosts j.origin else fresh.filter (· != j.origin)

/-- A reserve core runs no job. -/
def reserveFree (s : State) (k : Nat) : Bool :=
  match (clusterOf s k).job with
  | none => true
  | some i => !s.jobs.any (fun j => j.id == i)

/-- An aborted group is parked: every access it has issued has landed (R329). -/
def parked (s : State) (gid : Nat) (g : Group) : Bool :=
  g.prods.isEmpty && g.atoms.isEmpty && g.storeQ.isEmpty && g.replayG.isNone && g.replayS.isNone &&
    !s.copies.any (fun c => c.gid == gid || (match c.dst with | .group t _ => t == gid | _ => false)) &&
    !s.sliceQ.any (fun r => r.gid == gid) && !s.ual.any (fun u => u.gid == gid)

/-- A job may start as far as what it waits for is concerned. DESIGN CHOICE (log entry 61): a takeover waits until the retired
core is empty, and meanwhile the free reserve core may take a lower-ranked job; R27 orders the jobs that can start. -/
def jobReady (s : State) (j : Job) : Bool :=
  match j.kind with
  | .takeover n => (match physOf s j.origin n with | some c => coreEmpty s c | none => true)
  | .replay gid =>
    (match mget s.groups gid with | some g => g.region.st == .aborted && parked s gid g | none => true)
  | .test phys => reservePhys s j.origin == some phys || coreEmpty s phys
  | .audit _ => true

/-- A job waits for the reserve core of a cluster: the lowest free one that may run it. -/
def wantsCluster (s : State) (k : Nat) (j : Job) : Bool :=
  !j.running && jobReady s j && (jobHosts s j).find? (reserveFree s) == some k

/-- The job that a free reserve core takes. -/
def nextJob (s : State) (k : Nat) : Option Job :=
  (List.range 4).findSome? (fun n => s.jobs.find? (fun j => jobRank j.kind == n && wantsCluster s k j))

/-! ### Starting a job -/

/-- The group that runs a region again from its record: the identity, SERIAL and team of the original, the region OPEN at
the instruction after the REGION.OPEN, counters zero, on slices that are not retired (R30); a register that the record lacks
reads 0 (R28, R329; log entry 4). -/
def jobGroup (s : State) (core job : Nat) (g : Group) (n : Snapshot) (budget : Nat) : Group :=
  let u : CoreUse := { core, blocks := (coreOf s core).blocks }
  let spot := (spotsFor u g.slices g.nv).headD (0, 0, 0)
  { g with
    core, side := spot.1, slot := spot.2.1, slice0 := spot.2.2, vregs := n.vregs, sregs := n.sregs, preds := n.preds, fpctl := n.fpctl
    fpflags := n.fpflags, fpflagsSh := n.fpflagsSh, empty := [], damaged := [], counters := [], live := n.split.mask
    splits := [(n.entry, { n.split with pc := g.region.openPc + 1, wait := .none, age := s.clk + 1, readyAt := 0 })]
    ovf := [], events := [], holds := [], mons := [], trvCount := 0, tags := [], inj := none, prods := [], pend := []
    storeQ := [], atoms := [], fenceRel := none, replayG := none, replayS := none, synclRound := none, job := some job
    stopped := false, sageip := false, latent := []
    region := { g.region with
      budget, st := .opened, held := [], snap := some n, audited := false, logged := [], granted := true, mark := s.nextOp } }

/-- What a region record holds (R55, Table 3.8), with the split of the snapshot; both copies of a lined group load it. -/
def recordSnap (g : Group) (n : Snapshot) (bs : List (BitVec 8)) : Snapshot :=
  let w := g.width
  let both (l : Nat) : List Nat := if g.lined then [l, l + w] else [l]
  let get (o k : Nat) : Nat := leNat ((bs.drop o).take k)
  let pb := recordPb n.ns
  let flags := BitVec.ofNat 5 (get 9 1)
  { n with
    sregs := (List.range n.ns).foldl (fun m j => (copiesOf g).foldl (fun m k =>
      sput m (64 * k + j) (BitVec.ofNat 64 (get (64 + 8 * j) 8))) m) []
    preds := (List.range w).foldl (fun m l => (both l).foldl (fun m k =>
      sput m k (BitVec.ofNat 16 (get (pb + 4 * l) 4 % 2 ^ 15))) m) []
    vregs := (List.range n.nv).foldl (fun m r => (List.range w).foldl (fun m l => (both l).foldl (fun m k =>
      sput m (64 * r + k) (BitVec.ofNat 32 (get (pb + 4 * w + 4 * (w * r + l)) 4))) m) m) []
    fpctl := BitVec.ofNat 5 (get 8 1), fpflags := flags, fpflagsSh := if g.lined then flags else n.fpflagsSh }

/-- What a run starts from: a replay reads the record at 0x400 of the private block; an audit takes it as it was when the
region committed (R339; log entry 84). -/
inductive RunStart where
  | from_ (n : Snapshot) (budget : Nat)
  | fault (f : Fail)
  | bad
  deriving DecidableEq, Repr

/-- Reads what a run starts from. -/
def runStart (s : State) (core : Nat) (j : Job) (g : Group) (n : Snapshot) : RunStart :=
  match j.kind with
  | .replay _ =>
    match engineRead s { core, part := g.part, ctx := g.ctx, sageip := g.sageip } (g.priv + 0x400)
        (recordSize g.width n.nv n.ns) .r with
    | .error f => .fault f
    | .ok (bs, bad) => if bad then .bad else .from_ (recordSnap g n bs) (leNat ((bs.drop 10).take 2))
  | _ => .from_ n g.region.budget

/-- The overlays of a job's start: the root and the overlay of the REGION.OPEN. -/
def startOverlays (j : Job) (g : Group) : List Nat :=
  (j.images.filter (fun e => e.2.2)).map (·.1) ++
    (if j.images.any (fun e => e.1 == pcOverlay g.region.openPc && e.2.2) then [] else [pcOverlay g.region.openPc])

/-- Darner or the auditor loads what a run starts from and starts it. A load that faults in a replay waits for REPLAY; one
that cannot be used ends the run. -/
def loadRun (s : State) (i : Nat) : State :=
  match s.jobs.find? (fun j => j.id == i) with
  | none => s
  | some j =>
    match j.orig, (s.clusters.find? (fun e => e.2.job == some i)).map (·.1) with
    | some g, some k =>
      match reservePhys s k, g.region.snap with
      | some core, some n =>
        let r := (startOverlays j g).foldl (fun (r : JobLoad) id =>
          match r with
          | .loaded s =>
            if (residentOv s core g.part g.ctx id).isSome then .loaded s else darnerLoad s core j id
          | r => r) (.loaded s)
        match r with
        | .waits s1 => s1
        | .bad => modJob s i (fun j => { j with ended := .event })
        | .loaded s1 =>
          match runStart s1 core j g n with
          | .fault f => darnerRecord (modJob s1 i (fun j => { j with faulted := true })) j g f (g.priv + 0x400)
          | .bad => modJob s1 i (fun j => { j with ended := .event })
          | .from_ n budget =>
            let s2 := { s1 with
              groups := mput s1.groups s1.nextGid (jobGroup s1 core i g n budget), nextGid := s1.nextGid + 1 }
            modJob s2 i (fun j => { j with gid := some s1.nextGid, faulted := false })
      | _, _ => modJob s i (fun j => { j with ended := .event })
    | _, _ => s

/-- Image addresses by overlay id that a core's directory holds for a group's context. -/
def imagesOf (s : State) (g : Group) : Amap (BitVec 64 × Bool) :=
  (coreOf s g.core).dir.foldl (fun (m : Amap (BitVec 64 × Bool)) e =>
    if e.part = g.part && e.ctx = g.ctx then mput m e.id (e.image, e.root) else m) []

/-- A replay starts: the original core writes back its dirty lines as a release at device scope, and its directory's
image addresses are taken (R329). -/
def startReplay (s : State) (j : Job) (gid : Nat) : State :=
  match mget s.groups gid with
  | none => { s with jobs := s.jobs.filter (fun x => x.id != j.id) }
  | some g =>
    let s1 := modJob (l1WriteBackAll s g.core) j.id (fun j => { j with orig := some g, team := teamOf s g, images := imagesOf s g })
    loadRun s1 j.id

/-- The reserve core takes the number of a retired core, which it replaces (R29). -/
def takeOver (s : State) (k n : Nat) : State :=
  match (clusterOf s k).reserve with
  | none => s
  | some r =>
    let s1 := match physOf s k n with
      | some c => emptyCore s c
      | none => s
    refreshCluster (modCluster s1 k (fun c => { c with map := mput c.map n r, reserve := none })) k

/-- The test of a physical core starts: the reserve core takes its number, and it takes the reserve's place (R342); a
cluster without a reserve core has it out of placement alone (R29). -/
def startTest (s : State) (k phys : Nat) : State :=
  let s1 := modCore s phys (fun c => { c with inTest := true })
  match (clusterOf s k).reserve with
  | none => s1
  | some r =>
    if 9 * k + r = phys then s1
    else
      let n := logicalOf s phys
      emptyCore (modCluster s1 k (fun c => { c with map := mput c.map n r, reserve := some (phys % 9) })) phys

/-- A cluster's reserve core starts a job. -/
def startJob (s : State) (k : Nat) (j : Job) : State :=
  let busy (s : State) : State :=
    modCluster (modJob s j.id (fun j => { j with running := true })) k (fun c => { c with job := some j.id })
  match j.kind with
  | .takeover n => { takeOver s k n with jobs := s.jobs.filter (fun x => x.id != j.id) }
  | .replay gid => startReplay (busy s) j gid
  | .test phys => busy (startTest s k phys)
  | .audit _ => loadRun (busy s) j.id

/-- RESERVE_CORE_JOB_START (R27): the cluster's reserve core, when free, takes the next job. -/
def execReserveCoreJobStart (cluster : Nat) (s : State) : Out :=
  stepEvent s (fun s =>
    if !reserveFree s cluster then s
    else
      match nextJob s cluster with
      | some j => startJob s cluster j
      | none => s)

/-! ### The end of a replay (R329, R332) -/

/-- A third error in a region: the record, and MACHINE_CHECK, which is fatal, to the original group (R332). -/
def escalateReplay (s : State) (gid : Nat) (g : Group) : State :=
  let s1 := relRecord s g.part { type := 4, chain := chainOf s g, pc := g.region.openPc, serial := g.serial }
  haltGroup s1 gid evMachineCheck g.region.openPc g.live 0

/-- A replay has ended: the hand-back, the abort, the abandonment, or a further replay. -/
def finishReplay (s : State) (j : Job) (gid : Nat) (g : Group) : State :=
  match j.ended with
  | .error =>
    let tries := g.region.tries + 1
    if 3 ≤ tries then
      escalateReplay { endRun s j with jobs := s.jobs.filter (fun x => x.id != j.id) } gid g
    else
      let k := ((s.clusters.find? (fun e => e.2.job == some j.id)).map (·.1)).toList
      modJob (modGroup (endRun s j) gid (fun g => { g with region := { g.region with tries } })) j.id
        (fun j => { j with running := false, ended := .none, gid := none, used := j.used ++ k })
  | _ => handOver s j gid

/-- DARNER_HAND_BACK (R329). -/
def execDarnerHandBack (job : Nat) (s : State) : Out :=
  stepEvent s (fun s =>
    match s.jobs.find? (fun j => j.id == job) with
    | none => s
    | some j =>
      match j.kind with
      | .replay gid =>
        if j.ended == .none then s
        else
          match mget s.groups gid with
          | some g => finishReplay s j gid g
          | none => { endRun s j with jobs := s.jobs.filter (fun x => x.id != job) }
      | _ => s)

/-! ### The end of an audit run (R339) -/

/-- Which of three runs disagrees with the two others: the original 0, the first run 1. The second run agrees with one
of them, or there is no majority. -/
def dissenter (s0 : BitVec 64) (s1 s2 : Option (BitVec 64)) : Option Nat :=
  if s2.isNone then none
  else if s1 == s2 then some 0
  else if some s0 == s2 then some 1
  else none

/-- An audit is over: its log space is released. -/
def closeAudit (s : State) (j : Job) : State :=
  { s with jobs := s.jobs.filter (fun x => x.id != j.id) }

/-- The record of an audit. -/
def auditRecord (s : State) (j : Job) (type flags cluster : Nat) (sigs : List (BitVec 64)) : State :=
  let g := j.orig
  relRecord s j.part
    { type, flags, cluster, chain := (j.team.map (·.launch.chain)).getD 0, pc := (g.map (·.region.openPc)).getD 0
      serial := (g.map (·.serial)).getD 0, sigs, first := 144 * j.logSlots.headD 0 }

/-- The verdict on an audit's run. A run that did not commit has diverged. -/
def judgeAudit (s : State) (j : Job) (n : Nat) : State :=
  let k := ((s.clusters.find? (fun e => e.2.job == some j.id)).map (·.1)).toList
  let ok := j.ended == .committed
  let s0 := j.sigs.getD 0 0
  let used := j.used ++ k
  let e := endRun s j
  if n = 1 then
    if ok && j.sigs.getD 1 0 = s0 then closeAudit e j
    else if (reserveClusters s j.part).any (fun c => c != j.origin && !used.contains c) then
      modJob e j.id (fun j => { j with kind := .audit 2, running := false, ended := .none, gid := none, used })
    else closeAudit (auditRecord e j 2 4 0x1F [s0, if ok then j.sigs.getD 1 0 else 0]) j
  else
    let s2 : Option (BitVec 64) := if ok then j.sigs.getLast? else none
    let s1 : Option (BitVec 64) := if j.sigs.length = 2 + ok.toNat then j.sigs[1]? else none
    let sigs := [s0, s1.getD 0, s2.getD 0]
    match dissenter s0 s1 s2 with
    | some i =>
      let c := if i = 0 then j.origin else j.used.headD 0
      closeAudit (quarantine (auditRecord e j 1 (if i = 0 then 1 else 0) c sigs) c) j
    | none => closeAudit (auditRecord e j 2 0 0x1F sigs) j

/-- AUDIT_RUN_END (R339). -/
def execAuditRunEnd (job : Nat) (s : State) : Out :=
  stepEvent s (fun s =>
    match s.jobs.find? (fun j => j.id == job) with
    | none => s
    | some j =>
      match j.kind with
      | .audit n => if j.ended == .none then s else judgeAudit s j n
      | _ => s)

/-! ### The in-field test (R342, R343) -/

/-- The physical core next in a cluster's rotation: the first from its place on that is not retired. -/
def nextInTurn (s : State) (k : Nat) : Option Nat :=
  ((List.range 9).map (fun i => ((clusterOf s k).rotation + i) % 9)).find? (fun i => !(coreOf s (9 * k + i)).retired)

/-- A test of a cluster waits or runs. -/
def testing (s : State) (k : Nat) : Bool :=
  s.jobs.any (fun j => match j.kind with | .test _ => j.origin == k | _ => false)

/-- TEST_PERIOD_EXPIRY (R342): the next physical core of the rotation leaves placement, and its test becomes a
reserve-core job. A PERIOD of 0 disables the test. -/
def execTestPeriodExpiry (part cluster : Nat) (s : State) : Out :=
  stepEvent s (fun s =>
    let q := partOf s part
    if q.testPeriod = 0 || !q.clusters.getLsbD cluster || (clusterOf s cluster).quarantined || testing s cluster then s
    else
      match nextInTurn s cluster with
      | none => s
      | some i =>
        let phys := 9 * cluster + i
        let s1 := modCluster s cluster (fun c => { c with rotation := (i + 1) % 9 })
        let job : Job := { id := s1.nextOp, part, kind := .test phys, cluster := some cluster, origin := cluster }
        let s2 := { s1 with jobs := s1.jobs ++ [job], nextOp := s1.nextOp + 1 }
        if reservePhys s cluster = some phys then s2
        else vacate (modCore s2 phys (fun c => { c with inTest := true })) part)

/-- A test passes: the core leaves the test and the cluster's interval starts again at the current journal index. -/
def passTest (s : State) (k phys : Nat) : State :=
  modCluster (emptyCore (modCore s phys (fun c => { c with inTest := false })) phys) k (fun c => { c with
    passed := mput c.passed (phys % 9) c.journal, overflow := false, commits := 0, job := none })

/-- A test fails: a TAINT record over the commits since the core's last pass, and the cluster is quarantined. -/
def failTest (s : State) (p k phys : Nat) : State :=
  let c := clusterOf s k
  let q := partOf s p
  let first := mgetD c.passed (phys % 9) 0
  let lost := q.journalBase == 0 || first + 2 ^ q.journalLog2.toNat < c.journal
  let s1 := modCluster s k (fun c => { c with job := none })
  quarantine (relRecord s1 p
    { type := 3, flags := 2 * lost.toNat, cluster := k, first, last := c.journal + 2 ^ 64 - 1 }) k

/-- IN_FIELD_TEST_END (R342, R343). -/
def execInFieldTestEnd (cluster : Nat) (pass : Bool) (s : State) : Out :=
  stepEvent s (fun s =>
    match s.jobs.find? (fun j => j.running && j.origin == cluster && jobRank j.kind == 2) with
    | none => s
    | some j =>
      match j.kind with
      | .test phys =>
        let s1 := { s with jobs := s.jobs.filter (fun x => x.id != j.id) }
        if pass then passTest s1 cluster phys else failTest s1 j.part cluster phys
      | _ => s)

/-! ### Retirement (R29, R30, R344) -/

/-- Mantle retires a physical core: no work is placed on it, its teams are pre-empted, and the reserve core is to take
its number. -/
def retireCore (s : State) (core : Nat) : State :=
  let k := clusterOfCore core
  if (coreOf s core).retired then s
  else
    let s1 := logEvent (modCore s core (fun c => { c with retired := true })) "CORE_RETIRED" [core]
    let c := clusterOf s k
    match clusterOwner s k with
    | none =>
      refreshCluster (if c.reserve = some (core % 9) then modCluster s1 k (fun c => { c with reserve := none })
        else takeOver s1 k (logicalOf s core)) k
    | some p =>
      if c.reserve = some (core % 9) then refreshCluster (modCluster s1 k (fun c => { c with reserve := none })) k
      else
        let job : Job :=
          { id := s1.nextOp, part := p, kind := .takeover (logicalOf s core), cluster := some k, origin := k }
        let s2 := if c.reserve.isNone then s1 else { s1 with jobs := s1.jobs ++ [job], nextOp := s1.nextOp + 1 }
        vacate (refreshCluster s2 k) p

/-- CORE_RETIRE (R29). -/
def execCoreRetire (core : Nat) (s : State) : Out := stepEvent s (fun s => retireCore s core)

/-- SLICE_RETIRE (R30): slices 0 to 15 are side 0's, 16 to 31 side 1's; the block of 8 is retired, and a second block
retires the core. -/
def execSliceRetire (core slice : Nat) (s : State) : Out :=
  stepEvent s (fun s =>
    let c := coreOf s core
    if c.blocks.contains (slice / 8) then s
    else if !c.blocks.isEmpty then retireCore s core
    else
      let s1 := logEvent (modCore s core (fun c => { c with blocks := [slice / 8] })) "SLICE_RETIRED" [core, slice]
      vacateCluster s1 (clusterOfCore core))

/-- An L1 set gives up a way: what no longer fits is written back first. Which of the set's lines that is is open. -/
def retireL1Way (s : State) (core set way : Nat) : State :=
  let s1 := modCore s core (fun c => { c with l1Retired := mput c.l1Retired set (addOnce (mgetD c.l1Retired set []) way) })
  let lines := ((coreOf s1 core).l1.filter (fun e => e.1 % 512 == set)).map (·.1)
  if lines.length ≤ l1Ways (coreOf s1 core) set then s1
  else
    let v := lines.getD (Config.l1Pick s1.draws % lines.length) 0
    l1Drop (l1WriteBack { s1 with draws := s1.draws + 1 } core v) core v

/-- A way of an L2 set is retired: a dirty line there is written back first. -/
def retireL2Way (s : State) (sl set way : Nat) : State :=
  let slice := mgetD s.slices sl {}
  let ws := mgetD slice.sets set []
  let s1 := (ws.filter (fun w => w.way == way && w.dirty)).foldl (fun st w =>
    modChan st (channelOf (128 * w.line)) (fun c => { c with queue := c.queue ++ [(128 * w.line, true)] })) s
  { s1 with slices := mput s1.slices sl { slice with
      sets := mput slice.sets set (ws.filter (fun w => w.way != way))
      retired := mput slice.retired set (addOnce (mgetD slice.retired set []) way) } }

/-- WAY_RETIRE (R344): at most 2 ways of an L1 set, a third retires the core; at most 4 of an L2 set, a fifth marks the
slice group degraded. `unit` is the physical core, or the slice. -/
def execWayRetire (l2 : Bool) (unit set way : Nat) (s : State) : Out :=
  stepEvent s (fun s =>
    let s1 := logEvent s "WAY_RETIRED" [l2.toNat, unit, set, way]
    if l2 then
      let gone := mgetD (mgetD s.slices unit {}).retired set []
      if gone.contains way then s
      else if 4 ≤ gone.length then setReady s1 14 (unit / 64) true
      else retireL2Way s1 unit set way
    else if (mgetD (coreOf s unit).l1Retired set []).contains way then s
    else if 2 ≤ (mgetD (coreOf s unit).l1Retired set []).length then retireCore s1 unit
    else retireL1Way s1 unit set way)

end Sys2Proof.Machine
end

