-- ==== Sys2Proof/Machine/Matrix.lean ====
section
/-!
DEFINITION. Matrix instructions: major 0x3C (R291 to R320).
-/
namespace Sys2Proof.Machine

/-- A value check fails (R302). -/
def seqIllegal (s : State) (c : SIss) : State := haltSeq s c.tid evIllegalOperand

/-- A byte count: a q register, or IMM16 unsigned whatever the TYPE (R301). -/
def qBytes (q : Seq) (x : Enc) : Operand → Nat
  | .s i => (sget q.q i.toNat).toNat
  | .imm => x.imm.toNat
  | _ => 0

/-- The sides of a team. -/
def sidesOf (t : Team) : List Nat := if t.partner.isSome then [0, 1] else [0]

/-! ### Slots (R295 to R298, R303) -/

/-- The `n` slots from `o` are slots of the team (R295). -/
def slotRangeOk (t : Team) (o n : Nat) : Bool := o + n ≤ t.launch.slots

/-- The slots, with their sides, that SLOT.CLAIM, SLOT.READY and SLOT.RELEASE act on, in ascending order. -/
def slotTargets (t : Team) (x : Enc) : List (Nat × Nat) :=
  (List.range (x.bits 0 6 + 1)).flatMap (fun i => (sidesOf t).map (fun d => (x.a.idx + i, d)))

/-- Changes every target slot. -/
def onSlots (s : State) (c : SIss) (f : Slot → Slot) : State :=
  (slotTargets c.t c.x).foldl (fun st p => modSlot st c.tid p.2 p.1 f) s

/-- A slot that waits only for its fills before it drains: in program order it is DRAINING already (R316). -/
def drainingSoon (u : Slot) : Bool := u.st == .draining || (u.st == .filling && u.toDrain)

/-- A claimed slot: its bytes are zero and its poison is clear (R298). Fill parts issued to it before that are unfinished
still count (R297). -/
def claimed (u : Slot) : Slot := { st := .filling, fills := u.fills, last := u.last }

/-- SLOT.CLAIM (R303). -/
def execSlotClaim (x : Enc) (s : State) : Out :=
  issueQ .slotClaim x s (fun c s =>
    let us := (slotTargets c.t x).map (fun p => slotOf c.t p.2 p.1)
    if !slotRangeOk c.t x.a.idx (x.bits 0 6 + 1) then seqIllegal s c
    else
      match us.find? (fun u => u.st != .empty) with
      | none => seqAdvance (onSlots s c claimed) c
      | some u => if drainingSoon u then s else seqIllegal s c)

/-- SLOT.READY of a slot (Table 17.2). -/
def readySlot (u : Slot) : Slot := if u.st = .filling then settleSlot { u with toReady := true } else u

/-- SLOT.READY (R303). -/
def execSlotReady (x : Enc) (s : State) : Out :=
  issueQ .slotReady x s (fun c s =>
    let us := (slotTargets c.t x).map (fun p => slotOf c.t p.2 p.1)
    if !slotRangeOk c.t x.a.idx (x.bits 0 6 + 1) || us.any (fun u => u.st == .empty || drainingSoon u) then seqIllegal s c
    else seqAdvance (onSlots s c readySlot) c)

/-- SLOT.RELEASE of a slot (Table 17.2). -/
def releaseSlot (u : Slot) : Slot :=
  match u.st with
  | .filling => settleSlot { u with toDrain := true }
  | .ready => { u with st := .draining }
  | _ => u

/-- SLOT.RELEASE (R303). -/
def execSlotRelease (x : Enc) (s : State) : Out :=
  issueQ .slotRelease x s (fun c s =>
    if !slotRangeOk c.t x.a.idx (x.bits 0 6 + 1) then seqIllegal s c
    else seqAdvance (onSlots s c releaseSlot) c)

/-- Work of the array that is not complete reads a slot of a side. -/
def slotRead (t : Team) (side o : Nat) : Bool :=
  match t.seq with
  | some q => (jobsOf q side).any (fun j => j.reads.contains o)
  | none => false

/-- A slot that is drained is EMPTY; unfinished fill parts issued to it still count (R297). -/
def drained (u : Slot) : Slot := { fills := u.fills, last := u.last }

/-- SLOT_DRAIN_END (R297): every reader issued before the release has finished with the slot. -/
def execSlotDrainEnd (team side slot : Nat) (s : State) : Out :=
  stepEvent s (fun s =>
    match mget s.teams team with
    | none => s
    | some t =>
      if (slotOf t side slot).st = .draining && !slotRead t side slot then modSlot s team side slot drained else s)

/-- The code of a slot state (Table 17.2). -/
def SlotSt.code : SlotSt → Nat
  | .empty => 0
  | .filling => 1
  | .ready => 2
  | .draining => 3

/-- SLOT.STATE (R303). -/
def execSlotState (x : Enc) (s : State) : Out :=
  issueQ .slotState x s (fun c s =>
    if !slotRangeOk c.t x.a.idx 1 then seqIllegal s c
    else
      let home := (slotOf c.t 0 x.a.idx).st.code
      let partner := if c.t.partner.isSome then (slotOf c.t 1 x.a.idx).st.code else 0
      seqAdvance (qput s c.tid x.d.idx (BitVec.ofNat 64 (home + 256 * partner))) c)

/-! ### Slots and groups (R304, R305, R311, R320) -/

/-- GROUP, VREG and NB of a word (Table 17.4). -/
def moveGroup (x : Enc) : Nat := x.bits 0 5
def moveReg (x : Enc) : Nat := x.bits 5 8
def moveCount (x : Enc) : Nat := x.bits 13 4 + 1

/-- The target group: a group of the team that has not exited (R302). -/
def targetGroup (s : State) (c : SIss) : Option (Nat × Group) :=
  s.groups.find? (fun e => e.2.team == c.tid && e.2.index == moveGroup c.x && e.2.live != 0 && e.2.job.isNone)

/-- The operands of SLOT.WRITE and SLOT.READ are in range (R304). -/
def slotMoveOk (g : Group) (x : Enc) (off : Nat) : Bool :=
  off % 16 = 0 && off + 4 * g.width * moveCount x ≤ slotBytes && moveReg x + moveCount x ≤ g.nv

/-- The target's registers are all full. -/
def targetFull (g : Group) (x : Enc) : Bool := (List.range (moveCount x)).all (fun j => !isEmpty g (moveReg x + j))

/-- The target's registers can be written: none of them waits for data. A damaged register is empty and is made sound by
the write (R322). -/
def targetFree (g : Group) (x : Enc) : Bool :=
  (List.range (moveCount x)).all (fun j => !isEmpty g (moveReg x + j) || g.damaged.contains (moveReg x + j))

/-- The lowest register of a move that is damaged or whose parity is wrong, with the lanes (R321, R322). -/
def moveDamage (g : Group) (x : Enc) : Option (Nat × BitVec 64) :=
  (List.range (moveCount x)).findSome? (fun j =>
    let r := moveReg x + j
    match g.latent.filter (fun k => k < 2 ^ 15 && latentReg k == r) with
    | [] => if g.damaged.contains r then some (r, g.live) else none
    | ks => some (r, maskOf (ks.map (fun k => laneIn g (k % 64)))))

/-- A sequencer's read of a group's registers that meets an error raises it in the group, once, and waits; it is tried again
after the group's TRET (R322, R335). -/
def moveTold (s : State) (c : SIss) (gid : Nat) (g : Group) (code : Nat) (mark : State → State) (lanes info : BitVec 64) :
    State :=
  let told := g.events.any (fun e => e.code == code && e.epc == c.q.pc) ||
    (match g.aside with | some a => a.code == code && a.epc == c.q.pc | none => false)
  if told then s
  else raiseAsync (mark s) gid code (g.splits.headD (0, { pc := 0, mask := 0 })).1 c.q.pc lanes info [] s.nextOp

/-- SLOT.WRITE meets a damaged register (R322): MACHINE_CHECK for the group, with the sequencer's PC. The instruction is not
performed and waits until the register has been written (log entry 83). -/
def moveChecked (s : State) (c : SIss) (gid : Nat) (g : Group) (r : Nat) (lanes : BitVec 64) : State :=
  moveTold s c gid g evMachineCheck (fun st => modGroup st gid (fun g => damage g r)) lanes (damageInfo r)

/-- The registers of a group as SLOT.WRITE lays them out: register VREG + j of lane i is word W j + i (R304). -/
def moveWords (g : Group) (x : Enc) (copy : Nat) : List W32 :=
  (List.range (moveCount x)).flatMap (fun j => (List.range g.width).map (fun i => vget g (moveReg x + j) (i + copy * g.width)))

/-- SLOT.WRITE (R304, R320). -/
def execSlotWrite (x : Enc) (s : State) : Out :=
  issueQ .slotWrite x s (fun c s =>
    let off := qBytes c.q x x.b
    match targetGroup s c with
    | none => seqIllegal s c
    | some (gid, g) =>
      let side := sideOf c.t g
      let u := slotOf c.t side x.d.idx
      if !slotRangeOk c.t x.d.idx 1 || !slotMoveOk g x off || u.st ≠ .filling || u.toReady || u.toDrain then seqIllegal s c
      else
        match moveDamage g x with
        | some (r, lanes) => moveChecked s c gid g r lanes
        | none =>
        if !targetFull g x then s
        else
        let ws := moveWords g x 0
        if g.lined && ws != moveWords g x 1 then
          let lanes := maskOf ((List.range g.width).filter (fun i =>
            (List.range (moveCount x)).any (fun j => vget g (moveReg x + j) i != vget g (moveReg x + j) (i + g.width))))
          moveTold s c gid g evLiningMismatch id lanes (mcInfo 0 4)
        else
          let bs := ws.flatMap (fun w => leBytes 4 w.toNat)
          let found : Found := { bytes := bs, bad := List.replicate bs.length false, ptrap := true }
          seqAdvance (modSlot s c.tid side x.d.idx (fun u =>
            let r := landBytes u.data u.poison off found
            { u with data := r.1, poison := r.2 })) c)

/-- Data for registers of a group is on its way (R305, R311): the registers go empty; both copies of a lined group
receive it (R320). `cells` gives for each lane and register its value and whether its source is poisoned; poison counts
`unit` registers at a time. -/
def sendData (s : State) (c : SIss) (gid : Nat) (g : Group) (unit : Nat) (cell : Nat → Nat → W32 × Bool) : State :=
  let d := moveReg c.x
  let n := moveCount c.x
  let (id, s1) := fresh s
  let lanes := List.range g.width
  let writes := (List.range n).flatMap (fun j => lanes.flatMap (fun i =>
    (copiesOf g).map (fun k => ({ reg := d + j, lane := i + k * g.width, val := (cell j i).1 } : RegWrite))))
  let bad := (List.range (n / unit)).filterMap (fun j =>
    let m := maskOf (lanes.filter (fun i => (cell (unit * j) i).2))
    if m = 0 then none else some (d + unit * j, unit, m))
  let p : Producer :=
    { id, pc := c.q.pc, split := (g.splits.headD (0, { pc := 0, mask := 0 })).1, kind := .deliver writes bad, d
      nregs := n, size := 4 * unit, lanes := allLanes g, counter := none }
  seqAdvance (modGroup s1 gid (fun g => markEmpty { g with prods := g.prods ++ [p] } d n)) c

/-- SLOT.READ (R305). -/
def execSlotRead (x : Enc) (s : State) : Out :=
  issueQ .slotRead x s (fun c s =>
    let off := qBytes c.q x x.b
    match targetGroup s c with
    | none => seqIllegal s c
    | some (gid, g) =>
      let u := slotOf c.t (sideOf c.t g) x.a.idx
      if !slotRangeOk c.t x.a.idx 1 || !slotMoveOk g x off then seqIllegal s c
      else if u.st = .filling && u.toReady && !u.toDrain then s
      else if u.st ≠ .ready then seqIllegal s c
      else if !targetFree g x then s
      else
        sendData s c gid g 1 (fun j i =>
          let o := off + 4 * (g.width * j + i)
          (BitVec.ofNat 32 (leNat (getBytes u.data o 4)), sget u.poison (o / 16) == 1#1)))

/-! ### MMA and GANG (R306 to R308) -/

/-- The work of a product on one side for `rows` output rows. -/
def productJob (c : SIss) (w : Window) (rows : Nat) : MatJob :=
  let x := c.x
  let qk := (sget c.q.q x.c.idx).toNat
  let cplx := x.bit 5
  let k := bits qk 0 16
  let k0 := bits qk 16 16
  let bty := Ty.ofCode (x.bits 0 4)
  { pc := c.q.pc, scacc := false, ty := x.ty, bty, partial_ := x.bit 4, cplx, tern := x.bit 6
    win := { w with rows }, sa := x.a.idx, sb := x.b.idx, k, k0
    reads := operandSlots (slotFmt x.ty cplx) x.a.idx rows k0 k ++ operandSlots (slotFmt bty cplx) x.b.idx w.cols k0 k }

/-- The value checks of a product on one side (R302, R307). -/
def productOk (t : Team) (qk : BitVec 64) (j : MatJob) : Bool :=
  windowOk (viewOf j.ty j.cplx) j.win && qk.toNat < 2 ^ 32 && 1 ≤ j.k && (!j.partial_ || j.k ≤ 32) &&
    j.reads.all (fun o => o < t.launch.slots)

/-- Every slot that a product reads is READY. -/
def slotsReady (t : Team) (side : Nat) (j : MatJob) : Bool := j.reads.all (fun o => (slotOf t side o).st == .ready)

/-- The products that GANG gives the home core and the partner (R308). -/
def gangJobs (c : SIss) (w : Window) : MatJob × Option MatJob :=
  (productJob c w (min w.rows 512), if 512 < w.rows then some (productJob c w (w.rows - 512)) else none)

/-- A product issues once its slots are READY; the array performs it in its order. -/
def issueMma (c : SIss) (s : State) : State :=
  let w := windowFrom (sget c.q.q c.x.d.idx)
  let j := productJob c w w.rows
  if !productOk c.t (sget c.q.q c.x.c.idx) j then seqIllegal s c
  else if !slotsReady c.t 0 j then s
  else seqAdvance (modSeq s c.tid (fun q => { q with jobs := q.jobs ++ [j] })) c

/-- MMA (R307). -/
def execMma (x : Enc) (s : State) : Out := issueQ .mma x s issueMma
/-- MMA with CPLX (R96, R307). -/
def execMmaCplx (x : Enc) (s : State) : Out := issueQ .mmaCplx x s issueMma
/-- MMA with TERN (R95, R307). -/
def execMmaTern (x : Enc) (s : State) : Out := issueQ .mmaTern x s issueMma

/-- GANG (R308). -/
def execGang (x : Enc) (s : State) : Out :=
  issueQ .gang x s (fun c s =>
    let qk := sget c.q.q x.c.idx
    let (jh, jp) := gangJobs c (windowFrom (sget c.q.q x.d.idx))
    if c.t.partner.isNone || !productOk c.t qk jh || (jp.map (fun j => !productOk c.t qk j)).getD false then seqIllegal s c
    else
      let g0 := c.q.shares.getLsbD 0
      let g1 := c.q.shares.getLsbD 1 || jp.isNone
      let goH := !g0 && slotsReady c.t 0 jh
      let goP := !g1 && jp.any (slotsReady c.t 1)
      if !goH && !goP then s
      else
        let done := (g0 || goH) && (g1 || goP)
        let s1 := modSeq s c.tid (fun q => { q with
          jobs := if goH then q.jobs ++ [jh] else q.jobs
          jobsP := if goP then q.jobsP ++ jp.toList else q.jobsP
          shares := if done then 0 else BitVec.ofNat 2 ((g0 || goH).toNat + 2 * (g1 || goP).toNat) })
        if done then seqAdvance s1 c else s1)

/-! ### SCACC (R309) -/

/-- The work of a SCACC. -/
def scaccJob (c : SIss) : MatJob :=
  let qp := (sget c.q.q c.x.a.idx).toNat
  { pc := c.q.pc, scacc := true, ty := .f32, bty := .f32, partial_ := false, cplx := false, tern := false
    win := windowFrom (sget c.q.q c.x.d.idx), sa := c.x.b.idx, sb := 0, k := 0, k0 := 0, prow := bits qp 0 16
    pcol := bits qp 16 16, nb := bits qp 32 8, off := qBytes c.q c.x c.x.c, reads := [c.x.b.idx] }

/-- The value checks of a SCACC. -/
def scaccOk (t : Team) (qp : BitVec 64) (j : MatJob) : Bool :=
  windowOk .word j.win && qp.toNat < 2 ^ 40 && 1 ≤ j.nb && j.nb ≤ 32 && slotRangeOk t j.sa 1 && j.off % 64 = 0 &&
    j.off + 64 * j.nb ≤ slotBytes &&
    (List.range j.nb).all (fun n => windowOk .word { j.win with r0 := j.prow + n * j.win.rows, c0 := j.pcol })

/-- SCACC (R309). -/
def execScacc (x : Enc) (s : State) : Out :=
  issueQ .scacc x s (fun c s =>
    let j := scaccJob c
    if !scaccOk c.t (sget c.q.q x.a.idx) j then seqIllegal s c
    else if !slotsReady c.t 0 j then s
    else seqAdvance (modSeq s c.tid (fun q => { q with jobs := q.jobs ++ [j] })) c)

/-! ### Accumulator instructions (R310 to R312) -/

/-- The side that the PAR bit names (R310). -/
def accSide (x : Enc) : Nat := if x.bit 23 then 1 else 0
/-- The view of an ACC instruction. -/
def accView (x : Enc) : View := if x.ty == .f64 then .fp64 else .word
/-- The cell size of an ACC instruction. -/
def accBytesOf (x : Enc) : Nat := if x.ty == .f64 then 8 else 4
/-- PAR asks for a partner that the team has (R302). -/
def parOk (c : SIss) : Bool := !c.x.bit 23 || c.t.partner.isSome
/-- Every earlier product and SCACC of the sequencer has completed (R314, R316). -/
def arrayIdle (q : Seq) : Bool := q.jobs.isEmpty && q.jobsP.isEmpty

/-- ACC.ZERO of a window: every cell is +0; a part that the window covers whole is sound. -/
def zeroWindow (v : View) (w : Window) (c : PCore) : PCore :=
  let ws := (List.range w.rows).flatMap (fun r => (List.range w.cols).flatMap (fun k => cellWords v (w.r0 + r) (w.c0 + k)))
  let covered (p : Nat) : Bool := (List.range 4).all (fun k => ws.contains (4 * p + k))
  { c with acc := c.acc.filter (fun e => !ws.contains e.1)
           accPoison := c.accPoison.filter (fun e => !covered e.1) }

/-- ACC.ZERO (R310). -/
def execAccZero (x : Enc) (s : State) : Out :=
  issueQ .accZero x s (fun c s =>
    let w := windowFrom (sget c.q.q x.d.idx)
    if !parOk c || !windowOk (accView x) w then seqIllegal s c
    else if !arrayIdle c.q then s
    else seqAdvance (modCore s (sideCore c.t (accSide x)) (zeroWindow (accView x) w)) c)

/-- A scope whose instance holds more than one core, for a sequencer. -/
def seqWide (t : Team) (scope : Nat) : Bool := 3 ≤ scope || (scope == 1 && t.partner.isSome)

/-- The exact address of a cell of an access (R310). -/
def seqAddr (a : SeqAcc) (row col : Nat) : Int := a.base + (row * a.pitch + col * a.e : Nat)

/-- What one cell of an access reaches (R216, R312). -/
def seqReach (s : State) (t : Team) (a : SeqAcc) (row col : Nat) : Except Fail (List (Phys × Nat)) :=
  let x := seqAddr a row col
  if !addrOk x a.e || x % (a.e : Nat) ≠ 0 then .error { cause := evAddress }
  else reachRuns s (seqAccessor t) (BitVec.ofInt 64 x) a.e (if a.kind = 0 || a.kind = 2 then .r else .w)

/-- The first failing cell of a row: its address and why. -/
def rowFail (s : State) (t : Team) (a : SeqAcc) (row : Nat) : Option (BitVec 64 × Fail) :=
  (List.range a.win.cols).findSome? (fun c =>
    match seqReach s t a row c with
    | .error f => some (BitVec.ofInt 64 (seqAddr a row c), f)
    | .ok _ => none)

/-- The sequencer's core reads a cell: its bytes, and whether a part is poisoned. -/
def seqLoad (s : State) (t : Team) (a : SeqAcc) (row col : Nat) : Nat × Bool × State :=
  match seqReach s t a row col with
  | .error _ => (0, false, s)
  | .ok runs =>
    let s0 := touchPages s t.home t.part t.ctx (BitVec.ofInt 64 (seqAddr a row col)) a.e
    let r := (segsOf runs).foldl (fun (r : List (BitVec 8) × Bool × State) sg =>
      let (d, p, st) := l1View r.2.2 t.home t.part t.ctx t.launch.chain sg.line sg.cpol a.h1 a.h2
      let st1 := if sg.cpol = 0 then l1Hint st t.home sg.line a.h1 else st
      (r.1 ++ lineBytes d sg.off sg.len, r.2.1 || p &&& touchedParts sg.off sg.len != 0, st1)) ([], false, s0)
    (leNat r.1, r.2.1, r.2.2)

/-- The cells of some rows of an access that are not performed yet, row by row (R129). -/
def cellsLeft (q : Seq) (a : SeqAcc) (rows : List Nat) : List (Nat × Nat) :=
  (rows.flatMap (fun r => (List.range a.win.cols).map (fun c => (r, c)))).filter (fun x => !q.early.contains x)

/-- A cell that a store of the sequencer writes: its number, the piece of a line, its bytes, and whether they are
poisoned. -/
structure CellWrite where
  cell : Nat × Nat
  seg : Seg
  bytes : List (BitVec 8)
  bad : Bool
  deriving DecidableEq, Repr

/-- What a store of the sequencer writes of a cell. -/
def seqWrites (s : State) (t : Team) (a : SeqAcc) (x : Nat × Nat) : List CellWrite :=
  let k := coreOf s (sideCore t a.side)
  let ws := cellWords (if a.e = 8 then .fp64 else .word) (a.win.r0 + x.1) (a.win.c0 + x.2)
  let (n, bad) := if a.kind = 1 then (cellGet k.acc ws, cellBad k.accPoison ws) else (a.val.toNat, a.bad)
  match seqReach s t a x.1 x.2 with
  | .error _ => []
  | .ok runs => (segsOf runs).map (fun sg => { cell := x, seg := sg, bytes := ((leBytes a.e n).drop sg.start).take sg.len, bad })

/-- A write of the sequencer goes on its way to a peer, with the sequencer's identity, the cell's row and address, and the
poison of its part (R133, R292, R310, R312). -/
def seqPost (s : State) (t : Team) (tid : Nat) (a : SeqAcc) (w : CellWrite) : State :=
  let pa := 128 * w.seg.line + w.seg.off
  let slot := match t.seq with | some q => q.index | none => 0
  { s with
    ual := s.ual ++ [{ id := s.nextOp, port := ualPort pa, gid := 0, pc := a.pc, pa, kind := 1, lane := w.cell.1, team := tid
                       va := BitVec.ofInt 64 (seqAddr a w.cell.1 w.cell.2), data := w.bytes, size := a.e, uniform := true
                       poisoned := w.bad, ctx := t.ctx, part := t.part, coreid := coreidOf s t.home, slot, gindex := 0x20 }]
    nextOp := s.nextOp + 1 }

/-- The sequencer's core stores cells of an access in its store order (R315), by lines: a 16-B part that the access
writes whole is sound, and one that receives a poisoned byte is poisoned (R134, R310). -/
def seqStore (s : State) (t : Team) (tid : Nat) (a : SeqAcc) (cells : List (Nat × Nat)) : State :=
  let ws := cells.flatMap (seqWrites s t a)
  let s0 := cells.foldl (fun st x => touchPages st t.home t.part t.ctx (BitVec.ofInt 64 (seqAddr a x.1 x.2)) a.e) s
  (ws.foldl (fun (m : Amap Nat) w => mput m w.seg.line w.seg.cpol) []).foldl (fun st lc =>
    let mine := ws.filter (fun w => w.seg.line == lc.1)
    if isRemote (128 * lc.1) then
      mine.foldl (fun st w => seqPost st t tid a w) (modCore st t.home (fun c => { c with l1 := mdel c.l1 lc.1 }))
    else
      let dm := mine.foldl (fun (d : BitVec 1024 × BitVec 128) w =>
        (setLineBytes d.1 w.seg.off w.bytes, d.2 ||| byteMask w.seg.off w.seg.len)) (0, 0)
      let bad := mine.foldl (fun (m : BitVec 8) w => if w.bad then m ||| touchedParts w.seg.off w.seg.len else m) 0
      let st1 := coreStoreLine st t.home t.part t.ctx t.launch.chain lc.1 lc.2 a.h1 a.h2 dm.1 dm.2
        (wholeOfMask dm.2 &&& ~~~ bad)
      if bad = 0 then st1 else taintLine st1 t.home lc.1 bad) s0

/-- One cell of a load is performed. -/
def performCell (t : Team) (tid : Nat) (a : SeqAcc) (s : State) (x : Nat × Nat) : State :=
  let ws := cellWords (if a.e = 8 then .fp64 else .word) (a.win.r0 + x.1) (a.win.c0 + x.2)
  let (n, bad, s1) := seqLoad s t a x.1 x.2
  if a.kind = 0 then
    modCore s1 (sideCore t a.side) (fun k => { k with
      acc := cellPut k.acc ws n, accPoison := if bad then cellTaint k.accPoison ws else k.accPoison })
  else if bad then haltSeq s1 tid evPoison
  else qput s1 tid a.reg (BitVec.ofNat 64 n)

/-- The cells among some that lie in the 16-B part of memory of a cell. -/
def samePart (a : SeqAcc) (x : Nat × Nat) (cells : List (Nat × Nat)) : List (Nat × Nat) :=
  cells.filter (fun y => seqAddr a y.1 y.2 / 16 == seqAddr a x.1 x.2 / 16)

/-- The sequencer goes on after an access: to the next word, or where it stood when a peer refused the cell. -/
def seqDone (s : State) (tid : Nat) (a : SeqAcc) : State :=
  modSeq s tid (fun q => { q with
    pc := (a.back.map (·.1)).getD (a.pc + 1), wait := (a.back.map (·.2)).getD .none, unfinished := none, early := []
    age := s.clk + 1 })

/-- Rows as UNF numbers them: bit 63 stands for rows 63 and above (R312). -/
def rowsMask (rows : List Nat) : BitVec 64 := maskOf (rows.map (fun r => min r 63))

/-- The fault record of an access whose rows fail (R218, R219, R312), with the sequencer's identity (R292); DONE holds the
rows that this issue or REPLAY has completed (R221). -/
def seqRecord (s : State) (t : Team) (q : Seq) (a : SeqAcc) (fs : List (Nat × BitVec 64 × Fail)) : State :=
  match fs with
  | [] => s
  | (_, va, f) :: _ =>
    let unf := rowsMask (fs.map (·.1))
    let done := rowsMask a.rows &&& ~~~ unf
    let same := fs.all (fun x => x.2.1.toNat / 2 ^ 16 == va.toNat / 2 ^ 16)
    let mixed := fs.any (fun x => x.2.2.cause != f.cause)
    emitRecord s t.part (faultRec a.pc f.cause (recFlags false f.malformed f.poisoned same mixed f.remote true) f.level
      t.ctx 0 done unf va.toNat (coreidOf s t.home) q.index 0x20
      ((if a.kind = 0 || a.kind = 2 then 0 else 1) + a.e * 2 ^ 8))

/-- Performs an access of a sequencer: the rows that translate, in order, with its ORDER; failing rows go into one
record and wait for REPLAY, and the sequencer with them; else it goes on with the next word. Where the schedule says so, a
16-B part of an access none of whose rows fails is performed before the rest (R129). -/
def performSeq (s : State) (tid : Nat) (a : SeqAcc) : State :=
  match mget s.teams tid with
  | none => s
  | some t =>
    match t.seq with
    | none => s
    | some q =>
      let fs := a.rows.filterMap (fun r => (rowFail s t a r).map (fun f => (r, f)))
      let good := a.rows.filter (fun r => !fs.any (fun f => f.1 == r))
      let load := a.kind = 0 || a.kind = 2
      let wide := seqWide t a.scope
      let s1 := if wide && load && isAcquire a.order then l1DropClean s t.home
        else if wide && !load && isRelease a.order then l1WriteBackAll s t.home
        else s
      let cells := cellsLeft q a good
      let first := match q.only with | some x => samePart a x cells | none => []
      let some_ := fs.isEmpty && !first.isEmpty && decide (first.length < cells.length)
      let now := if some_ then first else cells
      let s0 := modSeq s1 tid (fun q => { q with only := none })
      let s2 := if load then now.foldl (performCell t tid a) s0 else seqStore s0 t tid a now
      let s3 := if wide && !load && isRelease a.order then l1WriteBackAll s2 t.home else s2
      if some_ then modSeq s3 tid (fun q => { q with early := q.early ++ now })
      else if fs.isEmpty then seqDone s3 tid a
      else
        let a' := { a with rows := fs.map (·.1), cause := (fs.head?.map (·.2.2.cause)).getD 0 }
        let s4 := fs.foldl (fun st f => touchTlb st t.home t.part t.ctx f.2.1) s3
        seqRecord (modSeq s4 tid (fun q => { q with wait := .fault, unfinished := some a', early := [] })) t q a fs

/-- YLD = 1 holds the sequencer for a clk (R152). -/
def paced (c : SIss) (s : State) : State :=
  if c.x.yld then modSeq s c.tid (fun q => { q with readyAt := s.clk + 2, age := s.clk + 2 }) else s

/-- REPLAY re-performs the failing rows of a sequencer's access (R221, R312); it is an acquire at device scope (R132). -/
def replaySeq (s : State) (tid : Nat) (a : SeqAcc) : State :=
  match mget s.teams tid with
  | none => s
  | some t => performSeq (l1DropClean s t.home) tid a

/-- A release of the sequencer waits, as a group's does (R126, R431). -/
def seqReleaseWaits (s : State) (t : Team) (scope : Nat) : Bool :=
  peersBehind s scope || (seqWide t scope && !dirtyReady s t.home)

/-- ACC.LOAD and ACC.STORE issue (R302, R310). -/
def issueAccMem (kind : Nat) (c : SIss) (s : State) : State :=
  let w := windowFrom (sget c.q.q c.x.d.idx)
  let e := accBytesOf c.x
  let qa := sget c.q.q c.x.a.idx
  let pitch := qBytes c.q c.x c.x.b
  if !parOk c || !windowOk (accView c.x) w || qa.toNat % e ≠ 0 || pitch % e ≠ 0 then seqIllegal s c
  else if !arrayIdle c.q || !memReady s c.t.part || (kind = 1 && isRelease c.x.order && seqReleaseWaits s c.t c.x.scope) then s
  else
    paced c <| performSeq s c.tid
      { pc := c.q.pc, kind, e, side := accSide c.x, win := w, base := qa.toInt, pitch, rows := List.range w.rows
        order := c.x.order, scope := c.x.scope, h1 := c.x.h1.toNat, h2 := c.x.h2.toNat }

/-- ACC.LOAD (R310). -/
def execAccLoad (x : Enc) (s : State) : Out := issueQ .accLoad x s (issueAccMem 0)
/-- ACC.STORE (R310). -/
def execAccStore (x : Enc) (s : State) : Out := issueQ .accStore x s (issueAccMem 1)

/-- The cell of the accumulator store that ACC.MOVE gives register VREG + j of lane i (R311). -/
def moveCell (x : Enc) (w : Window) (j i : Nat) : Nat × Nat :=
  (w.r0 + (if x.ty == .f64 then j / 2 else j), w.c0 + i)

/-- A cell lies within a view, folded cells included. -/
def cellInView (v : View) (r c : Nat) : Bool := windowOk v { r0 := r, c0 := c, rows := 1, cols := 1 }

/-- ACC.MOVE (R311). -/
def execAccMove (x : Enc) (s : State) : Out :=
  issueQ .accMove x s (fun c s =>
    let w := windowFrom (sget c.q.q x.d.idx)
    let core := sideCore c.t (accSide x)
    let wide := x.ty == .f64
    match targetGroup s c with
    | none => seqIllegal s c
    | some (gid, g) =>
      let ok := (List.range (moveCount x)).all (fun j => (List.range g.width).all (fun i =>
        cellInView (accView x) (moveCell x w j i).1 (moveCell x w j i).2))
      if !parOk c || g.core ≠ core || moveReg x + moveCount x > g.nv ||
          (wide && (moveReg x % 2 ≠ 0 || moveCount x % 2 ≠ 0)) || !ok then seqIllegal s c
      else if !arrayIdle c.q || !targetFree g x then s
      else
        let k := coreOf s core
        sendData s c gid g (if wide then 2 else 1) (fun j i =>
          let ws := cellWords (accView x) (moveCell x w j i).1 (moveCell x w j i).2
          (BitVec.ofNat 32 (cellGet k.acc ws / 2 ^ (if wide then 32 * (j % 2) else 0)), cellBad k.accPoison ws)))

/-! ### Sequencer registers and end (R313, R314) -/

/-- SEQ.LOOP.add (R314). -/
def execSeqLoopAdd (x : Enc) (s : State) : Out :=
  issueQ .seqLoopAdd x s (fun c s =>
    seqAdvance (qput s c.tid x.d.idx (qOperand c.q x x.a + qOperand c.q x x.b)) c)

/-- SEQ.LOOP.madd (R314). -/
def execSeqLoopMadd (x : Enc) (s : State) : Out :=
  issueQ .seqLoopMadd x s (fun c s =>
    seqAdvance (qput s c.tid x.d.idx (qOperand c.q x x.a * qOperand c.q x x.b + qOperand c.q x x.c)) c)

/-- The access of SEQ.LOOP.ldq and SEQ.LOOP.stq. -/
def quadAcc (kind : Nat) (c : SIss) : SeqAcc :=
  { pc := c.q.pc, kind, base := (sget c.q.q c.x.a.idx).toInt + c.x.simm, order := c.x.order, scope := c.x.scope
    reg := c.x.d.idx, val := sget c.q.q c.x.c.idx }

/-- SEQ.LOOP.ldq (R312, R314). -/
def execSeqLoopLdq (x : Enc) (s : State) : Out :=
  issueQ .seqLoopLdq x s (fun c s =>
    if memReady s c.t.part then paced c (performSeq s c.tid (quadAcc 2 c)) else s)

/-- SEQ.LOOP.stq (R312, R314). -/
def execSeqLoopStq (x : Enc) (s : State) : Out :=
  issueQ .seqLoopStq x s (fun c s =>
    if memReady s c.t.part && !(isRelease x.order && seqReleaseWaits s c.t x.scope) then paced c (performSeq s c.tid (quadAcc 3 c)) else s)

/-- SEQ.LOOP.flags (R314): it waits for the earlier products. -/
def execSeqLoopFlags (x : Enc) (s : State) : Out :=
  issueQ .seqLoopFlags x s (fun c s =>
    if !arrayIdle c.q then s
    else
      let s1 := qput s c.tid x.d.idx (c.q.flags.setWidth 64)
      seqAdvance (if x.bit 3 then modSeq s1 c.tid (fun q => { q with flags := 0 }) else s1) c)

/-- A delivery of the sequencer's to a group of its team has not landed. -/
def deliveriesLeft (s : State) (tid : Nat) : Bool := s.groups.any (fun e => e.2.team == tid && delivering e.2)

/-- SEQ.END (R313): every slot is released, the sequencer ends and counts as exited. -/
def execSeqEnd (x : Enc) (s : State) : Out :=
  issueQ .seqEnd x s (fun c s =>
    if !arrayIdle c.q || deliveriesLeft s c.tid then s
    else
      let s1 := modTeam s c.tid (fun t => { t with
        slots := t.slots.map (fun e => (e.1, releaseSlot e.2)), seq := t.seq.map (fun q => { q with ended := true }) })
      retireTeam (memberExits s1 c.tid seqMember) c.tid)

end Sys2Proof.Machine
end

