-- ==== Sys2Proof/Machine/Platform.lean ====
section
/-!
DEFINITION. Mantle: its commands (R415, R426 to R429), power-on reset, power and temperature (R430), and the readiness of
units (R431, R432).
-/
namespace Sys2Proof.Machine
open Sys2Proof

/-! ### Commands (R426) -/

/-- A command is accepted where its signature holds and its sequence number exceeds the last one accepted; else it is
dropped and logged. -/
def command (s : State) (code : Nat) (signed : Bool) (seq : BitVec 64) (f : State → State) : State :=
  if signed && s.mantle.seq.toNat < seq.toNat then
    f (logEvent { s with mantle := { s.mantle with seq := seq } } "COMMAND" [code, seq.toNat])
  else logEvent s "COMMAND_DROPPED" [code, seq.toNat]

/-- A refused request is logged (R427). -/
def refuse (s : State) (code : Nat) (args : List Nat) : State := logEvent s "REQUEST_REFUSED" (code :: args)

/-! ### LAYOUT (R415, R425, R432) -/

/-- The layout of a partition. -/
structure Layout where
  clusters : BitVec 32
  sliceGroups : BitVec 32
  halfStacks : BitVec 24
  eth : BitVec 8
  ual : BitVec 8
  deriving DecidableEq, Repr

/-- The layout that destroys a partition. -/
def Layout.isEmpty (l : Layout) : Bool := l.clusters == 0 && l.sliceGroups == 0 && l.halfStacks == 0

/-- A layout that R414 and R417 admit beside the other partitions. -/
def layoutOk (s : State) (p : Nat) (l : Layout) : Bool :=
  let others := (List.range 8).filter (· != p)
  let apart := others.all (fun o =>
    let q := partOf s o
    l.clusters &&& q.clusters == 0 && l.sliceGroups &&& q.sliceGroups == 0 && l.halfStacks &&& q.halfStacks == 0)
  let eth := others.foldl (fun n o => n + (partOf s o).ethShare.toNat) l.eth.toNat
  let ual := others.foldl (fun n o => n + (partOf s o).ualShare.toNat) l.ual.toNat
  p < 8 && apart && eth ≤ 64 && ual ≤ 64 && (l.isEmpty || (l.clusters != 0 && l.sliceGroups != 0 && l.halfStacks != 0))

/-- The physical cores of clusters. -/
def coresIn (m : BitVec 32) : List Nat := (bitsOf m).flatMap (fun k => (List.range 9).map (fun i => 9 * k + i))

/-- Sageip's groups stop with the other units of their partition, whether it runs or is halted, and the stop records are
written (R360, R361, R425; log entry 58). -/
def stopWithSageip (s : State) (p : Nat) : State :=
  let units := (s.groups.filter (fun e => e.2.part == p && e.2.sageip)).map (fun e =>
    groupUnit s e.2 evHaltPeer false (groupPc e.2) 0 e.2.live)
  stopUnits (match (partOf s p).halt with
    | some _ => modHalt s p (fun h => { h with units := h.units ++ units, headed := false })
    | none => if (partOf s p).state = 0 then raiseHalt s p 0 units 0 0 else s) p

/-- A partition is moved to STOPPED: every unit of it stops as under a halt, Sageip's groups included, every queue stops
with HALTED, and saved launches are discarded (R425). -/
def stopPartition (s : State) (p : Nat) : State :=
  let q := partOf s p
  let s1 := stopWithSageip s p
  let s2 := (coresIn q.clusters).foldl emptyCore s1
  let ours (gid : Nat) : Bool := (mget s.groups gid).any (fun g => g.part == p)
  let s3 := (fun (st : State) => writeHalted st p) <| modPart s2 p (fun q => { q with
    state := 2, halt := none, queues := haltQueues q.queues, saved := [], launches := [], preempts := [], graphs := [], readyQ := [], decs := []
    rcvFree := 2 ^ 25 })
  { s3 with
    groups := s3.groups.filter (fun e => e.2.part != p), teams := s3.teams.filter (fun e => e.2.part != p)
    copies := s3.copies.filter (fun c => c.part != p), tailor := s3.tailor.filter (fun o => o.part != p)
    travs := s3.travs.filter (fun t => t.part != p), colls := s3.colls.filter (fun c => c.part != p)
    sliceQ := s3.sliceQ.filter (fun r => !ours r.gid), ual := s3.ual.filter (fun u => !ours u.gid || u.kind == 1)
    jobs := s3.jobs.filter (fun j => j.part != p), cloakMons := s3.cloakMons.filter (fun k => k.part != p) }

/-- A half-stack is filled with zeros (R415). -/
def zeroHalfStack (s : State) (h : Nat) : State :=
  let inside (a : Nat) : Bool := 2 ^ 35 * h ≤ a && a < 2 ^ 35 * (h + 1)
  { s with mem := s.mem.filter (fun e => !inside e.1), poison := s.poison.filter (fun e => !inside (16 * e.1)) }

/-- READY clears for the units that a partition gives up (R432). -/
def clearUnits (s : State) (clusters sliceGroups : BitVec 32) (halfStacks : BitVec 24) : State :=
  let s1 := (bitsOf clusters).foldl (fun st k => setReady st 6 (32 + k) false) s
  let s2 := (bitsOf sliceGroups).foldl (fun st g => setReady st 6 g false) s1
  (bitsOf halfStacks).foldl (fun st h =>
    (List.range 16).foldl (fun st c => setReady st ((16 * h + c) / 64) ((16 * h + c) % 64) false) st) s2

/-- A layout takes effect: L2 lines of the slice groups involved are written back and invalidated, half-stacks that change
owner are zeroed, the layout is published, and Sageip starts. -/
def applyLayout (s : State) (p : Nat) (l : Layout) : State :=
  let q := partOf s p
  let s1 := if q.clusters = 0 then s else stopPartition s p
  let s2 := l2WriteBackAll s1 p true
  let s3 := (bitsOf (l.halfStacks &&& ~~~ q.halfStacks)).foldl zeroHalfStack s2
  let s4 := (coresIn (q.clusters ||| l.clusters)).foldl (fun st c => modCore st c (fun k => { k with tlb := [] })) s3
  let s5 := (bitsOf (q.clusters ||| l.clusters)).foldl (fun st k => modCluster st k (fun c => { c with tlb := [], job := none })) s4
  let s6 := clearUnits s5 (q.clusters &&& ~~~ l.clusters) (q.sliceGroups &&& ~~~ l.sliceGroups)
    (q.halfStacks &&& ~~~ l.halfStacks)
  if l.isEmpty then { s6 with parts := mdel s6.parts p }
  else
    startSageip (modPart s6 p (fun q => { q with
      clusters := l.clusters, sliceGroups := l.sliceGroups, halfStacks := l.halfStacks, ethShare := l.eth
      ualShare := l.ual })) p

/-- LAYOUT (R415). -/
def execLayout (signed : Bool) (seq : BitVec 64) (part : Nat) (clusters sliceGroups : BitVec 32) (halfStacks : BitVec 24)
    (ethShare ualShare : BitVec 8) (s : State) : Out :=
  stepEvent s (fun s => command s 1 signed seq (fun s =>
    let l : Layout := { clusters, sliceGroups, halfStacks, eth := ethShare, ual := ualShare }
    if layoutOk s part l then
      logEvent (applyLayout s part l) "LAYOUT" [part, clusters.toNat, sliceGroups.toNat, halfStacks.toNat]
    else refuse s 1 [part]))

/-! ### Firmware (R428) -/

/-- STAGE (R428): a verified image of at least the minimum version goes into the inactive bank. -/
def execStage (signed : Bool) (seq : BitVec 64) (image : List (BitVec 8)) (version : Nat) (verified : Bool) (s : State) :
    Out :=
  stepEvent s (fun s => command s 2 signed seq (fun s =>
    let m := s.mantle
    let b : FwBank := { image, version }
    if !verified || version < m.minVersion then refuse s 2 [version]
    else
      { s with mantle := { m with
          bankA := if m.activeB then b else m.bankA, bankB := if m.activeB then m.bankB else b, staged := true } }))

/-- ACTIVATE (R428): the staged bank is active from the next reset. -/
def execActivate (signed : Bool) (seq : BitVec 64) (s : State) : Out :=
  stepEvent s (fun s => command s 3 signed seq (fun s =>
    if s.mantle.staged then { s with mantle := { s.mantle with marked := true } } else refuse s 3 []))

/-- POWER_ON_RESET (R14, R428): the active bank boots, or where it does not the other, which is logged. Flash, fuses and
enrolment stay; where no bank boots the package has no Mantle and does nothing. -/
def execPowerOnReset (bootsA bootsB : Bool) (s : State) : Out :=
  let m := s.mantle
  let want := m.activeB != m.marked
  let boots (b : Bool) : Bool := if b then bootsB else bootsA
  let use := if boots want then want else !want
  let s1 : State := { State.reset with
    draws := s.draws, agenda := s.agenda, turn := s.turn, phase := s.phase
    mantle := { State.reset.mantle with
      log := m.log, logNext := m.logNext, bankA := m.bankA, bankB := m.bankB, minVersion := m.minVersion, seq := m.seq
      pod := m.pod, accid := m.accid, activeB := use, staged := m.staged && !m.marked, powered := boots use } }
  .next (if use = want then s1 else logEvent s1 "FALL_BACK" [use.toNat])

/-! ### Quote, log, power limit and test mode (R426, R427, R429, R430) -/

/-- What a quote covers of a partition. -/
def quotePart (s : State) (p : Nat) : List Nat :=
  let q := partOf s p
  [p, q.clusters.toNat, q.sliceGroups.toNat, q.halfStacks.toNat, q.ethShare.toNat, q.ualShare.toNat, q.fraction.toNat,
   q.noAuditOk.toNat, q.testPeriod.toNat, ((reserveClusters s p).length == 1).toNat, q.testMode.toNat] ++
    q.launches.map (fun l => l.launch.lining.toNat)

/-- What a quote covers (R429). -/
def quoteWords (s : State) (nonce : BitVec 256) : List Nat :=
  let m := s.mantle
  [nonce.toNat, m.pod, m.accid, m.bankA.version, (Config.bankHash m.bankA.image).toNat, m.bankB.version,
   (Config.bankHash m.bankB.image).toNat, m.activeB.toNat] ++ (s.parts.map (·.1)).flatMap (quotePart s)

/-- QUOTE (R429): the words and their signature. -/
def execQuote (signed : Bool) (seq : BitVec 64) (nonce : BitVec 256) (s : State) : Out :=
  stepEvent s (fun s => command s 4 signed seq (fun s =>
    let ws := quoteWords s nonce
    send s (.answer 4 (ws ++ [leNat (Config.signature (ws.flatMap (leBytes 32)))]) [])))

/-- LOG (R427): the entries from an index on. -/
def execLog (signed : Bool) (seq : BitVec 64) (index : Nat) (s : State) : Out :=
  stepEvent s (fun s => command s 5 signed seq (fun s =>
    let es := s.mantle.log.filter (fun e => index ≤ e.1)
    send s (.answer 5 (es.map (·.1)) (es.map (·.2)))))

/-- POWER (R426): a power limit of 500 to 3,600 W. -/
def execPower (signed : Bool) (seq : BitVec 64) (watts : Nat) (s : State) : Out :=
  stepEvent s (fun s => command s 6 signed seq (fun s =>
    if 500 ≤ watts && watts ≤ 3600 then { s with mantle := { s.mantle with powerLimit := watts } }
    else refuse s 6 [watts]))

/-- TEST (R252, R426): TESTMODE of a partition. -/
def execTest (signed : Bool) (seq : BitVec 64) (part : Nat) (on : Bool) (s : State) : Out :=
  stepEvent s (fun s => command s 7 signed seq (fun s =>
    if (partOf s part).clusters = 0 then refuse s 7 [part] else modPart s part (fun q => { q with testMode := on })))

/-! ### Power and temperature (R430) -/

/-- CLOCK_THROTTLE (R430): down by 25 MHz, to 400 at the lowest, while the power exceeds its limit, a die is at 100 °C
or the board asserts the throttle line; up again when none of these holds. -/
def execClockThrottle (watts temp : Nat) (throttleLine : Bool) (s : State) : Out :=
  stepEvent s (fun s =>
    let m := s.mantle
    let hot := m.powerLimit < watts || 100 ≤ temp || throttleLine
    { s with mantle := { m with watts, temp, mhz := if hot then max 400 (m.mhz - 25) else min 1600 (m.mhz + 25) } })

/-- OVERTEMP_SHUTDOWN (R430): a die at 115 °C is logged, and power is removed. -/
def execOvertempShutdown (die : Nat) (s : State) : Out :=
  stepEvent s (fun s =>
    let s1 := logEvent s "OVERTEMP" [die]
    { s1 with mantle := { s1.mantle with powered := false } })

/-! ### Readiness (R431) -/

/-- UNIT_READY (R431): a READY bit is set; a quarantined cluster's or a cluster's without active cores is not (R432).
Sageip starts where it has waited for a cluster. -/
def execUnitReady (word bit : Nat) (s : State) : Out :=
  stepEvent s (fun s =>
    let k := bit - 32
    let barred := word = 6 && 32 ≤ bit && ((clusterOf s k).quarantined ||
      (clusterOf s k).map.all (fun e => (coreOf s (9 * k + e.2)).retired))
    if 8 ≤ word || 64 ≤ bit || barred then s
    else (List.range 8).foldl startSageip (setReady s word bit true))

end Sys2Proof.Machine
end

