-- ==== Sys2Proof/Machine/Leave.lean ====
section
/-!
DEFINITION. EXIT (R38, R254) and REPLAY (R221, R258).
-/
namespace Sys2Proof.Machine
open Sys2Proof

/-! ### EXIT (R38, R48, R222, R254, R382, R386) -/

/-- The group's last lane has exited: its holds, monitors and pin are released, it counts as exited for
its team, and its slot is freed, and a shader returns, once its store queue is empty. -/
def lastExit (s : State) (gid : Nat) : State :=
  let s1 := releasePin s gid
  let s2 := modGroup s1 gid (fun g => { g with
    holds := [], mons := [], inj := none, synclRound := none, pend := [], events := [], aside := none })
  match mget s2.groups gid with
  | none => s2
  | some g => retireGroup (memberExits s2 g.team g.index) gid

/-- The active lanes of a split exit; the others go on. A split that takes a parked one's place in the table sends that to
the overflow stack (R34). -/
def exitLanes (c : Iss) (s : State) : State :=
  let s1 := spilled (onGroup (advance s c) c (fun g => settleSyncl (dropLanes g c.act) s.clk)) c.gid c.g.ovf
  match mget s1.groups c.gid with
  | none => s1
  | some g => if g.live = 0 then lastExit s1 c.gid else s1

/-- EXIT (R254). -/
def execExit (x : Enc) (s : State) : Out := issue .exit x s exitLanes

/-! ### REPLAY (R258) -/

/-- The fields of a fault record that REPLAY reads (Table 13.3). -/
structure RecFields where
  pc : Pc
  cause : Nat
  flags : Nat
  ctx : Nat
  serial : BitVec 64
  unf : BitVec 64
  core : Nat
  slot : Nat
  group : Nat
  kind : Nat
  object : Nat
  addr : BitVec 64
  deriving DecidableEq, Repr

/-- The fields from a record's bytes. -/
def recFields (bs : List (BitVec 8)) : RecFields :=
  { pc := BitVec.ofNat 32 (fieldAt bs 0 4), cause := fieldAt bs 4 1, flags := fieldAt bs 5 1, ctx := fieldAt bs 7 1 % 16
    serial := BitVec.ofNat 64 (fieldAt bs 8 8), unf := BitVec.ofNat 64 (fieldAt bs 24 8), core := fieldAt bs 40 1
    slot := fieldAt bs 41 1, group := fieldAt bs 42 1, kind := fieldAt bs 48 1, object := fieldAt bs 50 4
    addr := BitVec.ofNat 64 (fieldAt bs 32 8) }

/-- A reserved field of a record is not zero (Tables 13.3 and 13.4). -/
def recReserved (bs : List (BitVec 8)) : Bool :=
  let cause := fieldAt bs 4 1
  let taskeng := fieldAt bs 41 1 / 32 % 2 = 1
  let detail :=
    if cause = evScratchBound then !zeroAt bs 51 13
    else if cause = evTensorBound then false
    else if cause = evStoreAfterExit then !zeroAt bs 50 14
    else !zeroAt bs 54 10 || (!taskeng && !zeroAt bs 50 4)
  128 ≤ fieldAt bs 5 1 || 4 ≤ fieldAt bs 6 1 || 16 ≤ fieldAt bs 7 1 || 128 ≤ fieldAt bs 41 1 || !zeroAt bs 43 5 || detail

/-- The causes that REPLAY takes (R258). -/
def replayCause (c : Nat) : Bool :=
  c == evAddress || c == evPageFault || c == evProtection || c == evScratchBound || c == evTensorBound || c == evStoreAfterExit

/-- The launch front-end's access that a record names is made again (R64, R264, R422); none where nothing waits for it. -/
def replayFront (s : State) (p : Nat) (r : RecFields) : Option State :=
  let q := partOf s p
  if r.kind = 5 then
    let named (t : ReadyTask) : Bool := t.faulted && t.ctx == r.ctx && t.index == r.object && t.fva == r.addr
    if q.readyQ.any named then
      some (modPart s p (fun q => { q with readyQ := updFirst named (fun t => { t with faulted := false }) q.readyQ }))
    else none
  else if r.kind = 1 then
    let u := queueOf s p (r.object % 64)
    if u.unwritten && queueCtx u = r.ctx then
      some (writeQueueWords (modQueue s p (r.object % 64) (fun u => { u with unwritten := false })) p (r.object % 64))
    else none
  else
    match q.launches.find? (fun l => l.faulted && l.ctx == r.ctx && l.fva == r.addr) with
    | some l => some (modLaunch s p l.id (fun l => { l with faulted := false }))
    | none =>
      match q.saved.find? (fun v => v.faulted && v.team.ctx == r.ctx && v.fva == r.addr) with
      | some v => some (modPart s p (fun q => { q with
          saved := q.saved.map (fun u => if u.tid = v.tid then { u with faulted := false } else u) }))
      | none =>
        (s.travs.find? (fun t => t.rootFaulted && t.part == p && t.ctx == r.ctx && t.fva == r.addr)).map (fun t =>
          modTrav s t.id (fun t => { t with rootFaulted := false }))

/-- Darner's read of an image for a job of the original group is made again (R329). -/
def replayDarner (s : State) (p : Nat) (r : RecFields) : Option State :=
  (s.jobs.find? (fun j => j.part == p && j.faulted && (j.orig.map (·.serial)) == some r.serial)).map (fun j =>
    let s1 := modJob s j.id (fun j => { j with faulted := false })
    if j.gid.isNone then loadRun s1 j.id else s1)

/-- A save's write is made again: the save of the group with the record's SERIAL (R364). -/
def replaySave (s : State) (p : Nat) (r : RecFields) : Option State :=
  match (partOf s p).preempts with
  | q :: _ =>
    if q.faulted = some r.serial && r.kind = 1 then some (modPreempt s p (fun q => { q with faulted := none }))
    else none
  | [] => none

/-- A sequencer's access is made again (R312). -/
def replaySequencer (s : State) (p : Nat) (r : RecFields) : Option State :=
  if r.group ≠ 0x20 then none
  else
    s.teams.findSome? (fun e =>
      match e.2.seq with
      | some q =>
        match q.unfinished with
        | some a =>
          if e.2.part = p && coreidOf s e.2.home = r.core && q.index = r.slot && a.pc = r.pc then some (replaySeq s e.1 a)
          else none
        | none => none
      | none => none)

/-- The SERIAL of a group, resident or saved. -/
def serialOf (s : State) (gid : Nat) : Option (BitVec 64) :=
  match mget s.groups gid with
  | some g => some g.serial
  | none => ((s.parts.flatMap (fun p => p.2.saved.flatMap (·.groups))).find? (fun e => e.1 == gid)).map (·.2.serial)

/-- An engine's access for a group is made again: a collective (R409), an overlay image (R266), a Tailor operation (R378)
or a traversal (R392). -/
def replayEngine (s : State) (p : Nat) (r : RecFields) : Option State :=
  match s.colls.find? (fun o => o.part == p && o.faulted && o.serial == r.serial && o.pc == r.pc) with
  | some o => some (replayColl s o.id)
  | none =>
    let mine (gid : Nat) (pc : Pc) : Bool := pc == r.pc && serialOf s gid == some r.serial
    match (s.cores.flatMap (fun k => k.2.dir.map (fun d => (k.1, d)))).find? (fun e =>
        e.2.part == p && e.2.faulted && e.2.pc == r.pc && e.2.serial == r.serial) with
    | some e => some (dirMod s e.1 e.2.part e.2.ctx e.2.id (fun d => { d with faulted := false }))
    | none =>
      match s.tailor.find? (fun o => o.faulted && mine o.gid o.pc) with
      | some o => some { s with tailor := updFirst (fun e => e.id == o.id) (fun e => { e with faulted := false }) s.tailor }
      | none =>
        let named (y : Query) : Bool := y.faulted && y.unf == r.unf && y.fva == r.addr
        (s.travs.find? (fun t => t.part == p && t.queries.any named && mine t.gid t.pc)).map (fun t =>
          let s1 := modTrav s t.id (fun t => { t with
            queries := t.queries.map (fun y => if named y then { y with faulted := false } else y) })
          progress (match mget s1.groups t.gid with | some g => acquireAt s1 g 4 | none => s1) t.id)

/-- A replay entry answers a record: the same PC and lanes, not yet replayed. -/
def entryFor (r : RecFields) (e : Option Replay) : Option Replay :=
  e.bind (fun e => if e.pc = r.pc && e.lanes = r.unf then some e else none)

/-- The group's replay entry that a record names, by CORE, SLOT and SERIAL, or with EXITED by SERIAL alone. -/
def replayTarget (s : State) (p : Nat) (r : RecFields) : Option (Nat × Replay) :=
  s.groups.findSome? (fun e =>
    let i := identOf s e.2
    if e.2.part = p && e.2.serial = r.serial &&
        (r.flags % 2 = 1 || (coreidOf s i.core = r.core && slotByte i = r.slot)) then
      match entryFor r e.2.replayG with
      | some x => some (e.1, x)
      | none => (entryFor r e.2.replayS).map (fun x => (e.1, x))
    else none)

/-- What REPLAY of a record's bytes does, its status, and for a group's entry the accesses it re-performs. -/
def replayRecord (s : State) (p : Nat) (bs : List (BitVec 8)) : State × Nat × Option (Nat × Nat) :=
  let r := recFields bs
  let engine (o : Option State) : State × Nat × Option (Nat × Nat) :=
    match o with
    | some s1 => (s1, 0, none)
    | none => (s, 1, none)
  if !replayCause r.cause || recReserved bs then (s, 2, none)
  else if r.slot / 32 % 2 = 1 then engine (replayFront s p r)
  else if r.slot / 64 % 2 = 1 then engine (replayDarner s p r)
  else
    match replayTarget s p r with
    | some (gid, e) => (replayEntry s gid e, 0, some (gid, e.id))
    | none =>
      engine ((replaySave s p r).orElse (fun _ => (replaySequencer s p r).orElse (fun _ => replayEngine s p r)))

/-- REPLAY reads its record and performs it; its status is written when the lanes are performed or have failed again. -/
def performReplay (c : Iss) (s : State) : State :=
  let a := uniOperand c.g c.x 0 c.x.a
  let done (s : State) (v : Nat) : State := advance (onGroup s c (fun g => putScalar g c.x.d.idx (fun _ => BitVec.ofNat 64 v))) c
  match c.sp.wait with
  | .replayed gid op => if onTheWay s gid op then s else done s 0
  | _ =>
    if operandDiffers c c.x.a then liningMismatch s c c.sp.mask
    else if !homeNow s c then s
    else
      let (id, s0) := fresh s
      let fail (s : State) (f : Fail) : State := uniformFail s c.gid c.j id c.sp.pc a f 0 64
      if a.toNat % 64 ≠ 0 then fail s0 { cause := evAddress }
      else
        match readAcc s0 c.gid id c.x.h1.toNat c.x.h2.toNat (accAt 0 a.toInt 64 64 0) with
        | (.error f, s1) => fail s1 f
        | (.ok f, s1) =>
          match replayRecord s1 c.g.part f.bytes with
          | (s2, v, some (gid, op)) => if onTheWay s2 gid op then waitAs s2 c (.replayed gid op) else done s2 v
          | (s2, v, none) => done s2 v

/-- REPLAY (R258). -/
def execReplay (x : Enc) (s : State) : Out := issue .replay x s performReplay

end Sys2Proof.Machine
end

