-- ==== Sys2Proof/Machine/Special.lean ====
section
/-!
DEFINITION. The special functions of major 0x25 (R91, Table 5.8, R203): the exact value, enclosed between two
fixed-point bounds, rounded once to FP32.
-/
namespace Sys2Proof.Machine

/-! ### Fixed point: a number v stands for v / 2^n -/

/-- Σ ±y^(2k+1)/(2k+1) from a term index on: the series of artanh (`alt` false) and arctan (true). `t` is
y^(2k+1) in fixed point, `num / den` is y². -/
def oddSeries (alt : Bool) (num den : Nat) : Nat → Nat → Nat → Int
  | 0, _, _ => 0
  | n + 1, k, t =>
    let term : Int := t / (2 * k + 1)
    (if alt && k % 2 = 1 then -term else term) + oddSeries alt num den n (k + 1) (t * num / den)

/-- artanh(a/b) with `n` fraction bits. -/
def artanhFix (n a b : Nat) : Int := oddSeries false (a * a) (b * b) n 0 (2 ^ n * a / b)

/-- ln 2 with `n` fraction bits: 2 artanh(1/3). -/
def ln2Fix (n : Nat) : Nat := (2 * artanhFix n 1 3).toNat

/-- π with `n` fraction bits: 16 arctan(1/5) − 4 arctan(1/239). -/
def piFix (n : Nat) : Nat :=
  (16 * oddSeries true 1 25 n 0 (2 ^ n / 5) - 4 * oddSeries true 1 57121 n 0 (2 ^ n / 239)).toNat

/-- Σ t^k / k! from a term on, with `n` fraction bits. -/
def expSeries (n t : Nat) : Nat → Nat → Nat → Nat
  | 0, _, _ => 0
  | m + 1, k, term => term + expSeries n t m (k + 1) (term * t / 2 ^ n / (k + 1))

/-- The Taylor series of sine (from k = 1) or cosine (from k = 0): the terms r^k/k! for every second k, with
alternating signs. -/
def trigSeries (n r : Nat) : Nat → Nat → Nat → Bool → Int
  | 0, _, _, _ => 0
  | m + 1, k, term, neg =>
    (if neg then -(term : Int) else term) +
      trigSeries n r m (k + 2) (term * r / 2 ^ n * r / 2 ^ n / ((k + 1) * (k + 2))) (!neg)

/-- The error of a sum of the series above, in units of the last bit. -/
def slack (n : Nat) : Nat := 8 * n

/-- An exact number between two bounds of the same sign, as `Ex` values whose last bit says that the exact value
is none of the numbers that rounding compares with. -/
def bounds (neg : Bool) (v : Nat) (n : Nat) (shift : Int) : Ex × Ex :=
  (.num neg (2 * (v - slack n) + 1) (shift - n - 1), .num neg (2 * (v + slack n) + 1) (shift - n - 1))

/-! ### The functions, for operands that Table 5.8 does not fix -/

/-- 1/√x of a positive number: exact where it is dyadic. -/
def rsqExact (p m : Nat) (e : Int) : Ex :=
  -- x = m × 2^e; 1/√x = √(2^k / m) × 2^(−(e + k)/2) with e + k even
  let k := 2 * (p + 4) + 2 * Nat.log2 m + 2 + (e % 2).toNat
  let q := 2 ^ k / m
  let r := isqrt q
  .num false (2 * r + (if r * r = q && 2 ^ k % m = 0 then 0 else 1)) (-((e + k) / 2) - 1)

/-- 2^x, between bounds with `n` fraction bits; exact for an integer x. Operands far beyond the exponent range
are cut there: the result overflows or underflows all the same. -/
def exp2Bounds (n : Nat) (neg : Bool) (m : Nat) (e : Int) : Ex × Ex :=
  if 20 < e + Nat.log2 m then
    let r : Ex := .num false 3 (if neg then -(2 ^ 20 : Int) else 2 ^ 20)
    (r, r)
  else
    let one : Int := 2 ^ n
    -- x in fixed point, truncated toward −∞ where it has more fraction bits
    let v : Int := if 0 ≤ e + n then m * 2 ^ (e + n).toNat else m / 2 ^ (-(e + n)).toNat
    let x : Int := if neg then -v - (if 0 ≤ e + n then 0 else 1) else v
    let i := x / one
    let f := (x % one).toNat
    if 0 ≤ e then (.num false 1 (if neg then -(m * 2 ^ e.toNat : Nat) else (m * 2 ^ e.toNat : Nat)),
        .num false 1 (if neg then -(m * 2 ^ e.toNat : Nat) else (m * 2 ^ e.toNat : Nat)))
    else if m % 2 ^ (-e).toNat = 0 then
      let k : Int := m / 2 ^ (-e).toNat
      (.num false 1 (if neg then -k else k), .num false 1 (if neg then -k else k))
    else
      let t := f * ln2Fix n / 2 ^ n
      bounds false (expSeries n t n 0 (2 ^ n)) n i

/-- log2 of a positive number that is no power of two, between bounds. -/
def log2Bounds (n m : Nat) (e : Int) : Ex × Ex :=
  let top := Nat.log2 m
  let i : Int := e + top
  -- z = m / 2^top in [1, 2); log2 z = 2 artanh((z − 1)/(z + 1)) / ln 2
  let frac := (2 * artanhFix n (m - 2 ^ top) (m + 2 ^ top)) * 2 ^ n / (ln2Fix n : Int)
  let v : Int := i * 2 ^ n + frac
  bounds (v < 0) v.natAbs n 0

/-- sin x or cos x, between bounds: x is reduced by the exact multiple of π/2 that its magnitude needs. -/
def trigBounds (n : Nat) (cos neg : Bool) (m : Nat) (e : Int) : Ex × Ex :=
  let w := n + 160
  let x := if 0 ≤ e + w then m * 2 ^ (e + w).toNat else m / 2 ^ (-(e + w)).toNat
  let half := piFix (w + 1) / 4
  let k := x / half
  let r := (x % half) / 2 ^ 160
  let quad := (if cos then k + 1 else k) % 4
  let useCos := quad % 2 == 1
  let v : Int := if useCos then trigSeries n r n 0 (2 ^ n) false else trigSeries n r n 1 r false
  let minus := (quad == 2 || quad == 3) != (neg && !cos)
  bounds (minus != (v < 0)) v.natAbs n 0

/-- The first of some precisions at which both bounds round to the same FP32 result. -/
def firstAgreed (f : Nat → Ex × Ex) : List Nat → FRes
  | [] => { val := 0, flags := 0 }
  | n :: ns =>
    let (lo, hi) := f n
    let a := deliver (fmtOf .f32) 0 false false lo
    let b := deliver (fmtOf .f32) 0 false false hi
    if a = b || ns.isEmpty then a else firstAgreed f ns

/-- The precisions tried. The value is irrational for every operand that reaches them, so that some precision
separates it from the points where rounding changes. -/
def precisions : List Nat := [224, 352]

/-- The six functions, in the order of their minors. -/
inductive SpecialFn where
  | rcp | rsq | exp2 | log2 | sin | cos
  deriving DecidableEq, Repr

/-- The result of a special function, before the flags are masked (R91, Table 5.8). -/
def specialRaw (fn : SpecialFn) (v : Fv) : FRes :=
  let f := fmtOf .f32
  let d (e : Ex) : FRes := deliver f 0 false false e
  match fn, v with
  | _, .nan s => d (.nan s)
  | .rcp, .inf neg => d (.num neg 0 0)
  | .rcp, .fin neg m e => if m = 0 then d (.inf neg true) else d (quotient 24 neg 1 0 m e)
  | .rsq, .inf neg => if neg then d (.nan true) else d (.num false 0 0)
  | .rsq, .fin neg m e =>
    if m = 0 then d (.inf neg true) else if neg then d (.nan true) else d (rsqExact 24 m e)
  | .exp2, .inf neg => if neg then d (.num false 0 0) else d (.inf false false)
  | .exp2, .fin neg m e =>
    if m = 0 then d (.num false 1 0) else firstAgreed (fun n => exp2Bounds n neg m e) precisions
  | .log2, .inf neg => if neg then d (.nan true) else d (.inf false false)
  | .log2, .fin neg m e =>
    if m = 0 then d (.inf true true)
    else if neg then d (.nan true)
    else if 2 ^ Nat.log2 m = m then
      let k : Int := e + Nat.log2 m
      d (.num (k < 0) k.natAbs 0)
    else firstAgreed (fun n => log2Bounds n m e) precisions
  | .sin, .inf _ => d (.nan true)
  | .sin, .fin neg m e => if m = 0 then d (.num neg 0 0) else firstAgreed (fun n => trigBounds n false neg m e) precisions
  | .cos, .inf _ => d (.nan true)
  | .cos, .fin neg m e => if m = 0 then d (.num false 1 0) else firstAgreed (fun n => trigBounds n true neg m e) precisions

/-- A special function in a lane: it raises no NX (R91). -/
def specialLane (fn : SpecialFn) (c : Iss) (l : Nat) : BitVec 64 × BitVec 5 :=
  let r := specialRaw fn (fpArg c 0 l 0)
  (BitVec.ofNat 64 r.val, r.flags &&& ~~~fNX)

/-- RCP (R203): it can raise IV, DZ, OF and UF. -/
def execRcp (x : Enc) (s : State) : Out := issue .rcp x s (fpProduce 15 (specialLane .rcp))
/-- RSQ (R203): IV and DZ. -/
def execRsq (x : Enc) (s : State) : Out := issue .rsq x s (fpProduce 3 (specialLane .rsq))
/-- EXP2 (R203): IV, OF and UF. -/
def execExp2 (x : Enc) (s : State) : Out := issue .exp2 x s (fpProduce 13 (specialLane .exp2))
/-- LOG2 (R203): IV and DZ. -/
def execLog2 (x : Enc) (s : State) : Out := issue .log2 x s (fpProduce 3 (specialLane .log2))
/-- SIN (R203): IV and UF. -/
def execSin (x : Enc) (s : State) : Out := issue .sin x s (fpProduce 9 (specialLane .sin))
/-- COS (R203): IV. -/
def execCos (x : Enc) (s : State) : Out := issue .cos x s (fpProduce 1 (specialLane .cos))

end Sys2Proof.Machine
end

