-- ==== Sys2Proof/Machine/Dispatch.lean ====
section
/-!
DEFINITION. The dispatch: one arm per row of the opcode table.
-/
namespace Sys2Proof.Machine
open Sys2Proof

/-- The meaning of an instruction or a step of the machine. -/
def exec (i : Instr) (s : State) : Host.Outcome State Fault Refusal :=
  match i with
  | .nop x => Sys2Proof.Machine.execNop x s
  | .exit x => Sys2Proof.Machine.execExit x s
  | .yield x => Sys2Proof.Machine.execYield x s
  | .sleep x => Sys2Proof.Machine.execSleep x s
  | .trap x => Sys2Proof.Machine.execTrap x s
  | .tret x => Sys2Proof.Machine.execTret x s
  | .srget x => Sys2Proof.Machine.execSrget x s
  | .srset x => Sys2Proof.Machine.execSrset x s
  | .replay x => Sys2Proof.Machine.execReplay x s
  | .pfix x => Sys2Proof.Machine.execPfix x s
  | .errinj x => Sys2Proof.Machine.execErrinj x s
  | .bra x => Sys2Proof.Machine.execBra x s
  | .bri x => Sys2Proof.Machine.execBri x s
  | .brany x => Sys2Proof.Machine.execBrany x s
  | .brall x => Sys2Proof.Machine.execBrall x s
  | .loop x => Sys2Proof.Machine.execLoop x s
  | .call x => Sys2Proof.Machine.execCall x s
  | .calli x => Sys2Proof.Machine.execCalli x s
  | .ret x => Sys2Proof.Machine.execRet x s
  | .callo x => Sys2Proof.Machine.execCallo x s
  | .calloReg x => Sys2Proof.Machine.execCalloReg x s
  | .reto x => Sys2Proof.Machine.execReto x s
  | .ovld x => Sys2Proof.Machine.execOvld x s
  | .ovldF x => Sys2Proof.Machine.execOvldF x s
  | .overlayLoadComplete core ctx overlay => Sys2Proof.Machine.execOverlayLoadComplete core ctx overlay s
  | .ovwait x => Sys2Proof.Machine.execOvwait x s
  | .ovhold x => Sys2Proof.Machine.execOvhold x s
  | .ovdrop x => Sys2Proof.Machine.execOvdrop x s
  | .ovquery x => Sys2Proof.Machine.execOvquery x s
  | .plogic x => Sys2Proof.Machine.execPlogic x s
  | .ptos x => Sys2Proof.Machine.execPtos x s
  | .stop x => Sys2Proof.Machine.execStop x s
  | .ppopc x => Sys2Proof.Machine.execPpopc x s
  | .barSet x => Sys2Proof.Machine.execBarSet x s
  | .barSync x => Sys2Proof.Machine.execBarSync x s
  | .barArrive x => Sys2Proof.Machine.execBarArrive x s
  | .barWait x => Sys2Proof.Machine.execBarWait x s
  | .syncl x => Sys2Proof.Machine.execSyncl x s
  | .stageInit x => Sys2Proof.Machine.execStageInit x s
  | .stagePost x => Sys2Proof.Machine.execStagePost x s
  | .stageTake x => Sys2Proof.Machine.execStageTake x s
  | .spmask x => Sys2Proof.Machine.execSpmask x s
  | .joinx x => Sys2Proof.Machine.execJoinx x s
  | .splitMerge gid target => Sys2Proof.Machine.execSplitMerge gid target s
  | .suspend x => Sys2Proof.Machine.execSuspend x s
  | .resume x => Sys2Proof.Machine.execResume x s
  | .codrop x => Sys2Proof.Machine.execCodrop x s
  | .coinfo x => Sys2Proof.Machine.execCoinfo x s
  | .tkdone x => Sys2Proof.Machine.execTkdone x s
  | .tkadd x => Sys2Proof.Machine.execTkadd x s
  | .tkpeek x => Sys2Proof.Machine.execTkpeek x s
  | .launch x => Sys2Proof.Machine.execLaunch x s
  | .regionOpen x => Sys2Proof.Machine.execRegionOpen x s
  | .regionBudgetGrant core => Sys2Proof.Machine.execRegionBudgetGrant core s
  | .regionClose x => Sys2Proof.Machine.execRegionClose x s
  | .regionCommit gid => Sys2Proof.Machine.execRegionCommit gid s
  | .regionAbort x => Sys2Proof.Machine.execRegionAbort x s
  | .regionInfo x => Sys2Proof.Machine.execRegionInfo x s
  | .iadd x => Sys2Proof.Machine.execIadd x s
  | .isub x => Sys2Proof.Machine.execIsub x s
  | .iadd3 x => Sys2Proof.Machine.execIadd3 x s
  | .iaddc x => Sys2Proof.Machine.execIaddc x s
  | .ineg x => Sys2Proof.Machine.execIneg x s
  | .iabs x => Sys2Proof.Machine.execIabs x s
  | .imul x => Sys2Proof.Machine.execImul x s
  | .imulh x => Sys2Proof.Machine.execImulh x s
  | .imad x => Sys2Proof.Machine.execImad x s
  | .imadw x => Sys2Proof.Machine.execImadw x s
  | .idiv x => Sys2Proof.Machine.execIdiv x s
  | .irem x => Sys2Proof.Machine.execIrem x s
  | .imin x => Sys2Proof.Machine.execImin x s
  | .imax x => Sys2Proof.Machine.execImax x s
  | .icmp x => Sys2Proof.Machine.execIcmp x s
  | .sel x => Sys2Proof.Machine.execSel x s
  | .logic3 x => Sys2Proof.Machine.execLogic3 x s
  | .shl x => Sys2Proof.Machine.execShl x s
  | .shr x => Sys2Proof.Machine.execShr x s
  | .sar x => Sys2Proof.Machine.execSar x s
  | .rol x => Sys2Proof.Machine.execRol x s
  | .ror x => Sys2Proof.Machine.execRor x s
  | .shf x => Sys2Proof.Machine.execShf x s
  | .bfx x => Sys2Proof.Machine.execBfx x s
  | .bfi x => Sys2Proof.Machine.execBfi x s
  | .popc x => Sys2Proof.Machine.execPopc x s
  | .clz x => Sys2Proof.Machine.execClz x s
  | .ctz x => Sys2Proof.Machine.execCtz x s
  | .brev x => Sys2Proof.Machine.execBrev x s
  | .permb x => Sys2Proof.Machine.execPermb x s
  | .lea x => Sys2Proof.Machine.execLea x s
  | .mov x => Sys2Proof.Machine.execMov x s
  | .movi x => Sys2Proof.Machine.execMovi x s
  | .movh x => Sys2Proof.Machine.execMovh x s
  | .i2i x => Sys2Proof.Machine.execI2i x s
  | .dadd x => Sys2Proof.Machine.execDadd x s
  | .dsub x => Sys2Proof.Machine.execDsub x s
  | .dmul x => Sys2Proof.Machine.execDmul x s
  | .dfma x => Sys2Proof.Machine.execDfma x s
  | .ddiv x => Sys2Proof.Machine.execDdiv x s
  | .dsqrt x => Sys2Proof.Machine.execDsqrt x s
  | .dmin x => Sys2Proof.Machine.execDmin x s
  | .dmax x => Sys2Proof.Machine.execDmax x s
  | .dround x => Sys2Proof.Machine.execDround x s
  | .fadd x => Sys2Proof.Machine.execFadd x s
  | .fsub x => Sys2Proof.Machine.execFsub x s
  | .fmul x => Sys2Proof.Machine.execFmul x s
  | .ffma x => Sys2Proof.Machine.execFfma x s
  | .fdiv x => Sys2Proof.Machine.execFdiv x s
  | .fsqrt x => Sys2Proof.Machine.execFsqrt x s
  | .fmin x => Sys2Proof.Machine.execFmin x s
  | .fmax x => Sys2Proof.Machine.execFmax x s
  | .fround x => Sys2Proof.Machine.execFround x s
  | .hadd2 x => Sys2Proof.Machine.execHadd2 x s
  | .hmul2 x => Sys2Proof.Machine.execHmul2 x s
  | .hfma2 x => Sys2Proof.Machine.execHfma2 x s
  | .hmin2 x => Sys2Proof.Machine.execHmin2 x s
  | .hmax2 x => Sys2Proof.Machine.execHmax2 x s
  | .dcmp x => Sys2Proof.Machine.execDcmp x s
  | .fcmp x => Sys2Proof.Machine.execFcmp x s
  | .hcmp2 x => Sys2Proof.Machine.execHcmp2 x s
  | .dclass x => Sys2Proof.Machine.execDclass x s
  | .fclass x => Sys2Proof.Machine.execFclass x s
  | .cvt x => Sys2Proof.Machine.execCvt x s
  | .cvtp x => Sys2Proof.Machine.execCvtp x s
  | .scaleb x => Sys2Proof.Machine.execScaleb x s
  | .rcp x => Sys2Proof.Machine.execRcp x s
  | .rsq x => Sys2Proof.Machine.execRsq x s
  | .exp2 x => Sys2Proof.Machine.execExp2 x s
  | .log2 x => Sys2Proof.Machine.execLog2 x s
  | .sin x => Sys2Proof.Machine.execSin x s
  | .cos x => Sys2Proof.Machine.execCos x s
  | .rng x => Sys2Proof.Machine.execRng x s
  | .sigacc x => Sys2Proof.Machine.execSigacc x s
  | .shfl x => Sys2Proof.Machine.execShfl x s
  | .bcast x => Sys2Proof.Machine.execBcast x s
  | .vote x => Sys2Proof.Machine.execVote x s
  | .matchLanes x => Sys2Proof.Machine.execMatchLanes x s
  | .lred x => Sys2Proof.Machine.execLred x s
  | .lscan x => Sys2Proof.Machine.execLscan x s
  | .ld x => Sys2Proof.Machine.execLd x s
  | .ldb x => Sys2Proof.Machine.execLdb x s
  | .lds x => Sys2Proof.Machine.execLds x s
  | .st x => Sys2Proof.Machine.execSt x s
  | .stb x => Sys2Proof.Machine.execStb x s
  | .sts x => Sys2Proof.Machine.execSts x s
  | .cpaS x => Sys2Proof.Machine.execCpaS x s
  | .cpaG x => Sys2Proof.Machine.execCpaG x s
  | .cpaO x => Sys2Proof.Machine.execCpaO x s
  | .cptS x => Sys2Proof.Machine.execCptS x s
  | .cptO x => Sys2Proof.Machine.execCptO x s
  | .copyPartLand copy part => Sys2Proof.Machine.execCopyPartLand copy part s
  | .waitk x => Sys2Proof.Machine.execWaitk x s
  | .kset x => Sys2Proof.Machine.execKset x s
  | .kget x => Sys2Proof.Machine.execKget x s
  | .atom x => Sys2Proof.Machine.execAtom x s
  | .atoms x => Sys2Proof.Machine.execAtoms x s
  | .red x => Sys2Proof.Machine.execRed x s
  | .dqpush x => Sys2Proof.Machine.execDqpush x s
  | .dqpop x => Sys2Proof.Machine.execDqpop x s
  | .dqsteal x => Sys2Proof.Machine.execDqsteal x s
  | .monarm x => Sys2Proof.Machine.execMonarm x s
  | .monwait x => Sys2Proof.Machine.execMonwait x s
  | .monwaitTimeout gid split => Sys2Proof.Machine.execMonwaitTimeout gid split s
  | .fence x => Sys2Proof.Machine.execFence x s
  | .pref x => Sys2Proof.Machine.execPref x s
  | .cwb x => Sys2Proof.Machine.execCwb x s
  | .cwbAll x => Sys2Proof.Machine.execCwbAll x s
  | .cinv x => Sys2Proof.Machine.execCinv x s
  | .cinvAll x => Sys2Proof.Machine.execCinvAll x s
  | .slotClaim x => Sys2Proof.Machine.execSlotClaim x s
  | .slotRelease x => Sys2Proof.Machine.execSlotRelease x s
  | .slotReady x => Sys2Proof.Machine.execSlotReady x s
  | .slotDrainEnd team side slot => Sys2Proof.Machine.execSlotDrainEnd team side slot s
  | .slotState x => Sys2Proof.Machine.execSlotState x s
  | .slotWrite x => Sys2Proof.Machine.execSlotWrite x s
  | .slotRead x => Sys2Proof.Machine.execSlotRead x s
  | .mma x => Sys2Proof.Machine.execMma x s
  | .mmaCplx x => Sys2Proof.Machine.execMmaCplx x s
  | .mmaTern x => Sys2Proof.Machine.execMmaTern x s
  | .gang x => Sys2Proof.Machine.execGang x s
  | .arrayStep team side residueError => Sys2Proof.Machine.execArrayStep team side residueError s
  | .scacc x => Sys2Proof.Machine.execScacc x s
  | .accZero x => Sys2Proof.Machine.execAccZero x s
  | .accLoad x => Sys2Proof.Machine.execAccLoad x s
  | .accStore x => Sys2Proof.Machine.execAccStore x s
  | .accMove x => Sys2Proof.Machine.execAccMove x s
  | .seqLoopAdd x => Sys2Proof.Machine.execSeqLoopAdd x s
  | .seqLoopMadd x => Sys2Proof.Machine.execSeqLoopMadd x s
  | .seqLoopLdq x => Sys2Proof.Machine.execSeqLoopLdq x s
  | .seqLoopStq x => Sys2Proof.Machine.execSeqLoopStq x s
  | .seqLoopFlags x => Sys2Proof.Machine.execSeqLoopFlags x s
  | .seqEnd x => Sys2Proof.Machine.execSeqEnd x s
  | .bldBuild x => Sys2Proof.Machine.execBldBuild x s
  | .bldRefit x => Sys2Proof.Machine.execBldRefit x s
  | .bldRebal x => Sys2Proof.Machine.execBldRebal x s
  | .bldPublish x => Sys2Proof.Machine.execBldPublish x s
  | .tailorOperationEnd op => Sys2Proof.Machine.execTailorOperationEnd op s
  | .bldStat x => Sys2Proof.Machine.execBldStat x s
  | .genPin x => Sys2Proof.Machine.execGenPin x s
  | .genUnpin x => Sys2Proof.Machine.execGenUnpin x s
  | .trace x => Sys2Proof.Machine.execTrace x s
  | .probeSph x => Sys2Proof.Machine.execProbeSph x s
  | .probeBox x => Sys2Proof.Machine.execProbeBox x s
  | .shaderDispatch trav kind => Sys2Proof.Machine.execShaderDispatch trav kind s
  | .traversalComplete trav => Sys2Proof.Machine.execTraversalComplete trav s
  | .hitAccept x => Sys2Proof.Machine.execHitAccept x s
  | .hitIgnore x => Sys2Proof.Machine.execHitIgnore x s
  | .hitEnd x => Sys2Proof.Machine.execHitEnd x s
  | .trvInfoWait x => Sys2Proof.Machine.execTrvInfoWait x s
  | .trvInfoCnt x => Sys2Proof.Machine.execTrvInfoCnt x s
  | .trvInfoKind x => Sys2Proof.Machine.execTrvInfoKind x s
  | .collReduce x => Sys2Proof.Machine.execCollReduce x s
  | .collBcast x => Sys2Proof.Machine.execCollBcast x s
  | .collAllgather x => Sys2Proof.Machine.execCollAllgather x s
  | .collRscatter x => Sys2Proof.Machine.execCollRscatter x s
  | .collWait x => Sys2Proof.Machine.execCollWait x s
  | .collStatus x => Sys2Proof.Machine.execCollStatus x s
  | .queueTailWrite part queue => Sys2Proof.Machine.execQueueTailWrite part queue s
  | .launchPacket part queue => Sys2Proof.Machine.execLaunchPacket part queue s
  | .teamPlace part launch => Sys2Proof.Machine.execTeamPlace part launch s
  | .fencePacket part queue => Sys2Proof.Machine.execFencePacket part queue s
  | .fencePacketPerform part queue => Sys2Proof.Machine.execFencePacketPerform part queue s
  | .signalPacket part queue => Sys2Proof.Machine.execSignalPacket part queue s
  | .chainEnd part queue => Sys2Proof.Machine.execChainEnd part queue s
  | .tasksPacket part queue => Sys2Proof.Machine.execTasksPacket part queue s
  | .taskDispatch part => Sys2Proof.Machine.execTaskDispatch part s
  | .taskDecrement part => Sys2Proof.Machine.execTaskDecrement part s
  | .queueStatusWrite part queue => Sys2Proof.Machine.execQueueStatusWrite part queue s
  | .registerWriteBack gid producer => Sys2Proof.Machine.execRegisterWriteBack gid producer s
  | .storeQueueDrain gid => Sys2Proof.Machine.execStoreQueueDrain gid s
  | .l2SliceRequest slice => Sys2Proof.Machine.execL2SliceRequest slice s
  | .eventDelivery gid => Sys2Proof.Machine.execEventDelivery gid s
  | .unitHaltStop part skid => Sys2Proof.Machine.execUnitHaltStop part skid s
  | .preemptStopAck part team => Sys2Proof.Machine.execPreemptStopAck part team s
  | .preemptSave part => Sys2Proof.Machine.execPreemptSave part s
  | .preemptRestore part launch => Sys2Proof.Machine.execPreemptRestore part launch s
  | .reserveCoreJobStart cluster => Sys2Proof.Machine.execReserveCoreJobStart cluster s
  | .darnerHandBack job => Sys2Proof.Machine.execDarnerHandBack job s
  | .auditRunEnd job => Sys2Proof.Machine.execAuditRunEnd job s
  | .tlbiDone part => Sys2Proof.Machine.execTlbiDone part s
  | .collChunkArrival part member chunk key data poisoned => Sys2Proof.Machine.execCollChunkArrival part member chunk key data poisoned s
  | .collMemberTimeout op member => Sys2Proof.Machine.execCollMemberTimeout op member s
  | .collOperationEnd op lost => Sys2Proof.Machine.execCollOperationEnd op lost s
  | .queueDescriptorWrite part queue word value => Sys2Proof.Machine.execQueueDescriptorWrite part queue word value s
  | .dirtyLineTimeout core line => Sys2Proof.Machine.execDirtyLineTimeout core line s
  | .pageWalk core part ctx va => Sys2Proof.Machine.execPageWalk core part ctx va s
  | .hbmRequest channel activates ns lanesLost => Sys2Proof.Machine.execHbmRequest channel activates ns lanesLost s
  | .rfmThreshold channel bank => Sys2Proof.Machine.execRfmThreshold channel bank s
  | .rfmHoldEnd channel bank ns => Sys2Proof.Machine.execRfmHoldEnd channel bank ns s
  | .refreshWindowEnd channel bank => Sys2Proof.Machine.execRefreshWindowEnd channel bank s
  | .ualinkMemoryRequest source kind address data => Sys2Proof.Machine.execUalinkMemoryRequest source kind address data s
  | .ualinkAppend source part queue data => Sys2Proof.Machine.execUalinkAppend source part queue data s
  | .linkLevelRetry port flit => Sys2Proof.Machine.execLinkLevelRetry port flit s
  | .rdmaWrite part rkey address data => Sys2Proof.Machine.execRdmaWrite part rkey address data s
  | .rdmaRead part rkey address length => Sys2Proof.Machine.execRdmaRead part rkey address length s
  | .udSend part qpn data => Sys2Proof.Machine.execUdSend part qpn data s
  | .testPeriodExpiry part cluster => Sys2Proof.Machine.execTestPeriodExpiry part cluster s
  | .inFieldTestEnd cluster pass => Sys2Proof.Machine.execInFieldTestEnd cluster pass s
  | .coreRetire core => Sys2Proof.Machine.execCoreRetire core s
  | .sliceRetire core slice => Sys2Proof.Machine.execSliceRetire core slice s
  | .wayRetire l2 unit set way => Sys2Proof.Machine.execWayRetire l2 unit set way s
  | .rowRemap channel group row spare => Sys2Proof.Machine.execRowRemap channel group row spare s
  | .dqRepair channel lane => Sys2Proof.Machine.execDqRepair channel lane s
  | .retrainComplete channel => Sys2Proof.Machine.execRetrainComplete channel s
  | .pinRepairTimeout channel => Sys2Proof.Machine.execPinRepairTimeout channel s
  | .tlbiCtlWrite part value => Sys2Proof.Machine.execTlbiCtlWrite part value s
  | .haltRequest part cause => Sys2Proof.Machine.execHaltRequest part cause s
  | .release part => Sys2Proof.Machine.execRelease part s
  | .frHeadWrite part value => Sys2Proof.Machine.execFrHeadWrite part value s
  | .frBaseWrite part value => Sys2Proof.Machine.execFrBaseWrite part value s
  | .counterClear part offset value => Sys2Proof.Machine.execCounterClear part offset value s
  | .registerWrite part offset value => Sys2Proof.Machine.execRegisterWrite part offset value s
  | .layout signed seq part clusters sliceGroups halfStacks ethShare ualShare => Sys2Proof.Machine.execLayout signed seq part clusters sliceGroups halfStacks ethShare ualShare s
  | .stage signed seq image version verified => Sys2Proof.Machine.execStage signed seq image version verified s
  | .activate signed seq => Sys2Proof.Machine.execActivate signed seq s
  | .quote signed seq nonce => Sys2Proof.Machine.execQuote signed seq nonce s
  | .log signed seq index => Sys2Proof.Machine.execLog signed seq index s
  | .power signed seq watts => Sys2Proof.Machine.execPower signed seq watts s
  | .test signed seq part on => Sys2Proof.Machine.execTest signed seq part on s
  | .powerOnReset bootsA bootsB => Sys2Proof.Machine.execPowerOnReset bootsA bootsB s
  | .clockThrottle watts temp throttleLine => Sys2Proof.Machine.execClockThrottle watts temp throttleLine s
  | .overtempShutdown die => Sys2Proof.Machine.execOvertempShutdown die s
  | .unitReady word bit => Sys2Proof.Machine.execUnitReady word bit s
  | .ualinkErrorResponse request => Sys2Proof.Machine.execUalinkErrorResponse request s
  | .unsupportedEthernetFrame => Sys2Proof.Machine.execUnsupportedEthernetFrame s

end Sys2Proof.Machine
end

