-- ==== Sys2Proof/Machine/Due.lean ====
section
/-!
DEFINITION. Which steps of the machine without an encoding are due: work that an engine of the package holds
and can go on with, with no input from outside. `step` takes one of them every other turn.
-/
namespace Sys2Proof.Machine
open Sys2Proof

/-- Of a group: merges at parked splits' PCs, the commit of its region, the timeout of a MONWAIT, arriving data, its
store queue, a waiting event. -/
def dueGroup (s : State) (gid : Nat) (g : Group) : List Instr :=
  (((g.splits.map (·.2) ++ g.ovf).filter (·.parked)).map (fun sp => Instr.splitMerge gid sp.pc)) ++
  (if g.region.st == .committing then [Instr.regionCommit gid] else []) ++
  g.splits.filterMap (fun e =>
    match e.2.wait with
    | .mon _ (some u) => if u ≤ s.clk then some (Instr.monwaitTimeout gid e.1) else none
    | _ => none) ++
  g.prods.map (fun p => Instr.registerWriteBack gid p.id) ++
  (if g.storeQ.isEmpty && g.sts.isNone then [] else [Instr.storeQueueDrain gid]) ++
  (if g.events.isEmpty then [] else [Instr.eventDelivery gid])

/-- Of a team: slots that drain, and work of its sequencer for the arrays. -/
def dueTeam (tid : Nat) (t : Team) : List Instr :=
  t.slots.filterMap (fun e => if e.2.st == .draining then some (Instr.slotDrainEnd tid (e.1 % 2) (e.1 / 2)) else none) ++
  (match t.seq with
   | some q => (if q.jobs.isEmpty then [] else [Instr.arrayStep tid 0 false]) ++
      (if q.jobsP.isEmpty then [] else [Instr.arrayStep tid 1 false])
   | none => [])

/-- Of a core: overlays that load, and requests for region budget. -/
def dueCore (core : Nat) (c : PCore) : List Instr :=
  c.dir.filterMap (fun e =>
    if e.st == .loading && !e.faulted then some (Instr.overlayLoadComplete core e.ctx (BitVec.ofNat 12 e.id)) else none) ++
  (if c.rgnReqs.isEmpty then [] else [Instr.regionBudgetGrant core])

/-- Of a queue: its tail and its head packet. -/
def dueQueue (p q : Nat) (u : Queue) : List Instr :=
  if !queueEnabled u then []
  else if u.stop ≠ 0 then [Instr.queueStatusWrite p q]
  else
    [Instr.queueTailWrite p q, Instr.launchPacket p q, Instr.fencePacket p q, Instr.fencePacketPerform p q,
     Instr.signalPacket p q, Instr.chainEnd p q, Instr.tasksPacket p q]

/-- Of a partition: its queues, placement, tasks, a halt, pre-emption and an invalidation. -/
def duePart (p : Nat) (q : Partition) : List Instr :=
  q.queues.flatMap (fun e => dueQueue p e.1 e.2) ++
  (q.launches.filter (fun l => l.next < l.total)).map (fun l => Instr.teamPlace p l.id) ++
  (if q.readyQ.isEmpty then [] else [Instr.taskDispatch p]) ++ (if q.decs.isEmpty then [] else [Instr.taskDecrement p]) ++
  (match q.halt with
   | some h => if h.units.isEmpty && h.headed then [] else [Instr.unitHaltStop p 0]
   | none => []) ++
  (match q.preempts with
   | r :: _ => (r.victims.map (fun t => Instr.preemptStopAck p t)) ++ [Instr.preemptSave p]
   | [] => []) ++
  q.saved.map (fun v => Instr.preemptRestore p v.launchId) ++ (if q.tlbiDone then [] else [Instr.tlbiDone p])

/-- Of jobs: runs that have ended, and reserve cores that may take one. -/
def dueJob (s : State) (j : Job) : List Instr :=
  match j.kind with
  | .replay _ => if j.running then (if j.ended == .none then [] else [Instr.darnerHandBack j.id]) else reserves
  | .audit _ => if j.running then (if j.ended == .none then [] else [Instr.auditRunEnd j.id]) else reserves
  | _ => if j.running then [] else reserves
where
  reserves : List Instr := (bitsOf (partOf s j.part).clusters).map (fun k => Instr.reserveCoreJobStart k)

/-- Teams of Sageip's that have stopped for a move (R425). -/
def dueSage (s : State) : List Instr :=
  s.groups.filterMap (fun e => if e.2.sageip && e.2.stopped then some (Instr.preemptStopAck e.2.part e.2.team) else none)

/-- Of collectives: members from which nothing has come in time (R407), and the end of an operation without other members. -/
def dueColl (s : State) (o : CollOp) : List Instr :=
  ((otherMembers o).filter (fun m => !o.ending && !arrived o m && !o.lost.contains m && collLate s o m)).map
    (fun m => Instr.collMemberTimeout o.id m) ++
  (if o.members.length = 1 && o.read && !o.ending then [Instr.collOperationEnd o.id []] else [])

/-- The steps that are due. -/
def due (s : State) : List Instr :=
  s.groups.flatMap (fun e => dueGroup s e.1 e.2) ++ s.teams.flatMap (fun e => dueTeam e.1 e.2) ++
  s.cores.flatMap (fun e => dueCore e.1 e.2) ++
  s.copies.flatMap (fun c => ((c.parts.filter (fun p => p.2.fail.isNone) ++ c.parts).take 1).map (fun p => Instr.copyPartLand c.id p.1)) ++
  s.sliceQ.map (fun r => Instr.l2SliceRequest r.slice) ++ s.tailor.map (fun o => Instr.tailorOperationEnd o.id) ++
  s.travs.flatMap (fun t => Instr.traversalComplete t.id :: [1, 2, 3].map (fun k => Instr.shaderDispatch t.id k)) ++
  s.parts.flatMap (fun e => duePart e.1 e.2) ++ s.jobs.flatMap (dueJob s) ++ s.colls.flatMap (dueColl s) ++ dueSage s

end Sys2Proof.Machine
end

