-- ==== Sys2Proof/Machine/Upsets.lean ====
section
/-!
DEFINITION. Errors that strike the storage of the package from outside (R321, R323, R324, R328; Tables 19.1 and 19.2).
-/
namespace Sys2Proof.Machine

/-- An uncorrectable error in a part of an L1 line: a clean copy is dropped and fetched again; of a dirty line the part
becomes poisoned (Table 19.2). -/
def strikeL1 (s : State) (core line part : Nat) : State :=
  match mget (coreOf s core).l1 line with
  | none => s
  | some l => if l.dirty = 0 then l1Drop s core line else taintLine s core line (1#8 <<< part)

/-- The same in an L2 line of a partition. -/
def strikeL2 (s : State) (p line part : Nat) : State :=
  let (sl, set) := homeSlice s p line
  let slice := mgetD s.slices sl {}
  let ws := mgetD slice.sets set []
  match ws.find? (fun w => w.line == line) with
  | none => s
  | some w =>
    if w.dirty then addPoison s line (1#8 <<< part)
    else { s with slices := mput s.slices sl { slice with sets := mput slice.sets set (ws.filter (fun y => y.line != line)) } }

/-- An uncorrectable error in a held line: it aborts an open region; in a commit the part becomes poisoned and the batch
goes on (R328). -/
def strikeHeld (s : State) (gid line part : Nat) : State :=
  match mget s.groups gid with
  | none => s
  | some g =>
    if (mget g.region.held line).isNone then s
    else
      match g.region.st with
      | .opened => abortRegion s gid
      | .committing => modGroup s gid (fun g => { g with region := { g.region with
          held := mmod g.region.held line (fun h => { h with poison := h.poison ||| (1#8 <<< part) }) } })
      | _ => s

/-- An uncorrectable error in the instruction store: the overlay's pockets go EMPTY and its directory entry is removed
(R324). -/
def strikeCode (s : State) (core p ctx id : Nat) : State :=
  modCore s core (fun c => { c with dir := c.dir.filter (fun e => e.part != p || e.ctx != ctx || e.id != id) })

/-- MACHINE_CHECK is fatal to a partition; the units on the core that it struck, where there is one, have it as their
cause. -/
def haltFor (s : State) (owner : Option Nat) (core : Option Nat) : State :=
  match owner with
  | none => s
  | some p => raiseHalt s p evMachineCheck [] 0 0 (fun u => match core with
      | some c => u.unit ≤ 1 && u.core == coreidOf s c
      | none => false)

/-- The partition that a test holds for. -/
def ownerBy (f : Partition → Bool) (s : State) : Option Nat := (List.range 8).find? (fun p => f (partOf s p))

/-- An error strikes (R321). -/
def strike (s : State) : Upset → State
  | .single u => countCorrected s u
  | .l1 core line part => strikeL1 s core line (part % 8)
  | .held gid line part => strikeHeld s gid line (part % 8)
  | .scratch tid part => modTeam s tid (fun t =>
      if part < 8 * t.launch.scratch then { t with scratchPoison := sput t.scratchPoison part 1#1 } else t)
  | .slot tid key part => modTeam s tid (fun t =>
      if part < 2048 then { t with slots := mmod t.slots key (fun u => { u with poison := sput u.poison part 1#1 }) } else t)
  | .acc core part => modCore s core (fun c => { c with accPoison := sput c.accPoison part 1#1 })
  | .code core part ctx id => strikeCode s core part ctx id
  | .l2 p line part => strikeL2 s p line (part % 8)
  | .l1Tags core => haltFor s (ownerBy (fun q => q.clusters.getLsbD (clusterOfCore core)) s) (some core)
  | .l2Tags slice => haltFor s (ownerBy (fun q => q.sliceGroups.getLsbD (slice / 64)) s) none
  | .tlb core entry => modCore s core (fun c => { c with tlb := c.tlb.eraseIdx entry })
  | .reg gid key => modGroup s gid (fun g => { g with latent := insertNat g.latent key })
  | .datapath gid lane => modGroup s gid (fun g => { g with residue := some lane })
  | .seqReg tid => haltSeq s tid evMachineCheck

end Sys2Proof.Machine
end

