-- ==== Sys2Proof/Machine/Fetch.lean ====
section
/-!
DEFINITION. What the next step of the package is: the schedule of the state, fetching a code word (R136 to
R141, R158), block headers and reconvergence (R35, R36, R45), and which split issues (R39, R72).
-/
namespace Sys2Proof.Machine
open Sys2Proof

/-- The next step: an instruction or a step of the machine to be executed in a state, or one that the fetch
itself has already performed. -/
inductive Todo where
  | run (i : Instr) (s : State)
  | done (s : State)
  deriving DecidableEq, Repr

/-! ### Headers -/

/-- The reconvergence stack of a split that reaches the header at its PC: the entries from the one that equals
the PC on; none where no entry does (R36). -/
def stackFrom (pc : Pc) : List Pc → Option (List Pc)
  | [] => none
  | t :: ts => if t = pc then some (t :: ts) else stackFrom pc ts

/-- A split fetches a block header (R36, R45, R141): it parks where its reconvergence stack holds the PC; else
the header's fields are checked and it goes on with the first body word. -/
def atHeader (s : State) (gid j : Nat) (g : Group) (sp : Split) (w : Word) : State :=
  match stackFrom sp.pc sp.stack with
  | some st => spilled (modGroup (putSplit s gid j { sp with stack := st, parked := true }) gid settle) gid g.ovf
  | none =>
    if hdrOvl w ≠ pcOverlay sp.pc then raiseAt s gid j evMachineCheck sp.mask (mcInfo 0 3)
    else if hdrMstream w then raiseAt s gid j evRole sp.mask 0
    else if g.region.st = .opened && !hdrRgn w then
      raiseAt (modGroup s gid (fun g => { g with region := { g.region with held := [] } })) gid j
        evRegionIllegal sp.mask 0
    else putSplit s gid j { sp with pc := sp.pc + 1 }

/-- The header of the block that holds a split's PC is read again (R271): its fields are checked, and the fetch of the
word follows. -/
def headerAgain (s : State) (gid j : Nat) (g : Group) (sp : Split) : State :=
  let (w, _) := headerOf s g.core g.part g.ctx sp.pc
  let s1 := modSplit s gid j (fun sp => { sp with reread := false })
  if hdrOvl w ≠ pcOverlay sp.pc then raiseAt s1 gid j evMachineCheck sp.mask (mcInfo 0 3)
  else if hdrMstream w then raiseAt s1 gid j evRole sp.mask 0
  else if g.region.st = .opened && !hdrRgn w then
    raiseAt (modGroup s1 gid (fun g => { g with region := { g.region with held := [] } })) gid j evRegionIllegal sp.mask 0
  else s1

/-- A sequencer fetches a block header: it must be of a matrix stream (R45, R141). -/
def atSeqHeader (s : State) (tid : Nat) (q : Seq) (w : Word) : State :=
  if hdrOvl w ≠ pcOverlay q.pc then haltSeq s tid evMachineCheck
  else if !hdrMstream w then haltSeq s tid evRole
  else modTeam s tid (fun t => { t with seq := some { q with pc := q.pc + 1 } })

/-! ### Fetching -/

/-- The word at a PC: not resident, past the end of the overlay, or the word. -/
inductive Fetched where
  | gone | past | word (w : Word)
  deriving DecidableEq, Repr

/-- Fetches the word at a PC on a core for a context. -/
def fetchWord (s : State) (core p ctx : Nat) (pc : Pc) : Fetched :=
  match residentOv s core p ctx (pcOverlay pc) with
  | none => .gone
  | some e => if e.len ≤ pcOffset pc then .past else .word (sget e.words (pcOffset pc))

/-- The events ROLE and PRIVILEGE come before the defects of operands and fields, and the operand limits of the
launch before the fields (R158). -/
def defectCode (s : State) (g : Group) (op : Op) (x : Option Enc) : Nat :=
  if !roleOk g op then evRole
  else if !privilegeOk s g op then evPrivilege
  else
    match x with
    | none => evIllegalOperand
    | some x => if limitsOk g.nv g.ns op x && hitOperandOk g op x then evIllegalField else evIllegalOperand

/-- The turn of a split. What is left of an earlier scratchpad store of its group is performed first (R129). -/
def splitTurn (s : State) (gid j : Nat) : Todo :=
  let s := finishScratch s gid
  match mget s.groups gid with
  | none => .done s
  | some g =>
    match mget g.splits j with
    | none => .done s
    | some sp =>
      if sp.wait = .fault || g.stopped || replayHolds g j then .done s
      else
      match heldWord sp.wait sp.issued with
      | some (op, x) => .run (Instr.ofOp x op) { s with turn := .split gid j }
      | none =>
      match fetchWord s g.core g.part g.ctx sp.pc with
      | .gone => .done (raiseAt (modSplit s gid j (fun sp => { sp with reread := true })) gid j evOverlayGone sp.mask
          (BitVec.ofNat 64 (pcOverlay sp.pc)))
      | .past => .done (raiseAt s gid j evBadTarget sp.mask 0)
      | .word w =>
        if sp.reread && !isHeaderWord w then .done (headerAgain s gid j g sp)
        else
        match decode w with
        | .header => .done (atHeader s gid j g sp w)
        | .illegalOpcode => .done (raiseAt s gid j evIllegalOpcode sp.mask 0)
        | .illegalOperand op => .done (raiseAt s gid j (defectCode s g op none) sp.mask 0)
        | .illegalField op x => .done (raiseAt s gid j (defectCode s g op (some x)) sp.mask 0)
        | .ok op x => .run (Instr.ofOp x op) { s with turn := .split gid j }

/-- The turn of a sequencer. Every defect is recorded with its PC and is fatal (R292); an instruction that no
sequencer executes raises ROLE (R45, R291), found before operands and fields (R158). -/
def seqTurn (s : State) (tid : Nat) : Todo :=
  match mget s.teams tid with
  | none => .done s
  | some t =>
    match t.seq with
    | none => .done s
    | some q =>
      if q.wait = .fault || q.ended || q.stopped then .done s
      else
      match heldWord q.wait q.issued with
      | some (op, x) => .run (Instr.ofOp x op) { s with turn := .seq tid }
      | none =>
      match fetchWord s t.home t.part t.ctx q.pc with
      | .gone => .done (haltSeq s tid evOverlayGone)
      | .past => .done (haltSeq s tid evBadTarget)
      | .word w =>
        match decode w with
        | .header => .done (atSeqHeader s tid q w)
        | .illegalOpcode => .done (haltSeq s tid evIllegalOpcode)
        | .illegalOperand op => .done (haltSeq s tid (if seqAllows op then evIllegalOperand else evRole))
        | .illegalField op x =>
          .done (haltSeq s tid (if !seqAllows op then evRole else if seqOperandsOk op x then evIllegalField else evIllegalOperand))
        | .ok op x => .run (Instr.ofOp x op) { s with turn := .seq tid }

/-! ### Who issues -/

/-- A split of a group can be given a turn (R39): the group runs, no record of it waits for room (R421), its team
is in place (R365), and the split is not parked, not held to a later clk and waits for no event's delivery (R354). -/
def canTurn (s : State) (g : Group) (j : Nat) (sp : Split) : Bool :=
  !g.stopped && !eventHolds g j sp && g.region.st != .aborted && !sp.parked && sp.wait != .fault && !replayHolds g j && sp.readyAt ≤ s.clk && !recordWaits s g &&
    (match teamOf s g with | some t => !t.held | none => true)

/-- The splits that can be given a turn and were ready when the clk began, with their age, core, side, slot and number. -/
def candidates (s : State) : List (Nat × Nat × Nat × Nat) :=
  s.groups.foldl (fun l e => l ++ e.2.splits.filterMap (fun f =>
    if canTurn s e.2 f.1 f.2 && f.2.age ≤ s.clk then some (f.2.age, (e.2.core * 2 + e.2.side) * 16 + e.2.slot, e.1, f.1) else none)) []

/-- What the split waits for has not come (R39): a barrier's phase, a stage's posts, a monitor, the other lanes of a SYNCL, a
region's grant or commit, an answer. -/
def waitHolds (s : State) (g : Group) (sp : Split) : Bool :=
  match sp.wait with
  | .none | .resumed => false
  | .barrier b p => (match teamOf s g with | some t => (barOf t b).phase == p | none => true)
  | .syncl _ | .stage _ _ _ | .mon _ _ | .tailor | .trapHold _ | .fault => true
  | .reply => sp.caught.all (fun m => !m.resuming)
  | .replayed gid op => onTheWay s gid op
  | .region => (match g.region.st with | .waiting => !g.region.granted | .committing => true | _ => false)

/-- A resource that an instruction needs at issue is not available (R39): an arrival counter below 255 (R228), the replay
entry (R220), the group's earlier accesses performed (R235), a counter's arrivals (R245). -/
def resourceWaits (s : State) (gid : Nat) (g : Group) (op : Op) (x : Enc) : Bool :=
  match op with
  | .ld | .ldb | .cpaS | .cpaG | .cpaO | .cptS | .cptO => g.replayG.isSome || 255 ≤ kget g x.kf
  | .lds => g.replayS.isSome || 255 ≤ kget g x.kf
  | .atom | .red | .dqpush | .dqpop | .dqsteal | .monarm => !orderedNow s gid g
  | .waitk => !(x.b.isImm && decide (255 < x.imm.toNat)) && decide ((uniOperand g x 0 x.b).toNat % 256 < kget g x.a.idx)
  | _ => false

/-- An instruction waits at issue: it passes every check that comes first and raises nothing, and a source blocks on an
empty register or a resource is not available (R39, R151). -/
def waitsAtIssue (s : State) (gid : Nat) (g : Group) (sp : Split) (op : Op) (x : Enc) : Bool :=
  let act := if uniform op x then sp.mask else activeOf g x sp.mask
  let idle : Bool := act = 0 && (uniform op x || activeOf g x (bothCopies g sp.mask) = 0)
  (issueCheck s g op x).isNone && (guardHit g x sp.mask).isNone && !(regionBars op && g.region.st == .opened && !idle) &&
    !(wholeSplit op && sp.mask != g.live) &&
    (match regsReady g op x with
     | .wait => true
     | .go => !idle && (parityHit g op x act).isNone && (residueHit g op act).isNone && g.inj.isNone && resourceWaits s gid g op x
     | _ => false)

/-- The next instruction of a split is not ready (R39). -/
def sourcesWait (s : State) (gid : Nat) (g : Group) (sp : Split) : Bool :=
  if sp.wait != .none then waitHolds s g sp
  else if sp.caught.isSome then false
  else
    match fetchWord s g.core g.part g.ctx sp.pc with
    | .word w => (match decode w with | .ok op x => waitsAtIssue s gid g sp op x | _ => false)
    | _ => false

/-- A split that is not ready in this clk becomes ready in the next one at the earliest: its age counts from there
(R39). -/
def aged (s : State) : State :=
  { s with groups := s.groups.map (fun (e : Nat × Group) => (e.1, { e.2 with
      splits := e.2.splits.map (fun (f : Nat × Split) =>
        if canTurn s e.2 f.1 f.2 && !sourcesWait s e.1 e.2 f.2 then f
        else (f.1, { f.2 with age := max f.2.age (s.clk + 1) })) })) }

/-- The order of R39: age, then slot, then split. Each side considers its own splits; which side's split the model lets
issue in a clk first is its own order, by age too (log entry 82). -/
def older (a b : Nat × Nat × Nat × Nat) : Bool :=
  a.1 < b.1 || (a.1 == b.1 && (a.2.1 < b.2.1 || (a.2.1 == b.2.1 && a.2.2.2 < b.2.2.2)))

/-- The first candidate in order. -/
def firstOf : List (Nat × Nat × Nat × Nat) → Option (Nat × Nat × Nat × Nat)
  | [] => none
  | a :: l =>
    match firstOf l with
    | none => some a
    | some b => if older b a then some b else some a

/-- The sequencers that can be given a turn, with their age. -/
def seqCandidates (s : State) : List (Nat × Nat) :=
  s.teams.filterMap (fun e =>
    match e.2.seq with
    | some q => if q.ended || q.stopped || q.wait = .fault || e.2.held || s.clk < q.readyAt then none else some (q.age, e.1)
    | none => none)

/-- The sequencer that has waited longest for a turn. -/
def firstSeq : List (Nat × Nat) → Option (Nat × Nat)
  | [] => none
  | a :: l =>
    match firstSeq l with
    | none => some a
    | some b => if b.1 < a.1 then some b else some a

/-- A split is considered in this clk: its age counts from the next one unless it becomes ready later. -/
def considered (s : State) (gid j : Nat) : State := modSplit s gid j (fun sp => { sp with age := s.clk + 1 })

/-- The agent that has waited longest takes its turn. -/
def issueTurn (s : State) : Todo :=
  match firstOf (candidates s), firstSeq (seqCandidates s) with
  | none, none => .done s
  | some c, none => splitTurn (considered s c.2.2.1 c.2.2.2) c.2.2.1 c.2.2.2
  | none, some q => seqTurn (modTeam s q.2 (fun t => { t with seq := t.seq.map (fun u => { u with age := s.clk + 1 }) })) q.2
  | some c, some q =>
    if q.1 < c.1 then
      seqTurn (modTeam s q.2 (fun t => { t with seq := t.seq.map (fun u => { u with age := s.clk + 1 }) })) q.2
    else splitTurn (considered s c.2.2.1 c.2.2.2) c.2.2.1 c.2.2.2

/-- An entry of the schedule. -/
def takeAct (s : State) : Act → Todo
  | .issue (.split gid j) => splitTurn s gid j
  | .issue (.seq tid) => seqTurn s tid
  | .issue .none => .done s
  | .event i => .run i { s with turn := .none }
  | .peerAck r => .done (peerPerforms s r)
  | .peerWrite a bs => .done (if isRemote a then { s with remote := putBytes s.remote a bs } else s)
  | .idle n => .done (settleRecords (writeBackOld { s with clk := s.clk + n }))
  | .accessPart gid op k i => .done (accessPart s gid op k i)
  | .seqPart tid r c => seqTurn (modSeq s tid (fun q => { q with only := some (r, c) })) tid
  | .upset u => .done (strike s u)

/-- Mantle's time goes on by one clk at the clock's frequency (R24). -/
def tick (m : Mantle) : Mantle :=
  let ps := m.ps + 1000000 / max m.mhz 1
  { m with time := m.time + ps / 1000, ps := ps % 1000 }

/-- A clk begins: the clocks go on, dirty lines whose time has come are written back (R116), and fault records that wait
are written where they can be (R421). -/
def begun (s : State) : State :=
  settleRecords <| writeBackOld { s with clk := s.clk + 1, mantle := tick s.mantle, phase := !s.phase, turn := .none }

/-- The next step. The schedule's entries come first; without one, a step that is due and an agent's turn
alternate. The clk goes on by one. -/
def todo (s : State) : Todo :=
  let s1 := begun s
  match s.agenda with
  | a :: rest => takeAct { s1 with agenda := rest } a
  | [] =>
    let s2 := aged s1
    let ds := due s2
    if s.phase && !ds.isEmpty then
      match ds[s.clk / 2 % ds.length]? with
      | some i => .run i s2
      | none => .done s2
    else issueTurn s2

/-! ### Placing one instruction -/

/-- A header of a one-word block of overlay 1 (Table 9.2): LEN 1, every register live. -/
def plainHeader (mstream : Bool) : Word :=
  BitVec.ofNat 128 (0x3F * 2 ^ 122 + 2 ^ 112 + 256 * 2 ^ 103 + 64 * 2 ^ 96 + 2 ^ 42 + mstream.toNat * 2 ^ 40)

/-- The role that may issue a word (Table 3.2): system for majors and forms only it has, else vector. -/
def roleFor (w : Word) : Role :=
  if wordMajor w = 0x3E then .system
  else if wordMajor w = 0x3D && wordMinor w < 5 then .system
  else .vector

/-- A launch of one team with every register. -/
def plainLaunch : Launch := { vregs := 256, sregs := 64, scratch := 8, slots := 64, rgnMax := 8, rgnCore := 8 }

/-- A group of 16 lanes of partition 0, context 0 on physical core 0, at a PC. -/
def plainGroup (tid : Nat) (role : Role) (pc : Pc) : Group :=
  { serial := 0, part := 0, ctx := 0, team := tid, index := 0, core := 0, side := 0, slot := 0, slice0 := 0
    slices := 4, width := 16, lined := false, role, nv := 256, ns := 64, priv := 0, privSize := 4096
    live := maskBelow 16, splits := [(0, { pc, mask := maskBelow 16 })] }

/-- Places a word as the body of a one-word block of a resident overlay, with a team to run it: a sequencer for
major 0x3C, else a group; partition 0 runs, and the schedule gives that agent the next turn. -/
def placeWord (s : State) (w : Word) : State :=
  let matrix := wordMajor w = 0x3C
  let ov : DirEntry :=
    { part := 0, ctx := 0, id := 1, st := .resident, first := 0, count := 1
      words := sput (sput [] 0 (plainHeader matrix)) 1 w, len := 2, image := 0, root := true }
  let tid := s.nextTid
  let gid := s.nextGid
  let team : Team :=
    { part := 0, ctx := 0, queue := none, prio := 0, launchId := 0, launch := plainLaunch, teamid := 0, gridid := 0
      home := 0, partner := none, seq := if matrix then some { pc := mkPc 1 1 } else none }
  let s1 := modPart (modCore s 0 (fun c => { c with
    dir := ov :: c.dir.filter (fun e => e.part != 0 || e.ctx != 0 || e.id != 1) })) 0 (fun p => { p with state := 0 })
  { s1 with
    teams := mput s1.teams tid team, nextTid := tid + 1, nextGid := gid + 1
    groups := if matrix then s1.groups else mput s1.groups gid (plainGroup tid (roleFor w) (mkPc 1 1))
    agenda := Act.issue (if matrix then .seq tid else .split gid 0) :: s1.agenda }

end Sys2Proof.Machine
end

