-- ==== Sys2Proof/Machine/Step.lean ====
section
/-!
DEFINITION. One step of the package, and a state in which a given instruction is the next to run.
-/
namespace Sys2Proof.Machine

/-- One step: what the fetch finds is executed. -/
def step (s : State) : Host.Outcome State Fault Refusal :=
  match todo s with
  | .run i t => exec i t
  | .done t => powered s t

/-- The state with an instruction placed where the next step fetches. -/
def State.withFetchWord (s : State) (nbits w : Nat) : State := placeWord s (BitVec.ofNat 128 (w % 2 ^ nbits))

end Sys2Proof.Machine
end

