-- ==== Sys2Proof/Safety.lean ====
section
/-!
DEFINITION. What the statements call a well-formed state, an instruction that issues, and what it leaves as it was.
-/
namespace Sys2Proof.Safety
open Sys2Proof.Machine

/-- Memory keeps its canonical form: the HBM, the poison marks and the memory of peers. -/
def MemOk (s : State) : Prop :=
  Memory.wf s.mem = true ∧ storeWf s.poison none = true ∧ Memory.wf s.remote = true

/-- The fields of a word that are all zero but the default guard (R148). -/
def plainEnc : Enc :=
  { d := .v 0, a := .v 0, b := .v 0, c := .v 0, e := .v 0, gp := 15, gpi := false, gq := 15, gqi := false, ty := .b32
    rnd := 0, sat := false, wa := false, wb := false, wc := false, we := false, yld := false, h1 := 0, h2 := 0, imm := 0
    md := 0 }

/-- The split of `c` has the turn, and its instruction has its own effect: it passes every check at issue (R44, R145,
R157 to R159, R250, R252), its guard holds no damage (R322), it is permitted where it stands (R56), its registers are
ready (R151), some lane is active (R148), no register it reads has lost its parity and no datapath error is detected in it
(R321), and no injected error strikes it (R260). `fresh` says that no request of this split was caught at its home slice
(R287). -/
structure Issues (s : State) (op : Op) (x : Enc) (c : Iss) : Prop where
  powered : s.mantle.powered = true
  turn : s.turn = .split c.gid c.j
  group : mget s.groups c.gid = some c.g
  split : mget c.g.splits c.j = some c.sp
  isOp : c.op = op
  isEnc : c.x = x
  act : c.act = if uniform op x then c.sp.mask else activeOf c.g x c.sp.mask
  all : c.all = if uniform op x then bothCopies c.g c.sp.mask else activeOf c.g x (bothCopies c.g c.sp.mask)
  active : c.act ≠ 0
  fresh : c.sp.caught = none
  checks : issueCheck s c.g op x = none
  guards : guardHit c.g x c.sp.mask = none
  permitted : (regionBars op && c.g.region.st == .opened) = false
  whole : wholeSplit op = true → c.sp.mask = c.g.live
  ready : regsReady c.g op x = .go
  parity : parityHit c.g op x c.act = none
  residue : residueHit c.g op c.act = none
  sound : c.sp.wait = .none → ∀ i, c.g.inj = some i → injEvent i op x c.act = false

/-- The sequencer of `c` has the turn, and its instruction has its own effect: it is one that sequencers execute and its
operands and fields pass every check (R45, R145, R158, R291). -/
structure IssuesQ (s : State) (op : Op) (x : Enc) (c : SIss) : Prop where
  powered : s.mantle.powered = true
  turn : s.turn = .seq c.tid
  team : mget s.teams c.tid = some c.t
  seq : c.t.seq = some c.q
  isOp : c.op = op
  isEnc : c.x = x
  checks : seqCheck op x = none

/-- Only the issuing group differs between two states: it is `g'` after, and every byte of memory, every other group and
every other unit is as it was. -/
structure OnlyGroup (s t : State) (c : Iss) (g' : Group) : Prop where
  group : mget t.groups c.gid = some g'
  others : ∀ k, k ≠ c.gid → mget t.groups k = mget s.groups k
  memory : ∀ a, sget t.mem a = sget s.mem a
  rest : t = { s with groups := t.groups }

/-- The issuing split stands at `pc`, waits for nothing and has kept its lanes; the group's other splits are as they
were. -/
structure AtPc (c : Iss) (g' : Group) (pc : Pc) : Prop where
  split : ∃ sp, mget g'.splits c.j = some sp ∧ sp.pc = pc ∧ sp.wait = .none ∧ sp.mask = c.sp.mask ∧ sp.stack = c.sp.stack
  others : ∀ k, k ≠ c.j → mget g'.splits k = mget c.g.splits k

/-- Registers `r` and, for a pair, `r + 1` hold `f` in the lanes of `m`; every other register of every lane is as it
was. -/
structure LanesHold (g g' : Group) (m : BitVec 64) (r : Nat) (pair : Bool) (f : Nat → BitVec 64) : Prop where
  low : ∀ l, l < 64 → m.getLsbD l = true → vget g' r l = (f l).extractLsb' 0 32
  high : pair = true → ∀ l, l < 64 → m.getLsbD l = true → vget g' (r + 1) l = (f l).extractLsb' 32 32
  frame : ∀ q l, l < 64 → (m.getLsbD l = false ∨ (q ≠ r ∧ (pair = true → q ≠ r + 1))) → vget g' q l = vget g q l

/-- Scalar `i` holds `f k` in every copy `k` of the group; every other scalar is as it was. -/
structure ScalarHolds (g g' : Group) (i : Nat) (f : Nat → W64) : Prop where
  value : ∀ k, k ∈ copiesOf g → srget g' k i = f k
  frame : ∀ k j, j < 64 → (k ∉ copiesOf g ∨ j ≠ i) → srget g' k j = srget g k j

/-- Predicate `i` holds `f` in the lanes of `m`; every other predicate of every lane is as it was, and p15 reads all
ones. -/
structure PredsHold (g g' : Group) (m : BitVec 64) (i : Nat) (f : Nat → Bool) : Prop where
  value : i < 15 → ∀ l, l < 64 → m.getLsbD l = true → pget g' l i = f l
  frame : ∀ l j, j < 15 → (l ≥ 64 ∨ m.getLsbD l = false ∨ j ≠ i) → pget g' l j = pget g l j
  ones : ∀ l, pget g' l 15 = true

/-- Of a group only vector register `r`, for a pair also `r + 1`, and its splits changed: those registers are full and hold
no damage, the cells of the lanes of `m` hold no parity error, and every other register's full/empty and error marks are
as they were. -/
def OnlyLanes (g g' : Group) (m : BitVec 64) (r : Nat) (pair : Bool) : Prop :=
  g' = { g with
    vregs := g'.vregs, empty := (markFull g r (if pair then 2 else 1)).empty
    damaged := (markFull g r (if pair then 2 else 1)).damaged
    latent := g.latent.filter (fun k => !(lanesOf m).any (fun l => k == 64 * r + l || (pair && k == 64 * (r + 1) + l)))
    splits := g'.splits }

/-- Of a group only scalar `i`, its error marks and its splits changed. -/
def OnlyScalar (g g' : Group) (i : Nat) : Prop :=
  g' = { g with
    sregs := g'.sregs, damaged := g.damaged.filter (· != 256 + i)
    latent := g.latent.filter (fun j => (copiesOf g).all (fun k => j != 2 ^ 15 + 64 * k + i)), splits := g'.splits }

/-- Of a group only predicate `i`, its error marks in the lanes of `m` and its splits changed. -/
def OnlyPred (g g' : Group) (m : BitVec 64) (i : Nat) : Prop :=
  g' = { g with
    preds := g'.preds, damaged := if lanesOf m = [] then g.damaged else g.damaged.filter (· != 512 + i)
    latent := g.latent.filter (fun k => !(lanesOf m).any (fun l => k == 2 ^ 16 + 16 * l + i)), splits := g'.splits }

/-- Error marks were only taken away, and only those of registers that `p` holds of, numbered as `damaged` numbers them. -/
def OnlyMended (g g' : Group) (p : Nat → Prop) : Prop :=
  (∀ r ∈ g'.damaged, r ∈ g.damaged) ∧ (∀ r ∈ g.damaged, r ∈ g'.damaged ∨ p r) ∧ (∀ k ∈ g'.latent, k ∈ g.latent) ∧
  (∀ k ∈ g.latent, k ∈ g'.latent ∨ p (latentReg k))

/-- D was written, lane by lane or in each copy, in the width `w`; its registers are full and hold no damage after, every
other register's full/empty and damage marks are as they were, and no other part of the group changed but its splits. -/
def WroteD (c : Iss) (w : Wd) (f : Nat → BitVec 64) (g' : Group) : Prop :=
  match c.x.d with
  | .v i => LanesHold c.g g' c.all i.toNat ((c.x.span w).1 = 2) f ∧
      OnlyLanes c.g g' c.all i.toNat ((c.x.span w).1 = 2)
  | .s i => ScalarHolds c.g g' i.toNat (fun k => scalarResult c.x w (f (laneOfCopy c.g k))) ∧
      OnlyScalar c.g g' i.toNat
  | _ => g' = { c.g with splits := g'.splits }

/-- Predicate D was written in the active lanes; no other part of the group changed but its splits. -/
def WrotePred (c : Iss) (f : Nat → Bool) (g' : Group) : Prop :=
  match c.x.d with
  | .p i => PredsHold c.g g' c.all i.toNat f ∧ OnlyPred c.g g' c.all i.toNat
  | _ => g' = { c.g with splits := g'.splits }

/-- An instruction completes: wherever it issues and `pre` holds of the state and its operands, it answers a next state in
which only the issuing group differs from `base`, and `post` holds of that group. -/
def Completes (i : Enc → Instr) (op : Op) (pre : State → Enc → Iss → Prop) (base : State → State)
    (post : State → Enc → Iss → Group → Prop) : Prop :=
  ∀ s x c, Issues s op x c → pre s x c → ∃ t g', exec (i x) s = .next t ∧ OnlyGroup (base s) t c g' ∧ post s x c g'

/-- No condition beyond issuing. -/
def Always (_ : State) (_ : Enc) (_ : Iss) : Prop := True

/-- An instruction whose whole effect is to write D: for every operand form, mask and TYPE it completes, goes on at the
next word, and leaves everything else as it was. -/
def WritesD (i : Enc → Instr) (op : Op) (w : Wd) (f : Enc → Iss → Nat → BitVec 64) : Prop :=
  Completes i op Always id (fun _ x c g' => AtPc c g' (c.sp.pc + 1) ∧ WroteD c w (f x c) g')

/-- The same of an instruction that writes predicate D. -/
def WritesPred (i : Enc → Instr) (op : Op) (f : Enc → Iss → Nat → Bool) : Prop :=
  Completes i op Always id (fun _ x c g' => AtPc c g' (c.sp.pc + 1) ∧ WrotePred c (f x c) g')

/-- The same of an instruction that writes one scalar, D, in every copy: D holds no damage after. -/
def WritesScalar (i : Enc → Instr) (op : Op) (pre : State → Enc → Iss → Prop) (f : State → Enc → Iss → Nat → W64) : Prop :=
  Completes i op (fun s x c => x.d.isS = true ∧ pre s x c) id (fun s x c g' => AtPc c g' (c.sp.pc + 1) ∧
    ScalarHolds c.g g' x.d.idx (f s x c) ∧
    OnlyScalar c.g g' x.d.idx)

/-- The same of an instruction that only goes on. -/
def GoesOn (i : Enc → Instr) (op : Op) (pre : State → Enc → Iss → Prop) : Prop :=
  Completes i op pre id (fun _ _ c g' => AtPc c g' (c.sp.pc + 1) ∧ g' = { c.g with splits := g'.splits })

/-- A floating-point instruction none of whose active lanes raises an enabled exception writes its result in D and ORs the
exceptions of each copy's lanes into that copy's %fpflags (R87, R175). -/
def FpWritesD (i : Enc → Instr) (op : Op) (w : Wd) (f : Enc → Iss → Nat → BitVec 64 × BitVec 5) : Prop :=
  Completes i op (fun _ x c => fpOutcome c.g c.all (fun l => (f x c l).2) = .record) id
    (fun _ x c g' => AtPc c g' (c.sp.pc + 1) ∧
      g'.fpflags = c.g.fpflags ||| flagsIn c.g 0 c.all (fun l => (f x c l).2) ∧
      g'.fpflagsSh = (if c.g.lined then c.g.fpflagsSh ||| flagsIn c.g 1 c.all (fun l => (f x c l).2) else c.g.fpflagsSh) ∧
      WroteD c w (fun l => (f x c l).1) { g' with fpflags := c.g.fpflags, fpflagsSh := c.g.fpflagsSh })

/-- D and then predicate E were written in the active lanes: what SHFL, BCAST and IADDC leave. -/
def WroteDE (c : Iss) (w : Wd) (f : Nat → BitVec 64) (p : Nat → Bool) (g' : Group) : Prop :=
  ∃ h, WroteD c w f h ∧
  match c.x.e with
  | .p i => PredsHold h g' c.all i.toNat p ∧ OnlyPred h g' c.all i.toNat
  | _ => g' = h

/-- A floating-point instruction one of whose active lanes raises an enabled exception raises FP_TRAP with the lanes and the
enabled exceptions, and does nothing else (R87). -/
def FpTraps (i : Enc → Instr) (op : Op) (f : Enc → Iss → Nat → BitVec 5) : Prop :=
  ∀ s x c lanes en, Issues s op x c → fpOutcome c.g c.all (f x c) = .trap lanes en →
    exec (i x) s = .next (raise s c.gid
      { code := evFpTrap, precise := true, split := c.j, epc := c.sp.pc, lanes, info := en.setWidth 64, info2 := 0
        op := s.nextOp })

/-- The copies of a lined group disagree on whether an exception that they raise is enabled: LINING_MISMATCH, and the
instruction does nothing else (R87, R335). -/
def FpMismatches (i : Enc → Instr) (op : Op) (f : Enc → Iss → Nat → BitVec 5) : Prop :=
  ∀ s x c lanes, Issues s op x c → fpOutcome c.g c.all (f x c) = .mismatch lanes →
    exec (i x) s = .next (liningMismatch s c lanes)

/-- A floating-point instruction on every outcome of its exceptions: it writes D, traps, or finds the copies to differ. -/
def FpRuns (i : Enc → Instr) (op : Op) (w : Wd) (f : Enc → Iss → Nat → BitVec 64 × BitVec 5) : Prop :=
  FpWritesD i op w f ∧ FpTraps i op (fun x c l => (f x c l).2) ∧ FpMismatches i op (fun x c l => (f x c l).2)

/-- The copies of a lined group agree on the active lanes and on their targets (R251). -/
def CopiesAgree (c : Iss) (target : Nat → Option Pc) : Prop :=
  c.g.lined = true → (lanesOf c.act).map (fun l => (l, target l)) =
    ((lanesOf c.all).filter (fun l => copyOf c.g l == 1)).map (fun l => (laneIn c.g l, target l))

/-- Where the lanes of a branch go: an active lane to its target, any other to the next word. -/
def laneGoes (c : Iss) (target : Nat → Option Pc) (l : Nat) : Option Pc :=
  if c.act.getLsbD l then target l else some (c.sp.pc + 1)

/-- A branch all of whose lanes go to one place takes the whole split there; `link` is what it writes first. -/
def TransfersTo (i : Enc → Instr) (op : Op) (target : State → Enc → Iss → Nat → Option Pc)
    (pre : State → Enc → Iss → Prop) (post : State → Enc → Iss → Group → Prop) : Prop :=
  ∀ t : Pc, Completes i op
    (fun s x c => pre s x c ∧ CopiesAgree c (target s x c) ∧
      ∀ l ∈ lanesOf c.sp.mask, laneGoes c (target s x c) l = some t) id
    (fun s x c g' => AtPc c g' t ∧ post s x c g')

/-- No register, flag, counter or other part of the group changed but its splits. -/
def OnlySplits (_ : State) (_ : Enc) (c : Iss) (g' : Group) : Prop := g' = { c.g with splits := g'.splits }

/-- A group takes a precise event in its handler (R356): the split table is set aside with the interrupted PC, one split of
every unexited lane starts at the vector, and the event frame enters the store queue; nothing else changes. -/
def Entered (s t : State) (gid : Nat) (g : Group) (ev : Event) (vec : Pc) : Prop :=
  t = { s with groups := t.groups, nextOp := s.nextOp + 1 } ∧ (∀ k, k ≠ gid → mget t.groups k = mget s.groups k) ∧
  mget t.groups gid = some { g with
    aside := some { splits := g.splits, ovf := g.ovf, split := ev.split, epc := ev.epc, ipc := ev.epc, code := ev.code
                    rolled := false, regionPc := g.region.openPc, mark := s.nextOp
                    named := if ev.code = evPoison && !ev.soft then (bits ev.info.toNat 0 8, bits ev.info.toNat 8 8) else (0, 0) }
    splits := [(0, { pc := vec, mask := g.live, age := s.clk + 1 })], ovf := []
    storeQ := g.storeQ ++ [{
      id := s.nextOp, pc := ev.epc, split := 0, kind := .store, order := 0, scope := 0
      accs := storeWords g.priv (frameBytes g ev ev.epc (entryRpc ev ev.epc false g.region.openPc) false) 16 ++
        ev.addrs.map (fun a => { lane := 0, addr := g.priv + BitVec.ofNat 64 (0x80 + 8 * a.1), size := 8
                                 data := a.2.setWidth 128 }) }] }

/-- An instruction of a group that completes with the state `next`, where `pre` holds of the state and its operands. -/
def Gives (i : Enc → Instr) (op : Op) (pre : State → Enc → Iss → Prop) (next : State → Enc → Iss → State) : Prop :=
  ∀ s x c, Issues s op x c → pre s x c → exec (i x) s = .next (next s x c)

/-- An instruction of a sequencer that completes with the state `next`, where `pre` holds of the state and its operands. -/
def GivesQ (i : Enc → Instr) (op : Op) (pre : State → Enc → SIss → Prop) (next : State → Enc → SIss → State) : Prop :=
  ∀ s x c, IssuesQ s op x c → pre s x c → exec (i x) s = .next (next s x c)

/-- The sequencer of `c` as it goes on at `pc` (R291, R152). -/
def seqNext (s : State) (x : Enc) (c : SIss) (pc : Pc) : Seq :=
  { c.q with
    pc, wait := .none, age := if x.yld then s.clk + 2 else s.clk + 1, readyAt := if x.yld then s.clk + 2 else c.q.readyAt }

/-- The split of `c` as it goes on at `pc` (R43, R152). -/
def splitNext (s : State) (c : Iss) (pc : Pc) : Split :=
  Split.onward { c.sp with yld := c.x.yld || c.op == .yield } s.clk pc

/-- An instruction of a sequencer that completes: only its team differs afterwards, and `post` holds of that team. -/
def SeqCompletes (i : Enc → Instr) (op : Op) (pre : State → Enc → SIss → Prop)
    (post : State → Enc → SIss → Team → Prop) : Prop :=
  ∀ s x c, IssuesQ s op x c → pre s x c → ∃ t u, exec (i x) s = .next t ∧ t = { s with teams := t.teams } ∧
    mget t.teams c.tid = some u ∧ (∀ k, k ≠ c.tid → mget t.teams k = mget s.teams k) ∧ post s x c u

/-- The same of one that writes q register `i` and changes nothing else of its team. -/
def WritesQ (i : Enc → Instr) (op : Op) (pre : State → Enc → SIss → Prop) (r : Enc → Nat)
    (v : State → Enc → SIss → BitVec 64) : Prop :=
  SeqCompletes i op pre (fun s x c u => ∃ q', u = { c.t with seq := some { seqNext s x c (c.q.pc + 1) with q := q' } } ∧
    ∀ k, sget q' k = if k = r x then v s x c else sget c.q.q k)

/-- A step without an encoding that completes with the state `next`, where `pre` holds. -/
def StepGives (i : Instr) (pre : State → Prop) (next : State → State) : Prop :=
  ∀ s, s.mantle.powered = true → pre s → exec i s = .next (next s)

/-- What atomics on the scratchpad leave that are performed one after the other, none of them failing and none on poison:
the team, and the value each lane found (R235). -/
def scratchRun (c : Iss) : Team → List LaneAcc → Option (Team × (Nat → BitVec 64))
  | t, [] => some (t, fun _ => 0)
  | t, a :: as =>
    match atomScratch c t a with
    | .ok (old, false, t1) =>
      match scratchRun c t1 as with
      | some (t2, f) => some (t2, fun l => if l = a.lane then old else f l)
      | none => none
    | _ => none

/-- The copies of a lined group agree on a uniform operand (R251). -/
def SameInCopies (c : Iss) (y : Operand) : Prop := operandDiffers c y = false

end Sys2Proof.Safety
end

