-- ==== Sys2Proof/Certificates/Slice0/Obligations.lean ====
section
/-!
DEFINITION. The statements about the model, each with the rules of spec/ it comes from.
-/
open Sys2Proof Sys2Proof.Machine Sys2Proof.Safety

/-! ### Words, the step and the checks at issue (spec/09, spec/27) -/

/-- The encoding of Tables 9.3 and 9.4 drops no bit: the word of every well-formed instruction, of every opcode and with
every operand at every value the encoding admits, decodes to that instruction (R143, R144, R145, R147). -/
def Obligations.EncodedInstructionsDecode : Prop :=
  ∀ (op : Op) (x : Enc), (Instr.ofOp x op).wf = true →
    ∃ w, encode (Instr.ofOp x op) = some w ∧ decode w = .ok op x ∧ decodeInstr w = some (Instr.ofOp x op)

/-- Each word has one meaning: a word that decodes to an instruction is the word of that instruction, which is well-formed;
so no bit of the word is ignored (R143, R144, R145, R147). -/
def Obligations.DecodedWordsEncode : Prop :=
  ∀ (w : Word) (op : Op) (x : Enc), decode w = .ok op x →
    encode (Instr.ofOp x op) = some w ∧ (Instr.ofOp x op).wf = true

/-- Words written out from the encoding tables decode to what they stand for; reserved majors and minors, a reserved operand
combination and a set reserved bit do not decode, and MAJOR 0x3F is a header (R140, R145, R147, R157). -/
def Obligations.WordsDecode : Prop :=
  let g : Enc := plainEnc
  decode 0x0020000000000003DE00000000000000 = .ok .exit g ∧
  decode 0x803080A0C0000020CB90003EC0000000 =
    .ok .dfma { g with d := .v 8, a := .v 10, b := .v 12, c := .imm, gp := 3, gq := 5, gqi := true, ty := .f64, imm := 0x3EC0 } ∧
  decode 0xC001404060000103DE00000040264600 =
    .ok .ld { g with d := .v 20, a := .s 4, b := .v 6, imm := 0x40, md := 0x264600 } ∧
  decode 0x4C20102050400C73DE10000000400002 =
    .ok .icmp { g with d := .p 1, a := .v 2, b := .s 5, c := .p 4, ty := .i32, md := 0x400002 } ∧
  decode 0x0830600000000403DE00000000000041 = .ok .callo { g with d := .s 6, md := 0x41 } ∧
  decode 0x00B0000000000203DE00000003000060 = .ok .errinj { g with a := .imm, imm := 3, md := 0x60 } ∧
  decode 0xF0804808805007D3DED000000000001D =
    .ok .mma { g with d := .s 4, a := .o 0, b := .o 8, c := .s 5, ty := .e4m3x4, md := 0x1D } ∧
  decode 0xF5000040A0000103DE00000000000000 = .ok .trace { g with a := .s 4, b := .v 10 } ∧
  decode 0xF800004000000103DE900000003C0000 =
    .ok .collReduce { g with a := .s 4, ty := .f64, md := 0x3C0000 } ∧
  decode 0xFC01000000000000000084006F33BBFD = .header ∧
  decode 0 = .illegalOpcode ∧ decode 0x243080A0C0000020CB90003EC0000000 = .illegalOpcode ∧
  decode 0x803090A0C0000020CB92003EC0000000 = .illegalOperand .dfma ∧
  decode 0xC001404060000103DE00000040060600 = .illegalField .ld
    { g with d := .v 20, a := .s 4, b := .v 6, imm := 0x40, md := 0x060600 }

/-- A step runs what is decoded at the program counter: the turn of a split or of a sequencer, given by the schedule or by age
(R39), executes the instruction of the word at its PC, or the one that it waits at, which is not fetched again (R271); a
word that is none raises its event, and a block header is passed or parked at (R36, R37, R45, R141, R157); a step of the
machine that the schedule names is executed. Before it the clocks go on, dirty lines whose time has come are written
back (R116), records that may be written now are (R421), and the parts of an STS of the group that are still to be stored
are stored (R129). R39 gives the order by age; that a step is one turn of one agent, the agenda that names the next step
and the phase in which due steps and turns alternate are the model's own (log entries 1, 10, 82, 89). -/
def Obligations.StepRunsDecoded : Prop :=
  ∀ (s : State) (rest : List Act),
    let s1 : State := { begun s with agenda := rest }
    let s2 : State := aged s1
    (∀ i, s.agenda = .event i :: rest → step s = exec i { s1 with turn := .none }) ∧
    (∀ gid j g sp, let u := finishScratch s1 gid
      s.agenda = .issue (.split gid j) :: rest → mget u.groups gid = some g →
      mget g.splits j = some sp → sp.wait ≠ .fault → g.stopped = false → replayHolds g j = false →
      let put (sp' : Split) : State := { u with groups := mput u.groups gid { g with splits := mput g.splits j sp' } }
      (∀ op x, heldWord sp.wait sp.issued = some (op, x) → step s = exec (Instr.ofOp x op) { u with turn := .split gid j }) ∧
      (∀ w, heldWord sp.wait sp.issued = none → sp.reread = false → fetchWord u g.core g.part g.ctx sp.pc = .word w →
        (∀ op x, decode w = .ok op x → step s = exec (Instr.ofOp x op) { u with turn := .split gid j }) ∧
        (s.mantle.powered = true → decode w = .illegalOpcode → step s = .next (raise u gid
          { code := evIllegalOpcode, precise := true, split := j, epc := sp.pc, lanes := sp.mask, info := 0, info2 := 0
            op := u.nextOp })) ∧
        (s.mantle.powered = true → decode w = .header → stackFrom sp.pc sp.stack = none →
          hdrOvl w = pcOverlay sp.pc → hdrMstream w = false → (g.region.st = .opened → hdrRgn w = true) →
          step s = .next (put { sp with pc := sp.pc + 1 })) ∧
        (s.mantle.powered = true → decode w = .header → ∀ st, stackFrom sp.pc sp.stack = some st →
          let g1 := settle { g with splits := mput g.splits j { sp with stack := st, parked := true } }
          step s = .next (spilled { u with groups := mput u.groups gid g1 } gid g.ovf)))) ∧
    (∀ tid t q, s.agenda = .issue (.seq tid) :: rest → mget s1.teams tid = some t → t.seq = some q →
      q.wait ≠ .fault → q.ended = false → q.stopped = false →
      (∀ op x, heldWord q.wait q.issued = some (op, x) → step s = exec (Instr.ofOp x op) { s1 with turn := .seq tid }) ∧
      (∀ w op x, heldWord q.wait q.issued = none → fetchWord s1 t.home t.part t.ctx q.pc = .word w → decode w = .ok op x →
        step s = exec (Instr.ofOp x op) { s1 with turn := .seq tid })) ∧
    (∀ c g sp w op x, s.agenda = [] → rest = [] → s.phase = false → seqCandidates s2 = [] →
      firstOf (candidates s2) = some c → let u := finishScratch (considered s2 c.2.2.1 c.2.2.2) c.2.2.1
      mget u.groups c.2.2.1 = some g → mget g.splits c.2.2.2 = some sp →
      g.stopped = false → sp.wait ≠ .fault → replayHolds g c.2.2.2 = false → heldWord sp.wait sp.issued = none →
      sp.reread = false → fetchWord u g.core g.part g.ctx sp.pc = .word w → decode w = .ok op x →
      step s = exec (Instr.ofOp x op) { u with turn := .split c.2.2.1 c.2.2.2 })

/-- What a group's instruction meets at issue, for every instruction that has an encoding, in this order (R44, R145, R148, R151,
R157, R158, R252, R322): ROLE, PRIVILEGE, ILLEGAL_OPERAND, ILLEGAL_FIELD; MACHINE_CHECK where a predicate of the guard is
damaged or loses its parity in the reading; then, where a lane is active, REGION_ILLEGAL in an open
region, whose held stores are discarded (R56); BARRIER_DIVERGENT for a split that is not the whole group (Table 15.2); it
waits where a register is empty, and a damaged register raises MACHINE_CHECK; with no active lane it goes on and changes
nothing else. A request that was caught at its home slice has issued before (R287) and is not checked again. -/
def Obligations.ChecksAtIssue : Prop :=
  ∀ (op : Op) (x : Enc) (s : State) (gid j : Nat) (g : Group) (sp : Split),
    s.mantle.powered = true → s.turn = .split gid j → mget s.groups gid = some g → mget g.splits j = some sp →
    sp.caught = none →
    let role := roleAllows g.role (form op).major (isBld op) && hitOk g op
    let operands := operandsOk op x && limitsOk g.nv g.ns op x && hitOperandOk g op x
    let fields := fieldsOk op x && segOk g op x
    let event (st : State) (code : Nat) (lanes info : BitVec 64) : Host.Outcome State Fault Refusal := .next (raise st gid
      { code, precise := true, split := j, epc := sp.pc, lanes, info, info2 := 0, op := s.nextOp })
    let raised (st : State) (code : Nat) : Host.Outcome State Fault Refusal := event st code sp.mask 0
    let run := exec (Instr.ofOp x op) s
    let put (g' : Group) : State := { s with groups := mput s.groups gid g' }
    let next : Split := Split.onward { sp with yld := x.yld || op == .yield } s.clk (sp.pc + 1)
    let act := if uniform op x then sp.mask else activeOf g x sp.mask
    let idle := act = 0 ∧ (if uniform op x then bothCopies g sp.mask else activeOf g x (bothCopies g sp.mask)) = 0
    (role = false → run = raised s evRole) ∧
    (role = true → privilegeOk s g op = false → run = raised s evPrivilege) ∧
    (role = true → privilegeOk s g op = true → operands = false → run = raised s evIllegalOperand) ∧
    (role = true → privilegeOk s g op = true → operands = true → fields = false → run = raised s evIllegalField) ∧
    (∀ r lanes, issueCheck s g op x = none → guardHit g x sp.mask = some (r, lanes) →
      run = event (put (damage g r)) evMachineCheck lanes (damageInfo r)) ∧
    (∀ i, i < 15 → (x.gp.toNat = i ∨ x.gq.toNat = i) → g.damaged.contains (512 + i) = true →
      (guardHit g x sp.mask).isSome = true) ∧
    (issueCheck s g op x = none → guardHit g x sp.mask = none →
      (regionBars op = true → g.region.st = .opened → ¬ idle →
        run = raised (put { g with region := { g.region with held := [] } }) evRegionIllegal) ∧
      ((regionBars op = false ∨ g.region.st ≠ .opened ∨ idle) →
        (wholeSplit op = true → sp.mask ≠ g.live → run = raised s evBarrierDivergent) ∧
        ((wholeSplit op = false ∨ sp.mask = g.live) →
          (regsReady g op x = .wait → run = .next s) ∧
          (∀ r, regsReady g op x = .damaged r → ¬ idle → run = event s evMachineCheck act (damageInfo r)) ∧
          (∀ r, regsReady g op x = .emptyRead r → ¬ idle → run = event s evEmptyRead act (mcInfo r 0)) ∧
          (regsReady g op x ≠ .wait → idle → run = .next (put { g with splits := mput g.splits j next })))))

/-- The registers of the management window after reset (Tables 27.2, 19.7, 25.3), the active cores of a cluster (R14), memory in
its canonical form, and no work. The reset values of registers that the spec does not give are not part of it; that a byte of
memory reads 0 before any LAYOUT has zeroed its half-stack is the model's choice (log entry 3). -/
def Obligations.ResetState : Prop :=
  (∀ p, p < 8 → windowRead State.reset p 0xC0000 = some (BitVec.ofNat 64 (2 ^ 63 + p))) ∧
  (∀ p o v, p < 8 → (o, v) ∈ ([(0xC0008, 0), (0xC0020, 0), (0xC0028, 0x8000000000000000), (0xC0040, 0), (0xC0048, 8),
      (0xC0050, 0), (0xC0058, 0), (0x000, 0), (0x008, 0), (0x010, 0), (0x018, 0), (0x020, 10), (0x028, 60000),
      (0x030, 4096), (0x80000, 2000)] : List (Nat × BitVec 64)) → windowRead State.reset p o = some v) ∧
  (∀ p n, p < 8 → n < 256 → windowRead State.reset p (0x81000 + 8 * n) = some 0 ∧
    windowRead State.reset p (0x84000 + 8 * n) = some 0) ∧
  (∀ p w, p < 8 → w < 15 → windowRead State.reset p (0xC0100 + 8 * w) = some 0) ∧
  (∀ k i, k < 32 → i < 8 → physOf State.reset k i = some (9 * k + i)) ∧
  (∀ k, k < 32 → (clusterOf State.reset k).reserve = some 8) ∧
  MemOk State.reset ∧ State.reset.groups = [] ∧ State.reset.teams = [] ∧ (∀ a, sget State.reset.mem a = 0)

/-! ### Memory as a whole (spec/07) -/

/-- The operations through which everything is stored keep the canonical form of memory, for every address, line, mask and data:
the writes at home, the marks of poison, a fired monitor, and what a core's L1 and an engine do (R116, R124, R134). -/
def Obligations.MemoryOperationsKeepForm : Prop :=
  ∀ s, MemOk s →
    (∀ pa bs, MemOk (writeHome s pa bs)) ∧ (∀ line d m whole, MemOk (writeLineHome s line d m whole)) ∧
    (∀ line m, MemOk (addPoison s line m) ∧ MemOk (clearPoison s line m)) ∧ (∀ line, MemOk (fireLine s line)) ∧
    (∀ core line, MemOk (l1WriteBack s core line) ∧ MemOk (l1MakeRoom s core line)) ∧
    (∀ core p ctx chain line cpol h1 h2, MemOk (l1View s core p ctx chain line cpol h1 h2).2.2) ∧
    (∀ core p ctx chain line cpol h1 h2 d m whole,
      MemOk (coreStoreLine s core p ctx chain line cpol h1 h2 d m whole)) ∧
    (∀ core p ctx chain pa cpol h1 h2 bs, MemOk (coreStore s core p ctx chain pa cpol h1 h2 bs)) ∧
    (∀ q va bs chain need t, engineWrite s q va bs chain need = .ok t → MemOk t)

/-- Every step keeps memory, poison and the memory of peers in their canonical form. -/
def Obligations.EveryStepKeepsMemoryForm : Prop :=
  ∀ s t, MemOk s → step s = .next t → MemOk t

/-- What an address reaches (R104, R105, R109, Tables 7.1 and 7.4, R418): a non-canonical one ADDRESS; a page that does not
grant the access, a half-stack that is not the partition's, and any aperture PROTECTION, but for Sageip's aligned 8-byte
access to its own partition's window through an uncached page, which reaches it. The walk that gives the page ends in
PAGE_FAULT where the context or an entry is not valid or malformed, and in PROTECTION where an entry's KEY is another's or a
table lies where the partition owns no memory (R415). The order of these checks within one entry and the ending of a table
that is not owned are the model's reading (log entry 77), and so is LEVEL of a PROTECTION record (log entry 70). -/
def Obligations.TranslationAndPermission : Prop :=
  (∀ s q va n need, canonical va = false → reach s q va n need = .error { cause := evAddress }) ∧
  (∀ s q va n need e, canonical va = true → translate s q.core q.part q.ctx va = .ok e →
    let pa := e.page + va.toNat % 2 ^ (16 + 10 * e.level)
    let denied : Except Fail Phys := .error { cause := evProtection, level := e.level }
    (grants e need = false → reach s q va n need = denied) ∧
    (grants e need = true → isRemote pa = true → reach s q va n need = .ok { pa, cpol := e.cpol, ptrap := e.ptrap }) ∧
    (grants e need = true → pa < hbmSize → reach s q va n need =
      if (partOf s q.part).halfStacks.getLsbD (pa / 2 ^ 35) then .ok { pa, cpol := e.cpol, ptrap := e.ptrap }
      else denied) ∧
    (isRemote pa = false → hbmSize ≤ pa → q.sageip = false → reach s q va n need = denied) ∧
    (grants e need = true → isRemote pa = false → hbmSize ≤ pa → q.sageip = true → reach s q va n need =
      if n = 8 ∧ pa % 8 = 0 ∧ e.cpol = 2 ∧ pa < 2 ^ 41 ∧ pa / 2 ^ 39 % 4 = 2 ∧ pa / 2 ^ 23 % 2 ^ 16 = 0 ∧
          pa / 2 ^ 20 % 8 = q.part then .ok { pa, cpol := e.cpol, ptrap := e.ptrap, window := true }
      else denied)) ∧
  (∀ s p ctx va, (ctxWord s p ctx 0) % 2 = 0 → pageWalk s p ctx va = .error { cause := evPageFault, level := 3 }) ∧
  (∀ s p ctx (va : BitVec 64) level table,
    let a := table + 8 * (va.toNat / 2 ^ (16 + 10 * level) % 2 ^ 10)
    let e := leNat (readHome s a 8).1
    (tableOwned s p a = false → walkFrom s p ctx va (level + 1) table = .error { cause := evProtection, level }) ∧
    (tableOwned s p a = true → (readHome s a 8).2 = true →
      walkFrom s p ctx va (level + 1) table = .error { cause := evPageFault, level, poisoned := true }) ∧
    (tableOwned s p a = true → (readHome s a 8).2 = false →
    (e % 2 = 0 → walkFrom s p ctx va (level + 1) table = .error { cause := evPageFault, level }) ∧
    (e % 2 = 1 → malformedEntry level e = true →
      walkFrom s p ctx va (level + 1) table = .error { cause := evPageFault, level, malformed := true }) ∧
    (e % 2 = 1 → malformedEntry level e = false → e / 2 ^ 10 % 8 ≠ p →
      walkFrom s p ctx va (level + 1) table = .error { cause := evProtection, level }) ∧
    (e % 2 = 1 → malformedEntry level e = false → e / 2 ^ 10 % 8 = p →
      (e / 2 % 2 = 0 → walkFrom s p ctx va (level + 1) table =
        walkFrom s p ctx va level (e / 2 ^ 13 % 2 ^ 39 * 2 ^ 13)) ∧
      (e / 2 % 2 = 1 → ∃ t, walkFrom s p ctx va (level + 1) table = .ok t ∧ t.level = level ∧
        t.page = e / 2 ^ 13 % 2 ^ 39 * 2 ^ 13 ∧ t.r = (e / 4 % 2 == 1) ∧ t.w = (e / 8 % 2 == 1) ∧
        t.x = (e / 16 % 2 == 1)))))

/-! ### Computing (spec/11) -/

/-- The add, multiply and divide families (R178, R180, R181, R92, R191): each completes for every operand form, TYPE and
mask, writes its result in D and changes nothing else. -/
def Obligations.IntegerArithmeticWritesD : Prop :=
  WritesD .iadd .iadd .ty (fun x c l => mapInt x.ty x.sat (fun a b => a + b) (srcA c l) (srcB c l)) ∧
  WritesD .isub .isub .ty (fun x c l => mapInt x.ty x.sat (fun a b => a - b) (srcA c l) (srcB c l)) ∧
  WritesD .iadd3 .iadd3 .ty
    (fun x c l => mapPlain3 x.ty x.sat (fun a b d => a + b + d) (srcA c l) (srcB c l) (srcC c l)) ∧
  WritesD .ineg .ineg .ty (fun x c l => mapInt x.ty x.sat (fun a _ => -a) (srcA c l) 0) ∧
  WritesD .iabs .iabs .ty (fun x c l => mapInt x.ty x.sat (fun a _ => (a.natAbs : Int)) (srcA c l) 0) ∧
  WritesD .imul .imul .ty (fun x c l => mapInt x.ty x.sat (fun a b => a * b) (srcA c l) (srcB c l)) ∧
  WritesD .imulh .imulh .ty
    (fun x c l => mapPlain x.ty (fun a b => a * b / (2 ^ x.ty.elemBits : Nat)) (srcA c l) (srcB c l)) ∧
  WritesD .imad .imad .ty
    (fun x c l => mapPlain3 x.ty x.sat (fun a b d => a * b + d) (srcA c l) (srcB c l) (srcC c l)) ∧
  WritesD .imadw .imadw .two
    (fun x c l => madWide x.ty x.sat (srcA c l) (srcB c l) (readOperand c.g x .two l x.c)) ∧
  WritesD .idiv .idiv .ty
    (fun x c l => mapPlain x.ty (fun a b => (divRem x.ty.isSigned x.ty.elemBits a b).1) (srcA c l) (srcB c l)) ∧
  WritesD .irem .irem .ty
    (fun x c l => mapPlain x.ty (fun a b => (divRem x.ty.isSigned x.ty.elemBits a b).2) (srcA c l) (srcB c l)) ∧
  WritesD .lea .lea .two
    (fun x c l => leaVal x.ty (x.bits 0 3) (readOperand c.g x .two l x.a) (srcB c l))

/-- IMIN and IMAX return the lesser or greater element (R182), compared as the TYPE reads it. -/
def Obligations.MinMaxReturnsLesserOrGreater : Prop :=
  WritesD .imin .imin .ty (fun x c l => mapInt x.ty false (fun a b => if b < a then b else a) (srcA c l) (srcB c l)) ∧
  WritesD .imax .imax .ty (fun x c l => mapInt x.ty false (fun a b => if a < b then b else a) (srcA c l) (srcB c l)) ∧
  ∀ (ty : Ty) (a b : BitVec 64) (j : Nat), j < ty.elems →
    let va := elemVal ty.isSigned ty.elemBits (elemAt ty a j)
    let vb := elemVal ty.isSigned ty.elemBits (elemAt ty b j)
    elemVal ty.isSigned ty.elemBits
      (elemAt ty (mapInt ty false (fun a b => if b < a then b else a) a b) j) = min va vb ∧
    elemVal ty.isSigned ty.elemBits
      (elemAt ty (mapInt ty false (fun a b => if a < b then b else a) a b) j) = max va vb

/-- Integer results with SAT = 0 keep the low bits of the exact result, and with SAT = 1 are the exact result clamped to
the range of the type, on each element on its own (R84, R178).
Bit k of LOGIC3's result is bit 4 a_k + 2 b_k + c_k of LUT (R185); SHL, SHR and SAR by a count below the width
move bits up, down and down with the sign, and by a larger one leave zeros or the sign (R186); BFI writes the
low bits of a into the field and keeps the others (R93). -/
def Obligations.IntegerResultsByElement : Prop :=
  (∀ (ty : Ty) (f : Int → Int → Int) (a b : BitVec 64) (j : Nat), j < ty.elems →
     let w := ty.elemBits
     let exact := f (elemVal ty.isSigned w (elemAt ty a j)) (elemVal ty.isSigned w (elemAt ty b j))
     ((elemAt ty (mapInt ty false f a b) j : Int) = exact % (2 ^ w : Nat)) ∧
     elemVal ty.isSigned w (elemAt ty (mapInt ty true f a b) j) =
       max (if ty.isSigned then -(2 ^ (w - 1) : Int) else 0)
         (min (if ty.isSigned then (2 ^ (w - 1) : Int) - 1 else (2 ^ w : Int) - 1) exact)) ∧
  (∀ (w : Nat), (w = 32 ∨ w = 64) → ∀ (a b c d : BitVec 64) (k : Nat), k < w →
     (∀ lut, lut < 256 → (logic3 lut w a b c).getLsbD k =
       lut.testBit (4 * (a.getLsbD k).toNat + 2 * (b.getLsbD k).toNat + (c.getLsbD k).toNat)) ∧
     (let n := b.toNat % 2 ^ 32
      (shiftVal 0 w a b).getLsbD k = (decide (n ≤ k) && a.getLsbD (k - n)) ∧
      (shiftVal 1 w a b).getLsbD k = (decide (k + n < w) && a.getLsbD (k + n)) ∧
      (shiftVal 2 w a b).getLsbD k = if k + n < w then a.getLsbD (k + n) else a.getLsbD (w - 1)) ∧
     (∀ o n, (bitInsert d a n o w).getLsbD k = if o ≤ k ∧ k < o + n then a.getLsbD (k - o) else d.getLsbD k))

/-- LOGIC3, shifts, rotates, funnel shift, bit fields, PERMB (R185 to R188, R190): each completes for every operand form
and writes its result in D.
Moves, constants, conversions between integers, random numbers, lane masks and readers of predicates, counters and
the shader kind (R192, R193, R102, R204, R209, R210, R228, R273, R387): each completes and writes its value in D. -/
def Obligations.BitInstructionsAndMovesWriteD : Prop :=
  (WritesD .logic3 .logic3 .ty
     (fun x c l => logic3 (x.bits 0 8) x.ty.elemBits (srcA c l) (srcB c l) (srcC c l)) ∧
   WritesD .shl .shl .ty (fun x c l => shiftVal 0 x.ty.elemBits (srcA c l) (srcB c l)) ∧
   WritesD .shr .shr .ty (fun x c l => shiftVal 1 x.ty.elemBits (srcA c l) (srcB c l)) ∧
   WritesD .sar .sar .ty (fun x c l => shiftVal 2 x.ty.elemBits (srcA c l) (srcB c l)) ∧
   WritesD .rol .rol .ty (fun x c l => shiftVal 3 x.ty.elemBits (srcA c l) (srcB c l)) ∧
   WritesD .ror .ror .ty (fun x c l => shiftVal 4 x.ty.elemBits (srcA c l) (srcB c l)) ∧
   WritesD .shf .shf .ty (fun x c l => funnel (x.bit 0) x.ty.elemBits (srcA c l) (srcB c l) (srcC c l)) ∧
   WritesD .bfx .bfx .ty (fun x c l =>
     bitExtract (srcA c l) (bits (srcC c l).toNat 0 6) (bits (srcB c l).toNat 0 6) x.ty.isSigned x.ty.elemBits) ∧
   WritesD .bfi .bfi .ty (fun x c l =>
     bitInsert (oldD c l) (srcA c l) (bits (srcC c l).toNat 0 6) (bits (srcB c l).toNat 0 6) x.ty.elemBits) ∧
   WritesD .permb .permb .ty (fun _ c l => permuteBytes (srcA c l) (srcB c l) (srcC c l))) ∧
  (WritesD .mov .mov .ty (fun _ c l => srcA c l) ∧
   WritesD .movi .movi .ty (fun x _ _ => BitVec.ofNat 64 (x.imm.toNat * 2 ^ (16 * x.bits 0 2))) ∧
   WritesD .movh .movh .ty
     (fun x c l => bitInsert (oldD c l) (BitVec.ofNat 64 x.imm.toNat) 16 (16 * x.bits 0 2) x.ty.elemBits) ∧
   WritesD .i2i .i2i .ty (fun x c l => BitVec.ofNat 64
     (intResult x.sat x.ty.isSigned x.ty.elemBits (toInt x.sty (readOperand c.g x .sty l x.a)))) ∧
   WritesD .rng .rng .ty (fun _ c l => (rngVal ((srcA c l).setWidth 32) ((srcB c l).setWidth 32)).setWidth 64) ∧
   WritesD .matchLanes .matchLanes .two (fun x c l => segMask c l (fun j =>
     (srcA c j).toNat % 2 ^ x.ty.regBits == (srcA c l).toNat % 2 ^ x.ty.regBits)) ∧
   WritesD .ptos .ptos .one (fun _ c l => ((sget c.g.preds l) ||| 0x8000#16).setWidth 64) ∧
   WritesD .ppopc .ppopc .one (fun x c l => BitVec.ofNat 64
     (((lanesOfCopy c.g (copyOf c.g l) c.all).filter (fun i => predOperand c.g i x.a)).length)) ∧
   WritesD .kget .kget .one (fun x c _ => BitVec.ofNat 64 (kget c.g x.a.idx)) ∧
   WritesD .trvInfoKind .trvInfoKind .one
     (fun _ c _ => BitVec.ofNat 64 (match c.g.shader with | some h => h.kind | none => 0)))

/-- POPC, CLZ, CTZ and BREV (R189): the number of 1 bits; of 0 bits above the highest and below the lowest 1 bit, and the
width for 0; bit j moved to bit Wd - 1 - j. -/
def Obligations.BitCountsAndReversal : Prop :=
  WritesD .popc .popc .one (fun x c l => BitVec.ofNat 64 (popCount x.ty.elemBits (srcA c l))) ∧
  WritesD .clz .clz .one (fun x c l => BitVec.ofNat 64 (leadZeros x.ty.elemBits (srcA c l))) ∧
  WritesD .ctz .ctz .one (fun x c l => BitVec.ofNat 64 (trailZeros x.ty.elemBits (srcA c l))) ∧
  WritesD .brev .brev .ty
    (fun x c l => fromBits x.ty.elemBits (fun j => (srcA c l).getLsbD (x.ty.elemBits - 1 - j))) ∧
  ∀ (w : Nat), (w = 32 ∨ w = 64) → ∀ a : BitVec 64,
    popCount w a = ((List.range w).filter (fun i => a.getLsbD i)).length ∧
    (leadZeros w a ≤ w ∧ (∀ i, i < w → w - leadZeros w a ≤ i → a.getLsbD i = false) ∧
      (leadZeros w a < w → a.getLsbD (w - 1 - leadZeros w a) = true)) ∧
    (trailZeros w a ≤ w ∧ (∀ i, i < trailZeros w a → a.getLsbD i = false) ∧
      (trailZeros w a < w → a.getLsbD (trailZeros w a) = true)) ∧
    ∀ j, j < w → (fromBits w (fun j => a.getLsbD (w - 1 - j))).getLsbD (w - 1 - j) = a.getLsbD j

/-- ICMP (R183, Table 11.2), PLOGIC (R273), DCLASS and FCLASS (R199): each completes and writes predicate D in the active
lanes: the condition or class combined with p[c], or the bit of LUT that the three predicates name.
VOTE writes p[d] in the modes all, any and eq, and the mask of the voting lanes in the pair d with .ballot (R209).
DCMP, FCMP and HCMP2 (R198): the condition on x and y combined with p[c], element 0 in p[d] and, of HCMP2, element 1 in
p[e]; the exceptions of each copy go into that copy's %fpflags. -/
def Obligations.ComparisonsVotesAndLogicWritePredicates : Prop :=
  (WritesPred .icmp .icmp (fun x c l => combine (x.bits 22 2)
     (intCond (x.bits 0 3) (toInt x.ty (srcA c l)) (toInt x.ty (srcB c l))) (predOperand c.g l x.c)) ∧
   WritesPred .plogic .plogic (fun x c l => x.bit
     (4 * (predOperand c.g l x.a).toNat + 2 * (predOperand c.g l x.b).toNat + (predOperand c.g l x.c).toNat)) ∧
   WritesPred .dclass .dclass (fun x c l => combine (x.bits 22 2)
     (x.bit (6 + classOf (fmtOf x.ty) ((srcA c l).toNat % 2 ^ x.ty.elemBits))) (predOperand c.g l x.c)) ∧
   WritesPred .fclass .fclass (fun x c l => combine (x.bits 22 2)
     (x.bit (6 + classOf (fmtOf x.ty) ((srcA c l).toNat % 2 ^ x.ty.elemBits))) (predOperand c.g l x.c)) ∧
   ∀ a b : Int, (intCond 0 a b ↔ a = b) ∧ (intCond 1 a b ↔ a ≠ b) ∧ (intCond 2 a b ↔ a < b) ∧ (intCond 3 a b ↔ a ≤ b) ∧
     (intCond 4 a b ↔ a > b) ∧ (intCond 5 a b ↔ a ≥ b)) ∧
  (Completes .vote .vote (fun _ x _ => x.bits 3 2 = 3) id (fun _ x c g' => AtPc c g' (c.sp.pc + 1) ∧
     WroteD c .two (fun l => segMask c l (fun j => predOperand c.g j x.a)) g') ∧
   ∀ mode : Nat, mode < 3 →
     Completes .vote .vote (fun _ x _ => x.bits 3 2 = mode) id (fun _ x c g' => AtPc c g' (c.sp.pc + 1) ∧
       WrotePred c (fun l =>
         if mode = 0 then ∀ j ∈ segActive c l, predOperand c.g j x.a = true
         else if mode = 1 then ∃ j ∈ segActive c l, predOperand c.g j x.a = true
         else ∀ i ∈ segActive c l, ∀ j ∈ segActive c l, predOperand c.g i x.a = predOperand c.g j x.a) g')) ∧
  (let post (e : Bool) : State → Enc → Iss → Group → Prop := fun _ x c g' =>
     AtPc c g' (c.sp.pc + 1) ∧ g'.fpflags = c.g.fpflags ||| flagsIn c.g 0 c.all (condFlags c) ∧
     g'.fpflagsSh = (if c.g.lined then c.g.fpflagsSh ||| flagsIn c.g 1 c.all (condFlags c) else c.g.fpflagsSh) ∧
     (match x.d with
       | .p i => ∀ l, l < 64 → c.all.getLsbD l = true → i.toNat < 15 →
           (e = true → x.e ≠ .p i) → pget g' l i.toNat = condPred c 0 l
       | _ => True) ∧
     (e = true → match x.e with
       | .p i => ∀ l, l < 64 → c.all.getLsbD l = true → i.toNat < 15 → pget g' l i.toNat = condPred c 1 l
       | _ => True) ∧
     (∀ l j, j < 15 → (c.all.getLsbD l = false ∨ (x.d.idx ≠ j ∧ (e = true → x.e.idx ≠ j))) → pget g' l j = pget c.g l j) ∧
     OnlyMended c.g g' (fun r => 512 ≤ r ∧ (x.d.idx = r - 512 ∨ (e = true ∧ x.e.idx = r - 512))) ∧
     g' = { c.g with
       preds := g'.preds, damaged := g'.damaged, latent := g'.latent, fpflags := g'.fpflags, fpflagsSh := g'.fpflagsSh
       splits := g'.splits }
   let pre : State → Enc → Iss → Prop := fun _ _ c => fpOutcome c.g c.all (condFlags c) = .record
   Completes .dcmp .dcmp pre id (post false) ∧ Completes .fcmp .fcmp pre id (post false) ∧
   Completes .hcmp2 .hcmp2 pre id (post true))

/-- SEL copies a where p[c] holds and b elsewhere, bits unchanged (R184). In the uniform form the copy's lanes must agree
on p[c]: where they disagree the spec names no lane, and which of the two values it is is free (log entry 9).
IADDC (R179): t = a + b + cin, or a + (2^w - 1 - b) + cin with SUB, on unsigned operands, cin being p[c], inverted with
CINV; d receives t mod 2^w and p[e] whether t reaches 2^w. In the uniform form d is one sum for the lanes that share p[c],
and p[e] the carry of each active lane (log entries 9 and 88).
SHFL and BCAST (R207, R208): each active lane receives a of its source lane where that is valid and active, else its
own a; p[e], where named, tells which.
SIGACC folds one 16-B record for each active lane, in ascending order, into the scalar signature of each copy (R205,
R103). -/
def Obligations.SelectCarryShuffleAndSignature : Prop :=
  (Completes .sel .sel (fun _ x _ => x.d.isV = true) id (fun _ x c g' => AtPc c g' (c.sp.pc + 1) ∧
     WroteD c .ty (fun l => if predOperand c.g l x.c then srcA c l else srcB c l) g') ∧
   ∀ b : Nat → Bool, Completes .sel .sel
     (fun _ x c => x.d.isS = true ∧ ∀ k ∈ copiesOf c.g, sharedPred c k x.c = some (b k)) id
     (fun _ x c g' => AtPc c g' (c.sp.pc + 1) ∧ ScalarHolds c.g g' x.d.idx (fun k => scalarResult x .ty
       (if b k then srcA c (laneOfCopy c.g k) else srcB c (laneOfCopy c.g k))) ∧
       OnlyScalar c.g g' x.d.idx)) ∧
  (let t (x : Enc) (c : Iss) (l : Nat) (p : Bool) : Nat :=
     let w := x.ty.elemBits
     (srcA c l).toNat % 2 ^ w + (if x.bit 0 then 2 ^ w - 1 - (srcB c l).toNat % 2 ^ w else (srcB c l).toNat % 2 ^ w) +
       (xor p (x.bit 1)).toNat
   let carry (x : Enc) (c : Iss) (l : Nat) : Bool := decide (2 ^ x.ty.elemBits ≤ t x c l (predOperand c.g l x.c))
   Completes .iaddc .iaddc (fun _ x _ => x.d.isV = true) id (fun _ x c g' => AtPc c g' (c.sp.pc + 1) ∧
     WroteDE c .ty (fun l => BitVec.ofNat 64 (t x c l (predOperand c.g l x.c) % 2 ^ x.ty.elemBits)) (carry x c) g') ∧
   ∀ b : Nat → Bool, Completes .iaddc .iaddc
     (fun _ x c => x.d.isS = true ∧ ∀ k ∈ copiesOf c.g, sharedPred c k x.c = some (b k)) id
     (fun _ x c g' => AtPc c g' (c.sp.pc + 1) ∧ ∃ h, ScalarHolds c.g h x.d.idx (fun k => scalarResult x .ty
         (BitVec.ofNat 64 (t x c (laneOfCopy c.g k) (b k) % 2 ^ x.ty.elemBits))) ∧ OnlyScalar c.g h x.d.idx ∧
       match x.e with
       | .p i => PredsHold h g' c.all i.toNat (carry x c) ∧ OnlyPred h g' c.all i.toNat
       | _ => g' = h)) ∧
  ((∀ src : Iss → Nat → Option Nat,
     src = (fun c l => shflSource c (c.x.bits 3 2) l (srcB c l)) →
     Completes .shfl .shfl Always id (fun _ _ c g' => AtPc c g' (c.sp.pc + 1) ∧
       WroteDE c .ty (fun l => match src c l with
         | some j => if c.all.getLsbD j then srcA c j else srcA c l
         | none => srcA c l) (fun l => shflOk c (src c l)) g')) ∧
   Completes .bcast .bcast Always id (fun _ _ c g' => AtPc c g' (c.sp.pc + 1) ∧
     WroteDE c .ty (fun l => match bcastSource c l with
       | some j => if c.all.getLsbD j then srcA c j else srcA c l
       | none => srcA c l) (fun l => shflOk c (bcastSource c l)) g') ∧
   ∀ (c : Iss) (l : Nat) (b : BitVec 64),
     shflSource c 0 l b = some (segBase c l + b.toNat % 2 ^ 32 % segSize c) ∧
     shflSource c 3 l b = some (segBase c l + ((l - segBase c l) ^^^ (b.toNat % 2 ^ 32 % segSize c)))) ∧
  (WritesScalar .sigacc .sigacc Always (fun _ x c k => (lanesOfCopy c.g k c.all).foldl (fun v l =>
     sigFold v (leBytes 8 (readOperand c.g x .two l x.a).toNat ++
       leBytes 8 (BitVec.ofNat 64 ((srcB c l).toNat % 2 ^ x.ty.regBits)).toNat)) (srget c.g k x.d.idx)))

/-- The floating-point instructions that write D at issue (R87, R195 to R197, R200 to R202, R211, R212): where no active
lane raises an enabled exception, each completes, writes its results and ORs the exceptions into %fpflags.
An enabled exception in an active lane of any of them, or of DCMP, FCMP and HCMP2 (R87): the instruction writes nothing and
raises FP_TRAP with the lanes that raise an enabled exception and the enabled exceptions they raise; where one copy of a
lined group raises one and the other none, LINING_MISMATCH (R335). -/
def Obligations.FloatingPointWritesDOrTraps : Prop :=
  (FpRuns .dadd .dadd .ty (fun _ => fpMap exprAdd) ∧ FpRuns .dsub .dsub .ty (fun _ => fpMap exprSub) ∧
   FpRuns .dmul .dmul .ty (fun _ => fpMap exprMul) ∧ FpRuns .dfma .dfma .ty (fun _ => fpMap exprFma) ∧
   FpRuns .dmin .dmin .ty (fun _ => minMaxLane false) ∧ FpRuns .dmax .dmax .ty (fun _ => minMaxLane true) ∧
   FpRuns .dround .dround .ty (fun _ => roundLane) ∧
   FpRuns .fadd .fadd .ty (fun _ => fpMap exprAdd) ∧ FpRuns .fsub .fsub .ty (fun _ => fpMap exprSub) ∧
   FpRuns .fmul .fmul .ty (fun _ => fpMap exprMul) ∧ FpRuns .ffma .ffma .ty (fun _ => fpMap exprFma) ∧
   FpRuns .fmin .fmin .ty (fun _ => minMaxLane false) ∧ FpRuns .fmax .fmax .ty (fun _ => minMaxLane true) ∧
   FpRuns .fround .fround .ty (fun _ => roundLane) ∧
   FpRuns .hadd2 .hadd2 .ty (fun _ => fpMap exprAdd) ∧ FpRuns .hmul2 .hmul2 .ty (fun _ => fpMap exprMul) ∧
   FpRuns .hfma2 .hfma2 .ty (fun _ => fpMap exprFma) ∧ FpRuns .hmin2 .hmin2 .ty (fun _ => minMaxLane false) ∧
   FpRuns .hmax2 .hmax2 .ty (fun _ => minMaxLane true) ∧ FpRuns .cvt .cvt .ty (fun _ => cvtLane) ∧
   FpRuns .cvtp .cvtp .one (fun _ => cvtpLane) ∧ FpRuns .scaleb .scaleb .ty (fun _ => scalebLane) ∧
   FpRuns .lred .lred .ty (fun _ c l => ((segReduce c l (fun _ => true)).1,
     (lanesOfCopy c.g (copyOf c.g l) c.all).foldl (fun v j => v ||| (segReduce c j (fun _ => true)).2) 0)) ∧
   FpRuns .lscan .lscan .ty (fun x c l => ((segReduce c l (fun j => j < l || (j == l && !x.bit 6))).1,
     (lanesOfCopy c.g (copyOf c.g l) c.all).foldl
       (fun v i => v ||| (segReduce c i (fun j => j < i || (j == i && !x.bit 6))).2) 0))) ∧
  (FpTraps .dcmp .dcmp (fun _ => condFlags) ∧ FpTraps .fcmp .fcmp (fun _ => condFlags) ∧
   FpTraps .hcmp2 .hcmp2 (fun _ => condFlags) ∧ FpMismatches .dcmp .dcmp (fun _ => condFlags) ∧
   FpMismatches .fcmp .fcmp (fun _ => condFlags) ∧ FpMismatches .hcmp2 .hcmp2 (fun _ => condFlags))

/-- The iterative unit's instructions (R153, R173): each clears the full/empty bits of D at issue and puts a producer in
flight that carries every active lane's result and the exceptions of each copy; the split goes on, or, where an
exception that the instruction can raise is enabled, holds until its exceptions are known.
REGISTER_WRITE_BACK of a result of the iterative unit (R153, R173): the registers receive their values, are full again,
the exceptions of each copy go into its %fpflags, and a split that held for them goes on at the next word; a result that
traps leaves the registers as they were and full, changes no flag and raises FP_TRAP at the instruction's PC, with the held
split still at it, or LINING_MISMATCH where the copies disagree (R87, R335). -/
def Obligations.IterativeUnitEmptiesAndFillsD : Prop :=
  (let made (can : BitVec 5) (f : Iss → Nat → BitVec 64 × BitVec 5) : State → Enc → Iss → Group → Prop := fun s x c g' =>
     (c.g.fpctl &&& can = 0 → AtPc c g' (c.sp.pc + 1)) ∧
     (c.g.fpctl &&& can ≠ 0 → ∃ sp, mget g'.splits c.j = some sp ∧ sp.pc = c.sp.pc ∧ sp.wait = .trapHold s.nextOp) ∧
     (∀ r, isEmpty g' r = (isEmpty c.g r || (x.d.idx ≤ r && r < x.d.idx + (x.span .ty).1))) ∧
     (∃ p trap, g'.prods = c.g.prods ++ [p] ∧ p.id = s.nextOp ∧ p.d = x.d.idx ∧ p.lanes = c.all ∧
       p.kind = .value ((lanesOf c.all).flatMap (fun l => regWrites x.d.idx ((x.span .ty).1 = 2) l (f c l).1))
         (flagsIn c.g 0 c.all (fun l => (f c l).2)) (flagsIn c.g 1 c.all (fun l => (f c l).2)) trap ∧
       (fpOutcome c.g c.all (fun l => (f c l).2) = .record → trap = none)) ∧
     g' = { c.g with empty := g'.empty, prods := g'.prods, splits := g'.splits }
   let pre : State → Enc → Iss → Prop := fun _ x c => x.d.isV = true ∧ c.sp.wait = .none
   let base : State → State := fun s => { s with nextOp := s.nextOp + 1 }
   Completes .ddiv .ddiv pre base (made 31 (fpMap exprDiv)) ∧ Completes .fdiv .fdiv pre base (made 31 (fpMap exprDiv)) ∧
   Completes .dsqrt .dsqrt pre base (made (fIV ||| fNX) (fpMap exprSqrt)) ∧
   Completes .fsqrt .fsqrt pre base (made (fIV ||| fNX) (fpMap exprSqrt)) ∧
   Completes .rcp .rcp pre base (made 15 (specialLane .rcp)) ∧ Completes .rsq .rsq pre base (made 3 (specialLane .rsq)) ∧
   Completes .exp2 .exp2 pre base (made 13 (specialLane .exp2)) ∧ Completes .log2 .log2 pre base (made 3 (specialLane .log2)) ∧
   Completes .sin .sin pre base (made 9 (specialLane .sin)) ∧ Completes .cos .cos pre base (made 1 (specialLane .cos))) ∧
  (∀ (s : State) (gid : Nat) (g : Group) (p : Producer) (ws : List RegWrite) (f fsh : BitVec 5),
     s.mantle.powered = true → mget s.groups gid = some g → g.prods.find? (fun q => q.id == p.id) = some p →
     p.kind = .value ws f fsh none → (∀ w ∈ ws, w.lane < 64) → (ws.map (fun w => (w.reg, w.lane))).Nodup →
     ∃ t g', exec (.registerWriteBack gid p.id) s = .next t ∧ t = { s with groups := t.groups } ∧
       mget t.groups gid = some g' ∧ (∀ w ∈ ws, vget g' w.reg w.lane = w.val) ∧
       (∀ r l, l < 64 → (∀ w ∈ ws, w.reg ≠ r ∨ w.lane ≠ l) → vget g' r l = vget g r l) ∧
       (∀ r, isEmpty g' r = (isEmpty g r && (r < p.d || p.d + p.nregs ≤ r))) ∧ g'.fpflags = g.fpflags ||| f ∧
       g'.fpflagsSh = (if g.lined then g.fpflagsSh ||| fsh else g.fpflagsSh) ∧
       g'.prods = g.prods.filter (fun q => q.id != p.id) ∧
       issuedSplit g' p.id p.split = (issuedSplit g p.id p.split).map (fun sp =>
         if sp.wait = .trapHold p.id then sp.onward s.clk (sp.pc + 1) else sp) ∧
       g' = { g with
         vregs := g'.vregs, empty := g'.empty, damaged := g'.damaged, latent := g'.latent, fpflags := g'.fpflags
         fpflagsSh := g'.fpflagsSh, prods := g'.prods, splits := g'.splits, aside := g'.aside }) ∧
  (∀ (s : State) (gid : Nat) (g : Group) (p : Producer) (ws : List RegWrite) (f fsh en : BitVec 5) (lanes : BitVec 64),
     s.mantle.powered = true → mget s.groups gid = some g → g.prods.find? (fun q => q.id == p.id) = some p →
     p.kind = .value ws f fsh (some (lanes, en)) →
     let g1 := markFull { g with prods := g.prods.filter (fun q => q.id != p.id) } p.d p.nregs
     let g2 := match issuedSplit g p.id p.split with
       | some sp => if sp.wait = .trapHold p.id then modIssued g1 p.id p.split (fun sp => sp.onward s.clk sp.pc) else g1
       | none => g1
     g1.vregs = g.vregs ∧ exec (.registerWriteBack gid p.id) s = .next (raise (modGroup s gid (fun _ => g2)) gid
       { code := if en = 0 then evLiningMismatch else evFpTrap, precise := true, split := p.split, epc := p.pc, lanes
         info := if en = 0 then mcInfo 0 4 else en.setWidth 64, info2 := 0, op := p.id }))

/-! ### Control, splits and events (spec/03, spec/15, spec/21) -/

/-- NOP, YIELD and SLEEP (R253): NOP and YIELD change nothing but the PC, YIELD keeps the split out of the next clk, and
SLEEP makes it not ready for n clk after issue.
SRGET writes a special register to a scalar of every copy or to every active lane (R257, Table 9.5), SPMASK the split's
mask to a scalar (R274), and SRSET writes %fpctl, or %fpflags of every copy (R86, R257).
STOP sets p_j to bit j of a where bit j of b is 1, for j from 0 to 14 (R273); JOINX removes the top n entries of the
reconvergence stack and changes no lane mask (R274).
PFIX writes a in the active lanes that are pending in the register it names, and they are pending no longer; a register of
which nothing is pending, and which no instruction in flight will fill, is full, and the counter of an instruction with
nothing pending and nothing in flight loses 1 (R228, R259); ERRINJ arms an injection of n instructions (R260). -/
def Obligations.SystemInstructionsGoOn : Prop :=
  (GoesOn .nop .nop Always ∧
   Completes .yield .yield Always id (fun s _ c g' => AtPc c g' (c.sp.pc + 1) ∧
     (∃ sp, mget g'.splits c.j = some sp ∧ sp.readyAt = s.clk + 2) ∧ g' = { c.g with splits := g'.splits }) ∧
   Completes .sleep .sleep Always id (fun s x c g' => AtPc c g' (c.sp.pc + 1) ∧
     (let n := (uniOperand c.g x 0 x.a).toNat % 2 ^ 32
      n ≠ 0 → ∃ sp, mget g'.splits c.j = some sp ∧ s.clk + 1 + n ≤ sp.readyAt) ∧ g' = { c.g with splits := g'.splits })) ∧
  ((let pre : State → Enc → Iss → Prop := fun s x c => srIndex x.a = 0x09 → valuesInFlight s c.gid c.g = false
    WritesScalar .srget .srget pre (fun s x c k => specialReg s c.g c.j (laneOfCopy c.g k) (srIndex x.a)) ∧
    Completes .srget .srget (fun s x c => x.d.isV = true ∧ pre s x c) id (fun s x c g' => AtPc c g' (c.sp.pc + 1) ∧
      LanesHold c.g g' c.all x.d.idx (x.ty == .n64) (fun l => specialReg s c.g c.j l (srIndex x.a)) ∧
      OnlyLanes c.g g' c.all x.d.idx (x.ty == .n64))) ∧
   WritesScalar .spmask .spmask Always (fun _ _ c _ => c.sp.mask) ∧
   (let fits : State → Enc → Iss → Prop := fun _ x c => ∀ k ∈ copiesOf c.g, (uniOperand c.g x k x.a).toNat < 32
    Completes .srset .srset (fun s x c => fits s x c ∧ srIndex x.d = 0x08) id (fun _ x c g' => AtPc c g' (c.sp.pc + 1) ∧
      g' = { c.g with fpctl := (uniOperand c.g x 0 x.a).extractLsb' 0 5, splits := g'.splits }) ∧
    Completes .srset .srset (fun s x c => fits s x c ∧ srIndex x.d ≠ 0x08 ∧ valuesInFlight s c.gid c.g = false) id
      (fun _ x c g' => AtPc c g' (c.sp.pc + 1) ∧
        g' = { c.g with fpflags := (uniOperand c.g x 0 x.a).extractLsb' 0 5
                        fpflagsSh := if c.g.lined then (uniOperand c.g x 1 x.a).extractLsb' 0 5 else c.g.fpflagsSh
                        splits := g'.splits }))) ∧
  (Completes .stop .stop Always id (fun _ x c g' => AtPc c g' (c.sp.pc + 1) ∧
     (∀ l j, j < 15 → pget g' l j =
       if l ∈ lanesOf c.all ∧ (readOperand c.g x .one l x.b).getLsbD j then (readOperand c.g x .one l x.a).getLsbD j
       else pget c.g l j) ∧ OnlyMended c.g g' (fun r => 512 ≤ r) ∧
     g' = { c.g with preds := g'.preds, damaged := g'.damaged, latent := g'.latent, splits := g'.splits }) ∧
   Completes .joinx .joinx Always id (fun _ x c g' =>
     (∃ sp, mget g'.splits c.j = some sp ∧ sp.pc = c.sp.pc + 1 ∧ sp.mask = c.sp.mask ∧
       sp.stack = c.sp.stack.drop x.imm.toNat) ∧
     (∀ k, k ≠ c.j → mget g'.splits k = mget c.g.splits k) ∧ g' = { c.g with splits := g'.splits })) ∧
  (Completes .pfix .pfix (fun s x c => pendNames c.g x.d.idx = true ∧ (x.ty = .n64 → pendNames c.g (x.d.idx + 1) = true) ∧
       (∀ p ∈ c.g.pend, copyGet s p.op = none ∧ pendQueued c.g p = false)) id
     (fun _ x c g' =>
       let hit (r l : Nat) : Prop := c.all.getLsbD l = true ∧ (pendLanes c.g r).getLsbD (laneIn c.g l) = true
       let named (r : Nat) : Bool := r == x.d.idx || (x.ty == .n64 && r == x.d.idx + 1)
       AtPc c g' (c.sp.pc + 1) ∧
       (∀ r, pendLanes g' r = if named r then pendLanes c.g r &&& ~~~ c.act else pendLanes c.g r) ∧
       (∀ r, isEmpty g' r = (isEmpty c.g r && !(named r && !prodFills c.g r && pendLanes g' r == 0))) ∧
       (∀ op k, (∀ p ∈ c.g.pend, p.op = op ∧ p.counter = some k) → c.g.pend ≠ [] →
         kget g' k = if g'.prods.any (fun q => q.id == op) || g'.pend.any (fun q => q.op == op) then kget c.g k
           else kget c.g k - 1) ∧
       (∀ l, l < 64 → hit x.d.idx l → vget g' x.d.idx l = (srcA c l).extractLsb' 0 32) ∧
       (x.ty = .n64 → ∀ l, l < 64 → hit (x.d.idx + 1) l → vget g' (x.d.idx + 1) l = (srcA c l).extractLsb' 32 32) ∧
       (∀ q l, l < 64 → ¬ (q = x.d.idx ∧ hit q l) → ¬ (x.ty = .n64 ∧ q = x.d.idx + 1 ∧ hit q l) →
         vget g' q l = vget c.g q l) ∧
       g' = { c.g with
         vregs := g'.vregs, empty := g'.empty, damaged := g'.damaged, latent := g'.latent, pend := g'.pend
         counters := g'.counters, splits := g'.splits }) ∧
   Completes .errinj .errinj (fun _ x c => let n := (uniOperand c.g x 0 x.a).toNat
       n ≠ 0 ∧ n < 2 ^ 16 ∧ x.bits 4 6 < c.g.width ∧ (x.bits 0 4 = 6 → c.g.lined = true)) id
     (fun _ x c g' => AtPc c g' (c.sp.pc + 1) ∧ g' = { c.g with
       inj := some { kind := x.bits 0 4, lane := x.bits 4 6, reg := x.bits 10 8, left := (uniOperand c.g x 0 x.a).toNat }
       splits := g'.splits }))

/-- BRA, BRI and RET take a split whose lanes all go to one place there; CALL and CALLI do so after they have written the
return PC, H + LEN + 1 of the calling block, to D in each active lane (R261 to R263).
BRANY, BRALL and LOOP never divide a split (R262): it goes whole to the target or on; LOOP first subtracts 1 from sd.
SPLIT_MERGE at a target where every split of its block is parked leaves no parked split there, and changes nothing but the
group's splits (R36). -/
def Obligations.BranchesAndCallsTransfer : Prop :=
  (let label : State → Enc → Iss → Nat → Option Pc := fun s x c _ =>
     targetPc s c.g.core c.g.part c.g.ctx c.sp.pc x.simm
   let indirect : State → Enc → Iss → Nat → Option Pc := fun s x c l =>
     let t : Pc := (readOperand c.g x .one l x.a).extractLsb' 0 32
     if pcOverlay t = pcOverlay c.sp.pc && isHeaderPc s c.g.core c.g.part c.g.ctx t then some t else none
   let linked : State → Enc → Iss → Prop := fun s _ c => (returnPc s c.g.core c.g.part c.g.ctx c.sp.pc).isSome = true
   let link : State → Enc → Iss → Group → Prop := fun s x c g' =>
     LanesHold c.g g' c.all x.d.idx false
       (fun _ => ((returnPc s c.g.core c.g.part c.g.ctx c.sp.pc).getD 0).setWidth 64) ∧
     OnlyLanes c.g g' c.all x.d.idx false
   TransfersTo .bra .bra label Always OnlySplits ∧ TransfersTo .bri .bri indirect Always OnlySplits ∧
   TransfersTo .ret .ret indirect Always OnlySplits ∧ TransfersTo .call .call label linked link ∧
   TransfersTo .calli .calli indirect linked link) ∧
  (let label : State → Enc → Iss → Option Pc := fun s x c => targetPc s c.g.core c.g.part c.g.ctx c.sp.pc x.simm
   let voters (x : Enc) (c : Iss) (k : Nat) : List Bool := (lanesOfCopy c.g k c.all).map (fun l => predOperand c.g l x.a)
   (∀ t b, Completes .brany .brany
     (fun s x c => (voters x c 0).any id = b ∧ (c.g.lined = true → (voters x c 1).any id = b) ∧
       (if b then label s x c else some (c.sp.pc + 1)) = some t) id (fun s x c g' => AtPc c g' t ∧ OnlySplits s x c g')) ∧
   (∀ t b, Completes .brall .brall
     (fun s x c => (voters x c 0).all id = b ∧ (c.g.lined = true → (voters x c 1).all id = b) ∧
       (if b then label s x c else some (c.sp.pc + 1)) = some t) id (fun s x c g' => AtPc c g' t ∧ OnlySplits s x c g')) ∧
   (∀ t b, Completes .loop .loop
     (fun s x c => x.d.isS = true ∧ decide (srget c.g 0 x.d.idx ≠ 1) = b ∧
       (c.g.lined = true → decide (srget c.g 1 x.d.idx ≠ 1) = b) ∧
       (if b then label s x c else some (c.sp.pc + 1)) = some t) id
     (fun _ x c g' => AtPc c g' t ∧ ScalarHolds c.g g' x.d.idx (fun k => srget c.g k x.d.idx - 1) ∧
       OnlyScalar c.g g' x.d.idx))) ∧
  (∀ (s : State) (gid : Nat) (t : Pc) (g : Group), s.mantle.powered = true → mget s.groups gid = some g →
     mayMerge g t = true → g.ovf = [] → ∃ u g', exec (.splitMerge gid t) s = .next u ∧ mget u.groups gid = some g' ∧
       u = { s with groups := u.groups } ∧ (∀ k, k ≠ gid → mget u.groups k = mget s.groups k) ∧
       g' = { g with splits := g'.splits } ∧ g'.splits.length ≤ g.splits.length ∧
       ∀ e ∈ g'.splits, e.2.stack.contains t = true → e.2.parked = false)

/-- A branch whose lanes go to two places divides its split (R35): the lanes of the place that the lowest lane goes to stay
in the entry, the others take the lowest free entry, and both hold the block's reconvergence target on top; BRA, BRI and RET,
and CALL and CALLI, which write the return PC first. Where no entry is free the others are pushed onto the overflow stack,
whose open bytes in the private block are written (R34, log entry 2); a push that finds no room there raises
SPLIT_OVERFLOW.
SPLIT_MERGE (R36): where every split whose reconvergence stack contains the target is parked at it with the target on top,
they become one, in the lowest entry, with the lanes of all of them; no lane is lost or gained. -/
def Obligations.SplitsDivideAndMerge : Prop :=
  (let two (s : State) (x : Enc) (c : Iss) (target : State → Enc → Iss → Nat → Option Pc) (t0 t1 : Pc) : Prop :=
     let goes (l : Nat) : Option Pc := laneGoes c (target s x c) l
     CopiesAgree c (target s x c) ∧ (∀ l ∈ lanesOf c.sp.mask, goes l = some t0 ∨ goes l = some t1) ∧
     goes (lowLane c.sp.mask) = some t0 ∧ ∃ l ∈ lanesOf c.sp.mask, goes l = some t1
   let divides (i : Enc → Instr) (op : Op) (target : State → Enc → Iss → Nat → Option Pc) (pre : State → Enc → Iss → Prop)
       (post : State → Enc → Iss → Group → Prop) : Prop :=
     ∀ (t0 t1 : Pc) (e : Nat), t0 ≠ t1 → Completes i op (fun s x c =>
       pre s x c ∧ two s x c target t0 t1 ∧ c.g.ovf = [] ∧ c.g.splits.length < 4 ∧ freeEntry c.g.splits = some e) id
     (fun s x c g' => ∃ p q, mget g'.splits c.j = some p ∧ mget g'.splits e = some q ∧ p.pc = t0 ∧ q.pc = t1 ∧
       (∀ l, l < 64 → p.mask.getLsbD l = (c.sp.mask.getLsbD l && laneGoes c (target s x c) l == some t0)) ∧
       (∀ l, l < 64 → q.mask.getLsbD l = (c.sp.mask.getLsbD l && laneGoes c (target s x c) l == some t1)) ∧
       (∀ r, reconvOf s c.g c.sp.pc = some r → p.stack.head? = some r ∧ q.stack.head? = some r) ∧
       (∀ k, k ≠ c.j → k ≠ e → mget g'.splits k = mget c.g.splits k) ∧ post s x c g')
   let pushes (i : Enc → Instr) (op : Op) (target : State → Enc → Iss → Nat → Option Pc) (pre : State → Enc → Iss → Prop)
       (first : State → Enc → Iss → Group → Group) : Prop :=
     ∀ (t0 t1 : Pc) (s : State) (x : Enc) (c : Iss), t0 ≠ t1 → Issues s op x c → pre s x c → two s x c target t0 t1 →
       c.g.splits.length = 4 → freeEntry c.g.splits = none → c.sp.parked = false →
       let stack := match reconvOf s c.g c.sp.pc with
         | some r => pushTarget c.sp.stack r
         | none => c.sp.stack
       let part (t : Pc) (m : BitVec 64) : Split := Split.onward { c.sp with mask := m, stack, yld := x.yld } s.clk t
       (c.g.aside = none → c.g.ovf.length < 16 → ∃ m0 m1 : BitVec 64,
         (∀ l, l < 64 → m0.getLsbD l = (c.sp.mask.getLsbD l && laneGoes c (target s x c) l == some t0)) ∧
         (∀ l, l < 64 → m1.getLsbD l = (c.sp.mask.getLsbD l && laneGoes c (target s x c) l == some t1)) ∧
         exec (i x) s = .next (spilled (modGroup s c.gid (fun _ =>
           let g := first s x c c.g
           { g with splits := mput g.splits c.j (part t0 m0), ovf := part t1 m1 :: c.g.ovf })) c.gid c.g.ovf)) ∧
       (c.g.aside.isSome = true ∨ 16 ≤ c.g.ovf.length →
         exec (i x) s = .next (raiseIss s c evSplitOverflow c.sp.mask 0))
   let indirect : State → Enc → Iss → Nat → Option Pc := fun s x c l =>
     let t : Pc := (readOperand c.g x .one l x.a).extractLsb' 0 32
     if pcOverlay t = pcOverlay c.sp.pc && isHeaderPc s c.g.core c.g.part c.g.ctx t then some t else none
   let label : State → Enc → Iss → Nat → Option Pc := fun s x c _ =>
     targetPc s c.g.core c.g.part c.g.ctx c.sp.pc x.simm
   let linked : State → Enc → Iss → Prop := fun s _ c => (returnPc s c.g.core c.g.part c.g.ctx c.sp.pc).isSome = true
   let back (s : State) (c : Iss) : BitVec 64 := ((returnPc s c.g.core c.g.part c.g.ctx c.sp.pc).getD 0).setWidth 64
   let link : State → Enc → Iss → Group → Prop := fun s x c g' =>
     LanesHold c.g g' c.all x.d.idx false (fun _ => back s c) ∧ OnlyLanes c.g g' c.all x.d.idx false
   let plain : State → Enc → Iss → Group → Group := fun _ _ _ g => g
   let writes : State → Enc → Iss → Group → Group := fun s x c g =>
     putLanes g x.d.idx false (lanesOf c.all) (fun _ => back s c)
   divides .bra .bra label Always OnlySplits ∧ divides .bri .bri indirect Always OnlySplits ∧
   divides .ret .ret indirect Always OnlySplits ∧ divides .call .call label linked link ∧
   divides .calli .calli indirect linked link ∧
   pushes .bra .bra label Always plain ∧ pushes .bri .bri indirect Always plain ∧ pushes .ret .ret indirect Always plain ∧
   pushes .call .call label linked writes ∧ pushes .calli .calli indirect linked writes) ∧
  (∀ (gid : Nat) (t : Pc) (g : Group),
     (∀ (i : Nat) (sp : Split) (rest : Amap Split), StepGives (.splitMerge gid t)
       (fun s => mget s.groups gid = some g ∧ mayMerge g t = true ∧ g.ovf = [] ∧
         g.splits.filter (fun e => e.2.stack.contains t) = (i, sp) :: rest)
       (fun s => modGroup s gid (fun g => { g with
         splits := mput (g.splits.filter (fun e => !e.2.stack.contains t)) i { sp with
           mask := rest.foldl (fun m e => m ||| e.2.mask) sp.mask
           stack := sp.stack.drop 1, parked := false, age := s.clk + 1 } }))) ∧
     StepGives (.splitMerge gid t) (fun s => mget s.groups gid = some g ∧ mayMerge g t = true)
       (fun s => spilled (modGroup s gid (fun g => mergeAt g t s.clk)) gid g.ovf) ∧
     (mayMerge g t = true → (g.splits.map (·.1)).Nodup → ∀ clk l,
       (((mergeAt g t clk).splits.map (·.2) ++ (mergeAt g t clk).ovf).any (fun sp => sp.mask.getLsbD l)) =
         ((g.splits.map (·.2) ++ g.ovf).any (fun sp => sp.mask.getLsbD l))))

/-- A precise event that Table 21.2 sends to a vector, met outside a handler, a job and a region, enters the group's
handler (R353, R356): what the entry saves and where the group goes; a device error in a committing region waits (R328). (The split is none that waits for
a deque or cloak operation with its operands kept, log entry 41: such a split's event drops them too.)
TRAP takes the event of its code, with FLAGS.SOFT, in the group's handler (R255); RPC is the next word.
The event frame of Table 21.3: EPC, IPC, RPC, code, flags, split, lanes and the two words of detail at their offsets. -/
def Obligations.PreciseEventEntersHandler : Prop :=
  (∀ (s : State) (gid : Nat) (g : Group) (ev : Event) (vec : Pc), mget s.groups gid = some g → ev.precise = true →
     g.job = none → g.aside = none →
     (g.region.st = .none ∨ (g.region.st = .committing ∧
       (ev.soft = true ∨ (ev.code ≠ evMachineCheck ∧ ev.code ≠ evLiningMismatch)))) →
     (vectorShift ev.code).isSome = true → vectorPc s g ev.code = some vec →
     (∀ sp, mget g.splits ev.split = some sp → sp.caught = none) →
     Entered s (raise s gid ev) gid g ev vec) ∧
  (∀ (s : State) (x : Enc) (c : Iss) (vec : Pc), Issues s .trap x c → c.g.job = none → c.g.aside = none →
     (c.g.region.st = .none ∨ c.g.region.st = .committing) → (vectorShift x.imm.toNat).isSome = true →
     vectorPc s c.g x.imm.toNat = some vec →
     let ev : Event := { code := x.imm.toNat, precise := true, split := c.j, epc := c.sp.pc, lanes := c.sp.mask, info := 0
                         info2 := 0, soft := true, op := s.nextOp }
     ∃ t, exec (.trap x) s = .next t ∧ Entered s t c.gid c.g ev vec ∧
       entryRpc ev c.sp.pc false c.g.region.openPc = c.sp.pc + 1) ∧
  (∀ (g : Group) (ev : Event) (ipc rpc : Pc) (rolled : Bool), ev.code < 256 → ev.split < 256 →
     let bs := frameBytes g ev ipc rpc rolled
     bs.length = 128 ∧ fieldAt bs 0 4 = ev.epc.toNat ∧ fieldAt bs 4 4 = ipc.toNat ∧ fieldAt bs 8 4 = rpc.toNat ∧
     fieldAt bs 12 1 = ev.code ∧
     fieldAt bs 13 1 = rolled.toNat + 2 * ev.holdFull.toNat + 4 * (!ev.precise).toNat + 8 * ev.soft.toNat + 16 * g.lined.toNat ∧
     fieldAt bs 14 1 = ev.split ∧ fieldAt bs 16 8 = ev.lanes.toNat ∧ fieldAt bs 24 8 = ev.info.toNat ∧
     fieldAt bs 32 8 = ev.info2.toNat ∧ zeroAt bs 40 88 = true)

/-- An event that has no vector stops the partition (R73, R353, R360): STATE becomes HALTED, the halt carries the code and
every group of the partition but Sageip's issues nothing more. -/
def Obligations.FatalEventHaltsPartition : Prop :=
  ∀ (s : State) (gid : Nat) (g : Group) (ev : Event), mget s.groups gid = some g → g.job = none →
    vectorShift ev.code = none → (partOf s g.part).state = 0 →
    let t := raise s gid ev
    (partOf t g.part).state = 1 ∧ (∃ h, (partOf t g.part).halt = some h ∧ h.cause = ev.code) ∧
    ∀ k g', mget t.groups k = some g' → g'.part = g.part → g'.sageip = false → g'.stopped = true

/-- TRET (R256, R358): with no poisoned lane pending and an RPC that TRET accepts in the event frame, every set-aside split is
restored without the lanes that exited meanwhile, and one that kept none is gone; the interrupted split goes on at RPC. An
RPC at the REGION.OPEN that the entry was rolled back to is accepted, and splits of the overflow stack take the entries that
are free then (log entry 21).
EXIT retires the active lanes (R38, R254): they leave the group's unexited lanes and every split's mask; where lanes
are left, the split goes on with those that it keeps. The last lanes leave the group with no hold, monitor, armed injection
or queued event, its team with one exited member more, and its place as soon as its stores are performed and nothing of it
is outstanding (log entry 90).
REPLAY of a record that it can read re-performs what the record names and writes its status to sd (R221, R258): 2 for a cause
or a reserved field that REPLAY refuses, 1 where nothing matches, and 0 otherwise; where what it re-performed is still on
its way it waits, and then writes 0. How the entry is found beside CORE, SLOT and SERIAL is log entry 19. -/
def Obligations.HandlersReturnAndLanesExit : Prop :=
  (∀ (s s1 : State) (x : Enc) (c : Iss) (a : Aside) (f : Found), Issues s .tret x c → c.g.aside = some a →
     (c.g.pend.any (fun p => p.lanes != 0 && !pendQueued c.g p)) = false → c.g.replayG = none →
     earlierReads s c.gid c.g s.nextOp = false →
     readAcc s c.gid s.nextOp 0 0 (accAt 0 (c.g.priv + 8).toInt 4 4 0) = (.ok f, s1) → f.poisoned = false →
     mget s1.groups c.gid = some c.g →
     let rpc : Pc := BitVec.ofNat 32 (leNat f.bytes)
     (rpcOk s1 c.g a rpc = true ↔ rpc = a.epc ∨ rpc = a.epc + 1 ∨ rpc = a.ipc ∨
       isHeaderPc s1 c.g.core c.g.part c.g.ctx rpc = true ∨ (a.rolled = true ∧ rpc = a.regionPc)) ∧
     (rpcOk s1 c.g a rpc = true → exec (.tret x) s = .next
       (spilled (modGroup s1 c.gid (fun g => settle (leaveHandler g a rpc s1.clk))) c.gid a.ovf)) ∧
     (rpcOk s1 c.g a rpc = false → exec (.tret x) s = .next (raiseIss s1 c evBadTarget c.sp.mask 0))) ∧
  (∀ (g : Group) (a : Aside) (rpc : Pc) (clk : Nat), (a.splits.map (·.1)).Nodup →
     let h := leaveHandler g a rpc clk
     h.aside = none ∧ h = { g with aside := none, splits := h.splits, ovf := h.ovf } ∧
     (∀ k, mget a.splits k = none → mget h.splits k = none) ∧
     (∀ k sp, mget a.splits k = some sp → mget h.splits k =
       if sp.mask &&& g.live = 0 then none
       else if k = a.split then some { sp with
         mask := sp.mask &&& g.live, pc := rpc, wait := if rpc = a.ipc ∧ rpc = sp.pc then sp.wait else .none, age := clk + 1 }
       else some { sp with mask := sp.mask &&& g.live }) ∧
     h.ovf = (a.ovf.map (fun sp => { sp with mask := sp.mask &&& g.live })).filter (fun sp => sp.mask != 0)) ∧
  (∀ g : Group, (g.splits.map (·.1)).Nodup → (g.ovf = [] → settle g = g) ∧
     settle g = { g with splits := (settle g).splits, ovf := (settle g).ovf } ∧
     ∀ l, (((settle g).splits.map (·.2) ++ (settle g).ovf).any (fun sp => sp.mask.getLsbD l)) =
       ((g.splits.map (·.2) ++ g.ovf).any (fun sp => sp.mask.getLsbD l))) ∧
  (∀ (s : State) (x : Enc) (c : Iss), Issues s .exit x c → c.g.live &&& ~~~ c.act ≠ 0 → c.g.synclRound = none →
     c.g.ovf = [] →
     ∃ t g', exec (.exit x) s = .next t ∧ OnlyGroup s t c g' ∧ g'.live = c.g.live &&& ~~~ c.act ∧
       (∀ k sp, mget g'.splits k = some sp → sp.mask &&& c.act = 0) ∧
       (c.sp.mask &&& ~~~ c.act ≠ 0 →
         ∃ sp, mget g'.splits c.j = some sp ∧ sp.pc = c.sp.pc + 1 ∧ sp.mask = c.sp.mask &&& ~~~ c.act) ∧
       g' = { c.g with live := g'.live, splits := g'.splits, ovf := g'.ovf }) ∧
  (∀ (s : State) (x : Enc) (c : Iss), Issues s .exit x c → c.g.live &&& ~~~ c.act = 0 → c.g.synclRound = none →
     c.g.ovf = [] → c.g.gen = 0 →
     ∃ s1 g1 t, OnlyGroup s s1 c g1 ∧ g1 = { c.g with live := 0, splits := g1.splits } ∧
       exec (.exit x) s = .next t ∧ t = retireGroup (memberExits (modGroup s1 c.gid (fun g => { g with
         holds := [], mons := [], inj := none, synclRound := none, pend := [], events := [], aside := none, gen := 0
         genDesc := 0 })) c.g.team c.g.index) c.gid) ∧
  (∀ (s : State) (gid : Nat) (g : Group), mget s.groups gid = some g →
     ((g.live ≠ 0 ∨ g.storeQ ≠ [] ∨ g.job.isSome = true ∨ delivering g = true ∨ (∃ c ∈ s.copies, c.gid = gid) ∨
       ∃ t ∈ s.travs, t.gid = gid) → retireGroup s gid = s) ∧
     (g.live = 0 → g.storeQ = [] → g.job = none → delivering g = false → (∀ c ∈ s.copies, c.gid ≠ gid) →
       (∀ t ∈ s.travs, t.gid ≠ gid) → g.shader = none → (s.groups.map (·.1)).Nodup →
       mget (retireGroup s gid).groups gid = none)) ∧
  (∀ (t : Team) (i : Nat), (addOnce t.exited i).contains i = true ∧ ∀ k, t.exited.contains k = true →
     (addOnce t.exited i).contains k = true) ∧
  (let sd (s : State) (x : Enc) (c : Iss) (v : Nat) : State :=
     advance (onGroup s c (putScalar · x.d.idx (fun _ => BitVec.ofNat 64 v))) c
   let reads (f : Found) (s1 s2 : State) (v : Nat) (e : Option (Nat × Nat)) : State → Enc → Iss → Prop := fun s x c =>
     let a := uniOperand c.g x 0 x.a
     (∀ gid op, c.sp.wait ≠ .replayed gid op) ∧ SameInCopies c x.a ∧ homeNow s c = true ∧ a.toNat % 64 = 0 ∧
     readAcc { s with nextOp := s.nextOp + 1 } c.gid s.nextOp x.h1.toNat x.h2.toNat (accAt 0 a.toInt 64 64 0) = (.ok f, s1) ∧
     replayRecord s1 c.g.part f.bytes = (s2, v, e)
   (∀ (f : Found) (s1 s2 : State) (v : Nat) (e : Option (Nat × Nat)), Gives .replay .replay
     (fun s x c => reads f s1 s2 v e s x c ∧ ∀ y ∈ e, onTheWay s2 y.1 y.2 = false) (fun _ x c => sd s2 x c v)) ∧
   (∀ (f : Found) (s1 s2 : State) (v gid op : Nat), Gives .replay .replay
     (fun s x c => reads f s1 s2 v (some (gid, op)) s x c ∧ onTheWay s2 gid op = true)
     (fun _ _ c => waitAs s2 c (.replayed gid op))) ∧
   (∀ gid op : Nat, Gives .replay .replay (fun s _ c => c.sp.wait = .replayed gid op ∧ onTheWay s gid op = true)
     (fun s _ _ => s)) ∧
   ∀ gid op : Nat, Gives .replay .replay (fun s _ c => c.sp.wait = .replayed gid op ∧ onTheWay s gid op = false)
     (fun s x c => sd s x c 0)) ∧
  ∀ (s : State) (p : Nat) (bs : List (BitVec 8)),
    let r := recFields bs
    let plain : Prop := replayCause r.cause = true ∧ recReserved bs = false ∧ r.slot / 32 % 2 = 0 ∧ r.slot / 64 % 2 = 0
    (replayCause r.cause = true ↔ r.cause ∈ [evAddress, evPageFault, evProtection, evScratchBound, evTensorBound,
      evStoreAfterExit]) ∧
    ((replayCause r.cause = false ∨ recReserved bs = true) → replayRecord s p bs = (s, 2, none)) ∧
    (∀ gid e, plain → replayTarget s p r = some (gid, e) →
      replayRecord s p bs = (replayEntry s gid e, 0, some (gid, e.id)) ∧
      ∃ e ∈ s.groups, e.1 = gid ∧ e.2.part = p ∧ e.2.serial = r.serial) ∧
    (plain → replayTarget s p r = none → replaySave s p r = none → replaySequencer s p r = none →
      replayEngine s p r = none → replayRecord s p bs = (s, 1, none))

/-- OVLD and OVLD.F (R266): an overlay that the directory does not hold takes the pockets as LOADING in the place of what
they overlapped, without F only once nothing there has a token; one that it holds changes nothing.
OVERLAY_LOAD_COMPLETE (R265, R266): an image whose words are read sound, whose descriptor names the overlay, that fits
its pockets and passes every check makes its overlay RESIDENT with those words. -/
def Obligations.OverlaysLoad : Prop :=
  (let first (c : Iss) (x : Enc) : Nat := (uniOperand c.g x 0 x.a).toNat
   let free : State → Enc → Iss → Prop := fun s x c =>
     homeNow s c = true ∧ SameInCopies c x.a ∧ SameInCopies c x.b ∧
     rootPocketsOf s c.g.core c.g.part c.g.ctx ≤ first c x ∧
     first c x + (x.bits 12 2 + 1) ≤ pocketsOf s c.g.core c.g.part c.g.ctx
   let absent : State → Enc → Iss → Prop := fun s x c => dirFind s c.g.core c.g.part c.g.ctx (x.bits 0 12) = none
   let idle : State → Enc → Iss → Prop := fun s x c => ∀ e ∈ (coreOf s c.g.core).dir,
     e.part = c.g.part → e.ctx = c.g.ctx → overlaps (first c x) (x.bits 12 2 + 1) e = true →
     tokensOf s c.g.core c.g.part c.g.ctx e.id = 0
   let loads : State → Enc → Iss → State := fun s x c =>
     advance (modCore s c.g.core (fun k => { k with
       dir := k.dir.filter (fun e => !(e.part == c.g.part && e.ctx == c.g.ctx && overlaps (first c x) (x.bits 12 2 + 1) e)) ++
         [{ part := c.g.part, ctx := c.g.ctx, id := x.bits 0 12, st := .loading, first := first c x
            count := x.bits 12 2 + 1, image := uniOperand c.g x 0 x.b, gid := c.gid, split := c.j, pc := c.sp.pc
            serial := c.g.serial, slotB := slotByte (identOf s c.g), index := c.g.index }] })) c
   Gives .ovldF .ovldF (fun s x c => free s x c ∧ absent s x c) loads ∧
   Gives .ovld .ovld (fun s x c => free s x c ∧ absent s x c ∧ idle s x c) loads ∧
   Gives .ovldF .ovldF (fun s x c => free s x c ∧ ¬ absent s x c) (fun s _ c => advance s c) ∧
   Gives .ovld .ovld (fun s x c => free s x c ∧ ¬ absent s x c) (fun s _ c => advance s c)) ∧
  (∀ (s s1 s2 : State) (core ctx n : Nat) (id : BitVec 12) (e : DirEntry) (w : Word) (m : Store 128),
     s.mantle.powered = true →
     (coreOf s core).dir.find? (fun e => e.ctx == ctx && e.id == id.toNat && e.st == .loading && !e.faulted) = some e →
     memReady s e.part = true →
     readImageWord core e s 0 = (.ok (w, false), s1) → descWords e.id w = some n →
     readWords (fun s i => readImageWord core e s (i + 1)) n 0 [] false s1 = (.ok (m, false), s2) →
     pocketCount n ≤ e.count → imageOk m n e.id = true →
     exec (.overlayLoadComplete core ctx id) s = .next
       (dirMod s2 core e.part e.ctx e.id (fun e => { e with st := .resident, words := m, len := n })))

/-- OVWAIT, OVQUERY, OVHOLD, OVDROP (R264, R267, R268): the overlay's state in sd, and the group's count of the overlay one
more or one less.
CALLO in both forms (R269) with its target overlay RESIDENT and a hold entry free: sd receives the return PC, the count of
the target overlay grows by one, and the split goes to the target header; RETO drops a hold of the overlay it leaves and
goes to the PC in its operand, and raises BAD_TARGET where that overlay is RESIDENT and the PC no header of it, as any transfer
does (R140, R261). -/
def Obligations.OverlaysAreHeldAndCalled : Prop :=
  (let id (x : Enc) (c : Iss) : Nat := (uniOperand c.g x 0 x.a).toNat % 2 ^ 12
   let entry : State → Enc → Iss → Option DirEntry := fun s x c => dirFind s c.g.core c.g.part c.g.ctx (id x c)
   WritesScalar .ovwait .ovwait (fun s x c => SameInCopies c x.a ∧ ∀ e, entry s x c = some e → e.st = .resident)
     (fun s x c _ => if (entry s x c).isNone then 0 else 2) ∧
   WritesScalar .ovquery .ovquery (fun _ x c => SameInCopies c x.a) (fun s x c _ => ovStatus s c.g (id x c)) ∧
   Gives .ovhold .ovhold (fun s x c => SameInCopies c x.a ∧
       (residentOv s c.g.core c.g.part c.g.ctx (id x c)).isSome = true ∧ holdFull c.g (id x c) = false)
     (fun s x c => advance (onGroup s c (fun g => putScalar (holdAdd g (id x c)) x.d.idx (fun _ => 1))) c) ∧
   WritesScalar .ovhold .ovhold (fun s x c => SameInCopies c x.a ∧
       ((residentOv s c.g.core c.g.part c.g.ctx (id x c)).isNone = true ∨ holdFull c.g (id x c) = true))
     (fun s x c _ => if (residentOv s c.g.core c.g.part c.g.ctx (id x c)).isNone then 0 else 2) ∧
   Gives .ovdrop .ovdrop (fun _ x c => SameInCopies c x.a)
     (fun s x c => advance (onGroup s c (fun g => holdSub g (id x c))) c) ∧
   ∀ (g : Group) (i : Nat) (n : BitVec 32), mgetD g.holds i 0 = n → n ≠ BitVec.allOnes 32 →
     mgetD (holdAdd g i).holds i 0 = n + 1 ∧ mgetD (holdSub (holdAdd g i) i).holds i 0 =
       (if n + 1 = BitVec.allOnes 32 then n + 1 else n)) ∧
  (let ready (t : Enc → Iss → Pc) (r : Pc) : State → Enc → Iss → Prop := fun s x c =>
     (residentOv s c.g.core c.g.part c.g.ctx (pcOverlay (t x c))).isSome = true ∧ holdFull c.g (pcOverlay (t x c)) = false ∧
     returnPc s c.g.core c.g.part c.g.ctx c.sp.pc = some r ∧ isHeaderPc s c.g.core c.g.part c.g.ctx (t x c) = true
   let goes (t : Enc → Iss → Pc) (r : Pc) : State → Enc → Iss → State := fun s x c =>
     goOn (onGroup s c (fun g => putScalar (holdAdd g (pcOverlay (t x c))) x.d.idx (fun _ => r.setWidth 64))) c (t x c)
   let label (x : Enc) (_ : Iss) : Pc := mkPc (x.bits 0 12) x.imm.toNat
   let reg (x : Enc) (c : Iss) : Pc := (uniOperand c.g x 0 x.a).extractLsb' 0 32
   ∀ r : Pc,
     Gives .callo .callo (fun s x c => ready label r s x c ∧ x.a.isS = false) (goes label r) ∧
     Gives .calloReg .calloReg (fun s x c => ready reg r s x c ∧ SameInCopies c x.a) (goes reg r) ∧
     (let away : State → Enc → Iss → Prop := fun s x c =>
        (residentOv s c.g.core c.g.part c.g.ctx (pcOverlay (reg x c))).isNone = true
      let header : State → Enc → Iss → Prop := fun s x c => isHeaderPc s c.g.core c.g.part c.g.ctx (reg x c) = true
      Gives .reto .reto (fun s x c => SameInCopies c x.a ∧ (away s x c ∨ header s x c))
        (fun s x c => goOn (onGroup s c (fun g => holdSub g (pcOverlay c.sp.pc))) c (reg x c)) ∧
      Gives .reto .reto (fun s x c => SameInCopies c x.a ∧ ¬ away s x c ∧ ¬ header s x c)
        (fun s _ c => raiseIss s c evBadTarget c.sp.mask 0)))

/-- BAR.SET writes M of a barrier that nobody has arrived at (R46); BAR.ARRIVE and BAR.SYNC of a group and of a sequencer
arrive with M as their mask (R47, R48), the first going on and the second waiting for the phase that was current.
A barrier's phase completes when every member of M has arrived or exited and one has arrived (R48): an arrival joins the
phase, and the one that completes it starts the next with nobody arrived. BAR.WAIT of a phase that has completed goes on, and
SYNCL joins its round or completes it, and neither changes a register or a byte of memory (R47 to R50). -/
def Obligations.BarriersArriveAndComplete : Prop :=
  ((∀ t : Team, Gives .barSet .barSet (fun s x c => SameInCopies c x.b ∧ teamOf s c.g = some t ∧
       (barOf t x.a.idx).arrived = [] ∧ uniOperand c.g x 0 x.b &&&
         ~~~ (maskBelow t.launch.groups ||| (if t.seq.isSome then bitMask seqMember else 0)) = 0)
     (fun s x c => advance (modTeam s c.g.team (fun t => { t with
       bars := mput t.bars x.a.idx { barOf t x.a.idx with m := (uniOperand c.g x 0 x.b).setWidth 33 } })) c)) ∧
   (∀ t : Team,
     let pre : State → Enc → Iss → Prop := fun s x c => releaseReady s c = true ∧ SameInCopies c x.b ∧
       teamOf s c.g = some t ∧ arrivalOk (barOf t x.a.idx) (uniOperand c.g x 0 x.b) c.g.index = true ∧ c.sp.wait = .none
     let arrived : State → Enc → Iss → State := fun s x c =>
       modTeam (releaseAt s c.g 1) c.g.team (fun t => arrive t x.a.idx c.g.index)
     Gives .barArrive .barArrive pre (fun s x c => advance (arrived s x c) c) ∧
     Gives .barSync .barSync pre (fun s x c => waitAs (arrived s x c) c (.barrier x.a.idx (barOf t x.a.idx).phase))) ∧
   (let pre : State → Enc → SIss → Prop := fun s x c =>
      (c.t.partner.isSome = true → dirtyReady s c.t.home = true) ∧
      arrivalOk (barOf c.t x.a.idx) (qOperand c.q x x.b) seqMember = true ∧ c.q.wait = .none
    let arrived : State → Enc → SIss → State := fun s x c =>
      modTeam (if c.t.partner.isSome then l1WriteBackAll s c.t.home else s) c.tid (fun t => arrive t x.a.idx seqMember)
    GivesQ .barArrive .barArrive pre (fun s x c => seqAdvance (arrived s x c) c) ∧
    GivesQ .barSync .barSync pre (fun s x c => seqWait (arrived s x c) c (.barrier x.a.idx (barOf c.t x.a.idx).phase)))) ∧
  (∀ (t : Team) (b j : Nat),
     let k := barOf t b
     let now := k.arrived ++ [j]
     let done := ∀ i, i < 33 → k.m.getLsbD i = true → i ∈ now ∨ i ∈ t.exited
     (done → (barOf (arrive t b j) b).phase = k.phase + 1 ∧ (barOf (arrive t b j) b).arrived = []) ∧
     (¬ done → (barOf (arrive t b j) b).phase = k.phase ∧ (barOf (arrive t b j) b).arrived = now) ∧
     mget (barOf (arrive t b j) b).last j = some k.phase ∧ (barOf (arrive t b j) b).m = k.m ∧
     ∀ i, i ≠ b → barOf (arrive t b j) i = barOf t i) ∧
  ((∀ (s : State) (x : Enc) (c : Iss) (t : Team), Issues s .barWait x c → teamOf s c.g = some t →
     mget (barOf t x.a.idx).last c.g.index ≠ some (barOf t x.a.idx).phase →
     ∃ u g', exec (.barWait x) s = .next u ∧ mget u.groups c.gid = some g' ∧ (∀ k, k ≠ c.gid → mget u.groups k = mget s.groups k) ∧
       u = { s with groups := u.groups, cores := u.cores, teams := u.teams } ∧ g' = { c.g with splits := g'.splits } ∧
       ∃ sp, mget g'.splits c.j = some sp ∧ sp.pc = c.sp.pc + 1 ∧ sp.wait = .none ∧ sp.mask = c.sp.mask) ∧
   ∀ (s : State) (x : Enc) (c : Iss), Issues s .syncl x c → SameInCopies c x.a → c.sp.wait = .none →
     uniOperand c.g x 0 x.a &&& ~~~ (allLanes c.g) = 0 → (∀ r, c.g.synclRound = some r → r.mask = uniOperand c.g x 0 x.a) →
     ∃ u g', exec (.syncl x) s = .next u ∧ OnlyGroup s u c g' ∧
       g' = { c.g with splits := g'.splits, synclRound := g'.synclRound, aside := g'.aside })

/-- A member that waits at a barrier goes on once the phase has completed, with an acquire (R48): BAR.SYNC, and BAR.WAIT,
which waits for the phase of the member's last arrival and then forgets it.
SYNCL (R50, R276): a split's lanes join the round of the mask, and the round that they complete lets every waiting split
go on. -/
def Obligations.BarrierAndSynclWaitsEnd : Prop :=
  ((∀ (t : Team) (b p : Nat), Gives .barSync .barSync
     (fun s _ c => teamOf s c.g = some t ∧ c.sp.wait = .barrier b p ∧ (barOf t b).phase ≠ p)
     (fun s _ c => advance (modTeam (acquireAt s c.g 1) c.g.team id) c)) ∧
   (∀ (b p : Nat), GivesQ .barSync .barSync (fun _ _ c => c.q.wait = .barrier b p ∧ (barOf c.t b).phase ≠ p)
     (fun s _ c => seqAdvance (modTeam (if c.t.partner.isSome then l1DropClean s c.t.home else s) c.tid id) c)) ∧
   (∀ (t : Team) (p : Nat), Gives .barWait .barWait
     (fun s x c => teamOf s c.g = some t ∧ mget (barOf t x.a.idx).last c.g.index = some p ∧ (barOf t x.a.idx).phase ≠ p)
     (fun s x c => advance (modTeam (acquireAt (waitAs s c (.barrier x.a.idx p)) c.g 1) c.g.team
       (waited x.a.idx c.g.index)) c)) ∧
   (∀ (t : Team) (p : Nat), Gives .barWait .barWait
     (fun s x c => teamOf s c.g = some t ∧ mget (barOf t x.a.idx).last c.g.index = some p ∧ (barOf t x.a.idx).phase = p)
     (fun s x c => waitAs s c (.barrier x.a.idx p))) ∧
   (∀ t : Team, Gives .barWait .barWait
     (fun s x c => teamOf s c.g = some t ∧ mget (barOf t x.a.idx).last c.g.index = none ∧ c.sp.wait = .none)
     (fun s _ c => advance s c)) ∧
   GivesQ .barWait .barWait (fun _ x c => mget (barOf c.t x.a.idx).last seqMember = none) (fun s _ c => seqAdvance s c) ∧
   (∀ p : Nat, GivesQ .barWait .barWait
     (fun _ x c => mget (barOf c.t x.a.idx).last seqMember = some p ∧ (barOf c.t x.a.idx).phase ≠ p)
     (fun s x c => seqAdvance (modTeam (if c.t.partner.isSome then l1DropClean (seqWait s c (.barrier x.a.idx p)) c.t.home
       else seqWait s c (.barrier x.a.idx p)) c.tid (waited x.a.idx seqMember)) c)) ∧
   (∀ p : Nat, GivesQ .barWait .barWait
     (fun _ x c => mget (barOf c.t x.a.idx).last seqMember = some p ∧ (barOf c.t x.a.idx).phase = p)
     (fun s x c => seqWait s c (.barrier x.a.idx p)))) ∧
  (let m (x : Enc) (c : Iss) : BitVec 64 := uniOperand c.g x 0 x.a
   let round (x : Enc) (c : Iss) : SynclRound := c.g.synclRound.getD { mask := m x c, arrived := 0, splits := [] }
   let pre : State → Enc → Iss → Prop := fun _ x c => SameInCopies c x.a ∧ c.sp.wait = .none ∧
     m x c &&& ~~~ (allLanes c.g) = 0 ∧ (round x c).mask = m x c
   let last : Enc → Iss → Bool := fun x c => m x c &&& c.g.live &&& ~~~ ((round x c).arrived ||| c.act) == 0
   Completes .syncl .syncl (fun s x c => pre s x c ∧ last x c = false) id
     (fun _ x c g' => g'.synclRound = some { round x c with
         arrived := (round x c).arrived ||| c.act, splits := addOnce (round x c).splits c.j } ∧
       (∃ sp, mget g'.splits c.j = some sp ∧ sp.pc = c.sp.pc ∧ sp.wait = .syncl (m x c) ∧ sp.mask = c.sp.mask) ∧
       (∀ k, k ≠ c.j → mget g'.splits k = mget c.g.splits k) ∧
       g' = { c.g with synclRound := g'.synclRound, splits := g'.splits }) ∧
   Completes .syncl .syncl (fun s x c => pre s x c ∧ last x c = true) id
     (fun _ _ c g' => g'.synclRound = none ∧
       (∃ sp, mget g'.splits c.j = some sp ∧ sp.pc = c.sp.pc + 1 ∧ sp.wait = .none ∧ sp.mask = c.sp.mask) ∧
       (∀ k w, k ≠ c.j → mget c.g.splits k = some w →
         (∀ n, w.wait = .syncl n → ∃ sp, mget g'.splits k = some sp ∧ sp.pc = w.pc + 1 ∧ sp.wait = .none ∧ sp.mask = w.mask) ∧
         ((∀ n, w.wait ≠ .syncl n) → mget g'.splits k = some w)) ∧
       g' = { c.g with synclRound := none, splits := g'.splits, aside := g'.aside }))

/-- STAGE.INIT sets up a ring that nobody waits on (R51, R277); STAGE.POST and STAGE.TAKE of a group and of a sequencer act on
a stage of the ring, a take waiting where the laps are equal, and both raise STAGE_OVERRUN beyond the ring and, for a take,
two laps behind (R51, R52). A post or a take adds its member to the lap; a lap has its quorum when NP posts, or NT takes, are
made, counting members that have exited, once acted in the ring and not in this lap (R433); it then advances modulo 4 and
starts empty, and a post lap that advances lets every waiting take go on and counts it. -/
def Obligations.StageRings : Prop :=
  (∀ t : Team, Gives .stageInit .stageInit (fun s x c => teamOf s c.g = some t ∧
      stageWaiters s c.g.team t (fun w => match w with | .stage a _ _ => a == x.a.idx | _ => false) = [])
    (fun s x c => advance (modTeam s c.g.team (fun t => { t with
      rings := mput t.rings x.a.idx { s := x.bits 0 4 + 1, np := x.bits 4 6 + 1, nt := x.bits 10 6 + 1 } })) c)) ∧
  (∀ (t : Team) (i : Nat),
    let pre : State → Enc → Iss → Prop := fun s x c => teamOf s c.g = some t ∧ SameInCopies c x.b ∧
      (uniOperand c.g x 0 x.b).toNat = i ∧ i < 16
    let inside : State → Enc → Iss → Prop := fun s x c => pre s x c ∧ i < (ringOf t x.a.idx).s
    let overrun : State → Enc → Iss → State := fun s _ c => raiseIss s c evStageOverrun c.sp.mask 0
    Gives .stagePost .stagePost (fun s x c => inside s x c ∧ releaseReady s c = true)
      (fun s x c => postStage (advance (releaseAt s c.g 1) c) c.g.team x.a.idx i c.g.index) ∧
    Gives .stagePost .stagePost (fun s x c => pre s x c ∧ (ringOf t x.a.idx).s ≤ i ∧ releaseReady s c = true) overrun ∧
    Gives .stageTake .stageTake (fun s x c => inside s x c ∧ c.sp.wait = .none ∧ lapsAhead t x.a.idx i = 1)
      (fun s x c => takeStage (advance (acquireAt s c.g 1) c) c.g.team x.a.idx i c.g.index) ∧
    Gives .stageTake .stageTake (fun s x c => inside s x c ∧ c.sp.wait = .none ∧ lapsAhead t x.a.idx i = 0)
      (fun s x c => waitAs s c (.stage x.a.idx i 0)) ∧
    Gives .stageTake .stageTake (fun s x c => pre s x c ∧ c.sp.wait = .none ∧
      ((ringOf t x.a.idx).s ≤ i ∨ 2 ≤ lapsAhead t x.a.idx i)) overrun ∧
    ∀ k n : Nat, Gives .stageTake .stageTake (fun _ _ c => c.sp.wait = .stage k i n) (fun s _ _ => s)) ∧
  (∀ i : Nat,
    let pre : State → Enc → SIss → Prop := fun _ x c => (qOperand c.q x x.b).toNat = i ∧ i < 16
    let inside : State → Enc → SIss → Prop := fun s x c => pre s x c ∧ i < (ringOf c.t x.a.idx).s
    let overrun : State → Enc → SIss → State := fun s _ c => haltSeq s c.tid evStageOverrun
    let ready : State → Enc → SIss → Prop := fun s _ c => c.t.partner.isSome = true → dirtyReady s c.t.home = true
    GivesQ .stagePost .stagePost (fun s x c => inside s x c ∧ ready s x c) (fun s x c =>
      postStage (seqAdvance (if c.t.partner.isSome then l1WriteBackAll s c.t.home else s) c) c.tid x.a.idx i seqMember) ∧
    GivesQ .stagePost .stagePost (fun s x c => pre s x c ∧ ready s x c ∧ (ringOf c.t x.a.idx).s ≤ i) overrun ∧
    GivesQ .stageTake .stageTake (fun s x c => inside s x c ∧ c.q.wait = .none ∧ lapsAhead c.t x.a.idx i = 1)
      (fun s x c => takeStage (seqAdvance (if c.t.partner.isSome then l1DropClean s c.t.home else s) c) c.tid x.a.idx i
        seqMember) ∧
    GivesQ .stageTake .stageTake (fun s x c => inside s x c ∧ c.q.wait = .none ∧ lapsAhead c.t x.a.idx i = 0)
      (fun s x c => seqWait s c (.stage x.a.idx i 0)) ∧
    GivesQ .stageTake .stageTake (fun s x c => pre s x c ∧ c.q.wait = .none ∧
      ((ringOf c.t x.a.idx).s ≤ i ∨ 2 ≤ lapsAhead c.t x.a.idx i)) overrun ∧
    ∀ k n : Nat, GivesQ .stageTake .stageTake (fun _ _ c => c.q.wait = .stage k i n) (fun s _ _ => s)) ∧
  (∀ (s : State) (tid k i m : Nat),
    let put (f : Ring → Stage → Ring) : State := modTeam s tid (fun t =>
      { t with rings := mput t.rings k (f (ringOf t k) (stageOf (ringOf t k) i)) })
    postStage s tid k i m = settleStage (put (fun r a => { r with
      posters := addOnce r.posters m, stages := mput r.stages i { a with posts := a.posts ++ [m] } })) tid k i ∧
    takeStage s tid k i m = settleStage (put (fun r a => { r with
      takers := addOnce r.takers m, stages := mput r.stages i { a with takes := a.takes ++ [m] } })) tid k i) ∧
  ∀ (s : State) (tid k i : Nat) (t : Team), mget s.teams tid = some t →
    let r := ringOf t k
    let a := stageOf r i
    let absent (actors done : List Nat) : Nat := (actors.filter (fun j => t.exited.contains j && !done.contains j)).length
    let posted : Prop := a.posts ≠ [] ∧ r.np ≤ a.posts.length + absent r.posters a.posts
    let waiting := stageWaiters s tid t (waitsStage k i)
    let u := settleStage s tid k i
    ∃ t', mget u.teams tid = some t' ∧
      (let r' := ringOf t' k
       let a' := stageOf r' i
       let laps (takes takers : List Nat) : Prop :=
         if takes ≠ [] ∧ r.nt ≤ takes.length + absent takers takes then a'.take = (a.take + 1) % 4 ∧ a'.takes = []
         else a'.take = a.take ∧ a'.takes = takes
       r'.s = r.s ∧ r'.np = r.np ∧ r'.nt = r.nt ∧ r'.posters = r.posters ∧
       (posted → a'.post = (a.post + 1) % 4 ∧ a'.posts = [] ∧ r'.takers = waiting.foldl addOnce r.takers ∧
         laps (a.takes ++ waiting) (waiting.foldl addOnce r.takers) ∧
         (∀ gid g, mget s.groups gid = some g → g.team = tid → ∃ g', mget u.groups gid = some g' ∧
           ∀ j sp, mget g.splits j = some sp → mget g'.splits j =
             some (if waitsStage k i sp.wait then sp.onward s.clk (sp.pc + 1) else sp)) ∧
         ∀ q, t.seq = some q → t'.seq = some (if waitsStage k i q.wait then
           q.onward s.clk (q.pc + 1) (q.issued.any (fun i => i.2.yld)) else q)) ∧
       (¬ posted → a'.post = a.post ∧ a'.posts = a.posts ∧ r'.takers = r.takers ∧ laps a.takes r.takers ∧
         u.groups = s.groups ∧ t'.seq = t.seq) ∧
       (∀ j, j ≠ i → stageOf r' j = stageOf r j) ∧ ∀ j, j ≠ k → ringOf t' j = ringOf t j)

/-- REGION.OPEN of a block whose header opens regions, with a budget that its launch allows, asks for its lines and waits
(R54, R281); REGION_BUDGET_GRANT reserves them where the core's pool has room (R54).
A granted REGION.OPEN whose saved registers are full and whose record can be written stores the record at PRIV + 0x400,
takes the snapshot and goes on in an OPEN region (R54, R55, R328); one whose saved registers hold damage raises MACHINE_CHECK
(R322). That budgets asked for count beside those granted is log entry 53. -/
def Obligations.RegionsOpen : Prop :=
  ((∀ t : Team, Gives .regionOpen .regionOpen (fun s x c =>
       let h := issHeader s c
       let b := (uniOperand c.g x 0 x.a).toNat
       c.g.region.st = .none ∧ teamOf s c.g = some t ∧ SameInCopies c x.a ∧ hdrRgn h = true ∧ 0 < b ∧
       b ≤ t.launch.rgnMax ∧ teamAsked s c.g.team c.g.core + b ≤ t.launch.rgnCore ∧
       0x400 + recordSize c.g.width (hdrVlive h) (hdrSlive h) + 1024 ≤ c.g.privSize)
     (fun s x c => modCore (onGroup (waitAs s c .region) c (fun g => { g with region :=
         { st := .waiting, budget := (uniOperand c.g x 0 x.a).toNat, openPc := c.sp.pc } }))
       c.g.core (fun k => { k with
         rgnReqs := k.rgnReqs ++ [{ gid := c.gid, budget := (uniOperand c.g x 0 x.a).toNat }] }))) ∧
   ∀ (core : Nat) (r : RgnReq) (rest : List RgnReq) (g : Group), StepGives (.regionBudgetGrant core)
     (fun s => (coreOf s core).rgnReqs = r :: rest ∧ mget s.groups r.gid = some g ∧ g.region.st = .waiting ∧
       reservedOn s core + r.budget ≤ regionPool)
     (fun s => modCore (modGroup s r.gid (fun g => { g with region := { g.region with granted := true } })) core
       (fun c => { c with rgnReqs := rest }))) ∧
  (let nv (s : State) (c : Iss) : Nat := hdrVlive (issHeader s c)
   let ns (s : State) (c : Iss) : Nat := hdrSlive (issHeader s c)
   let accs (s : State) (c : Iss) : List LaneAcc := storeWords (c.g.priv + 0x400)
     (recordBytes c.g c.sp.pc (nv s c) (ns s c) c.g.region.budget) (recordSize c.g.width (nv s c) (ns s c) / 8)
   Gives .regionOpen .regionOpen (fun s _ c => c.g.region.st = .waiting ∧ c.g.region.granted = true ∧
       (∀ r, r < nv s c → isEmpty c.g r = false) ∧ savedHit c.g (nv s c) (ns s c) = none ∧
       orderedNow s c.gid c.g = true ∧ memReady s c.g.part = true ∧
       storeFails s c.g .store (accs s c) = [])
     (fun s _ c =>
       let e : StoreEntry :=
         { id := s.nextOp, pc := c.sp.pc, split := c.j, kind := .store, accs := accs s c, order := 0, scope := 0 }
       let s2 := storeAccs { s with nextOp := s.nextOp + 1 } c.gid c.g e (accs s c)
       advance (selectRegion (onGroup s2 c (fun g => { g with region := { g.region with
         st := .opened, snap := some (takeSnap g c.j (nv s c) (ns s c) c.sp), mark := s2.nextOp } })) c.gid) c) ∧
   ∀ (r : Nat) (lanes : BitVec 64), Gives .regionOpen .regionOpen (fun s _ c => c.g.region.st = .waiting ∧
       c.g.region.granted = true ∧ savedHit c.g (nv s c) (ns s c) = some (r, lanes))
     (fun s _ c => raiseIss (modGroup s c.gid (fun g => damage g r)) c evMachineCheck lanes (damageInfo r)))

/-- REGION.CLOSE makes an OPEN region COMMITTING with its scope (R57, R281); REGION_COMMIT then enters the held lines in the
store order as one batch, releases at that scope, and the group goes on behind the close with no region (R57, R118).
REGION.ABORT rolls the region back and goes to its target, a header that opens no region (R57, R282); REGION.INFO reads
the free lines of the core's pool and those the team holds (R282).
Rolling a region back (R55, R59) discards its held stores and restores exactly the saved registers, predicates, controls,
flags and split; registers beyond the snapshot keep what they hold. That the batch enters in one step and that the split's
reconvergence stack is restored with it is log entry 53. -/
def Obligations.RegionsEnd : Prop :=
  (Gives .regionClose .regionClose (fun s _ c => c.g.region.st = .opened ∧ hdrRgn (issHeader s c) = true ∧
       closeReady s c (hdrVlive (issHeader s c)) = true ∧
       liveAgree c.g (hdrVlive (issHeader s c)) (hdrSlive (issHeader s c)) = true ∧ auditJob s c.g = none)
     (fun s x c => onGroup (waitAs s c .region) c (fun g => { g with
       region := { g.region with st := .committing, scope := x.scope, closePc := c.sp.pc } })) ∧
   ∀ (gid : Nat) (g : Group),
     let scope (s : State) : Nat := match g.fenceRel with | some f => joinScope s g g.region.scope f | none => g.region.scope
     StepGives (.regionCommit gid)
     (fun s => mget s.groups gid = some g ∧ g.region.st = .committing ∧ g.job = none ∧ g.region.audited = false ∧
       releaseWaits s g (scope s) = false)
     (fun s => modGroup (journalCommit (enterBatch (releaseAt s g (scope s)) g g.region.held)
         g g.region.openPc (g.region.held.map (·.1))) gid (fun h => { h with
       region := {}
       splits := h.splits.map (fun e => (e.1, e.2.onward s.clk (h.region.closePc + 1))) }))) ∧
  ((∀ t : Pc, Gives .regionAbort .regionAbort
     (fun s _ c => c.g.region.st = .opened ∧ abortTarget s c = some t ∧ c.g.job = none)
     (fun s x c => onGroup (rollback s c.gid) c (fun g => { g with
       splits := g.splits.map (fun e => (e.1, Split.onward { e.2 with yld := x.yld } s.clk t)) }))) ∧
   WritesScalar .regionInfo .regionInfo Always (fun s _ c _ => BitVec.ofNat 64
     ((4096 - reservedOn s c.g.core) % 2 ^ 13 + (s.groups.foldl (fun n e =>
       if e.2.team = c.g.team && e.2.core = c.g.core && holdsBudget e.2 then n + e.2.region.budget else n) 0) % 2 ^ 13 * 2 ^ 16))) ∧
  (∀ (g : Group) (n : Snapshot), g.region.st = .opened → g.region.snap = some n →
     storeWf n.vregs none = true → (∀ e ∈ n.vregs, e.1 < 64 * n.nv) → storeWf n.sregs none = true →
     (∀ e ∈ n.sregs, e.1 % 64 < n.ns) →
     let h := rollbackGroup g
     h.region = {} ∧ (∀ r l, r < n.nv → l < 64 → vget h r l = sget n.vregs (64 * r + l)) ∧
     (∀ r l, n.nv ≤ r → l < 64 → vget h r l = vget g r l) ∧
     (∀ k j, j < n.ns → j < 64 → srget h k j = sget n.sregs (64 * k + j)) ∧
     (∀ k j, n.ns ≤ j → j < 64 → srget h k j = srget g k j) ∧
     h.preds = n.preds ∧ h.fpctl = n.fpctl ∧ h.fpflags = n.fpflags ∧ h.splits = [(n.entry, n.split)] ∧ h.ovf = [] ∧
     (∀ e ∈ h.storeQ, e.held = false) ∧ h.live = g.live)

/-- SUSPEND of a quiet group that may suspend writes its cloak with STATE 0 as a release at device scope and sends the
request for the STATE word; performed there it makes the cloak SUSPENDED and the group leaves its core (R283 to R286, R290).
That the resume PC is the next word and that the cloak is stored as 8-byte words is log entry 23.
RESUME, CODROP and COINFO of an aligned cloak that they may reach send one request to the home slice of its STATE word and
wait for the reply, or go to a peer's memory over the link (R287, R289, R290); where the request stands is log entry 41.
RESUME performed reads the header as an acquire: a wrong magic, version or STATE 0 raises CLOAK_VERSION, another owner, no
grant or another place CLOAK_RIGHTS, any STATE but SUSPENDED DOUBLE_RESUME, and a SUSPENDED cloak becomes RESUMING (R287).
The split then reads the body: a root that is another's gives 1 and makes the cloak SUSPENDED again; otherwise, once the
group finds room (R288), a team of its own, the cloak CONSUMED, and 0 in sd.
CODROP performed makes a SUSPENDED cloak of the partition DROPPED, releases its pin and writes 0 to sd, and 1 for any other
STATE (R289); COINFO reads a cloak's STATE and PROGRESS words at its home, of the partition's own cloaks (R289). -/
def Obligations.ContinuationsSuspendAndResume : Prop :=
  (let next (c : Iss) : Group := { c.g with splits := [(c.j, { c.sp with pc := c.sp.pc + 1, wait := .none })] }
   let bytes (s : State) (x : Enc) (c : Iss) : List (BitVec 8) :=
     cloakBytes (next c) (teamIds s c.g).1 (teamIds s c.g).2 (rootId s c.g) (cloakLive s (next c)).1 (cloakLive s (next c)).2
       (uniOperand c.g x 0 x.a) (uniOperand c.g x 0 x.b).toNat false 0
   let accs (s : State) (x : Enc) (c : Iss) : List LaneAcc :=
     storeWords (uniOperand c.g x 0 x.a) (bytes s x c) ((bytes s x c).length / 8)
   let stored (s : State) (x : Enc) (c : Iss) : State :=
     let e : StoreEntry :=
       { id := s.nextOp, pc := c.sp.pc, split := c.j, kind := .store, accs := accs s x c, order := 0, scope := 0 }
     releaseAt (storeAccs s c.gid c.g e (accs s x c)) c.g 4
   ∀ q : SliceReq, Gives .suspend .suspend (fun s x c => SameInCopies c x.a ∧ SameInCopies c x.b ∧
       (uniOperand c.g x 0 x.b).toNat < 8 ∧ c.sp.wait ≠ .reply ∧
       c.g.aside = none ∧ slotsClaimed s c.g = false ∧ (c.g.gen ≠ 0 → x.bit 0 = true) ∧ quiet s c.gid c.g = true ∧
       memReady s c.g.part = true ∧ (uniOperand c.g x 0 x.a).toNat % 256 = 0 ∧
       savedHit (next c) (cloakLive s (next c)).1 (cloakLive s (next c)).2 = none ∧
       savedAgree (next c) (cloakLive s (next c)).1 (cloakLive s (next c)).2 = true ∧
       storeFails s c.g .store (accs s x c) = [] ∧
       reachReq s c.g (blankReq s c s.nextOp (uniOperand c.g x 0 x.a) .suspend) false 64 .rw true = .ok q)
     (fun s x c =>
       let s2 := waitAs { stored s x c with nextOp := s.nextOp + 1 } c .reply
       if isRemote q.pa then performSuspend s2 q else sendReq s2 c.g q)) ∧
  (∀ q : SliceReq,
     let sends (i : Enc → Instr) (op : Op) (kind : Enc → Iss → ReqKind) (n span align : Nat) (need : Need)
         (there : State → Enc → State) : Prop :=
       Gives i op (fun s x c =>
           let a := uniOperand c.g x 0 x.a
           SameInCopies c x.a ∧ (op = .resume → SameInCopies c x.b) ∧ c.sp.wait ≠ .reply ∧ homeNow s c = true ∧
           reachReq s c.g (blankReq s c s.nextOp a (kind x c)) (a.toNat % align ≠ 0) n need true = .ok q ∧
           (isRemote q.pa = true → linkHolds s q.pa span = false))
         (fun s x c =>
           let s1 := waitCaught { s with nextOp := s.nextOp + 1 } c
           if isRemote q.pa then there s1 x else sendReq s1 c.g q)
     sends .resume .resume (fun x c => .resume (uniOperand c.g x 0 x.b) (x.b == .sr 0x3F) x.d.idx) 256 256 64 .rw
       (fun s x => performResume s q x.d.idx) ∧
     sends .codrop .codrop (fun x _ => .codrop x.d.idx) 64 64 8 .rw (fun s x => performCodrop s q x.d.idx) ∧
     sends .coinfo .coinfo (fun x _ => .coinfo x.d.idx) 24 64 8 .r (fun s x => performCoinfo s q x.d.idx)) ∧
  (∀ (slice : Nat) (r : SliceReq) (g : Group),
     let taken (s : State) : State := { s with sliceQ := s.sliceQ.filter (fun q => !(q.gid == r.gid && q.op == r.op)) }
     let turn (s : State) : Prop := nextReq s slice = some r ∧ mget s.groups r.gid = some g ∧
       pathReady s g.part (r.pa / 128) = true
     StepGives (.l2SliceRequest slice) (fun s => turn s ∧ r.kind = .suspend) (fun s => performSuspend (taken s) r) ∧
     (∀ b zero d, StepGives (.l2SliceRequest slice) (fun s => turn s ∧ r.kind = .resume b zero d)
       (fun s => performResume (taken s) r d)) ∧
     (∀ d, StepGives (.l2SliceRequest slice) (fun s => turn s ∧ r.kind = .codrop d) (fun s => performCodrop (taken s) r d)) ∧
     ∀ d, StepGives (.l2SliceRequest slice) (fun s => turn s ∧ r.kind = .coinfo d) (fun s => performCoinfo (taken s) r d)) ∧
  (∀ (s : State) (r : SliceReq) (g : Group) (d : Nat), mget s.groups r.gid = some g →
     let q := accessorOf g
     ((∀ m ∈ g.mons, m.2.fired = false) →
       performSuspend s r = leaveCore (retagMons (setState (yieldParts s q g.core r.va 1) g r 1) g r.pa) r.gid) ∧
     (let u := engineTouch (acquireAt (yieldParts s q g.core r.va 4) g 4) q r.va 256 (chainOf s g)
      ∀ h, readParts u q r.va 4 = .ok h →
        let version : Prop := fieldAt h 0 4 = 0xC10A0001 ∧ fieldAt h 12 1 = 1 ∧ fieldAt h 8 4 ≠ 0
        let rights : Prop := cloakOwner h = (g.part, g.ctx) ∧ fieldAt h 13 1 % 2 = 1 ∧
          (fieldAt h 24 8 = r.va.toNat ∨ fieldAt h 13 1 / 2 % 2 = 1)
        (¬ version → performResume s r d = stateRaise u r evCloakVersion) ∧
        (version → ¬ rights → performResume s r d = stateRaise u r evCloakRights) ∧
        (version → rights → fieldAt h 8 4 ≠ 1 → performResume s r d = stateRaise u r evDoubleResume) ∧
        (version → rights → fieldAt h 8 4 = 1 → performResume s r d =
          modGroup (setState u g r 2) r.gid (fun g => modIssued g r.op r.split (fun sp =>
            { sp with caught := sp.caught.map (fun m => { m with resuming := true }) })))) ∧
     (let u := engineTouch (yieldParts s q g.core r.va 1) q r.va 64 (chainOf s g)
      ∀ h, readParts u q r.va 1 = .ok h →
        let drop (t : State) (desc : Nat) : State :=
          uniformDone (dropCloakPin (dropCloakMons (setState t g r 4) r.pa) g h desc) r [(d, 0)]
        let t := yieldParts u q g.core (r.va + 256) 1
        ((cloakOwner h).1 ≠ g.part → performCodrop s r d = stateRaise u r evCloakRights) ∧
        ((cloakOwner h).1 = g.part → fieldAt h 8 4 ≠ 1 → performCodrop s r d = uniformDone u r [(d, 1)]) ∧
        ((cloakOwner h).1 = g.part → fieldAt h 8 4 = 1 → fieldAt h 14 1 / 16 % 2 = 0 → performCodrop s r d = drop u 0) ∧
        ∀ desc, (cloakOwner h).1 = g.part → fieldAt h 8 4 = 1 → fieldAt h 14 1 / 16 % 2 = 1 →
          engGet t q (r.va + 312) 8 = .ok desc → performCodrop s r d = drop t (leNat desc)) ∧
     (let u := engineTouch (yieldParts s q g.core r.va 1) q r.va 64 (chainOf s g)
      ∀ bs, engineRead u q (r.va + 8) 16 .r = .ok (bs, false) → performCoinfo s r d =
        if fieldAt bs 8 1 % 8 ≠ g.part then stateRaise u r evCloakRights
        else uniformDone u r [(d, BitVec.ofNat 64 (fieldAt bs 0 8 % 2 ^ 43))])) ∧
  (∀ (s : State) (x : Enc) (gid j : Nat) (g : Group) (sp : Split) (m : Caught) (r : SliceReq),
     s.mantle.powered = true → s.turn = .split gid j → mget s.groups gid = some g → mget g.splits j = some sp →
     sp.caught = some m → m.resuming = true →
     let c : Iss :=
       { gid, g := { g with sregs := m.sregs }, j, sp, op := .resume, x
         act := if uniform .resume x then sp.mask else activeOf g x sp.mask
         all := if uniform .resume x then bothCopies g sp.mask else activeOf g x (bothCopies g sp.mask) }
     let b := uniOperand c.g x 0 x.b
     let zero := x.b == .sr 0x3F
     SameInCopies c x.a → SameInCopies c x.b →
     reachReq s c.g (blankReq s c s.nextOp (uniOperand c.g x 0 x.a) (.resume b zero x.d.idx)) false 256 .rw true = .ok r →
     exec (.resume x) s = .next (resumeBody (if sp.wait = .reply then s else waitAs s c .reply) r b zero x.d.idx)) ∧
  ∀ (s : State) (r : SliceReq) (g : Group) (h : List (BitVec 8)) (b : BitVec 64) (zero : Bool) (d : Nat),
    mget s.groups r.gid = some g → readParts s (accessorOf g) r.va 4 = .ok h →
    let q := accessorOf g
    let same : Prop := (rootOv s g.core g.part g.ctx false).map (·.id) = some (fieldAt h 60 2 % 2 ^ 12)
    let u := yieldParts s q g.core r.va (headerParts h)
    (¬ same → s.sliceQ.any (fun k => isState k && k.pa == r.pa) = false →
      resumeBody s r b zero d = uniformDone (setState s g r 1) r [(d, 1)]) ∧
    ∀ bs n, same → readCloak u q r.va (headerParts h) (inImages h) (acceptOf s g) = .ok (bs, n) →
      (resumeSpot u g bs = none → resumeBody s r b zero d = s) ∧
      (let w := countPoison (engineTouch u q r.va (64 * headerParts h) (chainOf s g)) g n
       (resumeSpot u g bs).isSome = true → resumeBody s r b zero d = finishResume w r g bs b zero d) ∧
      ∀ (w : State) (room : Spot), resumeSpot w g bs = some room → finishResume w r g bs b zero d =
        uniformDone (dropCloakMons (setState
          (releaseAt (placeResumed { w with draws := w.draws + 1 } g bs room r.pa b zero) g 4) g r 3) r.pa) r [(d, 0)]

/-- TKDONE of a task of a seeded graph (R61, R278): a release at device scope, STATE DONE in the record, the task done in the
graphs that were seeded from that table in the group's context (log entry 22), and one decrement sent for each successor.
TKADD sends an increment of n to a task's counter (R279); TKPEEK reads bytes 23:16 of a record at its home slice into sd
(R279).
TASK_DECREMENT (R62): the first decrement in order of arrival takes 1 from its task's counter, and the task whose counter
reaches 0 is released: STATE READY, its time stamped, in the ready queue; an increment adds to the counter of a WAITING
task. The task engine waits for its turn at the slices and while a record of its own waits (R120, R421). -/
def Obligations.TasksCountDown : Prop :=
  (Gives .tkdone .tkdone (fun s x c =>
       let table := uniOperand c.g x 0 x.a
       let b := (uniOperand c.g x 0 x.b).toNat
       taskDiffers c = false ∧ releaseReady s c = true ∧ memReady s c.g.part = true ∧ b < tasksAt s c.g.part c.g.ctx table ∧
       (taskRead (releaseAt s c.g 4) c.g.part c.g.ctx table b 0 64).isSome = true)
     (fun s x c =>
       let table := uniOperand c.g x 0 x.a
       let b := (uniOperand c.g x 0 x.b).toNat
       let s2 := taskWrite (taskTouch (releaseAt s c.g 4) c.g.part c.g.ctx table b (chainOf s c.g)) c.g.part c.g.ctx table b
         20 4 3 (chainOf s c.g)
       let s3 := modPart s2 c.g.part (fun q => { q with graphs := q.graphs.map (fun g =>
         if g.table = table && g.ctx = c.g.ctx && b < g.n then { g with done := addOnce g.done b } else g) })
       advance (settleGraphs (sendDecs s3 c table b (tasksAt s c.g.part c.g.ctx table)) c.g.part) c)) ∧
  (Gives .tkadd .tkadd (fun _ x c => taskDiffers c = false ∧ (uniOperand c.g x 0 x.c).toNat % 2 ^ 16 ≠ 0)
     (fun s x c => advance (sendDec s c (uniOperand c.g x 0 x.a) (uniOperand c.g x 0 x.b).toNat
       (uniOperand c.g x 0 x.b).toNat ((uniOperand c.g x 0 x.c).toNat % 2 ^ 16)) c) ∧
   ∀ (s1 : State) (v : BitVec 64) (pt : Bool), Gives .tkpeek .tkpeek (fun s x c =>
       taskDiffers c = false ∧ homeNow s c = true ∧
       readAtHome s c (taskField (uniOperand c.g x 0 x.a) (uniOperand c.g x 0 x.b).toNat 16) .r = (.ok (v, false, pt), s1))
     (fun _ x c => advance (onGroup s1 c (putScalar · x.d.idx (fun _ => v))) c)) ∧
  (∀ (p count : Nat) (d : TaskDec) (ds : List TaskDec),
     let pre : State → Prop := fun s => (partOf s p).decs = d :: ds ∧ engineTurn s p 7 = true ∧
       engineRecordWaits s p = false ∧ taskRead s p d.ctx d.table d.index 16 2 = some count
     let taken : State → State := fun s =>
       taskTouch (modPart s p (fun q => { q with decs := ds })) p d.ctx d.table d.index d.chain
     StepGives (.taskDecrement p)
       (fun s => pre s ∧ d.add = 0 ∧ (taskRead s p d.ctx d.table d.index 20 4).isSome = true ∧ 1 < count)
       (fun s => taskWrite (taken s) p d.ctx d.table d.index 16 2 (count - 1) d.chain) ∧
     StepGives (.taskDecrement p)
       (fun s => pre s ∧ d.add = 0 ∧ (taskRead s p d.ctx d.table d.index 20 4).isSome = true ∧ count = 1)
       (fun s => releaseTask (taskWrite (taken s) p d.ctx d.table d.index 16 2 0 d.chain) p d.ctx d.table d.index d.chain) ∧
     StepGives (.taskDecrement p)
       (fun s => pre s ∧ d.add ≠ 0 ∧ taskRead s p d.ctx d.table d.index 20 4 = some 0 ∧
         d.index < tasksAt s p d.ctx d.table ∧ tasksAt (taken s) p d.ctx d.table = tasksAt s p d.ctx d.table ∧
         count + d.add ≤ 0xFFFF)
       (fun s => taskWrite (taken s) p d.ctx d.table d.index 16 2 (count + d.add) d.chain))

/-- TASK_DISPATCH launches the head task of the ready queue by its image, with the task's ARGS, once the front-end is ready and
the task before it is placed (R63, R64): its record says RUNNING and the launch, in the queue that carried the task and at
its priority, awaits placement. TASKS_PACKET at the head of
a queue whose turn it is seeds the graph of its table (R61, R67).
LAUNCH of a packet that fits its queue (R280): a release at device scope, the packet in the ring, the tail 128 further, and
0 in sd; 2 in sd where the queue is stopped, tested first (log entry 20), and 1 where the packet does not fit. -/
def Obligations.TasksAndLaunchesAreSent : Prop :=
  ((let kernel (s : State) (p : Nat) (t : ReadyTask) : BitVec 64 :=
      BitVec.ofNat 64 ((taskRead s p t.ctx t.table t.index 0 8).getD 0)
    let args (s : State) (p : Nat) (t : ReadyTask) : BitVec 64 :=
      BitVec.ofNat 64 ((taskRead s p t.ctx t.table t.index 8 8).getD 0)
    let image (s : State) (p : Nat) (t : ReadyTask) : Option Launch :=
      match engineRead s (taskAcc p t.ctx) (kernel s p t) 128 .r with
      | .ok (bs, false) => parseLaunch bs
      | _ => none
    let touched (s : State) (p : Nat) (t : ReadyTask) : State :=
      engineTouch (taskTouch s p t.ctx t.table t.index) (taskAcc p t.ctx) (kernel s p t) 128 0
    ∀ (p : Nat) (t : ReadyTask) (l : Launch), StepGives (.taskDispatch p)
      (fun s => (partOf s p).readyQ.head? = some t ∧ t.faulted = false ∧ (partOf s p).state = 0 ∧ frontReady s = true ∧
        engineRecordWaits s p = false ∧ engineTurn s p 7 = true ∧
        (∀ l ∈ (partOf s p).launches, l.task.isSome = true → l.saved.isSome = true ∨ l.total ≤ l.next) ∧
        (taskRead s p t.ctx t.table t.index 0 8).isSome = true ∧ (taskRead s p t.ctx t.table t.index 8 8).isSome = true ∧
        image s p t = some l ∧
        launchAllowed (touched s p t) p t.ctx { l with args := args s p t } = true)
      (fun s =>
        (admitLaunch (taskWrite (popReady (touched s p t) p) p t.ctx t.table t.index 20 4 2) p t.ctx t.qprio t.queue
          { l with args := args s p t } (some (t.table, t.index))).2)) ∧
   ∀ (p q n : Nat) (table : BitVec 64) (bs : List (BitVec 8)), StepGives (.tasksPacket p q)
     (fun s => let u := queueOf s p q
       queueIdle s p u = true ∧ queueTurn s p q = true ∧ headPacket s p u = .packet (.tasks n table) bs ∧
       (∃ h b, readRing s p u 1 u.head.toNat = .ok (h, b) ∧ fieldAt h 0 1 = 5) ∧ tableReached s p (queueCtx u) table n = true)
     (fun s => let u := queueOf s p q
       seedGraph (passPacket (touchPacket (serveQueue s p q) p u bs.length) p q bs) p q (queueCtx u) (queuePrio u) table n)) ∧
  (let u (s : State) (x : Enc) (c : Iss) : Queue := queueOf s c.g.part (uniOperand c.g x 0 x.b).toNat
   let read (s : State) (x : Enc) (c : Iss) : Except Fail Found × State :=
     readAcc s c.gid 0 0 0 (accAt 0 (uniOperand c.g x 0 x.a).toInt 128 16 0)
   let tail (s : State) (x : Enc) (c : Iss) : Option (BitVec 64) :=
     match engineRead (read s x c).2 (queueAcc c.g.part (u s x c)) (u s x c).w2 8 .r with
     | .ok b => some (BitVec.ofNat 64 (leNat b.1))
     | .error _ => none
   let touched (s : State) (x : Enc) (c : Iss) : State :=
     engineTouch (read s x c).2 (queueAcc c.g.part (u s x c)) (u s x c).w2 8 (chainOf s c.g)
   let appended (s : State) (x : Enc) (c : Iss) : Option State :=
     match (read s x c).1, tail s x c with
     | .ok f, some t =>
       match writeRing c.g.part (u s x c) (chainOf s c.g) f.bytes f.bad t.toNat 8 (releaseAt (touched s x c) c.g 4) with
       | some s2 =>
         match engineWrite s2 (queueAcc c.g.part (u s x c)) (u s x c).w2 (leBytes 8 (t + 128).toNat)
           (chainOf s c.g) .w with
         | .ok s3 => some s3
         | .error _ => none
       | none => none
     | _, _ => none
   Gives .launch .launch (fun s x c => taskDiffers c = false ∧ (uniOperand c.g x 0 x.b).toNat < 64 ∧ releaseReady s c = true ∧
       memReady s c.g.part = true ∧ (tail s x c).map (launchStatus (u s x c)) = some 0 ∧ (appended s x c).isSome = true)
     (fun s x c => advance (onGroup ((appended s x c).getD s) c (putScalar · x.d.idx (fun _ => 0))) c) ∧
   ∀ st : Nat, st ≠ 0 → Gives .launch .launch (fun s x c => taskDiffers c = false ∧ (uniOperand c.g x 0 x.b).toNat < 64 ∧
       releaseReady s c = true ∧ memReady s c.g.part = true ∧ (read s x c).1.isOk = true ∧
       (tail s x c).map (launchStatus (u s x c)) = some st)
     (fun s x c => advance (onGroup (touched s x c) c (putScalar · x.d.idx (fun _ => BitVec.ofNat 64 st))) c) ∧
   ∀ (v : Queue) (t : BitVec 64), launchStatus v t =
     if v.stop = 1 then 2 else if queueSize v < (t - v.head).toNat + 128 then 1 else 0)

/-! ### Memory instructions (spec/07, spec/13) -/

/-- LD, LDB and LDS enter flight (R153, R224, R226, R227): the destination registers go empty, the instruction's arrival
counter rises by 1, the accesses of all lanes wait in a producer with the instruction's order and scope, and the split goes
on. No register, no other group and no byte of memory changes; reads that go to a peer are sent to the link in order, an
aligned access as one read of its bytes, any other byte by byte (R129, R398), and nothing else is sent. -/
def Obligations.LoadsEnterFlight : Prop :=
  (let enters (i : Enc → Instr) (op : Op) (scratch signed : Enc → Bool) (free : Enc → Iss → Bool)
      (accs : Enc → Iss → List LaneAcc) (n : Enc → Nat) : Prop :=
    ∀ s x c, Issues s op x c → free x c = true → kget c.g x.kf < 255 →
      ∃ t g' p, exec (i x) s = .next t ∧ mget t.groups c.gid = some g' ∧
        (∀ k, k ≠ c.gid → mget t.groups k = mget s.groups k) ∧
        t = { s with groups := t.groups, ual := t.ual, nextOp := t.nextOp } ∧
        (let sent := if scratch x then { s with nextOp := s.nextOp + 1 }
           else (primAccs c.g (accs x c)).foldl (fun st a => sendReads st c s.nextOp a) { s with nextOp := s.nextOp + 1 }
         t.ual = sent.ual ∧ t.nextOp = sent.nextOp) ∧ AtPc c g' (c.sp.pc + 1) ∧
        g' = { c.g with prods := c.g.prods ++ [p], empty := g'.empty, counters := g'.counters, splits := g'.splits } ∧
        p.kind = (if scratch x then .loadS (signed x) (accs x c) else .load (signed x) (accs x c)) ∧ p.id = s.nextOp ∧
        p.d = x.d.idx ∧ p.nregs = n x ∧ p.order = x.order ∧ p.scope = x.scope ∧ p.counter = some x.kf ∧
        (∀ r, isEmpty g' r = (isEmpty c.g r || (x.d.idx ≤ r && r < x.d.idx + n x))) ∧
        (∀ k, kget g' k = if k = x.kf then kget c.g k + 1 else kget c.g k)
  enters .ld .ld (fun _ => false) (fun x => x.ty == .i32) (fun _ c => c.g.replayG.isNone)
    (fun x c => laneAccs c .ix x.simm x.bytes 1 x.d.idx c.all) (·.memRegs) ∧
  enters .ldb .ldb (fun _ => false) (fun _ => false)
    (fun x c => c.g.replayG.isNone && (blockAccs c x.d.idx c.all).all (fun a => !a.bad))
    (fun x c => blockAccs c x.d.idx c.all) (·.nb) ∧
  enters .lds .lds (fun _ => true) (fun x => x.ty == .i32) (fun _ c => c.g.replayS.isNone)
    (fun x c => scratchAccs c x.bytes x.d.idx c.all) (·.memRegs)) ∧
  ∀ (s : State) (c : Iss) (op : Nat) (a : LaneAcc),
    let request (id : Nat) (va : BitVec 64) (pa n : Nat) : UalReq :=
      { id, port := ualPort pa, gid := c.gid, pc := c.sp.pc, va, pa, kind := 0, op, split := c.j, lane := a.lane, size := n
        ctx := c.g.ctx, part := c.g.part, serial := c.g.serial }
    (∀ f, accRuns s (accessorOf c.g) a .r = .error f → sendReads s c op a = s) ∧
    (∀ runs, accRuns s (accessorOf c.g) a .r = .ok runs → (∀ x ∈ runs, isRemote x.1.pa = false) →
      sendReads s c op a = s) ∧
    ∀ ph n, accRuns s (accessorOf c.g) a .r = .ok [(ph, n)] → isRemote ph.pa = true →
      (alignedAcc a = true → sendReads s c op a =
        { s with ual := s.ual ++ [request s.nextOp a.addr ph.pa n], nextOp := s.nextOp + 1 }) ∧
      (alignedAcc a = false → sendReads s c op a =
        { s with ual := s.ual ++ (List.range n).map (fun i =>
                   request (s.nextOp + i) (a.addr + BitVec.ofNat 64 i) (ph.pa + i) 1)
                 nextOp := s.nextOp + n })

/-- ST and STB outside a region, and the cache operations, enter the group's store queue in program order, where the copies of
a lined group agree (R123, R225, R226, R244, R246); the split goes on and no byte of memory changes.
ST and STB in an open region (R56, R117, R245): where they may be held and the budget has room for their lines, the region
holds their bytes over what it held of each line, the split goes on and no byte of memory changes; where the budget has no
room, REGION_BUDGET, and where a line may not be held, REGION_ILLEGAL, both with every held store discarded. -/
def Obligations.StoresEnterQueue : Prop :=
  let fresh1 : State → State := fun s => { s with nextOp := s.nextOp + 1 }
  let enters (i : Enc → Instr) (op : Op) (accs : Enc → Iss → List LaneAcc) (e : State → Enc → Iss → StoreEntry)
      (pre : Enc → Iss → Prop) : Prop :=
    Completes i op (fun _ x c => pre x c ∧ c.g.replayG = none ∧
        lanesDiffer c.g (primAccs c.g (accs x c)) (shadowAccs c.g (accs x c)) = 0)
      fresh1 (fun s x c g' => AtPc c g' (c.sp.pc + 1) ∧
        g' = { c.g with storeQ := c.g.storeQ ++ [{ e s x c with
          id := s.nextOp, pc := c.sp.pc, split := c.j, accs := primAccs c.g (accs x c) }], splits := g'.splits })
  let plain (_ : Enc) (c : Iss) : Prop := c.g.region.st ≠ .opened ∧ (∀ i, c.g.inj = some i → i.kind ≠ 6)
  let store (u : Bool) (accs : Enc → Iss → List LaneAcc) : State → Enc → Iss → StoreEntry := fun s x c =>
    { id := 0, pc := 0, split := 0, kind := .store, accs := [], order := (afterFence s c.g x.order x.scope).1
      scope := (afterFence s c.g x.order x.scope).2, uniform := u, h1 := x.h1.toNat, h2 := x.h2.toNat
      size := storeSize (primAccs c.g (accs x c)) u }
  let cache (k : Enc → StKind) : State → Enc → Iss → StoreEntry := fun _ x _ =>
    { id := 0, pc := 0, split := 0, kind := k x, accs := [], order := 0, scope := 0, h1 := x.h1.toNat, h2 := x.h2.toNat }
  let stored (x : Enc) (c : Iss) : List LaneAcc := (laneAccs c .ix x.simm x.bytes 1 0 c.all).map (fun a =>
    { a with data := (storeData c.g x a.lane x.c).extractLsb' 0 128 &&& BitVec.ofNat 128 (2 ^ (8 * x.bytes) - 1) })
  let block (x : Enc) (c : Iss) : List LaneAcc := (blockAccs c x.c.idx c.all).map (fun a =>
    { a with data := (vget c.g a.reg a.lane).setWidth 128, reg := 0 })
  enters .st .st stored (store false stored) plain ∧
  enters .stb .stb block (store true block) (fun x c => plain x c ∧ ∀ a ∈ block x c, a.bad = false) ∧
  enters .cwb .cwb (fun _ c => lineAccs c) (cache (fun x => .cwb (x.bit 0))) (fun _ _ => True) ∧
  enters .cinv .cinv (fun _ c => lineAccs c) (cache (fun x => .cinv (x.bit 0))) (fun _ _ => True) ∧
  enters .cwbAll .cwbAll (fun _ _ => []) (cache (fun x => .cwbAll (x.bit 0))) (fun _ _ => True) ∧
  enters .cinvAll .cinvAll (fun _ _ => []) (cache (fun x => .cinvAll (x.bit 0))) (fun _ _ => True) ∧
  (let held (i : Enc → Instr) (op : Op) (accs : Enc → Iss → List LaneAcc) : Prop :=
     let pre : State → Enc → Iss → Prop := fun s x c =>
       let prim := primAccs c.g (accs x c)
       c.g.region.st = .opened ∧ (∀ i, c.g.inj = some i → i.kind ≠ 6) ∧ c.g.replayG = none ∧
       lanesDiffer c.g prim (shadowAccs c.g (accs x c)) = 0 ∧ prim.all (accWalks s (accessorOf c.g)) = true ∧
       storeFails s c.g .store prim = []
     let room : State → Enc → Iss → Prop := fun s x c => heldAfter s c.g (primAccs c.g (accs x c)) ≤ c.g.region.budget
     let may : State → Enc → Iss → Prop := fun s x c => holdIllegal s c.g (primAccs c.g (accs x c)) = false
     let dropped (s : State) (c : Iss) : State :=
       modGroup s c.gid (fun g => { g with region := { g.region with held := [] } })
     Gives i op (fun s x c => pre s x c ∧ may s x c ∧ room s x c)
       (fun s x c => advance (holdAccs s c.gid c.g x.h1.toNat x.h2.toNat (primAccs c.g (accs x c))) c) ∧
     Gives i op (fun s x c => pre s x c ∧ may s x c ∧ ¬ room s x c)
       (fun s _ c => raiseIss (dropped s c) c evRegionBudget c.sp.mask 0) ∧
     Gives i op (fun s x c => pre s x c ∧ ¬ may s x c) (fun s _ c => raiseIss (dropped s c) c evRegionIllegal c.sp.mask 0)
   held .st .st stored ∧ held .stb .stb block) ∧
  ∀ (s : State) (gid : Nat) (g : Group) (h1 h2 : Nat) (accs : List LaneAcc), mget s.groups gid = some g →
    let u := accs.foldl (fun st a => touchAcc st (accessorOf g) a) s
    let t := holdAccs s gid g h1 h2 accs
    t.mem = s.mem ∧ t.poison = s.poison ∧ t.remote = s.remote ∧
    ∃ g', mget t.groups gid = some g' ∧ g' = { g with region := { g.region with held := g'.region.held } } ∧
      (∀ k, k ≠ gid → mget t.groups k = mget s.groups k) ∧
      ∀ line, (mget (linesReached u (accessorOf g) accs) line = none → mget g'.region.held line = mget g.region.held line) ∧
        ((mget (linesReached u (accessorOf g) accs) line).isSome = true → ∃ e, mget g'.region.held line = some e ∧
          (let old := mgetD g.region.held line { data := 0, mask := 0 }
           let dm := accsInLine u (accessorOf g) accs line
           e.mask = old.mask ||| dm.2 ∧ e.h1 = h1 ∧ e.h2 = h2 ∧
           ∀ i, i < 128 → lineByte e.data i = if dm.2.getLsbD i then lineByte dm.1 i else lineByte old.data i))

/-- STS issues once no earlier scratchpad access of the group and no empty line is in its way, and the split goes on with the
lanes' accesses still to be stored (R114, R115, R227); their 16-byte parts may be stored one at a time (R129), and before the
group's next turn those that are left are stored in ascending lane order (log entry 89): the bytes of each access, and
nothing else, and a part written whole loses its poison (R134). ATOMS performs its lanes one after the other in ascending order
and its register receives the values found (R115, R235). -/
def Obligations.ScratchpadStoresAndAtomics : Prop :=
  let ordered (s : State) (c : Iss) (rel : Option Nat) : Prop :=
    rel.isSome = true → orderedNow s c.gid c.g = true ∧ releaseHolds s c.g rel = false
  (∀ t : Team, Gives .sts .sts (fun s x c =>
      let accs := (scratchAccs c x.bytes 0 c.all).map (fun a => { a with data := storeData c.g x a.lane x.c })
      let prim := primAccs c.g accs
      c.g.sts = none ∧ teamOf s c.g = some t ∧ scratchHolds s c prim = false ∧ ordered s c (releaseScope s c.g x.order (min x.scope 1)) ∧
      lanesDiffer c.g prim (shadowAccs c.g accs) = 0 ∧ (∀ i, c.g.inj = some i → i.kind ≠ 6) ∧
      ∀ a ∈ prim, inWindow t a = true)
    (fun s x c =>
      let accs := primAccs c.g ((scratchAccs c x.bytes 0 c.all).map (fun a =>
        { a with data := storeData c.g x a.lane x.c }))
      let u := releaseBy s c.g (releaseScope s c.g x.order (min x.scope 1))
      advance (onGroup { u with nextOp := u.nextOp + 1 } c (fun g =>
        { g with sts := if accs = [] then none else some (u.nextOp, accs) })) c)) ∧
  (∀ (s : State) (gid : Nat) (g : Group), mget s.groups gid = some g →
    (g.sts = none → finishScratch s gid = s) ∧
    ∀ op accs, g.sts = some (op, accs) → finishScratch s gid =
      accs.foldl (fun st a => modTeam st g.team (fun t => writeScratch t a.addr.toNat (accBytes a)))
        (modGroup s gid (fun g => { g with sts := none }))) ∧
  (∀ (t : Team) (o : Nat) (bs : List (BitVec 8)),
    let u := writeScratch t o bs
    u = { t with scratch := u.scratch, scratchPoison := u.scratchPoison } ∧ getBytes u.scratch o bs.length = bs ∧
    (∀ a, (a < o ∨ o + bs.length ≤ a) → sget u.scratch a = sget t.scratch a) ∧
    ∀ k, sget u.scratchPoison k = if o ≤ 16 * k ∧ 16 * k + 16 ≤ o + bs.length then 0 else sget t.scratchPoison k) ∧
  ∀ s x c (t t' : Team) (f : Nat → BitVec 64), Issues s .atoms x c →
    let accs := (scratchAccs c (if x.ty.is64 then 8 else 4) x.d.idx c.all).map (fun a =>
      { a with data := typed x.ty (srcC c a.lane) ++ casOperand c a.lane })
    let rel := releaseScope s c.g x.order x.scope
    teamOf s c.g = some t → scratchHolds s c (primAccs c.g accs) = false → ordered s c rel →
    lanesDiffer c.g (primAccs c.g accs) (shadowAccs c.g accs) = 0 →
    scratchRun c t (primAccs c.g accs) = some (t', f) →
      ∃ u g', exec (.atoms x) s = .next u ∧ mget u.groups c.gid = some g' ∧ mget u.teams c.g.team = some t' ∧
        AtPc c g' (c.sp.pc + 1) ∧ LanesHold c.g g' c.all x.d.idx x.ty.is64 (fun l => f (laneIn c.g l)) ∧
        OnlyLanes { c.g with mons := g'.mons } g' c.all x.d.idx x.ty.is64 ∧
        (rel = none → isAcquire x.order = false →
          (∀ k, k ≠ c.gid → mget u.groups k = mget s.groups k) ∧ g'.mons = c.g.mons ∧
          u = { s with groups := u.groups, teams := u.teams, nextOp := s.nextOp + 1 })

/-- A copy issues once no replay entry of a global access is occupied and its counter has room (R220, R228, R231, R232): it
enters the copy coalescer with the parts its operands give, its counter rises, its destinations go empty, and the split goes
on.
COPY_PART_LAND (R130): a part whose reads may be performed is read and lands; a part that lands in the scratchpad writes
exactly its bytes. -/
def Obligations.CopiesIssueAndLand : Prop :=
  (let next1 : State → State := fun s => { s with nextOp := s.nextOp + 1 }
   let may (c : Iss) (disp : Int) : Prop := copyMayIssue c = true ∧ cpaDiffer c disp = 0
   let cpa (dst : CopyDst) (last : Bool) (s : State) (x : Enc) (c : Iss) : State :=
     launchCopy (next1 s) c { blankCopy c s.nextOp dst with parts := cpaParts c x.simm (offC c), last }
   let mayCpt (s : State) (x : Enc) (c : Iss) : Prop := copyMayIssue c = true ∧ c.g.storeQ = [] ∧
     earlierReads s c.gid c.g s.nextOp = false ∧ memReady s c.g.part = true ∧ ∀ y ∈ [x.a, x.b, x.c, x.e], SameInCopies c y
   let cpt (dst : CopyDst) (dest : Int) (s : State) (x : Enc) (c : Iss) : State :=
     launchCopy (next1 s) c { blankCopy c s.nextOp dst with
       tensor := true, unread := true, descAddr := uniOperand c.g x 0 x.a, dest
       start := uniOperand c.g x 0 x.e ++ uniOperand c.g x 0 x.b }
   Gives .cpaS .cpaS (fun _ x c => may c x.simm) (cpa .scratch false) ∧
   Gives .cptS .cptS mayCpt (fun s x c => cpt .scratch (uniOperand c.g x 0 x.c).toInt s x c) ∧
   (∀ t : Team,
     let inSlots : State → Enc → Iss → Prop := fun s x c => teamOf s c.g = some t ∧ x.d.idx < t.launch.slots
     Gives .cpaO .cpaO (fun s x c => inSlots s x c ∧ may c x.simm)
       (fun s x c => cpa (.slot (sideOf t c.g) x.d.idx) (x.bit 6) s x c) ∧
     Gives .cptO .cptO (fun s x c => inSlots s x c ∧ mayCpt s x c)
       (fun s x c => cpt (.slot (sideOf t c.g) x.d.idx) 0 s x c)) ∧
   ∀ (gid : Nat) (h : Group), Gives .cpaG .cpaG (fun s x c => may c (cpaGDisp x) ∧
       s.groups.find? (fun e => e.2.team == c.g.team && e.2.core == c.g.core && e.2.index == cpaGTarget c 0 &&
         e.2.live != 0) = some (gid, h) ∧
       (∀ i, i < x.memRegs → isEmpty h (x.d.idx + i) = false) ∧ (c.g.lined = true → cpaGTarget c 1 = cpaGTarget c 0))
     (fun s x c => launchCopy (modGroup (next1 s) gid (fun g => markEmpty g x.d.idx x.memRegs)) c
       { blankCopy c s.nextOp (.group gid x.d.idx) with
         parts := cpaParts c (cpaGDisp x) (fun _ => 0), tke := if x.bit 6 then some (x.bits 0 4) else none })) ∧
  ((∀ (id k : Nat) (y : Copy) (p : CopyPart), StepGives (.copyPartLand id k)
     (fun s => copyGet s id = some y ∧ mget y.parts k = some p ∧ p.fail = none ∧ copyReady s y = true ∧
       ∀ a, p.src = some a → accReady s { core := y.core, part := y.part, ctx := y.ctx } false
         { lane := p.lane, addr := a, size := p.rd, bad := p.bad } = true)
     (fun s => settleCopy (performPart s id k) id)) ∧
   ∀ (s : State) (y : Copy) (p : CopyPart) (f : Found) (t : Team), y.dst = .scratch → mget s.teams y.team = some t →
     ∃ u, deposit s y p f = { s with teams := mput s.teams y.team u } ∧
       u = { t with scratch := u.scratch, scratchPoison := u.scratchPoison } ∧
       getBytes u.scratch p.dst.toNat f.bytes.length = f.bytes ∧
       ∀ a, (a < p.dst.toNat ∨ p.dst.toNat + f.bytes.length ≤ a) → sget u.scratch a = sget t.scratch a)

/-- WAITK goes on once the arrival counter is at or below its operand, KSET writes a counter that is 0 (R229); FENCE goes on once
the accesses it orders are performed, with the release and the acquire its order field names (R128, R242); PREF goes on
whatever its addresses are, once what they reach is ready (R243, R431).
MONWAIT is complete where a monitor of its mask has fired or none is armed: sd receives the fired ones, which are disarmed,
and a result that is not 0 acquires at device scope; it ends with 0 when its timeout expires (R240). -/
def Obligations.WaitsFencesAndMonitors : Prop :=
  (GoesOn .waitk .waitk (fun _ x c => (x.b.isImm = true → x.imm.toNat ≤ 255) ∧ kget c.g x.a.idx ≤ countOperand c 0 x.b) ∧
   Completes .kset .kset (fun _ x c => (x.a.isImm = true → x.imm.toNat ≤ 255) ∧ kget c.g x.d.idx = 0) id
     (fun _ x c g' => AtPc c g' (c.sp.pc + 1) ∧
       (∀ k, kget g' k = if k = x.d.idx then countOperand c 0 x.a else kget c.g k) ∧
       g' = { c.g with counters := g'.counters, splits := g'.splits }) ∧
   Gives .fence .fence (fun s x c => earlierReads s c.gid c.g s.nextOp = false ∧ earlierScratch c.g = false ∧
       c.g.replayG = none ∧ (isRelease x.order = true → c.g.storeQ = [] ∧ releaseWaits s c.g x.scope = false))
     (fun s x c =>
       let s1 := if isRelease x.order then releaseAt s c.g x.scope else s
       let s2 := if isAcquire x.order then acquireAt s1 c.g x.scope else s1
       advance (if isRelease x.order then onGroup s2 c (fun g => { g with
         fenceRel := some (match g.fenceRel with | some f => joinScope s c.g x.scope f | none => x.scope) }) else s2) c) ∧
   Gives .pref .pref (fun s x c => ∀ a ∈ laneAccs c .ix x.simm 1 1 0 c.act, accReady s (accessorOf c.g) false a = true)
     (fun s x c =>
     advance ((laneAccs c .ix x.simm 1 1 0 c.act).foldl (fun st a =>
       let st := touchAcc st (accessorOf c.g) a
       match accRuns st (accessorOf c.g) a .r with
       | .error _ => st
       | .ok runs => (segsOf runs).foldl (fun st sg =>
           if sg.window then st
           else
             let st1 := (l1View st c.g.core c.g.part c.g.ctx (chainOf st c.g) sg.line sg.cpol x.h1.toNat x.h2.toNat).2.2
             if sg.cpol = 0 then l1Hint st1 c.g.core sg.line x.h1.toNat else st1) st) s) c)) ∧
  (Gives .monwait .monwait (fun _ x c => (c.g.lined = true → uniOperand c.g x 0 x.a = uniOperand c.g x 1 x.a) ∧
       (firedMask c.g (x.bits 0 4) ≠ 0 ∨ ∀ m ∈ c.g.mons, x.bits 0 4 / 2 ^ m.1 % 2 ≠ 1))
     (fun s x c => finishMonwait (modSplit s c.gid c.j (fun sp => { sp with yld := x.yld })) c.gid c.j x.d.idx
       (firedMask c.g (x.bits 0 4))) ∧
   Gives .monwait .monwait (fun _ x c => (c.g.lined = true → uniOperand c.g x 0 x.a = uniOperand c.g x 1 x.a) ∧
       firedMask c.g (x.bits 0 4) = 0 ∧ (∃ m ∈ c.g.mons, x.bits 0 4 / 2 ^ m.1 % 2 = 1) ∧ c.sp.wait = .none)
     (fun s x c =>
       let t := (uniOperand c.g x 0 x.a).toNat % 2 ^ 32
       waitAs s c (.mon (BitVec.ofNat 4 (x.bits 0 4)) (if t = 0 then none else some (s.clk + t)))) ∧
   ∀ (gid j : Nat) (g : Group) (sp : Split) (mask : BitVec 4) (u : Nat) (x : Enc),
     StepGives (.monwaitTimeout gid j) (fun s => mget s.groups gid = some g ∧ mget g.splits j = some sp ∧
         sp.wait = .mon mask (some u) ∧ u ≤ s.clk ∧ sp.issued = some (.monwait, x))
       (fun s => finishMonwait s gid j x.d.idx (firedMask g mask.toNat)))

/-- ATOM and RED issue once the group's earlier accesses are performed (R123, R235): each lane's request goes to the home of
its address, and the split waits for the replies. DQPUSH, DQPOP, DQSTEAL and MONARM send one request (R217, R237, R239). -/
def Obligations.AtomicsDequesAndMonitorsSendRequests : Prop :=
  let next1 : State → State := fun s => { s with nextOp := s.nextOp + 1 }
  let atom (d : Enc → Option Nat) (s : State) (x : Enc) (c : Iss) : State :=
    let s1 := releaseBy (next1 s) c.g (releaseScope s c.g x.order x.scope)
    let a : AtomOp :=
      { id := s.nextOp, split := c.j, pc := c.sp.pc, d := d x, nregs := if x.ty.is64 then 2 else 1
        size := if x.ty.is64 then 8 else 4, order := x.order, scope := x.scope }
    let s2 := waitAs (onGroup s1 c (fun g => { g with atoms := g.atoms ++ [a] })) c .reply
    finishAtom ((atomReqs s c s.nextOp (d x) c.act).foldl (fun st r =>
      match reachReq st c.g r.1 r.2 (if x.ty.is64 then 8 else 4) .rw true with
      | .error f => failAtomic st r.1 f
      | .ok q => sendReq st c.g q) s2) c.gid s.nextOp
  let rel (ordered : Bool) (s : State) (x : Enc) (c : Iss) : Option Nat :=
    if ordered then releaseScope s c.g x.order x.scope else none
  let ready (ordered : Bool) (s : State) (x : Enc) (c : Iss) : Prop :=
    c.sp.wait ≠ .reply ∧ orderedNow s c.gid c.g = true ∧ releaseHolds s c.g (rel ordered s x c) = false
  let agree (d : Enc → Option Nat) (s : State) (x : Enc) (c : Iss) : Prop :=
    reqsDiffer c.g (atomReqs s c s.nextOp (d x) c.act)
      (if c.g.lined then atomReqs s c s.nextOp (d x) (c.all &&& ~~~ c.act) else []) = 0 ∧
    ∀ r ∈ atomReqs s c s.nextOp (d x) c.act, r.2 = true ∨ walkReady s c.g.core c.g.part c.g.ctx r.1.va = true
  Gives .atom .atom (fun s x c => ready true s x c ∧ agree (fun x => some x.d.idx) s x c) (atom (fun x => some x.d.idx)) ∧
  Gives .red .red (fun s x c => ready true s x c ∧ agree (fun _ => none) s x c) (atom (fun _ => none)) ∧
  ∀ q : SliceReq,
    let sends (ordered : Bool) (i : Enc → Instr) (op : Op) (kind : Enc → Iss → ReqKind) (n align : Nat) (need : Need) : Prop :=
      Gives i op (fun s x c => ready ordered s x c ∧
          (c.g.lined = true → exactAddr c.g x .one x.simm 0 = exactAddr c.g x .one x.simm c.g.width ∧
            (x.c.isS = true → srcC c 0 = srcC c c.g.width)) ∧
          (let s1 := releaseBy (next1 s) c.g (rel ordered s x c)
           let a := accAt 0 (exactAddr c.g x .one x.simm 0) n align 0
           accWalks s (accessorOf c.g) a = true ∧ reachReq s1 c.g (blankReq s c s.nextOp a.addr (kind x c)) a.bad n need false = .ok q))
        (fun s x c => sendReq (waitAs (releaseBy (next1 s) c.g (rel ordered s x c)) c .reply) c.g q)
    sends true .dqpush .dqpush (fun x c => .deque .push (uniOperand c.g x 0 x.c) x.d.idx 0) 32 32 .rw ∧
    sends true .dqpop .dqpop (fun x _ => .deque .pop 0 x.d.idx x.e.idx) 32 32 .rw ∧
    sends true .dqsteal .dqsteal (fun x _ => .deque .steal 0 x.d.idx x.e.idx) 32 32 .rw ∧
    sends false .monarm .monarm (fun x _ => .monarm (x.bits 0 2) x.d.idx) 8 8 .r

/-- An atomic lane performed at its home reads the location's value into its register and writes the operation's new value
there, in both copies of a lined group; every other byte of memory keeps its value, but for what the group's own core held
dirty of the line, which goes home first (R129, R235). Where no cloak holds a monitor. At the management window it reads and
writes the register (R418). -/
def Obligations.AtomicReadsAndWritesItsLocation : Prop :=
  ∀ (s : State) (r : SliceReq) (g : Group) (lane op : Nat) (ty : Ty) (c e : BitVec 64) (d : Option Nat)
    (bs : List (BitVec 8)), mget s.groups r.gid = some g → r.kind = .atomic lane op ty c e d →
    (isWindow r.pa = true → ∀ v, ty.is64 = true → windowRead (yieldLine s g.core (r.pa / 128)) g.part (r.pa % 2 ^ 20) = some v →
      let new := typed ty (atomNew op ty v c e)
      performAtomic s r =
        modAtom (modGroup (windowWrite (fireLine (yieldLine s g.core (r.pa / 128)) (r.pa / 128)) g.part (r.pa % 2 ^ 20) new)
          r.gid (fun g => match d with
            | some d => writeOld g d true lane v
            | none => g)) r.gid r.op (fun a => { a with done := a.done ||| bitMask lane })) ∧
    (r.pa < hbmSize → s.cloakMons = [] →
    let y := yieldLine s g.core (r.pa / 128)
    readHome y r.pa (if ty.is64 then 8 else 4) = (bs, false) →
    let n := if ty.is64 then 8 else 4
    let old := BitVec.ofNat 64 (leNat bs)
    let t := performAtomic s r
    (readHome t r.pa n).1 = leBytes n (typed ty (atomNew op ty old c e)).toNat ∧
    (∀ a, (a < r.pa ∨ r.pa + n ≤ a) → sget t.mem a = sget y.mem a) ∧
    (∀ a, a / 128 ≠ r.pa / 128 → sget y.mem a = sget s.mem a) ∧
    (mget (coreOf t g.core).l1 (r.pa / 128) = none) ∧
    ∃ g', mget t.groups r.gid = some g' ∧ g'.sregs = g.sregs ∧ g'.preds = g.preds ∧ g'.splits = g.splits ∧
      match d with
      | some d => LanesHold g g' (bothCopies g (bitMask lane)) d ty.is64 (fun _ => old)
      | none => g'.vregs = g.vregs)

/-- L2_SLICE_REQUEST performs the first request by source order at a slice whose way is ready (R120, R238): the lanes of an atomic
at one location, one after the other; a deque operation on a sound header (R237: 3 for a header that is none, full and
empty, the entry and its index, at their home); MONARM, which arms and reads its location (R239). STORE_QUEUE_DRAIN
performs the store at the head of a group's queue once the group's earlier loads and atomics are performed (R222): the
accesses that translate are stored, with the release its order asks for, and the entry leaves the queue; those that fail stay
and a replay entry names them (R218).
DIRTY_LINE_TIMEOUT writes a dirty line back through the L2, its poison with it (R116, R121, R134), and PAGE_WALK keeps a
translation in the TLBs (R109, R110). -/
def Obligations.MemorySideSteps : Prop :=
  (∀ (slice : Nat) (r : SliceReq) (g : Group), StepGives (.l2SliceRequest slice)
    (fun s => nextReq s slice = some r ∧ mget s.groups r.gid = some g ∧ pathReady s g.part (r.pa / 128) = true ∧
      isState r = false) (fun s => performReq s r)) ∧
  (∀ (s : State) (r : SliceReq),
    let others (s : State) : State := { s with sliceQ := s.sliceQ.filter (fun q => !(q.gid == r.gid && q.op == r.op)) }
    (∀ lane op ty c e d, r.kind = .atomic lane op ty c e d → performReq s r =
      finishAtom ((s.sliceQ.filter (fun q => q.gid == r.gid && q.op == r.op && q.pa == r.pa)).foldl performAtomic
        { s with sliceQ := s.sliceQ.filter (fun q => !(q.gid == r.gid && q.op == r.op && q.pa == r.pa)) }) r.gid r.op) ∧
    (∀ op c d e, r.kind = .deque op c d e → performReq s r = performDeque (others s) r op c d e) ∧
    (∀ mon d, r.kind = .monarm mon d → performReq s r = performMonarm (others s) r mon d) ∧
    ∀ (g : Group) (v : BitVec 64) (mon d : Nat), mget s.groups r.gid = some g → r.pa < hbmSize →
      let u := touchUnit (yieldLine s g.core (r.pa / 128)) g r false
      readHome u r.pa 8 = (leBytes 8 v.toNat, false) → performMonarm s r mon d =
        uniformDone (modGroup u r.gid (fun g => { g with
          mons := mput g.mons mon { line := r.pa / 128, va := r.va, fired := false } })) r [(d, v)]) ∧
  (∀ (s : State) (r : SliceReq) (g : Group) (bs : List (BitVec 8)) (c : BitVec 64) (d e : Nat),
    mget s.groups r.gid = some g →
    let u := touchUnit (yieldLine s g.core (r.pa / 128)) g r true
    readHome u r.pa 32 = (bs, false) →
    let base := fieldAt bs 0 8
    let lcap := fieldAt bs 8 1 % 32
    let top : BitVec 64 := BitVec.ofNat 64 (fieldAt bs 16 8)
    let bottom : BitVec 64 := BitVec.ofNat 64 (fieldAt bs 24 8)
    let n : Int := (bottom.toNat : Int) - top.toNat
    let header : Prop := fieldAt bs 9 7 = 0 ∧ fieldAt bs 8 1 < 32 ∧ 1 ≤ lcap ∧ lcap ≤ 24 ∧ n ≤ (2 ^ lcap : Nat)
    let slot (i : BitVec 64) : BitVec 64 := BitVec.ofNat 64 (base + 8 * (i.toNat % 2 ^ lcap))
    let found (i : BitVec 64) (p : Phys) : Prop := (slot i).toNat % 8 = 0 ∧ reach u (accessorOf g) (slot i) 8 .rw = .ok p ∧
      isRemote p.pa = false ∧ p.window = false
    let entry (i : BitVec 64) (p : Phys) (write : Bool) : State :=
      l2Touch (touchTlb (yieldLine u g.core (p.pa / 128)) g.core g.part g.ctx (slot i)) g.part g.ctx r.chain (p.pa / 128) write
        (p.cpol ≠ 2) r.h2
    let put (st : State) (off : Nat) (v : BitVec 64) : State := writeHome st (r.pa + off) (leBytes 8 v.toNat)
    (¬ header → performDeque s r .push c d e = uniformDone u r [(d, 3)] ∧
      performDeque s r .pop c d e = uniformDone u r [(e, 3)] ∧ performDeque s r .steal c d e = uniformDone u r [(e, 3)]) ∧
    (header → n = (2 ^ lcap : Nat) → performDeque s r .push c d e = uniformDone u r [(d, 2)]) ∧
    (header → n = 0 → performDeque s r .pop c d e = uniformDone u r [(e, 1)] ∧
      performDeque s r .steal c d e = uniformDone u r [(e, 1)]) ∧
    (∀ p, header → n ≠ (2 ^ lcap : Nat) → found bottom p → performDeque s r .push c d e =
      uniformDone (put (writeHome (entry bottom p true) p.pa (leBytes 8 c.toNat)) 24 (bottom + 1)) r [(d, 0)]) ∧
    (∀ p v, header → n ≠ 0 → found (bottom - 1) p → readHome (entry (bottom - 1) p false) p.pa 8 = (v, false) →
      performDeque s r .pop c d e =
        uniformDone (put (entry (bottom - 1) p false) 24 (bottom - 1)) r [(d, BitVec.ofNat 64 (leNat v)), (e, 0)]) ∧
    ∀ p v, header → n ≠ 0 → found top p → readHome (entry top p false) p.pa 8 = (v, false) →
      performDeque s r .steal c d e =
        uniformDone (put (entry top p false) 16 (top + 1)) r [(d, BitVec.ofNat 64 (leNat v)), (e, 0)]) ∧
  (∀ (gid : Nat) (g : Group) (e : StoreEntry) (rest : List StoreEntry), StepGives (.storeQueueDrain gid)
    (fun s => mget s.groups gid = some g ∧ g.storeQ = e :: rest ∧ g.replayG = none ∧ earlierReads s gid g e.id = false ∧
      windowTurn s (accessorOf g) e.id e.accs = true ∧
      (match e.kind with
       | .store => ∀ a ∈ e.accs, accReady s (accessorOf g) true a = true
       | .cwbAll _ | .cinvAll _ => dirtyReady s g.core = true
       | _ => ∀ a ∈ e.accs, accReady s (accessorOf g) false a = true) ∧
      (isRelease e.order = true → releaseWaits s g e.scope = false ∧
        ∀ p ∈ g.prods, isScratchLoad p = true → e.id ≤ p.id))
    (fun s => performHead s gid (entryLanes g e))) ∧
  (∀ (s : State) (gid : Nat) (g : Group) (e : StoreEntry) (rest : List StoreEntry) (mask : BitVec 64),
    mget s.groups gid = some g → g.storeQ = e :: rest →
    let mine := e.accs.filter (fun a => mask.getLsbD (laneIn g a.lane))
    let fs := storeFails s g e.kind mine
    let unf := failMask g fs
    let good := mine.filter (fun a => !unf.getLsbD (laneIn g a.lane))
    let left := e.accs.filter (fun a => unf.getLsbD (laneIn g a.lane) || !mask.getLsbD (laneIn g a.lane))
    let done := performEntry ((mine.filter (fun a => unf.getLsbD (laneIn g a.lane))).foldl
      (fun st a => touchAcc st (accessorOf g) a) s) gid g e good
    heldEvent s g e good = none →
      (unf = 0 → performHead s gid mask = retireGroup (modGroup done gid (fun g => { g with
        storeQ := if left = [] then rest else { e with accs := left } :: rest, replayG := none })) gid) ∧
      (unf ≠ 0 → ∃ s2 g2 r done' kind size, mget s2.groups gid = some g2 ∧ g2.replayG = some r ∧
        g2.storeQ = { e with accs := left, performed := 0 } :: rest ∧ r.what = .store ∧ r.id = e.id ∧ r.lanes = unf ∧
        r.accs = left ∧ performHead s gid mask = recordFails s2 g e.pc (failLanes g fs) done' unf kind size e.uniform)) ∧
  (∀ (s : State) (gid : Nat) (g : Group) (e : StoreEntry) (accs : List LaneAcc), e.kind = .store → e.held = false →
    performEntry s gid g e accs =
      (if e.order = 4 then (releaseAt · g e.scope) else id)
        (storeAccs (if isRelease e.order then releaseAt s g e.scope else s) gid g e accs)) ∧
  (∀ (core line : Nat) (l : L1Line), StepGives (.dirtyLineTimeout core line)
    (fun s => mget (coreOf s core).l1 line = some l ∧ l.dirty ≠ 0 ∧ pathReady s l.part line = true)
    (fun s => modCore (addPoison (writeLineHome (l2Touch s l.part l.ctx l.chain line true true l.h2) line l.data l.dirty l.whole)
      line (l.poison &&& partsOfMask l.dirty)) core (fun c => { c with l1 := mput c.l1 line { l with dirty := 0, whole := 0 } }))) ∧
  ∀ (core part ctx : Nat) (va : BitVec 64),
    (∀ e, StepGives (.pageWalk core part ctx va) (fun s => canonical va = true ∧ translate s core part ctx va = .ok e)
      (fun s => fillTlb (if tlbHolds s core part ctx va then s else touchWalk s part ctx va) core e)) ∧
    ∀ f, StepGives (.pageWalk core part ctx va) (fun s => canonical va = true ∧ translate s core part ctx va = .error f)
      (fun s => if tlbHolds s core part ctx va then s else touchWalk s part ctx va)

/-- A store of a core (R116, R123): where the line has room in the L1 (its set is the line modulo 512, log entry 8), the core's loads then see the stored bytes and every other
byte as before, no byte of memory at home changes and no other line of the L1 does; where it bypasses the L1, the bytes are
at home.
Bytes written at home are read there, every other byte keeps its value, a 16-byte part written whole loses its poison and no
other part does (R124, R134). -/
def Obligations.StoresReachTheLineAndHome : Prop :=
  (∀ (s : State) (core p ctx chain line h1 h2 : Nat) (data : BitVec 1024) (m : BitVec 128) (w : BitVec 8),
     isRemote (128 * line) = false →
     (h1 ≠ 3 → (h1 = 2 → (mget (coreOf s core).l1 line).isSome = true) → l1Ways (coreOf s core) line ≠ 0 →
       ((mget (coreOf s core).l1 line).isSome = true ∨
         ((coreOf s core).l1.filter (fun e => e.1 % 512 == line % 512)).length < l1Ways (coreOf s core) line) →
       let t := coreStoreLine s core p ctx chain line 0 h1 h2 data m w
       t.mem = s.mem ∧ t.poison = s.poison ∧
       (∀ k, k ≠ line → mget (coreOf t core).l1 k = mget (coreOf s core).l1 k) ∧
       ∀ i, i < 128 → lineByte (l1View t core p ctx chain line 0 0 h2).1 i =
         if m.getLsbD i then lineByte data i else lineByte (l1View s core p ctx chain line 0 0 h2).1 i) ∧
     ∀ cpol, (cpol ≠ 0 ∨ h1 = 2) → mget (coreOf s core).l1 line = none → s.cloakMons = [] →
       let t := coreStoreLine s core p ctx chain line cpol h1 h2 data m w
       (∀ i, i < 128 → sget t.mem (128 * line + i) = if m.getLsbD i then lineByte data i else sget s.mem (128 * line + i)) ∧
       ∀ a, (a < 128 * line ∨ 128 * line + 128 ≤ a) → sget t.mem a = sget s.mem a) ∧
  (∀ (s : State) (pa : Nat) (bs : List (BitVec 8)), isRemote pa = false → s.cloakMons = [] →
     let t := writeHome s pa bs
     (readHome t pa bs.length).1 = bs ∧
     (∀ a, (a < pa ∨ pa + bs.length ≤ a) → sget t.mem a = sget s.mem a) ∧ t.remote = s.remote ∧
     ∀ k, sget t.poison k = if pa ≤ 16 * k ∧ 16 * k + 16 ≤ pa + bs.length then 0 else sget s.poison k)

/-! ### Matrix, geometry and collectives (spec/17, spec/23, spec/25) -/

/-- The sequencer's own registers and control flow (R262, R314): add, madd and flags write a q register; LOOP counts in one and
BRA goes to its target; ldq and stq make one access and go on.
SEQ.END, once the array is idle and no delivery is left (R313): every slot is released and the sequencer has ended. -/
def Obligations.SequencerRuns : Prop :=
  (let any : State → Enc → SIss → Prop := fun _ _ _ => True
   let mem : State → Enc → SIss → Prop := fun s _ c => memReady s c.t.part = true
   WritesQ .seqLoopAdd .seqLoopAdd any (·.d.idx) (fun _ x c => qOperand c.q x x.a + qOperand c.q x x.b) ∧
   WritesQ .seqLoopMadd .seqLoopMadd any (·.d.idx)
     (fun _ x c => qOperand c.q x x.a * qOperand c.q x x.b + qOperand c.q x x.c) ∧
   WritesQ .seqLoopFlags .seqLoopFlags (fun _ x c => arrayIdle c.q = true ∧ x.bit 3 = false) (·.d.idx)
     (fun _ _ c => c.q.flags.setWidth 64) ∧
   SeqCompletes .seqLoopFlags .seqLoopFlags (fun _ x c => arrayIdle c.q = true ∧ x.bit 3 = true)
     (fun s x c u => ∃ q', u = { c.t with seq := some { seqNext s x c (c.q.pc + 1) with q := q', flags := 0 } } ∧
       ∀ k, sget q' k = if k = x.d.idx then c.q.flags.setWidth 64 else sget c.q.q k) ∧
   (∀ dst : Pc,
     SeqCompletes .bra .bra (fun s _ c => seqTarget s c = some dst)
       (fun s x c u => u = { c.t with seq := some (seqNext s x c dst) }) ∧
     SeqCompletes .loop .loop (fun s x c => sget c.q.q x.d.idx ≠ 1 ∧ seqTarget s c = some dst)
       (fun s x c u => ∃ q', u = { c.t with seq := some { seqNext s x c dst with q := q' } } ∧
         ∀ k, sget q' k = if k = x.d.idx then sget c.q.q k - 1 else sget c.q.q k)) ∧
   SeqCompletes .loop .loop (fun _ x c => sget c.q.q x.d.idx = 1)
     (fun s x c u => ∃ q', u = { c.t with seq := some { seqNext s x c (c.q.pc + 1) with q := q' } } ∧
       ∀ k, sget q' k = if k = x.d.idx then 0 else sget c.q.q k) ∧
   GivesQ .seqLoopLdq .seqLoopLdq mem (fun s _ c => paced c (performSeq s c.tid (quadAcc 2 c))) ∧
   GivesQ .seqLoopStq .seqLoopStq (fun s x c => mem s x c ∧ (isRelease x.order = true → seqReleaseWaits s c.t x.scope = false))
     (fun s _ c => paced c (performSeq s c.tid (quadAcc 3 c)))) ∧
  (GivesQ .seqEnd .seqEnd (fun s _ c => arrayIdle c.q = true ∧ deliveriesLeft s c.tid = false)
     (fun s _ c => retireTeam (memberExits (modTeam s c.tid (fun t => { t with
       slots := t.slots.map (fun e => (e.1, releaseSlot e.2)), seq := t.seq.map (fun q => { q with ended := true }) }))
       c.tid seqMember) c.tid))

/-- The slot instructions move the named slots on every side of the team, and no other, along the states of Table 17.2 (R297,
R298, R303): a claim makes an EMPTY slot FILLING with zero bytes and no poison; SLOT.READY makes a FILLING slot READY and
SLOT.RELEASE DRAINING, each once every fill part issued to the slot has landed, and SLOT.RELEASE a READY slot DRAINING at
once; every other slot stays as it is, and a drained slot is EMPTY. SLOT.WRITE lays a group's registers out in a slot, and SLOT.READ sends a slot's bytes to a group (R304, R305). -/
def Obligations.SlotInstructions : Prop :=
  let inRange (x : Enc) (c : SIss) : Prop := slotRangeOk c.t x.a.idx (x.bits 0 6 + 1) = true
  let moves (f : Slot → Slot) (s : State) (x : Enc) (c : SIss) (u : Team) : Prop :=
    u = { c.t with slots := u.slots, seq := some (seqNext s x c (c.q.pc + 1)) } ∧
    ∀ o d, d < 2 → slotOf u d o = if (o, d) ∈ slotTargets c.t x then f (slotOf c.t d o) else slotOf c.t d o
  SeqCompletes .slotClaim .slotClaim (fun _ x c => inRange x c ∧
    ∀ p ∈ slotTargets c.t x, (slotOf c.t p.2 p.1).st = .empty) (moves claimed) ∧
  SeqCompletes .slotReady .slotReady (fun _ x c => inRange x c ∧ ∀ p ∈ slotTargets c.t x,
    (slotOf c.t p.2 p.1).st ≠ .empty ∧ drainingSoon (slotOf c.t p.2 p.1) = false) (moves readySlot) ∧
  SeqCompletes .slotRelease .slotRelease (fun _ x c => inRange x c) (moves releaseSlot) ∧
  WritesQ .slotState .slotState (fun _ x c => slotRangeOk c.t x.a.idx 1 = true) (·.d.idx) (fun _ x c =>
    BitVec.ofNat 64 ((slotOf c.t 0 x.a.idx).st.code +
      256 * if c.t.partner.isSome then (slotOf c.t 1 x.a.idx).st.code else 0)) ∧
  (∀ (tid side o : Nat) (t : Team), StepGives (.slotDrainEnd tid side o)
    (fun s => mget s.teams tid = some t ∧ (slotOf t side o).st = .draining ∧ slotRead t side o = false)
    (fun s => modSlot s tid side o drained)) ∧
  (∀ u : Slot,
    claimed u = { st := .filling, fills := u.fills, last := u.last } ∧ drained u = { fills := u.fills, last := u.last } ∧
    (u.st = .filling → u.toDrain = false →
      (u.fills = 0 → readySlot u = { u with st := .ready, toReady := false, last := false }) ∧
      (u.fills ≠ 0 → readySlot u = { u with toReady := true } ∧
        settleSlot { readySlot u with fills := 0 } = { u with st := .ready, fills := 0, toReady := false, last := false })) ∧
    (u.st ≠ .filling → readySlot u = u) ∧
    (u.st = .filling →
      (u.fills = 0 → releaseSlot u = { u with st := .draining, toDrain := false, toReady := false, last := false }) ∧
      (u.fills ≠ 0 → releaseSlot u = { u with toDrain := true } ∧
        settleSlot { releaseSlot u with fills := 0 } =
          { u with st := .draining, fills := 0, toDrain := false, toReady := false, last := false })) ∧
    (u.st = .ready → releaseSlot u = { u with st := .draining }) ∧
    (u.st = .empty ∨ u.st = .draining → releaseSlot u = u) ∧
    (u.st = .filling → u.fills = 0 → u.last = true → u.toDrain = false →
      settleSlot u = { u with st := .ready, toReady := false, last := false })) ∧
  ∀ (gid : Nat) (g : Group),
    let pre (y : Enc → Operand) : State → Enc → SIss → Prop := fun s x c =>
      targetGroup s c = some (gid, g) ∧ slotRangeOk c.t (y x).idx 1 = true ∧ slotMoveOk g x (qBytes c.q x x.b) = true
    SeqCompletes .slotWrite .slotWrite (fun s x c =>
        let v := slotOf c.t (sideOf c.t g) x.d.idx
        pre (·.d) s x c ∧ v.st = .filling ∧ v.toReady = false ∧ v.toDrain = false ∧ moveDamage g x = none ∧
        targetFull g x = true ∧
        (g.lined = true → moveWords g x 0 = moveWords g x 1))
      (fun s x c u =>
        let off := qBytes c.q x x.b
        let v := slotOf u (sideOf c.t g) x.d.idx
        u = { c.t with slots := u.slots, seq := some (seqNext s x c (c.q.pc + 1)) } ∧
        (∀ j i, j < moveCount x → i < g.width →
          getBytes v.data (off + 4 * (g.width * j + i)) 4 = leBytes 4 (vget g (moveReg x + j) i).toNat) ∧
        (∀ a, (a < off ∨ off + 4 * g.width * moveCount x ≤ a) →
          sget v.data a = sget (slotOf c.t (sideOf c.t g) x.d.idx).data a) ∧
        ∀ o d, d < 2 → (o ≠ x.d.idx ∨ d ≠ sideOf c.t g) → slotOf u d o = slotOf c.t d o) ∧
    GivesQ .slotRead .slotRead (fun s x c => pre (·.a) s x c ∧ (slotOf c.t (sideOf c.t g) x.a.idx).st = .ready ∧
        targetFree g x = true)
      (fun s x c => sendData s c gid g 1 (fun j i =>
        let v := slotOf c.t (sideOf c.t g) x.a.idx
        let o := qBytes c.q x x.b + 4 * (g.width * j + i)
        (BitVec.ofNat 32 (leNat (getBytes v.data o 4)), sget v.poison (o / 16) == 1#1)))

/-- MMA in its three forms and SCACC give work to the array once every slot they read is READY, and each share of a GANG once
its own slots are, the second taking the sequencer on (R306 to R309); an
ARRAY_STEP without an error performs the next step of the team's oldest work on a side: it writes the step's cells and ORs
their flags into the sequencer's (R88, R317). That the shares of a GANG start separately and that a SCACC is one step is log
entry 16. -/
def Obligations.MatrixWorkIsGivenAndPerformed : Prop :=
  let job (x : Enc) (c : SIss) : MatJob :=
    productJob c (windowFrom (sget c.q.q x.d.idx)) (windowFrom (sget c.q.q x.d.idx)).rows
  let given (js jp : Enc → SIss → List MatJob) (s : State) (x : Enc) (c : SIss) (u : Team) : Prop :=
    u = { c.t with seq := some { seqNext s x c (c.q.pc + 1) with jobs := c.q.jobs ++ js x c, jobsP := c.q.jobsP ++ jp x c } }
  let mma (i : Enc → Instr) (op : Op) : Prop :=
    SeqCompletes i op (fun _ x c => productOk c.t (sget c.q.q x.c.idx) (job x c) = true ∧ slotsReady c.t 0 (job x c) = true)
      (given (fun x c => [job x c]) (fun _ _ => []))
  let shares (x : Enc) (c : SIss) : MatJob × Option MatJob := gangJobs c (windowFrom (sget c.q.q x.d.idx))
  mma .mma .mma ∧ mma .mmaCplx .mmaCplx ∧ mma .mmaTern .mmaTern ∧
  (let pre (k : BitVec 2) (x : Enc) (c : SIss) : Prop := c.t.partner.isSome = true ∧ c.q.shares = k ∧
     ∀ j ∈ (shares x c).1 :: (shares x c).2.toList, productOk c.t (sget c.q.q x.c.idx) j = true
   let home (x : Enc) (c : SIss) : Prop := slotsReady c.t 0 (shares x c).1 = true
   let other (x : Enc) (c : SIss) : Prop := ∃ j, (shares x c).2 = some j ∧ slotsReady c.t 1 j = true
   let started (js jp : Enc → SIss → List MatJob) (k : BitVec 2) (_ : State) (x : Enc) (c : SIss) (u : Team) : Prop :=
     u = { c.t with seq := some { c.q with jobs := c.q.jobs ++ js x c, jobsP := c.q.jobsP ++ jp x c, shares := k } }
   let rest (js jp : Enc → SIss → List MatJob) (s : State) (x : Enc) (c : SIss) (u : Team) : Prop :=
     u = { c.t with seq := some { seqNext s x c (c.q.pc + 1) with
       jobs := c.q.jobs ++ js x c, jobsP := c.q.jobsP ++ jp x c, shares := 0 } }
   let jh (x : Enc) (c : SIss) : List MatJob := [(shares x c).1]
   let jp (x : Enc) (c : SIss) : List MatJob := (shares x c).2.toList
   let no (_ : Enc) (_ : SIss) : List MatJob := []
   SeqCompletes .gang .gang (fun _ x c => pre 0 x c ∧ home x c ∧ ((shares x c).2 = none ∨ other x c)) (given jh jp) ∧
   SeqCompletes .gang .gang (fun _ x c => pre 0 x c ∧ home x c ∧ (shares x c).2 ≠ none ∧ ¬ other x c) (started jh no 1) ∧
   SeqCompletes .gang .gang (fun _ x c => pre 0 x c ∧ ¬ home x c ∧ other x c) (started no jp 2) ∧
   SeqCompletes .gang .gang (fun _ x c => pre 1 x c ∧ other x c) (rest no jp) ∧
   SeqCompletes .gang .gang (fun _ x c => pre 2 x c ∧ home x c) (rest jh no)) ∧
  SeqCompletes .scacc .scacc (fun _ x c => scaccOk c.t (sget c.q.q x.a.idx) (scaccJob c) = true ∧
    slotsReady c.t 0 (scaccJob c) = true) (given (fun _ c => [scaccJob c]) (fun _ _ => [])) ∧
  ∀ (tid side : Nat) (t : Team) (q : Seq) (j : MatJob) (rest : List MatJob), StepGives (.arrayStep tid side false)
    (fun s => mget s.teams tid = some t ∧ t.seq = some q ∧ jobsOf q side = j :: rest ∧ t.held = false ∧ q.stopped = false ∧
      ∀ e ∈ s.groups, e.2.inj = none)
    (fun s =>
      let k := coreOf s (sideCore t side)
      let out := if j.scacc then scaccStep t side k.acc k.accPoison j else productStep t side k.acc j
      let s2 := modCore s (sideCore t side) (fun c => { c with
        acc := out.cells.foldl (fun a w => cellPut a w.1 w.2.1) c.acc
        accPoison := out.cells.foldl (fun p w => if w.2.2 then cellTaint p w.1 else p) c.accPoison })
      retireTeam (modSeq s2 tid (fun q => setJobs { q with flags := q.flags ||| out.flags } side
        (if j.scacc || stepsOf j * blocksOf j ≤ j.pos + 1 then rest else { j with pos := j.pos + 1 } :: rest))) tid)

/-- ACC.ZERO writes +0 in every cell of its window and in no other (R310); ACC.LOAD and ACC.STORE make the access of their
window (R310, R312): where no row fails, and no part of it was performed before (R129, log entry 89), a load reads its cells
in order into the accumulator store, a store writes them in the sequencer's store order, with the acquire or release of
ORDER, and the sequencer goes on. ACC.MOVE sends cells to a group's registers (R311). -/
def Obligations.AccumulatorInstructions : Prop :=
  let win (x : Enc) (c : SIss) : Window := windowFrom (sget c.q.q x.d.idx)
  let inWin (x : Enc) (c : SIss) (k : Nat) : Prop := ∃ r i, r < (win x c).rows ∧ i < (win x c).cols ∧
    k ∈ cellWords (accView x) ((win x c).r0 + r) ((win x c).c0 + i)
  let ok (x : Enc) (c : SIss) : Prop := parOk c = true ∧ windowOk (accView x) (win x c) = true ∧ arrayIdle c.q = true
  (∀ s x c, IssuesQ s .accZero x c → ok x c → ∃ t, exec (.accZero x) s = .next t ∧
    let core := sideCore c.t (accSide x)
    t = { s with cores := t.cores, teams := t.teams } ∧
    mget t.teams c.tid = some { c.t with seq := some (seqNext s x c (c.q.pc + 1)) } ∧
    (∀ k, k ≠ c.tid → mget t.teams k = mget s.teams k) ∧ (∀ k, k ≠ core → mget t.cores k = mget s.cores k) ∧
    coreOf t core = { coreOf s core with acc := (coreOf t core).acc, accPoison := (coreOf t core).accPoison } ∧
    (∀ k, inWin x c k → sget (coreOf t core).acc k = 0) ∧
    ∀ k, ¬ inWin x c k → sget (coreOf t core).acc k = sget (coreOf s core).acc k) ∧
  (let mem (i : Enc → Instr) (op : Op) (kind : Nat) : Prop :=
    GivesQ i op (fun s x c => ok x c ∧ memReady s c.t.part = true ∧
        (kind = 1 → isRelease x.order = true → seqReleaseWaits s c.t x.scope = false) ∧ (sget c.q.q x.a.idx).toNat % accBytesOf x = 0 ∧ qBytes c.q x x.b % accBytesOf x = 0)
      (fun s x c => paced c (performSeq s c.tid
        { pc := c.q.pc, kind, e := accBytesOf x, side := accSide x, win := win x c, base := (sget c.q.q x.a.idx).toInt
          pitch := qBytes c.q x x.b, rows := List.range (win x c).rows, order := x.order, scope := x.scope
          h1 := x.h1.toNat, h2 := x.h2.toNat }))
   mem .accLoad .accLoad 0 ∧ mem .accStore .accStore 1) ∧
  (∀ (s : State) (tid : Nat) (t : Team) (q : Seq) (a : SeqAcc), mget s.teams tid = some t → t.seq = some q → q.only = none →
    q.early = [] → (∀ r ∈ a.rows, rowFail s t a r = none) →
    let cells := a.rows.flatMap (fun r => (List.range a.win.cols).map (fun k => (r, k)))
    let ready (u : State) : State := modSeq u tid (fun q => { q with only := none })
    let wide := seqWide t a.scope
    (a.kind = 0 ∨ a.kind = 2 → performSeq s tid a = seqDone (cells.foldl (performCell t tid a)
      (ready (if wide && isAcquire a.order then l1DropClean s t.home else s))) tid a) ∧
    (a.kind ≠ 0 → a.kind ≠ 2 →
      let u := seqStore (ready (if wide && isRelease a.order then l1WriteBackAll s t.home else s)) t tid a cells
      performSeq s tid a = seqDone (if wide && isRelease a.order then l1WriteBackAll u t.home else u) tid a)) ∧
  ∀ (gid : Nat) (g : Group), GivesQ .accMove .accMove (fun s x c => targetGroup s c = some (gid, g) ∧ parOk c = true ∧
      g.core = sideCore c.t (accSide x) ∧ moveReg x + moveCount x ≤ g.nv ∧
      (x.ty = .f64 → moveReg x % 2 = 0 ∧ moveCount x % 2 = 0) ∧
      (∀ j i, j < moveCount x → i < g.width →
        cellInView (accView x) (moveCell x (win x c) j i).1 (moveCell x (win x c) j i).2 = true) ∧
      arrayIdle c.q = true ∧ targetFree g x = true)
    (fun s x c =>
      let k := coreOf s (sideCore c.t (accSide x))
      sendData s c gid g (if x.ty = .f64 then 2 else 1) (fun j i =>
        let ws := cellWords (accView x) (moveCell x (win x c) j i).1 (moveCell x (win x c) j i).2
        (BitVec.ofNat 32 (cellGet k.acc ws / 2 ^ (if x.ty = .f64 then 32 * (j % 2) else 0)), cellBad k.accPoison ws)))

/-- BLD.BUILD, BLD.REFIT, BLD.REBAL and BLD.PUBLISH hand an operation to Tailor and their split waits (R383);
TAILOR_OPERATION_END performs the first operation of its structure once the Tailor of its die is ready, and sd receives the
status (R378, R383). BLD.STAT reads a figure of the descriptor (R385). GEN.PIN takes the current generation before it gives up
an earlier pin, and GEN.UNPIN gives up the pin (R375, R386); where the pinned descriptor cannot be reached, both give up
nothing, are recorded and wait for REPLAY (R218). -/
def Obligations.TailorAndPins : Prop :=
  let hands (i : Enc → Instr) (op : Op) (kind : Nat) : Prop :=
    Gives i op (fun _ x c => SameInCopies c x.a ∧ c.sp.wait ≠ .tailor) (fun s x c =>
      waitAs { s with
        nextOp := s.nextOp + 1
        tailor := s.tailor ++ [{ id := s.nextOp, kind, gid := c.gid, split := c.j, pc := c.sp.pc, d := x.d.idx
                                 desc := uniOperand c.g x 0 x.a, core := c.g.core, part := c.g.part
                                 ctx := c.g.ctx }] } c .tailor)
  hands .bldBuild .bldBuild 0 ∧ hands .bldRefit .bldRefit 1 ∧ hands .bldRebal .bldRebal 2 ∧
  hands .bldPublish .bldPublish 3 ∧
  (∀ (id n : Nat) (o : TailorOp) (g : Group) (s1 : State),
    let q (s : State) : Accessor := engAcc g.part g.ctx (chainOf s g)
    StepGives (.tailorOperationEnd id)
    (fun s => s.tailor.find? (fun o => o.id == id) = some o ∧ mget s.groups o.gid = some g ∧ o.faulted = false ∧
      behind s o = false ∧ readyBit s 7 (17 + clusterOfCore o.core / 8) = true ∧ engineTurn s g.part 2 = true ∧
      runTailor (touchAll s (q s) (chainOf s g) (tailorReads s (q s) o)) (q s) o (chainOf s g) = .status n s1)
    (fun _ => modGroup { s1 with tailor := s1.tailor.filter (fun e => e.id != o.id) } o.gid (fun g =>
      modIssued (putScalar g o.d (fun _ => BitVec.ofNat 64 n)) o.id o.split (fun sp =>
        if sp.wait = .tailor then sp.onward s1.clk (sp.pc + 1) else sp)))) ∧
  (∀ pa : Nat,
    let b (x : Enc) (c : Iss) : Nat := (uniOperand c.g x 0 x.b).toNat
    Gives .bldStat .bldStat (fun s x c => SameInCopies c x.a ∧ SameInCopies c x.b ∧ b x c < 8 ∧ homeNow s c = true ∧
        descAt s (accessorOf c.g) (uniOperand c.g x 0 x.a) = .ok pa ∧
        ∀ y ∈ statBytes (b x c), (readHome s (pa + y.1) y.2).2 = false)
      (fun s x c => advance (onGroup (touchAll s (accessorOf c.g) (chainOf s c.g)
          ((statBytes (b x c)).map (fun y => (uniOperand c.g x 0 x.a + BitVec.ofNat 64 y.1, y.2)))) c
        (putScalar · x.d.idx (fun _ => BitVec.ofNat 64 (statOf (readDesc s pa).1 (b x c))))) c)) ∧
  (∀ (pa i : Nat),
    let pre (s : State) (x : Enc) (c : Iss) : Prop := SameInCopies c x.a ∧ homeNow s c = true ∧
      descAt s (accessorOf c.g) (uniOperand c.g x 0 x.a) = .ok pa
    let q (s : State) (c : Iss) : Accessor := engAcc c.g.part c.g.ctx (chainOf s c.g)
    let failed (s : State) (c : Iss) (f : Fail) : State :=
      uniformFail { s with nextOp := s.nextOp + 1 } c.gid c.j s.nextOp c.sp.pc c.g.genDesc f 2 8
    let done (s : State) (x : Enc) (c : Iss) (gen : Nat) (desc : BitVec 64) : State :=
      advance (onGroup (acquireAt (releasePin s c.gid) c.g 4) c (fun g =>
        { putScalar g x.d.idx (fun _ => BitVec.ofNat 64 gen) with gen := BitVec.ofNat 32 gen, genDesc := desc })) c
    let cur (s : State) : Option Nat := (readDesc s pa).1.entryOf (readDesc s pa).1.curgen
    Gives .genPin .genPin (fun s x c => pre s x c ∧ pinFault s c.g = none ∧ cur s = some i)
      (fun s x c => done (addPin (touchDesc s (q s c) pa) (q s c) pa i) x c (readDesc s pa).1.curgen
        (uniOperand c.g x 0 x.a)) ∧
    Gives .genPin .genPin (fun s x c => pre s x c ∧ pinFault s c.g = none ∧ cur s = none)
      (fun s x c => done (touchDesc s (q s c) pa) x c 0 0) ∧
    (∀ f, Gives .genPin .genPin (fun s x c => pre s x c ∧ pinFault s c.g = some f) (fun s _ c => failed s c f)) ∧
    Gives .genUnpin .genUnpin (fun s _ c => (c.g.gen ≠ 0 → homeNow s c = true) ∧ pinFault s c.g = none)
      (fun s _ c => advance (releasePin s c.gid) c) ∧
    ∀ f, Gives .genUnpin .genUnpin (fun s _ c => (c.g.gen ≠ 0 → homeNow s c = true) ∧ pinFault s c.g = some f)
      (fun s _ c => failed s c f))

/-- TRACE and PROBE begin a query for each active lane on the generation the group has pinned, or on the current one with a pin
of the instruction's own (R387); TRV.INFO waits for the count of traversals in flight or reads it (R387).
A shader's HIT instructions record the answer of each active lane that has none yet (R391); SHADER_DISPATCH sends at most 16
rays that wait for one shader out as a group (R390); TRAVERSAL_COMPLETE writes the final fields of every record, gives up the
instruction's own pin and lowers the group's count (R387), and the group that ends with it leaves its place (log entry 90). A
shader group's %gridid of 0, one candidate at a time and the free values among the final fields are log entries 24 and 2. -/
def Obligations.TraversalsBeginAndComplete : Prop :=
  (let begins (i : Enc → Instr) (op : Op) (shape : Nat) : Prop :=
     ∀ (f : Found) (s1 : State) (pa gen root e : Nat) (prims : BitVec 64) (own : Bool),
       let desc := BitVec.ofNat 512 (leNat f.bytes)
       let struct := BitVec.ofNat 64 (travField desc 0 8)
       let q (s : State) (c : Iss) : Accessor := engAcc c.g.part c.g.ctx (chainOf s c.g)
       let touched (s : State) (c : Iss) : State := touchDesc s1 (q s c) pa
       Gives i op (fun s x c => SameInCopies c x.a ∧
           (c.g.lined = true → ∀ l ∈ lanesOf c.act, recordOf c l = recordOf c (l + c.g.width)) ∧ c.g.trvCount < 255 ∧
           c.g.replayG = none ∧ earlierReads s c.gid c.g s.nextOp = false ∧ memReady s c.g.part = true ∧
           readAcc { s with nextOp := s.nextOp + 1 } c.gid s.nextOp 0 0
             (accAt 0 (uniOperand c.g x 0 x.a).toInt 64 64 0) = (.ok f, s1) ∧
           f.poisoned = false ∧ travBad desc = false ∧ descAt s1 (accessorOf c.g) struct = .ok pa ∧
           chooseGen (touched s c) c pa struct = some (gen, root, prims, own) ∧
           (readDesc (touched s c) pa).1.entryOf gen = some e)
         (fun s _ c => beginTrav c (if own then acquireAt (addPin (touched s c) (q s c) pa e) c.g 4 else touched s c) shape
           s.nextOp 0 desc gen root prims own)
   begins .trace .trace 0 ∧ begins .probeSph .probeSph 1 ∧ begins .probeBox .probeBox 2 ∧
   GoesOn .trvInfoWait .trvInfoWait (fun _ x c => SameInCopies c x.b ∧
     c.g.trvCount ≤ (uniOperand c.g x 0 x.b).toNat % 256) ∧
   WritesScalar .trvInfoCnt .trvInfoCnt (fun _ _ _ => True) (fun _ _ c _ => BitVec.ofNat 64 c.g.trvCount)) ∧
  ((let answers (i : Enc → Instr) (op : Op) (code : Nat) (val : Iss → Nat → W32) : Prop :=
     ∀ h : ShaderCtx, Completes i op (fun _ _ c => c.g.shader = some h) id
       (fun _ _ c g' => AtPc c g' (c.sp.pc + 1) ∧ ∃ as, g' = { c.g with
           shader := some { h with answers := as }, splits := g'.splits } ∧
         ∀ l, mget as l = if l < 64 ∧ c.act.getLsbD l = true ∧ mget h.answers l = none then some (code, val c l)
           else mget h.answers l)
    answers .hitAccept .hitAccept 1 (fun c l => (readOperand c.g c.x .one l c.x.a).setWidth 32) ∧
    answers .hitIgnore .hitIgnore 2 (fun _ _ => 0) ∧ answers .hitEnd .hitEnd 3 (fun _ _ => 0)) ∧
   (∀ (id kind block : Nat) (t : Trav) (s1 : State), StepGives (.shaderDispatch id kind)
     (fun s0 =>
       let s := progress s0 id
       s.travs.find? (fun t => t.id == id) = some t ∧ engineTurn s t.part 1 = true ∧ shaderRays t kind ≠ [] ∧
       t.rootFaulted = false ∧ (partOf s t.part).state = 0 ∧ 1 ≤ kind ∧ kind ≤ 3 ∧
       (List.range (travField t.desc 48 2)).find? (fun b => !(blocksUsed s t).contains b) = some block ∧
       placeTeam s t.part { id := 0, launch := shaderLaunch t kind block, ctx := t.ctx, queue := t.queue, prio := t.prio
                            gridid := 0, next := 0, total := 1 } 0 = .ok s1)
     (fun s0 =>
       let s2 := modGroup s1 (progress s0 id).nextGid (fun g => enterShader g t kind block (shaderRays t kind))
       let s3 := modTrav s2 id (fun t => { t with blocks := block :: t.blocks })
       (shaderRays t kind).foldl (fun st y => modQuery st id y.lane (fun y => { y with busy := true })) s3)) ∧
   ∀ (id : Nat) (t : Trav) (g : Group), StepGives (.traversalComplete id)
     (fun s0 =>
       let s := progress s0 id
       s.travs.find? (fun t => t.id == id) = some t ∧ engineTurn s t.part 1 = true ∧
       (∀ y ∈ t.queries, y.phase = 3 ∧ y.faulted = false ∧ recordFault s t y = none) ∧ mget s.groups t.gid = some g)
     (fun s0 =>
       let s := progress s0 id
       let s1 := (t.queries.zip (List.range t.queries.length)).foldl (fun st x =>
         (finalWrites x.1 t.gen (Config.freeValue (s.draws + x.2))).foldl (fun st w =>
           engPut st (travAcc t) t.launch.chain (x.1.record + BitVec.ofNat 64 w.1) w.2) st)
         { s with draws := s.draws + t.queries.length }
       let s2 := if t.ownPin then dropPin s1 t.part t.ctx t.struct t.gen.toNat t.launch.chain else s1
       let s3 := modGroup { s2 with travs := s2.travs.filter (fun u => u.id != id) } t.gid
         (fun g => { g with trvCount := g.trvCount - 1 })
       match mget s3.groups t.gid with
       | some g => retireGroup (acquireAt s3 g 4) t.gid
       | none => s3))

/-- A collective operation that is not refused enters flight (R404, R405, R411): its issue releases the group's earlier
accesses, at pod or system scope once no write to a peer is behind it; its number in its member set is the next, its tag is
RUNNING, and every other member is told that its buffers are reserved, a chunk of no elements (R406; the announcement is the
model's choice, log entry 86). COLL.STATUS reads a tag's status word, 0 where the tag
is IDLE; COLL.WAIT reads it once the operation has ended, frees the tag and acquires (R412; the value 0 of a COLL.WAIT on an
IDLE tag and FIRSTLOST 0xFFFF while nothing is lost are the model's choices, log entries 70 and 17).
COLL_CHUNK_ARRIVAL keeps the elements of a member (R405, R406), and the first from a member lets this member's own chunks go to
it; a chunk that comes after its member's time, and COLL_MEMBER_TIMEOUT, count that member as lost (R407; since when a member
is silent is log entry 17). A lost member enters the lost set, the set goes to every member that is not lost, and the tag's
word shows it, INCOMPLETE with the set's size and least member, the tag RUNNING still (R407, R412).
COLL_OPERATION_END ends an operation that awaits nothing more: it adds the agreed losses and
finishes the exchange (R407, R408, R412; the count of buffers it gives back is log entry 86). -/
def Obligations.CollectivesBeginAndEnd : Prop :=
  (let begins (i : Enc → Instr) (op : Op) (minor : Nat) : Prop :=
     ∀ o : CollOp, Gives i op (fun s x c =>
         let s1 := { releaseAt s c.g x.scope with nextOp := (releaseAt s c.g x.scope).nextOp + 1 }
         let r := readColl s1 (collAcc c.g) (uniOperand c.g x 0 x.a)
         SameInCopies c x.a ∧ mget c.g.tags x.kf = none ∧
         (s.colls.filter (fun o => o.part == c.g.part)).length < 64 ∧ collReady s = true ∧ releaseReady s c = true ∧
         peersBehind s x.scope = false ∧ engineTurn s c.g.part 3 = true ∧ (∀ va f n, r ≠ .fault va f n) ∧ collReason s1 minor x.scope x.ty r = 0 ∧
         newColl s1 c (releaseAt s c.g x.scope).nextOp minor r = some o ∧ o.buffers ≤ (partOf s c.g.part).rcvFree)
       (fun s x c =>
         let s1 := { releaseAt s c.g x.scope with nextOp := (releaseAt s c.g x.scope).nextOp + 1 }
         let s2 := modPart { s1 with colls := s1.colls ++ [o], collCounts := mput s1.collCounts o.setid (o.n + 1) } o.part
           (fun q => { q with rcvFree := q.rcvFree - o.buffers })
         let s3 := onGroup (bufferTouch s2 (collAcc c.g) (uniOperand c.g x 0 x.a) 64 o.chain) c (fun g => { g with
           tags := mput g.tags o.tag { st := 1, status := 0xFFFF00000001#64, scope := o.scope } })
         advance (supplyOwn { s3 with sent := s3.sent ++ (otherMembers o).map (announce o) } o) c)
   begins .collReduce .collReduce 0 ∧ begins .collBcast .collBcast 1 ∧ begins .collAllgather .collAllgather 2 ∧
   begins .collRscatter .collRscatter 3 ∧
   WritesScalar .collStatus .collStatus (fun _ _ _ => True) (fun _ x c _ => tagStatus c.g x.kf) ∧
   WritesScalar .collWait .collWait (fun _ x c => mget c.g.tags x.kf = none) (fun _ _ _ _ => 0) ∧
   ∀ t : CollTag, Gives .collWait .collWait (fun _ x c => mget c.g.tags x.kf = some t ∧ t.st = 2)
     (fun s x c => advance (acquireAt (onGroup s c (fun g =>
       { putScalar g x.d.idx (fun _ => t.status) with tags := mdel g.tags x.kf })) c.g t.scope) c)) ∧
  ((∀ (p m chunk : Nat) (key : CollKey) (data : List (BitVec 64)) (poisoned : List Nat) (o : CollOp),
     let here (s : State) : Prop := s.colls.find? (fun o => o.part == p && o.setid == key.setid && o.n == key.n) = some o ∧
       (s.colls.map (·.id)).Nodup ∧ m ≠ o.self ∧ m < o.members.length ∧ m ∉ o.lost ∧ o.ending = false
     StepGives (.collChunkArrival p m chunk key data poisoned)
       (fun s => here s ∧ (arrived o m = true ∨ collLate s o m = false) ∧ collKeyOf o = key ∧ elemBytes o.ty * data.length ≤ 4096 ∧ chunk + data.length ≤ supplies o m)
       (fun s =>
         let keys := (List.range data.length).map (fun i => collKey m (chunk + i))
         let s1 := modColl s o.id (fun _ => { o with
           got := (keys.zip data).foldl (fun g e => mput g e.1 e.2) o.got
           poisoned := (poisoned.filter (· < data.length)).foldl (fun l i => addOnce l (collKey m (chunk + i))) o.poisoned
           heard := mput o.heard m s.mantle.time })
         if o.read = true ∧ mget o.heard m = none then { s1 with sent := s1.sent ++ ownChunks o m } else s1) ∧
     StepGives (.collChunkArrival p m chunk key data poisoned)
       (fun s => here s ∧ (arrived o m = true ∨ collLate s o m = false) ∧ collKeyOf o ≠ key)
       (fun s => modColl s o.id (fun _ => { o with mismatch := true })) ∧
     StepGives (.collChunkArrival p m chunk key data poisoned)
       (fun s => here s ∧ arrived o m = false ∧ collLate s o m = true) (fun s => loseMember s o m)) ∧
   (∀ (id m : Nat) (o : CollOp), StepGives (.collMemberTimeout id m)
     (fun s => collGet s id = some o ∧ m ≠ o.self ∧ m < o.members.length ∧ o.ending = false ∧ arrived o m = false ∧
       m ∉ o.lost ∧ mgetD o.heard m o.since + 1000 * max 10 (partOf s o.part).collTimeout.toNat ≤ s.mantle.time)
     (fun s => loseMember s o m)) ∧
   (∀ (s : State) (o : CollOp) (m : Nat) (k : CollOp) (g : Group) (t : CollTag), collGet s o.id = some k →
     (s.colls.map (·.id)).Nodup → mget s.groups o.gid = some g → mget g.tags o.tag = some t →
     let lost := insertNat o.lost m
     let known := { o with lost := lost }
     let s' := loseMember s o m
     collGet s' o.id = some { k with lost := lost } ∧
     s'.sent = s.sent ++ (((List.range o.members.length).filter (fun j => j != o.self)).filter
       (fun j => !lost.contains j)).map (fun j =>
         .lostSet (collMember o j).pod (collMember o j).accid (collKeyOf known) o.self lost) ∧
     (∃ g', mget s'.groups o.gid = some g' ∧ mget g'.tags o.tag = some { t with st := 1, status := runningStatus known }) ∧
     (∀ gid, gid ≠ o.gid → mget s'.groups gid = mget s.groups gid) ∧ s'.mem = s.mem ∧ s'.parts = s.parts) ∧
   ∀ (id : Nat) (lost : List Nat) (o : CollOp),
     let all := (lost.filter (fun m => m < o.members.length)).foldl insertNat o.lost
     StepGives (.collOperationEnd id lost)
       (fun s => collGet s id = some o ∧ o.ending = false ∧ engineTurn s o.part 3 = true ∧
         (o.mismatch = true ∨ o.self ∈ all ∨
           ∀ m, m < o.members.length → m ∈ all ∨ (if m = o.self then o.read = true else arrived o m = true)))
       (fun s => finishColl (modColl s id (fun _ => { o with lost := all, ending := true }))
         { o with lost := all, ending := true }))

/-! ### The front-end, pre-emption, repair and the platform (spec/03, spec/19, spec/21, spec/25, spec/27) -/

/-- The head packet of an idle queue whose turn it is is read whole and its queue's head goes past it (R66 to R68, R422): a LAUNCH
enters the distributor or is refused, TASKS leaves a graph of its table, a FENCE blocks its queue until all its entries hold at
once, and SIGNAL and CHAIN.END are performed once the work of the earlier packets has retired, SIGNAL as a release at system
scope, once the place it names can be written and no write to a peer is behind it, with every L1 of the partition written back
(the wait in place of a fault is log entry 44, the L1s are log entry 55). The tail word moves the tail, and STOP written to 0
lets a stopped queue go on, with REFUSED as software left it in the status word (log entry 35).
TEAM_PLACE places the next team of a launch, or a whole CORES_ALL grid, on cores that have room, and with the last one the
launch's packet is performed (R67, R69 to R71). -/
def Obligations.PacketsAndTeamsAreServed : Prop :=
  (∀ (p q : Nat),
     let passed (s : State) (bs : List (BitVec 8)) : State :=
       passPacket (touchPacket (serveQueue s p q) p (queueOf s p q) bs.length) p q bs
     let heads (type : Nat) (k : Packet) (bs : List (BitVec 8)) (s : State) : Prop :=
       let u := queueOf s p q
       queueIdle s p u = true ∧ queueTurn s p q = true ∧ (∃ h b, readRing s p u 1 u.head.toNat = .ok (h, b) ∧ fieldAt h 0 1 = type) ∧
       headPacket s p u = .packet k bs
     let waits (type : Nat) (bs : List (BitVec 8)) (s : State) : Prop :=
       let u := queueOf s p q
       queueRuns s p u = true ∧ u.waiting = bs ∧ bs ≠ [] ∧ fieldAt bs 0 1 = type ∧ earlierRetired s p q = true ∧
       queueTurn s p q = true
     (∀ (l : Launch) (bs : List (BitVec 8)),
       StepGives (.launchPacket p q) (fun s => heads 1 (.launch l) bs s ∧
           launchAllowed (passed s bs) p (queueCtx (queueOf (passed s bs) p q)) l = true)
         (fun s =>
           let s1 := passed s bs
           let u := queueOf s1 p q
           let a := admitLaunch s1 p (queueCtx u) (queuePrio u) (some q) l none
           modQueue a.2 p q (fun u => { u with placing := some a.1 })) ∧
       StepGives (.launchPacket p q) (fun s => heads 1 (.launch l) bs s ∧
           launchAllowed (passed s bs) p (queueCtx (queueOf (passed s bs) p q)) l = false)
         (fun s => refuseLaunch (passed s bs) p q)) ∧
     (∀ (n : Nat) (table : BitVec 64) (bs : List (BitVec 8)) (s : State), s.mantle.powered = true → heads 5 (.tasks n table) bs s →
       tableReached s p (queueCtx (queueOf s p q)) table n = true →
       ∃ t, exec (.tasksPacket p q) s = .next t ∧
         (queueOf t p q).head = (queueOf s p q).head + BitVec.ofNat 64 bs.length ∧
         ∃ g ∈ (partOf t p).graphs, g.table = table ∧ g.n = n ∧ g.queue = q) ∧
     (∀ (es : List (BitVec 64 × BitVec 64)) (bs : List (BitVec 8)), StepGives (.fencePacket p q) (heads 2 (.fence es) bs)
       (fun s => modQueue (passed s bs) p q (fun u => { u with fence := es }))) ∧
     StepGives (.fencePacketPerform p q)
       (fun s => let u := queueOf s p q
         queueRuns s p u = true ∧ u.fence ≠ [] ∧ queueTurn s p q = true ∧ ∀ e ∈ u.fence, entryHolds s p u e = true)
       (fun s => let u := queueOf s p q
         modQueue (touchAll (serveQueue s p q) (queueAcc p u) 0 (u.fence.map (fun e => (e.1 &&& ~~~ 7#64, 8)))) p q
           (fun u => { u with fence := [] })) ∧
     (∀ (bs old : List (BitVec 8)) (b : Bool) (s2 : State), StepGives (.signalPacket p q)
       (fun s =>
         let u := queueOf s p q
         let a := BitVec.ofNat 64 (fieldAt bs 16 8)
         let v := BitVec.ofNat 64 (fieldAt bs 24 8)
         let add := fieldAt bs 2 1 = 1
         let s1 := releaseAll (serveQueue s p q) p
         let read := if add then engineTouch s1 (queueAcc p u) a 8 0 else s1
         waits 3 bs s ∧ signalReached s p u = true ∧
         frontRead read (queueAcc p u) a 8 (if add then .r else .none) = .ok (old, b) ∧
         engineWrite read (queueAcc p u) a (leBytes 8 (if add then BitVec.ofNat 64 (leNat old) + v else v).toNat) 0 .w = .ok s2)
       (fun _ => modQueue s2 p q (fun u => { u with waiting := [] }))) ∧
     (∀ bs : List (BitVec 8), StepGives (.chainEnd p q) (waits 4 bs)
       (fun s =>
         let s1 := modQueue (serveQueue s p q) p q (fun u => { u with waiting := [] })
         if fieldAt bs 2 1 % 64 = 0 then s1 else demoteChain s1 p (fieldAt bs 2 1 % 64))) ∧
     (∀ (bs : List (BitVec 8)) (b : Bool),
       let word : BitVec 64 := BitVec.ofNat 64 (leNat bs)
       let reads (s : State) : Prop := let u := queueOf s p q
         queueEnabled u = true ∧ (partOf s p).state = 0 ∧ frontReady s = true ∧
         frontRead s (queueAcc p u) u.w2 8 .r = .ok (bs, b) ∧ word.toNat % 16 = 0 ∧
         (word - u.head).toNat ≤ queueSize u
       StepGives (.queueTailWrite p q) (fun s => (queueOf s p q).stop = 0 ∧ reads s)
         (fun s => modQueue (engineTouch s (queueAcc p (queueOf s p q)) (queueOf s p q).w2 8 0) p q
           (fun u => { u with tail := word })) ∧
       ∀ (ws : List (BitVec 8)) (c : Bool), StepGives (.queueStatusWrite p q)
         (fun s => let u := queueOf s p q
           u.stop ≠ 0 ∧ reads s ∧ frontRead s (queueAcc p u) (u.w3 + 8) 8 .r = .ok (ws, c) ∧ bits (leNat ws) 0 3 = 0)
         (fun s => checkTail (modQueue (engineTouch s (queueAcc p (queueOf s p q)) ((queueOf s p q).w3 + 8) 8 0) p q (fun u => { u with
           stop := 0, offset := 0, refused := bits (leNat ws) 3 1 == 1 })) p q))) ∧
  (∀ (p id : Nat) (li : LaunchInst) (s1 : State), StepGives (.teamPlace p id)
     (fun s => (partOf s p).launches.find? (fun l => l.id == id) = some li ∧ launchHeld s p li = false ∧
       (∀ q, li.queue = some q → li.task = none → queueTurn s p q = true) ∧
       placeTeams p li (askedTeams li) li.next s = .ok s1)
     (fun _ => placedUpTo (match li.queue with
       | some q => if li.task.isSome then s1 else serveQueue s1 p q
       | none => s1) p li (li.next + askedTeams li)))

/-- EVENT_DELIVERY takes a group's first waiting event, by code and then by split, into its handler at that split's boundary, when
no handler runs (R354): the entry sets the splits aside with the interrupted instruction's EPC, leaves one split of all the
unexited lanes at the vector, and puts the event frame and its gathered addresses into the store queue (R353, R356; that a
split that a kept event holds is one whose boundary this is, is log entry 57). UNIT_HALT_STOP stops the next unit of a halted
partition and writes its record at the record's number in the stop area of the unit's context; one past the capacity, or one
that cannot be written, is not written, and the area is marked for OVERFLOW; COUNT counts the unit all the same (R360, R361).
Pre-emption (R363 to R365): a victim team whose groups are at rest acknowledges; once every victim has, they are saved in the
partition's save areas and leave their cores; the saved team that comes first is placed again with those restored with
it (those that share a store with it, together: log entry 59). -/
def Obligations.UnitsStopAndTeamsAreSaved : Prop :=
  ((∀ (gid j : Nat) (g : Group) (e : Event) (sp : Split) (vec : Pc), StepGives (.eventDelivery gid)
     (fun s => mget s.groups gid = some g ∧ firstEvent g.events = some e ∧ eventSplit g e = some (j, sp) ∧
       vectorPc s g e.code = some vec ∧ g.aside = none ∧ g.stopped = false ∧ g.region.st ≠ .committing ∧
       g.region.st ≠ .aborted ∧
       (sp.wait = .none ∨ g.kept = true ∨ (g.region.st = .waiting ∧ opensRegion g sp = true)))
     (fun s => enterHandler (modGroup s gid (fun g => { g with
       events := takeEvent e g.events, kept := g.kept && g.events.length != 1 })) gid { e with split := j } vec)) ∧
   (∀ (s : State) (gid : Nat) (g : Group) (e : Event) (sp : Split) (vec : Pc), mget s.groups gid = some g →
     mget g.splits e.split = some sp → g.region.st = .none →
     let ipc := if e.precise then e.epc else sp.pc
     let t := enterHandler s gid e vec
     t = { s with groups := t.groups, nextOp := s.nextOp + 1 } ∧
     (∀ k, k ≠ gid → mget t.groups k = mget s.groups k) ∧
     ∃ (a : Aside) (q : StoreEntry) (g' : Group), mget t.groups gid = some g' ∧
       g' = { g with aside := some a, ovf := [], storeQ := g.storeQ ++ [q]
                     splits := [(0, { pc := vec, mask := g.live, age := s.clk + 1 })] } ∧
       a.splits = g.splits ∧ a.ovf = g.ovf ∧ a.split = e.split ∧ a.epc = e.epc ∧ a.ipc = ipc ∧ a.code = e.code ∧
       a.rolled = false ∧ a.mark = s.nextOp ∧
       q.accs.take 16 = storeWords g.priv (frameBytes g e ipc (entryRpc e ipc false g.region.openPc) false) 16 ∧
       (q.accs.drop 16).map (fun m => (m.addr, m.size, m.data)) =
         e.addrs.map (fun m => (g.priv + BitVec.ofNat 64 (0x80 + 8 * m.1), 8, m.2.setWidth 128))) ∧
   (∀ (s s2 : State) (p : Nat) (h : Halt) (u : StopUnit) (skid : BitVec 32), (partOf s p).halt = some h →
     let n := mgetD h.counts u.ctx 0
     let t := writeStop s p h u skid
     (∃ k, (partOf t p).halt = some k ∧ mgetD k.counts u.ctx 0 = n + 1 ∧ k.units = h.units ∧
       (stopArea s p u.ctx ≠ 0 → stopCap s p u.ctx ≤ n → u.ctx ∈ k.overran)) ∧
     ((stopArea s p u.ctx = 0 ∨ stopCap s p u.ctx ≤ n) → t.mem = s.mem ∧ t.poison = s.poison) ∧
     (stopArea s p u.ctx ≠ 0 → n < stopCap s p u.ctx →
       engineWrite (modHalt s p (fun k => { k with counts := mput k.counts u.ctx (n + 1) })) (hostAcc p u.ctx)
         (stopArea s p u.ctx + BitVec.ofNat 64 (64 * (n + 1))) (stopRecord u skid s.mantle.time) 0 .w = .ok s2 → t = s2)) ∧
   ∀ (p : Nat) (skid : BitVec 32) (h : Halt) (u : StopUnit) (rest : List StopUnit), StepGives (.unitHaltStop p skid)
     (fun s => (partOf s p).halt = some h ∧ h.units = u :: rest ∧
       unitsReady s p = true)
     (fun s => finishHalt (writeStop (modHalt s p (fun h => { h with units := rest })) p h u skid) p)) ∧
  (∀ p : Nat,
     (∀ (tid : Nat) (r : Preempt) (rs : List Preempt) (t : Team), StepGives (.preemptStopAck p tid)
       (fun s => isSageTeam s tid = false ∧ (partOf s p).preempts = r :: rs ∧ mget s.teams tid = some t ∧ tid ∈ r.victims ∧
         tid ∉ r.acked ∧ teamStopped (rollbackTeam s tid) tid t = true)
       (fun s => modPreempt (rollbackTeam s tid) p (fun r => { r with acked := r.acked ++ [tid] }))) ∧
     (∀ (r : Preempt) (rs : List Preempt) (s1 : State),
       let vs (s : State) : List Nat := r.victims.filter (fun t => (mget s.teams t).isSome)
       StepGives (.preemptSave p)
         (fun s => (partOf s p).preempts = r :: rs ∧ (partOf s p).state = 0 ∧ memReady s p = true ∧ r.faulted = none ∧
           (∀ t ∈ vs s, t ∈ r.acked) ∧ saveTeams p (partOf s p).orders (vs s) [] s = .ok s1)
         (fun s => leaveVictims s1 p { r with victims := vs s })) ∧
     ∀ (launch : Nat) (v : SavedTeam) (s1 : State), StepGives (.preemptRestore p launch)
       (fun s => firstSaved (partOf s p).saved = some v ∧ v.launchId = launch ∧ v.faulted = false ∧ (partOf s p).state = 0 ∧
         frontReady s = true ∧ memReady s p = true ∧ engineRecordWaits s p = false ∧
         placeAllSaved p (restoreClosure (partOf s p).saved (partOf s p).saved.length [v]) [] s = .ok s1)
       (fun _ => clearSaved s1 p))

/-- A free reserve core starts the job that comes first: takeover, replay, in-field test, audit, the oldest of its kind (R27).
A takeover gives the reserve core the logical number of the retired core and leaves the cluster without one (R29). A test
moves the number of the core that comes next in the rotation to the reserve core (R342). A replay writes the original core's
dirty lines back and, with its overlays resident, starts a group of the original's serial with the record's registers, at the
instruction after the REGION.OPEN, its region open and its counters zero (R329; what it keeps of the original is log entry 61).
A replay that has committed gives the original the registers live after the REGION.CLOSE, its predicates and flags, the
region none and the counters zero, and the original goes on after the REGION.CLOSE; one that met REGION.ABORT, or another
event, restores the snapshot at the abort target, or at the REGION.OPEN; an error makes the job wait again for another core,
and the third error halts the partition with MACHINE_CHECK (R329, R332).
Of an audit that has ended, equal signatures close it; otherwise it runs a third time where another cluster has a reserve
core, and the majority of three names the cluster that is quarantined (R339, R342).
TEST_PERIOD_EXPIRY sends the next core of the rotation to its test, IN_FIELD_TEST_END ends it with the core in place again, or
with a TAINT record and the cluster quarantined (R342, R343; the core still in use leaves first, log entry 61). -/
def Obligations.ReserveCoreJobs : Prop :=
  (∀ (k : Nat) (j : Job), StepGives (.reserveCoreJobStart k)
    (fun s => reserveFree s k = true ∧ nextJob s k = some j) (fun s => startJob s k j)) ∧
  (∀ (i gid n : Nat) (j : Job) (g : Group),
    let found (s : State) : Prop := s.jobs.find? (fun j => j.id == i) = some j ∧ j.ended ≠ .none
    StepGives (.darnerHandBack i) (fun s => found s ∧ j.kind = .replay gid ∧ mget s.groups gid = some g)
      (fun s => finishReplay s j gid g) ∧
    StepGives (.auditRunEnd i) (fun s => found s ∧ j.kind = .audit n) (fun s => judgeAudit s j n)) ∧
  (∀ (s : State) (k : Nat) (j : Job), nextJob s k = some j → j ∈ s.jobs ∧ wantsCluster s k j = true ∧
    ∀ i ∈ s.jobs, wantsCluster s k i = true → jobRank j.kind ≤ jobRank i.kind) ∧
  (∀ (s : State) (k n r : Nat) (j : Job), k < 32 → j.kind = .takeover n → (clusterOf s k).reserve = some r →
    let t := startJob s k j
    (clusterOf t k).reserve = none ∧ mget (clusterOf t k).map n = some r ∧ t.jobs = s.jobs.filter (fun x => x.id != j.id) ∧
    readyBit t 14 (32 + k) = true) ∧
  (∀ (s : State) (k phys r : Nat) (j : Job), j.kind = .test phys → (clusterOf s k).reserve = some r → 9 * k + r ≠ phys →
    let t := startJob s k j
    (clusterOf t k).reserve = some (phys % 9) ∧ mget (clusterOf t k).map (logicalOf s phys) = some r ∧
    (clusterOf t k).job = some j.id ∧ (coreOf t phys).inTest = true) ∧
  (∀ (s : State) (k gid core b : Nat) (j j1 : Job) (g : Group) (snap n : Snapshot), j.kind = .replay gid →
    mget s.groups gid = some g → g.region.snap = some snap → j1.kind = .replay gid → j1.orig = some g →
    let s0 := modCluster (modJob s j.id (fun i => { i with running := true })) k (fun c => { c with job := some j.id })
    let s1 := modJob (l1WriteBackAll s0 g.core) j.id (fun i => { i with
      orig := some g, team := teamOf s0 g, images := imagesOf s0 g })
    s1.jobs.find? (fun i => i.id == j.id) = some j1 →
    (s1.clusters.find? (fun e => e.2.job == some j.id)).map (·.1) = some k → reservePhys s1 k = some core →
    (∀ id ∈ startOverlays j1 g, (residentOv s1 core g.part g.ctx id).isSome = true) →
    runStart s1 core j1 g snap = .from_ n b →
    startJob s k j = modJob { s1 with
      groups := mput s1.groups s1.nextGid (jobGroup s1 core j.id g n b), nextGid := s1.nextGid + 1 } j.id
      (fun i => { i with gid := some s1.nextGid, faulted := false })) ∧
  (∀ (s : State) (core i b : Nat) (g : Group) (n : Snapshot),
    let h := jobGroup s core i g n b
    h.core = core ∧ h.job = some i ∧ h.serial = g.serial ∧ h.lined = g.lined ∧ h.vregs = n.vregs ∧ h.sregs = n.sregs ∧
    h.preds = n.preds ∧ h.fpctl = n.fpctl ∧ h.fpflags = n.fpflags ∧ h.counters = [] ∧ h.storeQ = [] ∧
    h.region.st = .opened ∧ h.region.budget = b ∧
    h.splits = [(n.entry, { n.split with pc := g.region.openPc + 1, wait := .none, age := s.clk + 1, readyAt := 0 })]) ∧
  (∀ (s : State) (j : Job) (gid r : Nat) (g rg : Group), mget s.groups gid = some g →
    (j.ended = .committed → j.gid = some r → r ≠ gid → mget s.groups r = some rg → (rg.vregs.map (·.1)).Nodup →
      (rg.sregs.map (·.1)).Nodup →
      let live := jobLive s rg j.closePc
      let t := finishReplay s j gid g
      mget t.groups r = none ∧ (∀ x ∈ t.jobs, x.id ≠ j.id) ∧
      ∃ g', mget t.groups gid = some g' ∧ g'.region = {} ∧ g'.counters = [] ∧ g'.preds = rg.preds ∧ g'.fpflags = rg.fpflags ∧
        (∀ snap, g.region.snap = some snap → g'.fpctl = snap.fpctl) ∧
        (∀ i, sget g'.vregs i = if i / 64 < live.1 then sget rg.vregs i else sget g.vregs i) ∧
        (∀ i, sget g'.sregs i = if i % 64 < live.2 then sget rg.sregs i else sget g.sregs i) ∧
        (∀ i, savedReg live.1 live.2 i = true → i < 512 → i ∉ g'.empty ∧ i ∉ g'.damaged) ∧ g'.ovf = [] ∧
        g'.splits.map (·.1) = rg.splits.map (·.1) ∧ ∀ e ∈ g'.splits, e.2.pc = j.closePc + 1) ∧
    (∀ pc, (j.ended = .aborted pc ∨ (j.ended = .event ∧ pc = g.region.openPc)) → (∀ x, j.gid = some x → x ≠ gid) →
      finishReplay s j gid g = modGroup { endRun s j with jobs := s.jobs.filter (fun x => x.id != j.id) } gid
        (fun h => restart h pc s.clk)) ∧
    (∀ pc snap, g.region.snap = some snap →
      let h := restart g pc s.clk
      h.region = {} ∧ h.preds = snap.preds ∧ h.fpctl = snap.fpctl ∧ h.fpflags = snap.fpflags ∧
      ∀ e ∈ h.splits, e.2.pc = pc ∧ e.2.wait = .none) ∧
    (j.ended = .error → g.region.tries + 1 < 3 →
      let k := ((s.clusters.find? (fun e => e.2.job == some j.id)).map (·.1)).toList
      finishReplay s j gid g = modJob (modGroup (endRun s j) gid (fun h => { h with
        region := { g.region with tries := g.region.tries + 1 } })) j.id
        (fun i => { i with running := false, ended := .none, gid := none, used := j.used ++ k })) ∧
    (j.ended = .error → 3 ≤ g.region.tries + 1 → g.job = none → (partOf s g.part).state = 0 → (∀ x, j.gid = some x → x ≠ gid) →
      let t := finishReplay s j gid g
      (partOf t g.part).state = 1 ∧ ∃ h, (partOf t g.part).halt = some h ∧ h.cause = evMachineCheck)) ∧
  (∀ (s : State) (j : Job) (s0 s1 s2 : BitVec 64),
    let k := ((s.clusters.find? (fun e => e.2.job == some j.id)).map (·.1)).toList
    let e := endRun s j
    let third := (reserveClusters s j.part).any (fun c => c != j.origin && !(j.used ++ k).contains c)
    let blamed (c flags : Nat) : State := closeAudit (quarantine (auditRecord e j 1 flags c [s0, s1, s2]) c) j
    (j.ended = .committed → j.sigs = [s0, s0] → judgeAudit s j 1 = closeAudit e j) ∧
    (j.ended = .committed → j.sigs = [s0, s1] → s0 ≠ s1 → third = true → judgeAudit s j 1 =
      modJob e j.id (fun i => { i with kind := .audit 2, running := false, ended := .none, gid := none, used := j.used ++ k })) ∧
    (j.ended = .committed → j.sigs = [s0, s1] → s0 ≠ s1 → third = false →
      judgeAudit s j 1 = closeAudit (auditRecord e j 2 4 0x1F [s0, s1]) j) ∧
    (j.ended = .committed → j.sigs = [s0, s1, s2] → s0 ≠ s1 →
      judgeAudit s j 2 = (if s1 = s2 then blamed j.origin 1 else if s0 = s2 then blamed (j.used.headD 0) 0
        else closeAudit (auditRecord e j 2 0 0x1F [s0, s1, s2]) j))) ∧
  (∀ (s : State) (k : Nat), k < 32 → (clusterOf (quarantine s k) k).quarantined = true ∧
    readyBit (quarantine s k) 6 (32 + k) = false) ∧
  (∀ (p k i : Nat), StepGives (.testPeriodExpiry p k)
    (fun s => (partOf s p).testPeriod ≠ 0 ∧ (partOf s p).clusters.getLsbD k = true ∧
      (clusterOf s k).quarantined = false ∧ testing s k = false ∧ nextInTurn s k = some i)
    (fun s =>
      let s1 := modCluster s k (fun c => { c with rotation := (i + 1) % 9 })
      let job : Job := { id := s1.nextOp, part := p, kind := .test (9 * k + i), cluster := some k, origin := k }
      let s2 := { s1 with jobs := s1.jobs ++ [job], nextOp := s1.nextOp + 1 }
      if reservePhys s k = some (9 * k + i) then s2
      else vacate (modCore s2 (9 * k + i) (fun c => { c with inTest := true })) p)) ∧
  ∀ (k phys : Nat) (pass : Bool) (j : Job), StepGives (.inFieldTestEnd k pass)
    (fun s => s.jobs.find? (fun j => j.running && j.origin == k && jobRank j.kind == 2) = some j ∧ j.kind = .test phys)
    (fun s =>
      let s1 := { s with jobs := s.jobs.filter (fun x => x.id != j.id) }
      if pass then passTest s1 k phys else failTest s1 j.part k phys)

/-- Retirement (R342 to R344): a core, a slice of registers or a cache way is retired once; a second block of slices of a core and
a third way of an L1 set retire the core, and a fifth way of an L2 set makes its slice group DEGRADED. -/
def Obligations.RetirementOfCoresSlicesAndWays : Prop :=
  (∀ core slice : Nat,
    StepGives (.coreRetire core) (fun _ => True) (fun s => retireCore s core) ∧
    StepGives (.coreRetire core) (fun s => (coreOf s core).retired = true) id ∧
    StepGives (.sliceRetire core slice) (fun s => (coreOf s core).blocks = [])
      (fun s => vacateCluster (logEvent (modCore s core (fun c => { c with blocks := [slice / 8] })) "SLICE_RETIRED"
        [core, slice]) (clusterOfCore core)) ∧
    StepGives (.sliceRetire core slice)
      (fun s => (coreOf s core).blocks ≠ [] ∧ slice / 8 ∉ (coreOf s core).blocks) (fun s => retireCore s core)) ∧
  ∀ (u set way : Nat),
    let log (l2 : Bool) (s : State) : State := logEvent s "WAY_RETIRED" [l2.toNat, u, set, way]
    let gone (s : State) : List Nat := mgetD (mgetD s.slices u {}).retired set []
    StepGives (.wayRetire true u set way) (fun s => way ∉ gone s ∧ (gone s).length < 4)
      (fun s => retireL2Way (log true s) u set way) ∧
    StepGives (.wayRetire true u set way) (fun s => way ∉ gone s ∧ 4 ≤ (gone s).length)
      (fun s => setReady (log true s) 14 (u / 64) true) ∧
    StepGives (.wayRetire false u set way) (fun s => way ∉ mgetD (coreOf s u).l1Retired set [] ∧ (mgetD (coreOf s u).l1Retired set []).length < 2)
      (fun s => retireL1Way (log false s) u set way) ∧
    StepGives (.wayRetire false u set way) (fun s => way ∉ mgetD (coreOf s u).l1Retired set [] ∧ 2 ≤ (mgetD (coreOf s u).l1Retired set []).length)
      (fun s => retireCore (log false s) u)

/-- A ready HBM channel serves its next request: it leaves the queue, its latency is counted in its bucket, an activation counts
for its row's entry, a free entry, or its row group's pool (R347, R349), and of a read's burst one lost lane is corrected and
counted, more poison its parts (R321). A row or pool whose activations reach the threshold is refreshed under a hold of
its bank, which counts; a refresh window starts the counts again (R347 to R349); a failing row takes a spare of its bank group
(R344; that the row's number carries its bank is the model's choice, log entry 79), a failing pin a spare lane after the channel
is retrained (R345). -/
def Obligations.HbmChannelSteps : Prop :=
  ∀ ch bank : Nat,
    (∀ (act : Bool) (ns : Nat) (lanes : List Nat), StepGives (.hbmRequest ch act ns lanes)
      (fun s => channelReady s ch = true) (fun s => completeRequest s ch act ns lanes)) ∧
    (∀ (s : State) (act : Bool) (ns a : Nat) (w : Bool) (lanes : List Nat),
      let c := chanOf s ch
      (served c).find? (mayGo c) = some (a, w) →
      let t := completeRequest s ch act ns lanes
      let d := chanOf t ch
      let k := bankAt c (bankOf a)
      let k' := bankAt d (bankOf a)
      let row := physRow c (bankOf a) (rowOf a)
      d.queue = dropFirst (mayGo c) c.queue ∧
      d.lat = sput c.lat (latencyBucket ns) (sget c.lat (latencyBucket ns) + 1) ∧
      (act = false → d.banks = c.banks) ∧
      (act = true → (∀ n, mget k.rows row = some n → mget k'.rows row = some (n + 1) ∧ k'.pools = k.pools) ∧
        (mget k.rows row = none → k.rows.length < 512 → mget k'.rows row = some 1 ∧ k'.pools = k.pools) ∧
        (mget k.rows row = none → 512 ≤ k.rows.length → k'.rows = k.rows ∧
          mget k'.pools (row / 1024) = some (mgetD k.pools (row / 1024) 0 + 1))) ∧
      ((w = true ∨ lanes = []) → t.poison = s.poison ∧ d.corrected = c.corrected) ∧
      (∀ l, w = false → lostIn lanes 0 = [l] → lostIn lanes 1 = [] → t.poison = s.poison ∧
        mget d.corrected l = some (mgetD c.corrected l 0 + 1)) ∧
      (∀ l l' ls, w = false → lostIn lanes 0 = l :: l' :: ls → lostIn lanes 1 = [] →
        t.poison = (addPoison s (a / 128) 0x0F#8).poison ∧ d.corrected = c.corrected)) ∧
    (∀ (n : Nat), StepGives (.rfmThreshold ch bank)
      (fun s => (chanOf s ch).paused = false ∧ (bankAt (chanOf s ch) bank).held = false ∧
        nextDue (bankAt (chanOf s ch) bank) = some n)
      (fun s => logEvent (modBank s ch bank (fun k => { k with
        due := k.due.filter (· != n), held := true
        rows := if n % 2 = 0 then mput k.rows (n / 2) 0 else k.rows
        pools := if n % 2 = 0 then k.pools else mput k.pools (n / 2) 0 })) "RFM" [ch / 32, ch % 32, bank, n / 2, n % 2])) ∧
    (∀ ns : Nat, StepGives (.rfmHoldEnd ch bank ns) (fun s => (bankAt (chanOf s ch) bank).held = true)
      (fun s => modBank s ch bank (fun k => { k with
        held := false, holds := k.holds + 1, heldNs := k.heldNs + BitVec.ofNat 32 ns }))) ∧
    StepGives (.refreshWindowEnd ch bank) (fun _ => True)
      (fun s => modBank s ch bank (fun k => { k with rows := [], pools := [] })) ∧
    (∀ (group row spare : Nat),
      let key := 262144 * group + row
      let room (s : State) : Prop := (mget (chanOf s ch).remap key).isSome = true ∨
        ((chanOf s ch).remap.filter (fun e => e.1 / 262144 == group)).length < 64
      StepGives (.rowRemap ch group row spare) room
        (fun s => logEvent (modChan s ch (fun c => { c with remap := mput c.remap key spare })) "ROW_REMAP"
          [ch, group, row, spare]) ∧
      StepGives (.rowRemap ch group row spare) (fun s => ¬ room s) (fun s => degradeChannel s ch)) ∧
    ∀ l : Nat,
      StepGives (.dqRepair ch l) (fun s => mget (chanOf s ch).spares (l / 16) = none ∧ (chanOf s ch).paused = false)
        (fun s => modChan s ch (fun c => { c with
          paused := true, drain := (chanOf s ch).queue.length, repairing := some l })) ∧
      StepGives (.dqRepair ch l) (fun s => (mget (chanOf s ch).spares (l / 16)).isSome = true) (fun s => degradeChannel s ch) ∧
      StepGives (.retrainComplete ch) (fun s => (chanOf s ch).repairing = some l ∧ (chanOf s ch).drain = 0)
        (fun s => logEvent (resumeChannel s ch (mput (chanOf s ch).spares (l / 16) l)) "PIN_REPAIR" [ch, l]) ∧
      StepGives (.pinRepairTimeout ch) (fun s => (chanOf s ch).repairing = some l)
        (fun s => logEvent (resumeChannel s ch (chanOf s ch).spares) "PIN_REPAIR_FAILED" [ch, l])

/-- A peer's request to memory that its partition admits is performed, any other is refused (R399); an admitted append that fits
puts its packets in the queue's ring and moves the tail (R400); a retry sends the port's requests from the failed one on again,
in their first order (R133); an error response ends the request that it answers (R399; the kinds of a request are log entry 18).
An RDMA write or read whose key grants it is performed and answered, any other is answered by a NAK; a datagram of a known
queue pair lands in its ring, and any other frame is dropped (R395, R396; that one of a queue pair no ring names is dropped as
such a frame is log entry 42). -/
def Obligations.FabricSteps : Prop :=
  ((∀ (src : BitVec 10) (kind p : Nat) (a : BitVec 41) (data : List (BitVec 8)),
     let admitted (s : State) : Prop := data.length ≠ 0 ∧ data.length ≤ 256 ∧
       ownerOf s (a.toNat + data.length - 1) = some p ∧ peerAdmits s p src (fun e => e.getLsbD 25) = true ∧
       (2 ≤ kind → peerAtomicOk kind a.toNat data = true)
     StepGives (.ualinkMemoryRequest src kind a data)
       (fun s => ownerOf s a.toNat = some p ∧ admitted s ∧ engineTurn s p 4 = true)
       (fun s => performPeer s p src kind a.toNat data) ∧
     StepGives (.ualinkMemoryRequest src kind a data) (fun s => ownerOf s a.toNat = some p ∧ ¬ admitted s)
       (fun s => refusePeer s src a.toNat p) ∧
     StepGives (.ualinkMemoryRequest src kind a data) (fun s => ownerOf s a.toNat = none)
       (fun s => refusePeer s src a.toNat 0)) ∧
   (∀ (src : BitVec 10) (p q : Nat) (data t : List (BitVec 8)) (b : Bool),
     let n := data.length
     let tail : BitVec 64 := BitVec.ofNat 64 (leNat t)
     let at_ (s : State) (k : Nat) : BitVec 64 :=
       (queueOf s p q).w0 + BitVec.ofNat 64 ((tail.toNat + 16 * k) % queueSize (queueOf s p q))
     StepGives (.ualinkAppend src p q data)
       (fun s =>
         let u := queueOf s p q
         16 ≤ n ∧ n ≤ 256 ∧ n % 16 = 0 ∧ engineTurn s p 4 = true ∧ appendAdmitted s p q src (fieldAt data 0 1) = true ∧
         engineRead s (queueAcc p u) u.w2 8 .r = .ok (t, b) ∧ (tail - u.head).toNat + n ≤ queueSize u ∧
         queueEnabled u = true ∧ ∀ k, k < n / 16 → (reachRuns s (queueAcc p u) (at_ s k) 16 .w).isOk = true)
       (fun s =>
         let u := queueOf s p q
         let s1 := (List.range (n / 16)).foldl (fun st k =>
           bufferWrite st (queueAcc p u) (at_ s k) ((data.drop (16 * k)).take 16) 0) (engineTouch s (queueAcc p u) u.w2 8 0)
         send (bufferWrite s1 (queueAcc p u) u.w2 (leBytes 8 (tail.toNat + n)) 0) (.ualDone src.toNat [] false))) ∧
   (∀ port flit : Nat, StepGives (.linkLevelRetry port flit) (fun _ => True)
     (fun s =>
       let late := s.ual.filter (fun u => u.port == port && flit ≤ u.id)
       { s with ual := s.ual.filter (fun u => !(u.port == port && flit ≤ u.id)) ++ late })) ∧
   ∀ (r : Nat) (u : UalReq),
     let off (s : State) : State := { s with ual := s.ual.filter (fun x => x.id != r) }
     let found (s : State) : Prop := s.ual.find? (fun u => u.id == r) = some u
     StepGives (.ualinkErrorResponse r) (fun s => found s ∧ u.kind = 1 ∧ refusalWaits s u = false) (fun s => refuseStore (off s) u) ∧
     StepGives (.ualinkErrorResponse r) (fun s => found s ∧ u.kind = 0)
       (fun s => { s with ual := updFirst (fun x => x.id == r) (fun x => { x with refused := true }) s.ual }) ∧
     ∀ q : SliceReq, StepGives (.ualinkErrorResponse r) (fun s => found s ∧ u.kind = 2 ∧ u.req = some q)
       (fun s => finishAtom (failAtomic (off s) q { cause := evProtection, remote := true }) u.gid u.op)) ∧
  ((∀ (p ctx : Nat) (key : BitVec 32) (a : BitVec 64) (data : List (BitVec 8)),
     StepGives (.rdmaWrite p key a data)
       (fun s => ethReady s = true ∧ engineTurn s p 5 = true ∧ rdmaCtx s p key a data.length 34 = some ctx ∧
         bufferFail s (hostAcc p ctx) a data.length .w = none)
       (fun s => send (bufferWrite s (hostAcc p ctx) a data 0) (.ack p)) ∧
     StepGives (.rdmaWrite p key a data)
       (fun s => ethReady s = true ∧ engineTurn s p 5 = true ∧ rdmaCtx s p key a data.length 34 = none)
       (fun s => rdmaNak s p key a data.length)) ∧
   (∀ (p ctx n : Nat) (key : BitVec 32) (a : BitVec 64),
     StepGives (.rdmaRead p key a n)
       (fun s => ethReady s = true ∧ engineTurn s p 5 = true ∧ rdmaCtx s p key a n 33 = some ctx ∧ bufferFail s (hostAcc p ctx) a n .r = none ∧
         ∀ b ∈ bufferRead s (hostAcc p ctx) a n, b.2 = false)
       (fun s => send (bufferTouch s (hostAcc p ctx) a n 0) (.rdmaData p ((bufferRead s (hostAcc p ctx) a n).map (·.1)))) ∧
     StepGives (.rdmaRead p key a n) (fun s => ethReady s = true ∧ engineTurn s p 5 = true ∧ rdmaCtx s p key a n 33 = none)
       (fun s => rdmaNak s p key a n)) ∧
   (∀ (p n : Nat) (qpn : BitVec 24) (data : List (BitVec 8)),
     StepGives (.udSend p qpn data) (fun s => ethReady s = true ∧ engineTurn s p 5 = true ∧ ringOfQpn s p qpn = some n)
       (fun s => landDatagram s p n data) ∧
     StepGives (.udSend p qpn data)
       (fun s => ethReady s = true ∧ engineTurn s p 5 = true ∧ ringOfQpn s p qpn = none) dropFrame) ∧
   StepGives .unsupportedEthernetFrame (fun _ => True) dropFrame)

/-- Each writable register of the management window takes its writable bits of a written value, and no other register of any
partition changes; a write to one that is read-only changes nothing (R418, R419; that a LOG2 of fr_ctl outside 4 to 20 is kept
as written is the model's choice, log entry 47). The queue descriptor changes while ENABLE is 0
only, ENABLE apart (R422). While a write of tlbi_ctl waits for DONE, later writes wait behind it, in their order (R418, R420). -/
def Obligations.WindowRegisterWrites : Prop :=
  ∀ (p off : Nat) (v : BitVec 64) (q : Partition),
    let sets (lo n : Nat) (f : Nat → Partition) : Prop := lo ≤ off → off < lo + n →
      StepGives (.registerWrite p off v) (fun s => partOf s p = q ∧ q.windowWaiting = [])
        (fun s => { s with parts := mput s.parts p (f (off - lo)) })
    sets 0x000 1 (fun _ => { q with noAuditOk := v.getLsbD 16, fraction := v.extractLsb' 0 16 }) ∧
    sets 0x010 1 (fun _ => { q with auditLog := v &&& ~~~ 0xFFF#64 }) ∧
    sets 0x018 1 (fun _ => { q with auditRecords := v.extractLsb' 32 32, auditInput := v.extractLsb' 0 32 }) ∧
    sets 0x020 1 (fun _ => { q with journalBase := v &&& ~~~ 0xFFF#64, journalLog2 := v.extractLsb' 0 5 }) ∧
    sets 0x028 1 (fun _ => { q with testPeriod := v.extractLsb' 0 32 }) ∧
    sets 0x030 1 (fun _ => { q with rhThreshold := v.extractLsb' 0 16 }) ∧
    sets 0x80000 1 (fun _ => { q with collTimeout := v.extractLsb' 0 32 }) ∧
    sets 0x81000 0x800 (fun k => { q with peerAcl := sput q.peerAcl (k / 8) (v &&& 0x80000000FBFFE3FF#64) }) ∧
    sets 0x84000 0x800 (fun k => { q with rdmaKey := sput q.rdmaKey (k / 8) (v &&& keyMask (k / 8 % 4)) }) ∧
    sets 0xC0020 1 (fun _ => { q with tlbiVa := v &&& ~~~ 0xFFFF#64 }) ∧
    sets 0xC0048 1 (fun _ => { q with frLog2 := v.extractLsb' 0 5 }) ∧
    ((off - 0xC2000) / 8 % 8 < 5 → sets 0xC2000 0x400 (fun k =>
      { q with ctx := sput q.ctx (8 * (k / 64) + k / 8 % 8) (v &&& ctxMask (k / 8 % 8)) })) ∧
    (off ∈ [0xC0000, 0xC0010, 0xC0018, 0xC0058, 0xC0060] ∨ (0xC0100 ≤ off ∧ off < 0xC0188) →
      StepGives (.registerWrite p off v) (fun s => (partOf s p).windowWaiting = []) id) ∧
    StepGives (.registerWrite p off v) (fun s => (partOf s p).windowWaiting ≠ [])
      (fun s => modPart s p (fun q => { q with windowWaiting := q.windowWaiting ++ [(off, v)] })) ∧
    ∀ (k word : Nat) (u : Queue),
      let pre (s : State) : Prop := queueOf s p k = u ∧ (partOf s p).windowWaiting = []
      StepGives (.queueDescriptorWrite p k word v) (fun s => pre s ∧ word = 1 ∧ queueEnabled u = true)
        (fun s => modQueue s p k (fun _ => { u with w1 := (u.w1 &&& ~~~ (1#64 <<< 63)) ||| (v &&& (1#64 <<< 63)) })) ∧
      StepGives (.queueDescriptorWrite p k word v) (fun s => pre s ∧ word = 1 ∧ queueEnabled u = false)
        (fun s => modQueue s p k (fun _ => { u with w1 := v &&& 0x80000000000F031F#64 })) ∧
      StepGives (.queueDescriptorWrite p k word v) (fun s => pre s ∧ word = 0 ∧ queueEnabled u = false)
        (fun s => modQueue s p k (fun _ => { u with w0 := v })) ∧
      StepGives (.queueDescriptorWrite p k word v) (fun s => pre s ∧ word = 2 ∧ queueEnabled u = false)
        (fun s => modQueue s p k (fun _ => { u with w2 := v })) ∧
      StepGives (.queueDescriptorWrite p k word v) (fun s => pre s ∧ word = 3 ∧ queueEnabled u = false)
        (fun s => modQueue s p k (fun _ => { u with w3 := v })) ∧
      StepGives (.queueDescriptorWrite p k word v) (fun s => pre s ∧ word ≠ 1 ∧ queueEnabled u = true)
        (fun s => modQueue s p k (fun _ => u))

/-- The window's writes that act (R350, R420, R421, R423, R424): tlbi_ctl clears DONE and empties the TLBs of its range, DONE is
set again once nothing that used the range, which is the one that the write of tlbi_ctl named, is in flight and the dirty L1
lines are home (the write-back is the model's choice, log entry 48), fr_head and fr_base let waiting records out, part_halt
halts the partition and RELEASE lets it run again, and a 0 written to audit_stats, to a bank's rh_backoff or to a bucket of a
channel's lat_hist clears it (Table 19.7). Every write of a register or of a word of a
queue's descriptor completes, and leaves memory, the cores and the other partitions as they were (R419, R422). -/
def Obligations.WindowWritesThatAct : Prop :=
  ∀ (p : Nat) (v : BitVec 64),
    let inOrder (s : State) : Prop := (partOf s p).windowWaiting = []
    let ours (s : State) : List Nat := (s.cores.map (·.1)).filter (fun c => (partOf s p).clusters.getLsbD (clusterOfCore c))
    StepGives (.tlbiCtlWrite p v) (fun s => inOrder s ∧ (partOf s p).tlbiDone = true) (fun s => startTlbi s p v) ∧
    StepGives (.tlbiCtlWrite p v) (fun s => (partOf s p).tlbiDone = false)
      (fun s => modPart s p (fun q => { q with windowWaiting := q.windowWaiting ++ [(0xC0028, v)] })) ∧
    (∀ s : State,
      let t := startTlbi s p v
      (partOf t p).tlbiDone = false ∧ (partOf t p).tlbiLo = (partOf s p).tlbiVa ∧ t.mem = s.mem ∧ t.groups = s.groups ∧
      (∀ c, (coreOf t c).tlb = (coreOf s c).tlb.filter (fun e => !tlbInRange (tlbiRange (partOf s p) v) p e)) ∧
      ∀ k, (clusterOf t k).tlb = (clusterOf s k).tlb.filter (fun e => !tlbInRange (tlbiRange (partOf s p) v) p e)) ∧
    StepGives (.tlbiDone p)
      (fun s => (partOf s p).tlbiDone = false ∧ tlbiBlocked s p (tlbiPending (partOf s p)) = false ∧
        (∀ c ∈ ours s, dirtyReady s c = true) ∧ inOrder s)
      (fun s => modPart (modPart ((ours s).foldl (fun st c => l1WriteBackAll st c) s) p (fun q => { q with tlbiDone := true })) p
        (fun q => { q with windowWaiting := [] })) ∧
    StepGives (.frHeadWrite p v) inOrder (fun s =>
      let s1 := modPart s p (fun q => { q with frHead := v })
      drainRecords s1 p (partOf s1 p).frWaiting.length) ∧
    StepGives (.frBaseWrite p v) inOrder (fun s =>
      let s1 := modPart s p (fun q => { q with frBase := v })
      drainRecords s1 p (partOf s1 p).frWaiting.length) ∧
    (∀ cause : BitVec 8, StepGives (.haltRequest p cause) inOrder (fun s => raiseHalt s p cause.toNat [] 0 0)) ∧
    (∀ (s : State) (off k word : Nat), s.mantle.powered = true →
      (∃ t, exec (.registerWrite p off v) s = .next t ∧ t = { s with parts := t.parts } ∧
        ∀ i, i ≠ p → partOf t i = partOf s i) ∧
      ∃ t, exec (.queueDescriptorWrite p k word v) s = .next t ∧ t = { s with parts := t.parts } ∧
        (∀ i, i ≠ p → partOf t i = partOf s i) ∧ ∀ i, i ≠ k → queueOf t p i = queueOf s p i) ∧
    StepGives (.counterClear p 0x008 0) inOrder (fun s => modPart s p (fun q => { q with dropped := 0, selected := 0 })) ∧
    (∀ i ch b h : Nat, ch < 16 →
      StepGives (.counterClear p (0x10000 + 8 * (512 * i + 32 * ch + b)) 0)
        (fun s => inOrder s ∧ b < 32 ∧ i < 24 ∧ nthOf (partOf s p).halfStacks i = some h)
        (fun s => modChan s (16 * h + ch) (fun c => { c with banks := mmod c.banks b (fun k => { k with
          holds := 0, heldNs := 0 }) })) ∧
      StepGives (.counterClear p (0x40000 + 128 * (16 * i + ch) + 8 * b) 0)
        (fun s => inOrder s ∧ b < 16 ∧ i < 24 ∧ nthOf (partOf s p).halfStacks i = some h)
        (fun s => modChan s (16 * h + ch) (fun c => { c with lat := sput c.lat b 0 }))) ∧
    (∀ off, StepGives (.counterClear p off v) (fun s => inOrder s ∧ v ≠ 0) id) ∧
    ∀ s, s.mantle.powered = true → inOrder s → (partOf s p).state = 1 → (∀ h, (partOf s p).halt = some h → h.units = []) →
      ∃ t, exec (.release p) s = .next t ∧ (partOf t p).state = 0 ∧ (partOf t p).halt = none ∧ (partOf t p).launches = [] ∧ t.mem = s.mem ∧
      ∀ e ∈ t.groups, e ∈ s.groups ∧ (e.2.part = p → e.2.sageip = true)

/-- A command of Mantle's that is signed and has a higher sequence number than the last one is performed and logged; any other
is only logged (R426). LAYOUT, STAGE, ACTIVATE, QUOTE, LOG, POWER and TEST do what R415 and R426 to R429 say. An admitted
LAYOUT stops the partition, fills every half-stack that comes to it with zeros, but for the top 256 MiB of its highest, where
Sageip's tables are made, and publishes the new layout; an empty one removes the partition (R415, R417, R425). (That a refused
LAYOUT is logged is log entry 67; that ACTIVATE with nothing staged and TEST of an empty partition are refused is log
entry 100.) -/
def Obligations.MantleCommands : Prop :=
  let commands (mk : Bool → BitVec 64 → Instr) (code : Nat) (f : State → State) : Prop := ∀ (signed : Bool) (n : BitVec 64),
    StepGives (mk signed n) (fun s => signed = true ∧ s.mantle.seq.toNat < n.toNat)
      (fun s => f (logEvent { s with mantle := { s.mantle with seq := n } } "COMMAND" [code, n.toNat])) ∧
    StepGives (mk signed n) (fun s => ¬ (signed = true ∧ s.mantle.seq.toNat < n.toNat))
      (fun s => logEvent s "COMMAND_DROPPED" [code, n.toNat])
  (∀ (p : Nat) (c g : BitVec 32) (h : BitVec 24) (e u : BitVec 8),
    commands (fun b n => .layout b n p c g h e u) 1 (fun s =>
      let l : Layout := { clusters := c, sliceGroups := g, halfStacks := h, eth := e, ual := u }
      if layoutOk s p l then logEvent (applyLayout s p l) "LAYOUT" [p, c.toNat, g.toNat, h.toNat]
      else logEvent s "REQUEST_REFUSED" [1, p])) ∧
  (∀ (s : State) (p : Nat) (l : Layout),
    let q := partOf s p
    let t := applyLayout s p l
    (l.isEmpty = true → mget t.parts p = none) ∧
    (l.isEmpty = false → (partOf t p).clusters = l.clusters ∧ (partOf t p).sliceGroups = l.sliceGroups ∧
      (partOf t p).halfStacks = l.halfStacks ∧ (partOf t p).ethShare = l.eth ∧ (partOf t p).ualShare = l.ual) ∧
    (q.clusters ≠ 0 → ∀ e ∈ t.groups, e.2.part = p → e.2.sageip = true) ∧
    (∀ h a, l.halfStacks.getLsbD h = true → q.halfStacks.getLsbD h = false → 2 ^ 35 * h ≤ a →
      a < 2 ^ 35 * (h + 1) - 2 ^ 28 → sget t.mem a = 0)) ∧
  (∀ (image : List (BitVec 8)) (version : Nat) (ok : Bool), commands (fun b n => .stage b n image version ok) 2 (fun s =>
    if ok && s.mantle.minVersion ≤ version then { s with mantle := { s.mantle with
        bankA := if s.mantle.activeB then { image, version } else s.mantle.bankA
        bankB := if s.mantle.activeB then s.mantle.bankB else { image, version }, staged := true } }
    else logEvent s "REQUEST_REFUSED" [2, version])) ∧
  commands .activate 3 (fun s =>
    if s.mantle.staged then { s with mantle := { s.mantle with marked := true } } else logEvent s "REQUEST_REFUSED" [3]) ∧
  (∀ nonce : BitVec 256, commands (fun b n => .quote b n nonce) 4 (fun s =>
    send s (.answer 4 (quoteWords s nonce ++ [leNat (Config.signature ((quoteWords s nonce).flatMap (leBytes 32)))]) []))) ∧
  (∀ i : Nat, commands (fun b n => .log b n i) 5 (fun s =>
    send s (.answer 5 ((s.mantle.log.filter (fun e => i ≤ e.1)).map (·.1)) ((s.mantle.log.filter (fun e => i ≤ e.1)).map (·.2))))) ∧
  (∀ w : Nat, commands (fun b n => .power b n w) 6 (fun s =>
    if 500 ≤ w ∧ w ≤ 3600 then { s with mantle := { s.mantle with powerLimit := w } }
    else logEvent s "REQUEST_REFUSED" [6, w])) ∧
  ∀ (p : Nat) (on : Bool), commands (fun b n => .test b n p on) 7 (fun s =>
    if (partOf s p).clusters = 0 then logEvent s "REQUEST_REFUSED" [7, p]
    else modPart s p (fun q => { q with testMode := on }))

/-- Power, clock and readiness (R428, R430 to R432): the clock falls by 25 MHz to 400 at the lowest or rises to 1600 at the
highest; overtemperature removes the power, and without power every instruction is a fault; POWER_ON_RESET boots
the bank that is to be active or the other (what it keeps, and that the package stays dark where neither bank boots, are the
model's reading, log entry 64); UNIT_READY sets one READY bit, and Sageip may start. -/
def Obligations.PowerClockAndReadiness : Prop :=
  (∀ (w temp : Nat) (line : Bool),
    let next (f : State → Nat) (s : State) : State := { s with mantle := { s.mantle with watts := w, temp, mhz := f s } }
    StepGives (.clockThrottle w temp line) (fun s => s.mantle.powerLimit < w ∨ 100 ≤ temp ∨ line = true)
      (next (fun s => max 400 (s.mantle.mhz - 25))) ∧
    StepGives (.clockThrottle w temp line) (fun s => w ≤ s.mantle.powerLimit ∧ temp < 100 ∧ line = false)
      (next (fun s => min 1600 (s.mantle.mhz + 25)))) ∧
  (∀ (die : Nat) (s : State), s.mantle.powered = true → ∃ t, exec (.overtempShutdown die) s = .next t ∧
    t.mantle.powered = false ∧ t.mem = s.mem ∧ t.groups = s.groups) ∧
  (∀ (s : State) (op : Op) (x : Enc), s.mantle.powered = false → exec (Instr.ofOp x op) s = .fault .noPower) ∧
  (∀ (a b : Bool) (s : State), ∃ t, exec (.powerOnReset a b) s = .next t ∧
    t.mantle.powered = (a || b) ∧ t.mem = [] ∧ t.groups = [] ∧ t.ready = State.reset.ready ∧
    t.mantle.bankA = s.mantle.bankA ∧ t.mantle.bankB = s.mantle.bankB ∧ t.mantle.seq = s.mantle.seq ∧
    (let want := s.mantle.activeB != s.mantle.marked
     t.mantle.activeB = if (if want then b else a) then want else !want)) ∧
  ∀ word bit : Nat, StepGives (.unitReady word bit)
    (fun s => word < 8 ∧ bit < 64 ∧ (word = 6 → 32 ≤ bit → (clusterOf s (bit - 32)).quarantined = false ∧
      ∃ e ∈ (clusterOf s (bit - 32)).map, (coreOf s (9 * (bit - 32) + e.2)).retired = false))
    (fun s => (List.range 8).foldl startSageip (setReady s word bit true))
end

