-- ==== Sys2Proof/Laws/Maps.lean ====
section
/-!
SUPPORT. What the maps and stores answer after a write, and that a write keeps the canonical form of a store.
-/
namespace Sys2Proof.Machine

@[simp] theorem mget_mput {α : Type} (m : Amap α) (i j : Nat) (v : α) :
    mget (mput m i v) j = if i = j then some v else mget m j := by
  induction m with
  | nil => simp [mput, mget]
  | cons e m ih =>
    obtain ⟨k, w⟩ := e
    by_cases h1 : i < k
    · simp [mput, mget, h1]
    · by_cases h2 : i = k
      · subst h2
        by_cases h3 : i = j <;> simp [mput, mget, h3]
      · by_cases h3 : k = j
        · subst h3
          simp [mput, mget, h1, h2]
        · simp [mput, mget, h1, h2, h3, ih]

@[simp] theorem mget_mdel {α : Type} (m : Amap α) (i j : Nat) :
    mget (mdel m i) j = if i = j then none else mget m j := by
  induction m with
  | nil => simp [mdel, mget]
  | cons e m ih =>
    obtain ⟨k, w⟩ := e
    by_cases h2 : k = i
    · subst h2
      by_cases h3 : k = j <;> simp_all [mdel, mget]
    · by_cases h3 : k = j
      · subst h3
        have h4 : i ≠ k := fun h => h2 h.symm
        simp [mdel, mget, h2, h4]
      · simp [mdel, mget, h2, h3, ih]

/-- A second write of a key replaces the first. -/
theorem mput_mput {α : Type} (m : Amap α) (i : Nat) (v w : α) : mput (mput m i v) i w = mput m i w := by
  induction m with
  | nil => simp [mput]
  | cons e m ih =>
    obtain ⟨k, u⟩ := e
    by_cases h1 : i < k
    · simp [mput, h1]
    · by_cases h2 : i = k
      · subst h2; simp [mput]
      · simp [mput, h1, h2, ih]

theorem mget_mmod {α : Type} (m : Amap α) (i j : Nat) (f : α → α) :
    mget (mmod m i f) j = if i = j then (mget m j).map f else mget m j := by
  unfold mmod
  cases h : mget m i with
  | none => by_cases e : i = j <;> simp_all
  | some v => by_cases e : i = j <;> simp_all

@[simp] theorem sget_sput {w : Nat} (m : Store w) (i j : Nat) (v : BitVec w) :
    sget (sput m i v) j = if i = j then v else sget m j := by
  unfold sput sget
  by_cases h : v = 0#w <;> by_cases e : i = j <;> simp [h, e]

@[simp] theorem sget_nil {w : Nat} (i : Nat) : sget ([] : Store w) i = 0#w := rfl

theorem storeWf_mono {w : Nat} (m : Store w) (a b : Option Nat) (h : storeWf m a = true)
    (le : ∀ l, b = some l → ∃ l', a = some l' ∧ l ≤ l') : storeWf m b = true := by
  cases m with
  | nil => rfl
  | cons e m =>
    cases b with
    | none => simp_all [storeWf]
    | some l =>
      obtain ⟨l', rfl, hl⟩ := le l rfl
      simp [storeWf] at h ⊢
      exact ⟨⟨by omega, h.1.2⟩, h.2⟩

theorem storeWf_mput {w : Nat} (m : Store w) (lo : Option Nat) (i : Nat) (v : BitVec w) (h : storeWf m lo = true)
    (hi : ∀ l, lo = some l → l < i) (hv : v ≠ 0#w) : storeWf (mput m i v) lo = true := by
  induction m generalizing lo with
  | nil => cases lo <;> simp_all [mput, storeWf]
  | cons e m ih =>
    obtain ⟨k, x⟩ := e
    by_cases h1 : i < k
    · cases lo <;> simp_all [mput, storeWf]
    · by_cases h2 : i = k
      · subst h2
        cases lo <;> simp_all [mput, storeWf]
      · have h3 : k < i := by omega
        have := ih (some k) (by cases lo <;> simp_all [storeWf]) (by simpa using h3)
        have h4 : ¬ i < k := h1
        cases lo <;> simp_all [mput, storeWf, Nat.not_lt.mpr (Nat.le_of_lt h3)]

theorem storeWf_mdel {w : Nat} (m : Store w) (lo : Option Nat) (i : Nat) (h : storeWf m lo = true) :
    storeWf (mdel m i) lo = true := by
  induction m generalizing lo with
  | nil => rfl
  | cons e m ih =>
    obtain ⟨k, x⟩ := e
    have ht : storeWf m (some k) = true := by cases lo <;> simp_all [storeWf]
    by_cases h2 : k = i
    · simp only [mdel, h2, if_true]
      refine ih lo (storeWf_mono m (some k) lo ht ?_)
      rintro l rfl
      exact ⟨k, rfl, by simp [storeWf] at h; omega⟩
    · have := ih (some k) ht
      cases lo <;> simp_all [mdel, storeWf]

/-- A write keeps the canonical form of a store. -/
theorem storeWf_sput {w : Nat} (m : Store w) (i : Nat) (v : BitVec w) (h : storeWf m none = true) :
    storeWf (sput m i v) none = true := by
  unfold sput
  by_cases hv : v = 0#w
  · simpa [hv] using storeWf_mdel m none i h
  · simpa [hv] using storeWf_mput m none i v h (by simp) hv

/-- A property that every step of a fold keeps. -/
theorem foldl_keeps {α β : Type} (P : β → Prop) (f : β → α → β) (l : List α) (b : β) (h : P b)
    (step : ∀ b a, a ∈ l → P b → P (f b a)) : P (l.foldl f b) := by
  induction l generalizing b with
  | nil => exact h
  | cons a l ih => exact ih _ (step b a (by simp) h) (fun b c hc => step b c (by simp [hc]))

theorem mem_lanesOf (m : BitVec 64) (l : Nat) : l ∈ lanesOf m ↔ l < 64 ∧ m.getLsbD l = true := by
  simp [lanesOf]

end Sys2Proof.Machine
end

