-- ==== Sys2Proof/Laws/State.lean ====
section
/-!
SUPPORT. What each named update of the state, of a group and of a split leaves in each field: a later proof never unfolds
a record update.
-/
namespace Sys2Proof.Machine

/-! ### `modGroup` -/

@[simp] theorem modGroup_clk (s : State) (g : Nat) (f : Group → Group) : (modGroup s g f).clk = s.clk := rfl
@[simp] theorem modGroup_mem (s : State) (g : Nat) (f : Group → Group) : (modGroup s g f).mem = s.mem := rfl
@[simp] theorem modGroup_poison (s : State) (g : Nat) (f : Group → Group) : (modGroup s g f).poison = s.poison := rfl
@[simp] theorem modGroup_remote (s : State) (g : Nat) (f : Group → Group) : (modGroup s g f).remote = s.remote := rfl
@[simp] theorem modGroup_ual (s : State) (g : Nat) (f : Group → Group) : (modGroup s g f).ual = s.ual := rfl
@[simp] theorem modGroup_sliceQ (s : State) (g : Nat) (f : Group → Group) : (modGroup s g f).sliceQ = s.sliceQ := rfl
@[simp] theorem modGroup_slices (s : State) (g : Nat) (f : Group → Group) : (modGroup s g f).slices = s.slices := rfl
@[simp] theorem modGroup_chans (s : State) (g : Nat) (f : Group → Group) : (modGroup s g f).chans = s.chans := rfl
@[simp] theorem modGroup_ready (s : State) (g : Nat) (f : Group → Group) : (modGroup s g f).ready = s.ready := rfl
@[simp] theorem modGroup_cores (s : State) (g : Nat) (f : Group → Group) : (modGroup s g f).cores = s.cores := rfl
@[simp] theorem modGroup_clusters (s : State) (g : Nat) (f : Group → Group) : (modGroup s g f).clusters = s.clusters := rfl
@[simp] theorem modGroup_teams (s : State) (g : Nat) (f : Group → Group) : (modGroup s g f).teams = s.teams := rfl
@[simp] theorem modGroup_groups (s : State) (g : Nat) (f : Group → Group) : (modGroup s g f).groups = mmod s.groups g f := rfl
@[simp] theorem modGroup_copies (s : State) (g : Nat) (f : Group → Group) : (modGroup s g f).copies = s.copies := rfl
@[simp] theorem modGroup_tailor (s : State) (g : Nat) (f : Group → Group) : (modGroup s g f).tailor = s.tailor := rfl
@[simp] theorem modGroup_travs (s : State) (g : Nat) (f : Group → Group) : (modGroup s g f).travs = s.travs := rfl
@[simp] theorem modGroup_colls (s : State) (g : Nat) (f : Group → Group) : (modGroup s g f).colls = s.colls := rfl
@[simp] theorem modGroup_collCounts (s : State) (g : Nat) (f : Group → Group) : (modGroup s g f).collCounts = s.collCounts := rfl
@[simp] theorem modGroup_sent (s : State) (g : Nat) (f : Group → Group) : (modGroup s g f).sent = s.sent := rfl
@[simp] theorem modGroup_refitPending (s : State) (g : Nat) (f : Group → Group) : (modGroup s g f).refitPending = s.refitPending := rfl
@[simp] theorem modGroup_jobs (s : State) (g : Nat) (f : Group → Group) : (modGroup s g f).jobs = s.jobs := rfl
@[simp] theorem modGroup_cloakMons (s : State) (g : Nat) (f : Group → Group) : (modGroup s g f).cloakMons = s.cloakMons := rfl
@[simp] theorem modGroup_parts (s : State) (g : Nat) (f : Group → Group) : (modGroup s g f).parts = s.parts := rfl
@[simp] theorem modGroup_mantle (s : State) (g : Nat) (f : Group → Group) : (modGroup s g f).mantle = s.mantle := rfl
@[simp] theorem modGroup_corrected (s : State) (g : Nat) (f : Group → Group) : (modGroup s g f).corrected = s.corrected := rfl
@[simp] theorem modGroup_draws (s : State) (g : Nat) (f : Group → Group) : (modGroup s g f).draws = s.draws := rfl
@[simp] theorem modGroup_nextGid (s : State) (g : Nat) (f : Group → Group) : (modGroup s g f).nextGid = s.nextGid := rfl
@[simp] theorem modGroup_nextTid (s : State) (g : Nat) (f : Group → Group) : (modGroup s g f).nextTid = s.nextTid := rfl
@[simp] theorem modGroup_nextOp (s : State) (g : Nat) (f : Group → Group) : (modGroup s g f).nextOp = s.nextOp := rfl
@[simp] theorem modGroup_turn (s : State) (g : Nat) (f : Group → Group) : (modGroup s g f).turn = s.turn := rfl
@[simp] theorem modGroup_agenda (s : State) (g : Nat) (f : Group → Group) : (modGroup s g f).agenda = s.agenda := rfl
@[simp] theorem modGroup_phase (s : State) (g : Nat) (f : Group → Group) : (modGroup s g f).phase = s.phase := rfl

/-! ### `modTeam` -/

@[simp] theorem modTeam_clk (s : State) (g : Nat) (f : Team → Team) : (modTeam s g f).clk = s.clk := rfl
@[simp] theorem modTeam_mem (s : State) (g : Nat) (f : Team → Team) : (modTeam s g f).mem = s.mem := rfl
@[simp] theorem modTeam_poison (s : State) (g : Nat) (f : Team → Team) : (modTeam s g f).poison = s.poison := rfl
@[simp] theorem modTeam_remote (s : State) (g : Nat) (f : Team → Team) : (modTeam s g f).remote = s.remote := rfl
@[simp] theorem modTeam_ual (s : State) (g : Nat) (f : Team → Team) : (modTeam s g f).ual = s.ual := rfl
@[simp] theorem modTeam_sliceQ (s : State) (g : Nat) (f : Team → Team) : (modTeam s g f).sliceQ = s.sliceQ := rfl
@[simp] theorem modTeam_slices (s : State) (g : Nat) (f : Team → Team) : (modTeam s g f).slices = s.slices := rfl
@[simp] theorem modTeam_chans (s : State) (g : Nat) (f : Team → Team) : (modTeam s g f).chans = s.chans := rfl
@[simp] theorem modTeam_ready (s : State) (g : Nat) (f : Team → Team) : (modTeam s g f).ready = s.ready := rfl
@[simp] theorem modTeam_cores (s : State) (g : Nat) (f : Team → Team) : (modTeam s g f).cores = s.cores := rfl
@[simp] theorem modTeam_clusters (s : State) (g : Nat) (f : Team → Team) : (modTeam s g f).clusters = s.clusters := rfl
@[simp] theorem modTeam_teams (s : State) (g : Nat) (f : Team → Team) : (modTeam s g f).teams = mmod s.teams g f := rfl
@[simp] theorem modTeam_groups (s : State) (g : Nat) (f : Team → Team) : (modTeam s g f).groups = s.groups := rfl
@[simp] theorem modTeam_copies (s : State) (g : Nat) (f : Team → Team) : (modTeam s g f).copies = s.copies := rfl
@[simp] theorem modTeam_tailor (s : State) (g : Nat) (f : Team → Team) : (modTeam s g f).tailor = s.tailor := rfl
@[simp] theorem modTeam_travs (s : State) (g : Nat) (f : Team → Team) : (modTeam s g f).travs = s.travs := rfl
@[simp] theorem modTeam_colls (s : State) (g : Nat) (f : Team → Team) : (modTeam s g f).colls = s.colls := rfl
@[simp] theorem modTeam_collCounts (s : State) (g : Nat) (f : Team → Team) : (modTeam s g f).collCounts = s.collCounts := rfl
@[simp] theorem modTeam_sent (s : State) (g : Nat) (f : Team → Team) : (modTeam s g f).sent = s.sent := rfl
@[simp] theorem modTeam_refitPending (s : State) (g : Nat) (f : Team → Team) : (modTeam s g f).refitPending = s.refitPending := rfl
@[simp] theorem modTeam_jobs (s : State) (g : Nat) (f : Team → Team) : (modTeam s g f).jobs = s.jobs := rfl
@[simp] theorem modTeam_cloakMons (s : State) (g : Nat) (f : Team → Team) : (modTeam s g f).cloakMons = s.cloakMons := rfl
@[simp] theorem modTeam_parts (s : State) (g : Nat) (f : Team → Team) : (modTeam s g f).parts = s.parts := rfl
@[simp] theorem modTeam_mantle (s : State) (g : Nat) (f : Team → Team) : (modTeam s g f).mantle = s.mantle := rfl
@[simp] theorem modTeam_corrected (s : State) (g : Nat) (f : Team → Team) : (modTeam s g f).corrected = s.corrected := rfl
@[simp] theorem modTeam_draws (s : State) (g : Nat) (f : Team → Team) : (modTeam s g f).draws = s.draws := rfl
@[simp] theorem modTeam_nextGid (s : State) (g : Nat) (f : Team → Team) : (modTeam s g f).nextGid = s.nextGid := rfl
@[simp] theorem modTeam_nextTid (s : State) (g : Nat) (f : Team → Team) : (modTeam s g f).nextTid = s.nextTid := rfl
@[simp] theorem modTeam_nextOp (s : State) (g : Nat) (f : Team → Team) : (modTeam s g f).nextOp = s.nextOp := rfl
@[simp] theorem modTeam_turn (s : State) (g : Nat) (f : Team → Team) : (modTeam s g f).turn = s.turn := rfl
@[simp] theorem modTeam_agenda (s : State) (g : Nat) (f : Team → Team) : (modTeam s g f).agenda = s.agenda := rfl
@[simp] theorem modTeam_phase (s : State) (g : Nat) (f : Team → Team) : (modTeam s g f).phase = s.phase := rfl

/-! ### `modCore` -/

@[simp] theorem modCore_clk (s : State) (c : Nat) (f : PCore → PCore) : (modCore s c f).clk = s.clk := rfl
@[simp] theorem modCore_mem (s : State) (c : Nat) (f : PCore → PCore) : (modCore s c f).mem = s.mem := rfl
@[simp] theorem modCore_poison (s : State) (c : Nat) (f : PCore → PCore) : (modCore s c f).poison = s.poison := rfl
@[simp] theorem modCore_remote (s : State) (c : Nat) (f : PCore → PCore) : (modCore s c f).remote = s.remote := rfl
@[simp] theorem modCore_ual (s : State) (c : Nat) (f : PCore → PCore) : (modCore s c f).ual = s.ual := rfl
@[simp] theorem modCore_sliceQ (s : State) (c : Nat) (f : PCore → PCore) : (modCore s c f).sliceQ = s.sliceQ := rfl
@[simp] theorem modCore_slices (s : State) (c : Nat) (f : PCore → PCore) : (modCore s c f).slices = s.slices := rfl
@[simp] theorem modCore_chans (s : State) (c : Nat) (f : PCore → PCore) : (modCore s c f).chans = s.chans := rfl
@[simp] theorem modCore_ready (s : State) (c : Nat) (f : PCore → PCore) : (modCore s c f).ready = s.ready := rfl
@[simp] theorem modCore_clusters (s : State) (c : Nat) (f : PCore → PCore) : (modCore s c f).clusters = s.clusters := rfl
@[simp] theorem modCore_teams (s : State) (c : Nat) (f : PCore → PCore) : (modCore s c f).teams = s.teams := rfl
@[simp] theorem modCore_groups (s : State) (c : Nat) (f : PCore → PCore) : (modCore s c f).groups = s.groups := rfl
@[simp] theorem modCore_copies (s : State) (c : Nat) (f : PCore → PCore) : (modCore s c f).copies = s.copies := rfl
@[simp] theorem modCore_tailor (s : State) (c : Nat) (f : PCore → PCore) : (modCore s c f).tailor = s.tailor := rfl
@[simp] theorem modCore_travs (s : State) (c : Nat) (f : PCore → PCore) : (modCore s c f).travs = s.travs := rfl
@[simp] theorem modCore_colls (s : State) (c : Nat) (f : PCore → PCore) : (modCore s c f).colls = s.colls := rfl
@[simp] theorem modCore_collCounts (s : State) (c : Nat) (f : PCore → PCore) : (modCore s c f).collCounts = s.collCounts := rfl
@[simp] theorem modCore_sent (s : State) (c : Nat) (f : PCore → PCore) : (modCore s c f).sent = s.sent := rfl
@[simp] theorem modCore_refitPending (s : State) (c : Nat) (f : PCore → PCore) : (modCore s c f).refitPending = s.refitPending := rfl
@[simp] theorem modCore_jobs (s : State) (c : Nat) (f : PCore → PCore) : (modCore s c f).jobs = s.jobs := rfl
@[simp] theorem modCore_cloakMons (s : State) (c : Nat) (f : PCore → PCore) : (modCore s c f).cloakMons = s.cloakMons := rfl
@[simp] theorem modCore_parts (s : State) (c : Nat) (f : PCore → PCore) : (modCore s c f).parts = s.parts := rfl
@[simp] theorem modCore_mantle (s : State) (c : Nat) (f : PCore → PCore) : (modCore s c f).mantle = s.mantle := rfl
@[simp] theorem modCore_corrected (s : State) (c : Nat) (f : PCore → PCore) : (modCore s c f).corrected = s.corrected := rfl
@[simp] theorem modCore_draws (s : State) (c : Nat) (f : PCore → PCore) : (modCore s c f).draws = s.draws := rfl
@[simp] theorem modCore_nextGid (s : State) (c : Nat) (f : PCore → PCore) : (modCore s c f).nextGid = s.nextGid := rfl
@[simp] theorem modCore_nextTid (s : State) (c : Nat) (f : PCore → PCore) : (modCore s c f).nextTid = s.nextTid := rfl
@[simp] theorem modCore_nextOp (s : State) (c : Nat) (f : PCore → PCore) : (modCore s c f).nextOp = s.nextOp := rfl
@[simp] theorem modCore_turn (s : State) (c : Nat) (f : PCore → PCore) : (modCore s c f).turn = s.turn := rfl
@[simp] theorem modCore_agenda (s : State) (c : Nat) (f : PCore → PCore) : (modCore s c f).agenda = s.agenda := rfl
@[simp] theorem modCore_phase (s : State) (c : Nat) (f : PCore → PCore) : (modCore s c f).phase = s.phase := rfl

/-! ### `modCluster` -/

@[simp] theorem modCluster_clk (s : State) (c : Nat) (f : Cluster → Cluster) : (modCluster s c f).clk = s.clk := rfl
@[simp] theorem modCluster_mem (s : State) (c : Nat) (f : Cluster → Cluster) : (modCluster s c f).mem = s.mem := rfl
@[simp] theorem modCluster_poison (s : State) (c : Nat) (f : Cluster → Cluster) : (modCluster s c f).poison = s.poison := rfl
@[simp] theorem modCluster_remote (s : State) (c : Nat) (f : Cluster → Cluster) : (modCluster s c f).remote = s.remote := rfl
@[simp] theorem modCluster_ual (s : State) (c : Nat) (f : Cluster → Cluster) : (modCluster s c f).ual = s.ual := rfl
@[simp] theorem modCluster_sliceQ (s : State) (c : Nat) (f : Cluster → Cluster) : (modCluster s c f).sliceQ = s.sliceQ := rfl
@[simp] theorem modCluster_slices (s : State) (c : Nat) (f : Cluster → Cluster) : (modCluster s c f).slices = s.slices := rfl
@[simp] theorem modCluster_chans (s : State) (c : Nat) (f : Cluster → Cluster) : (modCluster s c f).chans = s.chans := rfl
@[simp] theorem modCluster_ready (s : State) (c : Nat) (f : Cluster → Cluster) : (modCluster s c f).ready = s.ready := rfl
@[simp] theorem modCluster_cores (s : State) (c : Nat) (f : Cluster → Cluster) : (modCluster s c f).cores = s.cores := rfl
@[simp] theorem modCluster_teams (s : State) (c : Nat) (f : Cluster → Cluster) : (modCluster s c f).teams = s.teams := rfl
@[simp] theorem modCluster_groups (s : State) (c : Nat) (f : Cluster → Cluster) : (modCluster s c f).groups = s.groups := rfl
@[simp] theorem modCluster_copies (s : State) (c : Nat) (f : Cluster → Cluster) : (modCluster s c f).copies = s.copies := rfl
@[simp] theorem modCluster_tailor (s : State) (c : Nat) (f : Cluster → Cluster) : (modCluster s c f).tailor = s.tailor := rfl
@[simp] theorem modCluster_travs (s : State) (c : Nat) (f : Cluster → Cluster) : (modCluster s c f).travs = s.travs := rfl
@[simp] theorem modCluster_colls (s : State) (c : Nat) (f : Cluster → Cluster) : (modCluster s c f).colls = s.colls := rfl
@[simp] theorem modCluster_collCounts (s : State) (c : Nat) (f : Cluster → Cluster) : (modCluster s c f).collCounts = s.collCounts := rfl
@[simp] theorem modCluster_sent (s : State) (c : Nat) (f : Cluster → Cluster) : (modCluster s c f).sent = s.sent := rfl
@[simp] theorem modCluster_refitPending (s : State) (c : Nat) (f : Cluster → Cluster) : (modCluster s c f).refitPending = s.refitPending := rfl
@[simp] theorem modCluster_jobs (s : State) (c : Nat) (f : Cluster → Cluster) : (modCluster s c f).jobs = s.jobs := rfl
@[simp] theorem modCluster_cloakMons (s : State) (c : Nat) (f : Cluster → Cluster) : (modCluster s c f).cloakMons = s.cloakMons := rfl
@[simp] theorem modCluster_parts (s : State) (c : Nat) (f : Cluster → Cluster) : (modCluster s c f).parts = s.parts := rfl
@[simp] theorem modCluster_mantle (s : State) (c : Nat) (f : Cluster → Cluster) : (modCluster s c f).mantle = s.mantle := rfl
@[simp] theorem modCluster_corrected (s : State) (c : Nat) (f : Cluster → Cluster) : (modCluster s c f).corrected = s.corrected := rfl
@[simp] theorem modCluster_draws (s : State) (c : Nat) (f : Cluster → Cluster) : (modCluster s c f).draws = s.draws := rfl
@[simp] theorem modCluster_nextGid (s : State) (c : Nat) (f : Cluster → Cluster) : (modCluster s c f).nextGid = s.nextGid := rfl
@[simp] theorem modCluster_nextTid (s : State) (c : Nat) (f : Cluster → Cluster) : (modCluster s c f).nextTid = s.nextTid := rfl
@[simp] theorem modCluster_nextOp (s : State) (c : Nat) (f : Cluster → Cluster) : (modCluster s c f).nextOp = s.nextOp := rfl
@[simp] theorem modCluster_turn (s : State) (c : Nat) (f : Cluster → Cluster) : (modCluster s c f).turn = s.turn := rfl
@[simp] theorem modCluster_agenda (s : State) (c : Nat) (f : Cluster → Cluster) : (modCluster s c f).agenda = s.agenda := rfl
@[simp] theorem modCluster_phase (s : State) (c : Nat) (f : Cluster → Cluster) : (modCluster s c f).phase = s.phase := rfl

/-! ### `modPart` -/

@[simp] theorem modPart_clk (s : State) (p : Nat) (f : Partition → Partition) : (modPart s p f).clk = s.clk := rfl
@[simp] theorem modPart_mem (s : State) (p : Nat) (f : Partition → Partition) : (modPart s p f).mem = s.mem := rfl
@[simp] theorem modPart_poison (s : State) (p : Nat) (f : Partition → Partition) : (modPart s p f).poison = s.poison := rfl
@[simp] theorem modPart_remote (s : State) (p : Nat) (f : Partition → Partition) : (modPart s p f).remote = s.remote := rfl
@[simp] theorem modPart_ual (s : State) (p : Nat) (f : Partition → Partition) : (modPart s p f).ual = s.ual := rfl
@[simp] theorem modPart_sliceQ (s : State) (p : Nat) (f : Partition → Partition) : (modPart s p f).sliceQ = s.sliceQ := rfl
@[simp] theorem modPart_slices (s : State) (p : Nat) (f : Partition → Partition) : (modPart s p f).slices = s.slices := rfl
@[simp] theorem modPart_chans (s : State) (p : Nat) (f : Partition → Partition) : (modPart s p f).chans = s.chans := rfl
@[simp] theorem modPart_ready (s : State) (p : Nat) (f : Partition → Partition) : (modPart s p f).ready = s.ready := rfl
@[simp] theorem modPart_cores (s : State) (p : Nat) (f : Partition → Partition) : (modPart s p f).cores = s.cores := rfl
@[simp] theorem modPart_clusters (s : State) (p : Nat) (f : Partition → Partition) : (modPart s p f).clusters = s.clusters := rfl
@[simp] theorem modPart_teams (s : State) (p : Nat) (f : Partition → Partition) : (modPart s p f).teams = s.teams := rfl
@[simp] theorem modPart_groups (s : State) (p : Nat) (f : Partition → Partition) : (modPart s p f).groups = s.groups := rfl
@[simp] theorem modPart_copies (s : State) (p : Nat) (f : Partition → Partition) : (modPart s p f).copies = s.copies := rfl
@[simp] theorem modPart_tailor (s : State) (p : Nat) (f : Partition → Partition) : (modPart s p f).tailor = s.tailor := rfl
@[simp] theorem modPart_travs (s : State) (p : Nat) (f : Partition → Partition) : (modPart s p f).travs = s.travs := rfl
@[simp] theorem modPart_colls (s : State) (p : Nat) (f : Partition → Partition) : (modPart s p f).colls = s.colls := rfl
@[simp] theorem modPart_collCounts (s : State) (p : Nat) (f : Partition → Partition) : (modPart s p f).collCounts = s.collCounts := rfl
@[simp] theorem modPart_sent (s : State) (p : Nat) (f : Partition → Partition) : (modPart s p f).sent = s.sent := rfl
@[simp] theorem modPart_refitPending (s : State) (p : Nat) (f : Partition → Partition) : (modPart s p f).refitPending = s.refitPending := rfl
@[simp] theorem modPart_jobs (s : State) (p : Nat) (f : Partition → Partition) : (modPart s p f).jobs = s.jobs := rfl
@[simp] theorem modPart_cloakMons (s : State) (p : Nat) (f : Partition → Partition) : (modPart s p f).cloakMons = s.cloakMons := rfl
@[simp] theorem modPart_mantle (s : State) (p : Nat) (f : Partition → Partition) : (modPart s p f).mantle = s.mantle := rfl
@[simp] theorem modPart_corrected (s : State) (p : Nat) (f : Partition → Partition) : (modPart s p f).corrected = s.corrected := rfl
@[simp] theorem modPart_draws (s : State) (p : Nat) (f : Partition → Partition) : (modPart s p f).draws = s.draws := rfl
@[simp] theorem modPart_nextGid (s : State) (p : Nat) (f : Partition → Partition) : (modPart s p f).nextGid = s.nextGid := rfl
@[simp] theorem modPart_nextTid (s : State) (p : Nat) (f : Partition → Partition) : (modPart s p f).nextTid = s.nextTid := rfl
@[simp] theorem modPart_nextOp (s : State) (p : Nat) (f : Partition → Partition) : (modPart s p f).nextOp = s.nextOp := rfl
@[simp] theorem modPart_turn (s : State) (p : Nat) (f : Partition → Partition) : (modPart s p f).turn = s.turn := rfl
@[simp] theorem modPart_agenda (s : State) (p : Nat) (f : Partition → Partition) : (modPart s p f).agenda = s.agenda := rfl
@[simp] theorem modPart_phase (s : State) (p : Nat) (f : Partition → Partition) : (modPart s p f).phase = s.phase := rfl

/-! ### `modChan` -/

@[simp] theorem modChan_clk (s : State) (c : Nat) (f : Channel → Channel) : (modChan s c f).clk = s.clk := rfl
@[simp] theorem modChan_mem (s : State) (c : Nat) (f : Channel → Channel) : (modChan s c f).mem = s.mem := rfl
@[simp] theorem modChan_poison (s : State) (c : Nat) (f : Channel → Channel) : (modChan s c f).poison = s.poison := rfl
@[simp] theorem modChan_remote (s : State) (c : Nat) (f : Channel → Channel) : (modChan s c f).remote = s.remote := rfl
@[simp] theorem modChan_ual (s : State) (c : Nat) (f : Channel → Channel) : (modChan s c f).ual = s.ual := rfl
@[simp] theorem modChan_sliceQ (s : State) (c : Nat) (f : Channel → Channel) : (modChan s c f).sliceQ = s.sliceQ := rfl
@[simp] theorem modChan_slices (s : State) (c : Nat) (f : Channel → Channel) : (modChan s c f).slices = s.slices := rfl
@[simp] theorem modChan_ready (s : State) (c : Nat) (f : Channel → Channel) : (modChan s c f).ready = s.ready := rfl
@[simp] theorem modChan_cores (s : State) (c : Nat) (f : Channel → Channel) : (modChan s c f).cores = s.cores := rfl
@[simp] theorem modChan_clusters (s : State) (c : Nat) (f : Channel → Channel) : (modChan s c f).clusters = s.clusters := rfl
@[simp] theorem modChan_teams (s : State) (c : Nat) (f : Channel → Channel) : (modChan s c f).teams = s.teams := rfl
@[simp] theorem modChan_groups (s : State) (c : Nat) (f : Channel → Channel) : (modChan s c f).groups = s.groups := rfl
@[simp] theorem modChan_copies (s : State) (c : Nat) (f : Channel → Channel) : (modChan s c f).copies = s.copies := rfl
@[simp] theorem modChan_tailor (s : State) (c : Nat) (f : Channel → Channel) : (modChan s c f).tailor = s.tailor := rfl
@[simp] theorem modChan_travs (s : State) (c : Nat) (f : Channel → Channel) : (modChan s c f).travs = s.travs := rfl
@[simp] theorem modChan_colls (s : State) (c : Nat) (f : Channel → Channel) : (modChan s c f).colls = s.colls := rfl
@[simp] theorem modChan_collCounts (s : State) (c : Nat) (f : Channel → Channel) : (modChan s c f).collCounts = s.collCounts := rfl
@[simp] theorem modChan_sent (s : State) (c : Nat) (f : Channel → Channel) : (modChan s c f).sent = s.sent := rfl
@[simp] theorem modChan_refitPending (s : State) (c : Nat) (f : Channel → Channel) : (modChan s c f).refitPending = s.refitPending := rfl
@[simp] theorem modChan_jobs (s : State) (c : Nat) (f : Channel → Channel) : (modChan s c f).jobs = s.jobs := rfl
@[simp] theorem modChan_cloakMons (s : State) (c : Nat) (f : Channel → Channel) : (modChan s c f).cloakMons = s.cloakMons := rfl
@[simp] theorem modChan_parts (s : State) (c : Nat) (f : Channel → Channel) : (modChan s c f).parts = s.parts := rfl
@[simp] theorem modChan_mantle (s : State) (c : Nat) (f : Channel → Channel) : (modChan s c f).mantle = s.mantle := rfl
@[simp] theorem modChan_corrected (s : State) (c : Nat) (f : Channel → Channel) : (modChan s c f).corrected = s.corrected := rfl
@[simp] theorem modChan_draws (s : State) (c : Nat) (f : Channel → Channel) : (modChan s c f).draws = s.draws := rfl
@[simp] theorem modChan_nextGid (s : State) (c : Nat) (f : Channel → Channel) : (modChan s c f).nextGid = s.nextGid := rfl
@[simp] theorem modChan_nextTid (s : State) (c : Nat) (f : Channel → Channel) : (modChan s c f).nextTid = s.nextTid := rfl
@[simp] theorem modChan_nextOp (s : State) (c : Nat) (f : Channel → Channel) : (modChan s c f).nextOp = s.nextOp := rfl
@[simp] theorem modChan_turn (s : State) (c : Nat) (f : Channel → Channel) : (modChan s c f).turn = s.turn := rfl
@[simp] theorem modChan_agenda (s : State) (c : Nat) (f : Channel → Channel) : (modChan s c f).agenda = s.agenda := rfl
@[simp] theorem modChan_phase (s : State) (c : Nat) (f : Channel → Channel) : (modChan s c f).phase = s.phase := rfl

/-! ### `modSplit` -/

@[simp] theorem modSplit_clk (s : State) (g j : Nat) (f : Split → Split) : (modSplit s g j f).clk = s.clk := rfl
@[simp] theorem modSplit_mem (s : State) (g j : Nat) (f : Split → Split) : (modSplit s g j f).mem = s.mem := rfl
@[simp] theorem modSplit_poison (s : State) (g j : Nat) (f : Split → Split) : (modSplit s g j f).poison = s.poison := rfl
@[simp] theorem modSplit_remote (s : State) (g j : Nat) (f : Split → Split) : (modSplit s g j f).remote = s.remote := rfl
@[simp] theorem modSplit_ual (s : State) (g j : Nat) (f : Split → Split) : (modSplit s g j f).ual = s.ual := rfl
@[simp] theorem modSplit_sliceQ (s : State) (g j : Nat) (f : Split → Split) : (modSplit s g j f).sliceQ = s.sliceQ := rfl
@[simp] theorem modSplit_slices (s : State) (g j : Nat) (f : Split → Split) : (modSplit s g j f).slices = s.slices := rfl
@[simp] theorem modSplit_chans (s : State) (g j : Nat) (f : Split → Split) : (modSplit s g j f).chans = s.chans := rfl
@[simp] theorem modSplit_ready (s : State) (g j : Nat) (f : Split → Split) : (modSplit s g j f).ready = s.ready := rfl
@[simp] theorem modSplit_cores (s : State) (g j : Nat) (f : Split → Split) : (modSplit s g j f).cores = s.cores := rfl
@[simp] theorem modSplit_clusters (s : State) (g j : Nat) (f : Split → Split) : (modSplit s g j f).clusters = s.clusters := rfl
@[simp] theorem modSplit_teams (s : State) (g j : Nat) (f : Split → Split) : (modSplit s g j f).teams = s.teams := rfl
@[simp] theorem modSplit_copies (s : State) (g j : Nat) (f : Split → Split) : (modSplit s g j f).copies = s.copies := rfl
@[simp] theorem modSplit_tailor (s : State) (g j : Nat) (f : Split → Split) : (modSplit s g j f).tailor = s.tailor := rfl
@[simp] theorem modSplit_travs (s : State) (g j : Nat) (f : Split → Split) : (modSplit s g j f).travs = s.travs := rfl
@[simp] theorem modSplit_colls (s : State) (g j : Nat) (f : Split → Split) : (modSplit s g j f).colls = s.colls := rfl
@[simp] theorem modSplit_collCounts (s : State) (g j : Nat) (f : Split → Split) : (modSplit s g j f).collCounts = s.collCounts := rfl
@[simp] theorem modSplit_sent (s : State) (g j : Nat) (f : Split → Split) : (modSplit s g j f).sent = s.sent := rfl
@[simp] theorem modSplit_refitPending (s : State) (g j : Nat) (f : Split → Split) : (modSplit s g j f).refitPending = s.refitPending := rfl
@[simp] theorem modSplit_jobs (s : State) (g j : Nat) (f : Split → Split) : (modSplit s g j f).jobs = s.jobs := rfl
@[simp] theorem modSplit_cloakMons (s : State) (g j : Nat) (f : Split → Split) : (modSplit s g j f).cloakMons = s.cloakMons := rfl
@[simp] theorem modSplit_parts (s : State) (g j : Nat) (f : Split → Split) : (modSplit s g j f).parts = s.parts := rfl
@[simp] theorem modSplit_mantle (s : State) (g j : Nat) (f : Split → Split) : (modSplit s g j f).mantle = s.mantle := rfl
@[simp] theorem modSplit_corrected (s : State) (g j : Nat) (f : Split → Split) : (modSplit s g j f).corrected = s.corrected := rfl
@[simp] theorem modSplit_draws (s : State) (g j : Nat) (f : Split → Split) : (modSplit s g j f).draws = s.draws := rfl
@[simp] theorem modSplit_nextGid (s : State) (g j : Nat) (f : Split → Split) : (modSplit s g j f).nextGid = s.nextGid := rfl
@[simp] theorem modSplit_nextTid (s : State) (g j : Nat) (f : Split → Split) : (modSplit s g j f).nextTid = s.nextTid := rfl
@[simp] theorem modSplit_nextOp (s : State) (g j : Nat) (f : Split → Split) : (modSplit s g j f).nextOp = s.nextOp := rfl
@[simp] theorem modSplit_turn (s : State) (g j : Nat) (f : Split → Split) : (modSplit s g j f).turn = s.turn := rfl
@[simp] theorem modSplit_agenda (s : State) (g j : Nat) (f : Split → Split) : (modSplit s g j f).agenda = s.agenda := rfl
@[simp] theorem modSplit_phase (s : State) (g j : Nat) (f : Split → Split) : (modSplit s g j f).phase = s.phase := rfl

/-! ### `goOn` -/

@[simp] theorem goOn_clk (s : State) (c : Iss) (pc : Pc) : (goOn s c pc).clk = s.clk := rfl
@[simp] theorem goOn_mem (s : State) (c : Iss) (pc : Pc) : (goOn s c pc).mem = s.mem := rfl
@[simp] theorem goOn_poison (s : State) (c : Iss) (pc : Pc) : (goOn s c pc).poison = s.poison := rfl
@[simp] theorem goOn_remote (s : State) (c : Iss) (pc : Pc) : (goOn s c pc).remote = s.remote := rfl
@[simp] theorem goOn_ual (s : State) (c : Iss) (pc : Pc) : (goOn s c pc).ual = s.ual := rfl
@[simp] theorem goOn_sliceQ (s : State) (c : Iss) (pc : Pc) : (goOn s c pc).sliceQ = s.sliceQ := rfl
@[simp] theorem goOn_slices (s : State) (c : Iss) (pc : Pc) : (goOn s c pc).slices = s.slices := rfl
@[simp] theorem goOn_chans (s : State) (c : Iss) (pc : Pc) : (goOn s c pc).chans = s.chans := rfl
@[simp] theorem goOn_ready (s : State) (c : Iss) (pc : Pc) : (goOn s c pc).ready = s.ready := rfl
@[simp] theorem goOn_cores (s : State) (c : Iss) (pc : Pc) : (goOn s c pc).cores = s.cores := rfl
@[simp] theorem goOn_clusters (s : State) (c : Iss) (pc : Pc) : (goOn s c pc).clusters = s.clusters := rfl
@[simp] theorem goOn_teams (s : State) (c : Iss) (pc : Pc) : (goOn s c pc).teams = s.teams := rfl
@[simp] theorem goOn_copies (s : State) (c : Iss) (pc : Pc) : (goOn s c pc).copies = s.copies := rfl
@[simp] theorem goOn_tailor (s : State) (c : Iss) (pc : Pc) : (goOn s c pc).tailor = s.tailor := rfl
@[simp] theorem goOn_travs (s : State) (c : Iss) (pc : Pc) : (goOn s c pc).travs = s.travs := rfl
@[simp] theorem goOn_colls (s : State) (c : Iss) (pc : Pc) : (goOn s c pc).colls = s.colls := rfl
@[simp] theorem goOn_collCounts (s : State) (c : Iss) (pc : Pc) : (goOn s c pc).collCounts = s.collCounts := rfl
@[simp] theorem goOn_sent (s : State) (c : Iss) (pc : Pc) : (goOn s c pc).sent = s.sent := rfl
@[simp] theorem goOn_refitPending (s : State) (c : Iss) (pc : Pc) : (goOn s c pc).refitPending = s.refitPending := rfl
@[simp] theorem goOn_jobs (s : State) (c : Iss) (pc : Pc) : (goOn s c pc).jobs = s.jobs := rfl
@[simp] theorem goOn_cloakMons (s : State) (c : Iss) (pc : Pc) : (goOn s c pc).cloakMons = s.cloakMons := rfl
@[simp] theorem goOn_parts (s : State) (c : Iss) (pc : Pc) : (goOn s c pc).parts = s.parts := rfl
@[simp] theorem goOn_mantle (s : State) (c : Iss) (pc : Pc) : (goOn s c pc).mantle = s.mantle := rfl
@[simp] theorem goOn_corrected (s : State) (c : Iss) (pc : Pc) : (goOn s c pc).corrected = s.corrected := rfl
@[simp] theorem goOn_draws (s : State) (c : Iss) (pc : Pc) : (goOn s c pc).draws = s.draws := rfl
@[simp] theorem goOn_nextGid (s : State) (c : Iss) (pc : Pc) : (goOn s c pc).nextGid = s.nextGid := rfl
@[simp] theorem goOn_nextTid (s : State) (c : Iss) (pc : Pc) : (goOn s c pc).nextTid = s.nextTid := rfl
@[simp] theorem goOn_nextOp (s : State) (c : Iss) (pc : Pc) : (goOn s c pc).nextOp = s.nextOp := rfl
@[simp] theorem goOn_turn (s : State) (c : Iss) (pc : Pc) : (goOn s c pc).turn = s.turn := rfl
@[simp] theorem goOn_agenda (s : State) (c : Iss) (pc : Pc) : (goOn s c pc).agenda = s.agenda := rfl
@[simp] theorem goOn_phase (s : State) (c : Iss) (pc : Pc) : (goOn s c pc).phase = s.phase := rfl

/-! ### `advance` -/

@[simp] theorem advance_clk (s : State) (c : Iss) : (advance s c).clk = s.clk := rfl
@[simp] theorem advance_mem (s : State) (c : Iss) : (advance s c).mem = s.mem := rfl
@[simp] theorem advance_poison (s : State) (c : Iss) : (advance s c).poison = s.poison := rfl
@[simp] theorem advance_remote (s : State) (c : Iss) : (advance s c).remote = s.remote := rfl
@[simp] theorem advance_ual (s : State) (c : Iss) : (advance s c).ual = s.ual := rfl
@[simp] theorem advance_sliceQ (s : State) (c : Iss) : (advance s c).sliceQ = s.sliceQ := rfl
@[simp] theorem advance_slices (s : State) (c : Iss) : (advance s c).slices = s.slices := rfl
@[simp] theorem advance_chans (s : State) (c : Iss) : (advance s c).chans = s.chans := rfl
@[simp] theorem advance_ready (s : State) (c : Iss) : (advance s c).ready = s.ready := rfl
@[simp] theorem advance_cores (s : State) (c : Iss) : (advance s c).cores = s.cores := rfl
@[simp] theorem advance_clusters (s : State) (c : Iss) : (advance s c).clusters = s.clusters := rfl
@[simp] theorem advance_teams (s : State) (c : Iss) : (advance s c).teams = s.teams := rfl
@[simp] theorem advance_copies (s : State) (c : Iss) : (advance s c).copies = s.copies := rfl
@[simp] theorem advance_tailor (s : State) (c : Iss) : (advance s c).tailor = s.tailor := rfl
@[simp] theorem advance_travs (s : State) (c : Iss) : (advance s c).travs = s.travs := rfl
@[simp] theorem advance_colls (s : State) (c : Iss) : (advance s c).colls = s.colls := rfl
@[simp] theorem advance_collCounts (s : State) (c : Iss) : (advance s c).collCounts = s.collCounts := rfl
@[simp] theorem advance_sent (s : State) (c : Iss) : (advance s c).sent = s.sent := rfl
@[simp] theorem advance_refitPending (s : State) (c : Iss) : (advance s c).refitPending = s.refitPending := rfl
@[simp] theorem advance_jobs (s : State) (c : Iss) : (advance s c).jobs = s.jobs := rfl
@[simp] theorem advance_cloakMons (s : State) (c : Iss) : (advance s c).cloakMons = s.cloakMons := rfl
@[simp] theorem advance_parts (s : State) (c : Iss) : (advance s c).parts = s.parts := rfl
@[simp] theorem advance_mantle (s : State) (c : Iss) : (advance s c).mantle = s.mantle := rfl
@[simp] theorem advance_corrected (s : State) (c : Iss) : (advance s c).corrected = s.corrected := rfl
@[simp] theorem advance_draws (s : State) (c : Iss) : (advance s c).draws = s.draws := rfl
@[simp] theorem advance_nextGid (s : State) (c : Iss) : (advance s c).nextGid = s.nextGid := rfl
@[simp] theorem advance_nextTid (s : State) (c : Iss) : (advance s c).nextTid = s.nextTid := rfl
@[simp] theorem advance_nextOp (s : State) (c : Iss) : (advance s c).nextOp = s.nextOp := rfl
@[simp] theorem advance_turn (s : State) (c : Iss) : (advance s c).turn = s.turn := rfl
@[simp] theorem advance_agenda (s : State) (c : Iss) : (advance s c).agenda = s.agenda := rfl
@[simp] theorem advance_phase (s : State) (c : Iss) : (advance s c).phase = s.phase := rfl

/-! ### `waitAs` -/

@[simp] theorem waitAs_clk (s : State) (c : Iss) (w : Wait) : (waitAs s c w).clk = s.clk := rfl
@[simp] theorem waitAs_mem (s : State) (c : Iss) (w : Wait) : (waitAs s c w).mem = s.mem := rfl
@[simp] theorem waitAs_poison (s : State) (c : Iss) (w : Wait) : (waitAs s c w).poison = s.poison := rfl
@[simp] theorem waitAs_remote (s : State) (c : Iss) (w : Wait) : (waitAs s c w).remote = s.remote := rfl
@[simp] theorem waitAs_ual (s : State) (c : Iss) (w : Wait) : (waitAs s c w).ual = s.ual := rfl
@[simp] theorem waitAs_sliceQ (s : State) (c : Iss) (w : Wait) : (waitAs s c w).sliceQ = s.sliceQ := rfl
@[simp] theorem waitAs_slices (s : State) (c : Iss) (w : Wait) : (waitAs s c w).slices = s.slices := rfl
@[simp] theorem waitAs_chans (s : State) (c : Iss) (w : Wait) : (waitAs s c w).chans = s.chans := rfl
@[simp] theorem waitAs_ready (s : State) (c : Iss) (w : Wait) : (waitAs s c w).ready = s.ready := rfl
@[simp] theorem waitAs_cores (s : State) (c : Iss) (w : Wait) : (waitAs s c w).cores = s.cores := rfl
@[simp] theorem waitAs_clusters (s : State) (c : Iss) (w : Wait) : (waitAs s c w).clusters = s.clusters := rfl
@[simp] theorem waitAs_teams (s : State) (c : Iss) (w : Wait) : (waitAs s c w).teams = s.teams := rfl
@[simp] theorem waitAs_copies (s : State) (c : Iss) (w : Wait) : (waitAs s c w).copies = s.copies := rfl
@[simp] theorem waitAs_tailor (s : State) (c : Iss) (w : Wait) : (waitAs s c w).tailor = s.tailor := rfl
@[simp] theorem waitAs_travs (s : State) (c : Iss) (w : Wait) : (waitAs s c w).travs = s.travs := rfl
@[simp] theorem waitAs_colls (s : State) (c : Iss) (w : Wait) : (waitAs s c w).colls = s.colls := rfl
@[simp] theorem waitAs_collCounts (s : State) (c : Iss) (w : Wait) : (waitAs s c w).collCounts = s.collCounts := rfl
@[simp] theorem waitAs_sent (s : State) (c : Iss) (w : Wait) : (waitAs s c w).sent = s.sent := rfl
@[simp] theorem waitAs_refitPending (s : State) (c : Iss) (w : Wait) : (waitAs s c w).refitPending = s.refitPending := rfl
@[simp] theorem waitAs_jobs (s : State) (c : Iss) (w : Wait) : (waitAs s c w).jobs = s.jobs := rfl
@[simp] theorem waitAs_cloakMons (s : State) (c : Iss) (w : Wait) : (waitAs s c w).cloakMons = s.cloakMons := rfl
@[simp] theorem waitAs_parts (s : State) (c : Iss) (w : Wait) : (waitAs s c w).parts = s.parts := rfl
@[simp] theorem waitAs_mantle (s : State) (c : Iss) (w : Wait) : (waitAs s c w).mantle = s.mantle := rfl
@[simp] theorem waitAs_corrected (s : State) (c : Iss) (w : Wait) : (waitAs s c w).corrected = s.corrected := rfl
@[simp] theorem waitAs_draws (s : State) (c : Iss) (w : Wait) : (waitAs s c w).draws = s.draws := rfl
@[simp] theorem waitAs_nextGid (s : State) (c : Iss) (w : Wait) : (waitAs s c w).nextGid = s.nextGid := rfl
@[simp] theorem waitAs_nextTid (s : State) (c : Iss) (w : Wait) : (waitAs s c w).nextTid = s.nextTid := rfl
@[simp] theorem waitAs_nextOp (s : State) (c : Iss) (w : Wait) : (waitAs s c w).nextOp = s.nextOp := rfl
@[simp] theorem waitAs_turn (s : State) (c : Iss) (w : Wait) : (waitAs s c w).turn = s.turn := rfl
@[simp] theorem waitAs_agenda (s : State) (c : Iss) (w : Wait) : (waitAs s c w).agenda = s.agenda := rfl
@[simp] theorem waitAs_phase (s : State) (c : Iss) (w : Wait) : (waitAs s c w).phase = s.phase := rfl

/-! ### `onGroup` -/

@[simp] theorem onGroup_clk (s : State) (c : Iss) (f : Group → Group) : (onGroup s c f).clk = s.clk := rfl
@[simp] theorem onGroup_mem (s : State) (c : Iss) (f : Group → Group) : (onGroup s c f).mem = s.mem := rfl
@[simp] theorem onGroup_poison (s : State) (c : Iss) (f : Group → Group) : (onGroup s c f).poison = s.poison := rfl
@[simp] theorem onGroup_remote (s : State) (c : Iss) (f : Group → Group) : (onGroup s c f).remote = s.remote := rfl
@[simp] theorem onGroup_ual (s : State) (c : Iss) (f : Group → Group) : (onGroup s c f).ual = s.ual := rfl
@[simp] theorem onGroup_sliceQ (s : State) (c : Iss) (f : Group → Group) : (onGroup s c f).sliceQ = s.sliceQ := rfl
@[simp] theorem onGroup_slices (s : State) (c : Iss) (f : Group → Group) : (onGroup s c f).slices = s.slices := rfl
@[simp] theorem onGroup_chans (s : State) (c : Iss) (f : Group → Group) : (onGroup s c f).chans = s.chans := rfl
@[simp] theorem onGroup_ready (s : State) (c : Iss) (f : Group → Group) : (onGroup s c f).ready = s.ready := rfl
@[simp] theorem onGroup_cores (s : State) (c : Iss) (f : Group → Group) : (onGroup s c f).cores = s.cores := rfl
@[simp] theorem onGroup_clusters (s : State) (c : Iss) (f : Group → Group) : (onGroup s c f).clusters = s.clusters := rfl
@[simp] theorem onGroup_teams (s : State) (c : Iss) (f : Group → Group) : (onGroup s c f).teams = s.teams := rfl
@[simp] theorem onGroup_copies (s : State) (c : Iss) (f : Group → Group) : (onGroup s c f).copies = s.copies := rfl
@[simp] theorem onGroup_tailor (s : State) (c : Iss) (f : Group → Group) : (onGroup s c f).tailor = s.tailor := rfl
@[simp] theorem onGroup_travs (s : State) (c : Iss) (f : Group → Group) : (onGroup s c f).travs = s.travs := rfl
@[simp] theorem onGroup_colls (s : State) (c : Iss) (f : Group → Group) : (onGroup s c f).colls = s.colls := rfl
@[simp] theorem onGroup_collCounts (s : State) (c : Iss) (f : Group → Group) : (onGroup s c f).collCounts = s.collCounts := rfl
@[simp] theorem onGroup_sent (s : State) (c : Iss) (f : Group → Group) : (onGroup s c f).sent = s.sent := rfl
@[simp] theorem onGroup_refitPending (s : State) (c : Iss) (f : Group → Group) : (onGroup s c f).refitPending = s.refitPending := rfl
@[simp] theorem onGroup_jobs (s : State) (c : Iss) (f : Group → Group) : (onGroup s c f).jobs = s.jobs := rfl
@[simp] theorem onGroup_cloakMons (s : State) (c : Iss) (f : Group → Group) : (onGroup s c f).cloakMons = s.cloakMons := rfl
@[simp] theorem onGroup_parts (s : State) (c : Iss) (f : Group → Group) : (onGroup s c f).parts = s.parts := rfl
@[simp] theorem onGroup_mantle (s : State) (c : Iss) (f : Group → Group) : (onGroup s c f).mantle = s.mantle := rfl
@[simp] theorem onGroup_corrected (s : State) (c : Iss) (f : Group → Group) : (onGroup s c f).corrected = s.corrected := rfl
@[simp] theorem onGroup_draws (s : State) (c : Iss) (f : Group → Group) : (onGroup s c f).draws = s.draws := rfl
@[simp] theorem onGroup_nextGid (s : State) (c : Iss) (f : Group → Group) : (onGroup s c f).nextGid = s.nextGid := rfl
@[simp] theorem onGroup_nextTid (s : State) (c : Iss) (f : Group → Group) : (onGroup s c f).nextTid = s.nextTid := rfl
@[simp] theorem onGroup_nextOp (s : State) (c : Iss) (f : Group → Group) : (onGroup s c f).nextOp = s.nextOp := rfl
@[simp] theorem onGroup_turn (s : State) (c : Iss) (f : Group → Group) : (onGroup s c f).turn = s.turn := rfl
@[simp] theorem onGroup_agenda (s : State) (c : Iss) (f : Group → Group) : (onGroup s c f).agenda = s.agenda := rfl
@[simp] theorem onGroup_phase (s : State) (c : Iss) (f : Group → Group) : (onGroup s c f).phase = s.phase := rfl

/-! ### `vset` -/

@[simp] theorem vset_serial (g : Group) (r l : Nat) (v : W32) : (vset g r l v).serial = g.serial := rfl
@[simp] theorem vset_part (g : Group) (r l : Nat) (v : W32) : (vset g r l v).part = g.part := rfl
@[simp] theorem vset_ctx (g : Group) (r l : Nat) (v : W32) : (vset g r l v).ctx = g.ctx := rfl
@[simp] theorem vset_team (g : Group) (r l : Nat) (v : W32) : (vset g r l v).team = g.team := rfl
@[simp] theorem vset_index (g : Group) (r l : Nat) (v : W32) : (vset g r l v).index = g.index := rfl
@[simp] theorem vset_core (g : Group) (r l : Nat) (v : W32) : (vset g r l v).core = g.core := rfl
@[simp] theorem vset_side (g : Group) (r l : Nat) (v : W32) : (vset g r l v).side = g.side := rfl
@[simp] theorem vset_slot (g : Group) (r l : Nat) (v : W32) : (vset g r l v).slot = g.slot := rfl
@[simp] theorem vset_slice0 (g : Group) (r l : Nat) (v : W32) : (vset g r l v).slice0 = g.slice0 := rfl
@[simp] theorem vset_slices (g : Group) (r l : Nat) (v : W32) : (vset g r l v).slices = g.slices := rfl
@[simp] theorem vset_width (g : Group) (r l : Nat) (v : W32) : (vset g r l v).width = g.width := rfl
@[simp] theorem vset_lined (g : Group) (r l : Nat) (v : W32) : (vset g r l v).lined = g.lined := rfl
@[simp] theorem vset_role (g : Group) (r l : Nat) (v : W32) : (vset g r l v).role = g.role := rfl
@[simp] theorem vset_sageip (g : Group) (r l : Nat) (v : W32) : (vset g r l v).sageip = g.sageip := rfl
@[simp] theorem vset_nv (g : Group) (r l : Nat) (v : W32) : (vset g r l v).nv = g.nv := rfl
@[simp] theorem vset_ns (g : Group) (r l : Nat) (v : W32) : (vset g r l v).ns = g.ns := rfl
@[simp] theorem vset_priv (g : Group) (r l : Nat) (v : W32) : (vset g r l v).priv = g.priv := rfl
@[simp] theorem vset_privSize (g : Group) (r l : Nat) (v : W32) : (vset g r l v).privSize = g.privSize := rfl
@[simp] theorem vset_empty (g : Group) (r l : Nat) (v : W32) : (vset g r l v).empty = g.empty := rfl
@[simp] theorem vset_damaged (g : Group) (r l : Nat) (v : W32) : (vset g r l v).damaged = g.damaged := rfl
@[simp] theorem vset_residue (g : Group) (r l : Nat) (v : W32) : (vset g r l v).residue = g.residue := rfl
@[simp] theorem vset_sregs (g : Group) (r l : Nat) (v : W32) : (vset g r l v).sregs = g.sregs := rfl
@[simp] theorem vset_preds (g : Group) (r l : Nat) (v : W32) : (vset g r l v).preds = g.preds := rfl
@[simp] theorem vset_fpctl (g : Group) (r l : Nat) (v : W32) : (vset g r l v).fpctl = g.fpctl := rfl
@[simp] theorem vset_fpflags (g : Group) (r l : Nat) (v : W32) : (vset g r l v).fpflags = g.fpflags := rfl
@[simp] theorem vset_fpflagsSh (g : Group) (r l : Nat) (v : W32) : (vset g r l v).fpflagsSh = g.fpflagsSh := rfl
@[simp] theorem vset_counters (g : Group) (r l : Nat) (v : W32) : (vset g r l v).counters = g.counters := rfl
@[simp] theorem vset_live (g : Group) (r l : Nat) (v : W32) : (vset g r l v).live = g.live := rfl
@[simp] theorem vset_splits (g : Group) (r l : Nat) (v : W32) : (vset g r l v).splits = g.splits := rfl
@[simp] theorem vset_ovf (g : Group) (r l : Nat) (v : W32) : (vset g r l v).ovf = g.ovf := rfl
@[simp] theorem vset_aside (g : Group) (r l : Nat) (v : W32) : (vset g r l v).aside = g.aside := rfl
@[simp] theorem vset_events (g : Group) (r l : Nat) (v : W32) : (vset g r l v).events = g.events := rfl
@[simp] theorem vset_holds (g : Group) (r l : Nat) (v : W32) : (vset g r l v).holds = g.holds := rfl
@[simp] theorem vset_mons (g : Group) (r l : Nat) (v : W32) : (vset g r l v).mons = g.mons := rfl
@[simp] theorem vset_region (g : Group) (r l : Nat) (v : W32) : (vset g r l v).region = g.region := rfl
@[simp] theorem vset_gen (g : Group) (r l : Nat) (v : W32) : (vset g r l v).gen = g.gen := rfl
@[simp] theorem vset_genDesc (g : Group) (r l : Nat) (v : W32) : (vset g r l v).genDesc = g.genDesc := rfl
@[simp] theorem vset_trvCount (g : Group) (r l : Nat) (v : W32) : (vset g r l v).trvCount = g.trvCount := rfl
@[simp] theorem vset_tags (g : Group) (r l : Nat) (v : W32) : (vset g r l v).tags = g.tags := rfl
@[simp] theorem vset_inj (g : Group) (r l : Nat) (v : W32) : (vset g r l v).inj = g.inj := rfl
@[simp] theorem vset_prods (g : Group) (r l : Nat) (v : W32) : (vset g r l v).prods = g.prods := rfl
@[simp] theorem vset_pend (g : Group) (r l : Nat) (v : W32) : (vset g r l v).pend = g.pend := rfl
@[simp] theorem vset_storeQ (g : Group) (r l : Nat) (v : W32) : (vset g r l v).storeQ = g.storeQ := rfl
@[simp] theorem vset_sts (g : Group) (r l : Nat) (v : W32) : (vset g r l v).sts = g.sts := rfl
@[simp] theorem vset_atoms (g : Group) (r l : Nat) (v : W32) : (vset g r l v).atoms = g.atoms := rfl
@[simp] theorem vset_fenceRel (g : Group) (r l : Nat) (v : W32) : (vset g r l v).fenceRel = g.fenceRel := rfl
@[simp] theorem vset_replayG (g : Group) (r l : Nat) (v : W32) : (vset g r l v).replayG = g.replayG := rfl
@[simp] theorem vset_replayS (g : Group) (r l : Nat) (v : W32) : (vset g r l v).replayS = g.replayS := rfl
@[simp] theorem vset_shader (g : Group) (r l : Nat) (v : W32) : (vset g r l v).shader = g.shader := rfl
@[simp] theorem vset_synclRound (g : Group) (r l : Nat) (v : W32) : (vset g r l v).synclRound = g.synclRound := rfl
@[simp] theorem vset_job (g : Group) (r l : Nat) (v : W32) : (vset g r l v).job = g.job := rfl
@[simp] theorem vset_stopped (g : Group) (r l : Nat) (v : W32) : (vset g r l v).stopped = g.stopped := rfl
@[simp] theorem vset_kept (g : Group) (r l : Nat) (v : W32) : (vset g r l v).kept = g.kept := rfl

/-! ### `srset` -/

@[simp] theorem srset_serial (g : Group) (k j : Nat) (v : W64) : (srset g k j v).serial = g.serial := rfl
@[simp] theorem srset_part (g : Group) (k j : Nat) (v : W64) : (srset g k j v).part = g.part := rfl
@[simp] theorem srset_ctx (g : Group) (k j : Nat) (v : W64) : (srset g k j v).ctx = g.ctx := rfl
@[simp] theorem srset_team (g : Group) (k j : Nat) (v : W64) : (srset g k j v).team = g.team := rfl
@[simp] theorem srset_index (g : Group) (k j : Nat) (v : W64) : (srset g k j v).index = g.index := rfl
@[simp] theorem srset_core (g : Group) (k j : Nat) (v : W64) : (srset g k j v).core = g.core := rfl
@[simp] theorem srset_side (g : Group) (k j : Nat) (v : W64) : (srset g k j v).side = g.side := rfl
@[simp] theorem srset_slot (g : Group) (k j : Nat) (v : W64) : (srset g k j v).slot = g.slot := rfl
@[simp] theorem srset_slice0 (g : Group) (k j : Nat) (v : W64) : (srset g k j v).slice0 = g.slice0 := rfl
@[simp] theorem srset_slices (g : Group) (k j : Nat) (v : W64) : (srset g k j v).slices = g.slices := rfl
@[simp] theorem srset_width (g : Group) (k j : Nat) (v : W64) : (srset g k j v).width = g.width := rfl
@[simp] theorem srset_lined (g : Group) (k j : Nat) (v : W64) : (srset g k j v).lined = g.lined := rfl
@[simp] theorem srset_role (g : Group) (k j : Nat) (v : W64) : (srset g k j v).role = g.role := rfl
@[simp] theorem srset_sageip (g : Group) (k j : Nat) (v : W64) : (srset g k j v).sageip = g.sageip := rfl
@[simp] theorem srset_nv (g : Group) (k j : Nat) (v : W64) : (srset g k j v).nv = g.nv := rfl
@[simp] theorem srset_ns (g : Group) (k j : Nat) (v : W64) : (srset g k j v).ns = g.ns := rfl
@[simp] theorem srset_priv (g : Group) (k j : Nat) (v : W64) : (srset g k j v).priv = g.priv := rfl
@[simp] theorem srset_privSize (g : Group) (k j : Nat) (v : W64) : (srset g k j v).privSize = g.privSize := rfl
@[simp] theorem srset_vregs (g : Group) (k j : Nat) (v : W64) : (srset g k j v).vregs = g.vregs := rfl
@[simp] theorem srset_empty (g : Group) (k j : Nat) (v : W64) : (srset g k j v).empty = g.empty := rfl
@[simp] theorem srset_residue (g : Group) (k j : Nat) (v : W64) : (srset g k j v).residue = g.residue := rfl
@[simp] theorem srset_preds (g : Group) (k j : Nat) (v : W64) : (srset g k j v).preds = g.preds := rfl
@[simp] theorem srset_fpctl (g : Group) (k j : Nat) (v : W64) : (srset g k j v).fpctl = g.fpctl := rfl
@[simp] theorem srset_fpflags (g : Group) (k j : Nat) (v : W64) : (srset g k j v).fpflags = g.fpflags := rfl
@[simp] theorem srset_fpflagsSh (g : Group) (k j : Nat) (v : W64) : (srset g k j v).fpflagsSh = g.fpflagsSh := rfl
@[simp] theorem srset_counters (g : Group) (k j : Nat) (v : W64) : (srset g k j v).counters = g.counters := rfl
@[simp] theorem srset_live (g : Group) (k j : Nat) (v : W64) : (srset g k j v).live = g.live := rfl
@[simp] theorem srset_splits (g : Group) (k j : Nat) (v : W64) : (srset g k j v).splits = g.splits := rfl
@[simp] theorem srset_ovf (g : Group) (k j : Nat) (v : W64) : (srset g k j v).ovf = g.ovf := rfl
@[simp] theorem srset_aside (g : Group) (k j : Nat) (v : W64) : (srset g k j v).aside = g.aside := rfl
@[simp] theorem srset_events (g : Group) (k j : Nat) (v : W64) : (srset g k j v).events = g.events := rfl
@[simp] theorem srset_holds (g : Group) (k j : Nat) (v : W64) : (srset g k j v).holds = g.holds := rfl
@[simp] theorem srset_mons (g : Group) (k j : Nat) (v : W64) : (srset g k j v).mons = g.mons := rfl
@[simp] theorem srset_region (g : Group) (k j : Nat) (v : W64) : (srset g k j v).region = g.region := rfl
@[simp] theorem srset_gen (g : Group) (k j : Nat) (v : W64) : (srset g k j v).gen = g.gen := rfl
@[simp] theorem srset_genDesc (g : Group) (k j : Nat) (v : W64) : (srset g k j v).genDesc = g.genDesc := rfl
@[simp] theorem srset_trvCount (g : Group) (k j : Nat) (v : W64) : (srset g k j v).trvCount = g.trvCount := rfl
@[simp] theorem srset_tags (g : Group) (k j : Nat) (v : W64) : (srset g k j v).tags = g.tags := rfl
@[simp] theorem srset_inj (g : Group) (k j : Nat) (v : W64) : (srset g k j v).inj = g.inj := rfl
@[simp] theorem srset_prods (g : Group) (k j : Nat) (v : W64) : (srset g k j v).prods = g.prods := rfl
@[simp] theorem srset_pend (g : Group) (k j : Nat) (v : W64) : (srset g k j v).pend = g.pend := rfl
@[simp] theorem srset_storeQ (g : Group) (k j : Nat) (v : W64) : (srset g k j v).storeQ = g.storeQ := rfl
@[simp] theorem srset_sts (g : Group) (k j : Nat) (v : W64) : (srset g k j v).sts = g.sts := rfl
@[simp] theorem srset_atoms (g : Group) (k j : Nat) (v : W64) : (srset g k j v).atoms = g.atoms := rfl
@[simp] theorem srset_fenceRel (g : Group) (k j : Nat) (v : W64) : (srset g k j v).fenceRel = g.fenceRel := rfl
@[simp] theorem srset_replayG (g : Group) (k j : Nat) (v : W64) : (srset g k j v).replayG = g.replayG := rfl
@[simp] theorem srset_replayS (g : Group) (k j : Nat) (v : W64) : (srset g k j v).replayS = g.replayS := rfl
@[simp] theorem srset_shader (g : Group) (k j : Nat) (v : W64) : (srset g k j v).shader = g.shader := rfl
@[simp] theorem srset_synclRound (g : Group) (k j : Nat) (v : W64) : (srset g k j v).synclRound = g.synclRound := rfl
@[simp] theorem srset_job (g : Group) (k j : Nat) (v : W64) : (srset g k j v).job = g.job := rfl
@[simp] theorem srset_stopped (g : Group) (k j : Nat) (v : W64) : (srset g k j v).stopped = g.stopped := rfl
@[simp] theorem srset_kept (g : Group) (k j : Nat) (v : W64) : (srset g k j v).kept = g.kept := rfl

/-! ### `pset` -/

@[simp] theorem pset_serial (g : Group) (l i : Nat) (b : Bool) : (pset g l i b).serial = g.serial := rfl
@[simp] theorem pset_part (g : Group) (l i : Nat) (b : Bool) : (pset g l i b).part = g.part := rfl
@[simp] theorem pset_ctx (g : Group) (l i : Nat) (b : Bool) : (pset g l i b).ctx = g.ctx := rfl
@[simp] theorem pset_team (g : Group) (l i : Nat) (b : Bool) : (pset g l i b).team = g.team := rfl
@[simp] theorem pset_index (g : Group) (l i : Nat) (b : Bool) : (pset g l i b).index = g.index := rfl
@[simp] theorem pset_core (g : Group) (l i : Nat) (b : Bool) : (pset g l i b).core = g.core := rfl
@[simp] theorem pset_side (g : Group) (l i : Nat) (b : Bool) : (pset g l i b).side = g.side := rfl
@[simp] theorem pset_slot (g : Group) (l i : Nat) (b : Bool) : (pset g l i b).slot = g.slot := rfl
@[simp] theorem pset_slice0 (g : Group) (l i : Nat) (b : Bool) : (pset g l i b).slice0 = g.slice0 := rfl
@[simp] theorem pset_slices (g : Group) (l i : Nat) (b : Bool) : (pset g l i b).slices = g.slices := rfl
@[simp] theorem pset_width (g : Group) (l i : Nat) (b : Bool) : (pset g l i b).width = g.width := rfl
@[simp] theorem pset_lined (g : Group) (l i : Nat) (b : Bool) : (pset g l i b).lined = g.lined := rfl
@[simp] theorem pset_role (g : Group) (l i : Nat) (b : Bool) : (pset g l i b).role = g.role := rfl
@[simp] theorem pset_sageip (g : Group) (l i : Nat) (b : Bool) : (pset g l i b).sageip = g.sageip := rfl
@[simp] theorem pset_nv (g : Group) (l i : Nat) (b : Bool) : (pset g l i b).nv = g.nv := rfl
@[simp] theorem pset_ns (g : Group) (l i : Nat) (b : Bool) : (pset g l i b).ns = g.ns := rfl
@[simp] theorem pset_priv (g : Group) (l i : Nat) (b : Bool) : (pset g l i b).priv = g.priv := rfl
@[simp] theorem pset_privSize (g : Group) (l i : Nat) (b : Bool) : (pset g l i b).privSize = g.privSize := rfl
@[simp] theorem pset_vregs (g : Group) (l i : Nat) (b : Bool) : (pset g l i b).vregs = g.vregs := rfl
@[simp] theorem pset_empty (g : Group) (l i : Nat) (b : Bool) : (pset g l i b).empty = g.empty := rfl
@[simp] theorem pset_residue (g : Group) (l i : Nat) (b : Bool) : (pset g l i b).residue = g.residue := rfl
@[simp] theorem pset_sregs (g : Group) (l i : Nat) (b : Bool) : (pset g l i b).sregs = g.sregs := rfl
@[simp] theorem pset_fpctl (g : Group) (l i : Nat) (b : Bool) : (pset g l i b).fpctl = g.fpctl := rfl
@[simp] theorem pset_fpflags (g : Group) (l i : Nat) (b : Bool) : (pset g l i b).fpflags = g.fpflags := rfl
@[simp] theorem pset_fpflagsSh (g : Group) (l i : Nat) (b : Bool) : (pset g l i b).fpflagsSh = g.fpflagsSh := rfl
@[simp] theorem pset_counters (g : Group) (l i : Nat) (b : Bool) : (pset g l i b).counters = g.counters := rfl
@[simp] theorem pset_live (g : Group) (l i : Nat) (b : Bool) : (pset g l i b).live = g.live := rfl
@[simp] theorem pset_splits (g : Group) (l i : Nat) (b : Bool) : (pset g l i b).splits = g.splits := rfl
@[simp] theorem pset_ovf (g : Group) (l i : Nat) (b : Bool) : (pset g l i b).ovf = g.ovf := rfl
@[simp] theorem pset_aside (g : Group) (l i : Nat) (b : Bool) : (pset g l i b).aside = g.aside := rfl
@[simp] theorem pset_events (g : Group) (l i : Nat) (b : Bool) : (pset g l i b).events = g.events := rfl
@[simp] theorem pset_holds (g : Group) (l i : Nat) (b : Bool) : (pset g l i b).holds = g.holds := rfl
@[simp] theorem pset_mons (g : Group) (l i : Nat) (b : Bool) : (pset g l i b).mons = g.mons := rfl
@[simp] theorem pset_region (g : Group) (l i : Nat) (b : Bool) : (pset g l i b).region = g.region := rfl
@[simp] theorem pset_gen (g : Group) (l i : Nat) (b : Bool) : (pset g l i b).gen = g.gen := rfl
@[simp] theorem pset_genDesc (g : Group) (l i : Nat) (b : Bool) : (pset g l i b).genDesc = g.genDesc := rfl
@[simp] theorem pset_trvCount (g : Group) (l i : Nat) (b : Bool) : (pset g l i b).trvCount = g.trvCount := rfl
@[simp] theorem pset_tags (g : Group) (l i : Nat) (b : Bool) : (pset g l i b).tags = g.tags := rfl
@[simp] theorem pset_inj (g : Group) (l i : Nat) (b : Bool) : (pset g l i b).inj = g.inj := rfl
@[simp] theorem pset_prods (g : Group) (l i : Nat) (b : Bool) : (pset g l i b).prods = g.prods := rfl
@[simp] theorem pset_pend (g : Group) (l i : Nat) (b : Bool) : (pset g l i b).pend = g.pend := rfl
@[simp] theorem pset_storeQ (g : Group) (l i : Nat) (b : Bool) : (pset g l i b).storeQ = g.storeQ := rfl
@[simp] theorem pset_sts (g : Group) (l i : Nat) (b : Bool) : (pset g l i b).sts = g.sts := rfl
@[simp] theorem pset_atoms (g : Group) (l i : Nat) (b : Bool) : (pset g l i b).atoms = g.atoms := rfl
@[simp] theorem pset_fenceRel (g : Group) (l i : Nat) (b : Bool) : (pset g l i b).fenceRel = g.fenceRel := rfl
@[simp] theorem pset_replayG (g : Group) (l i : Nat) (b : Bool) : (pset g l i b).replayG = g.replayG := rfl
@[simp] theorem pset_replayS (g : Group) (l i : Nat) (b : Bool) : (pset g l i b).replayS = g.replayS := rfl
@[simp] theorem pset_shader (g : Group) (l i : Nat) (b : Bool) : (pset g l i b).shader = g.shader := rfl
@[simp] theorem pset_synclRound (g : Group) (l i : Nat) (b : Bool) : (pset g l i b).synclRound = g.synclRound := rfl
@[simp] theorem pset_job (g : Group) (l i : Nat) (b : Bool) : (pset g l i b).job = g.job := rfl
@[simp] theorem pset_stopped (g : Group) (l i : Nat) (b : Bool) : (pset g l i b).stopped = g.stopped := rfl
@[simp] theorem pset_kept (g : Group) (l i : Nat) (b : Bool) : (pset g l i b).kept = g.kept := rfl

/-! ### `kput` -/

@[simp] theorem kput_serial (g : Group) (k v : Nat) : (kput g k v).serial = g.serial := rfl
@[simp] theorem kput_part (g : Group) (k v : Nat) : (kput g k v).part = g.part := rfl
@[simp] theorem kput_ctx (g : Group) (k v : Nat) : (kput g k v).ctx = g.ctx := rfl
@[simp] theorem kput_team (g : Group) (k v : Nat) : (kput g k v).team = g.team := rfl
@[simp] theorem kput_index (g : Group) (k v : Nat) : (kput g k v).index = g.index := rfl
@[simp] theorem kput_core (g : Group) (k v : Nat) : (kput g k v).core = g.core := rfl
@[simp] theorem kput_side (g : Group) (k v : Nat) : (kput g k v).side = g.side := rfl
@[simp] theorem kput_slot (g : Group) (k v : Nat) : (kput g k v).slot = g.slot := rfl
@[simp] theorem kput_slice0 (g : Group) (k v : Nat) : (kput g k v).slice0 = g.slice0 := rfl
@[simp] theorem kput_slices (g : Group) (k v : Nat) : (kput g k v).slices = g.slices := rfl
@[simp] theorem kput_width (g : Group) (k v : Nat) : (kput g k v).width = g.width := rfl
@[simp] theorem kput_lined (g : Group) (k v : Nat) : (kput g k v).lined = g.lined := rfl
@[simp] theorem kput_role (g : Group) (k v : Nat) : (kput g k v).role = g.role := rfl
@[simp] theorem kput_sageip (g : Group) (k v : Nat) : (kput g k v).sageip = g.sageip := rfl
@[simp] theorem kput_nv (g : Group) (k v : Nat) : (kput g k v).nv = g.nv := rfl
@[simp] theorem kput_ns (g : Group) (k v : Nat) : (kput g k v).ns = g.ns := rfl
@[simp] theorem kput_priv (g : Group) (k v : Nat) : (kput g k v).priv = g.priv := rfl
@[simp] theorem kput_privSize (g : Group) (k v : Nat) : (kput g k v).privSize = g.privSize := rfl
@[simp] theorem kput_vregs (g : Group) (k v : Nat) : (kput g k v).vregs = g.vregs := rfl
@[simp] theorem kput_empty (g : Group) (k v : Nat) : (kput g k v).empty = g.empty := rfl
@[simp] theorem kput_damaged (g : Group) (k v : Nat) : (kput g k v).damaged = g.damaged := rfl
@[simp] theorem kput_latent (g : Group) (k v : Nat) : (kput g k v).latent = g.latent := rfl
@[simp] theorem kput_residue (g : Group) (k v : Nat) : (kput g k v).residue = g.residue := rfl
@[simp] theorem kput_sregs (g : Group) (k v : Nat) : (kput g k v).sregs = g.sregs := rfl
@[simp] theorem kput_preds (g : Group) (k v : Nat) : (kput g k v).preds = g.preds := rfl
@[simp] theorem kput_fpctl (g : Group) (k v : Nat) : (kput g k v).fpctl = g.fpctl := rfl
@[simp] theorem kput_fpflags (g : Group) (k v : Nat) : (kput g k v).fpflags = g.fpflags := rfl
@[simp] theorem kput_fpflagsSh (g : Group) (k v : Nat) : (kput g k v).fpflagsSh = g.fpflagsSh := rfl
@[simp] theorem kput_live (g : Group) (k v : Nat) : (kput g k v).live = g.live := rfl
@[simp] theorem kput_splits (g : Group) (k v : Nat) : (kput g k v).splits = g.splits := rfl
@[simp] theorem kput_ovf (g : Group) (k v : Nat) : (kput g k v).ovf = g.ovf := rfl
@[simp] theorem kput_aside (g : Group) (k v : Nat) : (kput g k v).aside = g.aside := rfl
@[simp] theorem kput_events (g : Group) (k v : Nat) : (kput g k v).events = g.events := rfl
@[simp] theorem kput_holds (g : Group) (k v : Nat) : (kput g k v).holds = g.holds := rfl
@[simp] theorem kput_mons (g : Group) (k v : Nat) : (kput g k v).mons = g.mons := rfl
@[simp] theorem kput_region (g : Group) (k v : Nat) : (kput g k v).region = g.region := rfl
@[simp] theorem kput_gen (g : Group) (k v : Nat) : (kput g k v).gen = g.gen := rfl
@[simp] theorem kput_genDesc (g : Group) (k v : Nat) : (kput g k v).genDesc = g.genDesc := rfl
@[simp] theorem kput_trvCount (g : Group) (k v : Nat) : (kput g k v).trvCount = g.trvCount := rfl
@[simp] theorem kput_tags (g : Group) (k v : Nat) : (kput g k v).tags = g.tags := rfl
@[simp] theorem kput_inj (g : Group) (k v : Nat) : (kput g k v).inj = g.inj := rfl
@[simp] theorem kput_prods (g : Group) (k v : Nat) : (kput g k v).prods = g.prods := rfl
@[simp] theorem kput_pend (g : Group) (k v : Nat) : (kput g k v).pend = g.pend := rfl
@[simp] theorem kput_storeQ (g : Group) (k v : Nat) : (kput g k v).storeQ = g.storeQ := rfl
@[simp] theorem kput_sts (g : Group) (k v : Nat) : (kput g k v).sts = g.sts := rfl
@[simp] theorem kput_atoms (g : Group) (k v : Nat) : (kput g k v).atoms = g.atoms := rfl
@[simp] theorem kput_fenceRel (g : Group) (k v : Nat) : (kput g k v).fenceRel = g.fenceRel := rfl
@[simp] theorem kput_replayG (g : Group) (k v : Nat) : (kput g k v).replayG = g.replayG := rfl
@[simp] theorem kput_replayS (g : Group) (k v : Nat) : (kput g k v).replayS = g.replayS := rfl
@[simp] theorem kput_shader (g : Group) (k v : Nat) : (kput g k v).shader = g.shader := rfl
@[simp] theorem kput_synclRound (g : Group) (k v : Nat) : (kput g k v).synclRound = g.synclRound := rfl
@[simp] theorem kput_job (g : Group) (k v : Nat) : (kput g k v).job = g.job := rfl
@[simp] theorem kput_stopped (g : Group) (k v : Nat) : (kput g k v).stopped = g.stopped := rfl
@[simp] theorem kput_kept (g : Group) (k v : Nat) : (kput g k v).kept = g.kept := rfl

/-! ### `markEmpty` -/

@[simp] theorem markEmpty_serial (g : Group) (r n : Nat) : (markEmpty g r n).serial = g.serial := rfl
@[simp] theorem markEmpty_part (g : Group) (r n : Nat) : (markEmpty g r n).part = g.part := rfl
@[simp] theorem markEmpty_ctx (g : Group) (r n : Nat) : (markEmpty g r n).ctx = g.ctx := rfl
@[simp] theorem markEmpty_team (g : Group) (r n : Nat) : (markEmpty g r n).team = g.team := rfl
@[simp] theorem markEmpty_index (g : Group) (r n : Nat) : (markEmpty g r n).index = g.index := rfl
@[simp] theorem markEmpty_core (g : Group) (r n : Nat) : (markEmpty g r n).core = g.core := rfl
@[simp] theorem markEmpty_side (g : Group) (r n : Nat) : (markEmpty g r n).side = g.side := rfl
@[simp] theorem markEmpty_slot (g : Group) (r n : Nat) : (markEmpty g r n).slot = g.slot := rfl
@[simp] theorem markEmpty_slice0 (g : Group) (r n : Nat) : (markEmpty g r n).slice0 = g.slice0 := rfl
@[simp] theorem markEmpty_slices (g : Group) (r n : Nat) : (markEmpty g r n).slices = g.slices := rfl
@[simp] theorem markEmpty_width (g : Group) (r n : Nat) : (markEmpty g r n).width = g.width := rfl
@[simp] theorem markEmpty_lined (g : Group) (r n : Nat) : (markEmpty g r n).lined = g.lined := rfl
@[simp] theorem markEmpty_role (g : Group) (r n : Nat) : (markEmpty g r n).role = g.role := rfl
@[simp] theorem markEmpty_sageip (g : Group) (r n : Nat) : (markEmpty g r n).sageip = g.sageip := rfl
@[simp] theorem markEmpty_nv (g : Group) (r n : Nat) : (markEmpty g r n).nv = g.nv := rfl
@[simp] theorem markEmpty_ns (g : Group) (r n : Nat) : (markEmpty g r n).ns = g.ns := rfl
@[simp] theorem markEmpty_priv (g : Group) (r n : Nat) : (markEmpty g r n).priv = g.priv := rfl
@[simp] theorem markEmpty_privSize (g : Group) (r n : Nat) : (markEmpty g r n).privSize = g.privSize := rfl
@[simp] theorem markEmpty_vregs (g : Group) (r n : Nat) : (markEmpty g r n).vregs = g.vregs := rfl
@[simp] theorem markEmpty_damaged (g : Group) (r n : Nat) : (markEmpty g r n).damaged = g.damaged := rfl
@[simp] theorem markEmpty_latent (g : Group) (r n : Nat) : (markEmpty g r n).latent = g.latent := rfl
@[simp] theorem markEmpty_residue (g : Group) (r n : Nat) : (markEmpty g r n).residue = g.residue := rfl
@[simp] theorem markEmpty_sregs (g : Group) (r n : Nat) : (markEmpty g r n).sregs = g.sregs := rfl
@[simp] theorem markEmpty_preds (g : Group) (r n : Nat) : (markEmpty g r n).preds = g.preds := rfl
@[simp] theorem markEmpty_fpctl (g : Group) (r n : Nat) : (markEmpty g r n).fpctl = g.fpctl := rfl
@[simp] theorem markEmpty_fpflags (g : Group) (r n : Nat) : (markEmpty g r n).fpflags = g.fpflags := rfl
@[simp] theorem markEmpty_fpflagsSh (g : Group) (r n : Nat) : (markEmpty g r n).fpflagsSh = g.fpflagsSh := rfl
@[simp] theorem markEmpty_counters (g : Group) (r n : Nat) : (markEmpty g r n).counters = g.counters := rfl
@[simp] theorem markEmpty_live (g : Group) (r n : Nat) : (markEmpty g r n).live = g.live := rfl
@[simp] theorem markEmpty_splits (g : Group) (r n : Nat) : (markEmpty g r n).splits = g.splits := rfl
@[simp] theorem markEmpty_ovf (g : Group) (r n : Nat) : (markEmpty g r n).ovf = g.ovf := rfl
@[simp] theorem markEmpty_aside (g : Group) (r n : Nat) : (markEmpty g r n).aside = g.aside := rfl
@[simp] theorem markEmpty_events (g : Group) (r n : Nat) : (markEmpty g r n).events = g.events := rfl
@[simp] theorem markEmpty_holds (g : Group) (r n : Nat) : (markEmpty g r n).holds = g.holds := rfl
@[simp] theorem markEmpty_mons (g : Group) (r n : Nat) : (markEmpty g r n).mons = g.mons := rfl
@[simp] theorem markEmpty_region (g : Group) (r n : Nat) : (markEmpty g r n).region = g.region := rfl
@[simp] theorem markEmpty_gen (g : Group) (r n : Nat) : (markEmpty g r n).gen = g.gen := rfl
@[simp] theorem markEmpty_genDesc (g : Group) (r n : Nat) : (markEmpty g r n).genDesc = g.genDesc := rfl
@[simp] theorem markEmpty_trvCount (g : Group) (r n : Nat) : (markEmpty g r n).trvCount = g.trvCount := rfl
@[simp] theorem markEmpty_tags (g : Group) (r n : Nat) : (markEmpty g r n).tags = g.tags := rfl
@[simp] theorem markEmpty_inj (g : Group) (r n : Nat) : (markEmpty g r n).inj = g.inj := rfl
@[simp] theorem markEmpty_prods (g : Group) (r n : Nat) : (markEmpty g r n).prods = g.prods := rfl
@[simp] theorem markEmpty_pend (g : Group) (r n : Nat) : (markEmpty g r n).pend = g.pend := rfl
@[simp] theorem markEmpty_storeQ (g : Group) (r n : Nat) : (markEmpty g r n).storeQ = g.storeQ := rfl
@[simp] theorem markEmpty_sts (g : Group) (r n : Nat) : (markEmpty g r n).sts = g.sts := rfl
@[simp] theorem markEmpty_atoms (g : Group) (r n : Nat) : (markEmpty g r n).atoms = g.atoms := rfl
@[simp] theorem markEmpty_fenceRel (g : Group) (r n : Nat) : (markEmpty g r n).fenceRel = g.fenceRel := rfl
@[simp] theorem markEmpty_replayG (g : Group) (r n : Nat) : (markEmpty g r n).replayG = g.replayG := rfl
@[simp] theorem markEmpty_replayS (g : Group) (r n : Nat) : (markEmpty g r n).replayS = g.replayS := rfl
@[simp] theorem markEmpty_shader (g : Group) (r n : Nat) : (markEmpty g r n).shader = g.shader := rfl
@[simp] theorem markEmpty_synclRound (g : Group) (r n : Nat) : (markEmpty g r n).synclRound = g.synclRound := rfl
@[simp] theorem markEmpty_job (g : Group) (r n : Nat) : (markEmpty g r n).job = g.job := rfl
@[simp] theorem markEmpty_stopped (g : Group) (r n : Nat) : (markEmpty g r n).stopped = g.stopped := rfl
@[simp] theorem markEmpty_kept (g : Group) (r n : Nat) : (markEmpty g r n).kept = g.kept := rfl

/-! ### `markFull` -/

@[simp] theorem markFull_serial (g : Group) (r n : Nat) : (markFull g r n).serial = g.serial := rfl
@[simp] theorem markFull_part (g : Group) (r n : Nat) : (markFull g r n).part = g.part := rfl
@[simp] theorem markFull_ctx (g : Group) (r n : Nat) : (markFull g r n).ctx = g.ctx := rfl
@[simp] theorem markFull_team (g : Group) (r n : Nat) : (markFull g r n).team = g.team := rfl
@[simp] theorem markFull_index (g : Group) (r n : Nat) : (markFull g r n).index = g.index := rfl
@[simp] theorem markFull_core (g : Group) (r n : Nat) : (markFull g r n).core = g.core := rfl
@[simp] theorem markFull_side (g : Group) (r n : Nat) : (markFull g r n).side = g.side := rfl
@[simp] theorem markFull_slot (g : Group) (r n : Nat) : (markFull g r n).slot = g.slot := rfl
@[simp] theorem markFull_slice0 (g : Group) (r n : Nat) : (markFull g r n).slice0 = g.slice0 := rfl
@[simp] theorem markFull_slices (g : Group) (r n : Nat) : (markFull g r n).slices = g.slices := rfl
@[simp] theorem markFull_width (g : Group) (r n : Nat) : (markFull g r n).width = g.width := rfl
@[simp] theorem markFull_lined (g : Group) (r n : Nat) : (markFull g r n).lined = g.lined := rfl
@[simp] theorem markFull_role (g : Group) (r n : Nat) : (markFull g r n).role = g.role := rfl
@[simp] theorem markFull_sageip (g : Group) (r n : Nat) : (markFull g r n).sageip = g.sageip := rfl
@[simp] theorem markFull_nv (g : Group) (r n : Nat) : (markFull g r n).nv = g.nv := rfl
@[simp] theorem markFull_ns (g : Group) (r n : Nat) : (markFull g r n).ns = g.ns := rfl
@[simp] theorem markFull_priv (g : Group) (r n : Nat) : (markFull g r n).priv = g.priv := rfl
@[simp] theorem markFull_privSize (g : Group) (r n : Nat) : (markFull g r n).privSize = g.privSize := rfl
@[simp] theorem markFull_vregs (g : Group) (r n : Nat) : (markFull g r n).vregs = g.vregs := rfl
@[simp] theorem markFull_latent (g : Group) (r n : Nat) : (markFull g r n).latent = g.latent := rfl
@[simp] theorem markFull_residue (g : Group) (r n : Nat) : (markFull g r n).residue = g.residue := rfl
@[simp] theorem markFull_sregs (g : Group) (r n : Nat) : (markFull g r n).sregs = g.sregs := rfl
@[simp] theorem markFull_preds (g : Group) (r n : Nat) : (markFull g r n).preds = g.preds := rfl
@[simp] theorem markFull_fpctl (g : Group) (r n : Nat) : (markFull g r n).fpctl = g.fpctl := rfl
@[simp] theorem markFull_fpflags (g : Group) (r n : Nat) : (markFull g r n).fpflags = g.fpflags := rfl
@[simp] theorem markFull_fpflagsSh (g : Group) (r n : Nat) : (markFull g r n).fpflagsSh = g.fpflagsSh := rfl
@[simp] theorem markFull_counters (g : Group) (r n : Nat) : (markFull g r n).counters = g.counters := rfl
@[simp] theorem markFull_live (g : Group) (r n : Nat) : (markFull g r n).live = g.live := rfl
@[simp] theorem markFull_splits (g : Group) (r n : Nat) : (markFull g r n).splits = g.splits := rfl
@[simp] theorem markFull_ovf (g : Group) (r n : Nat) : (markFull g r n).ovf = g.ovf := rfl
@[simp] theorem markFull_aside (g : Group) (r n : Nat) : (markFull g r n).aside = g.aside := rfl
@[simp] theorem markFull_events (g : Group) (r n : Nat) : (markFull g r n).events = g.events := rfl
@[simp] theorem markFull_holds (g : Group) (r n : Nat) : (markFull g r n).holds = g.holds := rfl
@[simp] theorem markFull_mons (g : Group) (r n : Nat) : (markFull g r n).mons = g.mons := rfl
@[simp] theorem markFull_region (g : Group) (r n : Nat) : (markFull g r n).region = g.region := rfl
@[simp] theorem markFull_gen (g : Group) (r n : Nat) : (markFull g r n).gen = g.gen := rfl
@[simp] theorem markFull_genDesc (g : Group) (r n : Nat) : (markFull g r n).genDesc = g.genDesc := rfl
@[simp] theorem markFull_trvCount (g : Group) (r n : Nat) : (markFull g r n).trvCount = g.trvCount := rfl
@[simp] theorem markFull_tags (g : Group) (r n : Nat) : (markFull g r n).tags = g.tags := rfl
@[simp] theorem markFull_inj (g : Group) (r n : Nat) : (markFull g r n).inj = g.inj := rfl
@[simp] theorem markFull_prods (g : Group) (r n : Nat) : (markFull g r n).prods = g.prods := rfl
@[simp] theorem markFull_pend (g : Group) (r n : Nat) : (markFull g r n).pend = g.pend := rfl
@[simp] theorem markFull_storeQ (g : Group) (r n : Nat) : (markFull g r n).storeQ = g.storeQ := rfl
@[simp] theorem markFull_sts (g : Group) (r n : Nat) : (markFull g r n).sts = g.sts := rfl
@[simp] theorem markFull_atoms (g : Group) (r n : Nat) : (markFull g r n).atoms = g.atoms := rfl
@[simp] theorem markFull_fenceRel (g : Group) (r n : Nat) : (markFull g r n).fenceRel = g.fenceRel := rfl
@[simp] theorem markFull_replayG (g : Group) (r n : Nat) : (markFull g r n).replayG = g.replayG := rfl
@[simp] theorem markFull_replayS (g : Group) (r n : Nat) : (markFull g r n).replayS = g.replayS := rfl
@[simp] theorem markFull_shader (g : Group) (r n : Nat) : (markFull g r n).shader = g.shader := rfl
@[simp] theorem markFull_synclRound (g : Group) (r n : Nat) : (markFull g r n).synclRound = g.synclRound := rfl
@[simp] theorem markFull_job (g : Group) (r n : Nat) : (markFull g r n).job = g.job := rfl
@[simp] theorem markFull_stopped (g : Group) (r n : Nat) : (markFull g r n).stopped = g.stopped := rfl
@[simp] theorem markFull_kept (g : Group) (r n : Nat) : (markFull g r n).kept = g.kept := rfl

end Sys2Proof.Machine
end

