-- ==== Sys2Proof/Laws/Issue.lean ====
section
/-!
SUPPORT. An instruction that issues has its own effect and no other, and what the shared ways of writing a destination
leave.
-/
namespace Sys2Proof.Machine
open Sys2Proof Sys2Proof.Safety

theorem powered_next {s t : State} (h : s.mantle.powered = true) : powered s t = .next t := by
  simp [powered, h]

theorem stepEvent_next {s : State} (f : State → State) (h : s.mantle.powered = true) : stepEvent s f = .next (f s) :=
  powered_next h

/-- An instruction that issues answers the state its own effect gives. -/
theorem issue_runs {s : State} {op : Op} {x : Enc} {c : Iss} (h : Issues s op x c) (body : Iss → State → State) :
    issue op x s body = .next (body c s) := by
  have hc : (⟨c.gid, c.g, c.j, c.sp, op, x, (if uniform op x then c.sp.mask else activeOf c.g x c.sp.mask),
      (if uniform op x then bothCopies c.g c.sp.mask else activeOf c.g x (bothCopies c.g c.sp.mask))⟩ : Iss) = c := by
    rw [← h.act, ← h.all, ← h.isOp, ← h.isEnc]
  unfold issue
  rw [h.turn]
  simp only [issueSplit, h.group, h.split, hc, h.fresh, h.checks, h.guards, h.permitted, h.ready]
  rw [powered_next h.powered]
  have ha : (c.act = 0 && c.all = 0) = false := by
    simp only [Bool.and_eq_false_iff, decide_eq_false_iff_not]
    exact .inl h.active
  have hw : (wholeSplit op && (c.sp.mask ≠ c.g.live : Bool)) = false := by
    cases e : wholeSplit op with
    | false => rfl
    | true => simp [h.whole e]
  simp only [h.act, h.all] at ha
  simp only [hw, ha]
  have hp := h.parity
  simp only [h.act] at hp
  have hr := h.residue
  simp only [h.act] at hr
  cases hi : c.g.inj with
  | none => simp [hp, hr]
  | some i =>
    by_cases hn : c.sp.wait = .none
    · have := h.sound hn i hi
      rw [h.act] at this
      simp [hp, hr, this]
    · simp [hp, hr, hn]

/-- An instruction of groups and sequencers that issues in a group. -/
theorem issueBoth_runs {s : State} {op : Op} {x : Enc} {c : Iss} (h : Issues s op x c) (body : Iss → State → State)
    (qbody : SIss → State → State) : issueBoth op x s body qbody = .next (body c s) := by
  have := issue_runs h body
  unfold issue at this
  unfold issueBoth
  rw [h.turn] at this ⊢
  exact this

/-- An instruction that issues in a sequencer. -/
theorem issueBoth_seq {s : State} {op : Op} {x : Enc} {c : SIss} (h : IssuesQ s op x c) (body : Iss → State → State)
    (qbody : SIss → State → State) : issueBoth op x s body qbody = .next (qbody c s) := by
  have hc : (⟨c.tid, c.t, c.q, op, x⟩ : SIss) = c := by rw [← h.isOp, ← h.isEnc]
  unfold issueBoth issueSeq
  rw [h.turn]
  simp only [h.team, h.seq, h.checks, hc]
  exact powered_next h.powered

/-- A matrix instruction that issues. -/
theorem issueQ_runs {s : State} {op : Op} {x : Enc} {c : SIss} (h : IssuesQ s op x c) (qbody : SIss → State → State) :
    issueQ op x s qbody = .next (qbody c s) := issueBoth_seq h _ qbody

/-! ### Registers -/

theorem vget_vset (g : Group) (r l q k : Nat) (v : W32) (hl : l < 64) (hk : k < 64) :
    vget (vset g r l v) q k = if r = q ∧ l = k then v else vget g q k := by
  unfold vget vset
  rw [sget_sput]
  by_cases h : r = q ∧ l = k
  · simp [h]
  · have : ¬ (64 * r + l = 64 * q + k) := by omega
    simp [h, this]

theorem srget_srset (g : Group) (i j k m : Nat) (v : W64) (hj : j < 64) (hm : m < 64) :
    srget (srset g i j v) k m = if i = k ∧ j = m then v else srget g k m := by
  unfold srget srset
  rw [sget_sput]
  by_cases h : i = k ∧ j = m
  · simp [h]
  · have : ¬ (64 * i + j = 64 * k + m) := by omega
    simp [h, this]

@[simp] theorem pget_ones (g : Group) (l : Nat) : pget g l 15 = true := by simp [pget]

theorem pget_pset (g : Group) (l i k j : Nat) (b : Bool) (hi : i < 16) (hj : j < 15) :
    pget (pset g l i b) k j = if l = k ∧ i = j then b else pget g k j := by
  have hb : ∀ w : BitVec 16, (if b then w ||| (1#16 <<< i) else w &&& ~~~ (1#16 <<< i)).getLsbD j =
      if i = j then b else w.getLsbD j := by
    intro w
    have h1 : (1#16 <<< i).getLsbD j = decide (i = j) := by
      simp [BitVec.getLsbD_shiftLeft, BitVec.getLsbD_one]
      by_cases e : i = j <;> simp [e] <;> omega
    cases b <;> by_cases e : i = j <;> simp [h1, e] <;> simp_all
    all_goals omega
  have h15 : ¬ j = 15 := by omega
  unfold pget pset
  simp only [h15, decide_false, Bool.false_or, sget_sput]
  by_cases e : l = k
  · subst e
    simp only [if_true, true_and]
    rw [hb]
  · simp [e]

/-- What writing a list of lanes of a register or a pair leaves in every register of every lane. -/
theorem vget_lanes (r : Nat) (pair : Bool) (f : Nat → BitVec 64) (ls : List Nat) (hls : ∀ l ∈ ls, l < 64) (g : Group)
    (q k : Nat) (hk : k < 64) :
    vget (ls.foldl (fun g l => writeV g r pair l (f l)) g) q k =
      if k ∈ ls ∧ q = r then (f k).extractLsb' 0 32
      else if k ∈ ls ∧ pair = true ∧ q = r + 1 then (f k).extractLsb' 32 32
      else vget g q k := by
  induction ls generalizing g with
  | nil => simp
  | cons a ls ih =>
    have ha : a < 64 := hls a (by simp)
    rw [List.foldl_cons, ih (fun l hl => hls l (by simp [hl]))]
    have hw : vget (writeV g r pair a (f a)) q k =
        if k = a ∧ q = r then (f k).extractLsb' 0 32
        else if k = a ∧ pair = true ∧ q = r + 1 then (f k).extractLsb' 32 32 else vget g q k := by
      unfold writeV
      cases pair
      · simp only [Bool.false_eq_true, if_false, false_and, and_false]
        rw [vget_vset _ _ _ _ _ _ ha hk]
        by_cases e : k = a ∧ q = r
        · obtain ⟨rfl, rfl⟩ := e; simp
        · have : ¬ (r = q ∧ a = k) := fun h => e ⟨h.2.symm, h.1.symm⟩
          simp [e, this]
      · simp only [if_true, true_and]
        rw [vget_vset _ _ _ _ _ _ ha hk, vget_vset _ _ _ _ _ _ ha hk]
        by_cases e : k = a
        · subst e
          by_cases e1 : q = r
          · subst e1; simp
          · by_cases e2 : q = r + 1
            · subst e2; simp
            · have h1 : ¬ r = q := fun h => e1 h.symm
              have h2 : ¬ r + 1 = q := fun h => e2 h.symm
              simp [e1, e2, h1, h2]
        · have : ¬ a = k := fun h => e h.symm
          simp [e, this]
    rw [hw]
    by_cases e : k = a
    · subst e
      by_cases e1 : q = r <;> by_cases e2 : pair = true ∧ q = r + 1 <;> by_cases e3 : k ∈ ls <;> simp_all
    · simp [e]

theorem putLanes_hold (g : Group) (m : BitVec 64) (r : Nat) (pair : Bool) (f : Nat → BitVec 64) :
    LanesHold g (putLanes g r pair (lanesOf m) f) m r pair f := by
  have hls : ∀ l ∈ lanesOf m, l < 64 := fun l hl => ((mem_lanesOf m l).1 hl).1
  have key : ∀ q k, k < 64 → vget (putLanes g r pair (lanesOf m) f) q k = _ :=
    fun q k hk => vget_lanes r pair f (lanesOf m) hls g q k hk
  refine ⟨?_, ?_, ?_⟩
  · intro l hl hm
    rw [key r l hl]; simp [mem_lanesOf, hl, hm]
  · intro hp l hl hm
    rw [key (r + 1) l hl]; simp [mem_lanesOf, hl, hm, hp]
  · intro q l hl h
    rw [key q l hl]
    rcases h with h | ⟨h1, h2⟩
    · simp [mem_lanesOf, h]
    · by_cases hp : pair = true
      · simp [h1, h2 hp]
      · simp [h1, hp]

theorem putLanes_frame (g : Group) (r : Nat) (pair : Bool) (ls : List Nat) (f : Nat → BitVec 64) :
    putLanes g r pair ls f = { g with
      vregs := (putLanes g r pair ls f).vregs, empty := (markFull g r (if pair then 2 else 1)).empty
      damaged := (markFull g r (if pair then 2 else 1)).damaged
      latent := g.latent.filter (fun k => !ls.any (fun l => k == 64 * r + l || (pair && k == 64 * (r + 1) + l))) } := by
  have h : ∀ (ls : List Nat) (g : Group), ls.foldl (fun g l => writeV g r pair l (f l)) g =
      { g with
        vregs := (ls.foldl (fun g l => writeV g r pair l (f l)) g).vregs
        latent := g.latent.filter (fun k => !ls.any (fun l => k == 64 * r + l || (pair && k == 64 * (r + 1) + l))) } := by
    intro ls
    induction ls with
    | nil =>
      intro g
      have e : g.latent.filter (fun k => !([] : List Nat).any (fun l => k == 64 * r + l || (pair && k == 64 * (r + 1) + l))) =
          g.latent := by simp
      rw [e]; rfl
    | cons a ls ih =>
      intro g
      rw [List.foldl_cons, ih]
      have e : (writeV g r pair a (f a)).latent = g.latent.filter (fun k => !(k == 64 * r + a || (pair && k == 64 * (r + 1) + a))) := by
        unfold writeV
        cases pair with
        | false => simp [vset, bne]
        | true => simp [vset, List.filter_filter, bne, Bool.and_comm]
      have e2 : writeV g r pair a (f a) = { g with
          vregs := (writeV g r pair a (f a)).vregs, latent := (writeV g r pair a (f a)).latent } := by
        unfold writeV
        cases pair <;> rfl
      rw [e, List.filter_filter]
      generalize hv : ((ls.foldl (fun g l => writeV g r pair l (f l)) (writeV g r pair a (f a))).vregs) = v
      have e3 : ∀ k, ((!ls.any (fun l => k == 64 * r + l || (pair && k == 64 * (r + 1) + l))) &&
          !(k == 64 * r + a || (pair && k == 64 * (r + 1) + a))) =
          !(a :: ls).any (fun l => k == 64 * r + l || (pair && k == 64 * (r + 1) + l)) := by
        intro k; simp [List.any_cons, Bool.and_comm]
      simp only [e3]
      rw [e2]
  unfold putLanes
  rw [h]
  rfl

theorem putScalar_hold (g : Group) (i : Nat) (hi : i < 64) (f : Nat → W64) :
    ScalarHolds g (putScalar g i f) i f := by
  refine ⟨?_, ?_⟩
  · intro k hk
    unfold putScalar
    unfold copiesOf at hk ⊢
    cases h : g.lined with
    | false => simp_all [srget_srset]
    | true =>
      simp only [h, if_true, List.mem_cons, List.not_mem_nil, or_false] at hk ⊢
      rcases hk with rfl | rfl <;> simp [srget_srset, hi]
  · intro k j hj h
    unfold putScalar
    unfold copiesOf at h ⊢
    cases e : g.lined with
    | false =>
      simp only [e, Bool.false_eq_true, if_false, List.mem_singleton] at h ⊢
      simp only [List.foldl_cons, List.foldl_nil, srget_srset _ _ _ _ _ _ hi hj]
      have : ¬ (0 = k ∧ i = j) := by omega
      simp [this]
    | true =>
      simp only [e, if_true, List.mem_cons, List.not_mem_nil, or_false] at h ⊢
      simp only [List.foldl_cons, List.foldl_nil, srget_srset _ _ _ _ _ _ hi hj]
      have h1 : ¬ (0 = k ∧ i = j) := by omega
      have h2 : ¬ (1 = k ∧ i = j) := by omega
      simp [h1, h2]

theorem putScalar_frame (g : Group) (i : Nat) (f : Nat → W64) :
    putScalar g i f = { g with
      sregs := (putScalar g i f).sregs, damaged := g.damaged.filter (· != 256 + i)
      latent := g.latent.filter (fun j => (copiesOf g).all (fun k => j != 2 ^ 15 + 64 * k + i)) } := by
  have h : copiesOf g = [0, 1] ∨ copiesOf g = [0] := by unfold copiesOf; cases g.lined <;> simp
  unfold putScalar
  rcases h with h | h <;> rw [h]
  · simp [srset, List.filter_filter, Bool.and_comm]
  · simp [srset]

theorem pget_lanes (i : Nat) (hi : i < 16) (f : Nat → Bool) (ls : List Nat) (g : Group) (k j : Nat) (hj : j < 15) :
    pget (ls.foldl (fun g l => pset g l i (f l)) g) k j = if k ∈ ls ∧ i = j then f k else pget g k j := by
  induction ls generalizing g with
  | nil => simp
  | cons a ls ih =>
    rw [List.foldl_cons, ih, pget_pset _ _ _ _ _ _ hi hj]
    by_cases e : k = a
    · subst e
      by_cases e1 : i = j <;> by_cases e2 : k ∈ ls <;> simp_all
    · have : ¬ a = k := fun h => e h.symm
      simp [e, this]

theorem putPreds_hold (g : Group) (m : BitVec 64) (i : Nat) (hi : i < 16) (f : Nat → Bool) :
    PredsHold g (putPreds g i (lanesOf m) f) m i f := by
  refine ⟨?_, ?_, fun l => pget_ones _ _⟩
  · intro h15 l hl hm
    unfold putPreds
    rw [pget_lanes i hi f _ _ _ _ h15]; simp [mem_lanesOf, hl, hm]
  · intro l j hj h
    unfold putPreds
    rw [pget_lanes i hi f _ _ _ _ hj]
    have : ¬ (l ∈ lanesOf m ∧ i = j) := by
      rw [mem_lanesOf]
      rintro ⟨⟨h1, h2⟩, rfl⟩
      rcases h with h | h | h
      · omega
      · simp_all
      · exact h rfl
    simp [this]

theorem putPreds_frame (g : Group) (i : Nat) (ls : List Nat) (f : Nat → Bool) :
    putPreds g i ls f = { g with
      preds := (putPreds g i ls f).preds, damaged := if ls = [] then g.damaged else g.damaged.filter (· != 512 + i)
      latent := g.latent.filter (fun k => !ls.any (fun l => k == 2 ^ 16 + 16 * l + i)) } := by
  unfold putPreds
  induction ls generalizing g with
  | nil =>
    have e : g.latent.filter (fun k => !([] : List Nat).any (fun l => k == 2 ^ 16 + 16 * l + i)) = g.latent := by simp
    rw [e]; rfl
  | cons a ls ih =>
    rw [List.foldl_cons, ih]
    have e : (pset g a i (f a)).latent = g.latent.filter (· != 2 ^ 16 + 16 * a + i) := rfl
    have e1 : (pset g a i (f a)).damaged = g.damaged.filter (· != 512 + i) := rfl
    have e3 : ∀ k, ((!ls.any (fun l => k == 2 ^ 16 + 16 * l + i)) && (k != 2 ^ 16 + 16 * a + i)) =
        !(a :: ls).any (fun l => k == 2 ^ 16 + 16 * l + i) := by
      intro k; simp [List.any_cons, bne, Bool.and_comm]
    have e4 : (if ls = [] then g.damaged.filter (· != 512 + i)
        else (g.damaged.filter (· != 512 + i)).filter (· != 512 + i)) = g.damaged.filter (· != 512 + i) := by
      split <;> simp [List.filter_filter]
    rw [e, e1, e4, List.filter_filter]
    simp only [e3]
    rfl

/-! ### Going on at the next word -/

/-- Going on, alone. -/
theorem advance_only {s : State} {op : Op} {x : Enc} {c : Iss} (h : Issues s op x c) :
    ∃ g', OnlyGroup s (advance s c) c g' ∧ AtPc c g' (c.sp.pc + 1) ∧ ∃ m, g' = { c.g with splits := m } := by
  refine ⟨{ c.g with splits := mput c.g.splits c.j (splitNext s c (c.sp.pc + 1)) }, ⟨?_, ?_, ?_, ?_⟩,
    ⟨⟨splitNext s c (c.sp.pc + 1), ?_, rfl, rfl, rfl, rfl⟩, ?_⟩, ⟨_, rfl⟩⟩
  · simp [advance, goOn, modSplit, modGroup, h.group, mmod, h.split, splitNext]
  · intro k hk
    have hk' : ¬ c.gid = k := fun e => hk e.symm
    simp [advance, goOn, modSplit, modGroup, mget_mmod, hk']
  · intro a; simp
  · rfl
  · simp
  · intro k hk
    have hk' : ¬ c.j = k := fun e => hk e.symm
    simp [hk']

/-- A group-only effect followed by going on: what each part of the state is. -/
theorem onGroup_advance {s : State} {op : Op} {x : Enc} {c : Iss} (h : Issues s op x c) (f : Group → Group)
    (hf : (f c.g).splits = c.g.splits) :
    ∃ g', OnlyGroup s (advance (onGroup s c f) c) c g' ∧ AtPc c g' (c.sp.pc + 1) ∧
      ∃ m, g' = { f c.g with splits := m } := by
  refine ⟨{ f c.g with splits := mput c.g.splits c.j (splitNext s c (c.sp.pc + 1)) }, ⟨?_, ?_, ?_, ?_⟩,
    ⟨⟨splitNext s c (c.sp.pc + 1), ?_, rfl, rfl, rfl, rfl⟩, ?_⟩, ⟨_, rfl⟩⟩
  · simp [advance, goOn, modSplit, onGroup, modGroup, h.group, mmod, hf, h.split, splitNext]
  · intro k hk
    have hk' : ¬ c.gid = k := fun e => hk e.symm
    simp [advance, goOn, modSplit, onGroup, modGroup, mget_mmod, hk']
  · intro a; simp
  · rfl
  · simp
  · intro k hk
    have hk' : ¬ c.j = k := fun e => hk e.symm
    simp [hk']

theorem putD_wrote (c : Iss) (w : Wd) (f : Nat → BitVec 64) (m : Amap Split) :
    WroteD c w f { putD c w f c.g with splits := m } := by
  cases hd : c.x.d with
  | v i =>
    simp only [WroteD, putD, hd]
    have h := putLanes_hold c.g c.all i.toNat ((c.x.span w).1 = 2) f
    exact ⟨⟨h.low, h.high, h.frame⟩, by unfold OnlyLanes; rw [putLanes_frame]⟩
  | s i =>
    simp only [WroteD, putD, hd]
    have h := putScalar_hold c.g i.toNat i.isLt (fun k => scalarResult c.x w (f (laneOfCopy c.g k)))
    exact ⟨⟨h.value, h.frame⟩, by unfold OnlyScalar; rw [putScalar_frame]⟩
  | _ => simp only [WroteD, putD, hd]

theorem putPredD_wrote (c : Iss) (f : Nat → Bool) (m : Amap Split) :
    WrotePred c f { putPredD c f c.g with splits := m } := by
  cases hd : c.x.d with
  | p i =>
    simp only [WrotePred, putPredD, hd]
    have h := putPreds_hold c.g c.all i.toNat i.isLt f
    exact ⟨⟨h.value, h.frame, h.ones⟩, by unfold OnlyPred; rw [putPreds_frame]⟩
  | _ => simp only [WrotePred, putPredD, hd]

theorem putD_splits (c : Iss) (w : Wd) (f : Nat → BitVec 64) (g : Group) : (putD c w f g).splits = g.splits := by
  unfold putD
  split
  · rw [putLanes_frame]
  · rw [putScalar_frame]
  · rfl

theorem putPredD_splits (c : Iss) (f : Nat → Bool) (g : Group) : (putPredD c f g).splits = g.splits := by
  unfold putPredD
  split
  · rw [putPreds_frame]
  · rfl

/-- An instruction that changes its own group and goes on, where `pre` holds. -/
theorem completes_runs {i : Enc → Instr} {op : Op} {pre : State → Enc → Iss → Prop} {body : Enc → Iss → State → State}
    {F : State → Enc → Iss → Group → Group} {post : State → Enc → Iss → Group → Prop}
    (hi : ∀ x s, exec (i x) s = issue op x s (body x))
    (hb : ∀ s x c, Issues s op x c → pre s x c → body x c s = advance (onGroup s c (F s x c)) c)
    (hs : ∀ s x c, Issues s op x c → pre s x c → (F s x c c.g).splits = c.g.splits)
    (hp : ∀ s x c m, Issues s op x c → pre s x c → post s x c { F s x c c.g with splits := m }) :
    Completes i op pre id (fun s x c g' => AtPc c g' (c.sp.pc + 1) ∧ post s x c g') := by
  intro s x c h pr
  obtain ⟨g', h1, h2, m, rfl⟩ := onGroup_advance h (F s x c) (hs s x c h pr)
  refine ⟨_, _, ?_, h1, h2, hp s x c m h pr⟩
  rw [hi, issue_runs h, hb s x c h pr]

/-- An instruction that writes D and goes on. -/
theorem writes_runs {i : Enc → Instr} {op : Op} {w : Wd} {f : Enc → Iss → Nat → BitVec 64}
    (hi : ∀ x s, exec (i x) s = issue op x s (writeD w (f x))) : WritesD i op w f :=
  completes_runs hi (fun _ _ _ _ _ => rfl) (fun _ _ _ _ _ => putD_splits _ _ _ _) (fun _ _ c m _ _ => putD_wrote c w _ m)

/-- An instruction that writes predicate D and goes on. -/
theorem writesPred_runs {i : Enc → Instr} {op : Op} {f : Enc → Iss → Nat → Bool}
    (hi : ∀ x s, exec (i x) s = issue op x s (fun c s => advance (onGroup s c (putPredD c (f x c))) c)) :
    WritesPred i op f :=
  completes_runs hi (fun _ _ _ _ _ => rfl) (fun _ _ _ _ _ => putPredD_splits _ _ _) (fun _ _ c m _ _ => putPredD_wrote c _ m)

theorem isS_idx {y : Operand} (h : y.isS = true) : y.idx < 64 := by
  cases y <;> simp_all [Operand.isS, Operand.idx]
  rename_i i
  exact i.isLt

/-- An instruction that writes one scalar and goes on. -/
theorem writesScalar_runs {i : Enc → Instr} {op : Op} {pre : State → Enc → Iss → Prop}
    {body : Enc → Iss → State → State} {f : State → Enc → Iss → Nat → W64}
    (hi : ∀ x s, exec (i x) s = issue op x s (body x))
    (hb : ∀ s x c, Issues s op x c → x.d.isS = true ∧ pre s x c →
      body x c s = advance (onGroup s c (fun g => putScalar g x.d.idx (f s x c))) c) : WritesScalar i op pre f := by
  refine completes_runs (F := fun s x c g => putScalar g x.d.idx (f s x c)) hi hb ?_ ?_
  · intro s x c _ _
    rw [putScalar_frame]
  · intro s x c m _ p
    have h := putScalar_hold c.g x.d.idx (isS_idx p.1) (f s x c)
    exact ⟨⟨h.value, h.frame⟩, by unfold OnlyScalar; rw [putScalar_frame]⟩

/-- An instruction that only goes on. -/
theorem goesOn_runs {i : Enc → Instr} {op : Op} {pre : State → Enc → Iss → Prop} {body : Enc → Iss → State → State}
    (hi : ∀ x s, exec (i x) s = issue op x s (body x))
    (hb : ∀ s x c, Issues s op x c → pre s x c → body x c s = advance s c) : GoesOn i op pre := by
  intro s x c h pr
  obtain ⟨g', h1, h2, m, rfl⟩ := advance_only h
  exact ⟨_, _, by rw [hi, issue_runs h, hb s x c h pr], h1, h2, rfl⟩

/-! ### Floating point -/

theorem recordFlags_eq (m : BitVec 64) (f : Nat → BitVec 5) (g : Group) :
    recordFlags m f g = { g with
      fpflags := g.fpflags ||| flagsIn g 0 m f
      fpflagsSh := if g.lined then g.fpflagsSh ||| flagsIn g 1 m f else g.fpflagsSh } := by
  cases h : g.lined with
  | false =>
    have : copiesOf g = [0] := by simp [copiesOf, h]
    unfold recordFlags
    rw [this]
    simp [orFlags, h]
  | true =>
    have : copiesOf g = [0, 1] := by simp [copiesOf, h]
    unfold recordFlags
    rw [this]
    simp [orFlags, h]

theorem flagsIn_lined {g h : Group} (hl : h.lined = g.lined) (hw : h.width = g.width) (k : Nat) (m : BitVec 64)
    (f : Nat → BitVec 5) : flagsIn h k m f = flagsIn g k m f := by
  unfold flagsIn lanesOfCopy copyOf
  rw [hl, hw]

theorem putD_lined (c : Iss) (w : Wd) (f : Nat → BitVec 64) (g : Group) :
    putD c w f g = { g with
      vregs := (putD c w f g).vregs, empty := (putD c w f g).empty, damaged := (putD c w f g).damaged
      latent := (putD c w f g).latent, sregs := (putD c w f g).sregs } := by
  unfold putD
  split
  · rw [putLanes_frame]
  · rw [putScalar_frame]
  · rfl

/-- A floating-point instruction that raises no enabled exception. -/
theorem fpWrites_runs {i : Enc → Instr} {op : Op} {w : Wd} {f : Enc → Iss → Nat → BitVec 64 × BitVec 5}
    (hi : ∀ x s, exec (i x) s = issue op x s (fpWriteD w (f x))) : FpWritesD i op w f := by
  refine completes_runs (F := fun s x c g => recordFlags c.all (fun l => (f x c l).2) (putD c w (fun l => (f x c l).1) g)) hi ?_ ?_ ?_
  · intro s x c _ hr
    simp [fpWriteD, fpFinish, hr]
  · intro s x c _ _
    rw [recordFlags_eq]
    exact putD_splits _ _ _ _
  · intro s x c m _ _
    have e := putD_lined c w (fun l => (f x c l).1) c.g
    generalize hq : putD c w (fun l => (f x c l).1) c.g = q at e
    have hl : q.lined = c.g.lined := by rw [e]
    have hw : q.width = c.g.width := by rw [e]
    have h0 : q.fpflags = c.g.fpflags := by rw [e]
    have h1 : q.fpflagsSh = c.g.fpflagsSh := by rw [e]
    have := putD_wrote c w (fun l => (f x c l).1) m
    rw [hq] at this
    rw [recordFlags_eq, flagsIn_lined hl hw, flagsIn_lined hl hw]
    refine ⟨by simp only [h0], by simp only [hl, h1], ?_⟩
    have e2 : ({ q with splits := m } : Group) = { q with
        fpflags := c.g.fpflags, fpflagsSh := c.g.fpflagsSh, splits := m } := by rw [← h0, ← h1]
    rw [e2] at this
    exact this

/-! ### D and predicate E together -/

/-- D written, then predicate E. -/
theorem putDE_wrote (c : Iss) (w : Wd) (f : Nat → BitVec 64) (p : Nat → Bool) (m : Amap Split) :
    WroteDE c w f p { putPredE c p (putD c w f c.g) with splits := m } := by
  refine ⟨{ putD c w f c.g with splits := m }, putD_wrote c w f m, ?_⟩
  generalize putD c w f c.g = q
  cases he : c.x.e with
  | p i =>
    simp only [putPredE, he]
    have h := putPreds_hold q c.all i.toNat i.isLt p
    exact ⟨⟨h.value, h.frame, h.ones⟩, by unfold OnlyPred; rw [putPreds_frame]⟩
  | _ => simp only [putPredE, he]

theorem wroteD_congr {c : Iss} {w : Wd} {f f' : Nat → BitVec 64} {g' : Group} (h : f = f') (a : WroteD c w f g') :
    WroteD c w f' g' := h ▸ a

end Sys2Proof.Machine
end

