-- ==== Sys2Proof/Laws/Memory.lean ====
section
/-!
SUPPORT. Memory: every operation on a memory keeps its canonical form, a read gives what was written, and what an access reaches.
-/
namespace Sys2Proof.Machine

/-- Writing bytes keeps the canonical form. -/
theorem putBytes_wf (m : Memory) (a : Nat) (bs : List (BitVec 8)) (h : Memory.wf m = true) : Memory.wf (putBytes m a bs) = true := by
  induction bs generalizing m a with
  | nil => exact h
  | cons b bs ih => exact ih _ _ (storeWf_sput m a b h)

/-- Writing words of a list of keys keeps the canonical form of a store: masked lines and poison marks. -/
theorem sputs_wf {α : Type} {w : Nat} (l : List α) (key : α → Nat) (val : Store w → α → BitVec w) (m : Store w)
    (h : storeWf m none = true) : storeWf (l.foldl (fun m x => sput m (key x) (val m x)) m) none = true :=
  foldl_keeps (fun m => storeWf m none = true) _ l m h (fun m x _ hm => storeWf_sput m (key x) (val m x) hm)

/-- So does taking out the entries of a range. -/
theorem filter_wf {w : Nat} (m : Store w) (lo : Option Nat) (p : Nat × BitVec w → Bool) (h : storeWf m lo = true) :
    storeWf (m.filter p) lo = true := by
  induction m generalizing lo with
  | nil => exact h
  | cons e m ih =>
    obtain ⟨k, v⟩ := e
    have ht : storeWf m (some k) = true := by cases lo <;> simp_all [storeWf]
    by_cases hp : p (k, v) = true
    · have := ih (some k) ht
      cases lo <;> simp_all [storeWf]
    · simp only [List.filter_cons, hp]
      refine storeWf_mono _ (some k) lo (ih (some k) ht) ?_
      rintro l rfl
      exact ⟨k, rfl, by simp [storeWf] at h; omega⟩

/-- A byte after a write: the one written there, or what it was. -/
theorem sget_putBytes (m : Memory) (a : Nat) (bs : List (BitVec 8)) (x : Nat) :
    sget (putBytes m a bs) x = if a ≤ x ∧ x < a + bs.length then bs.getD (x - a) 0 else sget m x := by
  induction bs generalizing m a with
  | nil => exact (if_neg (by simp only [List.length_nil]; omega)).symm
  | cons b bs ih =>
    rw [putBytes, ih, sget_sput]
    by_cases h1 : a = x
    · subst h1
      have : ¬ (a + 1 ≤ a) := by omega
      simp [this]
    · by_cases h2 : a ≤ x
      · obtain ⟨d, rfl⟩ : ∃ d, x = a + 1 + d := ⟨x - (a + 1), by omega⟩
        have e1 : a + 1 + d - (a + 1) = d := by omega
        have e2 : a + 1 + d - a = d + 1 := by omega
        simp only [e1, e2, List.length_cons, List.getD_cons_succ, h1, if_false]
        have : (a + 1 ≤ a + 1 + d ∧ a + 1 + d < a + 1 + bs.length) ↔ (a ≤ a + 1 + d ∧ a + 1 + d < a + (bs.length + 1)) := by omega
        simp only [this]
      · have e1 : ¬ (a + 1 ≤ x ∧ x < a + 1 + bs.length) := by omega
        have e2 : ¬ (a ≤ x ∧ x < a + (b :: bs).length) := by omega
        simp only [e1, e2, if_false, h1]

/-- The bytes just written are read back. -/
theorem getBytes_putBytes (m : Memory) (a : Nat) (bs : List (BitVec 8)) : getBytes (putBytes m a bs) a bs.length = bs := by
  apply List.ext_getElem
  · simp [getBytes]
  · intro i h1 h2
    have hi : i < bs.length := h2
    simp [getBytes, sget_putBytes, hi]

/-- A write leaves the bytes of another range as they were. -/
theorem getBytes_putBytes_apart (m : Memory) (a b n : Nat) (bs : List (BitVec 8)) (h : a + bs.length ≤ b ∨ b + n ≤ a) :
    getBytes (putBytes m a bs) b n = getBytes m b n := by
  unfold getBytes
  apply List.map_congr_left
  intro i hi
  have hi : i < n := by simpa using hi
  have : ¬ (a ≤ b + i ∧ b + i < a + bs.length) := by omega
  rw [sget_putBytes, if_neg this]

/-- An access that reaches a place has a canonical address, a page that grants it, and lands in that page. -/
theorem reach_ok {s : State} {q : Accessor} {va : BitVec 64} {n : Nat} {need : Need} {p : Phys} (h : reach s q va n need = .ok p) :
    canonical va = true ∧ ∃ e, translate s q.core q.part q.ctx va = .ok e ∧ grants e need = true ∧
      p.pa = e.page + va.toNat % 2 ^ (16 + 10 * e.level) ∧ p.cpol = e.cpol ∧ p.ptrap = e.ptrap ∧
      (isRemote p.pa = false → p.pa < hbmSize → (partOf s q.part).halfStacks.getLsbD (p.pa / 2 ^ 35) = true) := by
  unfold reach at h
  split at h
  · simp at h
  next hc =>
    refine ⟨by simpa using hc, ?_⟩
    split at h
    · simp at h
    next e he =>
      refine ⟨e, he, ?_⟩
      simp only at h
      split at h
      · simp at h
      next hg =>
        refine ⟨by simpa using hg, ?_⟩
        split at h
        next hr => cases h; exact ⟨rfl, rfl, rfl, fun h => by simp_all⟩
        · split at h
          · split at h
            next hs => cases h; exact ⟨rfl, rfl, rfl, fun _ _ => hs⟩
            · simp at h
          next hh =>
            split at h
            · cases h; exact ⟨rfl, rfl, rfl, fun _ h => absurd h hh⟩
            · simp at h

end Sys2Proof.Machine
end

