-- ==== Sys2Proof/Laws/PerInstr.lean ====
section
/-!
SUPPORT. What holds of each instruction as syntax, one lemma a constructor.
-/
namespace Sys2Proof

/-- The opcode and the fields that an instruction carries give it back; a step without an encoding carries none. -/
def Laws.EncodedForm.Statement (i : Instr) : Prop := ∀ op x, i.enc? = some (op, x) → Instr.ofOp x op = i

theorem Laws.EncodedForm.nop (x : Enc) : Laws.EncodedForm.Statement (.nop x) := by
  intro _ _ h; cases h; try rfl
theorem Laws.EncodedForm.exit (x : Enc) : Laws.EncodedForm.Statement (.exit x) := by
  intro _ _ h; cases h; try rfl
theorem Laws.EncodedForm.yield (x : Enc) : Laws.EncodedForm.Statement (.yield x) := by
  intro _ _ h; cases h; try rfl
theorem Laws.EncodedForm.sleep (x : Enc) : Laws.EncodedForm.Statement (.sleep x) := by
  intro _ _ h; cases h; try rfl
theorem Laws.EncodedForm.trap (x : Enc) : Laws.EncodedForm.Statement (.trap x) := by
  intro _ _ h; cases h; try rfl
theorem Laws.EncodedForm.tret (x : Enc) : Laws.EncodedForm.Statement (.tret x) := by
  intro _ _ h; cases h; try rfl
theorem Laws.EncodedForm.srget (x : Enc) : Laws.EncodedForm.Statement (.srget x) := by
  intro _ _ h; cases h; try rfl
theorem Laws.EncodedForm.srset (x : Enc) : Laws.EncodedForm.Statement (.srset x) := by
  intro _ _ h; cases h; try rfl
theorem Laws.EncodedForm.replay (x : Enc) : Laws.EncodedForm.Statement (.replay x) := by
  intro _ _ h; cases h; try rfl
theorem Laws.EncodedForm.pfix (x : Enc) : Laws.EncodedForm.Statement (.pfix x) := by
  intro _ _ h; cases h; try rfl
theorem Laws.EncodedForm.errinj (x : Enc) : Laws.EncodedForm.Statement (.errinj x) := by
  intro _ _ h; cases h; try rfl
theorem Laws.EncodedForm.bra (x : Enc) : Laws.EncodedForm.Statement (.bra x) := by
  intro _ _ h; cases h; try rfl
theorem Laws.EncodedForm.bri (x : Enc) : Laws.EncodedForm.Statement (.bri x) := by
  intro _ _ h; cases h; try rfl
theorem Laws.EncodedForm.brany (x : Enc) : Laws.EncodedForm.Statement (.brany x) := by
  intro _ _ h; cases h; try rfl
theorem Laws.EncodedForm.brall (x : Enc) : Laws.EncodedForm.Statement (.brall x) := by
  intro _ _ h; cases h; try rfl
theorem Laws.EncodedForm.loop (x : Enc) : Laws.EncodedForm.Statement (.loop x) := by
  intro _ _ h; cases h; try rfl
theorem Laws.EncodedForm.call (x : Enc) : Laws.EncodedForm.Statement (.call x) := by
  intro _ _ h; cases h; try rfl
theorem Laws.EncodedForm.calli (x : Enc) : Laws.EncodedForm.Statement (.calli x) := by
  intro _ _ h; cases h; try rfl
theorem Laws.EncodedForm.ret (x : Enc) : Laws.EncodedForm.Statement (.ret x) := by
  intro _ _ h; cases h; try rfl
theorem Laws.EncodedForm.callo (x : Enc) : Laws.EncodedForm.Statement (.callo x) := by
  intro _ _ h; cases h; try rfl
theorem Laws.EncodedForm.calloReg (x : Enc) : Laws.EncodedForm.Statement (.calloReg x) := by
  intro _ _ h; cases h; try rfl
theorem Laws.EncodedForm.reto (x : Enc) : Laws.EncodedForm.Statement (.reto x) := by
  intro _ _ h; cases h; try rfl
theorem Laws.EncodedForm.ovld (x : Enc) : Laws.EncodedForm.Statement (.ovld x) := by
  intro _ _ h; cases h; try rfl
theorem Laws.EncodedForm.ovldF (x : Enc) : Laws.EncodedForm.Statement (.ovldF x) := by
  intro _ _ h; cases h; try rfl
theorem Laws.EncodedForm.overlayLoadComplete (core ctx : Nat) (overlay : BitVec 12) : Laws.EncodedForm.Statement (.overlayLoadComplete core ctx overlay) := by
  intro _ _ h; cases h; try rfl
theorem Laws.EncodedForm.ovwait (x : Enc) : Laws.EncodedForm.Statement (.ovwait x) := by
  intro _ _ h; cases h; try rfl
theorem Laws.EncodedForm.ovhold (x : Enc) : Laws.EncodedForm.Statement (.ovhold x) := by
  intro _ _ h; cases h; try rfl
theorem Laws.EncodedForm.ovdrop (x : Enc) : Laws.EncodedForm.Statement (.ovdrop x) := by
  intro _ _ h; cases h; try rfl
theorem Laws.EncodedForm.ovquery (x : Enc) : Laws.EncodedForm.Statement (.ovquery x) := by
  intro _ _ h; cases h; try rfl
theorem Laws.EncodedForm.plogic (x : Enc) : Laws.EncodedForm.Statement (.plogic x) := by
  intro _ _ h; cases h; try rfl
theorem Laws.EncodedForm.ptos (x : Enc) : Laws.EncodedForm.Statement (.ptos x) := by
  intro _ _ h; cases h; try rfl
theorem Laws.EncodedForm.stop (x : Enc) : Laws.EncodedForm.Statement (.stop x) := by
  intro _ _ h; cases h; try rfl
theorem Laws.EncodedForm.ppopc (x : Enc) : Laws.EncodedForm.Statement (.ppopc x) := by
  intro _ _ h; cases h; try rfl
theorem Laws.EncodedForm.barSet (x : Enc) : Laws.EncodedForm.Statement (.barSet x) := by
  intro _ _ h; cases h; try rfl
theorem Laws.EncodedForm.barSync (x : Enc) : Laws.EncodedForm.Statement (.barSync x) := by
  intro _ _ h; cases h; try rfl
theorem Laws.EncodedForm.barArrive (x : Enc) : Laws.EncodedForm.Statement (.barArrive x) := by
  intro _ _ h; cases h; try rfl
theorem Laws.EncodedForm.barWait (x : Enc) : Laws.EncodedForm.Statement (.barWait x) := by
  intro _ _ h; cases h; try rfl
theorem Laws.EncodedForm.syncl (x : Enc) : Laws.EncodedForm.Statement (.syncl x) := by
  intro _ _ h; cases h; try rfl
theorem Laws.EncodedForm.stageInit (x : Enc) : Laws.EncodedForm.Statement (.stageInit x) := by
  intro _ _ h; cases h; try rfl
theorem Laws.EncodedForm.stagePost (x : Enc) : Laws.EncodedForm.Statement (.stagePost x) := by
  intro _ _ h; cases h; try rfl
theorem Laws.EncodedForm.stageTake (x : Enc) : Laws.EncodedForm.Statement (.stageTake x) := by
  intro _ _ h; cases h; try rfl
theorem Laws.EncodedForm.spmask (x : Enc) : Laws.EncodedForm.Statement (.spmask x) := by
  intro _ _ h; cases h; try rfl
theorem Laws.EncodedForm.joinx (x : Enc) : Laws.EncodedForm.Statement (.joinx x) := by
  intro _ _ h; cases h; try rfl
theorem Laws.EncodedForm.splitMerge (gid : Nat) (target : BitVec 32) : Laws.EncodedForm.Statement (.splitMerge gid target) := by
  intro _ _ h; cases h; try rfl
theorem Laws.EncodedForm.suspend (x : Enc) : Laws.EncodedForm.Statement (.suspend x) := by
  intro _ _ h; cases h; try rfl
theorem Laws.EncodedForm.resume (x : Enc) : Laws.EncodedForm.Statement (.resume x) := by
  intro _ _ h; cases h; try rfl
theorem Laws.EncodedForm.codrop (x : Enc) : Laws.EncodedForm.Statement (.codrop x) := by
  intro _ _ h; cases h; try rfl
theorem Laws.EncodedForm.coinfo (x : Enc) : Laws.EncodedForm.Statement (.coinfo x) := by
  intro _ _ h; cases h; try rfl
theorem Laws.EncodedForm.tkdone (x : Enc) : Laws.EncodedForm.Statement (.tkdone x) := by
  intro _ _ h; cases h; try rfl
theorem Laws.EncodedForm.tkadd (x : Enc) : Laws.EncodedForm.Statement (.tkadd x) := by
  intro _ _ h; cases h; try rfl
theorem Laws.EncodedForm.tkpeek (x : Enc) : Laws.EncodedForm.Statement (.tkpeek x) := by
  intro _ _ h; cases h; try rfl
theorem Laws.EncodedForm.launch (x : Enc) : Laws.EncodedForm.Statement (.launch x) := by
  intro _ _ h; cases h; try rfl
theorem Laws.EncodedForm.regionOpen (x : Enc) : Laws.EncodedForm.Statement (.regionOpen x) := by
  intro _ _ h; cases h; try rfl
theorem Laws.EncodedForm.regionBudgetGrant (core : Nat) : Laws.EncodedForm.Statement (.regionBudgetGrant core) := by
  intro _ _ h; cases h; try rfl
theorem Laws.EncodedForm.regionClose (x : Enc) : Laws.EncodedForm.Statement (.regionClose x) := by
  intro _ _ h; cases h; try rfl
theorem Laws.EncodedForm.regionCommit (gid : Nat) : Laws.EncodedForm.Statement (.regionCommit gid) := by
  intro _ _ h; cases h; try rfl
theorem Laws.EncodedForm.regionAbort (x : Enc) : Laws.EncodedForm.Statement (.regionAbort x) := by
  intro _ _ h; cases h; try rfl
theorem Laws.EncodedForm.regionInfo (x : Enc) : Laws.EncodedForm.Statement (.regionInfo x) := by
  intro _ _ h; cases h; try rfl
theorem Laws.EncodedForm.iadd (x : Enc) : Laws.EncodedForm.Statement (.iadd x) := by
  intro _ _ h; cases h; try rfl
theorem Laws.EncodedForm.isub (x : Enc) : Laws.EncodedForm.Statement (.isub x) := by
  intro _ _ h; cases h; try rfl
theorem Laws.EncodedForm.iadd3 (x : Enc) : Laws.EncodedForm.Statement (.iadd3 x) := by
  intro _ _ h; cases h; try rfl
theorem Laws.EncodedForm.iaddc (x : Enc) : Laws.EncodedForm.Statement (.iaddc x) := by
  intro _ _ h; cases h; try rfl
theorem Laws.EncodedForm.ineg (x : Enc) : Laws.EncodedForm.Statement (.ineg x) := by
  intro _ _ h; cases h; try rfl
theorem Laws.EncodedForm.iabs (x : Enc) : Laws.EncodedForm.Statement (.iabs x) := by
  intro _ _ h; cases h; try rfl
theorem Laws.EncodedForm.imul (x : Enc) : Laws.EncodedForm.Statement (.imul x) := by
  intro _ _ h; cases h; try rfl
theorem Laws.EncodedForm.imulh (x : Enc) : Laws.EncodedForm.Statement (.imulh x) := by
  intro _ _ h; cases h; try rfl
theorem Laws.EncodedForm.imad (x : Enc) : Laws.EncodedForm.Statement (.imad x) := by
  intro _ _ h; cases h; try rfl
theorem Laws.EncodedForm.imadw (x : Enc) : Laws.EncodedForm.Statement (.imadw x) := by
  intro _ _ h; cases h; try rfl
theorem Laws.EncodedForm.idiv (x : Enc) : Laws.EncodedForm.Statement (.idiv x) := by
  intro _ _ h; cases h; try rfl
theorem Laws.EncodedForm.irem (x : Enc) : Laws.EncodedForm.Statement (.irem x) := by
  intro _ _ h; cases h; try rfl
theorem Laws.EncodedForm.imin (x : Enc) : Laws.EncodedForm.Statement (.imin x) := by
  intro _ _ h; cases h; try rfl
theorem Laws.EncodedForm.imax (x : Enc) : Laws.EncodedForm.Statement (.imax x) := by
  intro _ _ h; cases h; try rfl
theorem Laws.EncodedForm.icmp (x : Enc) : Laws.EncodedForm.Statement (.icmp x) := by
  intro _ _ h; cases h; try rfl
theorem Laws.EncodedForm.sel (x : Enc) : Laws.EncodedForm.Statement (.sel x) := by
  intro _ _ h; cases h; try rfl
theorem Laws.EncodedForm.logic3 (x : Enc) : Laws.EncodedForm.Statement (.logic3 x) := by
  intro _ _ h; cases h; try rfl
theorem Laws.EncodedForm.shl (x : Enc) : Laws.EncodedForm.Statement (.shl x) := by
  intro _ _ h; cases h; try rfl
theorem Laws.EncodedForm.shr (x : Enc) : Laws.EncodedForm.Statement (.shr x) := by
  intro _ _ h; cases h; try rfl
theorem Laws.EncodedForm.sar (x : Enc) : Laws.EncodedForm.Statement (.sar x) := by
  intro _ _ h; cases h; try rfl
theorem Laws.EncodedForm.rol (x : Enc) : Laws.EncodedForm.Statement (.rol x) := by
  intro _ _ h; cases h; try rfl
theorem Laws.EncodedForm.ror (x : Enc) : Laws.EncodedForm.Statement (.ror x) := by
  intro _ _ h; cases h; try rfl
theorem Laws.EncodedForm.shf (x : Enc) : Laws.EncodedForm.Statement (.shf x) := by
  intro _ _ h; cases h; try rfl
theorem Laws.EncodedForm.bfx (x : Enc) : Laws.EncodedForm.Statement (.bfx x) := by
  intro _ _ h; cases h; try rfl
theorem Laws.EncodedForm.bfi (x : Enc) : Laws.EncodedForm.Statement (.bfi x) := by
  intro _ _ h; cases h; try rfl
theorem Laws.EncodedForm.popc (x : Enc) : Laws.EncodedForm.Statement (.popc x) := by
  intro _ _ h; cases h; try rfl
theorem Laws.EncodedForm.clz (x : Enc) : Laws.EncodedForm.Statement (.clz x) := by
  intro _ _ h; cases h; try rfl
theorem Laws.EncodedForm.ctz (x : Enc) : Laws.EncodedForm.Statement (.ctz x) := by
  intro _ _ h; cases h; try rfl
theorem Laws.EncodedForm.brev (x : Enc) : Laws.EncodedForm.Statement (.brev x) := by
  intro _ _ h; cases h; try rfl
theorem Laws.EncodedForm.permb (x : Enc) : Laws.EncodedForm.Statement (.permb x) := by
  intro _ _ h; cases h; try rfl
theorem Laws.EncodedForm.lea (x : Enc) : Laws.EncodedForm.Statement (.lea x) := by
  intro _ _ h; cases h; try rfl
theorem Laws.EncodedForm.mov (x : Enc) : Laws.EncodedForm.Statement (.mov x) := by
  intro _ _ h; cases h; try rfl
theorem Laws.EncodedForm.movi (x : Enc) : Laws.EncodedForm.Statement (.movi x) := by
  intro _ _ h; cases h; try rfl
theorem Laws.EncodedForm.movh (x : Enc) : Laws.EncodedForm.Statement (.movh x) := by
  intro _ _ h; cases h; try rfl
theorem Laws.EncodedForm.i2i (x : Enc) : Laws.EncodedForm.Statement (.i2i x) := by
  intro _ _ h; cases h; try rfl
theorem Laws.EncodedForm.dadd (x : Enc) : Laws.EncodedForm.Statement (.dadd x) := by
  intro _ _ h; cases h; try rfl
theorem Laws.EncodedForm.dsub (x : Enc) : Laws.EncodedForm.Statement (.dsub x) := by
  intro _ _ h; cases h; try rfl
theorem Laws.EncodedForm.dmul (x : Enc) : Laws.EncodedForm.Statement (.dmul x) := by
  intro _ _ h; cases h; try rfl
theorem Laws.EncodedForm.dfma (x : Enc) : Laws.EncodedForm.Statement (.dfma x) := by
  intro _ _ h; cases h; try rfl
theorem Laws.EncodedForm.ddiv (x : Enc) : Laws.EncodedForm.Statement (.ddiv x) := by
  intro _ _ h; cases h; try rfl
theorem Laws.EncodedForm.dsqrt (x : Enc) : Laws.EncodedForm.Statement (.dsqrt x) := by
  intro _ _ h; cases h; try rfl
theorem Laws.EncodedForm.dmin (x : Enc) : Laws.EncodedForm.Statement (.dmin x) := by
  intro _ _ h; cases h; try rfl
theorem Laws.EncodedForm.dmax (x : Enc) : Laws.EncodedForm.Statement (.dmax x) := by
  intro _ _ h; cases h; try rfl
theorem Laws.EncodedForm.dround (x : Enc) : Laws.EncodedForm.Statement (.dround x) := by
  intro _ _ h; cases h; try rfl
theorem Laws.EncodedForm.fadd (x : Enc) : Laws.EncodedForm.Statement (.fadd x) := by
  intro _ _ h; cases h; try rfl
theorem Laws.EncodedForm.fsub (x : Enc) : Laws.EncodedForm.Statement (.fsub x) := by
  intro _ _ h; cases h; try rfl
theorem Laws.EncodedForm.fmul (x : Enc) : Laws.EncodedForm.Statement (.fmul x) := by
  intro _ _ h; cases h; try rfl
theorem Laws.EncodedForm.ffma (x : Enc) : Laws.EncodedForm.Statement (.ffma x) := by
  intro _ _ h; cases h; try rfl
theorem Laws.EncodedForm.fdiv (x : Enc) : Laws.EncodedForm.Statement (.fdiv x) := by
  intro _ _ h; cases h; try rfl
theorem Laws.EncodedForm.fsqrt (x : Enc) : Laws.EncodedForm.Statement (.fsqrt x) := by
  intro _ _ h; cases h; try rfl
theorem Laws.EncodedForm.fmin (x : Enc) : Laws.EncodedForm.Statement (.fmin x) := by
  intro _ _ h; cases h; try rfl
theorem Laws.EncodedForm.fmax (x : Enc) : Laws.EncodedForm.Statement (.fmax x) := by
  intro _ _ h; cases h; try rfl
theorem Laws.EncodedForm.fround (x : Enc) : Laws.EncodedForm.Statement (.fround x) := by
  intro _ _ h; cases h; try rfl
theorem Laws.EncodedForm.hadd2 (x : Enc) : Laws.EncodedForm.Statement (.hadd2 x) := by
  intro _ _ h; cases h; try rfl
theorem Laws.EncodedForm.hmul2 (x : Enc) : Laws.EncodedForm.Statement (.hmul2 x) := by
  intro _ _ h; cases h; try rfl
theorem Laws.EncodedForm.hfma2 (x : Enc) : Laws.EncodedForm.Statement (.hfma2 x) := by
  intro _ _ h; cases h; try rfl
theorem Laws.EncodedForm.hmin2 (x : Enc) : Laws.EncodedForm.Statement (.hmin2 x) := by
  intro _ _ h; cases h; try rfl
theorem Laws.EncodedForm.hmax2 (x : Enc) : Laws.EncodedForm.Statement (.hmax2 x) := by
  intro _ _ h; cases h; try rfl
theorem Laws.EncodedForm.dcmp (x : Enc) : Laws.EncodedForm.Statement (.dcmp x) := by
  intro _ _ h; cases h; try rfl
theorem Laws.EncodedForm.fcmp (x : Enc) : Laws.EncodedForm.Statement (.fcmp x) := by
  intro _ _ h; cases h; try rfl
theorem Laws.EncodedForm.hcmp2 (x : Enc) : Laws.EncodedForm.Statement (.hcmp2 x) := by
  intro _ _ h; cases h; try rfl
theorem Laws.EncodedForm.dclass (x : Enc) : Laws.EncodedForm.Statement (.dclass x) := by
  intro _ _ h; cases h; try rfl
theorem Laws.EncodedForm.fclass (x : Enc) : Laws.EncodedForm.Statement (.fclass x) := by
  intro _ _ h; cases h; try rfl
theorem Laws.EncodedForm.cvt (x : Enc) : Laws.EncodedForm.Statement (.cvt x) := by
  intro _ _ h; cases h; try rfl
theorem Laws.EncodedForm.cvtp (x : Enc) : Laws.EncodedForm.Statement (.cvtp x) := by
  intro _ _ h; cases h; try rfl
theorem Laws.EncodedForm.scaleb (x : Enc) : Laws.EncodedForm.Statement (.scaleb x) := by
  intro _ _ h; cases h; try rfl
theorem Laws.EncodedForm.rcp (x : Enc) : Laws.EncodedForm.Statement (.rcp x) := by
  intro _ _ h; cases h; try rfl
theorem Laws.EncodedForm.rsq (x : Enc) : Laws.EncodedForm.Statement (.rsq x) := by
  intro _ _ h; cases h; try rfl
theorem Laws.EncodedForm.exp2 (x : Enc) : Laws.EncodedForm.Statement (.exp2 x) := by
  intro _ _ h; cases h; try rfl
theorem Laws.EncodedForm.log2 (x : Enc) : Laws.EncodedForm.Statement (.log2 x) := by
  intro _ _ h; cases h; try rfl
theorem Laws.EncodedForm.sin (x : Enc) : Laws.EncodedForm.Statement (.sin x) := by
  intro _ _ h; cases h; try rfl
theorem Laws.EncodedForm.cos (x : Enc) : Laws.EncodedForm.Statement (.cos x) := by
  intro _ _ h; cases h; try rfl
theorem Laws.EncodedForm.rng (x : Enc) : Laws.EncodedForm.Statement (.rng x) := by
  intro _ _ h; cases h; try rfl
theorem Laws.EncodedForm.sigacc (x : Enc) : Laws.EncodedForm.Statement (.sigacc x) := by
  intro _ _ h; cases h; try rfl
theorem Laws.EncodedForm.shfl (x : Enc) : Laws.EncodedForm.Statement (.shfl x) := by
  intro _ _ h; cases h; try rfl
theorem Laws.EncodedForm.bcast (x : Enc) : Laws.EncodedForm.Statement (.bcast x) := by
  intro _ _ h; cases h; try rfl
theorem Laws.EncodedForm.vote (x : Enc) : Laws.EncodedForm.Statement (.vote x) := by
  intro _ _ h; cases h; try rfl
theorem Laws.EncodedForm.matchLanes (x : Enc) : Laws.EncodedForm.Statement (.matchLanes x) := by
  intro _ _ h; cases h; try rfl
theorem Laws.EncodedForm.lred (x : Enc) : Laws.EncodedForm.Statement (.lred x) := by
  intro _ _ h; cases h; try rfl
theorem Laws.EncodedForm.lscan (x : Enc) : Laws.EncodedForm.Statement (.lscan x) := by
  intro _ _ h; cases h; try rfl
theorem Laws.EncodedForm.ld (x : Enc) : Laws.EncodedForm.Statement (.ld x) := by
  intro _ _ h; cases h; try rfl
theorem Laws.EncodedForm.ldb (x : Enc) : Laws.EncodedForm.Statement (.ldb x) := by
  intro _ _ h; cases h; try rfl
theorem Laws.EncodedForm.lds (x : Enc) : Laws.EncodedForm.Statement (.lds x) := by
  intro _ _ h; cases h; try rfl
theorem Laws.EncodedForm.st (x : Enc) : Laws.EncodedForm.Statement (.st x) := by
  intro _ _ h; cases h; try rfl
theorem Laws.EncodedForm.stb (x : Enc) : Laws.EncodedForm.Statement (.stb x) := by
  intro _ _ h; cases h; try rfl
theorem Laws.EncodedForm.sts (x : Enc) : Laws.EncodedForm.Statement (.sts x) := by
  intro _ _ h; cases h; try rfl
theorem Laws.EncodedForm.cpaS (x : Enc) : Laws.EncodedForm.Statement (.cpaS x) := by
  intro _ _ h; cases h; try rfl
theorem Laws.EncodedForm.cpaG (x : Enc) : Laws.EncodedForm.Statement (.cpaG x) := by
  intro _ _ h; cases h; try rfl
theorem Laws.EncodedForm.cpaO (x : Enc) : Laws.EncodedForm.Statement (.cpaO x) := by
  intro _ _ h; cases h; try rfl
theorem Laws.EncodedForm.cptS (x : Enc) : Laws.EncodedForm.Statement (.cptS x) := by
  intro _ _ h; cases h; try rfl
theorem Laws.EncodedForm.cptO (x : Enc) : Laws.EncodedForm.Statement (.cptO x) := by
  intro _ _ h; cases h; try rfl
theorem Laws.EncodedForm.copyPartLand (copy part : Nat) : Laws.EncodedForm.Statement (.copyPartLand copy part) := by
  intro _ _ h; cases h; try rfl
theorem Laws.EncodedForm.waitk (x : Enc) : Laws.EncodedForm.Statement (.waitk x) := by
  intro _ _ h; cases h; try rfl
theorem Laws.EncodedForm.kset (x : Enc) : Laws.EncodedForm.Statement (.kset x) := by
  intro _ _ h; cases h; try rfl
theorem Laws.EncodedForm.kget (x : Enc) : Laws.EncodedForm.Statement (.kget x) := by
  intro _ _ h; cases h; try rfl
theorem Laws.EncodedForm.atom (x : Enc) : Laws.EncodedForm.Statement (.atom x) := by
  intro _ _ h; cases h; try rfl
theorem Laws.EncodedForm.atoms (x : Enc) : Laws.EncodedForm.Statement (.atoms x) := by
  intro _ _ h; cases h; try rfl
theorem Laws.EncodedForm.red (x : Enc) : Laws.EncodedForm.Statement (.red x) := by
  intro _ _ h; cases h; try rfl
theorem Laws.EncodedForm.dqpush (x : Enc) : Laws.EncodedForm.Statement (.dqpush x) := by
  intro _ _ h; cases h; try rfl
theorem Laws.EncodedForm.dqpop (x : Enc) : Laws.EncodedForm.Statement (.dqpop x) := by
  intro _ _ h; cases h; try rfl
theorem Laws.EncodedForm.dqsteal (x : Enc) : Laws.EncodedForm.Statement (.dqsteal x) := by
  intro _ _ h; cases h; try rfl
theorem Laws.EncodedForm.monarm (x : Enc) : Laws.EncodedForm.Statement (.monarm x) := by
  intro _ _ h; cases h; try rfl
theorem Laws.EncodedForm.monwait (x : Enc) : Laws.EncodedForm.Statement (.monwait x) := by
  intro _ _ h; cases h; try rfl
theorem Laws.EncodedForm.monwaitTimeout (gid split : Nat) : Laws.EncodedForm.Statement (.monwaitTimeout gid split) := by
  intro _ _ h; cases h; try rfl
theorem Laws.EncodedForm.fence (x : Enc) : Laws.EncodedForm.Statement (.fence x) := by
  intro _ _ h; cases h; try rfl
theorem Laws.EncodedForm.pref (x : Enc) : Laws.EncodedForm.Statement (.pref x) := by
  intro _ _ h; cases h; try rfl
theorem Laws.EncodedForm.cwb (x : Enc) : Laws.EncodedForm.Statement (.cwb x) := by
  intro _ _ h; cases h; try rfl
theorem Laws.EncodedForm.cwbAll (x : Enc) : Laws.EncodedForm.Statement (.cwbAll x) := by
  intro _ _ h; cases h; try rfl
theorem Laws.EncodedForm.cinv (x : Enc) : Laws.EncodedForm.Statement (.cinv x) := by
  intro _ _ h; cases h; try rfl
theorem Laws.EncodedForm.cinvAll (x : Enc) : Laws.EncodedForm.Statement (.cinvAll x) := by
  intro _ _ h; cases h; try rfl
theorem Laws.EncodedForm.slotClaim (x : Enc) : Laws.EncodedForm.Statement (.slotClaim x) := by
  intro _ _ h; cases h; try rfl
theorem Laws.EncodedForm.slotRelease (x : Enc) : Laws.EncodedForm.Statement (.slotRelease x) := by
  intro _ _ h; cases h; try rfl
theorem Laws.EncodedForm.slotReady (x : Enc) : Laws.EncodedForm.Statement (.slotReady x) := by
  intro _ _ h; cases h; try rfl
theorem Laws.EncodedForm.slotDrainEnd (team side slot : Nat) : Laws.EncodedForm.Statement (.slotDrainEnd team side slot) := by
  intro _ _ h; cases h; try rfl
theorem Laws.EncodedForm.slotState (x : Enc) : Laws.EncodedForm.Statement (.slotState x) := by
  intro _ _ h; cases h; try rfl
theorem Laws.EncodedForm.slotWrite (x : Enc) : Laws.EncodedForm.Statement (.slotWrite x) := by
  intro _ _ h; cases h; try rfl
theorem Laws.EncodedForm.slotRead (x : Enc) : Laws.EncodedForm.Statement (.slotRead x) := by
  intro _ _ h; cases h; try rfl
theorem Laws.EncodedForm.mma (x : Enc) : Laws.EncodedForm.Statement (.mma x) := by
  intro _ _ h; cases h; try rfl
theorem Laws.EncodedForm.mmaCplx (x : Enc) : Laws.EncodedForm.Statement (.mmaCplx x) := by
  intro _ _ h; cases h; try rfl
theorem Laws.EncodedForm.mmaTern (x : Enc) : Laws.EncodedForm.Statement (.mmaTern x) := by
  intro _ _ h; cases h; try rfl
theorem Laws.EncodedForm.gang (x : Enc) : Laws.EncodedForm.Statement (.gang x) := by
  intro _ _ h; cases h; try rfl
theorem Laws.EncodedForm.arrayStep (team side : Nat) (residueError : Bool) : Laws.EncodedForm.Statement (.arrayStep team side residueError) := by
  intro _ _ h; cases h; try rfl
theorem Laws.EncodedForm.scacc (x : Enc) : Laws.EncodedForm.Statement (.scacc x) := by
  intro _ _ h; cases h; try rfl
theorem Laws.EncodedForm.accZero (x : Enc) : Laws.EncodedForm.Statement (.accZero x) := by
  intro _ _ h; cases h; try rfl
theorem Laws.EncodedForm.accLoad (x : Enc) : Laws.EncodedForm.Statement (.accLoad x) := by
  intro _ _ h; cases h; try rfl
theorem Laws.EncodedForm.accStore (x : Enc) : Laws.EncodedForm.Statement (.accStore x) := by
  intro _ _ h; cases h; try rfl
theorem Laws.EncodedForm.accMove (x : Enc) : Laws.EncodedForm.Statement (.accMove x) := by
  intro _ _ h; cases h; try rfl
theorem Laws.EncodedForm.seqLoopAdd (x : Enc) : Laws.EncodedForm.Statement (.seqLoopAdd x) := by
  intro _ _ h; cases h; try rfl
theorem Laws.EncodedForm.seqLoopMadd (x : Enc) : Laws.EncodedForm.Statement (.seqLoopMadd x) := by
  intro _ _ h; cases h; try rfl
theorem Laws.EncodedForm.seqLoopLdq (x : Enc) : Laws.EncodedForm.Statement (.seqLoopLdq x) := by
  intro _ _ h; cases h; try rfl
theorem Laws.EncodedForm.seqLoopStq (x : Enc) : Laws.EncodedForm.Statement (.seqLoopStq x) := by
  intro _ _ h; cases h; try rfl
theorem Laws.EncodedForm.seqLoopFlags (x : Enc) : Laws.EncodedForm.Statement (.seqLoopFlags x) := by
  intro _ _ h; cases h; try rfl
theorem Laws.EncodedForm.seqEnd (x : Enc) : Laws.EncodedForm.Statement (.seqEnd x) := by
  intro _ _ h; cases h; try rfl
theorem Laws.EncodedForm.bldBuild (x : Enc) : Laws.EncodedForm.Statement (.bldBuild x) := by
  intro _ _ h; cases h; try rfl
theorem Laws.EncodedForm.bldRefit (x : Enc) : Laws.EncodedForm.Statement (.bldRefit x) := by
  intro _ _ h; cases h; try rfl
theorem Laws.EncodedForm.bldRebal (x : Enc) : Laws.EncodedForm.Statement (.bldRebal x) := by
  intro _ _ h; cases h; try rfl
theorem Laws.EncodedForm.bldPublish (x : Enc) : Laws.EncodedForm.Statement (.bldPublish x) := by
  intro _ _ h; cases h; try rfl
theorem Laws.EncodedForm.tailorOperationEnd (op : Nat) : Laws.EncodedForm.Statement (.tailorOperationEnd op) := by
  intro _ _ h; cases h; try rfl
theorem Laws.EncodedForm.bldStat (x : Enc) : Laws.EncodedForm.Statement (.bldStat x) := by
  intro _ _ h; cases h; try rfl
theorem Laws.EncodedForm.genPin (x : Enc) : Laws.EncodedForm.Statement (.genPin x) := by
  intro _ _ h; cases h; try rfl
theorem Laws.EncodedForm.genUnpin (x : Enc) : Laws.EncodedForm.Statement (.genUnpin x) := by
  intro _ _ h; cases h; try rfl
theorem Laws.EncodedForm.trace (x : Enc) : Laws.EncodedForm.Statement (.trace x) := by
  intro _ _ h; cases h; try rfl
theorem Laws.EncodedForm.probeSph (x : Enc) : Laws.EncodedForm.Statement (.probeSph x) := by
  intro _ _ h; cases h; try rfl
theorem Laws.EncodedForm.probeBox (x : Enc) : Laws.EncodedForm.Statement (.probeBox x) := by
  intro _ _ h; cases h; try rfl
theorem Laws.EncodedForm.shaderDispatch (trav : Nat) (kind : Nat) : Laws.EncodedForm.Statement (.shaderDispatch trav kind) := by
  intro _ _ h; cases h; try rfl
theorem Laws.EncodedForm.traversalComplete (trav : Nat) : Laws.EncodedForm.Statement (.traversalComplete trav) := by
  intro _ _ h; cases h; try rfl
theorem Laws.EncodedForm.hitAccept (x : Enc) : Laws.EncodedForm.Statement (.hitAccept x) := by
  intro _ _ h; cases h; try rfl
theorem Laws.EncodedForm.hitIgnore (x : Enc) : Laws.EncodedForm.Statement (.hitIgnore x) := by
  intro _ _ h; cases h; try rfl
theorem Laws.EncodedForm.hitEnd (x : Enc) : Laws.EncodedForm.Statement (.hitEnd x) := by
  intro _ _ h; cases h; try rfl
theorem Laws.EncodedForm.trvInfoWait (x : Enc) : Laws.EncodedForm.Statement (.trvInfoWait x) := by
  intro _ _ h; cases h; try rfl
theorem Laws.EncodedForm.trvInfoCnt (x : Enc) : Laws.EncodedForm.Statement (.trvInfoCnt x) := by
  intro _ _ h; cases h; try rfl
theorem Laws.EncodedForm.trvInfoKind (x : Enc) : Laws.EncodedForm.Statement (.trvInfoKind x) := by
  intro _ _ h; cases h; try rfl
theorem Laws.EncodedForm.collReduce (x : Enc) : Laws.EncodedForm.Statement (.collReduce x) := by
  intro _ _ h; cases h; try rfl
theorem Laws.EncodedForm.collBcast (x : Enc) : Laws.EncodedForm.Statement (.collBcast x) := by
  intro _ _ h; cases h; try rfl
theorem Laws.EncodedForm.collAllgather (x : Enc) : Laws.EncodedForm.Statement (.collAllgather x) := by
  intro _ _ h; cases h; try rfl
theorem Laws.EncodedForm.collRscatter (x : Enc) : Laws.EncodedForm.Statement (.collRscatter x) := by
  intro _ _ h; cases h; try rfl
theorem Laws.EncodedForm.collWait (x : Enc) : Laws.EncodedForm.Statement (.collWait x) := by
  intro _ _ h; cases h; try rfl
theorem Laws.EncodedForm.collStatus (x : Enc) : Laws.EncodedForm.Statement (.collStatus x) := by
  intro _ _ h; cases h; try rfl
theorem Laws.EncodedForm.queueTailWrite (part queue : Nat) : Laws.EncodedForm.Statement (.queueTailWrite part queue) := by
  intro _ _ h; cases h; try rfl
theorem Laws.EncodedForm.launchPacket (part queue : Nat) : Laws.EncodedForm.Statement (.launchPacket part queue) := by
  intro _ _ h; cases h; try rfl
theorem Laws.EncodedForm.teamPlace (part launch : Nat) : Laws.EncodedForm.Statement (.teamPlace part launch) := by
  intro _ _ h; cases h; try rfl
theorem Laws.EncodedForm.fencePacket (part queue : Nat) : Laws.EncodedForm.Statement (.fencePacket part queue) := by
  intro _ _ h; cases h; try rfl
theorem Laws.EncodedForm.fencePacketPerform (part queue : Nat) : Laws.EncodedForm.Statement (.fencePacketPerform part queue) := by
  intro _ _ h; cases h; try rfl
theorem Laws.EncodedForm.signalPacket (part queue : Nat) : Laws.EncodedForm.Statement (.signalPacket part queue) := by
  intro _ _ h; cases h; try rfl
theorem Laws.EncodedForm.chainEnd (part queue : Nat) : Laws.EncodedForm.Statement (.chainEnd part queue) := by
  intro _ _ h; cases h; try rfl
theorem Laws.EncodedForm.tasksPacket (part queue : Nat) : Laws.EncodedForm.Statement (.tasksPacket part queue) := by
  intro _ _ h; cases h; try rfl
theorem Laws.EncodedForm.taskDispatch (part : Nat) : Laws.EncodedForm.Statement (.taskDispatch part) := by
  intro _ _ h; cases h; try rfl
theorem Laws.EncodedForm.taskDecrement (part : Nat) : Laws.EncodedForm.Statement (.taskDecrement part) := by
  intro _ _ h; cases h; try rfl
theorem Laws.EncodedForm.queueStatusWrite (part queue : Nat) : Laws.EncodedForm.Statement (.queueStatusWrite part queue) := by
  intro _ _ h; cases h; try rfl
theorem Laws.EncodedForm.registerWriteBack (gid producer : Nat) : Laws.EncodedForm.Statement (.registerWriteBack gid producer) := by
  intro _ _ h; cases h; try rfl
theorem Laws.EncodedForm.storeQueueDrain (gid : Nat) : Laws.EncodedForm.Statement (.storeQueueDrain gid) := by
  intro _ _ h; cases h; try rfl
theorem Laws.EncodedForm.l2SliceRequest (slice : Nat) : Laws.EncodedForm.Statement (.l2SliceRequest slice) := by
  intro _ _ h; cases h; try rfl
theorem Laws.EncodedForm.eventDelivery (gid : Nat) : Laws.EncodedForm.Statement (.eventDelivery gid) := by
  intro _ _ h; cases h; try rfl
theorem Laws.EncodedForm.unitHaltStop (part : Nat) (skid : BitVec 32) : Laws.EncodedForm.Statement (.unitHaltStop part skid) := by
  intro _ _ h; cases h; try rfl
theorem Laws.EncodedForm.preemptStopAck (part team : Nat) : Laws.EncodedForm.Statement (.preemptStopAck part team) := by
  intro _ _ h; cases h; try rfl
theorem Laws.EncodedForm.preemptSave (part : Nat) : Laws.EncodedForm.Statement (.preemptSave part) := by
  intro _ _ h; cases h; try rfl
theorem Laws.EncodedForm.preemptRestore (part launch : Nat) : Laws.EncodedForm.Statement (.preemptRestore part launch) := by
  intro _ _ h; cases h; try rfl
theorem Laws.EncodedForm.reserveCoreJobStart (cluster : Nat) : Laws.EncodedForm.Statement (.reserveCoreJobStart cluster) := by
  intro _ _ h; cases h; try rfl
theorem Laws.EncodedForm.darnerHandBack (job : Nat) : Laws.EncodedForm.Statement (.darnerHandBack job) := by
  intro _ _ h; cases h; try rfl
theorem Laws.EncodedForm.auditRunEnd (job : Nat) : Laws.EncodedForm.Statement (.auditRunEnd job) := by
  intro _ _ h; cases h; try rfl
theorem Laws.EncodedForm.tlbiDone (part : Nat) : Laws.EncodedForm.Statement (.tlbiDone part) := by
  intro _ _ h; cases h; try rfl
theorem Laws.EncodedForm.collChunkArrival (part member chunk : Nat) (key : CollKey) (data : List (BitVec 64)) (poisoned : List Nat) : Laws.EncodedForm.Statement (.collChunkArrival part member chunk key data poisoned) := by
  intro _ _ h; cases h; try rfl
theorem Laws.EncodedForm.collMemberTimeout (op member : Nat) : Laws.EncodedForm.Statement (.collMemberTimeout op member) := by
  intro _ _ h; cases h; try rfl
theorem Laws.EncodedForm.collOperationEnd (op : Nat) (lost : List Nat) : Laws.EncodedForm.Statement (.collOperationEnd op lost) := by
  intro _ _ h; cases h; try rfl
theorem Laws.EncodedForm.queueDescriptorWrite (part queue word : Nat) (value : BitVec 64) : Laws.EncodedForm.Statement (.queueDescriptorWrite part queue word value) := by
  intro _ _ h; cases h; try rfl
theorem Laws.EncodedForm.dirtyLineTimeout (core line : Nat) : Laws.EncodedForm.Statement (.dirtyLineTimeout core line) := by
  intro _ _ h; cases h; try rfl
theorem Laws.EncodedForm.pageWalk (core part ctx : Nat) (va : BitVec 64) : Laws.EncodedForm.Statement (.pageWalk core part ctx va) := by
  intro _ _ h; cases h; try rfl
theorem Laws.EncodedForm.hbmRequest (channel : Nat) (activates : Bool) (ns : Nat) (lanesLost : List Nat) : Laws.EncodedForm.Statement (.hbmRequest channel activates ns lanesLost) := by
  intro _ _ h; cases h; try rfl
theorem Laws.EncodedForm.rfmThreshold (channel bank : Nat) : Laws.EncodedForm.Statement (.rfmThreshold channel bank) := by
  intro _ _ h; cases h; try rfl
theorem Laws.EncodedForm.rfmHoldEnd (channel bank : Nat) (ns : Nat) : Laws.EncodedForm.Statement (.rfmHoldEnd channel bank ns) := by
  intro _ _ h; cases h; try rfl
theorem Laws.EncodedForm.refreshWindowEnd (channel bank : Nat) : Laws.EncodedForm.Statement (.refreshWindowEnd channel bank) := by
  intro _ _ h; cases h; try rfl
theorem Laws.EncodedForm.ualinkMemoryRequest (source : BitVec 10) (kind : Nat) (address : BitVec 41) (data : List (BitVec 8)) : Laws.EncodedForm.Statement (.ualinkMemoryRequest source kind address data) := by
  intro _ _ h; cases h; try rfl
theorem Laws.EncodedForm.ualinkAppend (source : BitVec 10) (part queue : Nat) (data : List (BitVec 8)) : Laws.EncodedForm.Statement (.ualinkAppend source part queue data) := by
  intro _ _ h; cases h; try rfl
theorem Laws.EncodedForm.linkLevelRetry (port : Nat) (flit : Nat) : Laws.EncodedForm.Statement (.linkLevelRetry port flit) := by
  intro _ _ h; cases h; try rfl
theorem Laws.EncodedForm.rdmaWrite (part : Nat) (rkey : BitVec 32) (address : BitVec 64) (data : List (BitVec 8)) : Laws.EncodedForm.Statement (.rdmaWrite part rkey address data) := by
  intro _ _ h; cases h; try rfl
theorem Laws.EncodedForm.rdmaRead (part : Nat) (rkey : BitVec 32) (address : BitVec 64) (length : Nat) : Laws.EncodedForm.Statement (.rdmaRead part rkey address length) := by
  intro _ _ h; cases h; try rfl
theorem Laws.EncodedForm.udSend (part : Nat) (qpn : BitVec 24) (data : List (BitVec 8)) : Laws.EncodedForm.Statement (.udSend part qpn data) := by
  intro _ _ h; cases h; try rfl
theorem Laws.EncodedForm.testPeriodExpiry (part cluster : Nat) : Laws.EncodedForm.Statement (.testPeriodExpiry part cluster) := by
  intro _ _ h; cases h; try rfl
theorem Laws.EncodedForm.inFieldTestEnd (cluster : Nat) (pass : Bool) : Laws.EncodedForm.Statement (.inFieldTestEnd cluster pass) := by
  intro _ _ h; cases h; try rfl
theorem Laws.EncodedForm.coreRetire (core : Nat) : Laws.EncodedForm.Statement (.coreRetire core) := by
  intro _ _ h; cases h; try rfl
theorem Laws.EncodedForm.sliceRetire (core slice : Nat) : Laws.EncodedForm.Statement (.sliceRetire core slice) := by
  intro _ _ h; cases h; try rfl
theorem Laws.EncodedForm.wayRetire (l2 : Bool) (unit set way : Nat) : Laws.EncodedForm.Statement (.wayRetire l2 unit set way) := by
  intro _ _ h; cases h; try rfl
theorem Laws.EncodedForm.rowRemap (channel group row spare : Nat) : Laws.EncodedForm.Statement (.rowRemap channel group row spare) := by
  intro _ _ h; cases h; try rfl
theorem Laws.EncodedForm.dqRepair (channel lane : Nat) : Laws.EncodedForm.Statement (.dqRepair channel lane) := by
  intro _ _ h; cases h; try rfl
theorem Laws.EncodedForm.retrainComplete (channel : Nat) : Laws.EncodedForm.Statement (.retrainComplete channel) := by
  intro _ _ h; cases h; try rfl
theorem Laws.EncodedForm.pinRepairTimeout (channel : Nat) : Laws.EncodedForm.Statement (.pinRepairTimeout channel) := by
  intro _ _ h; cases h; try rfl
theorem Laws.EncodedForm.tlbiCtlWrite (part : Nat) (value : BitVec 64) : Laws.EncodedForm.Statement (.tlbiCtlWrite part value) := by
  intro _ _ h; cases h; try rfl
theorem Laws.EncodedForm.haltRequest (part : Nat) (cause : BitVec 8) : Laws.EncodedForm.Statement (.haltRequest part cause) := by
  intro _ _ h; cases h; try rfl
theorem Laws.EncodedForm.release (part : Nat) : Laws.EncodedForm.Statement (.release part) := by
  intro _ _ h; cases h; try rfl
theorem Laws.EncodedForm.frHeadWrite (part : Nat) (value : BitVec 64) : Laws.EncodedForm.Statement (.frHeadWrite part value) := by
  intro _ _ h; cases h; try rfl
theorem Laws.EncodedForm.frBaseWrite (part : Nat) (value : BitVec 64) : Laws.EncodedForm.Statement (.frBaseWrite part value) := by
  intro _ _ h; cases h; try rfl
theorem Laws.EncodedForm.counterClear (part offset : Nat) (value : BitVec 64) : Laws.EncodedForm.Statement (.counterClear part offset value) := by
  intro _ _ h; cases h; try rfl
theorem Laws.EncodedForm.registerWrite (part offset : Nat) (value : BitVec 64) : Laws.EncodedForm.Statement (.registerWrite part offset value) := by
  intro _ _ h; cases h; try rfl
theorem Laws.EncodedForm.layout (signed : Bool) (seq : BitVec 64) (part : Nat) (clusters sliceGroups : BitVec 32) (halfStacks : BitVec 24) (ethShare ualShare : BitVec 8) : Laws.EncodedForm.Statement (.layout signed seq part clusters sliceGroups halfStacks ethShare ualShare) := by
  intro _ _ h; cases h; try rfl
theorem Laws.EncodedForm.stage (signed : Bool) (seq : BitVec 64) (image : List (BitVec 8)) (version : Nat) (verified : Bool) : Laws.EncodedForm.Statement (.stage signed seq image version verified) := by
  intro _ _ h; cases h; try rfl
theorem Laws.EncodedForm.activate (signed : Bool) (seq : BitVec 64) : Laws.EncodedForm.Statement (.activate signed seq) := by
  intro _ _ h; cases h; try rfl
theorem Laws.EncodedForm.quote (signed : Bool) (seq : BitVec 64) (nonce : BitVec 256) : Laws.EncodedForm.Statement (.quote signed seq nonce) := by
  intro _ _ h; cases h; try rfl
theorem Laws.EncodedForm.log (signed : Bool) (seq : BitVec 64) (index : Nat) : Laws.EncodedForm.Statement (.log signed seq index) := by
  intro _ _ h; cases h; try rfl
theorem Laws.EncodedForm.power (signed : Bool) (seq : BitVec 64) (watts : Nat) : Laws.EncodedForm.Statement (.power signed seq watts) := by
  intro _ _ h; cases h; try rfl
theorem Laws.EncodedForm.test (signed : Bool) (seq : BitVec 64) (part : Nat) (on : Bool) : Laws.EncodedForm.Statement (.test signed seq part on) := by
  intro _ _ h; cases h; try rfl
theorem Laws.EncodedForm.powerOnReset (bootsA bootsB : Bool) : Laws.EncodedForm.Statement (.powerOnReset bootsA bootsB) := by
  intro _ _ h; cases h; try rfl
theorem Laws.EncodedForm.clockThrottle (watts temp : Nat) (throttleLine : Bool) : Laws.EncodedForm.Statement (.clockThrottle watts temp throttleLine) := by
  intro _ _ h; cases h; try rfl
theorem Laws.EncodedForm.overtempShutdown (die : Nat) : Laws.EncodedForm.Statement (.overtempShutdown die) := by
  intro _ _ h; cases h; try rfl
theorem Laws.EncodedForm.unitReady (word bit : Nat) : Laws.EncodedForm.Statement (.unitReady word bit) := by
  intro _ _ h; cases h; try rfl
theorem Laws.EncodedForm.ualinkErrorResponse (request : Nat) : Laws.EncodedForm.Statement (.ualinkErrorResponse request) := by
  intro _ _ h; cases h; try rfl
theorem Laws.EncodedForm.unsupportedEthernetFrame : Laws.EncodedForm.Statement .unsupportedEthernetFrame := by
  intro _ _ h; cases h; try rfl

end Sys2Proof
end

