-- ==== Sys2Proof/Tests/Slice0.lean ====
section
/-!
SUPPORT. Tests: words of the encoding tables, words that break each check, results of the spec's examples, and for every
statement states and operands that meet what it supposes.
-/
namespace Sys2Proof.Tests
open Sys2Proof Sys2Proof.Machine Sys2Proof.Safety

/-- The machine with one group of 16 lanes (vector) on core 0 whose split 0 has the turn. -/
def one : State := { placeWord State.reset 0 with turn := .split 1 0, agenda := [] }

/-- What an instruction of the group meets: some `c` with which it issues, and `p` holds. -/
def meets (s : State) (op : Op) (x : Enc) (p : Iss → Bool) : Bool :=
  match s.turn with
  | .split gid j =>
    match mget s.groups gid with
    | none => false
    | some g =>
      match mget g.splits j with
      | none => false
      | some sp =>
        let c : Iss := {
          gid, j, g, sp, op, x
          act := if uniform op x then sp.mask else activeOf g x sp.mask
          all := if uniform op x then bothCopies g sp.mask else activeOf g x (bothCopies g sp.mask) }
        s.mantle.powered && c.act != 0 && sp.caught == none && issueCheck s g op x == none &&
          guardHit g x sp.mask == none && !(regionBars op && g.region.st == .opened) &&
          (!wholeSplit op || sp.mask == g.live) && regsReady g op x == .go && parityHit g op x c.act == none &&
          residueHit g op c.act == none &&
          (match g.inj with | some i => !injEvent i op x c.act | none => true) && p c
  | _ => false

theorem meets_issues {s : State} {op : Op} {x : Enc} {p : Iss → Bool} (h : meets s op x p = true) :
    ∃ c, Issues s op x c ∧ p c = true := by
  unfold meets at h
  split at h
  next gid j ht =>
    split at h
    · simp at h
    next g hg =>
      split at h
      · simp at h
      next sp hs =>
        simp only [Bool.and_eq_true] at h
        obtain ⟨⟨⟨⟨⟨⟨⟨⟨⟨⟨⟨h1, h2⟩, h10⟩, h3⟩, h11⟩, h4⟩, h5⟩, h6⟩, h9⟩, h12⟩, h7⟩, h8⟩ := h
        refine ⟨_, ⟨h1, ht, hg, hs, rfl, rfl, rfl, rfl, ?_, ?_, ?_, ?_, ?_, ?_, ?_, ?_, ?_, ?_⟩, h8⟩
        · simpa using h2
        · simpa using h10
        · simpa using h3
        · simpa using h11
        · cases e1 : regionBars op <;> simp_all
        · intro w
          simpa [w] using h5
        · simpa using h6
        · simpa using h9
        · simpa using h12
        · intro _ i hi
          rw [hi] at h7; simpa using h7
  · simp at h

/-- The machine with one team and its sequencer, which has the turn. -/
def seqOne : State := { placeWord State.reset (BitVec.ofNat 128 (0x3C * 2 ^ 122)) with turn := .seq 1, agenda := [] }

/-- The same of a sequencer. -/
def meetsQ (s : State) (op : Op) (x : Enc) (p : SIss → Bool) : Bool :=
  match s.turn with
  | .seq tid =>
    match mget s.teams tid with
    | none => false
    | some t =>
      match t.seq with
      | none => false
      | some q => s.mantle.powered && seqCheck op x == none && p { tid, t, q, op, x }
  | _ => false

theorem meetsQ_issues {s : State} {op : Op} {x : Enc} {p : SIss → Bool} (h : meetsQ s op x p = true) :
    ∃ c, IssuesQ s op x c ∧ p c = true := by
  unfold meetsQ at h
  split at h
  next tid ht =>
    split at h
    · simp at h
    next t hg =>
      split at h
      · simp at h
      next q hs =>
        simp only [Bool.and_eq_true] at h
        obtain ⟨⟨h1, h2⟩, h3⟩ := h
        exact ⟨_, ⟨h1, ht, hg, hs, rfl, rfl, by simpa using h2⟩, h3⟩
  · simp at h

/-- Every instruction of a list issues in a state. -/
def issueIn (s : State) (l : List (Op × Enc)) : List Op :=
  (l.filter (fun e => !meets s e.1 e.2 (fun _ => true))).map (·.1)

/-- A word with three vector sources. -/
def three (ty : Ty) : Enc := { plainEnc with d := .v 8, a := .v 0, b := .v 2, c := .v 4, ty }
/-- A word with two vector sources. -/
def two (ty : Ty) : Enc := { three ty with c := .v 0 }
/-- A word with one vector source. -/
def uno (ty : Ty) : Enc := { two ty with b := .v 0 }

theorem meets_IntegerArithmeticWritesD : issueIn one [
    (.iadd, two .i32), (.iadd, { two .n64 with d := .s 8, a := .s 0, b := .imm, imm := 0xFFFF }), (.isub, two .n32),
    (.iadd3, three .i64), (.ineg, uno .i32), (.iabs, uno .i8x4), (.imul, two .n16x2), (.imulh, two .n64),
    (.imad, three .i32), (.imadw, three .n32), (.idiv, two .i32), (.irem, two .n64),
    (.lea, { two .i32 with a := .s 4, md := 4 })] = [] := by decide

theorem meets_MinMaxReturnsLesserOrGreater : issueIn one [(.imin, two .i32), (.imax, two .n8x4)] = [] := by decide

theorem meets_BitInstructionsAndMovesWriteD : issueIn one [
    (.logic3, { three .b32 with md := 0xE8 }), (.shl, two .b32), (.shr, two .n64), (.sar, two .b32), (.rol, two .b32),
    (.ror, two .n64), (.shf, { three .b32 with md := 1 }), (.bfx, three .i32), (.bfi, three .b32), (.permb, three .b32),
    (.mov, uno .n64), (.movi, { uno .b32 with a := .imm, imm := 0x1234, md := 1 }),
    (.movh, { uno .n64 with a := .imm, imm := 0xFFFF, md := 3 }), (.i2i, { uno .i64 with md := 1 }), (.rng, two .n32),
    (.matchLanes, uno .b32), (.ptos, { uno .b32 with a := .v 0 }), (.ppopc, { uno .b32 with a := .p 1 }),
    (.kget, { uno .b32 with a := .k 3 })] = [] := by decide

theorem meets_BitCountsAndReversal :
    issueIn one [(.popc, uno .n64), (.clz, uno .b32), (.ctz, uno .n64), (.brev, uno .b32)] = [] := by decide

/-- The checks of a list that do not hold. -/
def failures (l : List Bool) : List Nat := ((List.range l.length).zip l).filterMap (fun e => if e.2 then none else some e.1)

/-- No active lane raises an enabled exception. -/
def records (f : Iss → Nat → BitVec 5) (c : Iss) : Bool :=
  match fpOutcome c.g c.all (f c) with | .record => true | _ => false

/-- A word that writes predicate 1 from two vector sources, combined with p15. -/
def comp (ty : Ty) : Enc := { two ty with d := .p 1, c := .p 15 }

theorem meets_ComparisonsVotesAndLogicWritePredicates : failures [
    meets one .icmp { comp .i32 with md := 5 } (fun _ => true),
    meets one .plogic { plainEnc with d := .p 1, a := .p 2, b := .p 3, c := .p 4, md := 0xE8 } (fun _ => true),
    meets one .dclass { comp .f64 with b := .v 0, md := 0x40 } (fun _ => true),
    meets one .fclass { comp .f32 with b := .v 0, md := 0x8000 } (fun _ => true),
    meets one .vote { plainEnc with d := .v 8, a := .p 1, md := 0x1C } (fun c => c.x.bits 3 2 = 3),
    meets one .vote { plainEnc with d := .p 2, a := .p 1, md := 0x04 } (fun c => c.x.bits 3 2 = 0),
    meets one .vote { plainEnc with d := .p 2, a := .p 1, md := 0x14 } (fun c => c.x.bits 3 2 = 2),
    meets one .dcmp (comp .f64) (records condFlags), meets one .fcmp (comp .f32) (records condFlags),
    meets one .hcmp2 { comp .f16x2 with e := .p 2 } (records condFlags)] = [] := by decide

theorem meets_SelectCarryShuffleAndSignature : failures [
    meets one .sel { two .b32 with c := .p 3 } (fun c => c.x.d.isV),
    meets one .sel { two .b32 with d := .s 8, a := .s 0, b := .s 1, c := .p 3 }
      (fun c => c.x.d.isS && (copiesOf c.g).all (fun k => sharedPred c k c.x.c == some false)),
    meets one .iaddc { two .n32 with c := .p 15, e := .p 2, md := 3 } (fun c => c.x.d.isV),
    meets one .iaddc { two .n64 with d := .s 8, a := .s 0, b := .s 1, c := .p 15, e := .p 2 }
      (fun c => c.x.d.isS && (copiesOf c.g).all (fun k => sharedPred c k c.x.c == some true)),
    meets one .shfl { two .b32 with e := .p 2, md := 0x0C } (fun _ => true),
    meets one .bcast { two .n64 with b := .s 3 } (fun _ => true),
    meets one .sigacc { two .n64 with d := .s 2 } (fun _ => true)] = [] := by decide

/-- The floating-point forms, each with a word of it and the exceptions that it raises in a lane. -/
def floating : List (Op × Enc × (Iss → Nat → BitVec 5)) :=
  let flags (f : Iss → Nat → BitVec 64 × BitVec 5) (c : Iss) (l : Nat) : BitVec 5 := (f c l).2
  let add := flags (fpMap exprAdd)
  let sub := flags (fpMap exprSub)
  let mul := flags (fpMap exprMul)
  let fma := flags (fpMap exprFma)
  let scan (c : Iss) (l : Nat) : BitVec 5 := (lanesOfCopy c.g (copyOf c.g l) c.all).foldl
    (fun v i => v ||| (segReduce c i (fun j => j < i || (j == i && !c.x.bit 6))).2) 0
  let red (c : Iss) (l : Nat) : BitVec 5 := (lanesOfCopy c.g (copyOf c.g l) c.all).foldl
    (fun v j => v ||| (segReduce c j (fun _ => true)).2) 0
  [(.dadd, two .f64, add), (.dsub, two .f64, sub), (.dmul, two .f64, mul), (.dfma, three .f64, fma),
   (.dmin, two .f64, flags (minMaxLane false)), (.dmax, two .f64, flags (minMaxLane true)), (.dround, uno .f64, flags roundLane),
   (.fadd, two .f32, add), (.fsub, two .f32, sub), (.fmul, two .f32, mul), (.ffma, three .f32, fma),
   (.fmin, two .f32, flags (minMaxLane false)), (.fmax, two .f32, flags (minMaxLane true)), (.fround, uno .f32, flags roundLane),
   (.hadd2, two .f16x2, add), (.hmul2, two .bf16x2, mul), (.hfma2, three .f16x2, fma),
   (.hmin2, two .f16x2, flags (minMaxLane false)), (.hmax2, two .bf16x2, flags (minMaxLane true)),
   (.cvt, { uno .i32 with md := 0xA }, flags cvtLane), (.cvtp, { two .f16x2 with md := 0xA }, flags cvtpLane),
   (.scaleb, two .f64, flags scalebLane), (.lred, { uno .f32 with md := 4 }, red), (.lscan, { uno .f32 with md := 4 }, scan),
   (.dcmp, comp .f64, condFlags), (.fcmp, comp .f32, condFlags), (.hcmp2, { comp .f16x2 with e := .p 2 }, condFlags)]

/-- The forms that do not meet `p` in a state. -/
def unmet (s : State) (p : (Iss → Nat → BitVec 5) → Iss → Bool) : List Op :=
  (floating.filter (fun e => !meets s e.1 e.2.1 (p e.2.2))).map (·.1)

theorem meets_FloatingPointWritesDOrTraps_writes : unmet one records = [] := by decide

/-- The group with every exception enabled and lane 0 of v0 to v5 as given. -/
def trapping (v : List (BitVec 32)) : State :=
  modGroup one 1 (fun g => { g with
    fpctl := 31
    vregs := ((List.range v.length).zip v).foldl (fun m e => sput m (64 * e.1) e.2) [] })

/-- A lane raises an enabled exception. -/
def traps (f : Iss → Nat → BitVec 5) (c : Iss) : Bool :=
  match fpOutcome c.g c.all (f c) with | .trap _ _ => true | _ => false

theorem meets_FloatingPointWritesDOrTraps_traps : unmet (trapping [0x7FA17D01, 0x7FF00001]) traps = [] := by decide

/-- The copies of a lined group differ in an enabled exception. -/
def mismatches (f : Iss → Nat → BitVec 5) (c : Iss) : Bool :=
  match fpOutcome c.g c.all (f c) with | .mismatch _ => true | _ => false

theorem meets_FloatingPointWritesDOrTraps_mismatches :
    unmet (modGroup (trapping [0x7FA17D01, 0x7FF00001]) 1 (fun g => { g with lined := true })) mismatches = [] := by decide

/-- The instruction of the iterative unit issues: its destination is a vector register and its split waits for nothing. -/
def iterates (c : Iss) : Bool := c.x.d.isV && c.sp.wait == .none

theorem meets_IterativeUnitEmptiesAndFillsD : failures [
    meets one .ddiv (two .f64) iterates, meets one .fdiv (two .f32) iterates, meets one .dsqrt (uno .f64) iterates,
    meets one .fsqrt (uno .f32) iterates, meets one .rcp (uno .f32) iterates, meets one .rsq (uno .f32) iterates,
    meets one .exp2 (uno .f32) iterates, meets one .log2 (uno .f32) iterates, meets one .sin (uno .f32) iterates,
    meets one .cos (uno .f32) iterates] = [] := by decide

theorem meets_IterativeResultWritten :
    let p : Producer := { id := 9, pc := 0, split := 0, kind := .value [⟨8, 0, 5⟩, ⟨8, 63, 6⟩] 1 0 none, d := 8, nregs := 1
                          size := 4, lanes := 1, counter := none }
    let s := modGroup one 1 (fun g => { g with prods := [p], empty := [8] })
    let q : Producer := { p with kind := .value [⟨8, 0, 5⟩] 1 0 (some (1, 2)) }
    let held := modGroup s 1 (fun g => { g with
      prods := [q], splits := g.splits.map (fun e => (e.1, { e.2 with wait := .trapHold q.id })) })
    failures [s.mantle.powered,
      (mget s.groups 1).any (fun g => g.prods.find? (fun q => q.id == p.id) == some p),
      (mget held.groups 1).any (fun g => g.prods.find? (fun x => x.id == q.id) == some q &&
        (issuedSplit g q.id q.split).any (fun sp => sp.wait == .trapHold q.id)),
      decide ([(8, 0), (8, 63)] : List (Nat × Nat)).Nodup] = [] := by decide

/-- Every unit is ready; partition 0 owns half-stack 0, and core 0 and the I/O die map the first 64 GiB of context 0 onto
themselves. -/
def mappedOf (s : State) : State :=
  let s := modPart { s with ready := (List.range 17).map (fun w => (w, BitVec.allOnes 64)) } 0 (fun p => { p with
    halfStacks := 1, sliceGroups := 1, clusters := 1, testMode := true })
  let e : TlbEntry :=
    { part := 0, ctx := 0, level := 2, vpn := 0, page := 0, r := true, w := true, x := true, ptrap := false, cpol := 0 }
  modCore (modCore s 0 (fun c => { c with tlb := [e] })) ioDie (fun c => { c with tlb := [e] })

/-- The group in such a machine. -/
def mapped : State := mappedOf one
/-- The sequencer in such a machine. -/
def seqMapped : State := mappedOf seqOne

/-- The overlay holds two blocks of one word, and every vector of its table is the second block. -/
def blocks : State :=
  modCore mapped 0 (fun c => { c with dir := c.dir.map (fun e => { e with
    words := sput (sput e.words 2 (plainHeader false)) 3 0, len := 4, vec := 0x002002002002002 })})

/-- The group in a state, changed. -/
def onG (s : State) (f : Group → Group) : State := modGroup s 1 f

/-- The handler of an event code runs in the group. -/
def handling (code : Nat) (g : Group) : Group :=
  { g with aside := some { splits := g.splits, ovf := [], split := 0, epc := mkPc 1 1, ipc := mkPc 1 1, code, rolled := false
                           regionPc := 0, mark := 0 } }

theorem meets_SystemInstructionsGoOn : failures [
    meets one .nop plainEnc (fun _ => true), meets one .yield plainEnc (fun _ => true),
    meets one .sleep { plainEnc with a := .imm, imm := 1 } (fun _ => true),
    meets one .srget { plainEnc with d := .s 0, a := .sr 9 } (fun c => c.x.d.isS && !valuesInFlight one c.gid c.g),
    meets one .srget { plainEnc with d := .v 254, a := .sr 9, ty := .n64 } (fun c => c.x.d.isV && !valuesInFlight one c.gid c.g),
    meets one .spmask { plainEnc with d := .s 62 } (fun _ => true),
    meets one .srset { plainEnc with d := .sr 8, a := .imm, imm := 31 } (fun c =>
      (copiesOf c.g).all (fun k => (uniOperand c.g c.x k c.x.a).toNat < 32) && srIndex c.x.d = 8),
    meets one .srset { plainEnc with d := .sr 9, a := .s 0 } (fun c =>
      (copiesOf c.g).all (fun k => (uniOperand c.g c.x k c.x.a).toNat < 32) && srIndex c.x.d ≠ 8 && !valuesInFlight one c.gid c.g),
    meets one .stop { plainEnc with a := .v 0, b := .imm, imm := 0x7FFF } (fun _ => true),
    meets one .joinx { plainEnc with a := .imm, imm := 8 } (fun _ => true),
    (let s := onG one (fun g =>
       let h := handling evPoison { g with pend := [{ d := 8, nregs := 2, lanes := 1, counter := none, op := 3 }] }
       { h with aside := h.aside.map (fun a => { a with named := (8, 2) }) })
     let counted := onG s (fun g => { g with counters := [(4, 2)], pend := g.pend.map (fun p => { p with counter := some 4 }) })
     let fixes (s : State) (k : Option Nat) : Bool :=
       meets s .pfix { plainEnc with d := .v 8, a := .v 0, ty := .n64 } (fun c => pendNames c.g 8 && pendNames c.g 9 &&
         c.g.pend != [] && c.g.pend.all (fun p => (copyGet s p.op).isNone && !pendQueued c.g p && p.op == 3 && p.counter == k))
     fixes s none && fixes counted (some 4)),
    meets mapped .errinj { plainEnc with a := .imm, imm := 0xFFFF, md := 0xF0 } (fun c =>
      let n := (uniOperand c.g c.x 0 c.x.a).toNat
      n ≠ 0 && n < 2 ^ 16 && c.x.bits 4 6 < c.g.width && c.x.bits 0 4 ≠ 6)] = [] := by decide

/-- All lanes of a branch go to one place. -/
def together (s : State) (target : Iss → Nat → Option Pc) (c : Iss) : Bool :=
  let ts := (lanesOf c.sp.mask).map (laneGoes c (target c))
  !c.g.lined && ts.all (fun t => t.isSome && t == ts.headD none) && (residentOv s 0 0 0 1).isSome

/-- The target of a label, and of a register. -/
def labelOf (s : State) (c : Iss) : Option Pc := targetPc s c.g.core c.g.part c.g.ctx c.sp.pc c.x.simm
/-- The target in a register. -/
def registerOf (s : State) (c : Iss) (l : Nat) : Option Pc :=
  let t : Pc := (readOperand c.g c.x .one l c.x.a).extractLsb' 0 32
  if pcOverlay t = pcOverlay c.sp.pc && isHeaderPc s c.g.core c.g.part c.g.ctx t then some t else none
/-- A call has a word to return to. -/
def returns (s : State) (c : Iss) : Bool := (returnPc s c.g.core c.g.part c.g.ctx c.sp.pc).isSome

theorem meets_BranchesAndCallsTransfer : failures [
    meets one .bra { plainEnc with imm := 0 } (together one (fun c _ => labelOf one c)),
    meets blocks .bra { plainEnc with imm := 2 } (together blocks (fun c _ => labelOf blocks c)),
    (let s := onG blocks (fun g => putLanes g 0 false (List.range 16) (fun _ => (mkPc 1 2).setWidth 64))
     meets s .bri { plainEnc with a := .v 0 } (together s (registerOf s)) &&
     meets s .ret { plainEnc with a := .v 0 } (together s (registerOf s)) &&
     meets s .calli { plainEnc with d := .v 4, a := .v 0 } (fun c => together s (registerOf s) c && returns s c)),
    meets blocks .call { plainEnc with d := .v 4, imm := 2 } (fun c =>
      together blocks (fun c _ => labelOf blocks c) c && returns blocks c),
    meets blocks .brany { plainEnc with a := .p 15, imm := 2 } (fun c => (labelOf blocks c).isSome &&
      ((lanesOfCopy c.g 0 c.all).map (fun l => predOperand c.g l c.x.a)).any id),
    meets blocks .brany { plainEnc with a := .p 0, imm := 2 } (fun c =>
      !((lanesOfCopy c.g 0 c.all).map (fun l => predOperand c.g l c.x.a)).any id),
    meets blocks .brall { plainEnc with a := .p 15, imm := 2 } (fun c => (labelOf blocks c).isSome &&
      ((lanesOfCopy c.g 0 c.all).map (fun l => predOperand c.g l c.x.a)).all id),
    meets blocks .brall { plainEnc with a := .p 0, imm := 2 } (fun c =>
      !((lanesOfCopy c.g 0 c.all).map (fun l => predOperand c.g l c.x.a)).all id),
    meets blocks .loop { plainEnc with d := .s 0, imm := 2 } (fun c => (labelOf blocks c).isSome && srget c.g 0 0 ≠ 1),
    meets (onG blocks (fun g => srset g 0 0 1)) .loop { plainEnc with d := .s 0, imm := 2 } (fun c => srget c.g 0 0 = 1),
    (let p (m : Nat) : Split := { pc := mkPc 1 2, mask := BitVec.ofNat 64 m, stack := [mkPc 1 2], parked := true }
     let s := onG blocks (fun g => { g with splits := [(0, p 1), (3, p 0xFFFE)] })
     s.mantle.powered && (mget s.groups 1).any (fun g => mayMerge g (mkPc 1 2) && g.ovf == []))]
    = [] := by decide

/-- The lanes of a branch go to two places, and a split entry is free. -/
def parts (target : Iss → Nat → Option Pc) (c : Iss) : Bool :=
  let goes (l : Nat) : Option Pc := laneGoes c (target c) l
  let ls := lanesOf c.sp.mask
  let t0 := goes (lowLane c.sp.mask)
  let t1 := (ls.map goes).find? (fun t => t ≠ t0)
  !c.g.lined && t0.isSome &&
    match t1 with | some t => t.isSome && ls.all (fun l => goes l == t0 || goes l == t) | none => false

theorem meets_SplitsDivideAndMerge : failures [
    (let ways (s : State) (room : Iss → Bool) : Bool :=
       let p (f : Iss → Nat → Option Pc) (c : Iss) : Bool := parts f c && room c
       let near := onG s (fun g => pset g 0 0 true)
       let far := onG s (fun g => putLanes g 0 false (List.range 16) (fun l => (mkPc 1 (if l < 11 then 2 else 0)).setWidth 64))
       let x : Enc := { plainEnc with a := .v 0 }
       meets near .bra { plainEnc with gp := 0, imm := 0 } (p (fun c _ => labelOf near c)) &&
         meets near .call { plainEnc with d := .v 4, gp := 0, imm := 0 } (fun c => p (fun c _ => labelOf near c) c && returns near c) &&
         meets far .bri x (p (registerOf far)) && meets far .ret x (p (registerOf far)) &&
         meets far .calli { x with d := .v 4 } (fun c => p (registerOf far) c && returns far c)
     let full (s : State) : State := onG s (fun g => { g with
       splits := [(0, { pc := mkPc 1 1, mask := 0x1FFF }), (1, { pc := mkPc 1 1, mask := 0x2000 }), (2, { pc := mkPc 1 1, mask := 0x4000 }),
         (3, { pc := mkPc 1 1, mask := 0x8000 })] })
     let none_ (c : Iss) : Bool := c.g.splits.length == 4 && (freeEntry c.g.splits).isNone && !c.sp.parked
     ways blocks (fun c => c.g.ovf == [] && c.g.splits.length < 4 && (freeEntry c.g.splits).isSome) &&
       ways (full blocks) (fun c => none_ c && c.g.aside.isNone && c.g.ovf.length < 16) &&
       ways (full (onG blocks (handling evPoison))) (fun c => none_ c && c.g.aside.isSome)),
    (let p (m : Nat) : Split := { pc := mkPc 1 2, mask := BitVec.ofNat 64 m, stack := [mkPc 1 2], parked := true }
     let s := onG blocks (fun g => { g with splits := [(0, p 1), (3, p 0xFFFE)] })
     s.mantle.powered && (mget s.groups 1).any (fun g => mayMerge g (mkPc 1 2) && g.ovf == [] &&
       (g.splits.filter (fun e => e.2.stack.contains (mkPc 1 2))).length == 2)),
    (let p (m : Nat) : Split := { pc := mkPc 1 2, mask := BitVec.ofNat 64 m, stack := [mkPc 1 2], parked := true }
     let s := onG blocks (fun g => { g with splits := [(0, p 1), (3, p 2)], ovf := [p 0xFFFC] })
     s.mantle.powered && (mget s.groups 1).any (fun g => mayMerge g (mkPc 1 2) && decide ((g.splits.map (·.1)).Nodup)))]
    = [] := by decide

/-- A precise event of split 0. -/
def eventOf (code : Nat) : Event :=
  { code, precise := true, split := 0, epc := mkPc 1 1, lanes := 1, info := 0, info2 := 0 }

theorem meets_PreciseEventEntersHandler : failures [
    (mget blocks.groups 1).any (fun g => g.job.isNone && g.aside.isNone && g.region.st == .none &&
      (vectorShift evPoison).isSome && (vectorPc blocks g evPoison).isSome && (eventOf evPoison).precise),
    meets blocks .trap { plainEnc with a := .imm, imm := BitVec.ofNat 16 evFpTrap } (fun c => c.g.job.isNone && c.g.aside.isNone &&
        c.g.region.st == .none && (vectorShift c.x.imm.toNat).isSome && (vectorPc blocks c.g c.x.imm.toNat).isSome),
    (eventOf 255).code < 256 && (eventOf 255).split < 256] = [] := by decide

theorem meets_FatalEventHaltsPartition : failures [
    (mget mapped.groups 1).any (fun g => g.job.isNone && (vectorShift evIllegalOpcode).isNone && (partOf mapped g.part).state = 0)]
    = [] := by decide

theorem meets_HandlersReturnAndLanesExit : failures [
    (let s := writeHome (onG blocks (fun g => handling evPoison { g with splits := [(3, { pc := mkPc 1 2, mask := 0xFFFF })] })) 8
       (leBytes 4 (mkPc 1 2).toNat)
     let s' := onG s (fun g => { g with
       splits := [(0, { pc := mkPc 1 3, mask := 0xFFFF })]
       aside := g.aside.map (fun a => { a with split := 3 }) })
     meets s' .tret plainEnc (fun c =>
       c.g.pend == [] && c.g.replayG.isNone && !earlierReads s' c.gid c.g s'.nextOp &&
       match c.g.aside, readAcc s' c.gid s'.nextOp 0 0 (accAt 0 (c.g.priv + 8).toInt 4 4 0) with
       | some a, (.ok f, s1) => !f.poisoned && mget s1.groups c.gid == some c.g && decide (a.splits.map (·.1)).Nodup &&
           rpcOk s1 c.g a (BitVec.ofNat 32 (leNat f.bytes)) &&
           (match readAcc (writeHome s' 8 (leBytes 4 7)) c.gid s'.nextOp 0 0 (accAt 0 (c.g.priv + 8).toInt 4 4 0) with
             | (.ok f, s1) => !f.poisoned && mget s1.groups c.gid == some c.g && !rpcOk s1 c.g a (BitVec.ofNat 32 (leNat f.bytes))
             | _ => false)
       | _, _ => false)),
    meets (onG one (fun g => pset g 0 0 true)) .exit { plainEnc with gp := 0 } (fun c =>
      c.g.live &&& ~~~ c.act ≠ 0 && c.g.synclRound.isNone && c.g.ovf == [] && c.sp.mask &&& ~~~ c.act ≠ 0),
    meets one .exit plainEnc (fun c => c.g.live &&& ~~~ c.act = 0 && c.g.synclRound.isNone && c.g.ovf == [] && c.g.gen = 0),
    (let s := onG mapped (fun g => { g with live := 0 })
     let left (g : Group) : Bool := g.storeQ == [] && g.job.isNone && !delivering g && s.copies == [] && s.travs == []
     (mget mapped.groups 1).any (fun g => g.live ≠ 0) &&
       (mget s.groups 1).any (fun g => g.live = 0 && left g && g.shader.isNone) && decide ((s.groups.map (·.1)).Nodup)),
    (let record (cause : Nat) : List (BitVec 8) := leBytes 64 (faultRec 9 cause 1 0 0 5 0 1 0 0 0 0 (2 + 4 * 2 ^ 8)).toNat
     let target : Group := { plainGroup 1 .vector 0 with
       serial := 5, index := 1, replayG := some { what := .atomic, id := 7, pc := 9, lanes := 1, cause := evPageFault, kind := 2, size := 4 } }
     let with_ (cause : Nat) : State :=
       let s := writeHome (onG mapped (fun g => { srset g 0 1 0x20000 with sageip := true })) 0x20000 (record cause)
       { s with groups := mput s.groups 2 target }
     let plain (bs : List (BitVec 8)) : Bool := let r := recFields bs
       replayCause r.cause && !recReserved bs && r.slot / 32 % 2 = 0 && r.slot / 64 % 2 = 0
     let replays (s : State) (p : List (BitVec 8) → State → State × Nat × Option (Nat × Nat) → Bool) : Bool :=
       meets s .replay { plainEnc with d := .s 0, a := .s 1 } (fun c =>
         let a := uniOperand c.g c.x 0 c.x.a
         c.sp.wait == .none && !operandDiffers c c.x.a && homeNow s c && a.toNat % 64 = 0 &&
         match readAcc { s with nextOp := s.nextOp + 1 } c.gid s.nextOp c.x.h1.toNat c.x.h2.toNat (accAt 0 a.toInt 64 64 0) with
         | (.ok f, s1) => p f.bytes s1 (replayRecord s1 c.g.part f.bytes)
         | _ => false)
     let found (s : State) (way : Bool) : Bool := replays s (fun bs s1 r => plain bs && (replayTarget s1 0 (recFields bs)).isSome &&
       r.2 == (0, some (2, 7)) && onTheWay r.1 2 7 == way)
     found (with_ evPageFault) false &&
       found { with_ evPageFault with sliceQ := [{ slice := 0, src := { cls := 0, inst := 0 }, gid := 2, split := 0, pc := 9, va := 0, pa := 0
                                                   ptrap := false, kind := .atomic 0 0 .n32 1 0 (some 8), order := 0, scope := 0
                                                   chain := 0, op := 7 }] } true &&
       replays { with_ evPageFault with groups := (with_ evPageFault).groups.filter (fun e => e.1 != 2) } (fun bs s1 r => plain bs &&
         (replayTarget s1 0 (recFields bs)).isNone && (replaySave s1 0 (recFields bs)).isNone &&
         (replaySequencer s1 0 (recFields bs)).isNone && (replayEngine s1 0 (recFields bs)).isNone && r.2 == (1, none)) &&
       replays (with_ evPoison) (fun bs _ r => !replayCause (recFields bs).cause && r.2 == (2, none))),
    (let s := onG mapped (fun g => { g with sageip := true, splits := mmod g.splits 0 (fun sp => { sp with wait := .replayed 2 7 }) })
     let late : State := { s with sliceQ := [{ slice := 0, src := { cls := 0, inst := 0 }, gid := 2, split := 0, pc := 9, va := 0, pa := 0
                                               ptrap := false, kind := .atomic 0 0 .n32 1 0 (some 8), order := 0, scope := 0
                                               chain := 0, op := 7 }] }
     meets s .replay { plainEnc with d := .s 0, a := .s 1 } (fun c => c.sp.wait == .replayed 2 7 && !onTheWay s 2 7) &&
       meets late .replay { plainEnc with d := .s 0, a := .s 1 } (fun c => c.sp.wait == .replayed 2 7 && onTheWay late 2 7))]
    = [] := by decide +kernel

/-- A team, changed. -/
def onT (s : State) (f : Team → Team) : State := modTeam s 1 f

/-- The sequencer of the team, changed. -/
def onQ (s : State) (f : Seq → Seq) : State := onT s (fun t => { t with seq := t.seq.map f })

/-- A header of a block of one word of an overlay, with the check of its body. -/
def header (ov : Nat) (body : Word) : Word :=
  BitVec.ofNat 128 (0x3F * 2 ^ 122 + 2 ^ 112 + ov * 2 ^ 42 + (crcWords [body]).toNat)

/-- An overlay whose image is in memory at 0x10000 is on its way. -/
def loading : State :=
  let e : DirEntry := { part := 0, ctx := 0, id := 2, st := .loading, first := 1, count := 1, image := 0x10000, gid := 1 }
  let w : Word := 0x0020000000000003DE00000000000000#128
  let s := [BitVec.ofNat 128 (0x4F564C59 * 2 ^ 96 + 2 * 2 ^ 84 + 2 * 2 ^ 71), header 2 w, w]
  (((List.range 3).zip s).foldl (fun st e => writeHome st (0x10000 + 16 * e.1) (leBytes 16 e.2.toNat))
    (modCore mapped 0 (fun c => { c with dir := c.dir ++ [e] })))

theorem meets_OverlaysLoad : failures [
    (let s := onT mapped (fun t => { t with launch := { t.launch with pockets := 15 } })
     let pre (id : Nat) (c : Iss) : Bool :=
       homeNow s c && !operandDiffers c c.x.a && !operandDiffers c c.x.b && rootPocketsOf s 0 0 0 ≤ (uniOperand c.g c.x 0 c.x.a).toNat &&
       (uniOperand c.g c.x 0 c.x.a).toNat + (c.x.bits 12 2 + 1) ≤ pocketsOf s 0 0 0 && c.x.bits 0 12 = id
     meets s .ovldF { plainEnc with a := .imm, b := .s 0, imm := 1, md := 0x4002 } (fun c => pre 2 c && (dirFind s 0 0 0 2).isNone) &&
     meets s .ovld { plainEnc with a := .imm, b := .s 0, imm := 11, md := 0x3FFF } (fun c => pre 0xFFF c && (dirFind s 0 0 0 0xFFF).isNone &&
       (coreOf s 0).dir.all (fun e => !overlaps 11 4 e)) &&
     meets s .ovldF { plainEnc with a := .imm, b := .s 0, imm := 1, md := 0x4001 } (fun c => pre 1 c && (dirFind s 0 0 0 1).isSome) &&
     meets s .ovld { plainEnc with a := .imm, b := .s 0, imm := 1, md := 1 } (fun c => pre 1 c && (dirFind s 0 0 0 1).isSome)),
    loading.mantle.powered && memReady loading 0 && (match (coreOf loading 0).dir.find? (fun e => e.ctx == 0 && e.id == 2 && e.st == .loading && !e.faulted) with
      | some e => (match readImageWord 0 e loading 0 with
          | (.ok (w, false), s1) => (match descWords e.id w with
              | some n => (match readWords (fun s i => readImageWord 0 e s (i + 1)) n 0 [] false s1 with
                  | (.ok (m, false), _) => pocketCount n ≤ e.count && imageOk m n e.id
                  | _ => false)
              | none => false)
          | _ => false)
      | none => false)] = [] := by decide +kernel

theorem meets_OverlaysAreHeldAndCalled : failures [
    meets blocks .ovwait { plainEnc with d := .s 0, a := .imm, imm := 1 } (fun c => !operandDiffers c c.x.a &&
      ((dirFind blocks 0 0 0 1).map (·.st)) == some .resident),
    meets blocks .ovwait { plainEnc with d := .s 0, a := .imm, imm := 4095 } (fun c => !operandDiffers c c.x.a &&
      (dirFind blocks 0 0 0 4095).isNone),
    meets blocks .ovquery { plainEnc with d := .s 0, a := .imm, imm := 1 } (fun c => !operandDiffers c c.x.a),
    meets blocks .ovhold { plainEnc with d := .s 0, a := .imm, imm := 1 } (fun c => !operandDiffers c c.x.a &&
      (residentOv blocks 0 0 0 1).isSome && !holdFull c.g 1),
    meets blocks .ovhold { plainEnc with d := .s 0, a := .imm, imm := 2 } (fun c => !operandDiffers c c.x.a &&
      (residentOv blocks 0 0 0 2).isNone),
    meets (onG blocks (fun g => { g with holds := (List.range 16).map (fun i => (i + 2, 1)) })) .ovhold
      { plainEnc with d := .s 0, a := .imm, imm := 1 } (fun c => !operandDiffers c c.x.a && holdFull c.g 1),
    meets blocks .ovdrop { plainEnc with a := .imm, imm := 1 } (fun c => !operandDiffers c c.x.a),
    meets blocks .callo { plainEnc with d := .s 0, imm := 2, md := 1 } (fun c => returns blocks c && !c.x.a.isS &&
      (residentOv blocks 0 0 0 1).isSome && !holdFull c.g 1 && isHeaderPc blocks 0 0 0 (mkPc (c.x.bits 0 12) c.x.imm.toNat)),
    meets (onG blocks (fun g => srset g 0 1 ((mkPc 1 2).setWidth 64))) .calloReg { plainEnc with d := .s 0, a := .s 1, md := 0x1000 }
      (fun c => returns blocks c && !operandDiffers c c.x.a && isHeaderPc blocks 0 0 0 ((uniOperand c.g c.x 0 c.x.a).extractLsb' 0 32)),
    meets blocks .reto { plainEnc with a := .s 1 } (fun c => !operandDiffers c c.x.a &&
      (residentOv blocks 0 0 0 (pcOverlay ((uniOperand c.g c.x 0 c.x.a).extractLsb' 0 32))).isNone),
    (let s (n : Nat) := onG blocks (fun g => srset g 0 1 ((mkPc 1 n).setWidth 64))
     let at' (s : State) (b : Bool) := meets s .reto { plainEnc with a := .s 1 } (fun c =>
       let t : Pc := (uniOperand c.g c.x 0 c.x.a).extractLsb' 0 32
       !operandDiffers c c.x.a && (residentOv s 0 0 0 (pcOverlay t)).isSome && isHeaderPc s 0 0 0 t == b)
     at' (s 2) true && at' (s 3) false && at' (s 1023) false)] = [] := by decide

/-- Barrier 15 has the group and the sequencer as its members. -/
def barrier (s : State) (b : Barrier) : State := onT s (fun t => { t with bars := [(15, { b with m := 0x100000001 })] })

theorem meets_BarriersArriveAndComplete : failures [
    meets one .barSet { plainEnc with a := .b 15, b := .imm, imm := 1 } (fun c => !operandDiffers c c.x.b &&
      (teamOf one c.g).any (fun t => (barOf t 15).arrived == [] && uniOperand c.g c.x 0 c.x.b &&&
        ~~~ (maskBelow t.launch.groups ||| (if t.seq.isSome then bitMask seqMember else 0)) = 0)),
    (let s := onG (barrier one {}) (fun g => srset g 0 0 0x100000001)
     let pre (c : Iss) : Bool := releaseReady s c && !operandDiffers c c.x.b && c.sp.wait == .none &&
       (teamOf s c.g).any (fun t => arrivalOk (barOf t 15) (uniOperand c.g c.x 0 c.x.b) c.g.index)
     meets s .barArrive { plainEnc with a := .b 15, b := .s 0 } pre && meets s .barSync { plainEnc with a := .b 15, b := .s 0 } pre),
    (let s := onT (barrier seqOne { arrived := [0] }) (fun t => { t with seq := t.seq.map (fun q => { q with q := [(4, 0x100000001)] }) })
     let pre (c : SIss) : Bool := arrivalOk (barOf c.t 15) (qOperand c.q c.x c.x.b) seqMember && c.q.wait == .none
     let shared := onT s (fun t => { t with partner := some 1 })
     meetsQ s .barArrive { plainEnc with a := .b 15, b := .s 4 } pre && meetsQ s .barSync { plainEnc with a := .b 15, b := .s 4 } pre &&
       meetsQ shared .barSync { plainEnc with a := .b 15, b := .s 4 } (fun c => pre c && c.t.partner.isSome && dirtyReady shared c.t.home)),
    meets (barrier one { phase := 1, last := [(0, 0)] }) .barWait { plainEnc with a := .b 15 } (fun c =>
      (teamOf (barrier one { phase := 1, last := [(0, 0)] }) c.g).any (fun t =>
        mget (barOf t 15).last c.g.index ≠ some (barOf t 15).phase)),
    meets (onG one (fun g => srset g 0 0 0xFFFF)) .syncl { plainEnc with a := .s 0 } (fun c => !operandDiffers c c.x.a &&
      c.sp.wait == .none && uniOperand c.g c.x 0 c.x.a &&& ~~~ (allLanes c.g) == 0 && c.g.synclRound.isNone)]
    = [] := by decide

theorem meets_BarrierAndSynclWaitsEnd : failures [
    (let s := onG (barrier one { phase := 8 }) (fun g => { g with splits := mmod g.splits 0 (fun sp => { sp with wait := .barrier 15 7 }) })
     meets s .barSync { plainEnc with a := .b 15, b := .s 0 } (fun c => c.sp.wait == .barrier 15 7 &&
       (teamOf s c.g).any (fun t => (barOf t 15).phase ≠ 7))),
    (let s := onT (barrier seqOne { phase := 8 }) (fun t => { t with seq := t.seq.map (fun q => { q with wait := .barrier 15 7 }) })
     meetsQ s .barSync { plainEnc with a := .b 15, b := .s 4 } (fun c => c.q.wait == .barrier 15 7 && (barOf c.t 15).phase ≠ 7)),
    (let s := barrier one { phase := 1, last := [(0, 0)] }
     meets s .barWait { plainEnc with a := .b 15 } (fun c => (teamOf s c.g).any (fun t =>
       mget (barOf t 15).last c.g.index == some 0 && (barOf t 15).phase ≠ 0))),
    (let s := barrier one { phase := 8, last := [(0, 8)] }
     meets s .barWait { plainEnc with a := .b 15 } (fun c => (teamOf s c.g).any (fun t =>
       mget (barOf t 15).last c.g.index == some 8 && (barOf t 15).phase == 8))),
    meetsQ (barrier seqOne { phase := 9, last := [(32, 8)] }) .barWait { plainEnc with a := .b 15 } (fun c =>
      mget (barOf c.t 15).last seqMember == some 8 && (barOf c.t 15).phase ≠ 8),
    meetsQ (barrier seqOne { phase := 8, last := [(32, 8)] }) .barWait { plainEnc with a := .b 15 } (fun c =>
      mget (barOf c.t 15).last seqMember == some 8 && (barOf c.t 15).phase == 8),
    (let s := barrier one {}
     meets s .barWait { plainEnc with a := .b 15 } (fun c => c.sp.wait == .none && (teamOf s c.g).any (fun t =>
       (mget (barOf t 15).last c.g.index).isNone))),
    meetsQ (barrier seqOne {}) .barWait { plainEnc with a := .b 15 } (fun c => (mget (barOf c.t 15).last seqMember).isNone),
    (let s := onG one (fun g => { srset g 0 0 0xFFFF with
       splits := [(0, { pc := mkPc 1 1, mask := 1 }), (1, { pc := mkPc 1 1, mask := 0xFFFE })] })
     meets s .syncl { plainEnc with a := .s 0 } (fun c => !operandDiffers c c.x.a && c.sp.wait == .none &&
       uniOperand c.g c.x 0 c.x.a &&& ~~~ (allLanes c.g) == 0 && c.g.synclRound.isNone &&
       uniOperand c.g c.x 0 c.x.a &&& c.g.live &&& ~~~ c.act ≠ 0)),
    (let s := onG one (fun g => { srset g 0 0 0xFFFF with
       splits := [(0, { pc := mkPc 1 1, mask := 1 }), (1, { pc := mkPc 1 1, mask := 0xFFFE, wait := .syncl 0xFFFF })]
       synclRound := some { mask := 0xFFFF, arrived := 0xFFFE, splits := [1] } })
     meets s .syncl { plainEnc with a := .s 0 } (fun c => !operandDiffers c c.x.a && c.sp.wait == .none &&
       uniOperand c.g c.x 0 c.x.a &&& ~~~ (allLanes c.g) == 0 && c.g.synclRound.any (fun r => r.mask == uniOperand c.g c.x 0 c.x.a &&
         uniOperand c.g c.x 0 c.x.a &&& c.g.live &&& ~~~ (r.arrived ||| c.act) == 0))),
    (let s := onG one (fun g => srset g 0 0 0xFFFF)
     meets s .syncl { plainEnc with a := .s 0 } (fun c => !operandDiffers c c.x.a && c.sp.wait == .none &&
       uniOperand c.g c.x 0 c.x.a &&& ~~~ (allLanes c.g) == 0 && c.g.synclRound.isNone &&
       uniOperand c.g c.x 0 c.x.a &&& c.g.live &&& ~~~ c.act == 0))] = [] := by decide

/-- Ring 7 of 16 stages, whose stage 15 is `lap` posts ahead of its takes. -/
def ring (s : State) (lap : Nat) : State :=
  onT s (fun t => { t with rings := [(7, { s := 16, stages := [(15, { post := lap, take := 0 })] })] })

theorem meets_StageRings : failures [
    meets one .stageInit { plainEnc with a := .g 7, md := 0x820F } (fun c => (teamOf one c.g).any (fun t =>
      stageWaiters one c.g.team t (fun w => match w with | .stage a _ _ => a == 7 | _ => false) == [])),
    (let pre (s : State) (c : Iss) : Bool := !operandDiffers c c.x.b && (uniOperand c.g c.x 0 c.x.b).toNat = 15 &&
       (teamOf s c.g).any (fun t => 15 < (ringOf t 7).s) && c.sp.wait == .none
     let x : Enc := { plainEnc with a := .g 7, b := .imm, imm := 15 }
     meets (ring one 0) .stagePost x (fun c => pre (ring one 0) c && releaseReady (ring one 0) c) &&
     meets (ring one 1) .stageTake x (fun c => pre (ring one 1) c && (teamOf (ring one 1) c.g).any (fun t => lapsAhead t 7 15 = 1)) &&
     meets (ring one 0) .stageTake x (fun c => pre (ring one 0) c && (teamOf (ring one 0) c.g).any (fun t => lapsAhead t 7 15 = 0))),
    (let pre (c : SIss) : Bool := (qOperand c.q c.x c.x.b).toNat = 15 && 15 < (ringOf c.t 7).s && c.q.wait == .none
     let x : Enc := { plainEnc with a := .g 7, b := .imm, imm := 15 }
     meetsQ (ring seqOne 0) .stagePost x pre && meetsQ (ring seqOne 1) .stageTake x (fun c => pre c && lapsAhead c.t 7 15 = 1) &&
       meetsQ (ring seqOne 0) .stageTake x (fun c => pre c && lapsAhead c.t 7 15 = 0)),
    (let short (s : State) : State := onT s (fun t => { t with rings := [(7, { s := 15 })] })
     let x : Enc := { plainEnc with a := .g 7, b := .imm, imm := 15 }
     let pre (s : State) (c : Iss) : Bool := !operandDiffers c c.x.b && (uniOperand c.g c.x 0 c.x.b).toNat = 15 && c.sp.wait == .none &&
       releaseReady s c
     let out (s : State) : Bool := meets s .stagePost x (fun c => pre s c && (teamOf s c.g).any (fun t => (ringOf t 7).s ≤ 15)) &&
       meets s .stageTake x (fun c => pre s c && (teamOf s c.g).any (fun t => (ringOf t 7).s ≤ 15))
     let far (s : State) : State := ring s 3
     let preQ (c : SIss) : Bool := (qOperand c.q c.x c.x.b).toNat = 15 && c.q.wait == .none
     out (short one) && meets (far one) .stageTake x (fun c => pre (far one) c && (teamOf (far one) c.g).any (fun t => 2 ≤ lapsAhead t 7 15)) &&
       meetsQ (short seqOne) .stagePost x (fun c => preQ c && (ringOf c.t 7).s ≤ 15) &&
       meetsQ (far seqOne) .stageTake x (fun c => preQ c && 2 ≤ lapsAhead c.t 7 15)),
    (let x : Enc := { plainEnc with a := .g 7, b := .imm, imm := 15 }
     let w : Wait := .stage 7 15 0
     meets (onG (ring one 0) (fun g => { g with splits := mmod g.splits 0 (fun sp => { sp with wait := w }) })) .stageTake x (fun c => c.sp.wait == w) &&
       meetsQ (onQ (ring seqOne 0) (fun q => { q with wait := w })) .stageTake x (fun c => c.q.wait == w)),
    (let s := onT (onG one (fun g => { g with splits := mmod g.splits 0 (fun sp => { sp with wait := .stage 7 15 0 }) })) (fun t => { t with
       rings := [(7, { s := 16, stages := [(15, { post := 3, take := 3, posts := [0] })] })] })
     (mget s.teams 1).any (fun t => let r := ringOf t 7
       (stageOf r 15).posts != [] && r.np ≤ (stageOf r 15).posts.length && stageWaiters s 1 t (waitsStage 7 15) == [0] &&
         (stageOf r 14).posts == []))]
    = [] := by decide

/-- A header of a block of one word of overlay 1 that opens regions, with one live register of each kind. -/
def regionHeader : Word := BitVec.ofNat 128 (0x3F * 2 ^ 122 + 2 ^ 112 + 2 ^ 103 + 2 ^ 96 + 2 ^ 42 + 2 ^ 41)

/-- The first block opens regions, the second does not; the group's region is as given. -/
def inRegion (r : Region) : State :=
  onG (modCore blocks 0 (fun c => { c with dir := c.dir.map (fun e => { e with words := sput e.words 0 regionHeader }) })) (fun g =>
    { g with region := r })

theorem meets_RegionsOpen : failures [
    (let s := inRegion {}
     meets s .regionOpen { plainEnc with a := .imm, imm := 8 } (fun c =>
       let h := issHeader s c
       let b := (uniOperand c.g c.x 0 c.x.a).toNat
       c.g.region.st == .none && !operandDiffers c c.x.a && hdrRgn h && 0 < b &&
       0x400 + recordSize c.g.width (hdrVlive h) (hdrSlive h) + 1024 ≤ c.g.privSize &&
       (teamOf s c.g).any (fun t => b ≤ t.launch.rgnMax && teamAsked s c.g.team c.g.core + b ≤ t.launch.rgnCore))),
    (let s := modCore (inRegion { st := .waiting, budget := 8 }) 0 (fun c => { c with rgnReqs := [{ gid := 1, budget := regionPool }] })
     s.mantle.powered && (coreOf s 0).rgnReqs == [{ gid := 1, budget := regionPool }] &&
       (mget s.groups 1).any (fun g => g.region.st == .waiting) && reservedOn s 0 + regionPool ≤ regionPool),
    (let s := inRegion { st := .waiting, budget := 8, granted := true, openPc := mkPc 1 1 }
     meets s .regionOpen { plainEnc with a := .imm, imm := 8 } (fun c =>
       let nv := hdrVlive (issHeader s c)
       let ns := hdrSlive (issHeader s c)
       c.g.region.st == .waiting && c.g.region.granted && (List.range nv).all (fun r => !isEmpty c.g r) && (savedHit c.g nv ns).isNone &&
       orderedNow s c.gid c.g && memReady s c.g.part && storeFails s c.g .store (storeWords (c.g.priv + 0x400)
         (recordBytes c.g c.sp.pc nv ns c.g.region.budget) (recordSize c.g.width nv ns / 8)) == [])),
    (let s := onG (inRegion { st := .waiting, budget := 8, granted := true, openPc := mkPc 1 1 }) (fun g => { g with damaged := [512] })
     meets s .regionOpen { plainEnc with a := .imm, imm := 8 } (fun c => c.g.region.st == .waiting && c.g.region.granted &&
       (savedHit c.g (hdrVlive (issHeader s c)) (hdrSlive (issHeader s c))).isSome))] = [] := by decide

theorem meets_RegionsEnd : failures [
    (let s := inRegion { st := .opened }
     meets s .regionClose plainEnc (fun c =>
       c.g.region.st == .opened && hdrRgn (issHeader s c) && closeReady s c (hdrVlive (issHeader s c)) &&
       liveAgree c.g (hdrVlive (issHeader s c)) (hdrSlive (issHeader s c)) && (auditJob s c.g).isNone)),
    (let s := inRegion { st := .committing }
     s.mantle.powered && (mget s.groups 1).any (fun g => g.region.st == .committing && g.job.isNone && !g.region.audited &&
       !releaseWaits s g (match g.fenceRel with | some f => joinScope s g g.region.scope f | none => g.region.scope))),
    (let s := inRegion { st := .opened }
     meets s .regionAbort { plainEnc with imm := 2 } (fun c => c.g.region.st == .opened && (abortTarget s c).isSome && c.g.job.isNone)),
    meets one .regionInfo { plainEnc with d := .s 0 } (fun _ => true),
    (let n : Snapshot := { nv := 2, ns := 2, vregs := [(127, 5)], sregs := [(1, 9), (65, 8)], preds := [], fpctl := 0, fpflags := 0
                           fpflagsSh := 0, entry := 0, split := { pc := mkPc 1 1, mask := 0xFFFF } }
     storeWf n.vregs none && n.vregs.all (fun e => e.1 < 64 * n.nv) && storeWf n.sregs none && n.sregs.all (fun e => e.1 % 64 < n.ns))]
    = [] := by decide

/-- A cloak of the group, suspended with its moving permitted, lies at 0x20000. -/
def cloaked : State :=
  let g := (mget mapped.groups 1).getD (plainGroup 1 .vector 0)
  writeHome mapped 0x20000 (cloakBytes g (teamIds mapped g).1 (teamIds mapped g).2 (rootId mapped g) 1 1 0x20000 1 false 1)

/-- The group's request for the cloak has the turn at its slice; `p` holds of the machine that has taken it, with the first
`n` parts of the cloak given up by the core. -/
def cloakTurn (s : State) (k : ReqKind) (n : Nat) (p : State → Group → Bool) : Bool :=
  let r : SliceReq :=
    { slice := (homeSlice s 0 0x400).1, src := { cls := 0, inst := 0 }, gid := 1, split := 0, pc := mkPc 1 1, va := 0x20000
      pa := 0x20000, ptrap := true, kind := k, order := 0, scope := 0, chain := 0, op := 7 }
  let s1 := { s with sliceQ := [r] }
  s.mantle.powered && nextReq s1 r.slice == some r && pathReady s1 0 0x400 &&
    (mget s.groups 1).any (fun g => p (yieldParts { s with sliceQ := [] } (accessorOf g) g.core 0x20000 n) g)

/-- What a request at `cloaked`'s cloak finds there, its first `n` parts read as the operation reads them. -/
def cloakFinds (s : State) (n len : Nat) (p : State → List (BitVec 8) → Group → Bool) : Bool :=
  (mget s.groups 1).any (fun g =>
    let q := accessorOf g
    let s0 := yieldParts s q g.core 0x20000 n
    let u := engineTouch (if n = 4 then acquireAt s0 g 4 else s0) q 0x20000 len (chainOf s g)
    match readParts u q 0x20000 n with | .ok h => p u h g | _ => false)

theorem meets_ContinuationsSuspendAndResume : failures [
    (let s := onG mapped (fun g => srset g 0 0 0x30000)
     meets s .suspend { plainEnc with a := .s 0, b := .s 1 } (fun c =>
       let next : Group := { c.g with splits := [(c.j, { c.sp with pc := c.sp.pc + 1, wait := .none })] }
       let live := cloakLive s next
       let a := uniOperand c.g c.x 0 c.x.a
       let bytes := cloakBytes next (teamIds s c.g).1 (teamIds s c.g).2 (rootId s c.g) live.1 live.2 a
         (uniOperand c.g c.x 0 c.x.b).toNat false 0
       let accs := storeWords a bytes (bytes.length / 8)
       !operandDiffers c c.x.a && !operandDiffers c c.x.b && (uniOperand c.g c.x 0 c.x.b).toNat < 8 && c.sp.wait != .reply &&
       c.g.aside.isNone && !slotsClaimed s c.g && c.g.gen == 0 && quiet s c.gid c.g && memReady s c.g.part && a.toNat % 256 = 0 &&
       (savedHit next live.1 live.2).isNone && savedAgree next live.1 live.2 && storeFails s c.g .store accs == [] &&
       (reachReq s c.g (blankReq s c s.nextOp a .suspend) false 64 .rw true).isOk))]
    = [] := by decide +kernel

theorem meets_ContinuationsSuspendAndResume_sends : failures [
    (let s := onG cloaked (fun g => srset g 0 0 0x20000)
     let sends (c : Iss) (kind : ReqKind) (n align : Nat) (need : Need) : Bool :=
       let a := uniOperand c.g c.x 0 c.x.a
       !operandDiffers c c.x.a && !operandDiffers c c.x.b && homeNow s c && c.sp.wait != .reply &&
       match reachReq s c.g (blankReq s c s.nextOp a kind) (a.toNat % align ≠ 0) n need true with
       | .ok q => !isRemote q.pa
       | _ => false
     meets s .resume { plainEnc with d := .s 2, a := .s 0, b := .s 1 } (fun c => sends c (.resume 0 false 2) 256 64 .rw) &&
     meets s .codrop { plainEnc with d := .s 2, a := .s 0 } (fun c => sends c (.codrop 2) 64 8 .rw) &&
     meets s .coinfo { plainEnc with d := .s 2, a := .s 0 } (fun c => sends c (.coinfo 2) 24 8 .r)),
    [ReqKind.suspend, .resume 0 false 2, .codrop 2, .coinfo 2].all (fun k => cloakTurn cloaked k 1 (fun _ g =>
      g.mons.all (fun m => !m.2.fired)))] = [] := by decide +kernel

theorem meets_ContinuationsSuspendAndResume_finds : failures [
    (let header (s : State) (version rights suspended : Bool) : Bool := cloakFinds s 4 256 (fun _ h g =>
       (fieldAt h 0 4 = 0xC10A0001 && fieldAt h 12 1 = 1 && fieldAt h 8 4 ≠ 0) == version &&
         (cloakOwner h == (g.part, g.ctx) && fieldAt h 13 1 % 2 = 1 && (fieldAt h 24 8 = 0x20000 || fieldAt h 13 1 / 2 % 2 = 1)) == rights &&
         (fieldAt h 8 4 = 1) == suspended)
     header mapped false false false && header cloaked true true true &&
       header (writeHome cloaked (0x20000 + 13) (leBytes 1 0)) true false true &&
       header (writeHome cloaked (0x20000 + 8) (leBytes 4 2)) true true false),
    (let drops (s : State) (mine : Bool) (st pin : Nat) : Bool := cloakFinds s 1 64 (fun u h g =>
       ((cloakOwner h).1 == g.part) == mine && fieldAt h 8 4 = st && fieldAt h 14 1 / 16 % 2 = pin &&
         (engGet (yieldParts u (accessorOf g) g.core 0x20100 1) (accessorOf g) 0x20138 8).isOk)
     drops cloaked true 1 0 && drops (writeHome cloaked (0x20000 + 14) (leBytes 1 0x11)) true 1 1 && drops mapped true 0 0 &&
       drops (writeHome cloaked (0x20000 + 8) (leBytes 4 2)) true 2 0 && drops (writeHome cloaked (0x20000 + 16) (leBytes 1 7)) false 1 0),
    (let informs (s : State) (mine : Bool) : Bool := cloakFinds s 1 64 (fun u _ g =>
       match engineRead u (accessorOf g) 0x20008 16 .r with
       | .ok (bs, false) => (fieldAt bs 8 1 % 8 == g.part) == mine
       | _ => false)
     informs cloaked true && informs (writeHome cloaked (0x20000 + 16) (leBytes 1 7)) false)] = [] := by decide +kernel

theorem meets_ContinuationsSuspendAndResume_body : failures [
    (let s := onG cloaked (fun g => { srset g 0 0 0x20000 with
       splits := mmod g.splits 0 (fun sp => { sp with wait := .reply, caught := some { sregs := [(0, 0x20000)], resuming := true } }) })
     s.mantle.powered && s.turn == .split 1 0 && (mget s.groups 1).any (fun g => (mget g.splits 0).any (fun sp => sp.caught.any (fun m =>
       let x : Enc := { plainEnc with d := .s 2, a := .s 0, b := .s 1 }
       let c : Iss := { gid := 1, g := { g with sregs := m.sregs }, j := 0, sp, op := .resume, x, act := sp.mask, all := bothCopies g sp.mask }
       m.resuming && uniform .resume x && !operandDiffers c x.a && !operandDiffers c x.b &&
         (reachReq s c.g (blankReq s c s.nextOp (uniOperand c.g x 0 x.a) (.resume (uniOperand c.g x 0 x.b) (x.b == .sr 0x3F) 2)) false
           256 .rw true).isOk)))),
    (let body (s : State) (same : Bool) (room : Bool) : Bool := (mget s.groups 1).any (fun g =>
       let q := accessorOf g
       match readParts s q 0x20000 4 with
       | .ok h =>
         let u := yieldParts s q g.core 0x20000 (headerParts h)
         s.sliceQ == [] && ((rootOv s g.core g.part g.ctx false).map (·.id) == some (fieldAt h 60 2 % 2 ^ 12)) == same &&
           (match readCloak u q 0x20000 (headerParts h) (inImages h) (acceptOf s g) with
             | .ok (bs, _) => (resumeSpot u g bs).isSome == room && (resumeSpot s g bs).isSome == room
             | _ => false)
       | _ => false)
     let crowd := { cloaked with groups := cloaked.groups ++ (List.range 40).map (fun i => (i + 2, { plainGroup 1 .vector 0 with
       slot := i / 2, side := i % 2, slice0 := 4 * (i / 2) })) }
     body cloaked true true && body (writeHome cloaked (0x20000 + 60) (leBytes 2 7)) false true && body crowd true false)]
    = [] := by decide +kernel

/-- Partition 0 has a graph of two tasks whose table is at 0x50000; task 1 counts `n`. -/
def graph (n : Nat) : State :=
  modPart (writeHome mapped (0x50000 + 64 + 16) (leBytes 2 n)) 0 (fun p => { p with
    graphs := [{ table := 0x50000, n := 2, ctx := 0, queue := 0, prio := 0 }] })

/-- The first decrement, or an increment of `add`, of task 1. -/
def counted (n add : Nat) : State :=
  modPart (graph n) 0 (fun p => { p with decs := [{ table := 0x50000, index := 1, ctx := 0, src := { cls := 0, inst := 0 }, coreid := 0
                                                    pc := 0, serial := 0, gidx := 0, slot := 0, task := 0, add }] })

theorem meets_TasksCountDown : failures [
    (let s := onG (graph 1) (fun g => srset (srset g 0 0 0x50000) 0 1 1)
     meets s .tkdone { plainEnc with a := .s 0, b := .s 1 } (fun c => !taskDiffers c && releaseReady s c && memReady s 0 &&
       (uniOperand c.g c.x 0 c.x.b).toNat < tasksAt s 0 0 (uniOperand c.g c.x 0 c.x.a) &&
       (taskRead (releaseAt s c.g 4) 0 0 (uniOperand c.g c.x 0 c.x.a) 1 0 64).isSome) &&
     meets s .tkadd { plainEnc with a := .s 0, b := .s 1, c := .imm, imm := 0xFFFF } (fun c => !taskDiffers c &&
       (uniOperand c.g c.x 0 c.x.c).toNat % 2 ^ 16 ≠ 0) &&
     meets s .tkpeek { plainEnc with d := .s 2, a := .s 0, b := .s 1 } (fun c => !taskDiffers c && homeNow s c &&
       match readAtHome s c (taskField (uniOperand c.g c.x 0 c.x.a) (uniOperand c.g c.x 0 c.x.b).toNat 16) .r with
       | (.ok (_, false, _), _) => true
       | _ => false)),
    (let ok (s : State) (p : Nat → TaskDec → Bool) : Bool := s.mantle.powered && engineTurn s 0 7 && !engineRecordWaits s 0 &&
       match (partOf s 0).decs with
       | d :: _ => (match taskRead s 0 d.ctx d.table d.index 16 2 with | some n => p n d | none => false)
       | [] => false
     ok (counted 2 0) (fun n d => d.add = 0 && (taskRead (counted 2 0) 0 d.ctx d.table d.index 20 4).isSome && 1 < n) &&
     ok (counted 1 0) (fun n d => d.add = 0 && (taskRead (counted 1 0) 0 d.ctx d.table d.index 20 4).isSome && n = 1) &&
     ok (counted 0xFFFE 1) (fun n d => d.add ≠ 0 && taskRead (counted 0xFFFE 1) 0 d.ctx d.table d.index 20 4 == some 0 &&
       d.index < tasksAt (counted 0xFFFE 1) 0 d.ctx d.table && n + d.add ≤ 0xFFFF &&
       tasksAt (taskTouch (modPart (counted 0xFFFE 1) 0 (fun q => { q with decs := [] })) 0 d.ctx d.table d.index d.chain) 0 d.ctx d.table =
         tasksAt (counted 0xFFFE 1) 0 d.ctx d.table))] = [] := by decide

/-- 128 bytes with fields at offsets. -/
def image (fs : List (Nat × Nat)) : List (BitVec 8) :=
  (List.range 128).map (fun i => match fs.find? (fun f => f.1 = i) with | some f => BitVec.ofNat 8 f.2 | none => 0)

/-- A LAUNCH packet of one team of one group (Table 3.4). -/
def launchImage : List (BitVec 8) :=
  image [(0, 1), (1, 8), (5, 1), (6, 1), (8, 1), (10, 1), (48, 1), (52, 1), (56, 1), (61, 16)]

/-- Queue 63 of partition 0 is enabled, its ring of 4096 B is at 0x40000, and a packet stands at its head. -/
def queued (bs : List (BitVec 8)) (f : Queue → Queue) : State :=
  modPart (writeHome (writeHome mapped 0x40000 bs) 0x60000 (leBytes 8 bs.length)) 0 (fun p => { p with
    ctx := [(0, 1)]
    queues := [(63, f { w0 := 0x40000, w1 := 0x8000000000000008, w2 := 0x60000, w3 := 0x61000, tail := BitVec.ofNat 64 bs.length })] })

theorem meets_TasksAndLaunchesAreSent : failures [
    (let t : ReadyTask := { table := 0x50000, index := 1, prio := 0, release := 0, ctx := 0 }
     let s := modPart (writeHome (writeHome (graph 0) (0x50000 + 64) (leBytes 8 0x70000)) 0x70000 launchImage) 0 (fun p => { p with
       readyQ := [t], ctx := [(0, 1)] })
     s.mantle.powered && (partOf s 0).readyQ == [t] && !t.faulted && (partOf s 0).state = 0 && frontReady s && engineTurn s 0 7 &&
     !engineRecordWaits s 0 && (partOf s 0).launches == [] &&
     (match taskRead s 0 t.ctx t.table t.index 0 8, taskRead s 0 t.ctx t.table t.index 8 8 with
      | some kernel, some args => (match engineRead s (taskAcc 0 t.ctx) (BitVec.ofNat 64 kernel) 128 .r with
          | .ok (bs, false) => (match parseLaunch bs with
              | some l => launchAllowed (engineTouch (taskTouch s 0 t.ctx t.table t.index) (taskAcc 0 t.ctx) (BitVec.ofNat 64 kernel) 128 0) 0 t.ctx
                  { l with args := BitVec.ofNat 64 args }
              | none => false)
          | _ => false)
      | _, _ => false)),
    (let s := queued (image [(0, 5), (1, 2), (4, 2), (10, 5)] |>.take 32) id
     let u := queueOf s 0 63
     s.mantle.powered && queueIdle s 0 u && queueTurn s 0 63 && (match headPacket s 0 u, readRing s 0 u 1 u.head.toNat with
       | .packet (.tasks n table) _, .ok (h, _) => n = 2 && table == 0x50000 && tableReached s 0 (queueCtx u) table n &&
           fieldAt h 0 1 = 5
       | _, _ => false)),
    (let sent (f : Queue → Queue) (st : Nat) : Bool :=
       let s := onG (writeHome (queued [] f) 0x70000 launchImage) (fun g => srset (srset { g with role := .system } 0 0 0x70000) 0 1 63)
       meets s .launch { plainEnc with d := .s 2, a := .s 0, b := .s 1 } (fun c =>
         let u := queueOf s 0 63
         !taskDiffers c && (uniOperand c.g c.x 0 c.x.b).toNat = 63 && releaseReady s c && memReady s 0 &&
         match readAcc s c.gid 0 0 0 (accAt 0 (uniOperand c.g c.x 0 c.x.a).toInt 128 16 0) with
         | (.ok f, s1) => (match engineRead s1 (queueAcc 0 u) u.w2 8 .r with
             | .ok (tb, _) =>
               let tail := BitVec.ofNat 64 (leNat tb)
               let s2 := engineTouch s1 (queueAcc 0 u) u.w2 8 (chainOf s c.g)
               launchStatus u tail = st && (st ≠ 0 || match writeRing 0 u (chainOf s c.g) f.bytes f.bad tail.toNat 8 (releaseAt s2 c.g 4) with
                 | some s3 => (engineWrite s3 (queueAcc 0 u) u.w2 (leBytes 8 (tail + 128).toNat) (chainOf s c.g) .w).isOk
                 | none => false)
             | _ => false)
         | _ => false)
     sent id 0 && sent (fun u => { u with stop := 1 }) 2 && sent (fun u => { u with w1 := 0x8000000000000007 }) 0 &&
       sent (fun u => { u with head := BitVec.ofNat 64 (2 ^ 64 - 4096 + 112) }) 1)] = [] := by decide +kernel

/-- A memory word: base s4, index v2. -/
def memory (ty : Ty) : Enc := { plainEnc with a := .s 4, b := .v 2, ty }

theorem meets_LoadsEnterFlight : failures [
    (let s := onG one (fun g => kput g 15 254)
     let x : Enc := { memory .n64 with d := .v 8, md := 0xF00000 }
     meets s .ld x (fun c => c.g.replayG.isNone && kget c.g c.x.kf < 255)),
    meets one .ldb { memory .b32 with d := .v 240, b := .sr 63, md := 15 } (fun c => c.g.replayG.isNone && kget c.g c.x.kf < 255 &&
      (blockAccs c c.x.d.idx c.all).all (fun a => !a.bad)),
    meets one .lds { memory .i32 with d := .v 8 } (fun c => c.g.replayS.isNone && kget c.g c.x.kf < 255),
    (let far := modCore mapped 0 (fun c => { c with tlb := c.tlb.map (fun e => { e with page := remoteBit }) })
     let runs (s : State) (a : BitVec 64) (p : List (Phys × Nat) → Bool) : Bool := (mget s.groups 1).any (fun g =>
       match accRuns s (accessorOf g) { lane := 0, addr := a, size := 4, reg := 8 } .r with | .ok l => p l | _ => false)
     runs far 8 (fun l => l.length = 1 && l.all (fun x => isRemote x.1.pa)) && runs far 9 (fun l => l.length = 1 && l.all (fun x => isRemote x.1.pa)) &&
       alignedAcc { lane := 0, addr := 8, size := 4 } && !alignedAcc { lane := 0, addr := 9, size := 4 } &&
       runs mapped 8 (fun l => l.all (fun x => !isRemote x.1.pa)) && (mget mapped.groups 1).any (fun g =>
         !(accRuns mapped (accessorOf g) { lane := 0, addr := BitVec.ofNat 64 (2 ^ 60), size := 4 } .r).isOk))] = [] := by decide +kernel

/-- The copies of a lined group agree; no region is open and no error is armed. -/
def plainStore (accs : List LaneAcc) (c : Iss) : Bool :=
  lanesDiffer c.g (primAccs c.g accs) (shadowAccs c.g accs) == 0 && c.g.region.st != .opened && c.g.inj.isNone &&
    c.g.replayG.isNone

theorem meets_StoresEnterQueue : failures [
    meets one .st { memory .n64 with c := .v 8 } (fun c => plainStore (laneAccs c .ix c.x.simm c.x.bytes 1 0 c.all) c),
    meets one .stb { memory .b32 with b := .sr 63, c := .v 8, md := 15 } (fun c => plainStore (blockAccs c c.x.c.idx c.all) c &&
      (blockAccs c c.x.c.idx c.all).all (fun a => !a.bad)),
    meets one .cwb (memory .b32) (fun c => plainStore (lineAccs c) c), meets one .cinv (memory .b32) (fun c => plainStore (lineAccs c) c),
    meets one .cwbAll { plainEnc with md := 2 } (plainStore []), meets one .cinvAll { plainEnc with md := 3 } (plainStore []),
    (let held (s : State) (may room : Bool) : Bool :=
       let pre (accs : List LaneAcc) (c : Iss) : Bool :=
         let prim := primAccs c.g accs
         c.g.region.st == .opened && c.g.inj.isNone && c.g.replayG.isNone && lanesDiffer c.g prim (shadowAccs c.g accs) == 0 &&
           prim.all (accWalks s (accessorOf c.g)) && storeFails s c.g .store prim == [] && !holdIllegal s c.g prim == may &&
           decide (heldAfter s c.g prim ≤ c.g.region.budget) == room
       meets s .st { memory .n64 with c := .v 8 } (fun c => pre (laneAccs c .ix c.x.simm c.x.bytes 1 0 c.all) c) &&
         meets s .stb { memory .b32 with b := .sr 63, c := .v 8, md := 15 } (fun c => pre (blockAccs c c.x.c.idx c.all) c)
     let opened (n : Nat) : State := inRegion { st := .opened, budget := n }
     held (opened 8) true true && held (opened 0) true false &&
       held (modCore (opened 8) 0 (fun c => { c with tlb := c.tlb.map (fun e => { e with cpol := 2 }) })) false true)]
    = [] := by decide +kernel

theorem meets_ScratchpadStoresAndAtomics : failures [
    meets one .sts { memory .b32 with c := .v 8 } (fun c =>
      let accs := scratchAccs c c.x.bytes 0 c.all
      let prim := primAccs c.g accs
      c.g.sts.isNone && !scratchHolds one c prim && plainStore accs c && (releaseScope one c.g c.x.order (min c.x.scope 1)).isNone &&
      (teamOf one c.g).any (fun t => prim.all (inWindow t))),
    meets one .sts { memory .b32 with c := .v 8, md := 0x28000 } (fun c =>
      (releaseScope one c.g c.x.order (min c.x.scope 1)).isSome && orderedNow one c.gid c.g &&
      !releaseHolds one c.g (releaseScope one c.g c.x.order (min c.x.scope 1))),
    meets one .atoms { memory .n32 with d := .v 8, c := .v 4 } (fun c =>
      let accs := (scratchAccs c 4 c.x.d.idx c.all).map (fun a =>
        { a with data := typed c.x.ty (srcC c a.lane) ++ casOperand c a.lane })
      !scratchHolds one c (primAccs c.g accs) && (releaseScope one c.g c.x.order c.x.scope).isNone &&
      lanesDiffer c.g (primAccs c.g accs) (shadowAccs c.g accs) == 0 &&
      (teamOf one c.g).any (fun t => (scratchRun c t (primAccs c.g accs)).isSome))] = [] := by decide

theorem meets_CopiesIssueAndLand : failures [
    meets mapped .cpaS { memory .b32 with c := .v 6 } (fun c => copyMayIssue c && cpaDiffer c c.x.simm == 0),
    meets mapped .cptS { plainEnc with a := .s 4, b := .s 6, c := .s 8, e := .s 10 } (fun c => copyMayIssue c && c.g.storeQ == [] &&
      !earlierReads mapped c.gid c.g mapped.nextOp && memReady mapped 0 &&
      [c.x.a, c.x.b, c.x.c, c.x.e].all (fun y => !operandDiffers c y)),
    meets mapped .cpaO { memory .b32 with d := .o 63, c := .v 6, md := 0x60 } (fun c => copyMayIssue c && cpaDiffer c c.x.simm == 0 &&
      (teamOf mapped c.g).any (fun t => c.x.d.idx < t.launch.slots)),
    meets mapped .cptO { plainEnc with d := .o 63, a := .s 4, b := .s 6, e := .s 10, md := 0x20 } (fun c => copyMayIssue c &&
      c.g.storeQ == [] && !earlierReads mapped c.gid c.g mapped.nextOp && memReady mapped 0 &&
      [c.x.a, c.x.b, c.x.c, c.x.e].all (fun y => !operandDiffers c y) &&
      (teamOf mapped c.g).any (fun t => c.x.d.idx < t.launch.slots)),
    meets mapped .cpaG { memory .b32 with d := .v 255, e := .s 0, md := 0x5F } (fun c => copyMayIssue c && cpaDiffer c (cpaGDisp c.x) == 0 &&
      !c.g.lined && match mapped.groups.find? (fun e => e.2.team == c.g.team && e.2.core == c.g.core && e.2.index == cpaGTarget c 0 &&
        e.2.live != 0) with
      | some (_, h) => (List.range c.x.memRegs).all (fun i => !isEmpty h (c.x.d.idx + i))
      | none => false),
    (let p : CopyPart := { src := some 0x100, rd := 16, size := 16, dst := 0, lane := 0 }
     let y : Copy := { id := 3, gid := 1, pc := 0, split := 0, core := 0, part := 0, ctx := 0, team := 1, dst := .scratch, parts := [(0, p)]
                       lanes := 1, counter := 0, esz := 16 }
     let s : State := { mapped with copies := [y] }
     s.mantle.powered && copyGet s 3 == some y && mget y.parts 0 == some p && p.fail.isNone && copyReady s y &&
       accReady s { core := y.core, part := y.part, ctx := y.ctx } false { lane := p.lane, addr := 0x100, size := p.rd, bad := p.bad } &&
       y.dst == .scratch && (mget s.teams y.team).isSome)] = [] := by decide

/-- A word that waits for the monitors of a mask, and where it stands. -/
def waitsMon : Enc := { plainEnc with d := .s 0, a := .imm, imm := 9, md := 0xF }

theorem meets_WaitsFencesAndMonitors : failures [
    meets one .waitk { plainEnc with a := .k 15, b := .imm, imm := 255 } (fun c => c.x.imm.toNat ≤ 255 && kget c.g 15 ≤ countOperand c 0 c.x.b),
    meets one .kset { plainEnc with d := .k 15, a := .imm, imm := 255 } (fun c => c.x.imm.toNat ≤ 255 && kget c.g 15 = 0),
    meets one .fence { plainEnc with md := 0x90000 } (fun c => !earlierReads one c.gid c.g one.nextOp && !earlierScratch c.g &&
      c.g.replayG.isNone && c.g.storeQ == [] && isRelease c.x.order && isAcquire c.x.order && !releaseWaits one c.g c.x.scope),
    meets mapped .pref (memory .b32) (fun c => (laneAccs c .ix c.x.simm 1 1 0 c.act).all (accReady mapped (accessorOf c.g) false)),
    meets one .monwait waitsMon (fun c => !c.g.lined && c.g.mons == []),
    (let s := onG one (fun g => { g with mons := [(3, { line := 0, va := 0, fired := true })] })
     meets s .monwait waitsMon (fun c => !c.g.lined && firedMask c.g (c.x.bits 0 4) ≠ 0)),
    (let s := onG one (fun g => { g with mons := [(3, { line := 0, va := 0, fired := false })] })
     meets s .monwait waitsMon (fun c => !c.g.lined && firedMask c.g (c.x.bits 0 4) = 0 && c.sp.wait == .none &&
       c.g.mons.any (fun m => c.x.bits 0 4 / 2 ^ m.1 % 2 = 1))),
    (let s := onG one (fun g =>
       { g with splits := mmod g.splits 0 (fun sp => { sp with wait := .mon 0xF (some one.clk), issued := some (.monwait, waitsMon) }) })
     s.mantle.powered && match mget s.groups 1 with
       | some g => (match mget g.splits 0 with
           | some sp => sp.wait == .mon 0xF (some s.clk) && sp.issued == some (.monwait, waitsMon)
           | none => false)
       | none => false)] = [] := by decide

theorem meets_AtomicsDequesAndMonitorsSendRequests : failures [
    (let ready (c : Iss) : Bool := c.sp.wait != .reply && orderedNow mapped c.gid c.g && !c.g.lined &&
       !releaseHolds mapped c.g (releaseScope mapped c.g c.x.order c.x.scope)
     let agree (d : Option Nat) (c : Iss) : Bool := ready c && reqsDiffer c.g (atomReqs mapped c mapped.nextOp d c.act) [] == 0 &&
       (atomReqs mapped c mapped.nextOp d c.act).all (fun r => r.2 || walkReady mapped c.g.core c.g.part c.g.ctx r.1.va)
     let req (kind : Iss → ReqKind) (n align : Nat) (need : Need) (c : Iss) : Bool :=
       let s1 := { mapped with nextOp := mapped.nextOp + 1 }
       let a := accAt 0 (exactAddr c.g c.x .one c.x.simm 0) n align 0
       ready c && !isRelease c.x.order && accWalks mapped (accessorOf c.g) a && (reachReq s1 c.g (blankReq mapped c mapped.nextOp a.addr (kind c)) a.bad n need false).isOk
     meets mapped .atom { memory .n32 with d := .v 8, c := .v 4 } (agree (some 8)) && meets mapped .red { memory .n32 with c := .v 4 } (agree none) &&
     meets mapped .dqpush { plainEnc with d := .s 0, a := .s 4, b := .sr 63, c := .s 2 }
       (req (fun c => .deque .push (uniOperand c.g c.x 0 c.x.c) c.x.d.idx 0) 32 32 .rw) &&
     meets mapped .dqpop { plainEnc with d := .s 0, a := .s 4, b := .sr 63, e := .s 2 }
       (req (fun c => .deque .pop 0 c.x.d.idx c.x.e.idx) 32 32 .rw) &&
     meets mapped .dqsteal { plainEnc with d := .s 0, a := .s 4, b := .sr 63, e := .s 2 }
       (req (fun c => .deque .steal 0 c.x.d.idx c.x.e.idx) 32 32 .rw) &&
     meets mapped .monarm { plainEnc with d := .s 0, a := .s 4, b := .sr 63, md := 3 }
       (req (fun c => .monarm (c.x.bits 0 2) c.x.d.idx) 8 8 .r))] = [] := by decide

/-- One lane's request to add 1 at an address. -/
def adds (pa : Nat) : SliceReq :=
  { slice := 0, src := { cls := 0, inst := 0 }, gid := 1, split := 0, pc := mkPc 1 1, va := 0, pa, ptrap := false
    kind := .atomic 0 0 .n32 1 0 (some 8), order := 0, scope := 0, chain := 0, op := 3 }

theorem meets_AtomicReadsAndWritesItsLocation : failures [
    (mget mapped.groups (adds 0).gid).isSome && !isRemote (adds 4).pa && mapped.cloakMons == [] &&
      !(readHome (yieldLine mapped 0 0) 4 4).2 && (adds 4).pa < hbmSize,
    isWindow (2 ^ 40) && (windowRead (yieldLine mapped 0 (2 ^ 40 / 128)) 0 (2 ^ 40 % 2 ^ 20)).isSome && Ty.n64.is64]
    = [] := by decide

/-- The group with a deque at 0x300: entries at 0x1000, a capacity of 2^lcap, its top and its bottom. -/
def dequed (lcap top bottom : Nat) : State :=
  [(0x300, 0x1000), (0x308, lcap), (0x310, top), (0x318, bottom)].foldl (fun st e => writeHome st e.1 (leBytes 8 e.2)) mapped

theorem meets_MemorySideSteps : failures [
    (let s : State := { mapped with sliceQ := [adds 128] }
     s.mantle.powered && nextReq s 0 == some (adds 128) && !isState (adds 128) && (mget s.groups 1).any (fun g => pathReady s g.part 1)),
    (mget mapped.groups 1).any (fun g => (adds 128).pa < hbmSize &&
      !(readHome (touchUnit (yieldLine mapped g.core 1) g (adds 128) false) 128 8).2),
    (let deque (s : State) (header : Bool) (full : Bool) (n : Int) : Bool := (mget s.groups 1).any (fun g =>
       let r := adds 0x300
       let u := touchUnit (yieldLine s g.core (r.pa / 128)) g r true
       let (bs, bad) := readHome u r.pa 32
       let lcap := fieldAt bs 8 1 % 32
       let top : BitVec 64 := BitVec.ofNat 64 (fieldAt bs 16 8)
       let bottom : BitVec 64 := BitVec.ofNat 64 (fieldAt bs 24 8)
       let k : Int := (bottom.toNat : Int) - top.toNat
       let slot (i : BitVec 64) : BitVec 64 := BitVec.ofNat 64 (fieldAt bs 0 8 + 8 * (i.toNat % 2 ^ lcap))
       let found (i : BitVec 64) : Bool := (slot i).toNat % 8 = 0 && match reach u (accessorOf g) (slot i) 8 .rw with
         | .ok p => !isRemote p.pa && !p.window && !(readHome (l2Touch (touchTlb (yieldLine u g.core (p.pa / 128)) g.core g.part g.ctx
             (slot i)) g.part g.ctx r.chain (p.pa / 128) false (p.cpol ≠ 2) r.h2) p.pa 8).2
         | _ => false
       !bad && decide (fieldAt bs 9 7 = 0 ∧ fieldAt bs 8 1 < 32 ∧ 1 ≤ lcap ∧ lcap ≤ 24 ∧ k ≤ (2 ^ lcap : Nat)) == header && k == n &&
         decide (k = (2 ^ lcap : Nat)) == full && found bottom && found (bottom - 1) && found top)
     deque mapped false false 0 && deque (dequed 1 0 2) true true 2 && deque (dequed 24 0 0) true false 0 && deque (dequed 1 7 8) true false 1 &&
       deque (dequed 1 0 3) false false 3),
    (let drains (kind : StKind) (order : Nat) (len : Nat) (fails : Bool) (a : BitVec 64) : Bool :=
       let e : StoreEntry := { id := 1, pc := mkPc 1 1, split := 0, kind, order, scope := 6
                               accs := (List.range len).map (fun i => { lane := i, addr := a, size := 4 }) }
       let s := onG mapped (fun g => { g with storeQ := [e] })
       s.mantle.powered && (mget s.groups 1).any (fun g => g.storeQ == [e] && g.replayG.isNone && !earlierReads s 1 g 1 &&
         windowTurn s (accessorOf g) e.id e.accs && dirtyReady s g.core && e.accs.all (accReady s (accessorOf g) true) &&
         e.accs.all (accReady s (accessorOf g) false) && !releaseWaits s g e.scope && g.prods == [] &&
         (heldEvent s g e e.accs).isNone && (failMask g (storeFails s g e.kind e.accs) ≠ 0) == fails)
     drains .store 0 1 false 0x100 && drains .store 2 16 false 0x100 && drains (.cwb true) 0 1 false 0x100 &&
       drains (.cinv false) 0 1 false 0x100 && drains (.cwbAll true) 0 0 false 0 && drains .store 0 1 true (BitVec.ofNat 64 (2 ^ 48))),
    (let s := modCore mapped 0 (fun c => { c with l1 := [(5, { dirty := 1 })] })
     (mget (coreOf s 0).l1 5).any (fun l => l.dirty ≠ 0 && pathReady s l.part 5)),
    (translate mapped 0 0 0 0xFFFFFFFFF).isOk && canonical (BitVec.ofNat 64 (2 ^ 48)) && !(translate mapped 0 0 0 (BitVec.ofNat 64 (2 ^ 48))).isOk]
    = [] := by decide

theorem meets_StoresReachTheLineAndHome : failures [
    !isRemote 128 && l1Ways (coreOf one 0) 1 ≠ 0 &&
      ((coreOf one 0).l1.filter (fun e => e.1 % 512 == 1)).length < l1Ways (coreOf one 0) 1,
    (mget (coreOf (modCore one 0 (fun c => { c with l1 := [(1, {})] })) 0).l1 1).isSome,
    (mget (coreOf one 0).l1 1).isNone && one.cloakMons == [], !isRemote 0xFFF] = [] := by decide

/-- A word of a form that MOD bits select. -/
def selected (op : Op) (x : Enc) (md : Nat) : Enc := { x with md := BitVec.ofNat 24 ((form op).selVal + md) }

/-- q registers 4, 5, 6 as operands. -/
def qqq : Enc := { plainEnc with d := .s 31, a := .s 4, b := .s 5, c := .s 6, ty := .n64 }

theorem meets_SequencerRuns : failures [
    meetsQ seqOne .seqLoopAdd (selected .seqLoopAdd { qqq with c := .v 0 } 0) (fun _ => true),
    meetsQ seqOne .seqLoopMadd (selected .seqLoopMadd qqq 0) (fun _ => true),
    meetsQ seqOne .seqLoopFlags (selected .seqLoopFlags { plainEnc with d := .s 31 } 0) (fun c => arrayIdle c.q && !c.x.bit 3),
    meetsQ seqOne .seqLoopFlags (selected .seqLoopFlags { plainEnc with d := .s 31 } 8) (fun c => arrayIdle c.q && c.x.bit 3),
    meetsQ seqOne .bra { plainEnc with imm := 0 } (fun c => (seqTarget seqOne c).isSome),
    meetsQ seqOne .loop { plainEnc with d := .s 0 } (fun c => sget c.q.q 0 ≠ 1 && (seqTarget seqOne c).isSome),
    meetsQ (onQ seqOne (fun q => { q with q := [(0, 1)] })) .loop { plainEnc with d := .s 0 } (fun c => sget c.q.q 0 = 1),
    meetsQ seqMapped .seqLoopLdq (selected .seqLoopLdq { plainEnc with d := .s 31, a := .s 4 } 0) (fun c => memReady seqMapped c.t.part),
    meetsQ seqMapped .seqLoopStq (selected .seqLoopStq { plainEnc with a := .s 4, b := .s 5 } 0) (fun c => memReady seqMapped c.t.part && !seqReleaseWaits seqMapped c.t 6) ||
      meetsQ seqMapped .seqLoopStq (selected .seqLoopStq { plainEnc with a := .s 4, c := .s 5 } 0) (fun c => memReady seqMapped c.t.part && !seqReleaseWaits seqMapped c.t 6),
    meetsQ seqOne .seqEnd plainEnc (fun c => arrayIdle c.q && !deliveriesLeft seqOne c.tid)] = [] := by decide

/-- Slots of side 0 of the team. -/
def slots (s : State) (l : List (Nat × SlotSt)) : State := onT s (fun t => { t with slots := l.map (fun e => (2 * e.1, { st := e.2 })) })

/-- The team of the sequencer has a group too. -/
def withGroup (s : State) : State := { s with groups := [(7, plainGroup 1 .vector 0)] }

theorem meets_SlotInstructions : failures [
    meetsQ seqOne .slotClaim { plainEnc with a := .o 0, md := 63 } (fun c => slotRangeOk c.t 0 64 &&
      (slotTargets c.t c.x).all (fun p => (slotOf c.t p.2 p.1).st == .empty)),
    meetsQ (slots seqOne [(63, .filling)]) .slotReady { plainEnc with a := .o 63 } (fun c => slotRangeOk c.t 63 1 &&
      (slotTargets c.t c.x).all (fun p => (slotOf c.t p.2 p.1).st != .empty && !drainingSoon (slotOf c.t p.2 p.1))),
    meetsQ seqOne .slotRelease { plainEnc with a := .o 63 } (fun c => slotRangeOk c.t 63 1),
    meetsQ seqOne .slotState { plainEnc with d := .s 0, a := .o 63 } (fun c => slotRangeOk c.t 63 1),
    (let s := slots seqOne [(63, .draining)]
     s.mantle.powered && (mget s.teams 1).any (fun t => (slotOf t 0 63).st == .draining && !slotRead t 0 63)),
    (let pre (s : State) (o : Nat) (c : SIss) : Bool := match targetGroup s c with
       | some (_, g) => slotRangeOk c.t o 1 && slotMoveOk g c.x (qBytes c.q c.x c.x.b) && targetFull g c.x && targetFree g c.x &&
           (moveDamage g c.x).isNone && !g.lined
       | none => false
     let md : BitVec 24 := 15 * 2 ^ 13 + 240 * 2 ^ 5
     meetsQ (withGroup (slots seqOne [(63, .filling)])) .slotWrite { plainEnc with d := .o 63, b := .s 4, md }
       (fun c => pre (withGroup (slots seqOne [(63, .filling)])) 63 c && (slotOf c.t 0 63).st == .filling && !drainingSoon (slotOf c.t 0 63) && !(slotOf c.t 0 63).toReady) &&
     meetsQ (withGroup (slots seqOne [(63, .ready)])) .slotRead { plainEnc with a := .o 63, b := .s 4, md }
       (fun c => pre (withGroup (slots seqOne [(63, .ready)])) 63 c && (slotOf c.t 0 63).st == .ready))] = [] := by decide

/-- Window q4 of `rows` rows and one column, k = 1 in q5, and every slot ready on both sides. -/
def matrix (rows : Nat) : State :=
  onT (onQ seqOne (fun q => { q with q := [(4, BitVec.ofNat 64 (2 ^ 48 + rows * 2 ^ 32)), (5, 1), (6, 2 ^ 32)] })) (fun t => { t with
    slots := (List.range 128).map (fun k => (k, { st := .ready })) })

theorem meets_MatrixWorkIsGivenAndPerformed : failures [
    (let mma (md : BitVec 24) (ty : Ty) : Enc := { plainEnc with d := .s 4, a := .o 0, b := .o 8, c := .s 5, ty, md }
     let gives (c : SIss) : Bool :=
       let j := productJob c (windowFrom (sget c.q.q 4)) (windowFrom (sget c.q.q 4)).rows
       productOk c.t (sget c.q.q 5) j && slotsReady c.t 0 j
     meetsQ (matrix 1) .mma (mma 0x1D .e4m3x4) gives && meetsQ (matrix 1) .mmaCplx (mma 0x29 .f64) gives &&
       meetsQ (matrix 1) .mmaTern (mma 0x47 .t2x16) gives),
    (let gang (rows : Nat) (home other : Bool) (k : BitVec 2) : Bool :=
       let s := onQ (onT (matrix rows) (fun t => { t with
         partner := some 1
         slots := t.slots.filter (fun e => if e.1 % 2 = 0 then home else other) })) (fun q => { q with shares := k })
       meetsQ s .gang { plainEnc with d := .s 4, a := .o 0, b := .o 8, c := .s 5, ty := .e4m3x4, md := 0x0D } (fun c =>
         let sh := gangJobs c (windowFrom (sget c.q.q 4))
         c.t.partner.isSome && c.q.shares == k && (sh.1 :: sh.2.toList).all (productOk c.t (sget c.q.q 5)) &&
           slotsReady c.t 0 sh.1 == home && sh.2.isSome == (rows == 513) && sh.2.toList.all (fun j => slotsReady c.t 1 j == other))
     gang 1 true false 0 && gang 513 true true 0 && gang 513 true false 0 && gang 513 false true 0 && gang 513 false true 1 &&
       gang 513 true false 2),
    meetsQ (matrix 1) .scacc { plainEnc with d := .s 4, a := .s 6, b := .o 63, c := .imm, ty := .f32 } (fun c =>
      scaccOk c.t (sget c.q.q 6) (scaccJob c) && slotsReady c.t 0 (scaccJob c)),
    (let j : MatJob := { pc := mkPc 1 1, scacc := false, ty := .f32, bty := .f32, partial_ := false, cplx := false, tern := false
                         win := windowFrom (2 ^ 48 + 2 ^ 32), sa := 0, sb := 8, k := 1, k0 := 0, reads := [0, 8] }
     let s := onQ (matrix 1) (fun q => { q with jobs := [j] })
     s.mantle.powered && (mget s.teams 1).any (fun t => !t.held && t.seq.any (fun q => jobsOf q 0 == [j] && !q.stopped)) &&
       s.groups.all (fun e => e.2.inj.isNone))] = [] := by decide

/-- The window q4 of the word is in the store and the array is idle. -/
def accOk (c : SIss) : Bool := parOk c && windowOk (accView c.x) (windowFrom (sget c.q.q 4)) && arrayIdle c.q

theorem meets_AccumulatorInstructions : failures [
    (let s := onQ seqMapped (fun q => { q with q := [(4, 0x0001000100000000 + 0x3FF)] })
     meetsQ s .accZero { plainEnc with d := .s 4 } accOk),
    (let s := onQ seqMapped (fun q => { q with q := [(4, 0x0001000100000000)] })
     let p (c : SIss) : Bool := accOk c && memReady s c.t.part && (sget c.q.q 5).toNat % accBytesOf c.x = 0 && qBytes c.q c.x c.x.b % accBytesOf c.x = 0
     meetsQ s .accLoad { plainEnc with d := .s 4, a := .s 5, b := .s 6 } p &&
       meetsQ s .accStore { plainEnc with d := .s 4, a := .s 5, b := .s 6, ty := .f64 } (fun c => p c && !seqReleaseWaits s c.t 6)),
    (let acc (kind order : Nat) : SeqAcc := { pc := mkPc 1 1, kind, e := 4, side := 0, win := windowFrom 0x0001000100000000, base := 0x100
                                              pitch := 64, rows := [0], order, scope := 4 }
     [acc 0 0, acc 1 0, acc 1 2, acc 2 1, acc 3 2].all (fun a => (mget seqMapped.teams 1).any (fun t => t.seq.any (fun q =>
       q.only.isNone && q.early == [] && a.rows.all (fun r => (rowFail seqMapped t a r).isNone))))),
    (let s := withGroup (onQ seqMapped (fun q => { q with q := [(4, 0x0010000100000000)] }))
     meetsQ s .accMove { plainEnc with d := .s 4, md := 240 * 2 ^ 5 } (fun c => match targetGroup s c with
       | some (_, g) => parOk c && g.core = sideCore c.t (accSide c.x) && moveReg c.x + moveCount c.x ≤ g.nv && arrayIdle c.q &&
           targetFree g c.x && (List.range (moveCount c.x)).all (fun j => (List.range g.width).all (fun i =>
             cellInView (accView c.x) (moveCell c.x (windowFrom (sget c.q.q 4)) j i).1 (moveCell c.x (windowFrom (sget c.q.q 4)) j i).2))
       | none => false))] = [] := by decide

/-- The group is one of the system role. -/
def system (s : State) : State := onG s (fun g => { g with role := .system })

/-- A descriptor of a structure at 0x80000 with generation 1 current. -/
def structure_ (s : State) : State :=
  writeHome (writeHome s (0x80000 + 28) (leBytes 4 1)) (0x80000 + 128) (leBytes 4 1)

theorem meets_TailorAndPins : failures [
    (let x : Enc := { plainEnc with d := .s 0, a := .s 1 }
     let p (c : Iss) : Bool := !operandDiffers c c.x.a && c.sp.wait != .tailor
     meets (system one) .bldBuild x p && meets (system one) .bldRefit x p && meets (system one) .bldRebal x p && meets (system one) .bldPublish x p),
    (let o : TailorOp := { id := 5, kind := 0, gid := 1, split := 0, pc := mkPc 1 1, d := 0, desc := 0x90000, core := 0, part := 0, ctx := 0 }
     let s : State := { mapped with tailor := [o] }
     s.mantle.powered && (mget s.groups 1).any (fun g => !o.faulted && !behind s o && readyBit s 7 17 && engineTurn s g.part 2 &&
       match runTailor (touchAll s (engAcc g.part g.ctx (chainOf s g)) (chainOf s g) (tailorReads s (engAcc g.part g.ctx (chainOf s g)) o))
         (engAcc g.part g.ctx (chainOf s g)) o (chainOf s g) with
       | .status _ _ => true
       | _ => false)),
    (let s := onG mapped (fun g => srset g 0 1 0x80000)
     meets (system s) .bldStat { plainEnc with d := .s 0, a := .s 1, b := .imm, imm := 7 } (fun c => !operandDiffers c c.x.a && !operandDiffers c c.x.b &&
       (uniOperand c.g c.x 0 c.x.b).toNat = 7 && homeNow s c &&
       match descAt s (accessorOf c.g) (uniOperand c.g c.x 0 c.x.a) with
       | .ok pa => (statBytes 7).all (fun y => !(readHome s (pa + y.1) y.2).2)
       | _ => false)),
    (let pre (s : State) (c : Iss) (k : Option Nat → Bool) : Bool := !operandDiffers c c.x.a && homeNow s c && (pinFault s c.g).isNone &&
       match descAt s (accessorOf c.g) (uniOperand c.g c.x 0 c.x.a) with
       | .ok pa => k ((readDesc s pa).1.entryOf (readDesc s pa).1.curgen)
       | _ => false
     let s := onG mapped (fun g => srset g 0 1 0x80000)
     meets (structure_ s) .genPin { plainEnc with d := .s 0, a := .s 1 } (fun c => pre (structure_ s) c (·.isSome)) &&
       meets s .genPin { plainEnc with d := .s 0, a := .s 1 } (fun c => pre s c (·.isNone))),
    (let pinned (a : BitVec 64) : State := onG mapped (fun g => { srset g 0 1 0x80000 with gen := 1, genDesc := a })
     let lost := pinned (BitVec.ofNat 64 (2 ^ 48))
     meets one .genUnpin plainEnc (fun c => (pinFault one c.g).isNone && c.g.gen == 0) &&
       meets (pinned 0x80000) .genUnpin plainEnc (fun c => homeNow (pinned 0x80000) c && (pinFault (pinned 0x80000) c.g).isNone && c.g.gen ≠ 0) &&
       meets lost .genUnpin plainEnc (fun c => homeNow lost c && (pinFault lost c.g).isSome && c.g.gen ≠ 0) &&
       meets lost .genPin { plainEnc with d := .s 0, a := .s 1 } (fun c => !operandDiffers c c.x.a && homeNow lost c && (pinFault lost c.g).isSome &&
         (descAt lost (accessorOf c.g) (uniOperand c.g c.x 0 c.x.a)).isOk))] = [] := by decide +kernel

/-- Only core 0 of the partition's cluster is there. -/
def alone (s : State) : State := modCluster s 0 (fun c => { c with map := [(0, 0)] })

theorem openSites_placed {s : State} {p : Nat} {li : LaunchInst} {n : Nat} {x : Nat × List Spot × Option Nat × List Spot}
    (h : openSites s p li.ctx li.launch = [x]) :
    placeTeam s p li n = startTeam { s with draws := s.draws + 64 } p li n x.1 x.2.1 x.2.2.1 x.2.2.2 := by
  unfold placeTeam
  rw [h]
  simp [Nat.mod_one]

def isPlaced : Placed → Bool
  | .ok _ => true
  | _ => false
theorem isPlaced_ok {r : Placed} (h : isPlaced r = true) : ∃ s, r = .ok s := by
  cases r <;> simp_all [isPlaced]

/-- A team of a launch can be placed on one core alone. -/
def fits (s : State) (p n : Nat) (li : LaunchInst) : Bool :=
  match openSites s p li.ctx li.launch with
  | [x] => isPlaced (startTeam { s with draws := s.draws + 64 } p li n x.1 x.2.1 x.2.2.1 x.2.2.2)
  | _ => false

theorem fits_placed {s : State} {p n : Nat} {li : LaunchInst} (h : fits s p n li = true) :
    ∃ s1, placeTeam s p li n = .ok s1 := by
  unfold fits at h
  split at h
  next x e =>
    rw [openSites_placed e]
    exact isPlaced_ok h
  · simp at h

/-- A traversal descriptor at 0xA0000 over the structure at 0x80000. -/
def travDesc (s : State) : State :=
  [(0, 8, 0x80000), (29, 1, 2), (30, 2, 8), (48, 2, 1)].foldl (fun st e =>
    writeHome st (0xA0000 + e.1) (leBytes e.2.1 e.2.2)) (structure_ s)

/-- A traversal of one query, of the descriptor of that state. -/
def traversal (q : Query) : Trav :=
  { id := 9, gid := 1, pc := mkPc 1 1, split := 0, core := 0, part := 0, ctx := 0, queue := none, prio := 0, launch := plainLaunch
    struct := 0x80000, desc := BitVec.ofNat 512 (2 * 2 ^ 232 + 8 * 2 ^ 240 + 2 ^ 384), gen := 1, rootSlot := 0, prims := 0, ownPin := true
    queries := [q] }
/-- A query that is done. -/
def doneQuery : Query := { lane := 0, record := 0xB0000, shape := 0, ray := 0, gen := 1, phase := 3 }

theorem meets_TraversalsBeginAndComplete : failures [
    (let s := onG (travDesc mapped) (fun g => srset g 0 1 0xA0000)
     let p (c : Iss) : Bool := !operandDiffers c c.x.a && !c.g.lined && c.g.trvCount < 255 && c.g.replayG.isNone && memReady s 0 &&
       !earlierReads s c.gid c.g s.nextOp &&
       match readAcc { s with nextOp := s.nextOp + 1 } c.gid s.nextOp 0 0 (accAt 0 (uniOperand c.g c.x 0 c.x.a).toInt 64 64 0) with
       | (.ok f, s1) =>
         let desc := BitVec.ofNat 512 (leNat f.bytes)
         let struct := BitVec.ofNat 64 (travField desc 0 8)
         !f.poisoned && !travBad desc && (match descAt s1 (accessorOf c.g) struct with
           | .ok pa =>
             let u := touchDesc s1 (engAcc c.g.part c.g.ctx (chainOf s c.g)) pa
             (match chooseGen u c pa struct with
               | some (gen, _, _, _) => ((readDesc u pa).1.entryOf gen).isSome
               | none => false)
           | _ => false)
       | _ => false
     let x : Enc := { plainEnc with a := .s 1, b := .v 2 }
     meets s .trace x p && meets s .probeSph (selected .probeSph x 0) p && meets s .probeBox (selected .probeBox x 0) p),
    meets one .trvInfoWait (selected .trvInfoWait { plainEnc with b := .imm, imm := 255 } 0) (fun c => !operandDiffers c c.x.b &&
      c.g.trvCount ≤ (uniOperand c.g c.x 0 c.x.b).toNat % 256),
    meets one .trvInfoCnt (selected .trvInfoCnt { plainEnc with d := .s 8 } 0) (fun c => c.x.d.isS),
    (let s (k : Nat) := onG one (fun g => { g with shader := some { trav := 9, kind := k, block := 0, rays := [(0, 0)], answers := [] } })
     let p (c : Iss) : Bool := c.g.shader.isSome
     meets (s 2) .hitAccept { plainEnc with a := .v 2 } p && meets (s 1) .hitAccept { plainEnc with a := .sr 63 } p &&
       meets (s 1) .hitIgnore plainEnc p && meets (s 1) .hitEnd plainEnc p && meets (s 3) .trvInfoKind
         (selected .trvInfoKind { plainEnc with d := .v 8 } 0) (fun _ => true)),
    (let t := { traversal { doneQuery with phase := 2 } with
       desc := BitVec.ofNat 512 ((mkPc 1 1).toNat * 2 ^ 192 + 2 * 2 ^ 232 + 8 * 2 ^ 240 + 2 ^ 384) }
     let s0 := alone { mapped with travs := [t] }
     let s := progress s0 9
     s0.mantle.powered && s.travs.find? (fun t => t.id == 9) == some t && engineTurn s 0 1 && shaderRays t 3 != [] && !t.rootFaulted &&
       (partOf s 0).state = 0 && ((List.range (travField t.desc 48 2)).find? (fun b => !(blocksUsed s t).contains b) == some 0) &&
       fits s 0 0 { id := 0, launch := shaderLaunch t 3 0, ctx := 0, queue := none, prio := 0, gridid := 0, next := 0, total := 1 }),
    (let t := traversal doneQuery
     let s0 : State := { mapped with travs := [t] }
     let s := progress s0 9
     s0.mantle.powered && s.travs.find? (fun t => t.id == 9) == some t && engineTurn s 0 1 && (mget s.groups t.gid).isSome &&
       t.queries.all (fun y => y.phase = 3 && !y.faulted && (recordFault s t y).isNone))] = [] := by decide +kernel

/-- A collective descriptor at 0xC0000 of one element from 0xD0000 to 0xE0000, over a set of one member at 0xC1000. -/
def collDesc (s : State) : State :=
  [(0xC0000, 8, 0xC1000), (0xC0008, 8, 0xD0000), (0xC0010, 8, 0xE0000), (0xC0020, 4, 1), (0xC1000, 4, 1), (0xC1004, 4, 1)].foldl
    (fun st e => writeHome st e.1 (leBytes e.2.1 e.2.2)) s

/-- A collective operation of two members, of which this device is the first. -/
def collective : CollOp :=
  { id := 5, part := 0, ctx := 0, gid := 1, core := 0, pc := mkPc 1 1, tag := 15, minor := 0, op := 0, ty := .f32, sat := false, scope := 4
    desc := 0xC0000, source := 0xD0000, dest := 0xE0000, lostAddr := 0, count := 1, root := 0, self := 0, nleaves := 2, setid := 1, n := 0
    members := [{ base := 0, lb := 0, pod := 0, accid := 0 }, { base := 1, lb := 0, pod := 0, accid := 1 }], serial := 0, slot := 0
    gindex := 0, chain := 0 }

theorem meets_CollectivesBeginAndEnd : failures [
    (let s := system (onG (collDesc mapped) (fun g => srset g 0 1 0xC0000))
     let p (minor : Nat) (c : Iss) : Bool :=
       let s1 := { releaseAt s c.g c.x.scope with nextOp := (releaseAt s c.g c.x.scope).nextOp + 1 }
       let r := readColl s1 (collAcc c.g) (uniOperand c.g c.x 0 c.x.a)
       !operandDiffers c c.x.a && (mget c.g.tags c.x.kf).isNone && (s.colls.filter (fun o => o.part == c.g.part)).length < 64 &&
       collReady s && releaseReady s c && !peersBehind s c.x.scope && engineTurn s 0 3 && (match r with | .fault _ _ _ => false | _ => true) &&
       collReason s1 minor c.x.scope c.x.ty r = 0 &&
       (newColl s1 c (releaseAt s c.g c.x.scope).nextOp minor r).any (fun o => o.buffers ≤ (partOf s 0).rcvFree)
     let x : Enc := { plainEnc with a := .s 1, ty := .f32, md := 0xF80000 }
     failures [meets s .collReduce x (p 0), meets s .collBcast { x with ty := .b32 } (p 1), meets s .collAllgather { x with ty := .n64 } (p 2), meets s .collRscatter x (p 3)] == []),
    meets (system one) .collStatus { plainEnc with d := .s 0, md := 0xF00000 } (fun _ => true),
    meets (system one) .collWait { plainEnc with d := .s 0, md := 0xF00000 } (fun c => (mget c.g.tags c.x.kf).isNone),
    meets (onG (system one) (fun g => { g with tags := [(15, { st := 2, status := 2, scope := 4 })] })) .collWait { plainEnc with d := .s 0, md := 0xF00000 }
      (fun c => (mget c.g.tags c.x.kf).any (fun t => t.st = 2)),
    (let s : State := { mapped with colls := [collective] }
     let key := collKeyOf collective
     s.mantle.powered && (s.colls.find? (fun o => o.part == 0 && o.setid == key.setid && o.n == key.n)).any (fun o =>
       1 ≠ o.self && 1 < o.members.length && !o.lost.contains 1 && !o.ending && elemBytes o.ty * 1 ≤ 4096 && 0 + 1 ≤ supplies o 1 &&
       !collLate s o 1 && !arrived o 1 && collKeyOf o == key && collKeyOf o ≠ { key with count := 2 })),
    (let late : Mantle := { mapped.mantle with time := 1000000000000 }
     let s : State := { onG mapped (fun g => { g with tags := [(15, { st := 1, status := 0xFFFF00000001, scope := 4 })] }) with
       mantle := late, colls := [collective] }
     (collGet s 5).any (fun o => 1 ≠ o.self && 1 < o.members.length && !o.ending && !arrived o 1 && !o.lost.contains 1 && collLate s o 1 &&
       (mget s.groups o.gid).any (fun g => (mget g.tags o.tag).isSome) && decide ((s.colls.map (·.id)).Nodup) &&
       (s.colls.find? (fun k => k.part == 0 && k.setid == o.setid && k.n == o.n)) == some o &&
       mgetD o.heard 1 o.since + 1000 * max 10 (partOf s o.part).collTimeout.toNat ≤ s.mantle.time)),
    (let ends (o : CollOp) (lost : List Nat) : Bool :=
       let s : State := { mapped with colls := [o] }
       let all := (lost.filter (fun m => m < o.members.length)).foldl insertNat o.lost
       collGet s 5 == some o && !o.ending && engineTurn s 0 3 && (o.mismatch || all.contains o.self ||
         (List.range o.members.length).all (fun m => all.contains m || (if m = o.self then o.read else arrived o m)))
     ends { collective with lost := [1], read := true } [] && ends { collective with mismatch := true } [] && ends collective [0, 7])]
    = [] := by decide

theorem meets_PacketsAndTeamsAreServed : failures [
    (let heads (s : State) (type : Nat) (k : Packet → List (BitVec 8) → Bool) : Bool :=
       let u := queueOf s 0 63
       s.mantle.powered && queueIdle s 0 u && queueTurn s 0 63 && (match readRing s 0 u 1 u.head.toNat with
         | .ok (h, _) => fieldAt h 0 1 == type
         | _ => false) && (match headPacket s 0 u with | .packet k' bs => k k' bs | _ => false)
     let allowed (s : State) (b : Bool) : Bool := heads s 1 (fun k bs => match k with
       | .launch l => let s1 := passPacket (touchPacket (serveQueue s 0 63) 0 (queueOf s 0 63) bs.length) 0 63 bs
           launchAllowed s1 0 (queueCtx (queueOf s1 0 63)) l == b
       | _ => false)
     allowed (queued launchImage id) true && allowed (modPart (queued launchImage id) 0 (fun p => { p with ctx := [] })) false &&
       heads (queued (image [(0, 2), (1, 2), (2, 1), (16, 3)] |>.take 32) id) 2 (fun k _ => match k with
         | .fence es => es == [(3, 0)]
         | _ => false) &&
       heads (queued (image [(0, 5), (1, 2), (4, 2), (10, 5)] |>.take 32) id) 5 (fun k _ => match k with
         | .tasks n table => tableReached (queued (image [(0, 5), (1, 2), (4, 2), (10, 5)] |>.take 32) id) 0 0 table n
         | _ => false)),
    (let s := queued [] (fun u => { u with fence := [(0x40002, 0)] })
     let u := queueOf s 0 63
     s.mantle.powered && queueRuns s 0 u && queueTurn s 0 63 && u.fence != [] && u.fence.all (entryHolds s 0 u)),
    (let waits (bs : List (BitVec 8)) (type : Nat) (more : State → Bool) : Bool :=
       let s := queued [] (fun u => { u with waiting := bs })
       let u := queueOf s 0 63
       queueRuns s 0 u && u.waiting == bs && bs != [] && fieldAt bs 0 1 == type && earlierRetired s 0 63 && queueTurn s 0 63 && more s
     let bs := image [(0, 3), (1, 2), (2, 1), (16, 8), (18, 4), (24, 255)] |>.take 32
     waits bs 3 (fun s =>
         let q := queueAcc 0 (queueOf s 0 63)
         let a := BitVec.ofNat 64 (fieldAt bs 16 8)
         let r := engineTouch (releaseAll (serveQueue s 0 63) 0) q a 8 0
         signalReached s 0 (queueOf s 0 63) && match frontRead r q a 8 .r with
         | .ok (old, _) => (engineWrite r q a (leBytes 8 (BitVec.ofNat 64 (leNat old) + 255).toNat) 0 .w).isOk
         | _ => false) &&
       waits (image [(0, 4), (1, 1), (2, 63)] |>.take 16) 4 (fun _ => true)),
    (let s := queued (image [] |>.take 16) id
     let reads (s : State) : Bool :=
       let u := queueOf s 0 63
       queueEnabled u && (partOf s 0).state = 0 && frontReady s && (match frontRead s (queueAcc 0 u) u.w2 8 .r with
         | .ok (bs, _) => leNat bs % 16 = 0 && (BitVec.ofNat 64 (leNat bs) - u.head).toNat ≤ queueSize u
         | _ => false)
     let t := modQueue s 0 63 (fun u => { u with stop := 3 })
     reads s && (queueOf s 0 63).stop = 0 && reads t && (match frontRead t (queueAcc 0 (queueOf t 0 63)) 0x61008 8 .r with
       | .ok (ws, _) => bits (leNat ws) 0 3 == 0
       | _ => false)),
    (let li : LaunchInst := { id := 0, launch := { plainLaunch with entry := mkPc 1 1 }, ctx := 0, queue := none, prio := 0, gridid := 0, next := 0, total := 1 }
     let s := modPart (alone { mapped with groups := [], teams := [] }) 0 (fun p => { p with launches := [li] })
     !launchHeld s 0 li && askedTeams li = 1 && fits s 0 0 li)] = [] := by decide +kernel

/-- A saved team can be placed on one core alone. -/
def refits (s : State) (v : SavedTeam) : Bool :=
  match savedSites s 0 v [] with
  | [x] => isPlaced (savedRoots { s with draws := s.draws + 64 } 0 v (x.1.1 :: x.1.2.toList))
  | _ => false
theorem refits_placed {s : State} {v : SavedTeam} (h : refits s v = true) : ∃ s1, placeAllSaved 0 [v] [] s = .ok s1 := by
  unfold refits at h
  split at h
  next x e =>
    obtain ⟨s1, h⟩ := isPlaced_ok h
    simp [placeAllSaved, e, Nat.mod_one, h]
  · simp at h

theorem meets_UnitsStopAndTeamsAreSaved : failures [
    (let e := eventOf evPoison
     let delivers (f : Group → Group) (p : Group → Split → Bool) : Bool :=
       let s := onG blocks (fun g => f { g with events := [e] })
       s.mantle.powered && (mget s.groups 1).any (fun g => firstEvent g.events == some e && (vectorPc s g e.code).isSome && g.aside.isNone &&
         !g.stopped && g.region.st != .committing && g.region.st != .aborted &&
         match eventSplit g e with | some (_, sp) => p g sp | none => false)
     delivers id (fun _ sp => sp.wait == .none) && delivers (fun g => { g with kept := true }) (fun g _ => g.kept) &&
       delivers (fun g => { g with
         region := { st := .waiting, openPc := mkPc 1 1 }
         splits := g.splits.map (fun x => (x.1, { x.2 with wait := .region })) })
         (fun g sp => g.region.st == .waiting && opensRegion g sp)),
    (let u : StopUnit := { unit := 0, cause := 1, origin := false, ctx := 0, pc := 0, serial := 0, core := 0, slot := 0, group := 0, lanes := 0,
                           progress := 0, object := 0, detail := 0 }
     let s := modPart mapped 0 (fun p => { p with halt := some { cause := 1, units := [u], time := 0 } })
     let area (cap : Nat) : State := modPart s 0 (fun p => { p with ctx := [(1, 0x70000), (2, BitVec.ofNat 64 cap)] })
     (partOf s 0).halt.any (fun h => h.units == [u]) && unitsReady s 0 && stopArea s 0 0 = 0 && stopArea (area 1) 0 0 ≠ 0 &&
       decide (0 < stopCap (area 1) 0 0) && (stopCap (area 0) 0 0 = 0) && (engineWrite (modHalt (area 1) 0 (fun k => { k with
         counts := mput k.counts 0 1 })) (hostAcc 0 0) (stopArea (area 1) 0 0 + 64) (stopRecord u 0 s.mantle.time) 0 .w).isOk),
    (mget blocks.groups 1).any (fun g => g.region.st == .none && (mget g.splits (eventOf evPoison).split).isSome),
    (let r : Preempt := { launchId := 7, prio := 3, victims := [1] }
     let s := modPart mapped 0 (fun p => { p with preempts := [r] })
     !isSageTeam s 1 && (mget s.teams 1).any (fun t => teamStopped (rollbackTeam s 1) 1 t)),
    (let r : Preempt := { launchId := 7, prio := 3, victims := [1], acked := [1] }
     let s := modPart mapped 0 (fun p => { p with preempts := [r], ctx := [(0, 1), (3, 0x100000), (4, 0x100000)] })
     s.mantle.powered && (partOf s 0).state = 0 && memReady s 0 && r.faulted.isNone && (r.victims.filter (fun t => (mget s.teams t).isSome)).all (r.acked.contains ·) &&
       match saveTeams 0 (partOf s 0).orders [1] [] s with | .ok _ => true | _ => false),
    (let v : SavedTeam := { launchId := 7, tid := 1, order := 0, blocks := [(0, 8192)], cloaks := [0x100000]
                            groups := [(1, plainGroup 1 .vector (mkPc 1 1))]
                            team := { part := 0, ctx := 0, queue := none, prio := 0, launchId := 7, launch := { plainLaunch with entry := mkPc 1 1 }
                                      teamid := 0, gridid := 0, home := 0, partner := none, seq := none } }
     let s := modPart (alone { mapped with groups := [], teams := [] }) 0 (fun p => { p with saved := [v] })
     s.mantle.powered && firstSaved (partOf s 0).saved == some v && !v.faulted && (partOf s 0).state = 0 && frontReady s && memReady s 0 &&
       !engineRecordWaits s 0 &&
       restoreClosure (partOf s 0).saved (partOf s 0).saved.length [v] == [v] && refits s v)] = [] := by decide

theorem meets_ReserveCoreJobs : failures [
    (let j (kind : JobKind) (ended : JobEnd) : Job := { id := 3, part := 0, kind, cluster := some 31, origin := 31, ended }
     let held (l : List Job) : State := { mapped with jobs := l }
     let found (j : Job) : Bool := (held [j]).jobs.find? (fun j => j.id == 3) == some j && j.ended != .none
     reserveFree (held [j (.takeover 7) .none]) 31 && nextJob (held [j (.takeover 7) .none]) 31 == some (j (.takeover 7) .none) &&
       found (j (.replay 1) .committed) && (mget mapped.groups 1).isSome && found (j (.audit 2) .error)),
    mapped.mantle.powered && (partOf mapped 0).testPeriod != 0 && (partOf mapped 0).clusters.getLsbD 0 && !(clusterOf mapped 0).quarantined &&
      !testing mapped 0 && nextInTurn mapped 0 == some 0,
    (let s := modCluster mapped 0 (fun c => { c with rotation := 8 })
     nextInTurn s 0 == some 8 && reservePhys s 0 == some 8),
    (let j : Job := { id := 3, part := 0, kind := .test 8, origin := 0, running := true }
     ({ mapped with jobs := [j] } : State).jobs.find? (fun j => j.running && j.origin == 0 && jobRank j.kind == 2) == some j),
    (clusterOf mapped 0).reserve == some 8,
    (let snap : Snapshot := { nv := 1, ns := 1, vregs := [], sregs := [], preds := [], fpctl := 0, fpflags := 0, fpflagsSh := 0, entry := 0
                              split := { pc := mkPc 1 1, mask := 0xFFFF } }
     let j : Job := { id := 3, part := 0, kind := .replay 1, origin := 0 }
     let s0 := onG blocks (fun g => { g with region := { st := .aborted, openPc := mkPc 1 1, snap := some snap } })
     let s : State := { modCore s0 8 (fun c => { c with dir := (coreOf s0 0).dir, tlb := (coreOf s0 0).tlb }) with jobs := [j] }
     (mget s.groups 1).any (fun g =>
       let u := modCluster (modJob s 3 (fun i => { i with running := true })) 0 (fun c => { c with job := some 3 })
       let s1 := modJob (l1WriteBackAll u g.core) 3 (fun i => { i with orig := some g, team := teamOf u g, images := imagesOf u g })
       (s1.jobs.find? (fun i => i.id == 3)).any (fun j1 => j1.kind == .replay 1 && j1.orig == some g &&
         (startOverlays j1 g).all (fun id => (residentOv s1 8 g.part g.ctx id).isSome) &&
         match runStart s1 8 j1 g snap with | .from_ _ _ => true | _ => false) && g.region.snap == some snap && g.job.isNone &&
         (s1.clusters.find? (fun e => e.2.job == some 3)).map (·.1) == some 0 && reservePhys s1 0 == some 8 &&
         (partOf s g.part).state = 0)),
    (let s : State := { mapped with groups := mput mapped.groups 2 (plainGroup 1 .vector 0) }
     (mget s.groups 1).isSome && (mget s.groups 2).any (fun rg => decide ((rg.vregs.map (·.1)).Nodup ∧ (rg.sregs.map (·.1)).Nodup))),
    (let third (used : List Nat) : Bool := (reserveClusters mapped 0).any (fun c => c != 31 && !used.contains c)
     third [] && !third [0])] = [] := by decide +kernel

theorem meets_RetirementOfCoresSlicesAndWays : failures [
    (coreOf mapped 287).blocks == [] && (coreOf (modCore mapped 0 (fun c => { c with retired := true })) 0).retired &&
      (coreOf (modCore mapped 0 (fun c => { c with blocks := [0] })) 0).blocks == [0],
    (let gone (l : List Nat) : List Nat :=
       mgetD (mgetD ({ mapped with slices := [(0, { retired := [(3, l)] })] } : State).slices 0 {}).retired 3 []
     !(gone [0, 1, 2]).contains 3 && (gone [0, 1, 2]).length < 4 && !(gone [0, 1, 2, 3]).contains 4 && 4 ≤ (gone [0, 1, 2, 3]).length),
    (let ways (l : List Nat) : List Nat := mgetD (coreOf (modCore mapped 5 (fun c => { c with l1Retired := [(9, l)] })) 5).l1Retired 9 []
     !(ways [4]).contains 5 && (ways [4]).length < 2 && !(ways [4, 11]).contains 5 && 2 ≤ (ways [4, 11]).length)] = [] := by decide

theorem meets_HbmChannelSteps : failures [
    (let bank (k : Bank) : State := modChan mapped 383 (fun c => { c with banks := [(1, k)] })
     let due := bank { due := [2 * 65535, 3] }
     let held := bank { held := true }
     mapped.mantle.powered && channelReady mapped 383 && !(chanOf due 383).paused && !(bankAt (chanOf due 383) 1).held &&
       nextDue (bankAt (chanOf due 383) 1) == some 131070 && (bankAt (chanOf held 383) 1).held),
    (let full (n : Nat) : State := modChan mapped 0 (fun c => { c with remap := (List.range n).map (fun k => (k, k)) })
     let room (s : State) (g : Nat) : Bool := (mget (chanOf s 0).remap (262144 * g + 70)).isSome ||
       ((chanOf s 0).remap.filter (fun e => e.1 / 262144 == g)).length < 64
     room (full 63) 0 && !room (full 64) 0 && room (full 64) 1),
    (let s := modChan mapped 0 (fun c => { c with spares := [(3, 63)] })
     mget (chanOf s 0).spares (47 / 16) == none && !(chanOf s 0).paused && (mget (chanOf s 0).spares (48 / 16)).isSome),
    (let s := modChan mapped 0 (fun c => { c with paused := true, repairing := some 63 })
     (chanOf s 0).repairing == some 63 && (chanOf s 0).drain == 0),
    (let served_ (b : Bank) (w : Bool) : Bool := let c : Channel := { queue := [(64, w)], banks := [(bankOf 64, b)] }
       (served c).find? (mayGo c) == some (64, w)
     let row := physRow {} (bankOf 64) (rowOf 64)
     let full : Bank := { rows := (List.range 512).map (fun n => (n + 65536, 1)) }
     served_ { rows := [(row, 7)] } false && (mget ({ rows := [(row, 7)] } : Bank).rows row).isSome && served_ {} true &&
       (mget ({} : Bank).rows row).isNone && served_ full false && (mget full.rows row).isNone && full.rows.length == 512),
    lostIn [63] 0 == [63] && lostIn [63] 1 == [] && (match lostIn [63, 0] 0 with | _ :: _ :: _ => true | _ => false)] = [] := by decide +kernel

/-- The machine's partition 0 admits what peer 5 asks for, and key 2 is valid. -/
def peers : State :=
  modPart (queued [] id) 0 (fun p => { p with
    peerAcl := [(255, BitVec.ofNat 64 (2 ^ 63 + 2 ^ 27 + 2 ^ 25 + 63 * 2 ^ 19 + 5))]
    rdmaKey := [(9, 256), (10, BitVec.ofNat 64 (2 ^ 63 + 3 * 2 ^ 33 + 7)), (14, BitVec.ofNat 64 (2 ^ 63 + 2 ^ 35)), (15, 9)] })

theorem meets_FabricSteps : failures [
    peers.mantle.powered && ownerOf peers (2 ^ 35 - 256) == some 0 && ownerOf peers (2 ^ 35 - 1) == some 0 && ownerOf peers (2 ^ 35) == none &&
      peerAdmits peers 0 5 (fun e => e.getLsbD 25) && !peerAdmits peers 0 6 (fun e => e.getLsbD 25) &&
      peerAtomicOk 2 0x100 (List.replicate 16 0) && !peerAtomicOk 2 0x101 (List.replicate 16 0),
    (let u := queueOf peers 0 63
     appendAdmitted peers 0 63 5 1 && engineTurn peers 0 4 && engineTurn peers 0 5 && (match engineRead peers (queueAcc 0 u) u.w2 8 .r with
       | .ok (t, _) => (BitVec.ofNat 64 (leNat t) - u.head).toNat + 256 ≤ queueSize u
       | _ => false) && queueEnabled u &&
       (List.range 16).all (fun k => (reachRuns peers (queueAcc 0 u) (u.w0 + BitVec.ofNat 64 (16 * k)) 16 .w).isOk)),
    (let u (kind : Nat) (req : Option SliceReq) : UalReq := { id := 4, port := 0, gid := 1, pc := 0, va := 0, pa := 0, kind, req }
     let found (u : UalReq) : Bool := ({ mapped with ual := [u] } : State).ual.find? (fun u => u.id == 4) == some u
     found (u 1 none) && !refusalWaits mapped (u 1 none) && found (u 0 none) && found (u 2 (some (adds 0)))),
    (let key : BitVec 32 := BitVec.ofNat 32 (2 * 2 ^ 26 + 7)
     ethReady peers && rdmaCtx peers 0 key 0 256 34 == some 0 && rdmaCtx peers 0 key 0 257 34 == none && (bufferFail peers (hostAcc 0 0) 0 256 .w).isNone &&
       rdmaCtx peers 0 key 0 256 33 == some 0 && rdmaCtx peers 0 key 255 2 33 == none && (bufferFail peers (hostAcc 0 0) 0 16 .r).isNone &&
       (bufferRead peers (hostAcc 0 0) 0 16).all (fun b => !b.2) && ringOfQpn peers 0 9 == some 3 && ringOfQpn peers 0 10 == none)] = [] := by decide +kernel

theorem meets_WindowRegisterWrites : failures [
    State.reset.mantle.powered && partOf State.reset 7 == partOf State.reset 0 && (partOf State.reset 7).windowWaiting == [] &&
      (partOf (modPart mapped 0 (fun q => { q with windowWaiting := [(0xC0028, 0)] })) 0).windowWaiting != [],
    !queueEnabled (queueOf State.reset 7 63) && queueEnabled (queueOf (queued [] id) 0 63),
    (List.range 5).all (fun w => (0xC23C0 + 8 * w - 0xC2000) / 8 % 8 < 5) && (0xC23E8 - 0xC2000) / 8 % 8 = 5] = [] := by decide

theorem meets_WindowWritesThatAct : failures [
    State.reset.mantle.powered && (partOf State.reset 7).tlbiDone && (partOf State.reset 7).windowWaiting == [],
    (let s := modPart mapped 0 (fun q => { q with tlbiDone := false })
     !(partOf s 0).tlbiDone && !tlbiBlocked s 0 (tlbiPending (partOf s 0)) && (partOf s 0).windowWaiting == [] &&
       ((s.cores.map (·.1)).filter (fun c => (partOf s 0).clusters.getLsbD (clusterOfCore c))).all (dirtyReady s)),
    nthOf (partOf mapped 0).halfStacks 0 == some 0 && nthOf (0xFFFFFF : BitVec 24) 23 == some 23,
    (let s := modPart mapped 0 (fun q => { q with state := 1, halt := some { cause := 1, units := [], time := 0 } })
     (partOf s 0).state = 1 && (partOf s 0).windowWaiting == [] && (partOf s 0).halt.all (fun h => h.units == []))] = [] := by decide

theorem meets_MantleCommands : failures [
    State.reset.mantle.powered && State.reset.mantle.seq.toNat < 2 ^ 64 - 1 && !(State.reset.mantle.seq.toNat < 0),
    (let l : Layout := { clusters := 0x80000000, sliceGroups := 1, halfStacks := 1, eth := 64, ual := 64 }
     layoutOk State.reset 7 l && !layoutOk mapped 7 l && !layoutOk State.reset 8 l && !l.isEmpty && l.halfStacks.getLsbD 0 &&
       !(partOf State.reset 7).halfStacks.getLsbD 0 && (partOf mapped 0).clusters ≠ 0)] = [] := by decide

theorem meets_PowerClockAndReadiness : failures [
    State.reset.mantle.powered && !(State.reset.mantle.powerLimit < State.reset.mantle.powerLimit) && !(100 ≤ 99),
    !({ State.reset with mantle := { State.reset.mantle with powered := false } } : State).mantle.powered,
    !(clusterOf State.reset 31).quarantined && (clusterOf State.reset 31).map.any (fun e => !(coreOf State.reset (9 * 31 + e.2)).retired)] = [] := by decide

theorem meets_TranslationAndPermission : failures [
    (let q : Accessor := accessorOf (plainGroup 1 .vector 0)
     let page (p : Nat) (r : Bool) : State := modCore mapped 0 (fun c => { c with tlb := c.tlb.map (fun e => { e with page := p, r }) })
     let at_ (s : State) (f : TlbEntry → Nat → Bool) : Bool := match translate s q.core q.part q.ctx 0 with
       | .ok e => canonical 0 && f e (e.page + (0 : BitVec 64).toNat % 2 ^ (16 + 10 * e.level))
       | _ => false
     !canonical (BitVec.ofNat 64 (2 ^ 56)) && at_ (page 0 false) (fun e _ => !grants e .r) && at_ mapped (fun e pa => grants e .r && pa < hbmSize) &&
       at_ (page remoteBit true) (fun e pa => grants e .r && isRemote pa) && at_ (page (2 ^ 36) true) (fun _ pa => pa < hbmSize) &&
       at_ (page hbmSize true) (fun _ pa => !isRemote pa && hbmSize ≤ pa) && !q.sageip),
    (let q : Accessor := { accessorOf (plainGroup 1 .vector 0) with sageip := true }
     let at_ (cpol : Nat) (f : TlbEntry → Nat → Bool) : Bool :=
       let s := modCore mapped 0 (fun c => { c with tlb := c.tlb.map (fun e => { e with page := 2 ^ 40, cpol }) })
       match translate s q.core q.part q.ctx 16 with
       | .ok e => canonical 16 && grants e .r && f e (e.page + 16 % 2 ^ (16 + 10 * e.level))
       | _ => false
     let window (e : TlbEntry) (pa : Nat) : Bool := pa % 8 = 0 && e.cpol = 2 && pa < 2 ^ 41 && pa / 2 ^ 39 % 4 = 2 &&
       pa / 2 ^ 23 % 2 ^ 16 = 0 && pa / 2 ^ 20 % 8 = q.part && !isRemote pa && hbmSize ≤ pa
     at_ 2 window && at_ 0 (fun e pa => !window e pa && !isRemote pa && hbmSize ≤ pa)),
    tableOwned mapped 0 0x80000 && !tableOwned mapped 0 (2 ^ 36) && (readHome (addPoison mapped (0x80000 / 128) 0xFF) 0x80000 8).2,
    ctxWord State.reset 0 15 0 % 2 = 0,
    (let e (n : Nat) : Nat := leNat (readHome (writeHome mapped 0x80000 (leBytes 8 n)) 0x80000 8).1
     !(readHome mapped 0x80000 8).2 && e 2 % 2 = 0 && e 1 % 2 = 1 && malformedEntry 0 (e 1) && !malformedEntry 1 (e 1) && e 1 / 2 ^ 10 % 8 = 0 &&
       e 1 / 2 % 2 = 0 && !malformedEntry 0 (e (3 + 7 * 2 ^ 10)) && e (3 + 7 * 2 ^ 10) / 2 ^ 10 % 8 ≠ 0 && !malformedEntry 0 (e 0x1F) && e 0x1F / 2 % 2 = 1)]
    = [] := by decide

/-- The split's fetch gives a word of which `p` holds, and its turn has come. -/
def fetches (s : State) (p : Group → Split → Word → Bool) : Bool :=
  s.mantle.powered && s.agenda == [.issue (.split 1 0)] && match mget s.groups 1 with
  | some g => (match mget g.splits 0 with
    | some sp => sp.wait != .fault && !g.stopped && !replayHolds g 0 && (heldWord sp.wait sp.issued).isNone && !sp.reread &&
      (match fetchWord s g.core g.part g.ctx sp.pc with | .word w => p g sp w | _ => false)
    | none => false)
  | none => false

theorem meets_StepRunsDecoded : failures [
    (let place (w : Word) : State := placeWord State.reset w
     let parts : State := onG (place (plainHeader false)) (fun g =>
       { g with splits := mmod g.splits 0 (fun sp => { sp with stack := [mkPc 1 1] }) })
     fetches (place 0x0020000000000003DE00000000000000) (fun _ _ w => decode w == .ok .exit plainEnc) &&
       fetches (place 0) (fun _ _ w => decode w == .illegalOpcode) &&
       fetches (place (plainHeader false)) (fun g sp w => decode w == .header && stackFrom sp.pc sp.stack == none && hdrOvl w = pcOverlay sp.pc &&
         !hdrMstream w && g.region.st != .opened) &&
       fetches parts (fun _ sp w => decode w == .header && (stackFrom sp.pc sp.stack).isSome)),
    (let s := onG (placeWord State.reset 0) (fun g => { g with
       splits := mmod g.splits 0 (fun sp => { sp with wait := .reply, issued := some (.atom, plainEnc) }) })
     s.agenda == [.issue (.split 1 0)] && (mget s.groups 1).any (fun g => !g.stopped && !replayHolds g 0 &&
       (mget g.splits 0).any (fun sp => heldWord sp.wait sp.issued == some (.atom, plainEnc)))),
    (let s := onQ (placeWord State.reset (0xF0804808805007D3DED000000000001D)) (fun q => { q with
       wait := .barrier 0 0, issued := some (.barSync, plainEnc) })
     s.agenda == [.issue (.seq 1)] && (mget s.teams 1).any (fun t => t.seq.any (fun q => q.wait != .fault && !q.ended && !q.stopped &&
       heldWord q.wait q.issued == some (.barSync, plainEnc)))),
    (let s := placeWord State.reset (0xF0804808805007D3DED000000000001D)
     s.agenda == [.issue (.seq 1)] && (mget s.teams 1).any (fun t => t.seq.any (fun q => q.wait != .fault && !q.ended && !q.stopped &&
       (heldWord q.wait q.issued).isNone && (match fetchWord s t.home t.part t.ctx q.pc with | .word w => (decode w matches .ok _ _) | _ => false)))),
    (let s : State := { placeWord State.reset 0x0020000000000003DE00000000000000 with agenda := [], phase := false }
     let s1 : State := aged (begun s)
     seqCandidates s1 == [] && (firstOf (candidates s1)).any (fun c => c.2.2 == (1, 0)))] = [] := by decide

theorem meets_ChecksAtIssue : failures [
    (let g : Group := plainGroup 1 .vector 0
     let role (op : Op) : Bool := roleOk g op
     let oks (op : Op) (x : Enc) : List Bool :=
       [role op, privilegeOk one g op, operandsOk op x && limitsOk g.nv g.ns op x && hitOperandOk g op x, fieldsOk op x && segOk g op x]
     one.mantle.powered && (mget one.groups 1).any (fun h => (mget h.splits 0).isSome) && (oks .collReduce plainEnc).getD 0 true == false &&
       (oks .errinj { plainEnc with a := .imm }).take 2 == [true, false] &&
       (oks .iadd { two .i32 with d := .imm }).take 3 == [true, true, false] &&
       oks .iadd { two .f32 with d := .v 0 } == [true, true, true, false] && oks .iadd (two .i32) == [true, true, true, true] &&
       (oks .movi { plainEnc with d := .v 255, ty := .n64 }).take 3 == [true, true, false]),
    (let g : Group := { plainGroup 1 .vector 0 with region := { st := .opened } }
     issueCheck one g .exit plainEnc == none && regionBars .exit && g.region.st == .opened && !regionBars .iadd),
    (let g : Group := { plainGroup 1 .vector 0 with live := 3 }
     issueCheck one g .barSync { plainEnc with a := .b 15, b := .imm } == none && wholeSplit .barSync && (1 : BitVec 64) != g.live && !wholeSplit .iadd),
    (let g : Group := { plainGroup 1 .vector 0 with empty := [0] }
     issueCheck one g .iadd (two .i32) == none && regsReady g .iadd (two .i32) == .wait),
    (let g : Group := { plainGroup 1 .vector 0 with damaged := [2] }
     issueCheck one g .iadd (two .i32) == none && regsReady g .iadd (two .i32) == .damaged 2),
    (let g : Group := { plainGroup 1 .vector 0 with empty := [2] }
     let x : Enc := { two .i32 with wb := true }
     issueCheck one g .iadd x == none && regsReady g .iadd x == .emptyRead 2),
    (let g : Group := { plainGroup 1 .vector 0 with damaged := [515] }
     let x : Enc := { two .i32 with gp := 3 }
     issueCheck one g .iadd x == none && (guardHit g x (maskBelow 16)).isSome),
    (let g : Group := plainGroup 1 .vector 0
     let x : Enc := { two .i32 with gp := 3 }
     regsReady g .iadd x == .go && !uniform .iadd x && activeOf g x (bothCopies g (maskBelow 16)) = 0 && activeOf g x (maskBelow 16) = 0)] = [] := by decide

theorem meets_MemoryOperationsKeepForm : MemOk State.reset := by
  unfold MemOk
  decide

/-- A word with memory in its canonical form, that `step` executes. -/
theorem meets_EveryStepKeepsMemoryForm : MemOk (placeWord State.reset 0x0020000000000003DE00000000000000) ∧
    (match step (placeWord State.reset 0x0020000000000003DE00000000000000) with | .next _ => true | _ => false) = true := by
  unfold MemOk
  decide

theorem meets_EncodedInstructionsDecode : (Instr.ofOp (three .i64) .iadd3).wf = true := by decide
theorem meets_DecodedWordsEncode : decode 0x803080A0C0000020CB90003EC0000000 =
    .ok .dfma { plainEnc with d := .v 8, a := .v 10, b := .v 12, c := .imm, gp := 3, gq := 5, gqi := true, ty := .f64, imm := 0x3EC0 } := by decide
theorem meets_IntegerResultsByElement : failures [3 < Ty.i8x4.elems, 0 < Ty.i64.elems, 31 < 32, 63 < 64] = [] := by decide

/-! ### Words of the encoding tables -/

/-- A word by the fields of Table 9.3: MAJOR, MINOR, D, A, B, C, E, their kinds, TYPE, IMM16 and MOD, with the default guard
(GP and GQ 15: 0x3DE in bits 65:56) and the other fields zero. -/
def fields (major minor : Nat) (d a b c e kd ka kb kc ke : Nat) (type imm md : Nat) : Word :=
  BitVec.ofNat 128 (major * 2 ^ 122 + minor * 2 ^ 116 + d * 2 ^ 108 + a * 2 ^ 100 + b * 2 ^ 92 + c * 2 ^ 84 + e * 2 ^ 76 +
    kd * 2 ^ 74 + ka * 2 ^ 72 + kb * 2 ^ 70 + kc * 2 ^ 68 + ke * 2 ^ 66 + 0x3DE * 2 ^ 56 + type * 2 ^ 52 + imm * 2 ^ 24 + md)

/-- The instruction that a word names, with its operands right or wrong. -/
def named (w : Word) : Option Op :=
  match decode w with
  | .ok op _ => some op
  | .illegalOperand op => some op
  | .illegalField op _ => some op
  | _ => none

/-- The words of a major with only MINOR and MOD that do not name what they should. -/
def wrongMinors (major : Nat) (l : List (Nat × Nat × Op)) : List Op :=
  (l.filter (fun e => named (fields major e.1 0 0 0 0 0 0 0 0 0 0 0 0 e.2.1) != some e.2.2)).map (·.2.2)

/-- MINORs of majors 0x00 to 0x07 (Tables 9.12, 15.1). -/
theorem test_control_minors :
    wrongMinors 0x00 [(1, 0, .nop), (2, 0, .exit), (3, 0, .yield), (4, 0, .sleep), (5, 0, .trap), (6, 0, .tret), (7, 0, .srget),
      (8, 0, .srset), (9, 0, .replay), (10, 0, .pfix), (11, 0, .errinj)] ++
    wrongMinors 0x01 [(0, 0, .bra), (1, 0, .bri), (2, 0, .brany), (3, 0, .brall), (4, 0, .loop)] ++
    wrongMinors 0x02 [(0, 0, .call), (1, 0, .calli), (2, 0, .ret), (3, 0, .callo), (3, 0x1000, .calloReg), (4, 0, .reto), (5, 0, .ovld),
      (5, 0x4000, .ovldF), (6, 0, .ovwait), (7, 0, .ovhold), (8, 0, .ovdrop), (9, 0, .ovquery)] ++
    wrongMinors 0x03 [(0, 0, .plogic), (1, 0, .ptos), (2, 0, .stop), (3, 0, .ppopc)] ++
    wrongMinors 0x04 [(0, 0, .barSet), (1, 0, .barSync), (2, 0, .barArrive), (3, 0, .barWait), (4, 0, .syncl), (5, 0, .stageInit),
      (6, 0, .stagePost), (7, 0, .stageTake)] ++
    wrongMinors 0x05 [(0, 0, .spmask), (1, 0, .joinx)] ++
    wrongMinors 0x06 [(0, 0, .suspend), (1, 0, .resume), (2, 0, .codrop), (3, 0, .coinfo), (4, 0, .tkdone), (5, 0, .tkadd),
      (6, 0, .tkpeek), (7, 0, .launch)] ++
    wrongMinors 0x07 [(0, 0, .regionOpen), (1, 0, .regionClose), (2, 0, .regionAbort), (3, 0, .regionInfo)] = [] := by decide

/-- MINORs of majors 0x10 to 0x27 (Table 9.12). -/
theorem test_compute_minors :
    wrongMinors 0x10 [(0, 0, .iadd), (1, 0, .isub), (2, 0, .iadd3), (3, 0, .iaddc), (4, 0, .ineg), (5, 0, .iabs)] ++
    wrongMinors 0x11 [(0, 0, .imul), (1, 0, .imulh), (2, 0, .imad), (3, 0, .imadw)] ++
    wrongMinors 0x12 [(0, 0, .idiv), (1, 0, .irem)] ++
    wrongMinors 0x13 [(0, 0, .imin), (1, 0, .imax), (2, 0, .icmp), (3, 0, .sel)] ++ wrongMinors 0x14 [(0, 0, .logic3)] ++
    wrongMinors 0x15 [(0, 0, .shl), (1, 0, .shr), (2, 0, .sar), (3, 0, .rol), (4, 0, .ror), (5, 0, .shf)] ++
    wrongMinors 0x16 [(0, 0, .bfx), (1, 0, .bfi), (2, 0, .popc), (3, 0, .clz), (4, 0, .ctz), (5, 0, .brev), (6, 0, .permb)] ++
    wrongMinors 0x17 [(0, 0, .lea)] ++ wrongMinors 0x18 [(0, 0, .mov), (1, 0, .movi), (2, 0, .movh), (3, 0, .i2i)] ++
    wrongMinors 0x20 [(0, 0, .dadd), (1, 0, .dsub), (2, 0, .dmul), (3, 0, .dfma), (4, 0, .ddiv), (5, 0, .dsqrt), (6, 0, .dmin),
      (7, 0, .dmax), (8, 0, .dround)] ++
    wrongMinors 0x21 [(0, 0, .fadd), (1, 0, .fsub), (2, 0, .fmul), (3, 0, .ffma), (4, 0, .fdiv), (5, 0, .fsqrt), (6, 0, .fmin),
      (7, 0, .fmax), (8, 0, .fround)] ++
    wrongMinors 0x22 [(0, 0, .hadd2), (2, 0, .hmul2), (3, 0, .hfma2), (6, 0, .hmin2), (7, 0, .hmax2)] ++
    wrongMinors 0x23 [(0, 0, .dcmp), (1, 0, .dclass), (2, 0, .fcmp), (3, 0, .fclass), (4, 0, .hcmp2)] ++
    wrongMinors 0x24 [(0, 0, .cvt), (1, 0, .cvtp), (2, 0, .scaleb)] ++
    wrongMinors 0x25 [(0, 0, .rcp), (1, 0, .rsq), (2, 0, .exp2), (3, 0, .log2), (4, 0, .sin), (5, 0, .cos)] ++
    wrongMinors 0x26 [(0, 0, .rng), (1, 0, .sigacc)] ++
    wrongMinors 0x27 [(0, 0, .shfl), (1, 0, .bcast), (2, 0, .vote), (3, 0, .matchLanes), (4, 0, .lred), (5, 0, .lscan)] = [] := by decide

/-- MINORs of majors 0x30 to 0x3E, with the forms that MOD bits select (Tables 9.12, 13.2, 17.4, 17.6, 23.5). -/
theorem test_memory_and_engine_minors :
    wrongMinors 0x30 [(0, 0, .ld), (1, 0, .ldb), (2, 0, .lds)] ++ wrongMinors 0x31 [(0, 0, .st), (1, 0, .stb), (2, 0, .sts)] ++
    wrongMinors 0x32 [(0, 0, .cpaS), (0, 0x10, .cpaG), (0, 0x20, .cpaO), (1, 0, .cptS), (1, 0x20, .cptO)] ++
    wrongMinors 0x33 [(0, 0, .waitk), (1, 0, .kset), (2, 0, .kget)] ++ wrongMinors 0x34 [(0, 0, .atom), (1, 0, .atoms), (2, 0, .red)] ++
    wrongMinors 0x35 [(0, 0, .dqpush), (1, 0, .dqpop), (2, 0, .dqsteal), (3, 0, .monarm), (4, 0, .monwait)] ++
    wrongMinors 0x36 [(0, 0, .fence), (1, 0, .pref), (2, 0, .cwb), (2, 2, .cwbAll), (3, 0, .cinv), (3, 2, .cinvAll)] ++
    wrongMinors 0x3C [(0, 0, .slotClaim), (1, 0, .slotRelease), (2, 0, .slotReady), (3, 0, .slotState), (4, 0, .slotWrite),
      (5, 0, .slotRead), (8, 0, .mma), (8, 0x20, .mmaCplx), (8, 0x40, .mmaTern), (9, 0, .scacc), (0x10, 0, .accZero),
      (0x11, 0, .accLoad), (0x12, 0, .accStore), (0x13, 0, .accMove), (0x18, 0, .seqLoopAdd), (0x18, 1, .seqLoopMadd),
      (0x18, 2, .seqLoopLdq), (0x18, 3, .seqLoopStq), (0x18, 4, .seqLoopFlags), (0x19, 0, .seqEnd), (0x1A, 0, .gang)] ++
    wrongMinors 0x3D [(0, 0, .bldBuild), (1, 0, .bldRefit), (2, 0, .bldRebal), (3, 0, .bldPublish), (4, 0, .bldStat), (8, 0, .genPin),
      (9, 0, .genUnpin), (0x10, 0, .trace), (0x11, 0, .probeSph), (0x11, 1, .probeBox), (0x18, 0, .hitAccept), (0x19, 0, .hitIgnore),
      (0x1A, 0, .hitEnd), (0x1B, 0, .trvInfoWait), (0x1B, 1, .trvInfoCnt), (0x1B, 2, .trvInfoKind)] ++
    wrongMinors 0x3E [(0, 0, .collReduce), (1, 0, .collBcast), (2, 0, .collAllgather), (3, 0, .collRscatter), (8, 0, .collWait),
      (9, 0, .collStatus)] = [] := by decide

/-- Reserved majors and MINORs raise ILLEGAL_OPCODE (R157, Table 9.13). -/
theorem test_reserved_opcodes : failures (([(0x08, 0), (0x0F, 0), (0x19, 0), (0x1F, 0), (0x28, 0), (0x2F, 0), (0x37, 0), (0x3B, 0),
    (0x00, 0), (0x00, 12), (0x01, 5), (0x22, 1), (0x22, 4), (0x27, 6), (0x36, 4), (0x3C, 6), (0x3C, 0x14), (0x3D, 5), (0x3E, 4)]
    : List (Nat × Nat)).map (fun e => decode (fields e.1 e.2 0 0 0 0 0 0 0 0 0 0 0 0 0) == .illegalOpcode)) = [] := by decide

/-- Words with their operands written out from Tables 9.3, 9.4, 9.7, 9.10 and the tables of their chapters. -/
theorem test_words : failures [
    decode (fields 0x10 0 8 2 0 0 0 0 0 2 0 0 1 0xFFFE 0) == .ok .iadd { plainEnc with d := .v 8, a := .v 2, b := .imm, ty := .i32, imm := 0xFFFE },
    decode (fields 0x20 0 8 10 0x20 0 0 0 0 1 0 0 9 0 0) == .ok .dadd { plainEnc with d := .v 8, a := .v 10, b := .s 32, ty := .f64 },
    decode (fields 0x00 7 8 0xC8 0 0 0 1 3 0 0 0 0 0 0) == .ok .srget { plainEnc with d := .s 8, a := .sr 8 },
    decode (fields 0x04 1 0 0x5F 3 0 0 0 3 1 0 0 0 0 0) == .ok .barSync { plainEnc with a := .b 15, b := .s 3 },
    decode (fields 0x04 6 0 0x67 0 0 0 0 3 2 0 0 0 5 0) == .ok .stagePost { plainEnc with a := .g 7, b := .imm, imm := 5 },
    decode (fields 0x33 0 0 0x4F 0 0 0 0 3 2 0 0 0 255 0) == .ok .waitk { plainEnc with a := .k 15, b := .imm, imm := 255 },
    decode (fields 0x3C 0 0 0xBF 0 0 0 0 3 0 0 0 0 0 0) == .ok .slotClaim { plainEnc with a := .o 63 },
    decode (fields 0x01 0 0 0 0 0 0 0 0 0 0 0 0 0xFFFF 0) == .ok .bra { plainEnc with imm := 0xFFFF }] = [] := by decide

/-- The immediate of a lane's operand (Table 9.6, and the examples of R163). -/
theorem test_immediates : failures [
    immVal .f64 0x3FC0 == 0x3FF8000000000000, immVal .f64 0x3EC0 == 0x3FD8000000000000, immVal .f16x2 0x3C00 == 0x3C003C00,
    immVal .bf16x2 0x3F80 == 0x3F803F80, (immVal .i32 0xFFFE).setWidth 32 == (0xFFFFFFFE : BitVec 32), immVal .n64 0xFFFE == 0xFFFE,
    (immVal .e4m3x4 0xC038).setWidth 32 == (0xC038C038 : BitVec 32)] = [] := by decide

/-! ### Ill-formed terms -/

/-- Each check of WellFormed refuses a term that breaks it: the unit does not exist, or a field is out of range. -/
theorem test_ill_formed_steps : failures ([
    Instr.teamPlace 8 0, .launchPacket 0 64, .launchPacket 8 0, .queueDescriptorWrite 0 0 4 0, .coreRetire 288, .overlayLoadComplete 288 0 0,
    .overlayLoadComplete 0 16 0, .regionBudgetGrant 288, .slotDrainEnd 0 2 0, .slotDrainEnd 0 0 64, .arrayStep 0 2 false,
    .shaderDispatch 0 0, .shaderDispatch 0 4, .dirtyLineTimeout 288 0, .pageWalk 288 0 0 0, .pageWalk 0 8 0 0, .pageWalk 0 0 16 0,
    .l2SliceRequest 2048, .hbmRequest 384 true 0 [], .rfmThreshold 0 32, .rfmThreshold 384 0, .rfmHoldEnd 0 32 0,
    .ualinkMemoryRequest 0 128 0 [], .ualinkMemoryRequest 0 3 0 [], .ualinkMemoryRequest 0 0 0 (List.replicate 257 0),
    .ualinkAppend 0 0 0 (List.replicate 15 0), .ualinkAppend 0 0 0 (List.replicate 257 0), .linkLevelRetry 16 0, .rdmaRead 8 0 0 0,
    .registerWrite 0 0x100000 0, .registerWrite 0 4 0, .reserveCoreJobStart 32, .sliceRetire 0 32, .wayRetire true 2048 0 0,
    .wayRetire false 288 0 0, .wayRetire true 0 512 0, .wayRetire true 0 0 12, .rowRemap 0 8 0 0, .rowRemap 0 0 262144 0, .rowRemap 0 0 0 64,
    .dqRepair 0 64, .layout true 0 0 0 0 0 65 0, .power true 0 499, .power true 0 3601, .overtempShutdown 9, .unitReady 8 0, .unitReady 0 64]
    |>.map (fun i => !i.wf)) = [] := by decide +kernel

/-- The decoder refuses what R145, R147 and R148 to R155 forbid, and names the event (Tables 9.4, 9.14). -/
theorem test_ill_formed_words : failures [
    decode (fields 0x20 0 3 0 0 0 0 0 0 0 0 0 9 0 0) == .illegalOperand .dadd,
    decode (fields 0x20 0 2 0 0 0 0 0 0 0 0 0 9 0 0 ||| 1#128 <<< 49) == .illegalField .dadd { plainEnc with d := .v 2, ty := .f64, sat := true },
    decode (fields 0x10 0 0 0 0 0 0 0 2 2 0 0 1 0 0) == .illegalOperand .iadd,
    decode (fields 0x30 0 0 0 0 0 0 0 1 0 0 0 0 0 0x80000) == .illegalField .ld { plainEnc with a := .s 0, md := 0x80000 },
    decode (fields 0x03 0 0x0F 1 1 1 0 3 3 3 3 0 0 0 0) == .illegalOperand .plogic,
    decode (fields 0x13 2 1 2 5 4 0 3 0 1 3 0 1 0 0x400002 ||| 1#128 <<< 49) ==
      .illegalField .icmp { plainEnc with d := .p 1, a := .v 2, b := .s 5, c := .p 4, ty := .i32, sat := true, md := 0x400002 },
    decode (fields 0x04 6 0 0x68 0 0 0 0 3 2 0 0 0 0 0) == .illegalOperand .stagePost,
    decode (fields 0x10 0 0x10 0 0 0 0 3 0 0 0 0 1 0 0) == .illegalOperand .iadd,
    decode (fields 0x10 0 0 0 0 0 0 0 0 0 0 1 1 0 0) == .illegalField .iadd { plainEnc with ty := .i32 }] = [] := by decide

/-! ### Results that the spec works out -/

/-- The CRC of a header (Table 10.2). -/
theorem test_crc : crcWords [0x0020000000000003DE00000000000000] = 0x6F33BBFD := by decide +kernel

/-- What one instruction leaves in v8, v9 and %fpflags of lane 0, from the registers of every lane. -/
def lane0 (op : Op) (x : Enc) (regs : List (Nat × BitVec 32)) : Option (BitVec 32 × BitVec 32 × BitVec 5) :=
  let s := modGroup one 1 (fun g => { g with vregs := regs.map (fun r => (64 * r.1, r.2)) })
  match exec (Instr.ofOp x op) s with
  | .next t => (mget t.groups 1).map (fun g => (vget g 8 0, vget g 9 0, g.fpflags))
  | _ => none

/-- Lane 0 narrows an FP32 value to a packed format, in element 0. -/
def narrow (ty : Ty) (rnd : BitVec 2) (sat : Bool) (v : BitVec 32) : Option (BitVec 32 × BitVec 32 × BitVec 5) :=
  lane0 .cvt { uno ty with rnd, sat, md := 0xA } [(0, v)]

/-- Rows of Table 6.1. -/
theorem test_cvt : failures [narrow .e4m3x4 0 false 0x43E88000 == some (0x7F, 0, 0x14), narrow .e4m3x4 2 false 0xC3FA0000 == some (0xFE, 0, 0x14),
    narrow .f16x2 1 false 0x477FF000 == some (0x7BFF, 0, 0x10)] = [] := by decide
theorem test_cvt_tiny : failures [narrow .e4m3x4 0 false 0x3C7C0000 == some (8, 0, 0x10), narrow .e4m3x4 0 false 0x3C700000 == some (0, 0, 0x18),
    narrow .f16x2 0 true 0xFF800000 == some (0xFBFF, 0, 0x14)] = [] := by decide
/-- Rows of Table 6.2. -/
theorem test_cvt_to_integer : failures [lane0 .cvt { uno .i32 with md := 0xA } [(0, 0x4F32D05E)] == some (0x7FFFFFFF, 0, 1),
    lane0 .cvt { uno .n32 with rnd := 3, md := 0xA } [(0, 0xBF000000)] == some (0, 0, 1)] = [] := by decide
/-- Rows of Table 6.3. -/
theorem test_hadd2 : lane0 .hadd2 (two .f16x2) [(0, 0x80010001), (2, 0x80010400)] = some (0x80000400, 0, 0) := by decide
theorem test_hmul2 : lane0 .hmul2 (two .f16x2) [(0, 0x00002000), (2, 0x00001C00)] = some (0, 0, 0x18) := by decide
/-- Table 6.8. -/
theorem test_rng : failures [(lane0 .rng { two .n32 with b := .imm } [(0, 1)]).map (·.1) == some 0xEBEDDD65,
    (lane0 .rng { two .n32 with b := .imm } [(0, 2)]).map (·.1) == some 0xD7DABACA] = [] := by decide
/-- The LUTs of R185. -/
theorem test_logic3 : failures [(lane0 .logic3 { three .b32 with md := 0x96 } [(0, 0x0F), (2, 0x33), (4, 0x55)]).map (·.1) == some 0x69,
    (lane0 .logic3 { three .b32 with md := 0xE8 } [(0, 0x0F), (2, 0x33), (4, 0x55)]).map (·.1) == some 0x17] = [] := by decide
/-- Saturation and wrapping (R84), by hand. -/
theorem test_iadd : failures [(lane0 .iadd { two .i8x4 with sat := true } [(0, 0x7F80017F), (2, 0x01FF0101)]).map (·.1) == some 0x7F80027F,
    (lane0 .iadd (two .i8x4) [(0, 0x7F80017F), (2, 0x01FF0101)]).map (·.1) == some 0x807F0280] = [] := by decide
/-- A register that is source and destination, and the pair of a 64-bit value, by hand. -/
theorem test_iadd_in_place : lane0 .iadd { two .n64 with a := .v 8, b := .v 8 } [(8, 0x80000001), (9, 2)] = some (2, 5, 0) := by decide

end Sys2Proof.Tests
end

section
/-!
The package after reset: what its partitions, clusters and memory are, and what the management window then reads.
-/
namespace Sys2Proof.Machine
open Sys2Proof Sys2Proof.Safety

/-! ### Where a table's registers lie in the management window -/

/-- The entries of the peer list lie from 0x81000 (Table 25.3). -/
theorem windowRead_peerAcl (s : State) (p : Nat) {n : Nat} (h : n < 256) :
    windowRead s p (0x81000 + 8 * n) = some (sget (partOf s p).peerAcl n) := by
  have hn : (0x81000 + 8 * n - 0x81000) / 8 = n := by omega
  simp (disch := omega) only [windowRead, Bool.and_eq_true, decide_eq_true_eq, if_pos, if_neg, hn]

/-- The words of the RDMA keys lie from 0x84000 (Table 25.3). -/
theorem windowRead_rdmaKey (s : State) (p : Nat) {n : Nat} (h : n < 256) :
    windowRead s p (0x84000 + 8 * n) = some (sget (partOf s p).rdmaKey n) := by
  have hn : (0x84000 + 8 * n - 0x84000) / 8 = n := by omega
  simp (disch := omega) only [windowRead, Bool.and_eq_true, decide_eq_true_eq, if_pos, if_neg, hn]

/-- The words of the readiness map lie from 0xC0100 (Table 27.2). -/
theorem windowRead_ready (s : State) (p : Nat) {w : Nat} (h : w < 17) :
    windowRead s p (0xC0100 + 8 * w) = some (sget s.ready w) := by
  have hw : (0xC0100 + 8 * w - 0xC0100) / 8 = w := by omega
  simp (disch := omega) only [windowRead, Bool.and_eq_true, decide_eq_true_eq, if_pos, if_neg, hw]

/-! ### The state after reset -/

@[simp] theorem partOf_reset (p : Nat) : partOf State.reset p = {} := rfl

@[simp] theorem clusterOf_reset (k : Nat) : clusterOf State.reset k = {} := rfl

/-- No partition owns a cluster, so none has a reserve core left. -/
@[simp] theorem reserveClusters_reset (p : Nat) : reserveClusters State.reset p = [] := by
  simp [reserveClusters, bitsOf]

theorem memOk_reset : MemOk State.reset := ⟨rfl, rfl, rfl⟩

/-- The words of the readiness map below 15 tell of units, none of which is ready (Table 27.6). -/
theorem sget_ready_reset {w : Nat} (h : w < 15) : sget State.reset.ready w = 0 := by
  have h15 : 15 ≠ w := by omega
  have h16 : 16 ≠ w := by omega
  simp [State.reset, sget, mget, h15, h16]

/-- Each logical number of a cluster is that of the physical core with the same number (R14). -/
theorem physOf_reset (k : Nat) {i : Nat} (h : i < 8) : physOf State.reset k i = some (9 * k + i) := by
  have hmap : ∀ j < 8, mget ({} : Cluster).map j = some j := by decide
  simp only [physOf, clusterOf_reset, hmap i h, Option.map_some]

/-- part_ctl: the partition is STOPPED, and the register tells its own number (Table 27.2). -/
theorem windowRead_reset_partCtl (p : Nat) : windowRead State.reset p 0xC0000 = some (BitVec.ofNat 64 (2 ^ 63 + p)) := by
  simp [windowRead, packBits]

/-- The single registers of the window that read the same in every partition, with their reset values (Tables 27.2, 19.7, 25.3). -/
def resetRegisters : List (Nat × BitVec 64) :=
  [(0xC0008, 0), (0xC0020, 0), (0xC0028, 0x8000000000000000), (0xC0040, 0), (0xC0048, 8), (0xC0050, 0), (0xC0058, 0), (0x000, 0),
    (0x008, 0), (0x010, 0), (0x018, 0), (0x020, 10), (0x028, 60000), (0x030, 4096), (0x80000, 2000)]

theorem windowRead_resetRegisters (p : Nat) {o : Nat} {v : BitVec 64} (h : (o, v) ∈ resetRegisters) :
    windowRead State.reset p o = some v := by
  simp only [resetRegisters, List.mem_cons, List.not_mem_nil, or_false, Prod.mk.injEq] at h
  rcases h with ⟨rfl, rfl⟩ | ⟨rfl, rfl⟩ | ⟨rfl, rfl⟩ | ⟨rfl, rfl⟩ | ⟨rfl, rfl⟩ | ⟨rfl, rfl⟩ | ⟨rfl, rfl⟩ | ⟨rfl, rfl⟩ |
    ⟨rfl, rfl⟩ | ⟨rfl, rfl⟩ | ⟨rfl, rfl⟩ | ⟨rfl, rfl⟩ | ⟨rfl, rfl⟩ | ⟨rfl, rfl⟩ | ⟨rfl, rfl⟩ <;>
    simp [windowRead, packBits]

/-- Settles O6: each register is read by its place in the window, and the rest is what `State.reset` lists. -/
theorem resetState : Obligations.ResetState := by
  unfold Obligations.ResetState
  refine ⟨fun p _ => windowRead_reset_partCtl p, fun p _ _ _ h => windowRead_resetRegisters p h, fun p n _ hn => ⟨?_, ?_⟩,
    fun p w _ hw => ?_, fun k _ _ hi => physOf_reset k hi, fun _ _ => rfl, memOk_reset, rfl, rfl, fun _ => rfl⟩
  · rw [windowRead_peerAcl _ p hn]; rfl
  · rw [windowRead_rdmaKey _ p hn]; rfl
  · rw [windowRead_ready _ p (by omega), sget_ready_reset hw]

end Sys2Proof.Machine
end

section
/-!
A committed replay against the clause of O53 on the full/empty bits of the original group. The clause asks that no
register numbered below 512 that the hand-back saves is left empty, scalar registers (256 + j) among them, and says so of every
group. `handBack` fills v0 to VLIVE - 1: full/empty bits exist for vector registers only (R151), and no instruction of the
model marks a scalar register empty. But the type of `Group.empty` admits the number of one, and the clause does not exclude
such a group.
-/
namespace Sys2Proof.Machine
open Sys2Proof

/-- A header of overlay 1 with one body word, VLIVE 0 and SLIVE 1 (Table 9.2). -/
def sliveHeader : Word := BitVec.ofNat 128 (0x3F * 2 ^ 122 + 1 * 2 ^ 112 + 1 * 2 ^ 96 + 1 * 2 ^ 42)

/-- The reserve core of cluster 0, with overlay 1 resident: that header and its body word. -/
def replayCore : PCore :=
  { dir := [{ part := 0, ctx := 0, id := 1, st := .resident, first := 0, count := 1, words := [(0, sliveHeader)], len := 2, image := 0 }] }

/-- An aborted group whose list of empty registers names s0. -/
def scalarEmptyGroup : Group :=
  { serial := 0, part := 0, ctx := 0, team := 1, index := 0, core := 0, side := 0, slot := 0, slice0 := 0, slices := 4
    width := 16, lined := false, role := .vector, nv := 1, ns := 1, priv := 0, privSize := 4096, live := 0xFFFF
    splits := [(0, { pc := mkPc 1 1, mask := 0xFFFF })], empty := [256], region := { st := .aborted, openPc := mkPc 1 1 } }

/-- The group that replays it on the reserve core. -/
def replayRunGroup : Group :=
  { scalarEmptyGroup with core := 8, empty := [], job := some 3, region := { st := .opened, openPc := mkPc 1 1 } }

/-- The replay, which has committed. -/
def committedReplay : Job :=
  { id := 3, part := 0, kind := .replay 1, origin := 0, running := true, gid := some 2, ended := .committed, closePc := mkPc 1 1 }

/-- The package with the original as group 1, the group that replays it as group 2, and the committed job. -/
def replayCommitted : State :=
  { State.reset with
    groups := [(1, scalarEmptyGroup), (2, replayRunGroup)], jobs := [committedReplay], cores := [(8, replayCore)]
    clusters := [(0, { job := some 3 })] }

/-- s0 is among the registers that the hand-back saves. -/
theorem savedReg_s0_replayCommitted :
    let live := jobLive replayCommitted replayRunGroup committedReplay.closePc
    savedReg live.1 live.2 256 = true := by decide

/-- The hand-back leaves s0 listed as empty. -/
theorem finishReplay_replayCommitted_empty :
    (mget (finishReplay replayCommitted committedReplay 1 scalarEmptyGroup).groups 1).map (·.empty) = some [256] := by decide

/-- Refutes O53: after the hand-back of a committed replay whose VLIVE is 0 and SLIVE 1, a group that lists s0 (256) as empty
still lists it; the state meets every hypothesis of the clause. -/
theorem not_reserveCoreJobs : ¬ Obligations.ReserveCoreJobs := by
  unfold Obligations.ReserveCoreJobs
  rintro ⟨-, -, -, -, -, -, -, finished, -⟩
  obtain ⟨committed, -⟩ := finished replayCommitted committedReplay 1 2 scalarEmptyGroup replayRunGroup rfl
  obtain ⟨-, -, g', hg', -, -, -, -, -, -, -, full, -⟩ := committed rfl rfl (by decide) rfl (by decide) (by decide)
  have hfull : 256 ∉ g'.empty := (full 256 savedReg_s0_replayCommitted (by decide)).1
  have hempty : g'.empty = [256] := by simpa [hg'] using finishReplay_replayCommitted_empty
  simp [hempty] at hfull

end Sys2Proof.Machine
end

section
/-!
Integer results element by element (R84, R171, R178), and logic, shifts and bit fields bit by bit (R93, R185, R186).
-/
namespace Sys2Proof.Machine
open Sys2Proof Sys2Proof.Safety

/-! ### Values from their elements and bits -/

/-- The number of the digits `g 0` to `g (n - 1)` in base `B`, digit 0 lowest: how the model builds a value from its elements
(`packElems`) and from its bits (`fromBits`). -/
def digitSum (B : Nat) (g : Nat → Nat) (n : Nat) : Nat := (List.range n).foldl (fun m j => m + g j * B ^ j) 0

theorem digitSum_succ (B : Nat) (g : Nat → Nat) (n : Nat) : digitSum B g (n + 1) = digitSum B g n + g n * B ^ n := by
  simp only [digitSum, List.range_succ, List.foldl_append, List.foldl_cons, List.foldl_nil]

theorem digitSum_lt {B : Nat} {g : Nat → Nat} (hg : ∀ j, g j < B) (n : Nat) : digitSum B g n < B ^ n := by
  induction n with
  | zero => exact Nat.one_pos
  | succ n ih =>
    calc digitSum B g (n + 1) = digitSum B g n + g n * B ^ n := digitSum_succ B g n
      _ < B ^ n + g n * B ^ n := Nat.add_lt_add_right ih _
      _ = (g n + 1) * B ^ n := by rw [Nat.succ_mul, Nat.add_comm]
      _ ≤ B * B ^ n := Nat.mul_le_mul_right _ (hg n)
      _ = B ^ (n + 1) := Nat.pow_succ'.symm

/-- Digit `j` of a number that is built from its digits. -/
theorem digitSum_div_mod {B : Nat} {g : Nat → Nat} (hg : ∀ j, g j < B) {n j : Nat} (hj : j < n) :
    digitSum B g n / B ^ j % B = g j := by
  have hB : 0 < B := Nat.zero_lt_of_lt (hg 0)
  induction n with
  | zero => exact absurd hj (Nat.not_lt_zero j)
  | succ n ih =>
    rw [digitSum_succ]
    by_cases hjn : j < n
    · have hsplit : g n * B ^ n = g n * B ^ (n - j - 1) * B * B ^ j := by
        rw [Nat.mul_assoc, Nat.mul_assoc, ← Nat.pow_succ', ← Nat.pow_add]
        congr 2
        omega
      rw [hsplit, Nat.add_mul_div_right _ _ (Nat.pow_pos hB), Nat.add_mul_mod_self_right]
      exact ih hjn
    · obtain rfl : j = n := by omega
      rw [Nat.add_mul_div_right _ _ (Nat.pow_pos hB), Nat.div_eq_of_lt (digitSum_lt hg j), Nat.zero_add, Nat.mod_eq_of_lt (hg j)]

theorem fromBits_eq_digitSum (n : Nat) (f : Nat → Bool) :
    fromBits n f = BitVec.ofNat 64 (digitSum 2 (fun k => (f k).toNat) n) := rfl

theorem packElems_eq_digitSum (ty : Ty) (f : Nat → Nat) : packElems ty f =
    BitVec.ofNat 64 (digitSum (2 ^ ty.elemBits) (fun j => f j % 2 ^ ty.elemBits) ty.elems) := by
  simp only [packElems, digitSum, Nat.pow_mul]

theorem getLsbD_fromBits {n k : Nat} (hn : n ≤ 64) (f : Nat → Bool) (hk : k < n) : (fromBits n f).getLsbD k = f k := by
  have h64 : k < 64 := by omega
  have hbit : digitSum 2 (fun j => (f j).toNat) n / 2 ^ k % 2 = (f k).toNat :=
    digitSum_div_mod (g := fun j => (f j).toNat) (fun j => (f j).toNat_lt) hk
  rw [fromBits_eq_digitSum, BitVec.getLsbD_ofNat, Nat.testBit_eq_decide_div_mod_eq, hbit, decide_eq_true h64, Bool.true_and]
  cases f k <;> rfl

theorem elemBits_pos (ty : Ty) : 0 < ty.elemBits := by cases ty <;> decide

theorem elemBits_mul_elems_le (ty : Ty) : ty.elemBits * ty.elems ≤ 64 := by cases ty <;> decide

theorem elemAt_packElems {ty : Ty} {j : Nat} (hj : j < ty.elems) (f : Nat → Nat) :
    elemAt ty (packElems ty f) j = f j % 2 ^ ty.elemBits := by
  have hg : ∀ i, f i % 2 ^ ty.elemBits < 2 ^ ty.elemBits := fun i => Nat.mod_lt _ (Nat.two_pow_pos _)
  have hfit : digitSum (2 ^ ty.elemBits) (fun i => f i % 2 ^ ty.elemBits) ty.elems < 2 ^ 64 :=
    calc _ < (2 ^ ty.elemBits) ^ ty.elems := digitSum_lt hg ty.elems
      _ = 2 ^ (ty.elemBits * ty.elems) := (Nat.pow_mul ..).symm
      _ ≤ 2 ^ 64 := Nat.pow_le_pow_right (by decide) (elemBits_mul_elems_le ty)
  rw [packElems_eq_digitSum, elemAt, bits, BitVec.toNat_ofNat, Nat.mod_eq_of_lt hfit, Nat.pow_mul]
  exact digitSum_div_mod hg hj

/-! ### Wrapping and clamping -/

theorem wrapTo_cast (w : Nat) (x : Int) : (wrapTo w x : Int) = x % (2 ^ w : Nat) :=
  Int.toNat_of_nonneg (Int.emod_nonneg x (Int.ofNat_ne_zero.2 (Nat.ne_of_gt (Nat.two_pow_pos w))))

theorem wrapTo_lt (w : Nat) (x : Int) : wrapTo w x < 2 ^ w := by
  have hlt : x % (2 ^ w : Nat) < (2 ^ w : Nat) := Int.emod_lt_of_pos x (Int.natCast_pos.2 (Nat.two_pow_pos w))
  rw [← wrapTo_cast] at hlt
  exact Int.ofNat_lt.1 hlt

theorem intResult_lt (sat signed : Bool) (w : Nat) (x : Int) : intResult sat signed w x < 2 ^ w := by
  unfold intResult
  split <;> exact wrapTo_lt w _

/-- Element `j` of an integer result is the result of the elements `j` (R84, R178). -/
theorem elemAt_mapInt {ty : Ty} {j : Nat} (hj : j < ty.elems) (sat : Bool) (f : Int → Int → Int) (a b : BitVec 64) :
    elemAt ty (mapInt ty sat f a b) j = intResult sat ty.isSigned ty.elemBits
      (f (elemVal ty.isSigned ty.elemBits (elemAt ty a j)) (elemVal ty.isSigned ty.elemBits (elemAt ty b j))) := by
  rw [mapInt, elemAt_packElems hj, Nat.mod_eq_of_lt (intResult_lt ..)]

theorem clampTo_eq_max_min {lo hi : Int} (h : lo ≤ hi) (x : Int) : clampTo lo hi x = max lo (min hi x) := by
  unfold clampTo
  split
  · omega
  · split <;> omega

/-- A value in the range of a type is what its low bits read as (R79). -/
theorem elemVal_wrapTo {signed : Bool} {w : Nat} (hw : 0 < w) {v : Int} (hlo : loOf signed w ≤ v) (hhi : v ≤ hiOf signed w) :
    elemVal signed w (wrapTo w v) = v := by
  have hpow : 2 ^ w = 2 * 2 ^ (w - 1) := by rw [← Nat.pow_succ']; congr 1; omega
  have hcast := wrapTo_cast w v
  have hzpow : (2 : Int) ^ w = (2 ^ w : Nat) := (Int.natCast_pow 2 w).symm
  simp only [elemVal, loOf, hiOf, hzpow, hpow] at *
  generalize wrapTo w v = r at *
  generalize 2 ^ (w - 1) = p at *
  cases signed with
  | false =>
    simp only [Bool.false_eq_true, if_false, Bool.false_and] at *
    rw [hcast, Int.emod_eq_of_lt hlo (by omega)]
  | true =>
    simp only [if_true, Bool.true_and, decide_eq_true_eq] at *
    by_cases hneg : v < 0
    · rw [← Int.add_emod_right, Int.emod_eq_of_lt (by omega) (by omega)] at hcast
      rw [if_pos (by omega)]
      omega
    · rw [Int.emod_eq_of_lt (by omega) (by omega)] at hcast
      rw [if_neg (by omega)]
      omega

theorem loOf_le_hiOf (signed : Bool) (w : Nat) : loOf signed w ≤ hiOf signed w := by
  have := Nat.two_pow_pos w
  have := Nat.two_pow_pos (w - 1)
  cases signed <;> simp only [loOf, hiOf, if_true, Bool.false_eq_true, if_false] <;> omega

/-- With SAT = 1 an element of a result is the exact result clamped to the range of the type (R84). -/
theorem elemVal_intResult_sat {signed : Bool} {w : Nat} (hw : 0 < w) (x : Int) :
    elemVal signed w (intResult true signed w x) = max (loOf signed w) (min (hiOf signed w) x) := by
  have h := loOf_le_hiOf signed w
  rw [intResult, if_pos rfl, clampTo_eq_max_min h]
  exact elemVal_wrapTo hw (by omega) (by omega)

/-! ### Logic, shifts and fields -/

theorem getLsbD_logic3 {lut w k : Nat} (hw : w ≤ 64) (a b c : BitVec 64) (hk : k < w) : (logic3 lut w a b c).getLsbD k =
    lut.testBit (4 * (a.getLsbD k).toNat + 2 * (b.getLsbD k).toNat + (c.getLsbD k).toNat) := by
  rw [logic3, getLsbD_fromBits hw _ hk, bits, Nat.pow_one, Nat.testBit_eq_decide_div_mod_eq]
  rfl

theorem getLsbD_bitInsert {w k : Nat} (hw : w ≤ 64) (d a : BitVec 64) (n o : Nat) (hk : k < w) :
    (bitInsert d a n o w).getLsbD k = if o ≤ k ∧ k < o + n then a.getLsbD (k - o) else d.getLsbD k :=
  getLsbD_fromBits hw _ hk

/-- SHL (R186). -/
theorem getLsbD_shiftVal_left {w k : Nat} (hw : w ≤ 64) (a b : BitVec 64) (hk : k < w) :
    (shiftVal 0 w a b).getLsbD k =
      (decide (b.toNat % 2 ^ 32 ≤ k) && a.getLsbD (k - b.toNat % 2 ^ 32)) := by
  have h64 : k < 64 := by omega
  unfold shiftVal
  generalize b.toNat % 2 ^ 32 = n
  have hkn : k - n < w := by omega
  by_cases h : w ≤ n
  · have hnk : ¬ n ≤ k := by omega
    simp only [if_pos h, decide_eq_false hnk, Bool.false_and, BitVec.ofNat_eq_ofNat, BitVec.getLsbD_zero]
  · simp only [if_neg h, BitVec.getLsbD_ofNat, Nat.testBit_mod_two_pow, Nat.testBit_mul_two_pow, BitVec.testBit_toNat, h64,
      hk, hkn, decide_true, Bool.true_and]

/-- SHR (R186). -/
theorem getLsbD_shiftVal_right {w k : Nat} (hw : w ≤ 64) (a b : BitVec 64) (hk : k < w) :
    (shiftVal 1 w a b).getLsbD k =
      (decide (k + b.toNat % 2 ^ 32 < w) && a.getLsbD (k + b.toNat % 2 ^ 32)) := by
  have h64 : k < 64 := by omega
  unfold shiftVal
  generalize b.toNat % 2 ^ 32 = n
  by_cases h : w ≤ n
  · have hkn : ¬ k + n < w := by omega
    simp only [if_pos h, decide_eq_false hkn, Bool.false_and, BitVec.ofNat_eq_ofNat, BitVec.getLsbD_zero]
  · simp only [if_neg h, BitVec.getLsbD_ofNat, Nat.testBit_div_two_pow, Nat.testBit_mod_two_pow, BitVec.testBit_toNat, h64,
      decide_true, Bool.true_and]

/-- A signed element reads as the two's-complement number of its bits. -/
theorem elemVal_true_toNat {w : Nat} (hw : 0 < w) (v : BitVec w) : elemVal true w v.toNat = v.toInt := by
  have hpow : 2 ^ w = 2 * 2 ^ (w - 1) := by rw [← Nat.pow_succ']; congr 1; omega
  rw [BitVec.toInt_eq_toNat_cond, elemVal, Bool.true_and]
  by_cases h : 2 ^ (w - 1) ≤ v.toNat
  · rw [if_pos (decide_eq_true h), if_neg (by omega), Int.natCast_pow]
    rfl
  · rw [if_neg (fun hd => h (of_decide_eq_true hd)), if_pos (by omega)]

/-- SAR shifts as `BitVec.sshiftRight` does. -/
theorem shiftVal_two_eq {w : Nat} (hw : 0 < w) (a b : BitVec 64) : shiftVal 2 w a b =
    BitVec.ofNat 64 ((a.setWidth w).sshiftRight (min (b.toNat % 2 ^ 32) w)).toNat := by
  have he : elemVal true w (a.toNat % 2 ^ w) = (a.setWidth w).toInt := by
    rw [← elemVal_true_toNat hw, BitVec.toNat_setWidth]
  simp only [shiftVal, he, wrapTo, BitVec.sshiftRight_eq, BitVec.toNat_ofInt, Int.shiftRight_eq_div_pow]

/-- SAR (R186). -/
theorem getLsbD_shiftVal_arith {w k : Nat} (hw : w ≤ 64) (a b : BitVec 64) (hk : k < w) :
    (shiftVal 2 w a b).getLsbD k =
      if k + b.toNat % 2 ^ 32 < w then a.getLsbD (k + b.toNat % 2 ^ 32) else a.getLsbD (w - 1) := by
  have h64 : k < 64 := by omega
  rw [shiftVal_two_eq (by omega)]
  generalize b.toNat % 2 ^ 32 = n
  rw [BitVec.getLsbD_ofNat, BitVec.testBit_toNat, BitVec.getLsbD_sshiftRight, BitVec.msb_eq_getLsbD_last]
  have hnk : ¬ w ≤ k := by omega
  have hlast : w - 1 < w := by omega
  by_cases h : k + n < w
  · have hmin : min n w + k = k + n := by omega
    simp only [hmin, if_pos h, BitVec.getLsbD_setWidth, decide_eq_true h, decide_eq_true h64, decide_eq_false hnk, Bool.not_false,
      Bool.true_and]
  · have hmin : ¬ min n w + k < w := by omega
    simp only [if_neg h, if_neg hmin, BitVec.getLsbD_setWidth, decide_eq_true hlast, decide_eq_true h64, decide_eq_false hnk,
      Bool.not_false, Bool.true_and]

/-- Settles O12: each result is taken apart into its elements or its bits, and read there. -/
theorem integerResultsByElement : Obligations.IntegerResultsByElement := by
  unfold Obligations.IntegerResultsByElement
  refine ⟨fun ty f a b j hj => ⟨?wraps, ?clamps⟩, fun w hw a b c d k hk => ?_⟩
  case wraps =>
    rw [elemAt_mapInt hj]
    exact wrapTo_cast _ _
  case clamps =>
    rw [elemAt_mapInt hj, elemVal_intResult_sat (elemBits_pos ty)]
    simp only [loOf, hiOf, Int.natCast_pow, Int.cast_ofNat_Int]
  have hw64 : w ≤ 64 := by omega
  exact ⟨fun _ _ => getLsbD_logic3 hw64 a b c hk,
    ⟨getLsbD_shiftVal_left hw64 a b hk, getLsbD_shiftVal_right hw64 a b hk, getLsbD_shiftVal_arith hw64 a b hk⟩,
    fun o n => getLsbD_bitInsert hw64 d a n o hk⟩

end Sys2Proof.Machine
end

section
/-!
Bit instructions, moves, conversions and readers: each is an instruction whose whole effect is to write D.
-/
namespace Sys2Proof.Machine
open Sys2Proof Sys2Proof.Safety

/-- Settles O13: every instruction of the family issues with `writeD` of its value as its effect. -/
theorem bitInstructionsAndMovesWriteD : Obligations.BitInstructionsAndMovesWriteD := by
  unfold Obligations.BitInstructionsAndMovesWriteD
  refine ⟨⟨?_, ?_, ?_, ?_, ?_, ?_, ?_, ?_, ?_, ?_⟩, ⟨?_, ?_, ?_, ?_, ?_, ?_, ?_, ?_, ?_, ?_⟩⟩ <;>
    exact writes_runs (fun _ _ => rfl)

end Sys2Proof.Machine
end

section
/-!
SEL and IADDC in their vector and uniform forms (R179, R184), SHFL and BCAST (R207, R208), and SIGACC (R103, R205).
-/
namespace Sys2Proof.Machine
open Sys2Proof Sys2Proof.Safety

/-! ### A scalar, or predicate E, written and the split gone on -/

theorem exists_s_of_isS {y : Operand} (h : y.isS = true) : ∃ i, y = .s i := by
  cases y with
  | s i => exact ⟨i, rfl⟩
  | _ => exact absurd h Bool.false_ne_true

theorem exists_v_of_isV {y : Operand} (h : y.isV = true) : ∃ i, y = .v i := by
  cases y with
  | v i => exact ⟨i, rfl⟩
  | _ => exact absurd h Bool.false_ne_true

/-- A scalar holds what was written in each copy of the group, whatever is written elsewhere. -/
theorem putScalar_wrote {g : Group} {i : Nat} (hi : i < 64) {f f' : Nat → W64} (hf : ∀ k ∈ copiesOf g, f k = f' k)
    (m : Amap Split) :
    ScalarHolds g { putScalar g i f with splits := m } i f' ∧ OnlyScalar g { putScalar g i f with splits := m } i := by
  have h := putScalar_hold g i hi f
  exact ⟨⟨fun k hk => (h.value k hk).trans (hf k hk), h.frame⟩, by unfold OnlyScalar; rw [putScalar_frame]⟩

/-- Predicate E holds what was written in the active lanes; where E names none, nothing was written. -/
theorem putPredE_wrote (c : Iss) (p : Nat → Bool) (g : Group) (m : Amap Split) :
    match c.x.e with
    | .p i => PredsHold { g with splits := m } { putPredE c p g with splits := m } c.all i.toNat p ∧
        OnlyPred { g with splits := m } { putPredE c p g with splits := m } c.all i.toNat
    | _ => ({ putPredE c p g with splits := m } : Group) = { g with splits := m } := by
  cases he : c.x.e with
  | p i =>
    simp only [putPredE, he]
    have h := putPreds_hold g c.all i.toNat i.isLt p
    exact ⟨⟨h.value, h.frame, h.ones⟩, by unfold OnlyPred; rw [putPreds_frame]⟩
  | _ => simp only [putPredE, he]

theorem putPredE_splits (c : Iss) (p : Nat → Bool) (g : Group) : (putPredE c p g).splits = g.splits := by
  unfold putPredE
  split
  · rw [putPreds_frame]
  · rfl

theorem putScalar_splits (g : Group) (i : Nat) (f : Nat → W64) : (putScalar g i f).splits = g.splits := by
  rw [putScalar_frame]

/-! ### The choice of a uniform instruction (log entry 9) -/

/-- Where the lanes of every copy agree on the predicate, a uniform instruction draws no free value and writes what the
shared value of each copy gives. -/
theorem uniformChoice_of_shared {c : Iss} {y : Operand} {b : Nat → Bool}
    (h : ∀ k ∈ copiesOf c.g, sharedPred c k y = some (b k)) (s : State) (f : Nat → Bool → BitVec 64) :
    (uniformChoice c s y f).2 = s ∧ ∀ k ∈ copiesOf c.g, (uniformChoice c s y f).1 k = f k (b k) := by
  unfold uniformChoice
  cases hl : c.g.lined with
  | false =>
    have hc : copiesOf c.g = [0] := by rw [copiesOf, hl]; rfl
    simp only [hc, List.mem_singleton, forall_eq] at h
    simp only [hc, List.foldl_cons, List.foldl_nil, h, List.mem_singleton, forall_eq, if_true, and_self]
  | true =>
    have hc : copiesOf c.g = [0, 1] := by rw [copiesOf, hl]; rfl
    simp only [hc, List.mem_cons, List.not_mem_nil, or_false, forall_eq_or_imp, forall_eq] at h
    obtain ⟨h0, h1⟩ := h
    simp only [hc, List.foldl_cons, List.foldl_nil, h0, h1, List.mem_cons, List.not_mem_nil, or_false, forall_eq_or_imp, forall_eq,
      if_true, Nat.zero_ne_one, if_false, and_self]

/-! ### SEL -/

/-- What the uniform SEL gives a copy for either value of p[c]. -/
def selValue (c : Iss) (k : Nat) (b : Bool) : BitVec 64 :=
  if b then srcA c (laneOfCopy c.g k) else srcB c (laneOfCopy c.g k)

theorem selBody_vector {c : Iss} (h : c.x.d.isV = true) (s : State) :
    selBody c s = advance (onGroup s c (putD c .ty (fun l => if predOperand c.g l c.x.c then srcA c l else srcB c l))) c := by
  obtain ⟨i, hd⟩ := exists_v_of_isV h
  simp only [selBody, hd]
  rfl

theorem selBody_uniform {c : Iss} (h : c.x.d.isS = true) {b : Nat → Bool}
    (hb : ∀ k ∈ copiesOf c.g, sharedPred c k c.x.c = some (b k)) (s : State) :
    selBody c s = advance (onGroup s c (fun g => putScalar g c.x.d.idx (fun k =>
      scalarResult c.x .ty ((uniformChoice c s c.x.c (selValue c)).1 k)))) c := by
  obtain ⟨i, hd⟩ := exists_s_of_isS h
  have hs := (uniformChoice_of_shared hb s (selValue c)).1
  calc selBody c s
      = advance (onGroup (uniformChoice c s c.x.c (selValue c)).2 c (fun g => putScalar g i.toNat (fun k =>
          scalarResult c.x .ty ((uniformChoice c s c.x.c (selValue c)).1 k)))) c := by simp only [selBody, hd]; rfl
    _ = _ := by rw [hs, hd]; rfl

theorem sel_vector_completes : Completes .sel .sel (fun _ x _ => x.d.isV = true) id (fun _ x c g' =>
    AtPc c g' (c.sp.pc + 1) ∧ WroteD c .ty (fun l => if predOperand c.g l x.c then srcA c l else srcB c l) g') := by
  refine completes_runs (body := fun _ => selBody) (F := fun _ x c => putD c .ty fun l =>
    if predOperand c.g l x.c then srcA c l else srcB c l) (fun _ _ => rfl) ?_ (fun _ _ _ _ _ => putD_splits ..)
    (fun _ _ c m _ _ => putD_wrote c .ty _ m)
  rintro s x c h hv
  obtain rfl := h.isEnc
  exact selBody_vector hv s

theorem sel_uniform_completes (b : Nat → Bool) : Completes .sel .sel
    (fun _ x c => x.d.isS = true ∧ ∀ k ∈ copiesOf c.g, sharedPred c k x.c = some (b k)) id
    (fun _ x c g' => AtPc c g' (c.sp.pc + 1) ∧
      ScalarHolds c.g g' x.d.idx (fun k => scalarResult x .ty (selValue c k (b k))) ∧ OnlyScalar c.g g' x.d.idx) := by
  refine completes_runs (body := fun _ => selBody) (F := fun s x c g => putScalar g x.d.idx (fun k =>
    scalarResult x .ty ((uniformChoice c s x.c (selValue c)).1 k))) (fun _ _ => rfl) ?_
    (fun _ _ _ _ _ => putScalar_splits ..) ?_
  · rintro s x c h ⟨hd, hb⟩
    obtain rfl := h.isEnc
    exact selBody_uniform hd hb s
  · rintro s x c m h ⟨hd, hb⟩
    exact putScalar_wrote (isS_idx hd) (fun k hk => by rw [(uniformChoice_of_shared hb s _).2 k hk]) m

/-! ### IADDC -/

/-- The sum that the uniform IADDC gives a copy for either value of p[c]. -/
def iaddcValue (c : Iss) (k : Nat) (b : Bool) : BitVec 64 :=
  (iaddcAt c (laneOfCopy c.g k) (xor b (c.x.bit 1))).1

/-- The carry out of each lane. -/
def iaddcCarry (c : Iss) (l : Nat) : Bool := (iaddcAt c l (carryIn c l)).2

theorem iaddcBody_vector {c : Iss} (h : c.x.d.isV = true) (s : State) : iaddcBody c s = advance (onGroup s c (fun g =>
    putPredE c (iaddcCarry c) (putD c .ty (fun l => (iaddcAt c l (carryIn c l)).1) g))) c := by
  obtain ⟨i, hd⟩ := exists_v_of_isV h
  simp only [iaddcBody, hd]
  rfl

theorem iaddcBody_uniform {c : Iss} (h : c.x.d.isS = true) {b : Nat → Bool}
    (hb : ∀ k ∈ copiesOf c.g, sharedPred c k c.x.c = some (b k)) (s : State) :
    iaddcBody c s = advance (onGroup s c (fun g => putPredE c (iaddcCarry c) (putScalar g c.x.d.idx (fun k =>
      scalarResult c.x .ty ((uniformChoice c s c.x.c (iaddcValue c)).1 k))))) c := by
  obtain ⟨i, hd⟩ := exists_s_of_isS h
  have hs := (uniformChoice_of_shared hb s (iaddcValue c)).1
  calc iaddcBody c s
      = advance (onGroup (uniformChoice c s c.x.c (iaddcValue c)).2 c (fun g => putPredE c (iaddcCarry c)
          (putScalar g i.toNat (fun k =>
            scalarResult c.x .ty ((uniformChoice c s c.x.c (iaddcValue c)).1 k))))) c := by simp only [iaddcBody, hd]; rfl
    _ = _ := by rw [hs, hd]; rfl

theorem iaddc_vector_completes : Completes .iaddc .iaddc (fun _ x _ => x.d.isV = true) id (fun _ _ c g' =>
    AtPc c g' (c.sp.pc + 1) ∧ WroteDE c .ty (fun l => (iaddcAt c l (carryIn c l)).1) (iaddcCarry c) g') :=
  completes_runs (body := fun _ => iaddcBody)
    (F := fun _ _ c g => putPredE c (iaddcCarry c) (putD c .ty (fun l => (iaddcAt c l (carryIn c l)).1) g))
    (fun _ _ => rfl) (fun s _ _ h hv => iaddcBody_vector (h.isEnc ▸ hv) s)
    (fun _ _ _ _ _ => (putPredE_splits ..).trans (putD_splits ..)) (fun _ _ c m _ _ => putDE_wrote c .ty _ _ m)

theorem iaddc_uniform_completes (b : Nat → Bool) : Completes .iaddc .iaddc
    (fun _ x c => x.d.isS = true ∧ ∀ k ∈ copiesOf c.g, sharedPred c k x.c = some (b k)) id
    (fun _ x c g' => AtPc c g' (c.sp.pc + 1) ∧ ∃ h,
      ScalarHolds c.g h x.d.idx (fun k => scalarResult x .ty (iaddcValue c k (b k))) ∧ OnlyScalar c.g h x.d.idx ∧
      match x.e with
      | .p i => PredsHold h g' c.all i.toNat (iaddcCarry c) ∧ OnlyPred h g' c.all i.toNat
      | _ => g' = h) := by
  refine completes_runs (body := fun _ => iaddcBody) (F := fun s x c g => putPredE c (iaddcCarry c)
    (putScalar g x.d.idx (fun k => scalarResult x .ty ((uniformChoice c s x.c (iaddcValue c)).1 k)))) (fun _ _ => rfl) ?_
    (fun _ _ _ _ _ => (putPredE_splits ..).trans (putScalar_splits ..)) ?_
  · rintro s x c h ⟨hd, hb⟩
    obtain rfl := h.isEnc
    exact iaddcBody_uniform hd hb s
  · rintro s x c m h ⟨hd, hb⟩
    obtain rfl := h.isEnc
    have hvalue := putScalar_wrote (isS_idx hd) (f := fun k =>
      scalarResult c.x .ty ((uniformChoice c s c.x.c (iaddcValue c)).1 k))
      (fun k hk => by rw [(uniformChoice_of_shared hb s _).2 k hk]) m
    exact ⟨_, hvalue.1, hvalue.2, putPredE_wrote c (iaddcCarry c) _ m⟩

/-! ### SHFL and BCAST -/

/-- What a lane receives of its source lane. -/
def shuffleValue (c : Iss) (l : Nat) (src : Option Nat) : BitVec 64 :=
  match src with
  | some j => if c.all.getLsbD j then srcA c j else srcA c l
  | none => srcA c l

/-- A shuffle writes D and, where it is named, predicate E. -/
theorem shuffle_completes {i : Enc → Instr} {op : Op} {src : Enc → Iss → Nat → Option Nat}
    (hi : ∀ x s, exec (i x) s = issue op x s (shuffleBody (src x))) :
    Completes i op Always id (fun _ x c g' => AtPc c g' (c.sp.pc + 1) ∧
      WroteDE c .ty (fun l => shuffleValue c l (src x c l)) (fun l => shflOk c (src x c l)) g') :=
  completes_runs
    (F := fun _ x c g => putPredE c (fun l => shflOk c (src x c l)) (putD c .ty (fun l => shuffleValue c l (src x c l)) g))
    hi (fun _ _ _ _ _ => rfl) (fun _ _ _ _ _ => (putPredE_splits ..).trans (putD_splits ..))
    (fun _ _ c m _ _ => putDE_wrote c .ty _ _ m)

/-! ### SIGACC -/

theorem sigacc_writesScalar : WritesScalar .sigacc .sigacc Always
    (fun _ x c k => sigLanes c k (srget c.g k x.d.idx)) := by
  refine writesScalar_runs (fun _ _ => rfl) ?_
  rintro s x c h ⟨hd, -⟩
  obtain rfl := h.isEnc
  obtain ⟨i, hi⟩ := exists_s_of_isS hd
  simp only [hi]
  rfl

/-- Settles O16: a uniform form writes the value of the predicate that the lanes share, a vector form each lane's own. -/
theorem selectCarryShuffleAndSignature : Obligations.SelectCarryShuffleAndSignature := by
  unfold Obligations.SelectCarryShuffleAndSignature
  refine ⟨⟨sel_vector_completes, sel_uniform_completes⟩, ⟨?carryVector, ?carryUniform⟩, ⟨?shfl, ?bcast, ?modes⟩, ?sigacc⟩
  case carryVector =>
    intro s x c h hv
    obtain rfl := h.isEnc
    exact iaddc_vector_completes s c.x c h hv
  case carryUniform =>
    intro b s x c h hb
    obtain rfl := h.isEnc
    exact iaddc_uniform_completes b s c.x c h hb
  case shfl =>
    rintro _ rfl s x c h ha
    obtain rfl := h.isEnc
    exact shuffle_completes (src := fun x c l => shflSource c (x.bits 3 2) l (srcB c l)) (fun _ _ => rfl) s c.x c h ha
  case bcast => exact shuffle_completes (src := fun _ => bcastSource) (fun _ _ => rfl)
  case modes => exact fun c l b => ⟨rfl, rfl⟩
  case sigacc =>
    intro s x c h hd
    obtain rfl := h.isEnc
    exact sigacc_writesScalar s c.x c h hd

end Sys2Proof.Machine
end

section
/-!
Floating point: an instruction whose effect is `fpFinish` writes, traps or finds the copies to differ, as its exceptions say
(R87, R335).
-/
namespace Sys2Proof.Machine
open Sys2Proof Sys2Proof.Safety

theorem fpFinish_trap {c : Iss} {f : Nat → BitVec 5} {lanes : BitVec 64} {en : BitVec 5}
    (h : fpOutcome c.g c.all f = .trap lanes en) (write : Group → Group) (s : State) :
    fpFinish c f write s = raiseIss s c evFpTrap lanes (en.setWidth 64) := by
  rw [fpFinish, h]

theorem fpFinish_mismatch {c : Iss} {f : Nat → BitVec 5} {lanes : BitVec 64}
    (h : fpOutcome c.g c.all f = .mismatch lanes) (write : Group → Group) (s : State) :
    fpFinish c f write s = liningMismatch s c lanes := by
  rw [fpFinish, h]

section
variable {i : Enc → Instr} {op : Op} {f : Enc → Iss → Nat → BitVec 5} {write : Enc → Iss → Group → Group}

theorem fpTraps_runs (hi : ∀ x s, exec (i x) s = issue op x s (fun c => fpFinish c (f x c) (write x c))) :
    FpTraps i op f := by
  intro s x c lanes en h hout
  rw [hi, issue_runs h, fpFinish_trap hout, raiseIss]

theorem fpMismatches_runs (hi : ∀ x s, exec (i x) s = issue op x s (fun c => fpFinish c (f x c) (write x c))) :
    FpMismatches i op f := by
  intro s x c lanes h hout
  rw [hi, issue_runs h, fpFinish_mismatch hout]

end

/-- An instruction that computes D lane by lane with exceptions, on every outcome of them. -/
theorem fpRuns_runs {i : Enc → Instr} {op : Op} {w : Wd} {f : Enc → Iss → Nat → BitVec 64 × BitVec 5}
    (hi : ∀ x s, exec (i x) s = issue op x s (fpWriteD w (f x))) : FpRuns i op w f :=
  ⟨fpWrites_runs hi, fpTraps_runs hi, fpMismatches_runs hi⟩

/-- Settles O17: the instructions that write D have `fpWriteD` of their lane function as their effect, and the comparisons
end in `fpFinish` too. -/
theorem floatingPointWritesDOrTraps : Obligations.FloatingPointWritesDOrTraps := by
  unfold Obligations.FloatingPointWritesDOrTraps
  constructor
  · refine ⟨?_, ?_, ?_, ?_, ?_, ?_, ?_, ?_, ?_, ?_, ?_, ?_, ?_, ?_, ?_, ?_, ?_, ?_, ?_, ?_, ?_, ?_, ?_, ?_⟩ <;>
      exact fpRuns_runs (fun _ _ => rfl)
  · exact ⟨fpTraps_runs (fun _ _ => rfl), fpTraps_runs (fun _ _ => rfl), fpTraps_runs (fun _ _ => rfl),
      fpMismatches_runs (fun _ _ => rfl), fpMismatches_runs (fun _ _ => rfl), fpMismatches_runs (fun _ _ => rfl)⟩

end Sys2Proof.Machine
end

section
/-!
Integer arithmetic, IMIN and IMAX, bit counts and reversal: what each writes in D, and what the values are (R92, R178 to R182,
R189, R191).
-/
namespace Sys2Proof.Machine
open Sys2Proof Sys2Proof.Safety

/-- Settles O10: every instruction of the family issues with `writeD` of its value as its effect. -/
theorem integerArithmeticWritesD : Obligations.IntegerArithmeticWritesD := by
  unfold Obligations.IntegerArithmeticWritesD
  refine ⟨?_, ?_, ?_, ?_, ?_, ?_, ?_, ?_, ?_, ?_, ?_, ?_⟩ <;> exact writes_runs (fun _ _ => rfl)

/-! ### The lesser and the greater element -/

theorem elemAt_lt (ty : Ty) (v : BitVec 64) (j : Nat) : elemAt ty v j < 2 ^ ty.elemBits := Nat.mod_lt _ (Nat.two_pow_pos _)

/-- An element reads as a value in the range of its type (R79). -/
theorem elemVal_mem_range {w n : Nat} (signed : Bool) (hw : 0 < w) (hn : n < 2 ^ w) :
    loOf signed w ≤ elemVal signed w n ∧ elemVal signed w n ≤ hiOf signed w := by
  have hpow : 2 ^ w = 2 * 2 ^ (w - 1) := by rw [← Nat.pow_succ']; congr 1; omega
  have hzpow : (2 : Int) ^ w = (2 ^ w : Nat) := (Int.natCast_pow 2 w).symm
  simp only [elemVal, loOf, hiOf, hzpow, hpow] at *
  generalize 2 ^ (w - 1) = p at *
  cases signed with
  | false =>
    simp only [Bool.false_and, Bool.false_eq_true, if_false]
    omega
  | true =>
    simp only [Bool.true_and, decide_eq_true_eq, if_true]
    split <;> omega

/-- An operation that answers one of its two arguments loses nothing when its result is cut to the width of an element. -/
theorem elemVal_mapInt_of_choice {ty : Ty} {j : Nat} (hj : j < ty.elems) {f : Int → Int → Int}
    (hf : ∀ x y, f x y = x ∨ f x y = y) (a b : BitVec 64) :
    elemVal ty.isSigned ty.elemBits (elemAt ty (mapInt ty false f a b) j) =
      f (elemVal ty.isSigned ty.elemBits (elemAt ty a j)) (elemVal ty.isSigned ty.elemBits (elemAt ty b j)) := by
  have hw := elemBits_pos ty
  obtain ⟨hloA, hhiA⟩ := elemVal_mem_range ty.isSigned hw (elemAt_lt ty a j)
  obtain ⟨hloB, hhiB⟩ := elemVal_mem_range ty.isSigned hw (elemAt_lt ty b j)
  rw [elemAt_mapInt hj, intResult, if_neg Bool.false_ne_true]
  generalize elemVal ty.isSigned ty.elemBits (elemAt ty a j) = x at *
  generalize elemVal ty.isSigned ty.elemBits (elemAt ty b j) = y at *
  rcases hf x y with h | h <;> rw [h]
  · exact elemVal_wrapTo hw hloA hhiA
  · exact elemVal_wrapTo hw hloB hhiB

/-- Settles O11: either value fits its type, so the element that is chosen is written whole. -/
theorem minMaxReturnsLesserOrGreater : Obligations.MinMaxReturnsLesserOrGreater := by
  unfold Obligations.MinMaxReturnsLesserOrGreater
  refine ⟨writes_runs (fun _ _ => rfl), writes_runs (fun _ _ => rfl), fun ty a b j hj => ⟨?lesser, ?greater⟩⟩
  case lesser =>
    rw [elemVal_mapInt_of_choice hj (fun x y => by split <;> simp only [true_or, or_true])]
    split <;> omega
  case greater =>
    rw [elemVal_mapInt_of_choice hj (fun x y => by split <;> simp only [true_or, or_true])]
    split <;> omega

/-! ### Counts of zero bits and reversal -/

theorem length_takeWhile_not {α : Type} (l : List α) (p : α → Bool) : (l.takeWhile (fun i => !p i)).length = l.findIdx p := by
  rw [List.takeWhile_eq_take_findIdx_not, List.length_take, funext (fun i => Bool.not_not (p i))]
  exact Nat.min_eq_left List.findIdx_le_length

theorem trailZeros_eq_findIdx (w : Nat) (a : BitVec 64) : trailZeros w a = (List.range w).findIdx (fun i => a.getLsbD i) :=
  length_takeWhile_not _ _

theorem leadZeros_eq_findIdx (w : Nat) (a : BitVec 64) :
    leadZeros w a = (List.range w).reverse.findIdx (fun i => a.getLsbD i) := length_takeWhile_not _ _

/-- CTZ counts the 0 bits below the lowest 1 bit, and all of them where there is none (R189). -/
theorem trailZeros_spec (w : Nat) (a : BitVec 64) : trailZeros w a ≤ w ∧ (∀ i, i < trailZeros w a → a.getLsbD i = false) ∧
    (trailZeros w a < w → a.getLsbD (trailZeros w a) = true) := by
  rw [trailZeros_eq_findIdx]
  refine ⟨Nat.le_trans List.findIdx_le_length (Nat.le_of_eq List.length_range), fun i hi => ?_, fun hlt => ?_⟩
  · simpa only [List.getElem_range] using List.not_of_lt_findIdx hi
  · simpa only [List.getElem_range] using List.findIdx_getElem (w := Nat.lt_of_lt_of_eq hlt List.length_range.symm)

/-- CLZ counts the 0 bits above the highest 1 bit, and all of them where there is none (R189). -/
theorem leadZeros_spec (w : Nat) (a : BitVec 64) : leadZeros w a ≤ w ∧
    (∀ i, i < w → w - leadZeros w a ≤ i → a.getLsbD i = false) ∧
    (leadZeros w a < w → a.getLsbD (w - 1 - leadZeros w a) = true) := by
  have hlen : (List.range w).reverse.length = w := by rw [List.length_reverse, List.length_range]
  rw [leadZeros_eq_findIdx]
  refine ⟨Nat.le_trans List.findIdx_le_length (Nat.le_of_eq hlen), fun i hi habove => ?_, fun hlt => ?_⟩
  · have hpos : w - 1 - i < (List.range w).reverse.findIdx (fun i => a.getLsbD i) := by omega
    have hbit := List.not_of_lt_findIdx hpos
    simp only [List.getElem_reverse, List.getElem_range, List.length_range] at hbit
    rwa [show w - 1 - (w - 1 - i) = i by omega] at hbit
  · simpa only [List.getElem_reverse, List.getElem_range, List.length_range] using
      List.findIdx_getElem (w := Nat.lt_of_lt_of_eq hlt hlen.symm)

/-- Settles O14: the counts are places in the list of the bits, and reversal is read bit by bit. -/
theorem bitCountsAndReversal : Obligations.BitCountsAndReversal := by
  unfold Obligations.BitCountsAndReversal
  refine ⟨writes_runs (fun _ _ => rfl), writes_runs (fun _ _ => rfl), writes_runs (fun _ _ => rfl), writes_runs (fun _ _ => rfl),
    fun w hw a => ⟨rfl, leadZeros_spec w a, trailZeros_spec w a, fun j hj => ?reversal⟩⟩
  case reversal =>
    rw [getLsbD_fromBits (by omega) _ (by omega)]
    congr 1
    omega

end Sys2Proof.Machine
end

section
/-!
Instructions that write predicates: ICMP, PLOGIC, DCLASS, FCLASS, VOTE (R183, R199, R209, R273) and the floating-point
comparisons (R198).
-/
namespace Sys2Proof.Machine
open Sys2Proof Sys2Proof.Safety

/-- What an instruction writes may be said through the operands that its issue carries. -/
theorem writesPred_of_iss {i : Enc → Instr} {op : Op} {f : Enc → Iss → Nat → Bool} {p : Iss → Nat → Bool}
    (hi : ∀ x s, exec (i x) s = issue op x s (fun c s => advance (onGroup s c (putPredD c (p c))) c))
    (hp : ∀ c, p c = f c.x c) : WritesPred i op f := by
  intro s x c h ha
  obtain ⟨t, g', hexec, honly, hpc, hwrote⟩ := writesPred_runs (f := fun _ => p) hi s x c h ha
  obtain rfl := h.isEnc
  exact ⟨t, g', hexec, honly, hpc, hp c ▸ hwrote⟩

theorem intCond_iff (a b : Int) : (intCond 0 a b ↔ a = b) ∧ (intCond 1 a b ↔ a ≠ b) ∧ (intCond 2 a b ↔ a < b) ∧
    (intCond 3 a b ↔ a ≤ b) ∧ (intCond 4 a b ↔ a > b) ∧ (intCond 5 a b ↔ a ≥ b) :=
  ⟨beq_iff_eq, bne_iff_ne, decide_eq_true_iff, decide_eq_true_iff, decide_eq_true_iff, decide_eq_true_iff⟩

/-! ### VOTE -/

/-- All elements are true or all are false where every two of them agree. -/
theorem all_or_all_not_iff {α : Type} (l : List α) (p : α → Bool) :
    ((l.map p).all id || (l.map p).all (!·)) = true ↔ ∀ i ∈ l, ∀ j ∈ l, p i = p j := by
  simp only [Bool.or_eq_true, List.all_map, List.all_eq_true, Function.comp_apply, id_eq, Bool.not_eq_true']
  constructor
  · rintro (h | h) i hi j hj <;> rw [h i hi, h j hj]
  · intro h
    by_cases hex : ∃ k ∈ l, p k = true
    · obtain ⟨k, hk, hpk⟩ := hex
      exact .inl fun i hi => (h i hi k hk).trans hpk
    · exact .inr fun i hi => Bool.eq_false_iff.2 fun hpi => hex ⟨i, hi, hpi⟩

/-- The predicate on which the lanes of a segment vote in the modes all, any and eq (R209). -/
theorem voteAt_eq (c : Iss) (mode l : Nat) : voteAt c mode l =
    if mode = 0 then decide (∀ j ∈ segActive c l, predOperand c.g j c.x.a = true)
    else if mode = 1 then decide (∃ j ∈ segActive c l, predOperand c.g j c.x.a = true)
    else decide (∀ i ∈ segActive c l, ∀ j ∈ segActive c l, predOperand c.g i c.x.a = predOperand c.g j c.x.a) := by
  match mode with
  | 0 =>
    rw [if_pos rfl, Bool.eq_iff_iff, decide_eq_true_iff]
    simp only [voteAt, List.all_map, List.all_eq_true, Function.comp_apply, id_eq]
  | 1 =>
    rw [if_neg Nat.one_ne_zero, if_pos rfl, Bool.eq_iff_iff, decide_eq_true_iff]
    simp only [voteAt, List.any_map, List.any_eq_true, Function.comp_apply, id_eq]
  | n + 2 =>
    rw [if_neg (Nat.succ_ne_zero _), if_neg (by omega), Bool.eq_iff_iff, decide_eq_true_iff]
    exact all_or_all_not_iff (segActive c l) fun j => predOperand c.g j c.x.a

theorem vote_ballot_completes : Completes .vote .vote (fun _ x _ => x.bits 3 2 = 3) id (fun _ x c g' =>
    AtPc c g' (c.sp.pc + 1) ∧ WroteD c .two (fun l => segMask c l (fun j => predOperand c.g j x.a)) g') := by
  refine completes_runs (F := fun _ x c => putD c .two fun l => segMask c l fun j => predOperand c.g j x.a) (fun _ _ => rfl) ?_
    (fun _ _ _ _ _ => putD_splits ..) (fun _ _ c m _ _ => putD_wrote c .two _ m)
  rintro s x c h hmode
  obtain rfl := h.isEnc
  exact if_pos hmode

theorem vote_completes {mode : Nat} (hmode : mode < 3) : Completes .vote .vote (fun _ x _ => x.bits 3 2 = mode) id
    (fun _ _ c g' => AtPc c g' (c.sp.pc + 1) ∧ WrotePred c (voteAt c mode) g') := by
  refine completes_runs (F := fun _ _ c => putPredD c (voteAt c mode)) (fun _ _ => rfl) ?_
    (fun _ _ _ _ _ => putPredD_splits ..) (fun _ _ c m _ _ => putPredD_wrote c _ m)
  rintro s x c h rfl
  exact if_neg (Nat.ne_of_lt hmode)

/-! ### Writing the predicate that an operand names -/

/-- The group with the predicate that `y` names written in the lanes of `m`, where it names one: what `putPredD` does with
D and `putPredE` with E. -/
def putPredAt (y : Operand) (m : BitVec 64) (f : Nat → Bool) (g : Group) : Group :=
  match y with
  | .p i => putPreds g i.toNat (lanesOf m) f
  | _ => g

theorem putPredD_eq_putPredAt (c : Iss) (f : Nat → Bool) (g : Group) : putPredD c f g = putPredAt c.x.d c.all f g := rfl

theorem putPredE_eq_putPredAt (c : Iss) (f : Nat → Bool) (g : Group) : putPredE c f g = putPredAt c.x.e c.all f g := rfl

theorem pget_putPredAt {i : BitVec 4} (hi : i.toNat < 15) {m : BitVec 64} {l : Nat} (hl : l < 64) (hm : m.getLsbD l = true)
    (f : Nat → Bool) (g : Group) : pget (putPredAt (.p i) m f g) l i.toNat = f l :=
  (putPreds_hold g m i.toNat i.isLt f).value hi l hl hm

/-- Every other predicate, and every predicate of an inactive lane, is as it was. -/
theorem pget_putPredAt_other {y : Operand} {m : BitVec 64} {l j : Nat} (hj : j < 15)
    (h : m.getLsbD l = false ∨ ∀ i : BitVec 4, y = .p i → i.toNat ≠ j) (f : Nat → Bool) (g : Group) :
    pget (putPredAt y m f g) l j = pget g l j := by
  cases y with
  | p i => exact (putPreds_hold g m i.toNat i.isLt f).frame l j hj (.inr (h.imp_right fun hi => (hi i rfl).symm))
  | _ => rfl

theorem putPredAt_frame (y : Operand) (m : BitVec 64) (f : Nat → Bool) (g : Group) : putPredAt y m f g = { g with
    preds := (putPredAt y m f g).preds, damaged := (putPredAt y m f g).damaged, latent := (putPredAt y m f g).latent } := by
  cases y with
  | p i =>
    simp only [putPredAt]
    rw [putPreds_frame]
  | _ => rfl

/-! ### Error marks taken away -/

theorem onlyMended_refl (g : Group) (p : Nat → Prop) : OnlyMended g g p :=
  ⟨fun _ => id, fun _ => .inl, fun _ => id, fun _ => .inl⟩

theorem onlyMended_trans {g h k : Group} {p : Nat → Prop} (hgh : OnlyMended g h p) (hhk : OnlyMended h k p) :
    OnlyMended g k p := by
  obtain ⟨damaged, mended, latent, latentMended⟩ := hgh
  obtain ⟨damaged', mended', latent', latentMended'⟩ := hhk
  exact ⟨fun n hn => damaged n (damaged' n hn), fun n hn => (mended n hn).elim (mended' n) .inr,
    fun n hn => latent n (latent' n hn), fun n hn => (latentMended n hn).elim (latentMended' n) .inr⟩

theorem onlyMended_mono {g h : Group} {p q : Nat → Prop} (hgh : OnlyMended g h p) (hpq : ∀ n, p n → q n) :
    OnlyMended g h q := by
  obtain ⟨damaged, mended, latent, latentMended⟩ := hgh
  exact ⟨damaged, fun n hn => (mended n hn).imp_right (hpq n), latent, fun n hn => (latentMended n hn).imp_right (hpq _)⟩

/-- A latent error of a predicate's cell is an error of that predicate. -/
theorem latentReg_pred (l : Nat) {i : Nat} (hi : i < 16) : latentReg (2 ^ 16 + 16 * l + i) = 512 + i := by
  unfold latentReg
  rw [if_neg (by omega), if_neg (by omega)]
  omega

theorem mem_filter_ne_or_eq {l : List Nat} {n : Nat} (hn : n ∈ l) (k : Nat) : n ∈ l.filter (· != k) ∨ n = k := by
  by_cases h : n = k
  · exact .inr h
  · exact .inl (List.mem_filter.2 ⟨hn, bne_iff_ne.2 h⟩)

theorem pset_onlyMended (g : Group) (l : Nat) {i : Nat} (hi : i < 16) (b : Bool) :
    OnlyMended g (pset g l i b) (fun r => r = 512 + i) :=
  ⟨fun _ hn => (List.mem_filter.1 hn).1, fun _ hn => mem_filter_ne_or_eq hn _, fun _ hn => (List.mem_filter.1 hn).1,
    fun _ hn => (mem_filter_ne_or_eq hn _).imp_right fun hk => (congrArg latentReg hk).trans (latentReg_pred l hi)⟩

theorem putPreds_onlyMended (g : Group) {i : Nat} (hi : i < 16) (ls : List Nat) (f : Nat → Bool) :
    OnlyMended g (putPreds g i ls f) (fun r => r = 512 + i) := by
  unfold putPreds
  induction ls generalizing g with
  | nil => exact onlyMended_refl g _
  | cons l ls ih => exact onlyMended_trans (pset_onlyMended g l hi (f l)) (ih _)

theorem putPredAt_onlyMended (y : Operand) (m : BitVec 64) (f : Nat → Bool) (g : Group) :
    OnlyMended g (putPredAt y m f g) (fun r => r = 512 + y.idx) := by
  cases y with
  | p i => exact putPreds_onlyMended g i.isLt (lanesOf m) f
  | _ => exact onlyMended_refl g _

/-! ### Floating-point comparisons -/

/-- What a comparison writes: the condition of element 0 in predicate D and, where `e` says so, that of element 1 in
predicate E. -/
def putConds (e : Bool) (c : Iss) (g : Group) : Group :=
  if e then putPredE c (condPred c 1) (putPredD c (condPred c 0) g) else putPredD c (condPred c 0) g

theorem putConds_false (c : Iss) (g : Group) : putConds false c g = putPredAt c.x.d c.all (condPred c 0) g := rfl

theorem putConds_true (c : Iss) (g : Group) :
    putConds true c g = putPredAt c.x.e c.all (condPred c 1) (putPredAt c.x.d c.all (condPred c 0) g) := rfl

/-- Operands that differ name different predicates. -/
theorem predicate_ne_of_ne {y : Operand} {i : BitVec 4} (h : y ≠ .p i) (k : BitVec 4) (hk : y = .p k) : k.toNat ≠ i.toNat :=
  fun he => h (hk.trans (congrArg _ (BitVec.eq_of_toNat_eq he)))

theorem predicate_ne_of_idx_ne {y : Operand} {j : Nat} (h : y.idx ≠ j) (k : BitVec 4) (hk : y = .p k) : k.toNat ≠ j := by
  subst hk
  exact h

theorem pget_putConds_d {e : Bool} {c : Iss} {i : BitVec 4} (hd : c.x.d = .p i) (hi : i.toNat < 15)
    (he : e = true → c.x.e ≠ .p i) {l : Nat} (hl : l < 64) (hm : c.all.getLsbD l = true) (g : Group) :
    pget (putConds e c g) l i.toNat = condPred c 0 l := by
  cases e with
  | false => rw [putConds_false, hd, pget_putPredAt hi hl hm]
  | true => rw [putConds_true, pget_putPredAt_other hi (.inr (predicate_ne_of_ne (he rfl))), hd, pget_putPredAt hi hl hm]

theorem pget_putConds_e {c : Iss} {i : BitVec 4} (he : c.x.e = .p i) (hi : i.toNat < 15) {l : Nat} (hl : l < 64)
    (hm : c.all.getLsbD l = true) (g : Group) : pget (putConds true c g) l i.toNat = condPred c 1 l := by
  rw [putConds_true, he, pget_putPredAt hi hl hm]

theorem pget_putConds_other {e : Bool} {c : Iss} {l j : Nat} (hj : j < 15)
    (h : c.all.getLsbD l = false ∨ (c.x.d.idx ≠ j ∧ (e = true → c.x.e.idx ≠ j))) (g : Group) :
    pget (putConds e c g) l j = pget g l j := by
  have hd := h.imp_right fun hne => predicate_ne_of_idx_ne hne.1
  cases e with
  | false => rw [putConds_false, pget_putPredAt_other hj hd]
  | true =>
    have he := h.imp_right fun hne => predicate_ne_of_idx_ne (hne.2 rfl)
    rw [putConds_true, pget_putPredAt_other hj he, pget_putPredAt_other hj hd]

theorem putConds_frame (e : Bool) (c : Iss) (g : Group) : putConds e c g = { g with
    preds := (putConds e c g).preds, damaged := (putConds e c g).damaged, latent := (putConds e c g).latent } := by
  cases e with
  | false => exact putPredAt_frame ..
  | true => rw [putConds_true, putPredAt_frame c.x.e, putPredAt_frame c.x.d]

theorem putConds_onlyMended (e : Bool) (c : Iss) (g : Group) : OnlyMended g (putConds e c g)
    (fun r => 512 ≤ r ∧ (c.x.d.idx = r - 512 ∨ (e = true ∧ c.x.e.idx = r - 512))) := by
  have hd := onlyMended_mono (putPredAt_onlyMended c.x.d c.all (condPred c 0) g)
    (q := fun r => 512 ≤ r ∧ (c.x.d.idx = r - 512 ∨ (e = true ∧ c.x.e.idx = r - 512))) (fun n hn => by omega)
  cases e with
  | false => exact hd
  | true => exact onlyMended_trans hd (onlyMended_mono (putPredAt_onlyMended ..) (fun n hn => by simp only [true_and]; omega))

/-- What a comparison leaves of the group: its predicates, the exceptions of each copy, and nothing else (R87, R198). -/
def ComparisonWrote (e : Bool) (x : Enc) (c : Iss) (g' : Group) : Prop :=
  g'.fpflags = c.g.fpflags ||| flagsIn c.g 0 c.all (condFlags c) ∧
  g'.fpflagsSh = (if c.g.lined then c.g.fpflagsSh ||| flagsIn c.g 1 c.all (condFlags c) else c.g.fpflagsSh) ∧
  (match x.d with
    | .p i => ∀ l, l < 64 → c.all.getLsbD l = true → i.toNat < 15 →
        (e = true → x.e ≠ .p i) → pget g' l i.toNat = condPred c 0 l
    | _ => True) ∧
  (e = true → match x.e with
    | .p i => ∀ l, l < 64 → c.all.getLsbD l = true → i.toNat < 15 → pget g' l i.toNat = condPred c 1 l
    | _ => True) ∧
  (∀ l j, j < 15 → (c.all.getLsbD l = false ∨ (x.d.idx ≠ j ∧ (e = true → x.e.idx ≠ j))) → pget g' l j = pget c.g l j) ∧
  OnlyMended c.g g' (fun r => 512 ≤ r ∧ (x.d.idx = r - 512 ∨ (e = true ∧ x.e.idx = r - 512))) ∧
  g' = { c.g with
    preds := g'.preds, damaged := g'.damaged, latent := g'.latent, fpflags := g'.fpflags, fpflagsSh := g'.fpflagsSh
    splits := g'.splits }

theorem recordFlags_putConds (e : Bool) (c : Iss) :
    recordFlags c.all (condFlags c) (putConds e c c.g) = { putConds e c c.g with
      fpflags := c.g.fpflags ||| flagsIn c.g 0 c.all (condFlags c)
      fpflagsSh := if c.g.lined then c.g.fpflagsSh ||| flagsIn c.g 1 c.all (condFlags c) else c.g.fpflagsSh } := by
  rw [recordFlags_eq, putConds_frame]
  rfl

theorem recordFlags_putConds_wrote (e : Bool) (c : Iss) (m : Amap Split) :
    ComparisonWrote e c.x c { recordFlags c.all (condFlags c) (putConds e c c.g) with splits := m } := by
  rw [recordFlags_putConds]
  refine ⟨rfl, rfl, ?predD, ?predE, fun l j hj h => pget_putConds_other hj h c.g, putConds_onlyMended e c c.g, ?rest⟩
  case predD =>
    cases hd : c.x.d with
    | p i => exact fun l hl hm hi he => pget_putConds_d hd hi he hl hm c.g
    | _ => trivial
  case predE =>
    rintro rfl
    cases he : c.x.e with
    | p i => exact fun l hl hm hi => pget_putConds_e he hi hl hm c.g
    | _ => trivial
  case rest =>
    rw [putConds_frame]

/-- A comparison none of whose lanes raises an enabled exception. -/
theorem comparison_completes {i : Enc → Instr} {op : Op} (e : Bool)
    (hi : ∀ x s, exec (i x) s = issue op x s (fun c => fpFinish c (condFlags c) (putConds e c))) :
    Completes i op (fun _ _ c => fpOutcome c.g c.all (condFlags c) = .record) id
      (fun _ x c g' => AtPc c g' (c.sp.pc + 1) ∧ ComparisonWrote e x c g') := by
  refine completes_runs (F := fun _ _ c g => recordFlags c.all (condFlags c) (putConds e c g)) hi ?_ ?_ ?_
  · intro s x c _ hr
    simp only [fpFinish, hr]
  · intro s x c _ _
    rw [recordFlags_eq, putConds_frame]
  · intro s x c m h _
    obtain rfl := h.isEnc
    exact recordFlags_putConds_wrote e c m

/-- Settles O15: the compare, class and logic instructions have `putPredD` of their predicate as their effect, a vote says
what holds of the lanes of its segment, and the floating-point comparisons write `putConds` and record their exceptions. -/
theorem comparisonsVotesAndLogicWritePredicates : Obligations.ComparisonsVotesAndLogicWritePredicates := by
  unfold Obligations.ComparisonsVotesAndLogicWritePredicates
  refine ⟨⟨writesPred_of_iss (fun _ _ => rfl) (fun _ => rfl), writesPred_runs (fun _ _ => rfl),
    writesPred_of_iss (fun _ _ => rfl) (fun _ => rfl), writesPred_of_iss (fun _ _ => rfl) (fun _ => rfl), intCond_iff⟩,
    ⟨vote_ballot_completes, fun mode hmode => ?votes⟩, ?comparisons⟩
  case votes =>
    intro s x c h hx
    obtain rfl := h.isEnc
    obtain ⟨t, g', hexec, honly, hpc, hwrote⟩ := vote_completes hmode s c.x c h hx
    exact ⟨t, g', hexec, honly, hpc, funext (voteAt_eq c mode) ▸ hwrote⟩
  case comparisons =>
    exact ⟨comparison_completes false (fun _ _ => rfl), comparison_completes false (fun _ _ => rfl),
      comparison_completes true (fun _ _ => rfl)⟩

end Sys2Proof.Machine
end

section
/-!
Copies: what CPA and CPT launch where they may issue (R228, R231, R232), and what a part that lands in the scratchpad
writes (R130).
-/
namespace Sys2Proof.Machine
open Sys2Proof Sys2Proof.Safety

/-- An instruction of a group gives what its body answers where it issues. -/
theorem gives_runs {i : Enc → Instr} {op : Op} {pre : State → Enc → Iss → Prop} {body : Enc → Iss → State → State}
    {next : State → Enc → Iss → State} (hi : ∀ x s, exec (i x) s = issue op x s (body x))
    (hb : ∀ s c, pre s c.x c → body c.x c s = next s c.x c) : Gives i op pre next := by
  intro s x c h hpre
  obtain rfl := h.isEnc
  rw [hi, issue_runs h, hb s c hpre]

/-- A step without an encoding gives what its function answers. -/
theorem stepGives_runs {i : Instr} {pre : State → Prop} {f next : State → State} (hi : ∀ s, exec i s = stepEvent s f)
    (hf : ∀ s, pre s → f s = next s) : StepGives i pre next := by
  intro s hpowered hpre
  rw [hi, stepEvent_next f hpowered, hf s hpre]

/-! ### Copies issue (R228, R231, R232) -/

theorem issueCpa_launches {c : Iss} (hmay : copyMayIssue c = true) (hsame : cpaDiffer c c.x.simm = 0) (dst : CopyDst)
    (last : Bool) (s : State) : issueCpa dst last c s = launchCopy { s with nextOp := s.nextOp + 1 } c
      { blankCopy c s.nextOp dst with parts := cpaParts c c.x.simm (offC c), last } := by
  rw [issueCpa, hmay, hsame]
  rfl

/-- What the copies of a lined group agree on is no lining mismatch. -/
theorem lined_bne_eq_false {α : Type} [BEq α] [LawfulBEq α] {lined : Bool} {a b : α} (h : lined = true → a = b) :
    (lined && a != b) = false := by
  cases lined with
  | false => rfl
  | true => rw [h rfl, bne_self_eq_false, Bool.and_false]

/-- The operands of a lined group's uniform instruction are the same in both copies where no copy differs. -/
theorem uniOperands_eq_of_same {c : Iss} (hl : c.g.lined = true) {ys : List Operand} (h : ∀ y ∈ ys, SameInCopies c y) :
    ys.map (uniOperand c.g c.x 0) = ys.map (uniOperand c.g c.x 1) := by
  refine List.map_congr_left fun y hy => ?_
  have hy := h y hy
  rw [SameInCopies, operandDiffers, hl, Bool.true_and] at hy
  exact bne_eq_false_iff_eq.1 hy

theorem issueCpt_launches {c : Iss} {s : State} (hmay : copyMayIssue c = true) (hstores : c.g.storeQ = [])
    (hreads : earlierReads s c.gid c.g s.nextOp = false) (hready : memReady s c.g.part = true)
    (hsame : ∀ y ∈ [c.x.a, c.x.b, c.x.c, c.x.e], SameInCopies c y) (dst : CopyDst) (destOf : Nat → Int) :
    issueCpt dst destOf c s = launchCopy { s with nextOp := s.nextOp + 1 } c
      { blankCopy c s.nextOp dst with
        tensor := true, unread := true, descAddr := uniOperand c.g c.x 0 c.x.a, dest := destOf 0
        start := uniOperand c.g c.x 0 c.x.e ++ uniOperand c.g c.x 0 c.x.b } := by
  have hopnds : (c.g.lined && [c.x.a, c.x.b, c.x.c, c.x.e].map (uniOperand c.g c.x 0) !=
      [c.x.a, c.x.b, c.x.c, c.x.e].map (uniOperand c.g c.x 1)) = false :=
    lined_bne_eq_false fun hl => uniOperands_eq_of_same hl hsame
  simp only [issueCpt, hmay, hstores, hreads, hready, hopnds]
  rfl

theorem withSlot_runs {c : Iss} {s : State} {t : Team} {o : Nat} (ht : teamOf s c.g = some t) (ho : o < t.launch.slots)
    (f : Team → Iss → State → State) : withSlot o f c s = f t c s := by
  simp only [withSlot, ht, Nat.not_le.2 ho, if_false]

theorem issueCpaG_launches {c : Iss} {s : State} {gid : Nat} {h : Group} (hmay : copyMayIssue c = true)
    (hsame : cpaDiffer c (cpaGDisp c.x) = 0)
    (htarget : s.groups.find? (fun e => e.2.team == c.g.team && e.2.core == c.g.core && e.2.index == cpaGTarget c 0 &&
      e.2.live != 0) = some (gid, h))
    (hfull : ∀ i, i < c.x.memRegs → isEmpty h (c.x.d.idx + i) = false)
    (hcopies : c.g.lined = true → cpaGTarget c 1 = cpaGTarget c 0) :
    issueCpaG c s =
      launchCopy (modGroup { s with nextOp := s.nextOp + 1 } gid (fun g => markEmpty g c.x.d.idx c.x.memRegs)) c
        { blankCopy c s.nextOp (.group gid c.x.d.idx) with
          parts := cpaParts c (cpaGDisp c.x) (fun _ => 0), tke := if c.x.bit 6 then some (c.x.bits 0 4) else none } := by
  have hwaits : (List.range c.x.memRegs).any (fun i => isEmpty h (c.x.d.idx + i)) = false :=
    List.any_eq_false.2 fun i hi => Bool.eq_false_iff.1 (hfull i (List.mem_range.1 hi))
  simp only [issueCpaG, htarget, hmay, hwaits, lined_bne_eq_false hcopies, hsame]
  rfl

/-! ### Parts of copies land (R130) -/

theorem landPart_performs {s : State} {id k : Nat} {y : Copy} {p : CopyPart} (hcopy : copyGet s id = some y)
    (hpart : mget y.parts k = some p) (hfail : p.fail = none) (hready : copyReady s y = true)
    (hsrc : ∀ a, p.src = some a → accReady s { core := y.core, part := y.part, ctx := y.ctx } false
      { lane := p.lane, addr := a, size := p.rd, bad := p.bad } = true) :
    landPart s id k = settleCopy (performPart s id k) id := by
  simp only [landPart, hcopy, hpart, hfail, hready]
  cases hp : p.src with
  | none => rfl
  | some a =>
    simp only [hsrc a hp]
    rfl

theorem mmod_of_mget {α : Type} {m : Amap α} {i : Nat} {v : α} (h : mget m i = some v) (f : α → α) :
    mmod m i f = mput m i (f v) := by
  rw [mmod, h]

/-- The scratchpad of a team with what has landed in it. -/
def landScratch (t : Team) (o : Nat) (f : Found) : Team :=
  { t with scratch := (landBytes t.scratch t.scratchPoison o f).1
           scratchPoison := (landBytes t.scratch t.scratchPoison o f).2 }

theorem deposit_scratch {s : State} {y : Copy} {t : Team} (hdst : y.dst = .scratch) (ht : mget s.teams y.team = some t)
    (p : CopyPart) (f : Found) :
    deposit s y p f = { s with teams := mput s.teams y.team (landScratch t p.dst.toNat f) } := by
  rw [deposit, hdst, ← mmod_of_mget ht (landScratch · p.dst.toNat f)]
  rfl

/-- A part that lands in the scratchpad leaves its bytes there, and every other byte and every other part of the team as it
was. -/
theorem landScratch_writes (t : Team) (o : Nat) (f : Found) :
    landScratch t o f = { t with scratch := (landScratch t o f).scratch, scratchPoison := (landScratch t o f).scratchPoison } ∧
    getBytes (landScratch t o f).scratch o f.bytes.length = f.bytes ∧
    ∀ a, (a < o ∨ o + f.bytes.length ≤ a) → sget (landScratch t o f).scratch a = sget t.scratch a := by
  refine ⟨rfl, getBytes_putBytes t.scratch o f.bytes, fun a ha => ?_⟩
  rw [landScratch, landBytes, sget_putBytes, if_neg (by omega)]

/-- Settles O38: each form launches its copy where nothing holds it back, a part that may be read is performed, and one for
the scratchpad is laid over it. -/
theorem copiesIssueAndLand : Obligations.CopiesIssueAndLand := by
  unfold Obligations.CopiesIssueAndLand
  refine ⟨⟨?cpaS, ?cptS, fun t => ⟨?cpaO, ?cptO⟩, fun gid h => ?cpaG⟩, ⟨fun id k y p => ?lands, ?scratch⟩⟩
  case cpaS => exact gives_runs (fun _ _ => rfl) fun s c ⟨hmay, hsame⟩ => issueCpa_launches hmay hsame _ _ s
  case cptS =>
    exact gives_runs (fun _ _ => rfl) fun s c ⟨hmay, hstores, hreads, hready, hsame⟩ =>
      issueCpt_launches hmay hstores hreads hready hsame _ _
  case cpaO =>
    refine gives_runs (fun _ _ => rfl) fun s c ⟨⟨ht, ho⟩, hmay, hsame⟩ => ?_
    rw [withSlot_runs ht ho, issueCpa_launches hmay hsame]
  case cptO =>
    refine gives_runs (fun _ _ => rfl) fun s c ⟨⟨ht, ho⟩, hmay, hstores, hreads, hready, hsame⟩ => ?_
    rw [withSlot_runs ht ho, issueCpt_launches hmay hstores hreads hready hsame]
  case cpaG =>
    exact gives_runs (fun _ _ => rfl) fun s c ⟨⟨hmay, hsame⟩, htarget, hfull, hcopies⟩ =>
      issueCpaG_launches hmay hsame htarget hfull hcopies
  case lands =>
    exact stepGives_runs (fun _ => rfl) fun s ⟨hcopy, hpart, hfail, hready, hsrc⟩ =>
      landPart_performs hcopy hpart hfail hready hsrc
  case scratch =>
    intro s y p f t hdst ht
    exact ⟨_, deposit_scratch hdst ht p f, landScratch_writes t p.dst.toNat f⟩

end Sys2Proof.Machine
end

section
/-!
WAITK and KSET (R229), FENCE (R128, R242), PREF (R243) and MONWAIT (R240).
-/
namespace Sys2Proof.Machine
open Sys2Proof Sys2Proof.Safety

/-! ### Arrival counters (R229) -/

theorem countOperand_lt (c : Iss) (k : Nat) (y : Operand) : countOperand c k y < 256 := Nat.mod_lt _ (by decide)

theorem kget_kput (g : Group) (i k : Nat) {v : Nat} (hv : v < 256) :
    kget (kput g i v) k = if k = i then v else kget g k := by
  rw [kget, kput, sget_sput]
  by_cases h : k = i
  · rw [if_pos h, if_pos h.symm, BitVec.toNat_ofNat, Nat.mod_eq_of_lt hv]
  · rw [if_neg h, if_neg (Ne.symm h), kget]

/-- An immediate count in range passes the check of WAITK and KSET. -/
theorem count_inRange {y : Operand} {n : Nat} (h : y.isImm = true → n ≤ 255) : (y.isImm && decide (255 < n)) = false := by
  cases hy : y.isImm with
  | false => rfl
  | true => exact decide_eq_false (Nat.not_lt.2 (h hy))

theorem waitk_goesOn : GoesOn .waitk .waitk (fun _ x c => (x.b.isImm = true → x.imm.toNat ≤ 255) ∧
    kget c.g x.a.idx ≤ countOperand c 0 x.b) := by
  refine goesOn_runs (fun _ _ => rfl) ?_
  rintro s x c - ⟨hcount, hbelow⟩
  simp only [count_inRange hcount, hbelow, Bool.false_eq_true, if_false, if_true]

theorem kset_completes : Completes .kset .kset (fun _ x c => (x.a.isImm = true → x.imm.toNat ≤ 255) ∧ kget c.g x.d.idx = 0) id
    (fun _ x c g' => AtPc c g' (c.sp.pc + 1) ∧
      (∀ k, kget g' k = if k = x.d.idx then countOperand c 0 x.a else kget c.g k) ∧
      g' = { c.g with counters := g'.counters, splits := g'.splits }) := by
  refine completes_runs (F := fun _ x c g => kput g x.d.idx (countOperand c 0 x.a)) (fun _ _ => rfl) ?_
    (fun _ _ _ _ _ => rfl) (fun _ x c _ _ _ => ⟨fun k => kget_kput c.g x.d.idx k (countOperand_lt c 0 x.a), rfl⟩)
  rintro s x c - ⟨hcount, hzero⟩
  simp only [count_inRange hcount, hzero, Bool.false_eq_true, if_false, if_true]

/-! ### FENCE (R128, R242) -/

/-- A FENCE whose earlier accesses are performed is not held back. -/
theorem fence_notHeld {s : State} {c : Iss} (hreads : earlierReads s c.gid c.g s.nextOp = false)
    (hscratch : earlierScratch c.g = false) (hreplay : c.g.replayG = none)
    (hrel : isRelease c.x.order = true → c.g.storeQ = [] ∧ releaseWaits s c.g c.x.scope = false) :
    (earlierReads s c.gid c.g s.nextOp || earlierScratch c.g || c.g.replayG.isSome ||
      (isRelease c.x.order && (!c.g.storeQ.isEmpty || releaseWaits s c.g c.x.scope))) = false := by
  rw [hreads, hscratch, hreplay]
  cases h : isRelease c.x.order with
  | false => rfl
  | true =>
    obtain ⟨hstores, hwaits⟩ := hrel h
    rw [hstores, hwaits]
    rfl

/-! ### MONWAIT (R240) -/

theorem mons_any_eq_false {g : Group} {mask : Nat} (h : ∀ m ∈ g.mons, mask / 2 ^ m.1 % 2 ≠ 1) :
    g.mons.any (fun m => mask / 2 ^ m.1 % 2 = 1) = false :=
  List.any_eq_false.2 fun m hm hin => h m hm (of_decide_eq_true hin)

theorem mons_any_eq_true {g : Group} {mask : Nat} (h : ∃ m ∈ g.mons, mask / 2 ^ m.1 % 2 = 1) :
    g.mons.any (fun m => mask / 2 ^ m.1 % 2 = 1) = true := by
  obtain ⟨m, hm, hin⟩ := h
  exact List.any_eq_true.2 ⟨m, hm, decide_eq_true hin⟩

/-- MONWAIT is complete at issue where a monitor of its mask has fired or none is armed. -/
theorem monwait_complete {g : Group} {mask : Nat}
    (h : firedMask g mask ≠ 0 ∨ ∀ m ∈ g.mons, mask / 2 ^ m.1 % 2 ≠ 1) :
    firedMask g mask ≠ 0 || !g.mons.any (fun m => mask / 2 ^ m.1 % 2 = 1) := by
  rw [Bool.or_eq_true, decide_eq_true_iff, Bool.not_eq_true']
  exact h.imp_right mons_any_eq_false

/-- Settles O39: a wait whose condition holds only goes on, a FENCE or PREF that nothing holds back does its work and goes
on, and MONWAIT is complete, waits, or ends by its timeout. -/
theorem waitsFencesAndMonitors : Obligations.WaitsFencesAndMonitors := by
  unfold Obligations.WaitsFencesAndMonitors
  refine ⟨⟨waitk_goesOn, kset_completes, ?fence, ?pref⟩, ?completes, ?waits, fun gid j g sp mask u x => ?timeout⟩
  case fence =>
    refine gives_runs (fun _ _ => rfl) fun s c ⟨hreads, hscratch, hreplay, hrel⟩ => ?_
    simp only [fence_notHeld hreads hscratch hreplay hrel]
    rfl
  case pref =>
    refine gives_runs (fun _ _ => rfl) fun s c hready => ?_
    simp only [List.all_eq_true.2 hready]
    rfl
  case completes =>
    refine gives_runs (fun _ _ => rfl) fun s c ⟨hagree, hdone⟩ => ?_
    simp only [lined_bne_eq_false hagree, monwait_complete hdone]
    rfl
  case waits =>
    refine gives_runs (fun _ _ => rfl) fun s c ⟨hagree, hnone, harmed, hwait⟩ => ?_
    simp only [lined_bne_eq_false hagree, hnone, mons_any_eq_true harmed, hwait]
    rfl
  case timeout =>
    refine stepGives_runs (fun _ => rfl) fun s ⟨hgroup, hsplit, hwait, hexpired, hissued⟩ => ?_
    simp only [hgroup, hsplit, hwait, hissued, Nat.not_lt.2 hexpired, if_false]

end Sys2Proof.Machine
end

section
/-!
The sequencer of a team: what its changes compose to, and how an instruction that it issues completes (R45, R291).
-/
namespace Sys2Proof.Machine
open Sys2Proof Sys2Proof.Safety

/-! ### Teams and their sequencers -/

theorem modTeam_eq {s : State} {tid : Nat} {t : Team} (h : mget s.teams tid = some t) (f : Team → Team) :
    modTeam s tid f = { s with teams := mput s.teams tid (f t) } := by
  rw [modTeam, mmod_of_mget h]

theorem modTeam_modTeam (s : State) (tid : Nat) (f g : Team → Team) :
    modTeam (modTeam s tid f) tid g = modTeam s tid (fun t => g (f t)) := by
  cases h : mget s.teams tid with
  | none => simp only [modTeam, mmod, h]
  | some t => simp only [modTeam, mmod, h, mget_mput, mput_mput, if_true]

/-- Two changes of a team's sequencer one after the other. -/
theorem modSeq_modSeq (s : State) (tid : Nat) (f g : Seq → Seq) :
    modSeq (modSeq s tid f) tid g = modSeq s tid (fun q => g (f q)) := by
  simp only [modSeq, modTeam_modTeam, Option.map_map]
  rfl

/-- The sequencer goes on after changes to its team. -/
theorem seqAdvance_modTeam (s : State) (c : SIss) (f : Team → Team) :
    seqAdvance (modTeam s c.tid f) c =
      modTeam s c.tid (fun t => { f t with seq := (f t).seq.map (fun q => q.onward s.clk (c.q.pc + 1) c.x.yld) }) :=
  modTeam_modTeam s c.tid f _

/-- The sequencer goes on after a change of its own. -/
theorem seqAdvance_modSeq (s : State) (c : SIss) (f : Seq → Seq) :
    seqAdvance (modSeq s c.tid f) c = modSeq s c.tid (fun q => (f q).onward s.clk (c.q.pc + 1) c.x.yld) :=
  modSeq_modSeq s c.tid f _

/-! ### Instructions of a sequencer -/

/-- An instruction of a sequencer gives what its body answers where it issues. -/
theorem givesQ_runs {i : Enc → Instr} {op : Op} {pre : State → Enc → SIss → Prop} {body : Enc → SIss → State → State}
    {next : State → Enc → SIss → State} (hi : ∀ x s, exec (i x) s = issueQ op x s (body x))
    (hb : ∀ s c, pre s c.x c → body c.x c s = next s c.x c) : GivesQ i op pre next := by
  intro s x c h hpre
  obtain rfl := h.isEnc
  rw [hi, issueQ_runs h, hb s c hpre]

/-- An instruction of a sequencer whose body changes its team completes with the team that the change leaves. -/
theorem seqCompletes_team {i : Enc → Instr} {op : Op} {pre : State → Enc → SIss → Prop} {body : Enc → SIss → State → State}
    {post : State → Enc → SIss → Team → Prop} (f : State → SIss → Team → Team)
    (hi : ∀ x s, exec (i x) s = issueQ op x s (body x))
    (hb : ∀ s c, pre s c.x c → body c.x c s = modTeam s c.tid (f s c))
    (hp : ∀ s c, c.t.seq = some c.q → pre s c.x c → post s c.x c (f s c c.t)) : SeqCompletes i op pre post := by
  intro s x c h hpre
  obtain rfl := h.isEnc
  have hrun : exec (i c.x) s = .next { s with teams := mput s.teams c.tid (f s c c.t) } := by
    rw [hi, issueQ_runs h, hb s c hpre, modTeam_eq h.team]
  refine ⟨_, f s c c.t, hrun, rfl, ?_, fun k hk => ?_, hp s c h.seq hpre⟩
  · rw [mget_mput, if_pos rfl]
  · rw [mget_mput, if_neg (Ne.symm hk)]

/-- The same of one whose body changes the sequencer only. -/
theorem seqCompletes_seq {i : Enc → Instr} {op : Op} {pre : State → Enc → SIss → Prop} {body : Enc → SIss → State → State}
    {post : State → Enc → SIss → Team → Prop} (f : State → SIss → Seq → Seq)
    (hi : ∀ x s, exec (i x) s = issueQ op x s (body x))
    (hb : ∀ s c, pre s c.x c → body c.x c s = modSeq s c.tid (f s c))
    (hp : ∀ s c, pre s c.x c → post s c.x c { c.t with seq := some (f s c c.q) }) : SeqCompletes i op pre post := by
  refine seqCompletes_team (fun s c t => { t with seq := t.seq.map (f s c) }) hi hb fun s c hseq hpre => ?_
  simp only [hseq, Option.map_some]
  exact hp s c hpre

/-- One whose body goes on after a write of a q register. -/
theorem writesQ_runs {i : Enc → Instr} {op : Op} {pre : State → Enc → SIss → Prop} {body : Enc → SIss → State → State}
    {r : Enc → Nat} {v : State → Enc → SIss → BitVec 64} (hi : ∀ x s, exec (i x) s = issueQ op x s (body x))
    (hb : ∀ s c, pre s c.x c → body c.x c s = seqAdvance (qput s c.tid (r c.x) (v s c.x c)) c) : WritesQ i op pre r v := by
  refine seqCompletes_seq (fun s c q => { q with q := sput q.q (r c.x) (v s c.x c) }.onward s.clk (c.q.pc + 1) c.x.yld)
    hi (fun s c hpre => ?_) fun s c hpre => ⟨_, rfl, fun k => ?_⟩
  · rw [hb s c hpre, qput, seqAdvance_modSeq]
  · simp only [sget_sput, eq_comm]

end Sys2Proof.Machine
end

section
/-!
Operand slots: their states (R297, R298, R303), and what moves between a slot and a group's registers (R304, R305).
-/
namespace Sys2Proof.Machine
open Sys2Proof Sys2Proof.Safety

/-! ### Slots of a team -/

/-- The team with a slot written. -/
def setSlot (t : Team) (side o : Nat) (u : Slot) : Team := { t with slots := mput t.slots (2 * o + side) u }

theorem modSlot_eq_modTeam (s : State) (tid side o : Nat) (f : Slot → Slot) :
    modSlot s tid side o f = modTeam s tid (fun t => setSlot t side o (f (slotOf t side o))) := rfl

theorem slotOf_setSlot (t : Team) {d d' : Nat} (hd : d < 2) (hd' : d' < 2) (o o' : Nat) (u : Slot) :
    slotOf (setSlot t d o u) d' o' = if o' = o ∧ d' = d then u else slotOf t d' o' := by
  have hkey : 2 * o + d = 2 * o' + d' ↔ o' = o ∧ d' = d := by omega
  simp only [slotOf, setSlot, mgetD, mget_mput, hkey]
  split <;> rfl

theorem sideOf_lt (t : Team) (g : Group) : sideOf t g < 2 := by
  unfold sideOf
  split <;> decide

/-- The team with the slots of a list, given with their sides, changed one after the other. -/
def changeSlots (f : Slot → Slot) (ps : List (Nat × Nat)) (t : Team) : Team :=
  ps.foldl (fun t p => setSlot t p.2 p.1 (f (slotOf t p.2 p.1))) t

theorem changeSlots_cons (f : Slot → Slot) (p : Nat × Nat) (ps : List (Nat × Nat)) (t : Team) :
    changeSlots f (p :: ps) t = changeSlots f ps (setSlot t p.2 p.1 (f (slotOf t p.2 p.1))) := rfl

theorem changeSlots_frame (f : Slot → Slot) (ps : List (Nat × Nat)) (t : Team) :
    changeSlots f ps t = { t with slots := (changeSlots f ps t).slots } :=
  foldl_keeps (fun u : Team => u = { t with slots := u.slots }) _ ps t rfl fun u p _ hu => by
    rw [setSlot, hu]

/-- Each slot of a list without repeats is changed once, and no other slot is. -/
theorem slotOf_changeSlots (f : Slot → Slot) {ps : List (Nat × Nat)} (hnodup : ps.Nodup) (hside : ∀ p ∈ ps, p.2 < 2)
    (t : Team) (o : Nat) {d : Nat} (hd : d < 2) :
    slotOf (changeSlots f ps t) d o = if (o, d) ∈ ps then f (slotOf t d o) else slotOf t d o := by
  induction ps generalizing t with
  | nil => rfl
  | cons p ps ih =>
    obtain ⟨hp, hps⟩ := List.nodup_cons.1 hnodup
    rw [changeSlots_cons, ih hps (fun q hq => hside q (List.mem_cons_of_mem p hq)),
      slotOf_setSlot t (hside p List.mem_cons_self) hd]
    by_cases heq : (o, d) = p
    · subst heq
      simp only [hp, if_false, and_self, if_true, List.mem_cons_self]
    · have hne : ¬ (o = p.1 ∧ d = p.2) := fun ⟨ho, hd⟩ => heq (Prod.ext ho hd)
      simp only [hne, if_false, List.mem_cons, heq, false_or]

/-! ### The states of a slot (Table 17.2) -/

theorem settleSlot_drains {u : Slot} (hst : u.st = .filling) (hfills : u.fills = 0) (hdrain : u.toDrain = true) :
    settleSlot u = { u with st := .draining, toDrain := false, toReady := false, last := false } := by
  simp only [settleSlot, hst, hfills, hdrain]
  rfl

theorem settleSlot_readies {u : Slot} (hst : u.st = .filling) (hfills : u.fills = 0) (hdrain : u.toDrain = false)
    (hready : u.toReady = true ∨ u.last = true) :
    settleSlot u = { u with st := .ready, toReady := false, last := false } := by
  have hmoves : (u.toReady || u.last) = true := Bool.or_eq_true_iff.2 hready
  simp only [settleSlot, hst, hfills, hdrain, hmoves]
  rfl

/-- A slot whose fill parts have not all landed stays as it is. -/
theorem settleSlot_waits {u : Slot} (hfills : u.fills ≠ 0) : settleSlot u = u := by
  simp only [settleSlot, hfills, decide_false, Bool.and_false, Bool.false_eq_true, if_false]

theorem readySlot_of_filling {u : Slot} (hst : u.st = .filling) : readySlot u = settleSlot { u with toReady := true } :=
  if_pos hst

theorem releaseSlot_of_filling {u : Slot} (hst : u.st = .filling) : releaseSlot u = settleSlot { u with toDrain := true } := by
  rw [releaseSlot, hst]

/-- SLOT.READY of a FILLING slot that is not to drain. -/
theorem readySlot_moves {u : Slot} (hst : u.st = .filling) (hdrain : u.toDrain = false) :
    (u.fills = 0 → readySlot u = { u with st := .ready, toReady := false, last := false }) ∧
    (u.fills ≠ 0 → readySlot u = { u with toReady := true } ∧
      settleSlot { readySlot u with fills := 0 } = { u with st := .ready, fills := 0, toReady := false, last := false }) := by
  rw [readySlot_of_filling hst]
  refine ⟨fun hfills => settleSlot_readies hst hfills hdrain (.inl rfl), fun hfills => ?_⟩
  rw [settleSlot_waits (u := { u with toReady := true }) hfills]
  exact ⟨rfl, settleSlot_readies hst rfl hdrain (.inl rfl)⟩

/-- SLOT.RELEASE of a FILLING slot. -/
theorem releaseSlot_moves {u : Slot} (hst : u.st = .filling) :
    (u.fills = 0 → releaseSlot u = { u with st := .draining, toDrain := false, toReady := false, last := false }) ∧
    (u.fills ≠ 0 → releaseSlot u = { u with toDrain := true } ∧
      settleSlot { releaseSlot u with fills := 0 } =
        { u with st := .draining, fills := 0, toDrain := false, toReady := false, last := false }) := by
  rw [releaseSlot_of_filling hst]
  refine ⟨fun hfills => settleSlot_drains hst hfills rfl, fun hfills => ?_⟩
  rw [settleSlot_waits (u := { u with toDrain := true }) hfills]
  exact ⟨rfl, settleSlot_drains hst rfl rfl⟩

theorem releaseSlot_of_ready {u : Slot} (hst : u.st = .ready) : releaseSlot u = { u with st := .draining } := by
  rw [releaseSlot, hst]

theorem releaseSlot_of_released {u : Slot} (hst : u.st = .empty ∨ u.st = .draining) : releaseSlot u = u := by
  rcases hst with hst | hst <;> rw [releaseSlot, hst]

/-! ### SLOT.CLAIM, SLOT.READY and SLOT.RELEASE -/

theorem sidesOf_nodup (t : Team) : (sidesOf t).Nodup := by
  unfold sidesOf
  split <;> decide

theorem lt_two_of_mem_sidesOf {t : Team} {d : Nat} (h : d ∈ sidesOf t) : d < 2 := by
  unfold sidesOf at h
  split at h <;> simp only [List.mem_cons, List.not_mem_nil, or_false] at h <;> omega

theorem slotTargets_nodup (t : Team) (x : Enc) : (slotTargets t x).Nodup := by
  rw [slotTargets, List.Nodup, List.pairwise_flatMap]
  refine ⟨fun i _ => List.pairwise_map.2 ((sidesOf_nodup t).imp fun hne heq => hne (congrArg Prod.snd heq)),
    List.nodup_range.imp fun {i j} hne p hp q hq heq => ?_⟩
  obtain ⟨d, -, rfl⟩ := List.mem_map.1 hp
  obtain ⟨e, -, rfl⟩ := List.mem_map.1 hq
  exact hne (Nat.add_left_cancel (congrArg Prod.fst heq))

theorem slotTargets_side {t : Team} {x : Enc} {p : Nat × Nat} (h : p ∈ slotTargets t x) : p.2 < 2 := by
  obtain ⟨i, -, hp⟩ := List.mem_flatMap.1 h
  obtain ⟨d, hd, rfl⟩ := List.mem_map.1 hp
  exact lt_two_of_mem_sidesOf hd

/-- A change of the team after changes of it along a list. -/
theorem modTeam_foldl_modTeam {α : Type} (tid : Nat) (f : α → Team → Team) (g : Team → Team) (l : List α) (s : State) :
    modTeam (l.foldl (fun st a => modTeam st tid (f a)) s) tid g =
      modTeam s tid (fun t => g (l.foldl (fun t a => f a t) t)) := by
  induction l generalizing s with
  | nil => rfl
  | cons a l ih => rw [List.foldl_cons, ih, modTeam_modTeam]; rfl

theorem seqAdvance_onSlots (s : State) (c : SIss) (f : Slot → Slot) :
    seqAdvance (onSlots s c f) c = modTeam s c.tid (fun t =>
      { changeSlots f (slotTargets c.t c.x) t with
        seq := (changeSlots f (slotTargets c.t c.x) t).seq.map (fun q => q.onward s.clk (c.q.pc + 1) c.x.yld) }) := by
  have hclk : (onSlots s c f).clk = s.clk :=
    foldl_keeps (fun st : State => st.clk = s.clk) _ _ s rfl fun _ _ _ h => h
  rw [seqAdvance, seqGoOn, hclk]
  exact modTeam_foldl_modTeam c.tid _ _ (slotTargets c.t c.x) s

/-- An instruction that changes its target slots and goes on: each target is changed, and every other slot is as it was. -/
theorem slotsChange_completes {i : Enc → Instr} {op : Op} {pre : State → Enc → SIss → Prop}
    {body : Enc → SIss → State → State} (f : Slot → Slot) (hi : ∀ x s, exec (i x) s = issueQ op x s (body x))
    (hb : ∀ s c, pre s c.x c → body c.x c s = seqAdvance (onSlots s c f) c) :
    SeqCompletes i op pre (fun s x c u => u = { c.t with slots := u.slots, seq := some (seqNext s x c (c.q.pc + 1)) } ∧
      ∀ o d, d < 2 → slotOf u d o = if (o, d) ∈ slotTargets c.t x then f (slotOf c.t d o) else slotOf c.t d o) := by
  refine seqCompletes_team _ hi (fun s c hpre => (hb s c hpre).trans (seqAdvance_onSlots s c f)) fun s c hseq _ => ⟨?_, ?_⟩
  · rw [changeSlots_frame, hseq]
    rfl
  · exact fun o d hd => slotOf_changeSlots f (slotTargets_nodup c.t c.x) (fun p hp => slotTargets_side hp) c.t o hd

/-! ### What SLOT.WRITE lays out (R304) -/

theorem length_flatMap_of_length {α β : Type} {f : α → List β} {n : Nat} {l : List α} (h : ∀ a ∈ l, (f a).length = n) :
    (l.flatMap f).length = n * l.length := by
  rw [List.length_flatMap, List.map_congr_left h, List.map_const', List.sum_replicate_nat, Nat.mul_comm]

/-- Piece `k` of a list that is put together from pieces of one length. -/
theorem take_drop_flatMap {α β : Type} {f : α → List β} {n : Nat} {l : List α} (h : ∀ a ∈ l, (f a).length = n) {k : Nat} {a : α}
    (hk : l[k]? = some a) : ((l.flatMap f).drop (n * k)).take n = f a := by
  induction l generalizing k with
  | nil => cases hk
  | cons b l ih =>
    have hb : (f b).length = n := h b List.mem_cons_self
    cases k with
    | zero =>
      obtain rfl : b = a := Option.some.inj hk
      rw [Nat.mul_zero, List.drop_zero, List.flatMap_cons, List.take_left' hb]
    | succ k =>
      rw [Nat.mul_succ, Nat.add_comm, List.flatMap_cons, ← hb, List.drop_length_add_append, hb]
      exact ih (fun c hc => h c (List.mem_cons_of_mem b hc)) hk

/-- Bytes read back from within a range that was written. -/
theorem getBytes_putBytes_within (m : Memory) (a : Nat) {o n : Nat} {bs : List (BitVec 8)} (h : o + n ≤ bs.length) :
    getBytes (putBytes m a bs) (a + o) n = (bs.drop o).take n := by
  refine List.ext_getElem (by
    simp only [getBytes, List.length_map, List.length_range, List.length_take, List.length_drop]
    omega) fun i hi _ => ?_
  have hin : i < n := by rwa [getBytes, List.length_map, List.length_range] at hi
  have hrange : a ≤ a + o + i ∧ a + o + i < a + bs.length := by omega
  have hoff : a + o + i - a = o + i := by omega
  have hlen : o + i < bs.length := by omega
  simp only [getBytes, List.getElem_map, List.getElem_range, sget_putBytes, if_pos hrange, hoff, List.getElem_take,
    List.getElem_drop, List.getD_eq_getElem?_getD, List.getElem?_eq_getElem hlen, Option.getD_some]

@[simp] theorem length_leBytes (n v : Nat) : (leBytes n v).length = n := by
  induction n generalizing v with
  | zero => rfl
  | succ n ih => rw [leBytes, List.length_cons, ih]

theorem length_moveWords (g : Group) (x : Enc) (copy : Nat) : (moveWords g x copy).length = g.width * moveCount x := by
  rw [moveWords, length_flatMap_of_length (n := g.width) fun j _ => by rw [List.length_map, List.length_range],
    List.length_range]

/-- Register VREG + j of lane i is word W j + i (R304). -/
theorem getElem?_moveWords {g : Group} {x : Enc} {j i : Nat} (hj : j < moveCount x) (hi : i < g.width) :
    (moveWords g x 0)[g.width * j + i]? = some (vget g (moveReg x + j) i) := by
  have hrow : ((moveWords g x 0).drop (g.width * j)).take g.width = _ :=
    take_drop_flatMap (fun j _ => by rw [List.length_map, List.length_range]) (List.getElem?_range hj)
  have hword := congrArg (·[i]?) hrow
  simpa only [hi, List.getElem?_take_of_lt, List.getElem?_drop, Nat.zero_mul, Nat.add_zero, List.length_map,
    List.length_range, getElem?_pos, List.getElem_map, List.getElem_range] using hword

/-- The bytes of words, none of them poisoned. -/
def wordsFound (ws : List W32) : Found :=
  let bs := ws.flatMap (fun w => leBytes 4 w.toNat)
  { bytes := bs, bad := List.replicate bs.length false, ptrap := true }

/-- A slot with words laid out in it from an offset. -/
def landWords (u : Slot) (off : Nat) (ws : List W32) : Slot :=
  { u with data := (landBytes u.data u.poison off (wordsFound ws)).1
           poison := (landBytes u.data u.poison off (wordsFound ws)).2 }

theorem length_wordsFound (ws : List W32) : (wordsFound ws).bytes.length = 4 * ws.length :=
  length_flatMap_of_length fun _ _ => length_leBytes 4 _

theorem getBytes_landWords (u : Slot) (off : Nat) {ws : List W32} {k : Nat} {w : W32} (hk : ws[k]? = some w) :
    getBytes (landWords u off ws).data (off + 4 * k) 4 = leBytes 4 w.toNat := by
  have hlt : k < ws.length := (List.getElem?_eq_some_iff.1 hk).1
  have hlen := length_wordsFound ws
  exact (getBytes_putBytes_within u.data off (by omega)).trans (take_drop_flatMap (fun _ _ => length_leBytes 4 _) hk)

theorem sget_landWords_outside (u : Slot) {off a : Nat} {ws : List W32} (h : a < off ∨ off + 4 * ws.length ≤ a) :
    sget (landWords u off ws).data a = sget u.data a := by
  have hlen := length_wordsFound ws
  rw [landWords, landBytes, sget_putBytes, if_neg (by omega)]

theorem seqAdvance_modSlot (s : State) (c : SIss) (side o : Nat) (f : Slot → Slot) :
    seqAdvance (modSlot s c.tid side o f) c = modTeam s c.tid (fun t =>
      { setSlot t side o (f (slotOf t side o)) with seq := t.seq.map (fun q => q.onward s.clk (c.q.pc + 1) c.x.yld) }) := by
  rw [modSlot_eq_modTeam, seqAdvance_modTeam]
  rfl

/-! ### The operands of SLOT.WRITE and SLOT.READ -/

theorem slotWrite_completes (gid : Nat) (g : Group) :
    SeqCompletes .slotWrite .slotWrite (fun s x c =>
        let v := slotOf c.t (sideOf c.t g) x.d.idx
        (targetGroup s c = some (gid, g) ∧ slotRangeOk c.t x.d.idx 1 = true ∧ slotMoveOk g x (qBytes c.q x x.b) = true) ∧
        v.st = .filling ∧ v.toReady = false ∧ v.toDrain = false ∧ moveDamage g x = none ∧
        targetFull g x = true ∧
        (g.lined = true → moveWords g x 0 = moveWords g x 1))
      (fun s x c u =>
        let off := qBytes c.q x x.b
        let v := slotOf u (sideOf c.t g) x.d.idx
        u = { c.t with slots := u.slots, seq := some (seqNext s x c (c.q.pc + 1)) } ∧
        (∀ j i, j < moveCount x → i < g.width →
          getBytes v.data (off + 4 * (g.width * j + i)) 4 = leBytes 4 (vget g (moveReg x + j) i).toNat) ∧
        (∀ a, (a < off ∨ off + 4 * g.width * moveCount x ≤ a) →
          sget v.data a = sget (slotOf c.t (sideOf c.t g) x.d.idx).data a) ∧
        ∀ o d, d < 2 → (o ≠ x.d.idx ∨ d ≠ sideOf c.t g) → slotOf u d o = slotOf c.t d o) := by
  refine seqCompletes_team (fun s c t => { setSlot t (sideOf c.t g) c.x.d.idx
    (landWords (slotOf t (sideOf c.t g) c.x.d.idx) (qBytes c.q c.x c.x.b) (moveWords g c.x 0)) with
      seq := t.seq.map (fun q => q.onward s.clk (c.q.pc + 1) c.x.yld) }) (fun _ _ => rfl) ?runs ?post
  case runs =>
    intro s c ⟨⟨htarget, hrange, hmove⟩, hfilling, hready, hdrain, hsound, hfull, hcopies⟩
    simp only [htarget, hrange, hmove, hfilling, hready, hdrain, hsound, hfull, lined_bne_eq_false hcopies]
    exact seqAdvance_modSlot s c _ _ _
  case post =>
    intro s c hseq _
    have hside := sideOf_lt c.t g
    have hlands := slotOf_setSlot c.t hside hside c.x.d.idx c.x.d.idx
      (landWords (slotOf c.t (sideOf c.t g) c.x.d.idx) (qBytes c.q c.x c.x.b) (moveWords g c.x 0))
    rw [if_pos ⟨rfl, rfl⟩] at hlands
    refine ⟨by rw [hseq]; rfl, fun j i hj hi => ?_, fun a ha => ?_, fun o d hd hother => ?_⟩
    · exact (congrArg (fun v : Slot => getBytes v.data _ 4) hlands).trans
        (getBytes_landWords _ _ (getElem?_moveWords hj hi))
    · refine (congrArg (fun v : Slot => sget v.data a) hlands).trans (sget_landWords_outside _ ?_)
      rwa [length_moveWords, ← Nat.mul_assoc]
    · exact (slotOf_setSlot c.t hside hd _ _ _).trans (if_neg (by omega))

theorem slotRead_gives (gid : Nat) (g : Group) :
    GivesQ .slotRead .slotRead (fun s x c =>
        (targetGroup s c = some (gid, g) ∧ slotRangeOk c.t x.a.idx 1 = true ∧ slotMoveOk g x (qBytes c.q x x.b) = true) ∧
        (slotOf c.t (sideOf c.t g) x.a.idx).st = .ready ∧ targetFree g x = true)
      (fun s x c => sendData s c gid g 1 (fun j i =>
        let v := slotOf c.t (sideOf c.t g) x.a.idx
        let o := qBytes c.q x x.b + 4 * (g.width * j + i)
        (BitVec.ofNat 32 (leNat (getBytes v.data o 4)), sget v.poison (o / 16) == 1#1))) := by
  refine givesQ_runs (fun _ _ => rfl) fun s c ⟨⟨htarget, hrange, hmove⟩, hready, hfree⟩ => ?_
  simp only [htarget, hrange, hmove, hready, hfree]
  rfl

/-- Settles O45: an instruction along the states changes its target slots one after the other, SLOT.WRITE lands its words in
one slot, and each move of Table 17.2 is a case of `settleSlot`. -/
theorem slotInstructions : Obligations.SlotInstructions := by
  unfold Obligations.SlotInstructions
  refine ⟨?claim, ?ready, ?release, ?state, fun tid side o t => ?drained, fun u => ?states,
    fun gid g => ⟨slotWrite_completes gid g, slotRead_gives gid g⟩⟩
  case claim =>
    refine slotsChange_completes claimed (fun _ _ => rfl) fun s c ⟨hrange, hempty⟩ => ?_
    have hfind : ((slotTargets c.t c.x).map (fun p => slotOf c.t p.2 p.1)).find? (fun u => u.st != .empty) = none := by
      simp only [List.find?_map, Option.map_eq_none_iff, List.find?_eq_none, Function.comp_apply, bne_iff_ne, ne_eq,
        Decidable.not_not]
      exact hempty
    simp only [hrange, hfind]
    rfl
  case ready =>
    refine slotsChange_completes readySlot (fun _ _ => rfl) fun s c ⟨hrange, hmay⟩ => ?_
    have hany : ((slotTargets c.t c.x).map (fun p => slotOf c.t p.2 p.1)).any (fun u => u.st == .empty || drainingSoon u) = false :=
      List.any_map.trans (List.any_eq_false.2 fun p hp => by simp [hmay p hp])
    simp only [hrange, hany]
    rfl
  case release =>
    refine slotsChange_completes releaseSlot (fun _ _ => rfl) fun s c hrange => ?_
    simp only [show slotRangeOk c.t c.x.a.idx (c.x.bits 0 6 + 1) = true from hrange]
    rfl
  case state =>
    refine writesQ_runs (fun _ _ => rfl) fun s c hrange => ?_
    simp only [hrange]
    rfl
  case drained =>
    refine stepGives_runs (fun _ => rfl) fun s ⟨hteam, hdraining, hunread⟩ => ?_
    simp only [hteam, hdraining, hunread]
    rfl
  case states =>
    exact ⟨rfl, rfl, readySlot_moves, fun hst => if_neg hst, releaseSlot_moves, releaseSlot_of_ready, releaseSlot_of_released,
      fun hst hfills hlast hdrain => settleSlot_readies hst hfills hdrain (.inr hlast)⟩

end Sys2Proof.Machine
end

section
/-!
Matrix work: products and SCACC are given to the array (R306 to R309), and a step of the array performs it (R88, R317).
-/
namespace Sys2Proof.Machine
open Sys2Proof Sys2Proof.Safety

/-! ### Work is given to the array (R306 to R309) -/

/-- An instruction that gives work to the home core's array and goes on. -/
theorem given_completes {i : Enc → Instr} {op : Op} {pre : State → Enc → SIss → Prop} {body : Enc → SIss → State → State}
    (j : Enc → SIss → MatJob) (hi : ∀ x s, exec (i x) s = issueQ op x s (body x))
    (hb : ∀ s c, pre s c.x c →
      body c.x c s = seqAdvance (modSeq s c.tid (fun q => { q with jobs := q.jobs ++ [j c.x c] })) c) :
    SeqCompletes i op pre (fun s x c u => u = { c.t with seq := some { seqNext s x c (c.q.pc + 1) with
      jobs := c.q.jobs ++ [j x c], jobsP := c.q.jobsP ++ [] } }) := by
  refine seqCompletes_seq _ hi (fun s c hpre => (hb s c hpre).trans (seqAdvance_modSeq s c _)) fun s c _ => ?_
  rw [List.append_nil]
  rfl

/-- A product whose operands pass its checks and whose slots are READY. -/
theorem issueMma_gives {c : SIss} {j : MatJob} (s : State)
    (hj : j = productJob c (windowFrom (sget c.q.q c.x.d.idx)) (windowFrom (sget c.q.q c.x.d.idx)).rows)
    (hok : productOk c.t (sget c.q.q c.x.c.idx) j = true) (hready : slotsReady c.t 0 j = true) :
    issueMma c s = seqAdvance (modSeq s c.tid (fun q => { q with jobs := q.jobs ++ [j] })) c := by
  subst hj
  simp only [issueMma, hok, hready]
  rfl

/-! ### GANG (R308) -/

/-- The work of a GANG on the home core and on the partner. -/
def gangWork (c : SIss) : MatJob × Option MatJob := gangJobs c (windowFrom (sget c.q.q c.x.d.idx))

/-- The turn starts the home core's share. -/
def startsHome (c : SIss) : Bool := !c.q.shares.getLsbD 0 && slotsReady c.t 0 (gangWork c).1

/-- The partner's share needs no start: it has started, or there is none. -/
def otherStarted (c : SIss) : Bool := c.q.shares.getLsbD 1 || (gangWork c).2.isNone

/-- The turn starts the partner's share. -/
def startsOther (c : SIss) : Bool := !otherStarted c && (gangWork c).2.any (slotsReady c.t 1)

/-- After the turn both shares have started. -/
def gangDone (c : SIss) : Bool := (c.q.shares.getLsbD 0 || startsHome c) && (otherStarted c || startsOther c)

/-- What the turn gives to the home core's array. -/
def homeGiven (c : SIss) : List MatJob := if startsHome c then [(gangWork c).1] else []

/-- What the turn gives to the partner's array. -/
def otherGiven (c : SIss) : List MatJob := if startsOther c then (gangWork c).2.toList else []

/-- The sequencer with the shares of the turn given to the arrays. -/
def gangGiven (c : SIss) (q : Seq) : Seq :=
  { q with
    jobs := if startsHome c then q.jobs ++ [(gangWork c).1] else q.jobs
    jobsP := if startsOther c then q.jobsP ++ (gangWork c).2.toList else q.jobsP
    shares := if gangDone c then 0
      else BitVec.ofNat 2 ((c.q.shares.getLsbD 0 || startsHome c).toNat + 2 * (otherStarted c || startsOther c).toNat) }

/-- The sequencer after the turn of a GANG: it goes on once both shares have started. -/
def gangTurn (s : State) (c : SIss) : Seq → Seq :=
  if gangDone c then fun q => (gangGiven c q).onward s.clk (c.q.pc + 1) c.x.yld else gangGiven c

theorem append_given {α : Type} (b : Bool) (l m : List α) : (if b = true then l ++ m else l) = l ++ (if b = true then m else []) := by
  cases b with
  | false => exact (List.append_nil l).symm
  | true => rfl

theorem gangTurn_done {c : SIss} (h : gangDone c = true) (s : State) : gangTurn s c c.q =
    { seqNext s c.x c (c.q.pc + 1) with
      jobs := c.q.jobs ++ homeGiven c, jobsP := c.q.jobsP ++ otherGiven c, shares := 0 } := by
  simp only [gangTurn, gangGiven, append_given, h, if_true]
  rfl

theorem gangTurn_partial {c : SIss} (h : gangDone c = false) (s : State) : gangTurn s c c.q = { c.q with
    jobs := c.q.jobs ++ homeGiven c, jobsP := c.q.jobsP ++ otherGiven c
    shares := BitVec.ofNat 2 ((c.q.shares.getLsbD 0 || startsHome c).toNat + 2 * (otherStarted c || startsOther c).toNat) } := by
  simp only [gangTurn, gangGiven, append_given, h, Bool.false_eq_true, if_false]
  rfl

/-- The operands of a GANG pass their checks where each of its products does. -/
theorem gangChecks_pass {c : SIss} (hpartner : c.t.partner.isSome = true)
    (hok : ∀ j ∈ (gangWork c).1 :: (gangWork c).2.toList, productOk c.t (sget c.q.q c.x.c.idx) j = true) :
    (c.t.partner.isNone || !productOk c.t (sget c.q.q c.x.c.idx) (gangWork c).1 ||
      ((gangWork c).2.map (fun j => !productOk c.t (sget c.q.q c.x.c.idx) j)).getD false) = false := by
  have hother : ((gangWork c).2.map (fun j => !productOk c.t (sget c.q.q c.x.c.idx) j)).getD false = false := by
    cases h : (gangWork c).2 with
    | none => rfl
    | some j => simp [hok j (by simp [h])]
  rw [hok _ List.mem_cons_self, hother, ← Option.not_isSome, hpartner]
  rfl

/-- A GANG whose operands pass their checks and of which a share may start. -/
theorem gang_completes {pre : State → Enc → SIss → Prop} {post : State → Enc → SIss → Team → Prop}
    (h : ∀ s c, pre s c.x c → c.t.partner.isSome = true ∧
      (∀ j ∈ (gangWork c).1 :: (gangWork c).2.toList, productOk c.t (sget c.q.q c.x.c.idx) j = true) ∧
      (startsHome c = true ∨ startsOther c = true) ∧ post s c.x c { c.t with seq := some (gangTurn s c c.q) }) :
    SeqCompletes .gang .gang pre post := by
  refine seqCompletes_seq gangTurn (fun _ _ => rfl) (fun s c hpre => ?_) fun s c hpre => (h s c hpre).2.2.2
  obtain ⟨hpartner, hok, hstarts, -⟩ := h s c hpre
  have hchecks := gangChecks_pass hpartner hok
  have hgo : (!startsHome c && !startsOther c) = false := by
    rcases hstarts with hs | hs <;> simp [hs]
  change (if (c.t.partner.isNone || !productOk c.t (sget c.q.q c.x.c.idx) (gangWork c).1 ||
      ((gangWork c).2.map (fun j => !productOk c.t (sget c.q.q c.x.c.idx) j)).getD false) = true then seqIllegal s c
    else if (!startsHome c && !startsOther c) = true then s
    else if gangDone c = true then seqAdvance (modSeq s c.tid (gangGiven c)) c else modSeq s c.tid (gangGiven c)) = _
  rw [hchecks, hgo, seqAdvance_modSeq, ← apply_ite (modSeq s c.tid)]
  rfl

theorem startsHome_iff (c : SIss) :
    startsHome c = true ↔ c.q.shares.getLsbD 0 = false ∧ slotsReady c.t 0 (gangWork c).1 = true := by
  rw [startsHome, Bool.and_eq_true, Bool.not_eq_true']

theorem startsOther_iff (c : SIss) : startsOther c = true ↔
    c.q.shares.getLsbD 1 = false ∧ ∃ j, (gangWork c).2 = some j ∧ slotsReady c.t 1 j = true := by
  cases h : (gangWork c).2 <;> simp [startsOther, otherStarted, h]

theorem otherStarted_iff (c : SIss) : otherStarted c = true ↔ c.q.shares.getLsbD 1 = true ∨ (gangWork c).2 = none := by
  rw [otherStarted, Bool.or_eq_true, Option.isNone_iff_eq_none]

theorem gangDone_iff (c : SIss) : gangDone c = true ↔
    (c.q.shares.getLsbD 0 = true ∨ startsHome c = true) ∧ (otherStarted c = true ∨ startsOther c = true) := by
  rw [gangDone, Bool.and_eq_true, Bool.or_eq_true, Bool.or_eq_true]

theorem homeGiven_of_starts {c : SIss} (h : startsHome c = true) : homeGiven c = [(gangWork c).1] := if_pos h

theorem homeGiven_of_not_starts {c : SIss} (h : startsHome c = false) : homeGiven c = [] := by
  rw [homeGiven, h]
  rfl

theorem otherGiven_of_starts {c : SIss} (h : startsOther c = true) : otherGiven c = (gangWork c).2.toList := if_pos h

theorem otherGiven_of_not_starts {c : SIss} (h : startsOther c = false) : otherGiven c = [] := by
  rw [otherGiven, h]
  rfl

/-- The partner is given its share where it starts; where there is none, that is no work. -/
theorem otherGiven_eq_toList {c : SIss} (h : (gangWork c).2 = none ∨ startsOther c = true) :
    otherGiven c = (gangWork c).2.toList := by
  rcases h with h | h
  · rw [otherGiven, h]
    exact ite_self []
  · exact otherGiven_of_starts h

/-! The turn of a GANG by the shares that have started before it. -/

/-- No share has started, and what there is to start may start. -/
theorem gangTurn_all {c : SIss} (hshares : c.q.shares = 0) (hhome : slotsReady c.t 0 (gangWork c).1 = true)
    (hother : (gangWork c).2 = none ∨ ∃ j, (gangWork c).2 = some j ∧ slotsReady c.t 1 j = true) (s : State) :
    startsHome c = true ∧ gangTurn s c c.q = { seqNext s c.x c (c.q.pc + 1) with
      jobs := c.q.jobs ++ [(gangWork c).1], jobsP := c.q.jobsP ++ (gangWork c).2.toList } := by
  have hstarts : startsHome c = true := (startsHome_iff c).2 ⟨by rw [hshares]; rfl, hhome⟩
  have hrest : (gangWork c).2 = none ∨ startsOther c = true :=
    hother.imp_right fun hready => (startsOther_iff c).2 ⟨by rw [hshares]; rfl, hready⟩
  have hdone : gangDone c = true :=
    (gangDone_iff c).2 ⟨.inr hstarts, hrest.imp_left fun hnone => (otherStarted_iff c).2 (.inr hnone)⟩
  rw [gangTurn_done hdone, homeGiven_of_starts hstarts, otherGiven_eq_toList hrest, ← hshares]
  exact ⟨hstarts, rfl⟩

/-- No share has started, and the partner's may not start yet. -/
theorem gangTurn_home {c : SIss} (hshares : c.q.shares = 0) (hhome : slotsReady c.t 0 (gangWork c).1 = true)
    (hsome : (gangWork c).2 ≠ none) (hother : ¬ ∃ j, (gangWork c).2 = some j ∧ slotsReady c.t 1 j = true) (s : State) :
    startsHome c = true ∧ gangTurn s c c.q =
      { c.q with jobs := c.q.jobs ++ [(gangWork c).1], jobsP := c.q.jobsP ++ [], shares := 1 } := by
  have hstarts : startsHome c = true := (startsHome_iff c).2 ⟨by rw [hshares]; rfl, hhome⟩
  have hwaits : startsOther c = false := Bool.eq_false_iff.2 fun h => hother ((startsOther_iff c).1 h).2
  have hleft : otherStarted c = false := by
    rw [otherStarted, hshares, Option.isNone_eq_false_iff.2 (Option.isSome_iff_ne_none.2 hsome)]
    rfl
  have hpartial : gangDone c = false := by rw [gangDone, hleft, hwaits]; exact Bool.and_false _
  rw [gangTurn_partial hpartial, homeGiven_of_starts hstarts, otherGiven_of_not_starts hwaits, hshares, hstarts, hwaits, hleft]
  exact ⟨rfl, rfl⟩

/-- No share has started, and the home core's may not start yet. -/
theorem gangTurn_other {c : SIss} (hshares : c.q.shares = 0) (hhome : ¬ slotsReady c.t 0 (gangWork c).1 = true)
    (hother : ∃ j, (gangWork c).2 = some j ∧ slotsReady c.t 1 j = true) (s : State) :
    startsOther c = true ∧ gangTurn s c c.q =
      { c.q with jobs := c.q.jobs ++ [], jobsP := c.q.jobsP ++ (gangWork c).2.toList, shares := 2 } := by
  have hstarts : startsOther c = true := (startsOther_iff c).2 ⟨by rw [hshares]; rfl, hother⟩
  have hwaits : startsHome c = false := Bool.eq_false_iff.2 fun h => hhome ((startsHome_iff c).1 h).2
  have hpartial : gangDone c = false := by rw [gangDone, hshares, hwaits]; rfl
  rw [gangTurn_partial hpartial, homeGiven_of_not_starts hwaits, otherGiven_of_starts hstarts, hshares, hstarts, hwaits,
    Bool.or_true]
  exact ⟨rfl, rfl⟩

/-- The home core's share has started, and the partner's may start. -/
theorem gangTurn_otherLast {c : SIss} (hshares : c.q.shares = 1)
    (hother : ∃ j, (gangWork c).2 = some j ∧ slotsReady c.t 1 j = true) (s : State) :
    startsOther c = true ∧ gangTurn s c c.q = { seqNext s c.x c (c.q.pc + 1) with
      jobs := c.q.jobs ++ [], jobsP := c.q.jobsP ++ (gangWork c).2.toList, shares := 0 } := by
  have hstarts : startsOther c = true := (startsOther_iff c).2 ⟨by rw [hshares]; rfl, hother⟩
  have hwaits : startsHome c = false := by rw [startsHome, hshares]; rfl
  have hdone : gangDone c = true := (gangDone_iff c).2 ⟨.inl (by rw [hshares]; rfl), .inr hstarts⟩
  rw [gangTurn_done hdone, homeGiven_of_not_starts hwaits, otherGiven_of_starts hstarts]
  exact ⟨hstarts, rfl⟩

/-- The partner's share has started, and the home core's may start. -/
theorem gangTurn_homeLast {c : SIss} (hshares : c.q.shares = 2) (hhome : slotsReady c.t 0 (gangWork c).1 = true) (s : State) :
    startsHome c = true ∧ gangTurn s c c.q = { seqNext s c.x c (c.q.pc + 1) with
      jobs := c.q.jobs ++ [(gangWork c).1], jobsP := c.q.jobsP ++ [], shares := 0 } := by
  have hstarts : startsHome c = true := (startsHome_iff c).2 ⟨by rw [hshares]; rfl, hhome⟩
  have hother : otherStarted c = true := (otherStarted_iff c).2 (.inl (by rw [hshares]; rfl))
  have hwaits : startsOther c = false := by rw [startsOther, hother]; rfl
  have hdone : gangDone c = true := (gangDone_iff c).2 ⟨.inr hstarts, .inl hother⟩
  rw [gangTurn_done hdone, homeGiven_of_starts hstarts, otherGiven_of_not_starts hwaits]
  exact ⟨hstarts, rfl⟩

/-! ### A step of the array (R88, R317) -/

/-- Without an armed injection an array step counts none and meets no error (R260). -/
theorem injectStep_of_none {s : State} (h : ∀ e ∈ s.groups, e.2.inj = none) (tid rows : Nat) :
    injectStep s tid rows = (s, false) :=
  foldl_keeps (fun r : State × Bool => r = (s, false)) _ s.groups (s, false) rfl fun r e he hr => by
    simp only [h e he, hr]

/-- Settles O46: a product, a share of a GANG and a SCACC are given to an array by one change of the sequencer, and a step
without an armed injection meets no error. -/
theorem matrixWorkIsGivenAndPerformed : Obligations.MatrixWorkIsGivenAndPerformed := by
  unfold Obligations.MatrixWorkIsGivenAndPerformed
  refine ⟨?mma, ?cplx, ?tern, ⟨?both, ?home, ?other, ?otherLast, ?homeLast⟩, ?scacc, fun tid side t q j rest => ?step⟩
  case mma => exact given_completes _ (fun _ _ => rfl) fun s c ⟨hok, hready⟩ => issueMma_gives s rfl hok hready
  case cplx => exact given_completes _ (fun _ _ => rfl) fun s c ⟨hok, hready⟩ => issueMma_gives s rfl hok hready
  case tern => exact given_completes _ (fun _ _ => rfl) fun s c ⟨hok, hready⟩ => issueMma_gives s rfl hok hready
  case both =>
    refine gang_completes fun s c ⟨⟨hpartner, hshares, hok⟩, hhome, hrest⟩ => ?_
    obtain ⟨hstarts, hturn⟩ := gangTurn_all hshares hhome hrest s
    exact ⟨hpartner, hok, .inl hstarts, congrArg (fun q => { c.t with seq := some q }) hturn⟩
  case home =>
    refine gang_completes fun s c ⟨⟨hpartner, hshares, hok⟩, hhome, hsome, hother⟩ => ?_
    obtain ⟨hstarts, hturn⟩ := gangTurn_home hshares hhome hsome hother s
    exact ⟨hpartner, hok, .inl hstarts, congrArg (fun q => { c.t with seq := some q }) hturn⟩
  case other =>
    refine gang_completes fun s c ⟨⟨hpartner, hshares, hok⟩, hhome, hother⟩ => ?_
    obtain ⟨hstarts, hturn⟩ := gangTurn_other hshares hhome hother s
    exact ⟨hpartner, hok, .inr hstarts, congrArg (fun q => { c.t with seq := some q }) hturn⟩
  case otherLast =>
    refine gang_completes fun s c ⟨⟨hpartner, hshares, hok⟩, hother⟩ => ?_
    obtain ⟨hstarts, hturn⟩ := gangTurn_otherLast hshares hother s
    exact ⟨hpartner, hok, .inr hstarts, congrArg (fun q => { c.t with seq := some q }) hturn⟩
  case homeLast =>
    refine gang_completes fun s c ⟨⟨hpartner, hshares, hok⟩, hhome⟩ => ?_
    obtain ⟨hstarts, hturn⟩ := gangTurn_homeLast hshares hhome s
    exact ⟨hpartner, hok, .inl hstarts, congrArg (fun q => { c.t with seq := some q }) hturn⟩
  case scacc =>
    refine given_completes (fun _ c => scaccJob c) (fun _ _ => rfl) fun s c ⟨hok, hready⟩ => ?_
    simp only [hok, hready]
    rfl
  case step =>
    refine stepGives_runs (fun _ => rfl) fun s ⟨hteam, hseq, hjobs, hheld, hstopped, hinj⟩ => ?_
    simp only [arrayStep, hteam, hseq, hjobs, hheld, hstopped, injectStep_of_none hinj, Bool.or_false]
    rfl

end Sys2Proof.Machine
end

section
/-!
Accumulator instructions: ACC.ZERO (R310), the accesses of ACC.LOAD and ACC.STORE (R129, R310, R312) and ACC.MOVE (R311).
-/
namespace Sys2Proof.Machine
open Sys2Proof Sys2Proof.Safety

/-! ### ACC.ZERO (R310) -/

theorem mget_filter_key {α : Type} (m : Amap α) (p : Nat → Bool) (k : Nat) :
    mget (m.filter (fun e => p e.1)) k = if p k = true then mget m k else none := by
  induction m with
  | nil => exact (ite_self none).symm
  | cons e m ih =>
    obtain ⟨i, v⟩ := e
    by_cases hik : i = k
    · subst hik
      cases hp : p i <;> simp [mget, ih, hp]
    · cases hp : p i <;> simp [mget, ih, hp, hik]

/-- The words of the cells of a window. -/
def windowWords (v : View) (w : Window) : List Nat :=
  (List.range w.rows).flatMap (fun r => (List.range w.cols).flatMap (fun k => cellWords v (w.r0 + r) (w.c0 + k)))

theorem mem_windowWords {v : View} {w : Window} {k : Nat} : k ∈ windowWords v w ↔
    ∃ r i, r < w.rows ∧ i < w.cols ∧ k ∈ cellWords v (w.r0 + r) (w.c0 + i) := by
  simp only [windowWords, List.mem_flatMap, List.mem_range]
  exact ⟨fun ⟨r, hr, i, hi, hk⟩ => ⟨r, i, hr, hi, hk⟩, fun ⟨r, i, hr, hi, hk⟩ => ⟨r, hr, i, hi, hk⟩⟩

theorem zeroWindow_acc (v : View) (w : Window) (c : PCore) :
    (zeroWindow v w c).acc = c.acc.filter (fun e => !(windowWords v w).contains e.1) := rfl

/-- ACC.ZERO leaves +0 in the words of its window and every other word as it was. -/
theorem sget_zeroWindow (v : View) (w : Window) (c : PCore) (k : Nat) :
    sget (zeroWindow v w c).acc k = if k ∈ windowWords v w then 0 else sget c.acc k := by
  rw [zeroWindow_acc, sget, mget_filter_key c.acc (fun k => !(windowWords v w).contains k)]
  by_cases hk : k ∈ windowWords v w
  · simp only [List.contains_eq_mem, hk, decide_true, Bool.not_true, Bool.false_eq_true, if_false, if_true]
    rfl
  · simp only [List.contains_eq_mem, hk, decide_false, Bool.not_false, if_false, if_true, sget]

theorem zeroWindow_frame (v : View) (w : Window) (c : PCore) :
    zeroWindow v w c = { c with acc := (zeroWindow v w c).acc, accPoison := (zeroWindow v w c).accPoison } := rfl

theorem accZero_gives : GivesQ .accZero .accZero
    (fun _ x c => parOk c = true ∧ windowOk (accView x) (windowFrom (sget c.q.q x.d.idx)) = true ∧ arrayIdle c.q = true)
    (fun s x c => seqAdvance (modCore s (sideCore c.t (accSide x))
      (zeroWindow (accView x) (windowFrom (sget c.q.q x.d.idx)))) c) := by
  refine givesQ_runs (fun _ _ => rfl) fun s c ⟨hpar, hwindow, hidle⟩ => ?_
  simp only [hpar, hwindow, hidle]
  rfl

theorem coreOf_mput {s : State} {m : Amap PCore} {core : Nat} {k : PCore} (h : s.cores = mput m core k) :
    coreOf s core = k := by
  rw [coreOf, mgetD, h, mget_mput, if_pos rfl]
  rfl

/-- The state after a change of a core, when the sequencer has gone on. -/
theorem seqAdvance_modCore {s : State} {c : SIss} (hteam : mget s.teams c.tid = some c.t) (hseq : c.t.seq = some c.q)
    (core : Nat) (f : PCore → PCore) : seqAdvance (modCore s core f) c = { s with
      cores := mput s.cores core (f (coreOf s core))
      teams := mput s.teams c.tid { c.t with seq := some (seqNext s c.x c (c.q.pc + 1)) } } := by
  rw [seqAdvance, seqGoOn, modSeq, modTeam_eq (s := modCore s core f) hteam, hseq]
  rfl

/-! ### ACC.LOAD and ACC.STORE (R310, R312) -/

/-- The access of ACC.LOAD (kind 0) and ACC.STORE (kind 1). -/
theorem issueAccMem_gives {i : Enc → Instr} {op : Op} (kind : Nat)
    (hi : ∀ x s, exec (i x) s = issueQ op x s (issueAccMem kind)) :
    GivesQ i op (fun s x c => (parOk c = true ∧ windowOk (accView x) (windowFrom (sget c.q.q x.d.idx)) = true ∧
        arrayIdle c.q = true) ∧ memReady s c.t.part = true ∧
        (kind = 1 → isRelease x.order = true → seqReleaseWaits s c.t x.scope = false) ∧
        (sget c.q.q x.a.idx).toNat % accBytesOf x = 0 ∧ qBytes c.q x x.b % accBytesOf x = 0)
      (fun s x c => paced c (performSeq s c.tid
        { pc := c.q.pc, kind, e := accBytesOf x, side := accSide x, win := windowFrom (sget c.q.q x.d.idx)
          base := (sget c.q.q x.a.idx).toInt, pitch := qBytes c.q x x.b
          rows := List.range (windowFrom (sget c.q.q x.d.idx)).rows, order := x.order, scope := x.scope
          h1 := x.h1.toNat, h2 := x.h2.toNat })) := by
  refine givesQ_runs (body := fun _ => issueAccMem kind) hi fun s c ⟨⟨hpar, hwindow, hidle⟩, hready, hrelease, hbase, hpitch⟩ => ?_
  have hgo : (decide (kind = 1) && isRelease c.x.order && seqReleaseWaits s c.t c.x.scope) = false := by
    rw [Bool.and_eq_false_imp, Bool.and_eq_true, decide_eq_true_eq]
    exact fun ⟨hkind, horder⟩ => hrelease hkind horder
  simp only [issueAccMem, hpar, hwindow, hidle, hready, hgo, hbase, hpitch]
  rfl

theorem filter_const_true {α : Type} (l : List α) : l.filter (fun _ => true) = l := List.filter_eq_self.2 fun _ _ => rfl

/-- The cells of an access of which no row has failed and none is performed yet, row by row. -/
theorem cellsLeft_of_none {q : Seq} (h : q.early = []) (a : SeqAcc) (rows : List Nat) :
    cellsLeft q a rows = rows.flatMap (fun r => (List.range a.win.cols).map (fun k => (r, k))) := by
  rw [cellsLeft, h]
  exact filter_const_true _

theorem rowFails_eq_nil {s : State} {t : Team} {a : SeqAcc} (h : ∀ r ∈ a.rows, rowFail s t a r = none) :
    a.rows.filterMap (fun r => (rowFail s t a r).map (fun f => (r, f))) = [] :=
  List.filterMap_eq_nil_iff.2 fun r hr => by rw [h r hr]; rfl

/-- A load whose rows all reach their cells, none of them performed before: its cells are read in order, after the acquire. -/
theorem performSeq_load {s : State} {tid : Nat} {t : Team} {q : Seq} {a : SeqAcc} (hteam : mget s.teams tid = some t)
    (hseq : t.seq = some q) (honly : q.only = none) (hearly : q.early = []) (hrows : ∀ r ∈ a.rows, rowFail s t a r = none)
    (hkind : a.kind = 0 ∨ a.kind = 2) :
    performSeq s tid a = seqDone ((a.rows.flatMap (fun r => (List.range a.win.cols).map (fun k => (r, k)))).foldl
      (performCell t tid a) (modSeq (if seqWide t a.scope && isAcquire a.order then l1DropClean s t.home else s) tid
        (fun q => { q with only := none }))) tid a := by
  have hload : (decide (a.kind = 0) || decide (a.kind = 2)) = true := by
    rwa [Bool.or_eq_true, decide_eq_true_eq, decide_eq_true_eq]
  simp only [performSeq, hteam, hseq, honly, rowFails_eq_nil hrows, List.any_nil, Bool.not_false, filter_const_true,
    cellsLeft_of_none hearly, hload]
  simp only [List.isEmpty_nil, Bool.not_true, Bool.and_true, Bool.and_false, Bool.false_and, Bool.false_eq_true,
    if_true, if_false]

/-- A store whose rows all reach their cells, none of them performed before: its cells are written in the store order, with
the release. -/
theorem performSeq_store {s : State} {tid : Nat} {t : Team} {q : Seq} {a : SeqAcc} (hteam : mget s.teams tid = some t)
    (hseq : t.seq = some q) (honly : q.only = none) (hearly : q.early = []) (hrows : ∀ r ∈ a.rows, rowFail s t a r = none)
    (hkind : a.kind ≠ 0) (hkind2 : a.kind ≠ 2) :
    let wide := seqWide t a.scope
    let u := seqStore (modSeq (if wide && isRelease a.order then l1WriteBackAll s t.home else s) tid
      (fun q => { q with only := none })) t tid a (a.rows.flatMap (fun r => (List.range a.win.cols).map (fun k => (r, k))))
    performSeq s tid a = seqDone (if wide && isRelease a.order then l1WriteBackAll u t.home else u) tid a := by
  have hload : (decide (a.kind = 0) || decide (a.kind = 2)) = false := by
    rw [decide_eq_false hkind, decide_eq_false hkind2]
    rfl
  simp only [performSeq, hteam, hseq, honly, rowFails_eq_nil hrows, List.any_nil, Bool.not_false, filter_const_true,
    cellsLeft_of_none hearly, hload]
  simp only [List.isEmpty_nil, Bool.not_true, Bool.and_true, Bool.and_false, Bool.false_and, Bool.false_eq_true,
    if_true, if_false]

/-! ### ACC.MOVE (R311) -/

theorem accMove_gives (gid : Nat) (g : Group) : GivesQ .accMove .accMove (fun s x c =>
      targetGroup s c = some (gid, g) ∧ parOk c = true ∧
      g.core = sideCore c.t (accSide x) ∧ moveReg x + moveCount x ≤ g.nv ∧
      (x.ty = .f64 → moveReg x % 2 = 0 ∧ moveCount x % 2 = 0) ∧
      (∀ j i, j < moveCount x → i < g.width →
        cellInView (accView x) (moveCell x (windowFrom (sget c.q.q x.d.idx)) j i).1
          (moveCell x (windowFrom (sget c.q.q x.d.idx)) j i).2 = true) ∧
      arrayIdle c.q = true ∧ targetFree g x = true)
    (fun s x c =>
      let k := coreOf s (sideCore c.t (accSide x))
      sendData s c gid g (if x.ty = .f64 then 2 else 1) (fun j i =>
        let ws := cellWords (accView x) (moveCell x (windowFrom (sget c.q.q x.d.idx)) j i).1
          (moveCell x (windowFrom (sget c.q.q x.d.idx)) j i).2
        (BitVec.ofNat 32 (cellGet k.acc ws / 2 ^ (if x.ty = .f64 then 32 * (j % 2) else 0)), cellBad k.accPoison ws))) := by
  refine givesQ_runs (fun _ _ => rfl) fun s c ⟨htarget, hpar, hcore, hregs, hpairs, hcells, hidle, hfree⟩ => ?_
  have hview : ((List.range (moveCount c.x)).all fun j => (List.range g.width).all fun i =>
      cellInView (accView c.x) (moveCell c.x (windowFrom (sget c.q.q c.x.d.idx)) j i).1
        (moveCell c.x (windowFrom (sget c.q.q c.x.d.idx)) j i).2) = true :=
    List.all_eq_true.2 fun j hj => List.all_eq_true.2 fun i hi => hcells j i (List.mem_range.1 hj) (List.mem_range.1 hi)
  have heven : (c.x.ty == .f64 && (decide (moveReg c.x % 2 ≠ 0) || decide (moveCount c.x % 2 ≠ 0))) = false := by
    rw [Bool.and_eq_false_imp, beq_iff_eq]
    intro hty
    simp [hpairs hty]
  simp only [htarget, hpar, hcore, hview, heven, hidle, hfree, Nat.not_lt.2 hregs, beq_iff_eq]
  simp only [Bool.not_true, ne_eq, not_true_eq_false, decide_false, Bool.or_self, Bool.false_eq_true, if_false]

/-- Settles O47: the words of a window are filtered out of the store, an access of which no row fails performs all its cells,
and ACC.MOVE sends the cells of its window. -/
theorem accumulatorInstructions : Obligations.AccumulatorInstructions := by
  unfold Obligations.AccumulatorInstructions
  refine ⟨?zero, ⟨?load, ?store⟩, ?perform, accMove_gives⟩
  case zero =>
    intro s x c h hok
    obtain rfl := h.isEnc
    refine ⟨_, (accZero_gives s c.x c h hok).trans (congrArg _ (seqAdvance_modCore h.team h.seq _ _)), rfl, ?team,
      fun k hk => ?_, fun k hk => ?_, ?frame, fun k hk => ?_, fun k hk => ?_⟩
    case team => rw [mget_mput, if_pos rfl]
    · rw [mget_mput, if_neg (Ne.symm hk)]
    · rw [mget_mput, if_neg (Ne.symm hk)]
    case frame => rw [coreOf_mput rfl, zeroWindow_frame]
    · rw [coreOf_mput rfl, sget_zeroWindow, if_pos (mem_windowWords.2 hk)]
    · rw [coreOf_mput rfl, sget_zeroWindow, if_neg fun h => hk (mem_windowWords.1 h)]
  case load =>
    exact issueAccMem_gives 0 (fun _ _ => rfl)
  case store =>
    exact issueAccMem_gives 1 (fun _ _ => rfl)
  case perform =>
    intro s tid t q a hteam hseq honly hearly hrows
    exact ⟨performSeq_load hteam hseq honly hearly hrows, performSeq_store hteam hseq honly hearly hrows⟩

end Sys2Proof.Machine
end

section
/-!
The HBM channels: a request is served, a row's activations are counted, and rows and pins are repaired (R321, R344 to R349).
-/
namespace Sys2Proof.Machine
open Sys2Proof Sys2Proof.Safety

@[simp] theorem chanOf_modChan (s : State) (ch : Nat) (f : Channel → Channel) :
    chanOf (modChan s ch f) ch = f (chanOf s ch) := by
  simp [modChan, chanOf, mgetD]

@[simp] theorem bankAt_mput (c : Channel) (b : Nat) (k : Bank) : bankAt { c with banks := mput c.banks b k } b = k := by
  simp [bankAt, mgetD]

@[simp] theorem chanOf_modBank (s : State) (ch b : Nat) (f : Bank → Bank) : chanOf (modBank s ch b f) ch =
    { chanOf s ch with banks := mput (chanOf s ch).banks b (f (bankAt (chanOf s ch) b)) } :=
  chanOf_modChan _ _ _

/-! ### An activation is counted (R347) -/

@[simp] theorem addDue_rows (k : Bank) (t n code : Nat) : (addDue k t n code).rows = k.rows := by
  rw [addDue, apply_ite Bank.rows, ite_self]

@[simp] theorem addDue_pools (k : Bank) (t n code : Nat) : (addDue k t n code).pools = k.pools := by
  rw [addDue, apply_ite Bank.pools, ite_self]

section
variable {k : Bank} {row : Nat} (t : Nat)

theorem countRow_of_entry {n : Nat} (h : mget k.rows row = some n) :
    mget (countRow t row k).rows row = some (n + 1) ∧ (countRow t row k).pools = k.pools := by
  simp [countRow, h]

theorem countRow_of_free (h : mget k.rows row = none) (hroom : k.rows.length < 512) :
    mget (countRow t row k).rows row = some 1 ∧ (countRow t row k).pools = k.pools := by
  simp [countRow, h, hroom]

theorem countRow_of_full (h : mget k.rows row = none) (hfull : 512 ≤ k.rows.length) : (countRow t row k).rows = k.rows ∧
    mget (countRow t row k).pools (row / 1024) = some (mgetD k.pools (row / 1024) 0 + 1) := by
  simp [countRow, h, Nat.not_lt.2 hfull]
end

/-! ### A burst is checked (R321, R323) -/

@[simp] theorem chanOf_countCorrected (s : State) (u : StoreUnit) (ch : Nat) : chanOf (countCorrected s u) ch = chanOf s ch :=
  rfl

@[simp] theorem chanOf_addPoison (s : State) (line : Nat) (m : BitVec 8) (ch : Nat) : chanOf (addPoison s line m) ch = chanOf s ch :=
  rfl

@[simp] theorem checkBurst_nil (ch line : Nat) (s : State) (burst : Nat) : checkBurst ch line [] s burst = s := rfl

section
variable {lanes : List Nat} {burst : Nat} (ch line : Nat) (s : State)

theorem checkBurst_of_sound (h : lostIn lanes burst = []) : checkBurst ch line lanes s burst = s := by
  rw [checkBurst, h]

theorem checkBurst_of_one {l : Nat} (h : lostIn lanes burst = [l]) : checkBurst ch line lanes s burst =
    modChan (countCorrected s (.hbm ch)) ch (fun c => { c with corrected := mput c.corrected l (mgetD c.corrected l 0 + 1) }) := by
  rw [checkBurst, h]

theorem checkBurst_of_more {l l' : Nat} {ls : List Nat} (h : lostIn lanes burst = l :: l' :: ls) :
    checkBurst ch line lanes s burst = addPoison s line (BitVec.ofNat 8 (0xF * 16 ^ burst)) := by
  rw [checkBurst, h]
end

/-- Of its channel a check changes the counts of corrected errors only. -/
theorem checkBurst_channel (ch line : Nat) (lanes : List Nat) (s : State) (burst : Nat) :
    ∃ m, chanOf (checkBurst ch line lanes s burst) ch = { chanOf s ch with corrected := m } := by
  match h : lostIn lanes burst with
  | [] => exact ⟨_, by rw [checkBurst_of_sound ch line s h]⟩
  | [l] => exact ⟨_, by rw [checkBurst_of_one ch line s h, chanOf_modChan, chanOf_countCorrected]⟩
  | l :: l' :: ls => exact ⟨_, by rw [checkBurst_of_more ch line s h, chanOf_addPoison]⟩

/-! ### A request is served (R347, R349) -/

/-- The channel's request for address `a` is taken: it leaves the queue, its latency and its activation are counted. -/
def takeRequest (s : State) (ch : Nat) (act : Bool) (ns a : Nat) : State :=
  let c := chanOf s ch
  let s1 := modChan s ch (fun c => { c with
    queue := dropFirst (mayGo c) c.queue, drain := c.drain - c.paused.toNat
    lat := sput c.lat (latencyBucket ns) (sget c.lat (latencyBucket ns) + 1) })
  if act then modBank s1 ch (bankOf a) (countRow (rowThreshold s ch) (physRow c (bankOf a) (rowOf a))) else s1

section
variable (s : State) (ch ns a : Nat) (lanes : List Nat)

@[simp] theorem takeRequest_poison (act : Bool) : (takeRequest s ch act ns a).poison = s.poison := by
  cases act <;> rfl

theorem chanOf_takeRequest (act : Bool) : chanOf (takeRequest s ch act ns a) ch = { chanOf s ch with
    queue := dropFirst (mayGo (chanOf s ch)) (chanOf s ch).queue
    drain := (chanOf s ch).drain - (chanOf s ch).paused.toNat
    lat := sput (chanOf s ch).lat (latencyBucket ns) (sget (chanOf s ch).lat (latencyBucket ns) + 1)
    banks := if act then mput (chanOf s ch).banks (bankOf a) (countRow (rowThreshold s ch)
      (physRow (chanOf s ch) (bankOf a) (rowOf a)) (bankAt (chanOf s ch) (bankOf a))) else (chanOf s ch).banks } := by
  cases act with
  | false => simp [takeRequest]
  | true => simp [takeRequest, bankAt]

@[simp] theorem takeRequest_corrected (act : Bool) :
    (chanOf (takeRequest s ch act ns a) ch).corrected = (chanOf s ch).corrected := by
  rw [chanOf_takeRequest]

variable {s ch a} {w : Bool} (h : (served (chanOf s ch)).find? (mayGo (chanOf s ch)) = some (a, w)) (act : Bool)
include h

theorem completeRequest_eq : completeRequest s ch act ns lanes = if w then takeRequest s ch act ns a
    else [0, 1].foldl (checkBurst ch (a / 128) lanes) (takeRequest s ch act ns a) := by
  rw [completeRequest, h]
  rfl

/-- A write, and a read that lost no lane, is only taken. -/
theorem completeRequest_of_unchecked (hw : w = true ∨ lanes = []) :
    completeRequest s ch act ns lanes = takeRequest s ch act ns a := by
  rw [completeRequest_eq ns lanes h]
  rcases hw with rfl | rfl
  · rfl
  · simp

/-- Where the second burst lost no lane, the first alone is checked. -/
theorem completeRequest_of_first (hw : w = false) (hsecond : lostIn lanes 1 = []) :
    completeRequest s ch act ns lanes = checkBurst ch (a / 128) lanes (takeRequest s ch act ns a) 0 := by
  rw [completeRequest_eq ns lanes h, hw]
  exact checkBurst_of_sound _ _ _ hsecond

theorem chanOf_completeRequest :
    ∃ m, chanOf (completeRequest s ch act ns lanes) ch = { chanOf (takeRequest s ch act ns a) ch with corrected := m } := by
  rw [completeRequest_eq ns lanes h]
  cases w with
  | true => exact ⟨_, rfl⟩
  | false =>
    refine foldl_keeps (fun t => ∃ m, chanOf t ch = { chanOf (takeRequest s ch act ns a) ch with corrected := m }) _ _ _
      ⟨_, rfl⟩ fun t burst _ ⟨m, hm⟩ => ?_
    obtain ⟨m', hm'⟩ := checkBurst_channel ch (a / 128) lanes t burst
    exact ⟨m', by rw [hm', hm]⟩

end

/-- Settles O55: of a served request's channel only the counts of corrected errors depend on the check of the read, the rest is
that of `takeRequest`; the other steps are one branch of their functions each. -/
theorem hbmChannelSteps : Obligations.HbmChannelSteps := by
  unfold Obligations.HbmChannelSteps
  intro ch bank
  refine ⟨?request, ?serves, ?threshold, ?holdEnd, ?window, ?remap, ?repair⟩
  case request =>
    exact fun act ns lanes => stepGives_runs (fun _ => rfl) fun s hready => if_pos hready
  case serves =>
    intro s act ns a w lanes c hfind t d k k' row
    obtain ⟨m, hm⟩ := chanOf_completeRequest ns lanes hfind act
    rw [chanOf_takeRequest] at hm
    have hcounted : act = true → k' = countRow (rowThreshold s ch) row k := by
      rintro rfl
      exact (congrArg (bankAt · (bankOf a)) hm).trans (bankAt_mput { c with corrected := m } (bankOf a) _)
    refine ⟨congrArg Channel.queue hm, congrArg Channel.lat hm, ?idle, ?activates, ?unchecked, ?one, ?more⟩
    case idle =>
      rintro rfl
      refine (congrArg Channel.banks hm).trans ?_
      rfl
    case activates =>
      intro hact
      rw [hcounted hact]
      exact ⟨fun n => countRow_of_entry _, countRow_of_free _, countRow_of_full _⟩
    case unchecked =>
      intro hw
      have ht : t = takeRequest s ch act ns a := completeRequest_of_unchecked ns lanes hfind act hw
      simp only [d, ht, takeRequest_poison, takeRequest_corrected, c, and_self]
    case one =>
      intro l hw hfirst hsecond
      have ht : t = _ := (completeRequest_of_first ns lanes hfind act hw hsecond).trans (checkBurst_of_one _ _ _ hfirst)
      have hc : d.corrected = mput c.corrected l (mgetD c.corrected l 0 + 1) := by
        simp only [d, ht, chanOf_modChan, chanOf_countCorrected, takeRequest_corrected, c]
      exact ⟨(congrArg State.poison ht).trans (takeRequest_poison s ch ns a act), by rw [hc, mget_mput, if_pos rfl]⟩
    case more =>
      intro l l' ls hw hfirst hsecond
      have ht : t = _ := (completeRequest_of_first ns lanes hfind act hw hsecond).trans (checkBurst_of_more _ _ _ hfirst)
      exact ⟨by simp [ht, addPoison], by simp only [d, ht, chanOf_addPoison, takeRequest_corrected, c]⟩
  case threshold =>
    refine fun n => stepGives_runs (fun _ => rfl) fun s ⟨hrun, hfree, hdue⟩ => ?_
    simp only [hrun, hfree, hdue]
    rfl
  case holdEnd =>
    exact fun ns => stepGives_runs (fun _ => rfl) fun s hheld => if_pos hheld
  case window =>
    exact stepGives_runs (fun _ => rfl) fun _ _ => rfl
  case remap =>
    intro group row spare key room
    have hroom (s : State) : ((mget (chanOf s ch).remap key).isNone &&
        decide (64 ≤ ((chanOf s ch).remap.filter (fun e => e.1 / 262144 == group)).length)) = true ↔ ¬ room s := by
      simp [room]
    exact ⟨stepGives_runs (fun _ => rfl) fun s hs => if_neg fun hfull => (hroom s).1 hfull hs,
      stepGives_runs (fun _ => rfl) fun s hs => if_pos ((hroom s).2 hs)⟩
  case repair =>
    refine fun l => ⟨?pauses, ?degrades, ?steers, ?fails⟩
    case pauses =>
      refine stepGives_runs (fun _ => rfl) fun s ⟨hspare, hrun⟩ => ?_
      simp only [hspare, hrun]
      rfl
    case degrades =>
      exact stepGives_runs (fun _ => rfl) fun s hspare => if_pos hspare
    case steers =>
      refine stepGives_runs (fun _ => rfl) fun s ⟨hlane, hdrained⟩ => ?_
      simp only [hlane, hdrained]
      rfl
    case fails =>
      refine stepGives_runs (fun _ => rfl) fun s hlane => ?_
      simp only [hlane]

end Sys2Proof.Machine
end

section
/-!
The writes of the management window that act: in their order (R418), and what each changes (R350, R419 to R424).
-/
namespace Sys2Proof.Machine
open Sys2Proof Sys2Proof.Safety

theorem mget_mapValues {α : Type} (m : Amap α) (f : α → α) (i : Nat) :
    mget (m.map fun e => (e.1, f e.2)) i = (mget m i).map f := by
  induction m with
  | nil => rfl
  | cons e m ih => by_cases h : e.1 = i <;> simp [mget, h, ih]

theorem mgetD_mapValues {α : Type} (m : Amap α) (f : α → α) (i : Nat) {d : α} (hd : f d = d) :
    mgetD (m.map fun e => (e.1, f e.2)) i d = f (mgetD m i d) := by
  rw [mgetD, mget_mapValues, mgetD]
  cases mget m i with
  | none => exact hd.symm
  | some _ => rfl

theorem partOf_modPart (s : State) (p i : Nat) (f : Partition → Partition) :
    partOf (modPart s p f) i = if p = i then f (partOf s p) else partOf s i := by
  by_cases h : p = i <;> simp [partOf, modPart, mgetD, h]

@[simp] theorem partOf_modPart_same (s : State) (p : Nat) (f : Partition → Partition) :
    partOf (modPart s p f) p = f (partOf s p) := by
  rw [partOf_modPart, if_pos rfl]

/-! ### Writes reach the window in their order (R418) -/

theorem inTurn_of_inOrder {s : State} {p : Nat} (h : (partOf s p).windowWaiting = []) (off : Nat) (v : BitVec 64)
    (f : State → State) : inTurn s p off v f = f s := by
  rw [inTurn, h]
  rfl

theorem windowStep_next {i : Instr} {s : State} {p off : Nat} {v : BitVec 64} {f : State → State}
    (hi : exec i s = stepEvent s (fun s => inTurn s p off v f)) (h : s.mantle.powered = true) :
    exec i s = .next (inTurn s p off v f) :=
  hi.trans (stepEvent_next _ h)

/-- A step that writes the window in its turn gives what the write does, where none waits. -/
theorem windowStep_gives {i : Instr} {p off : Nat} {v : BitVec 64} {f next : State → State} {pre : State → Prop}
    (hi : ∀ s, exec i s = stepEvent s (fun s => inTurn s p off v f))
    (hpre : ∀ s, pre s → (partOf s p).windowWaiting = [] ∧ f s = next s) : StepGives i pre next :=
  stepGives_runs hi fun s hs => (inTurn_of_inOrder (hpre s hs).1 off v f).trans (hpre s hs).2

/-! ### Writes that change their partition only (R419, R422) -/

/-- Of `s` only partition `p` differs in `t`. -/
def OnlyPart (p : Nat) (s t : State) : Prop := t = { s with parts := t.parts } ∧ ∀ i, i ≠ p → partOf t i = partOf s i

theorem onlyPart_refl (p : Nat) (s : State) : OnlyPart p s s := ⟨rfl, fun _ _ => rfl⟩

theorem onlyPart_modPart (s : State) (p : Nat) (f : Partition → Partition) : OnlyPart p s (modPart s p f) :=
  ⟨rfl, fun i hi => by rw [partOf_modPart, if_neg (Ne.symm hi)]⟩

theorem onlyPart_inTurn {s : State} {p : Nat} {f : State → State} (h : OnlyPart p s (f s)) (off : Nat) (v : BitVec 64) :
    OnlyPart p s (inTurn s p off v f) := by
  rw [inTurn]
  split
  · exact h
  · exact onlyPart_modPart s p _

/-- Every branch of a write of a register changes its partition or nothing. -/
theorem onlyPart_writeRegister (s : State) (p off : Nat) (v : BitVec 64) : OnlyPart p s (writeRegister s p off v) := by
  simp only [writeRegister, apply_ite (OnlyPart p s), onlyPart_modPart, onlyPart_refl, ite_self]

theorem onlyPart_modQueue (s : State) (p k : Nat) (f : Queue → Queue) : OnlyPart p s (modQueue s p k f) :=
  onlyPart_modPart s p _

theorem queueOf_modQueue_other (s : State) (p : Nat) {k i : Nat} (h : i ≠ k) (f : Queue → Queue) :
    queueOf (modQueue s p k f) p i = queueOf s p i := by
  simp [queueOf, modQueue, mgetD, Ne.symm h]

theorem queueOf_inTurn_other {s : State} {p i : Nat} {f : State → State} (h : queueOf (f s) p i = queueOf s p i) (off : Nat)
    (v : BitVec 64) : queueOf (inTurn s p off v f) p i = queueOf s p i := by
  rw [inTurn]
  split
  · exact h
  · rw [queueOf, queueOf, partOf_modPart_same]

/-! ### An invalidation of translations (R112, R420) -/

/-- What an invalidation of a range leaves of a TLB of the partition. -/
def keptEntries (r : TlbiRange) (p : Nat) (l : List TlbEntry) : List TlbEntry := l.filter (fun e => !tlbInRange r p e)

section
variable (s : State) (p : Nat) (v : BitVec 64)

theorem partOf_startTlbi : partOf (startTlbi s p v) p = { partOf s p with
    tlbiCtl := v &&& tlbiMask, tlbiDone := false, tlbiLo := (partOf s p).tlbiVa } := by
  simp [startTlbi, partOf, modPart, mgetD]

theorem coreOf_startTlbi (c : Nat) : coreOf (startTlbi s p v) c =
    { coreOf s c with tlb := keptEntries (tlbiRange (partOf s p) v) p (coreOf s c).tlb } :=
  mgetD_mapValues s.cores (fun k => { k with tlb := keptEntries (tlbiRange (partOf s p) v) p k.tlb }) c rfl

theorem clusterOf_startTlbi (k : Nat) : clusterOf (startTlbi s p v) k =
    { clusterOf s k with tlb := keptEntries (tlbiRange (partOf s p) v) p (clusterOf s k).tlb } :=
  mgetD_mapValues s.clusters (fun c => { c with tlb := keptEntries (tlbiRange (partOf s p) v) p c.tlb }) k rfl
end

/-! ### Where the counters lie in the window (Table 19.7) -/

theorem backoffBank_at (s : State) (p i : Nat) {ch b : Nat} (hch : ch < 16) (hb : b < 32) :
    backoffBank s p (512 * i + 32 * ch + b) = (nthOf (partOf s p).halfStacks i).map (fun h => (16 * h + ch, b)) := by
  have hi : (512 * i + 32 * ch + b) / 512 = i := by omega
  have hc : (512 * i + 32 * ch + b) / 32 % 16 = ch := by omega
  have hbank : (512 * i + 32 * ch + b) % 32 = b := by omega
  rw [backoffBank, hi, hc, hbank]

theorem latBucket_at (s : State) (p i : Nat) {ch b : Nat} (hch : ch < 16) (hb : b < 16) :
    latBucket s p (256 * i + 16 * ch + b) = (nthOf (partOf s p).halfStacks i).map (fun h => (16 * h + ch, b)) := by
  have hi : (256 * i + 16 * ch + b) / 256 = i := by omega
  have hc : (256 * i + 16 * ch + b) / 16 % 16 = ch := by omega
  have hbucket : (256 * i + 16 * ch + b) % 16 = b := by omega
  rw [latBucket, hi, hc, hbucket]

theorem clearCounter_backoff {s : State} {p i ch b h : Nat} (hch : ch < 16) (hb : b < 32) (hi : i < 24)
    (hh : nthOf (partOf s p).halfStacks i = some h) : clearCounter s p (0x10000 + 8 * (512 * i + 32 * ch + b)) 0 =
      modChan s (16 * h + ch) (fun c => { c with banks := mmod c.banks b (fun k => { k with holds := 0, heldNs := 0 }) }) := by
  have hoff : (0x10000 + 8 * (512 * i + 32 * ch + b) - 0x10000) / 8 = 512 * i + 32 * ch + b := by omega
  simp (disch := omega) only [clearCounter, Bool.and_eq_true, decide_eq_true_eq, ne_eq, not_true, if_pos, if_neg, if_false, hoff,
    backoffBank_at s p i hch hb, hh, Option.map_some]

theorem clearCounter_latency {s : State} {p i ch b h : Nat} (hch : ch < 16) (hb : b < 16) (hi : i < 24)
    (hh : nthOf (partOf s p).halfStacks i = some h) : clearCounter s p (0x40000 + 128 * (16 * i + ch) + 8 * b) 0 =
      modChan s (16 * h + ch) (fun c => { c with lat := sput c.lat b 0 }) := by
  have hoff : (0x40000 + 128 * (16 * i + ch) + 8 * b - 0x40000) / 8 = 256 * i + 16 * ch + b := by omega
  simp (disch := omega) only [clearCounter, Bool.and_eq_true, decide_eq_true_eq, ne_eq, not_true, if_pos, if_neg, if_false, hoff,
    latBucket_at s p i hch hb, hh, Option.map_some]

/-! ### A halted partition runs again (R424) -/

/-- A halted partition whose stop records are written is released: it runs, and of its groups those of Sageip stay. -/
theorem releasePartition_spec {s : State} {p : Nat} (hhalted : (partOf s p).state = 1)
    (hwritten : ∀ h, (partOf s p).halt = some h → h.units = []) :
    partOf (releasePartition s p) p =
        { partOf s p with state := 0, halt := none, saved := [], launches := [], preempts := [] } ∧
      (releasePartition s p).mem = s.mem ∧
      (releasePartition s p).groups = s.groups.filter (fun e => e.2.part != p || e.2.sageip) := by
  simp only [releasePartition]
  rw [if_neg]
  · exact ⟨by simp [partOf, modPart, mgetD], rfl, rfl⟩
  · cases hhalt : (partOf s p).halt with
    | none => simp [hhalted]
    | some h => simp [hhalted, hwritten h hhalt]

/-- Settles O58: the steps perform their write in its turn, the frames are those of `OnlyPart`, and a counter's offset is taken
apart into its half-stack, channel and bank or bucket. -/
theorem windowWritesThatAct : Obligations.WindowWritesThatAct := by
  unfold Obligations.WindowWritesThatAct
  intro p v inOrder ours
  refine ⟨?starts, ?waits, ?started, ?ends, ?frHead, ?frBase, ?halts, ?frames, ?audit, ?counters, ?ignored, ?released⟩
  case starts =>
    refine stepGives_runs (fun _ => rfl) fun s ⟨horder, hdone⟩ => ?_
    exact (if_pos hdone).trans (inTurn_of_inOrder horder _ _ _)
  case waits =>
    exact stepGives_runs (fun _ => rfl) fun s hdone => if_neg (Bool.eq_false_iff.1 hdone)
  case started =>
    intro s t
    exact ⟨congrArg Partition.tlbiDone (partOf_startTlbi s p v), congrArg Partition.tlbiLo (partOf_startTlbi s p v), rfl, rfl,
      fun c => congrArg PCore.tlb (coreOf_startTlbi s p v c), fun k => congrArg Cluster.tlb (clusterOf_startTlbi s p v k)⟩
  case ends =>
    refine stepGives_runs (f := (endTlbi · p)) (fun _ => rfl) fun s ⟨hdone, hfree, hdirty, horder⟩ => ?_
    have horder : (partOf s p).windowWaiting = [] := horder
    have hall : (ours s).all (dirtyReady s) = true := List.all_eq_true.2 hdirty
    simp only [endTlbi, hdone, hfree, horder, drainWindow]
    rw [hall]
    rfl
  case frHead =>
    exact windowStep_gives (fun _ => rfl) fun s horder => ⟨horder, rfl⟩
  case frBase =>
    exact windowStep_gives (fun _ => rfl) fun s horder => ⟨horder, rfl⟩
  case halts =>
    exact fun cause => windowStep_gives (fun _ => rfl) fun s horder => ⟨horder, rfl⟩
  case frames =>
    intro s off k word hpowered
    obtain ⟨hreg, hregParts⟩ := onlyPart_inTurn (f := (writeRegister · p off v)) (onlyPart_writeRegister s p off v) off v
    obtain ⟨hqueue, hqueueParts⟩ := onlyPart_inTurn (f := (writeQueueDescriptor · p k word v))
      (onlyPart_modQueue s p k _) (0xC1000 + 32 * k + 8 * word) v
    exact ⟨⟨_, windowStep_next rfl hpowered, hreg, hregParts⟩, _, windowStep_next rfl hpowered, hqueue, hqueueParts,
      fun i hi => queueOf_inTurn_other (queueOf_modQueue_other s p hi _) _ v⟩
  case audit =>
    exact windowStep_gives (fun _ => rfl) fun s horder => ⟨horder, rfl⟩
  case counters =>
    intro i ch b h hch
    exact ⟨windowStep_gives (fun _ => rfl) fun s ⟨horder, hb, hi, hh⟩ => ⟨horder, clearCounter_backoff hch hb hi hh⟩,
      windowStep_gives (fun _ => rfl) fun s ⟨horder, hb, hi, hh⟩ => ⟨horder, clearCounter_latency hch hb hi hh⟩⟩
  case ignored =>
    exact fun off => windowStep_gives (fun _ => rfl) fun s ⟨horder, hv⟩ => ⟨horder, if_pos hv⟩
  case released =>
    intro s hpowered horder hhalted hwritten
    obtain ⟨hpart, hmem, hgroups⟩ := releasePartition_spec hhalted hwritten
    have hruns : StepGives (.release p) inOrder (releasePartition · p) :=
      windowStep_gives (fun _ => rfl) fun s horder => ⟨horder, rfl⟩
    refine ⟨_, hruns s hpowered horder, by rw [hpart], by rw [hpart], by rw [hpart], hmem, fun e he => ?_⟩
    rw [hgroups] at he
    obtain ⟨hmember, hkept⟩ := List.mem_filter.1 he
    refine ⟨hmember, fun hpart => ?_⟩
    simpa [hpart] using hkept

end Sys2Proof.Machine
end

section
/-!
A group takes an event in its handler: what the entry leaves (R353, R356), and the event frame byte by byte (Table 21.3).
-/
namespace Sys2Proof.Machine
open Sys2Proof Sys2Proof.Safety

/-! ### Fields of a number's bytes -/

theorem leNat_leBytes (n v : Nat) : leNat (leBytes n v) = v % 256 ^ n := by
  induction n generalizing v with
  | zero => exact (Nat.mod_one v).symm
  | succ n ih =>
    have hpow : 256 ^ (n + 1) = 256 * 256 ^ n := Nat.pow_succ'
    rw [leBytes, leNat, ih, BitVec.toNat_ofNat, hpow, Nat.mod_mul]

theorem drop_leBytes (n v off : Nat) : (leBytes n v).drop off = leBytes (n - off) (v / 256 ^ off) := by
  induction off generalizing n v with
  | zero => rw [List.drop_zero, Nat.pow_zero, Nat.div_one, Nat.sub_zero]
  | succ off ih =>
    cases n with
    | zero => rw [Nat.zero_sub]; rfl
    | succ n => rw [leBytes, List.drop_succ_cons, ih, Nat.succ_sub_succ, Nat.div_div_eq_div_mul, ← Nat.pow_succ']

theorem take_leBytes {n k : Nat} (h : k ≤ n) (v : Nat) : (leBytes n v).take k = leBytes k v := by
  induction k generalizing n v with
  | zero => rfl
  | succ k ih =>
    obtain ⟨n, rfl⟩ : ∃ m, n = m + 1 := ⟨n - 1, by omega⟩
    rw [leBytes, leBytes, List.take_succ_cons, ih (by omega)]

/-- A field of the bytes of a number is that digit string of the number. -/
theorem fieldAt_leBytes {n off k : Nat} (h : off + k ≤ n) (v : Nat) :
    fieldAt (leBytes n v) off k = v / 256 ^ off % 256 ^ k := by
  rw [fieldAt, drop_leBytes, take_leBytes (by omega), leNat_leBytes]

/-! ### Fields of a record that is laid out in ascending order -/

/-- Fields of a record, each with its offset, its bytes and its value: they lie one after the other from byte `lo`, and each
value fits in its bytes. -/
def LaidOut : Nat → List (Nat × Nat × Nat) → Prop
  | _, [] => True
  | lo, (off, n, v) :: fs => lo ≤ off ∧ v < 256 ^ n ∧ LaidOut (off + n) fs

/-- The fields as `packFields` takes them. -/
def fieldValues (fs : List (Nat × Nat × Nat)) : List (Nat × Nat) := fs.map fun f => (f.1, f.2.2)

theorem packFields_cons (f : Nat × Nat) (fs : List (Nat × Nat)) : packFields (f :: fs) = f.2 * 256 ^ f.1 + packFields fs := by
  have hsum : ∀ (fs : List (Nat × Nat)) (a : Nat),
      fs.foldl (fun n f => n + f.2 * 2 ^ (8 * f.1)) a = a + packFields fs := by
    intro fs
    induction fs with
    | nil => exact fun a => rfl
    | cons f fs ih => intro a; rw [packFields, List.foldl_cons, List.foldl_cons, ih, ih, Nat.zero_add, Nat.add_assoc]
  rw [packFields, List.foldl_cons, hsum, Nat.zero_add, Nat.pow_mul]

/-- Below its first field a record is zero. -/
theorem pow_dvd_packFields {lo : Nat} {fs : List (Nat × Nat × Nat)} (h : LaidOut lo fs) :
    256 ^ lo ∣ packFields (fieldValues fs) := by
  induction fs generalizing lo with
  | nil => exact Nat.dvd_zero _
  | cons f fs ih =>
    obtain ⟨off, n, v⟩ := f
    obtain ⟨hlo, -, hrest⟩ := h
    rw [fieldValues, List.map_cons, packFields_cons]
    exact Nat.dvd_add (Nat.dvd_mul_left_of_dvd (Nat.pow_dvd_pow 256 hlo) v) (Nat.dvd_trans (Nat.pow_dvd_pow 256 (by omega)) (ih hrest))

theorem le_of_laidOut {lo : Nat} {fs : List (Nat × Nat × Nat)} (h : LaidOut lo fs) {f : Nat × Nat × Nat} (hf : f ∈ fs) :
    lo ≤ f.1 := by
  induction fs generalizing lo with
  | nil => cases hf
  | cons g fs ih =>
    obtain ⟨hlo, -, hrest⟩ := h
    rcases List.mem_cons.1 hf with rfl | hf
    · exact hlo
    · have := ih hrest hf
      omega

/-- A field of a record is read back from its place. -/
theorem packFields_div_mod {lo : Nat} {fs : List (Nat × Nat × Nat)} (h : LaidOut lo fs) {off n v : Nat}
    (hf : (off, n, v) ∈ fs) : packFields (fieldValues fs) / 256 ^ off % 256 ^ n = v := by
  induction fs generalizing lo with
  | nil => cases hf
  | cons g fs ih =>
    obtain ⟨off', n', v'⟩ := g
    obtain ⟨-, hfit, hrest⟩ := h
    obtain ⟨r, hr⟩ := pow_dvd_packFields hrest
    rw [fieldValues, List.map_cons, packFields_cons, ← fieldValues]
    rcases List.mem_cons.1 hf with heq | hf
    · obtain ⟨rfl, rfl, rfl⟩ : off = off' ∧ n = n' ∧ v = v' := by simpa using heq
      rw [hr, Nat.pow_add, Nat.mul_assoc, Nat.mul_comm v, ← Nat.mul_add, Nat.mul_div_cancel_left _ (Nat.pow_pos (by decide)),
        Nat.add_mul_mod_self_left, Nat.mod_eq_of_lt hfit]
    · have hoff : off' + n' ≤ off := le_of_laidOut hrest hf
      have hlow : v' * 256 ^ off' < 256 ^ (off' + n') := by
        rw [Nat.pow_add, Nat.mul_comm]
        exact Nat.mul_lt_mul_of_pos_left hfit (Nat.pow_pos (by decide))
      have hsplit : 256 ^ off = 256 ^ (off' + n') * 256 ^ (off - (off' + n')) := by rw [← Nat.pow_add]; congr 1; omega
      rw [← ih hrest hf, hr, hsplit, ← Nat.div_div_eq_div_mul, ← Nat.div_div_eq_div_mul,
        Nat.add_mul_div_left _ _ (Nat.pow_pos (by decide)), Nat.div_eq_of_lt hlow, Nat.zero_add,
        Nat.mul_div_cancel_left _ (Nat.pow_pos (by decide))]

/-- A field of the bytes of a record. -/
theorem fieldAt_packFields {lo size : Nat} {fs : List (Nat × Nat × Nat)} (h : LaidOut lo fs) {off n v : Nat}
    (hf : (off, n, v) ∈ fs) (hin : off + n ≤ size) :
    fieldAt (leBytes size (packFields (fieldValues fs))) off n = v := by
  rw [fieldAt_leBytes hin, packFields_div_mod h hf]

/-! ### The event frame (Table 21.3) -/

/-- FLAGS of the event frame. -/
def frameFlags (g : Group) (ev : Event) (rolled : Bool) : Nat :=
  rolled.toNat + 2 * ev.holdFull.toNat + 4 * (!ev.precise).toNat + 8 * ev.soft.toNat + 16 * g.lined.toNat

/-- The fields of the event frame; what follows them is zero. -/
def frameFields (g : Group) (ev : Event) (ipc rpc : Pc) (rolled : Bool) : List (Nat × Nat × Nat) :=
  [(0, 4, ev.epc.toNat), (4, 4, ipc.toNat), (8, 4, rpc.toNat), (12, 1, ev.code), (13, 1, frameFlags g ev rolled), (14, 1, ev.split),
    (16, 8, ev.lanes.toNat), (24, 8, ev.info.toNat), (32, 8, ev.info2.toNat), (40, 88, 0)]

section
variable (g : Group) (ev : Event) (ipc rpc : Pc) (rolled : Bool)

theorem frameBytes_eq :
    frameBytes g ev ipc rpc rolled = leBytes 128 (packFields (fieldValues (frameFields g ev ipc rpc rolled))) := by
  refine congrArg (leBytes 128) ?_
  simp only [fieldValues, frameFields, frameFlags, List.map_cons, List.map_nil, packFields_cons, Nat.zero_mul, Nat.zero_add]

theorem frameFlags_lt : frameFlags g ev rolled < 256 := by
  have hbit (b : Bool) : b.toNat ≤ 1 := b.toNat_le
  have := hbit rolled
  have := hbit ev.holdFull
  have := hbit (!ev.precise)
  have := hbit ev.soft
  have := hbit g.lined
  unfold frameFlags
  omega

variable {g ev ipc rpc rolled}

theorem laidOut_frameFields (hcode : ev.code < 256) (hsplit : ev.split < 256) : LaidOut 0 (frameFields g ev ipc rpc rolled) := by
  have h32 (v : BitVec 32) : v.toNat < 256 ^ 4 := v.isLt
  have h64 (v : BitVec 64) : v.toNat < 256 ^ 8 := v.isLt
  have h8 {v : Nat} (h : v < 256) : v < 256 ^ 1 := h
  exact ⟨by decide, h32 _, by decide, h32 _, by decide, h32 _, by decide, h8 hcode, by decide, h8 (frameFlags_lt ..), by decide,
    h8 hsplit, by decide, h64 _, by decide, h64 _, by decide, h64 _, by decide, Nat.pow_pos (by decide), trivial⟩

/-- A field of the event frame, at its offset. -/
theorem fieldAt_frameBytes (hcode : ev.code < 256) (hsplit : ev.split < 256) {off n v : Nat}
    (hf : (off, n, v) ∈ frameFields g ev ipc rpc rolled) (hin : off + n ≤ 128) :
    fieldAt (frameBytes g ev ipc rpc rolled) off n = v := by
  rw [frameBytes_eq, fieldAt_packFields (laidOut_frameFields hcode hsplit) hf hin]
end

/-! ### The entry of a handler (R356) -/

/-- The PC at which an event interrupts its split: its own, or for an asynchronous event that of the split. -/
def interruptedPc (g : Group) (ev : Event) : Pc :=
  if ev.precise then ev.epc
  else match mget g.splits ev.split with
    | some sp => sp.pc
    | none => ev.epc

/-- The RPC of an entry that rolls no region back. -/
def plainRpc (g : Group) (ev : Event) : Pc := entryRpc ev (interruptedPc g ev) false g.region.openPc

/-- The stores of the event frame and of the addresses gathered with the event. -/
def frameStores (g : Group) (ev : Event) : List LaneAcc :=
  storeWords g.priv (frameBytes g ev (interruptedPc g ev) (plainRpc g ev) false) 16 ++
    ev.addrs.map (fun a => { lane := 0, addr := g.priv + BitVec.ofNat 64 (0x80 + 8 * a.1), size := 8, data := a.2.setWidth 128 })

/-- What an entry that rolls no region back sets aside. -/
def entryAside (s : State) (g : Group) (ev : Event) : Aside :=
  { splits := g.splits, ovf := g.ovf, split := ev.split, epc := ev.epc, ipc := interruptedPc g ev, code := ev.code, rolled := false
    regionPc := g.region.openPc, mark := s.nextOp
    named := if ev.code = evPoison && !ev.soft then (bits ev.info.toNat 0 8, bits ev.info.toNat 8 8) else (0, 0) }

/-- The event frame in the group's store queue. -/
def frameEntry (s : State) (g : Group) (ev : Event) : StoreEntry :=
  { id := s.nextOp, pc := ev.epc, split := 0, kind := .store, order := 0, scope := 0, accs := frameStores g ev }

/-- The group in its handler. -/
def inHandler (s : State) (g : Group) (ev : Event) (vec : Pc) : Group :=
  { g with
    aside := some (entryAside s g ev), splits := [(0, { pc := vec, mask := g.live, age := s.clk + 1 })], ovf := []
    storeQ := g.storeQ ++ [frameEntry s g ev] }

theorem interruptedPc_of_precise {ev : Event} (h : ev.precise = true) (g : Group) : interruptedPc g ev = ev.epc := if_pos h

theorem interruptedPc_of_split {g : Group} {ev : Event} {sp : Split} (h : mget g.splits ev.split = some sp) :
    interruptedPc g ev = if ev.precise then ev.epc else sp.pc := by
  rw [interruptedPc, h]

section
variable {s : State} {gid : Nat} {g : Group} (hg : mget s.groups gid = some g)
include hg

/-- Where no region is rolled back, the entry changes its group alone. -/
theorem enterHandler_of_unrolled (hopen : g.region.st ≠ .opened) (hwait : g.region.st ≠ .waiting) (ev : Event) (vec : Pc) :
    enterHandler s gid ev vec = { s with groups := mput s.groups gid (inHandler s g ev vec), nextOp := s.nextOp + 1 } := by
  have hrolled : (g.region.st == .opened || g.region.st == .waiting) = false := by simp [hopen, hwait]
  simp only [enterHandler, hg, hrolled, Bool.false_eq_true, if_false]
  rfl

/-- The entry of a precise event, with no region to roll back. -/
theorem entered_of_unrolled (hopen : g.region.st ≠ .opened) (hwait : g.region.st ≠ .waiting) {ev : Event}
    (hprecise : ev.precise = true) (vec : Pc) : Entered s (enterHandler s gid ev vec) gid g ev vec := by
  rw [enterHandler_of_unrolled hg hopen hwait]
  refine ⟨rfl, fun k hk => by simp [Ne.symm hk], ?_⟩
  simp only [mget_mput, if_true, inHandler, entryAside, frameEntry, frameStores, plainRpc,
    interruptedPc_of_precise hprecise]

end

/-! ### A precise event is taken (R353, R328) -/

/-- The group's region rolls nothing back at an event, and does not make it wait: none is OPEN or WAITING, and one that is
committing meets no device error (R328). -/
def RegionAdmits (g : Group) (ev : Event) : Prop :=
  g.region.st = .none ∨
    (g.region.st = .committing ∧ (ev.soft = true ∨ (ev.code ≠ evMachineCheck ∧ ev.code ≠ evLiningMismatch)))

theorem RegionAdmits.ne_opened {g : Group} {ev : Event} (h : RegionAdmits g ev) : g.region.st ≠ .opened := by
  rcases h with h | ⟨h, -⟩ <;> rw [h] <;> decide

theorem RegionAdmits.ne_waiting {g : Group} {ev : Event} (h : RegionAdmits g ev) : g.region.st ≠ .waiting := by
  rcases h with h | ⟨h, -⟩ <;> rw [h] <;> decide

theorem RegionAdmits.not_held {g : Group} {ev : Event} (h : RegionAdmits g ev) :
    ((!ev.soft && (ev.code = evMachineCheck || ev.code = evLiningMismatch : Bool)) && g.region.st == .committing) = false := by
  rcases h with h | ⟨-, hsoft | ⟨hmc, hlm⟩⟩
  · rw [h, Bool.and_eq_false_iff]
    exact .inr rfl
  · rw [hsoft]
    rfl
  · simp [hmc, hlm]

/-- A split that keeps no operands for a replay has none to drop. -/
theorem dropCaught_of_none {g : Group} {ev : Event} (h : ∀ sp, mget g.splits ev.split = some sp → sp.caught = none) (s : State)
    (gid : Nat) : dropCaught s gid g ev = s := by
  have hnone : (mget g.splits ev.split).bind (·.caught) = none := Option.bind_eq_none_iff.2 h
  rw [dropCaught, hnone]

/-- A precise event that has a vector, met outside a job and a handler, enters the handler. -/
theorem raise_entered {s : State} {gid : Nat} {g : Group} (hg : mget s.groups gid = some g) {ev : Event} {vec : Pc}
    (hprecise : ev.precise = true) (hjob : g.job = none) (haside : g.aside = none) (hregion : RegionAdmits g ev)
    (hshift : (vectorShift ev.code).isSome = true) (hvec : vectorPc s g ev.code = some vec)
    (hcaught : ∀ sp, mget g.splits ev.split = some sp → sp.caught = none) : Entered s (raise s gid ev) gid g ev vec := by
  have henters : raise s gid ev = enterHandler s gid ev vec := by
    simp only [raise, hg, dropCaught_of_none hcaught, hjob, Option.isNone_eq_false_iff.2 hshift,
      beq_false_of_ne hregion.ne_opened, Bool.and_false, haside, hvec, hprecise, hregion.not_held, Bool.true_and,
      Bool.false_eq_true, if_false, Bool.not_false, if_true]
  rw [henters]
  exact entered_of_unrolled hg hregion.ne_opened hregion.ne_waiting hprecise vec

theorem entryRpc_of_soft {ev : Event} (h : ev.soft = true) (ipc openPc : Pc) : entryRpc ev ipc false openPc = ev.epc + 1 := by
  rw [entryRpc, if_neg Bool.false_ne_true, if_pos h]

/-- Settles O22: a precise event goes through `raise` to `enterHandler`, TRAP raises one that is soft, and the frame's fields are
read from `frameFields`. -/
theorem preciseEventEntersHandler : Obligations.PreciseEventEntersHandler := by
  unfold Obligations.PreciseEventEntersHandler
  refine ⟨?precise, ?trap, ?frame⟩
  case precise =>
    intro s gid g ev vec hg hprecise hjob haside hregion hshift hvec hcaught
    exact raise_entered hg hprecise hjob haside hregion hshift hvec hcaught
  case trap =>
    intro s x c vec h hjob haside hregion hshift hvec ev
    have hcaught : ∀ sp, mget c.g.splits c.j = some sp → sp.caught = none := by
      intro sp hsp
      obtain rfl : c.sp = sp := Option.some.inj (h.split.symm.trans hsp)
      exact h.fresh
    have hadmits : RegionAdmits c.g ev := hregion.imp_right fun hst => ⟨hst, .inl rfl⟩
    exact ⟨_, issue_runs h _, raise_entered h.group rfl hjob haside hadmits hshift hvec hcaught, entryRpc_of_soft rfl _ _⟩
  case frame =>
    intro g ev ipc rpc rolled hcode hsplit bs
    have hfield {off n v : Nat} (hin : off + n ≤ 128) (hf : (off, n, v) ∈ frameFields g ev ipc rpc rolled) :
        fieldAt bs off n = v := fieldAt_frameBytes hcode hsplit hf hin
    refine ⟨length_leBytes 128 _, hfield (by decide) ?_, hfield (by decide) ?_, hfield (by decide) ?_, hfield (by decide) ?_,
      hfield (by decide) ?_, hfield (by decide) ?_, hfield (by decide) ?_, hfield (by decide) ?_, hfield (by decide) ?_,
      beq_iff_eq.2 (hfield (by decide) ?_)⟩ <;> simp [frameFields, frameFlags]

end Sys2Proof.Machine
end

section
/-!
Events that wait are delivered (R354), the units of a halted partition stop (R360, R361), and the teams of a pre-emption stop,
are saved and come back (R363 to R365).
-/
namespace Sys2Proof.Machine
open Sys2Proof Sys2Proof.Safety

/-! ### The entry of an event that waited (R354, R356) -/

theorem length_storeWords (a : BitVec 64) (bs : List (BitVec 8)) (n : Nat) : (storeWords a bs n).length = n := by
  induction n generalizing a bs with
  | zero => rfl
  | succ n ih => rw [storeWords, List.length_cons, ih]

theorem take_frameStores (g : Group) (ev : Event) : (frameStores g ev).take 16 =
    storeWords g.priv (frameBytes g ev (interruptedPc g ev) (plainRpc g ev) false) 16 :=
  List.take_left' (length_storeWords ..)

theorem drop_frameStores (g : Group) (ev : Event) : ((frameStores g ev).drop 16).map (fun m => (m.addr, m.size, m.data)) =
    ev.addrs.map (fun m => (g.priv + BitVec.ofNat 64 (0x80 + 8 * m.1), 8, m.2.setWidth 128)) := by
  rw [frameStores, List.drop_left' (length_storeWords ..), List.map_map]
  rfl

/-- A group's first waiting event enters the handler at a boundary of its split (R354). -/
theorem deliverEvent_enters {s : State} {gid j : Nat} {g : Group} {e : Event} {sp : Split} {vec : Pc}
    (hg : mget s.groups gid = some g) (hfirst : firstEvent g.events = some e) (hsplit : eventSplit g e = some (j, sp))
    (hvec : vectorPc s g e.code = some vec) (haside : g.aside = none) (hstopped : g.stopped = false)
    (hcommitting : g.region.st ≠ .committing) (haborted : g.region.st ≠ .aborted)
    (hboundary : sp.wait = .none ∨ g.kept = true ∨ (g.region.st = .waiting ∧ opensRegion g sp = true)) :
    deliverEvent s gid = enterHandler (modGroup s gid (fun g => { g with
      events := takeEvent e g.events, kept := g.kept && g.events.length != 1 })) gid { e with split := j } vec := by
  have hwaits : (sp.wait != .none && !g.kept && !(g.region.st == .waiting && opensRegion g sp)) = false := by
    rcases hboundary with h | h | ⟨hst, hopens⟩
    · rw [h]; rfl
    · rw [h, Bool.not_true, Bool.and_false, Bool.false_and]
    · rw [hst, hopens]; exact Bool.and_false _
  simp only [deliverEvent, hg, hfirst, hsplit, hvec, haside, hstopped, beq_false_of_ne hcommitting, beq_false_of_ne haborted, hwaits,
    Option.isSome_none, Bool.or_self, Bool.false_eq_true, if_false]

/-! ### An engine's write leaves the partitions as they were -/

theorem foldl_parts {α : Type} {f : State → α → State} (h : ∀ s x, (f s x).parts = s.parts) (l : List α) (s : State) :
    (l.foldl f s).parts = s.parts :=
  foldl_keeps (fun t : State => t.parts = s.parts) f l s rfl fun t x _ ht => (h t x).trans ht

section
variable (s : State)

theorem fireLine_parts (line : Nat) : (fireLine s line).parts = s.parts := by
  rw [fireLine]
  refine foldl_parts (fun _ _ => ?_) _ _
  rfl

theorem writeHome_parts (pa : Nat) (bs : List (BitVec 8)) : (writeHome s pa bs).parts = s.parts := by
  rw [writeHome]
  split
  · rfl
  · exact foldl_parts fireLine_parts _ _

/-- A request at the directory changes its slice and the queues of its channels. -/
theorem l2Touch_parts (p ctx chain line : Nat) (write alloc : Bool) (h2 : Nat) :
    (l2Touch s p ctx chain line write alloc h2).parts = s.parts := by
  simp only [l2Touch]
  repeat' split
  all_goals rfl

theorem touchWalk_parts (p ctx : Nat) (va : BitVec 64) : (touchWalk s p ctx va).parts = s.parts := by
  simp only [touchWalk]
  split
  · rfl
  · exact foldl_parts (fun _ _ => l2Touch_parts ..) _ _

theorem engineWalk_parts (q : Accessor) (va : BitVec 64) (n : Nat) : (engineWalk s q va n).parts = s.parts := by
  simp only [engineWalk, apply_ite State.parts, touchWalk_parts, ite_self]
end

theorem engineWrite_parts {s t : State} {q : Accessor} {va : BitVec 64} {bs : List (BitVec 8)} {chain : Nat} {need : Need}
    (h : engineWrite s q va bs chain need = .ok t) : t.parts = s.parts := by
  rw [engineWrite] at h
  split at h
  · cases h
  · cases h
    refine foldl_keeps (fun r : State × List (BitVec 8) => r.1.parts = s.parts) _ _ _ (engineWalk_parts s q va _) fun r x _ hr => ?_
    exact (writeHome_parts ..).trans ((foldl_parts (fun _ _ => l2Touch_parts ..) _ _).trans hr)

/-! ### A unit's stop record (R360, R361) -/

@[simp] theorem partOf_modHalt_halt (s : State) (p : Nat) (f : Halt → Halt) :
    (partOf (modHalt s p f) p).halt = (partOf s p).halt.map f := by
  rw [modHalt, partOf_modPart_same]

theorem mem_addOnce {α : Type} [BEq α] [LawfulBEq α] (l : List α) (i : α) : i ∈ addOnce l i := by
  rw [addOnce]
  split
  · rename_i h; exact List.contains_iff_mem.1 h
  · exact List.mem_append_right _ (List.mem_singleton_self i)

/-- COUNT of a context counts one unit more. -/
def countStop (s : State) (p : Nat) (h : Halt) (ctx : Nat) : State :=
  modHalt s p (fun k => { k with counts := mput k.counts ctx (mgetD h.counts ctx 0 + 1) })

/-- The unit is counted, and its context's stop area is marked for OVERFLOW. -/
def overrunStop (s : State) (p : Nat) (h : Halt) (ctx : Nat) : State :=
  modHalt (countStop s p h ctx) p (fun k => { k with overran := addOnce k.overran ctx })

/-- The write of a unit's record, once it is counted. -/
def recordStop (s : State) (p : Nat) (h : Halt) (u : StopUnit) (skid : BitVec 32) : Except Fail State :=
  engineWrite (countStop s p h u.ctx) (hostAcc p u.ctx)
    (stopArea s p u.ctx + BitVec.ofNat 64 (64 * (mgetD h.counts u.ctx 0 + 1))) (stopRecord u skid s.mantle.time) 0 .w

/-- What that write comes to: one that fails marks the area. -/
def stopRecorded (s : State) (p : Nat) (h : Halt) (u : StopUnit) : Except Fail State → State
  | .ok t => t
  | .error _ => overrunStop s p h u.ctx

section
variable {s : State} {p : Nat} {h : Halt} {u : StopUnit} (skid : BitVec 32)

theorem writeStop_of_noArea (harea : stopArea s p u.ctx = 0) : writeStop s p h u skid = countStop s p h u.ctx := if_pos harea

theorem writeStop_of_full (harea : stopArea s p u.ctx ≠ 0) (hfull : stopCap s p u.ctx ≤ mgetD h.counts u.ctx 0) :
    writeStop s p h u skid = overrunStop s p h u.ctx :=
  (if_neg harea).trans (if_pos hfull)

/-- Where the area has room, the record is written at the unit's number. -/
theorem writeStop_of_room (harea : stopArea s p u.ctx ≠ 0) (hroom : mgetD h.counts u.ctx 0 < stopCap s p u.ctx) :
    writeStop s p h u skid = stopRecorded s p h u (recordStop s p h u skid) :=
  (if_neg harea).trans (if_neg (Nat.not_le.2 hroom))

variable (hhalt : (partOf s p).halt = some h)
include hhalt

theorem halt_countStop (ctx : Nat) : (partOf (countStop s p h ctx) p).halt =
    some { h with counts := mput h.counts ctx (mgetD h.counts ctx 0 + 1) } := by
  rw [countStop, partOf_modHalt_halt, hhalt]
  rfl

theorem halt_overrunStop (ctx : Nat) : (partOf (overrunStop s p h ctx) p).halt =
    some { h with counts := mput h.counts ctx (mgetD h.counts ctx 0 + 1), overran := addOnce h.overran ctx } := by
  rw [overrunStop, partOf_modHalt_halt, halt_countStop hhalt]
  rfl

/-- Whatever becomes of the record, COUNT counts the unit, and of the halt only the marks for OVERFLOW may change too. -/
theorem halt_writeStop : ∃ l, (partOf (writeStop s p h u skid) p).halt =
      some { h with counts := mput h.counts u.ctx (mgetD h.counts u.ctx 0 + 1), overran := l } ∧
    (stopArea s p u.ctx ≠ 0 → stopCap s p u.ctx ≤ mgetD h.counts u.ctx 0 → u.ctx ∈ l) := by
  by_cases harea : stopArea s p u.ctx = 0
  · exact ⟨h.overran, by rw [writeStop_of_noArea skid harea, halt_countStop hhalt], fun hne => absurd harea hne⟩
  by_cases hfull : stopCap s p u.ctx ≤ mgetD h.counts u.ctx 0
  · exact ⟨_, by rw [writeStop_of_full skid harea hfull, halt_overrunStop hhalt], fun _ _ => mem_addOnce ..⟩
  rw [writeStop_of_room skid harea (Nat.not_le.1 hfull)]
  cases hwrite : recordStop s p h u skid with
  | ok t =>
    have hparts : partOf t p = partOf (countStop s p h u.ctx) p := by rw [partOf, partOf, engineWrite_parts hwrite]
    exact ⟨h.overran, by rw [stopRecorded, hparts, halt_countStop hhalt], fun _ hle => absurd hle hfull⟩
  | error f => exact ⟨_, by rw [stopRecorded, halt_overrunStop hhalt], fun _ _ => mem_addOnce ..⟩
end

/-- Settles O52: the steps are one branch of their functions each, the entry is that of `inHandler`, and a stop record's write
leaves the halt with its count, since an engine's write changes no partition. -/
theorem unitsStopAndTeamsAreSaved : Obligations.UnitsStopAndTeamsAreSaved := by
  unfold Obligations.UnitsStopAndTeamsAreSaved
  refine ⟨⟨?delivers, ?enters, ?record, ?stops⟩, fun p => ⟨?acknowledges, ?saves, ?restores⟩⟩
  case delivers =>
    intro gid j g e sp vec
    exact stepGives_runs (fun _ => rfl) fun _ ⟨hg, hfirst, hsplit, hvec, haside, hstopped, hcommitting, haborted, hboundary⟩ =>
      deliverEvent_enters hg hfirst hsplit hvec haside hstopped hcommitting haborted hboundary
  case enters =>
    intro s gid g e sp vec hg hsp hregion ipc t
    have hipc : interruptedPc g e = ipc := interruptedPc_of_split hsp
    have ht : t = _ := enterHandler_of_unrolled hg (by rw [hregion]; decide) (by rw [hregion]; decide) e vec
    refine ⟨by rw [ht], fun k hk => by simp [ht, Ne.symm hk], entryAside s g e, frameEntry s g e, inHandler s g e vec,
      by simp [ht], rfl, rfl, rfl, rfl, rfl, hipc, rfl, rfl, rfl, ?_, drop_frameStores g e⟩
    rw [← hipc]
    exact take_frameStores g e
  case record =>
    intro s s2 p h u skid hhalt n t
    refine ⟨?counts, ?unwritten, ?written⟩
    case counts =>
      obtain ⟨l, hl, hmem⟩ := halt_writeStop (u := u) skid hhalt
      exact ⟨_, hl, by simp [mgetD, n], rfl, hmem⟩
    case unwritten =>
      intro hlost
      by_cases harea : stopArea s p u.ctx = 0
      · simp only [t, writeStop_of_noArea skid harea]
        exact ⟨rfl, rfl⟩
      · simp only [t, writeStop_of_full skid harea (hlost.resolve_left harea)]
        exact ⟨rfl, rfl⟩
    case written =>
      intro harea hroom hwrite
      have hwrite : recordStop s p h u skid = .ok s2 := hwrite
      simp only [t, writeStop_of_room skid harea hroom, hwrite, stopRecorded]
  case stops =>
    intro p skid h u rest
    refine stepGives_runs (fun _ => rfl) fun s ⟨hhalt, hunits, hready⟩ => ?_
    simp only [hhalt, hunits, hready]
    rfl
  case acknowledges =>
    intro tid r rs t
    refine stepGives_runs (fun _ => rfl) fun s ⟨hsage, hpreempts, hteam, hvictim, hacked, hstopped⟩ => ?_
    simp only [hsage, hpreempts, hteam, List.contains_iff_mem.2 hvictim, Bool.eq_false_iff.2 (mt List.contains_iff_mem.1 hacked),
      hstopped]
    rfl
  case saves =>
    intro r rs s1 vs
    refine stepGives_runs (fun _ => rfl) fun s ⟨hpreempts, hrun, hready, hfaulted, hacked, hsaved⟩ => ?_
    have hall : (vs s).all (r.acked.contains ·) = true := List.all_eq_true.2 fun t ht => List.contains_iff_mem.2 (hacked t ht)
    simp only [hpreempts, hrun, hready, hfaulted, vs] at hall hsaved ⊢
    simp only [hall, hsaved]
    rfl
  case restores =>
    intro launch v s1
    refine stepGives_runs (fun _ => rfl) fun s ⟨hfirst, hlaunch, hfaulted, hrun, hfront, hready, hrecords, hplaced⟩ => ?_
    simp only [hfirst, hlaunch, hfaulted, hrun, hfront, hready, hrecords, hplaced, ne_eq, not_true, decide_false, Bool.not_true,
      Bool.or_self, Bool.false_eq_true, if_false]

end Sys2Proof.Machine
end

section
/-!
Tailor's operations are handed over and end, BLD.STAT reads a figure, and the pins of generations are taken and given up
(R375, R378, R383, R385, R386).
-/
namespace Sys2Proof.Machine
open Sys2Proof Sys2Proof.Safety

theorem issueTailor_hands {c : Iss} (hsame : operandDiffers c c.x.a = false) (hwait : c.sp.wait ≠ .tailor) (kind : Nat)
    (s : State) : issueTailor kind c s = waitAs { s with
      nextOp := s.nextOp + 1
      tailor := s.tailor ++ [{ id := s.nextOp, kind, gid := c.gid, split := c.j, pc := c.sp.pc, d := c.x.d.idx
                               desc := uniOperand c.g c.x 0 c.x.a, core := c.g.core, part := c.g.part
                               ctx := c.g.ctx }] } c .tailor := by
  simp only [issueTailor, hsame, hwait, Bool.false_eq_true, if_false]
  rfl

theorem homeResult_sound (s : State) (c : Iss) (va v : BitVec 64) (ptrap : Bool) :
    homeResult s c va v false ptrap = advance (onGroup s c (putScalar · c.x.d.idx (fun _ => v))) c := rfl

/-- Settles O48: each instruction and the step are one branch of their functions, which the operands, the descriptor and the
old pin choose. -/
theorem tailorAndPins : Obligations.TailorAndPins := by
  unfold Obligations.TailorAndPins
  intro hands
  have hand {i : Enc → Instr} {op : Op} {kind : Nat} (hi : ∀ x s, exec (i x) s = issue op x s (issueTailor kind)) :
      hands i op kind := gives_runs hi fun s c ⟨hsame, hwait⟩ => issueTailor_hands hsame hwait kind s
  refine ⟨hand fun _ _ => rfl, hand fun _ _ => rfl, hand fun _ _ => rfl, hand fun _ _ => rfl, ?ends, ?stat, ?pins⟩
  case ends =>
    intro id n o g s1 q
    refine stepGives_runs (f := (endTailor · id)) (fun _ => rfl) fun s ⟨hfind, hg, hfaulted, hbehind, hready, hturn, hrun⟩ => ?_
    simp only [q] at hrun
    simp only [endTailor, hfind, hg, hfaulted, hbehind, hready, hturn, hrun]
    obtain rfl : o.id = id := by simpa using List.find?_some hfind
    rfl
  case stat =>
    intro pa b
    refine gives_runs (fun _ _ => rfl) fun s c ⟨ha, hb, hlt, hhome, hdesc, hsound⟩ => ?_
    have hgood : (statBytes (b c.x c)).any (fun y => (readHome s (pa + y.1) y.2).2) = false := List.any_eq_false.2 fun y hy => by
      simp [hsound y hy]
    have ha : operandDiffers c c.x.a = false := ha
    have hb : operandDiffers c c.x.b = false := hb
    simp only [b] at hlt hgood ⊢
    simp only [ha, hb, Nat.not_le.2 hlt, hhome, hdesc, hgood, homeResult_sound, Bool.or_self, Bool.not_true, Bool.false_eq_true,
      if_false]
  case pins =>
    intro pa i pre q failed done cur
    refine ⟨?takes, ?takesNone, fun f => ?keeps, ?gives, fun f => ?refuses⟩
    case takes =>
      refine gives_runs (fun _ _ => rfl) fun s c ⟨⟨ha, hhome, hdesc⟩, hpin, hcur⟩ => ?_
      have ha : operandDiffers c c.x.a = false := ha
      simp only [cur] at hcur
      simp only [ha, hhome, hdesc, hpin, hcur]
      rfl
    case takesNone =>
      refine gives_runs (fun _ _ => rfl) fun s c ⟨⟨ha, hhome, hdesc⟩, hpin, hcur⟩ => ?_
      have ha : operandDiffers c c.x.a = false := ha
      simp only [cur] at hcur
      simp only [ha, hhome, hdesc, hpin, hcur]
      rfl
    case keeps =>
      refine gives_runs (fun _ _ => rfl) fun s c ⟨⟨ha, hhome, hdesc⟩, hpin⟩ => ?_
      have ha : operandDiffers c c.x.a = false := ha
      simp only [ha, hhome, hdesc, hpin]
      rfl
    case gives =>
      refine gives_runs (fun _ _ => rfl) fun s c ⟨hhome, hpin⟩ => ?_
      have hreached : (decide (c.g.gen ≠ 0) && !homeNow s c) = false := by simpa using hhome
      simp only [hreached, hpin]
      rfl
    case refuses =>
      refine gives_runs (fun _ _ => rfl) fun s c ⟨hhome, hpin⟩ => ?_
      have hreached : (decide (c.g.gen ≠ 0) && !homeNow s c) = false := by simpa using hhome
      simp only [hreached, hpin]
      rfl

end Sys2Proof.Machine
end

section
/-!
Traversals begin, the answers of their shaders are recorded, shader groups are sent out, and traversals complete
(R387, R390, R391).
-/
namespace Sys2Proof.Machine
open Sys2Proof Sys2Proof.Safety

/-! ### TRACE and PROBE (R387) -/

theorem differingRecords_eq_nil {c : Iss} (h : c.g.lined = true → ∀ l ∈ lanesOf c.act, recordOf c l = recordOf c (l + c.g.width)) :
    (lanesOf c.act).filter (fun l => c.g.lined && recordOf c l != recordOf c (l + c.g.width)) = [] := by
  refine List.filter_eq_nil_iff.2 fun l hl hdiffer => ?_
  simp only [Bool.and_eq_true, bne_iff_ne] at hdiffer
  exact hdiffer.2 (h hdiffer.1 l hl)

/-! ### HIT.* (R391) -/

theorem putAnswer_eq (h : ShaderCtx) (l : Nat) (a : Nat × W32) : putAnswer h l a = { h with
    answers := if (mget h.answers l).isSome then h.answers else mput h.answers l a } := by
  rw [putAnswer]
  split <;> rfl

/-- Each of the lanes that has no answer yet receives its own. -/
theorem putAnswers_spec (a : Nat → Nat × W32) (ls : List Nat) (h : ShaderCtx) :
    ∃ as, ls.foldl (fun h l => putAnswer h l (a l)) h = { h with answers := as } ∧
      ∀ l, mget as l = if l ∈ ls ∧ mget h.answers l = none then some (a l) else mget h.answers l := by
  induction ls generalizing h with
  | nil => exact ⟨h.answers, rfl, fun l => by simp⟩
  | cons k ls ih =>
    obtain ⟨as, hfold, has⟩ := ih (putAnswer h k (a k))
    refine ⟨as, by rw [List.foldl_cons, hfold, putAnswer_eq], fun l => ?_⟩
    rw [has, putAnswer_eq]
    cases hk : mget h.answers k with
    | some v =>
      by_cases hl : l = k
      · subst hl; simp [hk]
      · simp [hl]
    | none =>
      by_cases hl : l = k
      · subst hl; simp [hk]
      · simp [hl, Ne.symm hl]

theorem hit_answers {i : Enc → Instr} {op : Op} {code : Nat} {val : Iss → Nat → W32}
    (hi : ∀ x s, exec (i x) s = issue op x s (answerHit code val)) (h : ShaderCtx) :
    Completes i op (fun _ _ c => c.g.shader = some h) id (fun _ _ c g' => AtPc c g' (c.sp.pc + 1) ∧ ∃ as, g' = { c.g with
        shader := some { h with answers := as }, splits := g'.splits } ∧
      ∀ l, mget as l = if l < 64 ∧ c.act.getLsbD l = true ∧ mget h.answers l = none then some (code, val c l)
        else mget h.answers l) := by
  refine completes_runs (F := fun _ _ c g => { g with
    shader := g.shader.map (fun h => (lanesOf c.act).foldl (fun h l => putAnswer h l (code, val c l)) h) }) hi
    (fun _ _ _ _ _ => rfl) (fun _ _ _ _ _ => rfl) fun s x c m _ hshader => ?_
  obtain ⟨as, hfold, has⟩ := putAnswers_spec (fun l => (code, val c l)) (lanesOf c.act) h
  refine ⟨as, by simp only [hshader, Option.map_some, hfold], fun l => ?_⟩
  simp only [has, mem_lanesOf, and_assoc]

/-- Settles O49: TRACE, PROBE and the steps are one branch of their functions each, and each lane's answer is that of
`putAnswers_spec`. -/
theorem traversalsBeginAndComplete : Obligations.TraversalsBeginAndComplete := by
  unfold Obligations.TraversalsBeginAndComplete
  refine ⟨?begins, ⟨?answers, ?dispatches, ?completes⟩⟩
  case begins =>
    intro begins
    have begin {i : Enc → Instr} {op : Op} {shape : Nat} (hi : ∀ x s, exec (i x) s = issue op x s (issueTrav shape)) :
        begins i op shape := by
      intro f s1 pa gen root e prims own desc struct q touched
      refine gives_runs hi fun s c ⟨hsame, hrecords, hcount, hreplay, hreads, hmem, hread, hsound, hgood, hdesc, hgen, hentry⟩ => ?_
      have hsame : operandDiffers c c.x.a = false := hsame
      simp only [touched, q, struct, desc] at hgood hdesc hgen hentry ⊢
      simp only [issueTrav, fresh, hsame, differingRecords_eq_nil hrecords, Nat.not_le.2 hcount, hreplay, hreads, hmem, hread,
        hsound, hgood, hdesc, hgen, hentry]
      rfl
    refine ⟨begin fun _ _ => rfl, begin fun _ _ => rfl, begin fun _ _ => rfl, ?wait, ?count⟩
    case wait =>
      refine goesOn_runs (fun _ _ => rfl) fun s x c h ⟨hsame, hcount⟩ => ?_
      have hsame : operandDiffers c x.b = false := hsame
      simp only [hsame, hcount, Bool.false_eq_true, if_false, if_true]
    case count =>
      exact writesScalar_runs (fun _ _ => rfl) fun _ _ _ _ _ => rfl
  case answers =>
    exact ⟨hit_answers fun _ _ => rfl, hit_answers fun _ _ => rfl, hit_answers fun _ _ => rfl⟩
  case dispatches =>
    intro id kind block t s1
    refine stepGives_runs (f := (dispatchShader · id kind)) (fun _ => rfl) fun s0
      ⟨hfind, hturn, hrays, hroot, hrun, hlow, hhigh, hblock, hplaced⟩ => ?_
    simp only [dispatchShader, hfind, hblock, hturn, List.isEmpty_eq_false_iff.2 hrays, hroot, hrun, hplaced,
      Nat.ne_of_gt hlow, Nat.not_lt.2 hhigh]
    rfl
  case completes =>
    intro id t g
    refine stepGives_runs (f := (completeTrav · id)) (fun _ => rfl) fun s0 ⟨hfind, hturn, hqueries, hg⟩ => ?_
    have hfinal : t.queries.any (fun y => y.phase != 3 || y.faulted) = false := List.any_eq_false.2 fun y hy => by
      simp [hqueries y hy]
    have hwritable : t.queries.find? (fun y => (recordFault (progress s0 id) t y).isSome) = none :=
      List.find?_eq_none.2 fun y hy => by simp [hqueries y hy]
    simp only [completeTrav, hfind, hturn, hfinal, hwritable, hg]
    rw [Option.isNone_some, Bool.and_false]
    rfl

end Sys2Proof.Machine
end

section
/-!
Collective operations: they begin, keep what the other members send or lose those that are late, and end (R404 to R408,
R411, R412).
-/
namespace Sys2Proof.Machine
open Sys2Proof Sys2Proof.Safety

/-! ### One element of a list is changed -/

section
variable {α : Type} {p : α → Bool} {l : List α} {a : α} (h : l.find? p = some a) (f : α → α)
include h

/-- Only what is found is changed. -/
theorem updFirst_const : updFirst p f l = updFirst p (fun _ => f a) l := by
  induction l with
  | nil => rfl
  | cons b l ih =>
    cases hb : p b with
    | true =>
      obtain rfl : b = a := by simpa [hb] using h
      simp [updFirst, hb]
    | false => simp [updFirst, hb, ih (by simpa [hb] using h)]

/-- What was found is found again, changed, where the change leaves the test as it was. -/
theorem find?_updFirst (hf : p (f a) = p a) : (updFirst p f l).find? p = some (f a) := by
  induction l with
  | nil => cases h
  | cons b l ih =>
    cases hb : p b with
    | true =>
      obtain rfl : b = a := by simpa [hb] using h
      simp [updFirst, hb, hf]
    | false => simp [updFirst, hb, ih (by simpa [hb] using h)]
end

/-- In a list of operations without equal numbers each is found by its number. -/
theorem collGet_of_mem {s : State} {o : CollOp} (hids : (s.colls.map (·.id)).Nodup) (ho : o ∈ s.colls) :
    collGet s o.id = some o := by
  rw [collGet]
  generalize s.colls = l at hids ho
  induction l with
  | nil => cases ho
  | cons k l ih =>
    obtain ⟨hk, hl⟩ := List.nodup_cons.1 (List.map_cons ▸ hids)
    rcases List.mem_cons.1 ho with rfl | ho
    · simp
    · have hne : k.id ≠ o.id := fun h => hk (h ▸ List.mem_map_of_mem ho)
      rw [List.find?_cons_of_neg (by simpa using hne), ih hl ho]

theorem modColl_const {s : State} {id : Nat} {o : CollOp} (h : collGet s id = some o) (f : CollOp → CollOp) :
    modColl s id f = modColl s id (fun _ => f o) := by
  rw [modColl, modColl, updFirst_const h]

theorem collGet_modColl {s : State} {id : Nat} {o : CollOp} (h : collGet s id = some o) {f : CollOp → CollOp}
    (hf : (f o).id = o.id) : collGet (modColl s id f) id = some (f o) :=
  find?_updFirst h f (by rw [hf])

/-! ### The issuing group is changed -/

theorem onGroup_congr {s : State} {c : Iss} (hg : mget s.groups c.gid = some c.g) {f f' : Group → Group} (hf : f c.g = f' c.g) :
    onGroup s c f = onGroup s c f' := by
  rw [onGroup, onGroup, modGroup, modGroup, mmod_of_mget hg, mmod_of_mget hg, hf]

/-! ### A member is lost (R407) -/

/-- What the members that are not lost are told of a lost set. -/
def lostSetMessages (o : CollOp) : List Sent :=
  ((otherMembers o).filter (fun m => !o.lost.contains m)).map (fun m =>
    .lostSet (collMember o m).pod (collMember o m).accid (collKeyOf o) o.self o.lost)

/-- Where the operation's group is resident, the loss of a member changes the operation, the group's tag and what is sent. -/
theorem loseMember_of_resident {s : State} {o : CollOp} {g : Group} (hg : mget s.groups o.gid = some g) (m : Nat) :
    loseMember s o m = { modColl s o.id (fun k => { k with lost := insertNat o.lost m }) with
      sent := s.sent ++ lostSetMessages { o with lost := insertNat o.lost m }
      groups := mput s.groups o.gid { g with tags := mmod g.tags o.tag (fun t => { t with
        st := 1, status := runningStatus { o with lost := insertNat o.lost m } }) } } := by
  simp only [loseMember, setTag, modColl, hg, Option.isSome_some, if_true, modGroup, mmod_of_mget hg]
  rfl

/-- Settles O50: the instructions and the steps are one branch of their functions each, the operation of a chunk is found by its
number too, and a loss is that of `loseMember_of_resident`. -/
theorem collectivesBeginAndEnd : Obligations.CollectivesBeginAndEnd := by
  unfold Obligations.CollectivesBeginAndEnd
  refine ⟨?begins, ?arrives, ?timesOut, ?loses, ?ends⟩
  case begins =>
    intro begins
    have begin {i : Enc → Instr} {op : Op} {minor : Nat} (hi : ∀ x s, exec (i x) s = issue op x s (issueColl minor)) :
        begins i op minor := by
      intro o
      refine gives_runs hi fun s c
        ⟨hsame, htag, hfew, hready, hrelease, hpeers, hturn, hfault, hreason, hnew, hroom⟩ => ?_
      have hsame : operandDiffers c c.x.a = false := hsame
      simp only [issueColl, fresh, hsame, htag, Nat.not_le.2 hfew, hready, hrelease, hpeers, hturn,
        hreason, hnew, Nat.not_lt.2 hroom]
      rfl
    refine ⟨begin fun _ _ => rfl, begin fun _ _ => rfl, begin fun _ _ => rfl, begin fun _ _ => rfl, ?status, ?idle, ?ended⟩
    case status =>
      exact writesScalar_runs (fun _ _ => rfl) fun s x c h _ => congrArg (advance · c) (onGroup_congr h.group rfl)
    case idle =>
      refine writesScalar_runs (fun _ _ => rfl) fun s x c _ ⟨_, htag⟩ => ?_
      simp only [htag]
    case ended =>
      refine fun t => gives_runs (fun _ _ => rfl) fun s c ⟨htag, hended⟩ => ?_
      simp only [htag, hended]
      rfl
  case arrives =>
    intro p m chunk key data poisoned o here
    have hself {s : State} : here s → collGet s o.id = some o := fun ⟨hfind, hids, _⟩ =>
      collGet_of_mem hids (List.mem_of_find?_eq_some hfind)
    have hadmits {s : State} (h : here s) :
        (decide (m = o.self) || decide (o.members.length ≤ m) || o.lost.contains m || o.ending) = false := by
      obtain ⟨-, -, hother, hmember, hlost, hending⟩ := h
      simp [hother, hmember, hlost, hending]
    have hintime {s : State} (h : arrived o m = true ∨ collLate s o m = false) : (!arrived o m && collLate s o m) = false := by
      rcases h with h | h <;> simp [h]
    refine ⟨?keeps, ?differs, ?late⟩
    case keeps =>
      refine stepGives_runs (fun _ => rfl) fun s ⟨hhere, htime, hkey, hsize, hfits⟩ => ?_
      have hfirst : (o.read && (mget o.heard m).isNone) = true ↔ o.read = true ∧ mget o.heard m = none := by simp
      simp only [hhere.1, hadmits hhere, hintime htime, hkey, modColl_const (hself hhere), bne_self_eq_false,
        Nat.not_lt.2 hsize, Nat.not_lt.2 hfits, hfirst, Bool.false_eq_true, if_false, decide_false, Bool.or_self]
    case differs =>
      refine stepGives_runs (fun _ => rfl) fun s ⟨hhere, htime, hkey⟩ => ?_
      simp only [hhere.1, hadmits hhere, hintime htime, bne_iff_ne.2 hkey, Bool.false_eq_true, if_false, if_true]
      exact modColl_const (hself hhere) _
    case late =>
      refine stepGives_runs (fun _ => rfl) fun s ⟨hhere, harrived, hlate⟩ => ?_
      simp only [hhere.1, hadmits hhere, harrived, hlate]
      rfl
  case timesOut =>
    intro id m o
    refine stepGives_runs (fun _ => rfl) fun s ⟨ho, hself, hmember, hending, harrived, hlost, hlate⟩ => ?_
    have hlate : collLate s o m = true := decide_eq_true hlate
    have hlost : o.lost.contains m = false := Bool.eq_false_iff.2 (mt List.contains_iff_mem.1 hlost)
    simp only [ho, hself, Nat.not_le.2 hmember, hending, harrived, hlost, hlate]
    rfl
  case loses =>
    intro s o m k g t hk hids hg ht lost known s'
    have hs' : s' = _ := loseMember_of_resident hg m
    rw [hs']
    refine ⟨collGet_modColl hk rfl, rfl, ⟨_, by rw [mget_mput, if_pos rfl], ?tag⟩, fun gid hgid => ?group, rfl, rfl⟩
    case tag => rw [mget_mmod, if_pos rfl, ht, Option.map_some]
    case group => rw [mget_mput, if_neg (Ne.symm hgid)]
  case ends =>
    intro id lost o all
    refine stepGives_runs (fun _ => rfl) fun s ⟨ho, hending, hturn, hover⟩ => ?_
    have hover : ((List.range o.members.length).all (fun m => all.contains m || (if m = o.self then o.read else arrived o m)) ||
        o.mismatch || all.contains o.self) = true := by
      rcases hover with h | h | h
      · simp [h]
      · simp [h]
      · have hwhole : (List.range o.members.length).all (fun m =>
            all.contains m || (if m = o.self then o.read else arrived o m)) = true := List.all_eq_true.2 fun m hm => by
          simpa [apply_ite (· = true)] using h m (List.mem_range.1 hm)
        rw [hwhole, Bool.true_or, Bool.true_or]
    simp only [all] at hover
    simp only [ho, hending, hturn, hover]
    rfl

end Sys2Proof.Machine
end

section
/-!
What comes over UALink (R133, R399, R400) and over Ethernet (R394 to R396).
-/
namespace Sys2Proof.Machine
open Sys2Proof Sys2Proof.Safety

/-! ### Memory requests of a peer (R399) -/

/-- What partition `p`, which owns the first byte of a peer's request, asks of it: its length, that it owns the last byte too, an
entry of the peer list and, of an atomic, a row of Table 13.6. -/
def PeerAdmitted (s : State) (src : BitVec 10) (kind p pa : Nat) (data : List (BitVec 8)) : Prop :=
  data.length ≠ 0 ∧ data.length ≤ 256 ∧ ownerOf s (pa + data.length - 1) = some p ∧
    peerAdmits s p src (fun e => e.getLsbD 25) = true ∧ (2 ≤ kind → peerAtomicOk kind pa data = true)

/-- The test of the step is that. -/
theorem peerRefused_iff (s : State) (src : BitVec 10) (kind p pa : Nat) (data : List (BitVec 8)) :
    (data.length = 0 || 256 < data.length || ownerOf s (pa + data.length - 1) ≠ some p ||
      !peerAdmits s p src (fun e => e.getLsbD 25) || (2 ≤ kind && !peerAtomicOk kind pa data) : Bool) = true ↔
    ¬ PeerAdmitted s src kind p pa data := by
  simp only [PeerAdmitted, Bool.or_eq_true, Bool.and_eq_true, decide_eq_true_eq, Bool.not_eq_true', Bool.eq_false_iff, ne_eq,
    not_and_or, Classical.not_imp, Nat.not_le, Decidable.not_not, or_assoc]

/-! ### Steps of the Ethernet port (R394 to R396) -/

/-- A step of the Ethernet port gives what its function answers, where the port is ready and a request of it has its turn. -/
theorem ethStep_gives {i : Instr} {p : Nat} {pre : State → Prop} {f next : State → State}
    (hi : ∀ s, exec i s = stepEvent s (fun s => if !ethReady s || !engineTurn s p 5 then s else f s))
    (hf : ∀ s, pre s → f s = next s) :
    StepGives i (fun s => ethReady s = true ∧ engineTurn s p 5 = true ∧ pre s) next := by
  refine stepGives_runs hi fun s ⟨hready, hturn, hpre⟩ => ?_
  rw [hready, hturn, ← hf s hpre]
  rfl

/-- Settles O56: each step is one branch of its function, which the checks of the request choose; a peer's are `PeerAdmitted`, and
the steps of the Ethernet port share the wait for their turn. -/
theorem fabricSteps : Obligations.FabricSteps := by
  unfold Obligations.FabricSteps
  refine ⟨⟨?request, ?append, ?retry, ?error⟩, ?write, ?read, ?datagram, ?unsupported⟩
  case request =>
    intro src kind p a data admitted
    refine ⟨?performed, ?refused, ?unowned⟩
    case performed =>
      refine stepGives_runs (fun _ => rfl) fun s ⟨howner, hadmitted, hturn⟩ => ?_
      have hadmits := Bool.eq_false_iff.2 (mt (peerRefused_iff s src kind p a.toNat data).1 (not_not_intro hadmitted))
      simp only [howner, hadmits, hturn]
      rfl
    case refused =>
      refine stepGives_runs (fun _ => rfl) fun s ⟨howner, hrefused⟩ => ?_
      simp only [howner]
      exact if_pos ((peerRefused_iff s src kind p a.toNat data).2 hrefused)
    case unowned =>
      refine stepGives_runs (fun _ => rfl) fun s howner => ?_
      simp only [howner]
  case append =>
    intro src p q data t b n tail at_
    refine stepGives_runs (fun _ => rfl) fun s ⟨hlow, hhigh, hwhole, hturn, hadmitted, hread, hroom, henabled, hreach⟩ => ?_
    have hreached : (List.range (n / 16)).any (fun k => !(reachRuns s (queueAcc p (queueOf s p q)) (at_ s k) 16 .w).isOk) = false :=
      List.any_eq_false.2 fun k hk => by simp [hreach k (List.mem_range.1 hk)]
    simp only [n, tail, at_] at hlow hhigh hwhole hroom hreached
    simp only [Nat.not_lt.2 hlow, Nat.not_lt.2 hhigh, hwhole, hturn, hadmitted, hread, Nat.not_lt.2 hroom, henabled, hreached]
    rfl
  case retry =>
    exact fun port flit => stepGives_runs (fun _ => rfl) fun _ _ => rfl
  case error =>
    intro r u off found
    refine ⟨?store, ?load, fun q => ?atomic⟩
    case store =>
      refine stepGives_runs (f := (errorResponse · r)) (fun _ => rfl) fun s ⟨hfound, hkind, hwaits⟩ => ?_
      simp only [found] at hfound
      simp only [errorResponse, hfound, hkind, hwaits]
      rfl
    case load =>
      refine stepGives_runs (f := (errorResponse · r)) (fun _ => rfl) fun s ⟨hfound, hkind⟩ => ?_
      simp only [found] at hfound
      simp only [errorResponse, hfound, hkind]
      rfl
    case atomic =>
      refine stepGives_runs (f := (errorResponse · r)) (fun _ => rfl) fun s ⟨hfound, hkind, hreq⟩ => ?_
      simp only [found] at hfound
      simp only [errorResponse, hfound, hkind, hreq]
      rfl
  case write =>
    refine fun p ctx key a data => ⟨ethStep_gives (fun _ => rfl) fun s ⟨hctx, hreach⟩ => ?granted,
      ethStep_gives (fun _ => rfl) fun s hctx => ?refused⟩
    case granted => simp only [hctx, hreach, Option.isSome_none, Bool.false_eq_true, if_false]
    case refused => simp only [hctx]
  case read =>
    refine fun p ctx n key a => ⟨ethStep_gives (fun _ => rfl) fun s ⟨hctx, hreach, hsound⟩ => ?granted,
      ethStep_gives (fun _ => rfl) fun s hctx => ?refused⟩
    case granted =>
      have hgood : (bufferRead s (hostAcc p ctx) a n).any (·.2) = false := List.any_eq_false.2 fun b hb => by simp [hsound b hb]
      simp only [hctx, hreach, hgood, Option.isSome_none, Bool.or_self, Bool.false_eq_true, if_false]
    case refused => simp only [hctx]
  case datagram =>
    refine fun p n qpn data => ⟨ethStep_gives (fun _ => rfl) fun s hring => ?lands,
      ethStep_gives (fun _ => rfl) fun s hring => ?dropped⟩
    case lands => simp only [hring]
    case dropped => simp only [hring]
  case unsupported =>
    exact stepGives_runs (fun _ => rfl) fun _ _ => rfl

end Sys2Proof.Machine
end

section
/-!
The registers of the management window and the queues' descriptors take the writable bits of what is written (R418, R419,
R422; Tables 19.7, 25.3, 27.2 to 27.4).
-/
namespace Sys2Proof.Machine
open Sys2Proof Sys2Proof.Safety

/-! ### Where a write of a register goes -/

section
variable (s : State) (p : Nat) {off : Nat} (v : BitVec 64)

/-- The entries of the peer list lie from 0x81000 (Table 25.3). -/
theorem writeRegister_peerAcl (hlo : 0x81000 ≤ off) (hhi : off < 0x81000 + 0x800) : writeRegister s p off v =
    modPart s p (fun q => { q with peerAcl := sput q.peerAcl ((off - 0x81000) / 8) (v &&& 0x80000000FBFFE3FF#64) }) := by
  simp (disch := omega) only [writeRegister, Bool.and_eq_true, decide_eq_true_eq, if_pos, if_neg]

/-- The words of the RDMA keys lie from 0x84000 (Table 25.3). -/
theorem writeRegister_rdmaKey (hlo : 0x84000 ≤ off) (hhi : off < 0x84000 + 0x800) : writeRegister s p off v =
    modPart s p (fun q => { q with
      rdmaKey := sput q.rdmaKey ((off - 0x84000) / 8) (v &&& keyMask ((off - 0x84000) / 8 % 4)) }) := by
  simp (disch := omega) only [writeRegister, Bool.and_eq_true, decide_eq_true_eq, if_pos, if_neg]

/-- The words of the contexts lie from 0xC2000, eight to a context, of which five hold fields (Table 27.4). -/
theorem writeRegister_ctx (hlo : 0xC2000 ≤ off) (hhi : off < 0xC2000 + 0x400) (hword : (off - 0xC2000) / 8 % 8 < 5) :
    writeRegister s p off v = modPart s p (fun q => { q with
      ctx := sput q.ctx (8 * ((off - 0xC2000) / 64) + (off - 0xC2000) / 8 % 8) (v &&& ctxMask ((off - 0xC2000) / 8 % 8)) }) := by
  have hw : off / 8 % 8 = (off - 0xC2000) / 8 % 8 := by omega
  simp (disch := omega) only [writeRegister, Bool.and_eq_true, decide_eq_true_eq, if_pos, if_neg, hw]

theorem writeRegister_readOnly (h : off ∈ [0xC0000, 0xC0010, 0xC0018, 0xC0058, 0xC0060] ∨ (0xC0100 ≤ off ∧ off < 0xC0188)) :
    writeRegister s p off v = s := by
  have hrange : 0xC0000 ≤ off ∧ off < 0xC1000 ∧ off ≠ 0xC0020 ∧ off ≠ 0xC0048 := by
    simp only [List.mem_cons, List.not_mem_nil, or_false] at h
    omega
  simp (disch := omega) only [writeRegister, Bool.and_eq_true, decide_eq_true_eq, if_neg]
end

/-- A write of a register in its turn gives its partition what the register's write makes of it. -/
theorem registerWrite_gives {p off : Nat} {v : BitVec 64} {q q' : Partition}
    (h : ∀ s, partOf s p = q → writeRegister s p off v = modPart s p (fun _ => q')) : StepGives (.registerWrite p off v)
      (fun s => partOf s p = q ∧ q.windowWaiting = []) (fun s => { s with parts := mput s.parts p q' }) :=
  windowStep_gives (fun _ => rfl) fun s ⟨hq, horder⟩ => ⟨hq ▸ horder, h s hq⟩

/-- The same of a register that no other one lies beside in its table. -/
theorem registerWrite_gives_at {p lo off : Nat} {v : BitVec 64} {q q' : Partition} (hlo : lo ≤ off) (hhi : off < lo + 1)
    (h : ∀ s, partOf s p = q → writeRegister s p lo v = modPart s p (fun _ => q')) : StepGives (.registerWrite p off v)
      (fun s => partOf s p = q ∧ q.windowWaiting = []) (fun s => { s with parts := mput s.parts p q' }) := by
  obtain rfl : off = lo := by omega
  exact registerWrite_gives h

/-! ### A write of a queue's descriptor (R422) -/

theorem modQueue_congr {s : State} {p k : Nat} {f f' : Queue → Queue} (h : f (queueOf s p k) = f' (queueOf s p k)) :
    modQueue s p k f = modQueue s p k f' := by
  have h : f (mgetD (partOf s p).queues k {}) = f' (mgetD (partOf s p).queues k {}) := h
  rw [modQueue, modQueue, modPart, modPart, h]

/-- What a write of a word makes of a queue's descriptor. -/
def queueWritten (word : Nat) (v : BitVec 64) (u : Queue) : Queue :=
  if word = 1 then { u with w1 := if queueEnabled u then maskWrite (1#64 <<< 63) u.w1 v else v &&& 0x80000000000F031F#64 }
  else if queueEnabled u then u
  else
    match word with
    | 0 => { u with w0 := v }
    | 2 => { u with w2 := v }
    | 3 => { u with w3 := v }
    | _ => u

theorem writeQueueDescriptor_eq (s : State) (p k word : Nat) (v : BitVec 64) :
    writeQueueDescriptor s p k word v = modQueue s p k (queueWritten word v) := rfl

/-- A write of a queue's descriptor in its turn gives what `queueWritten` says. -/
theorem queueWrite_gives {p k word : Nat} {v : BitVec 64} {u u' : Queue} {cond : Prop} (h : cond → queueWritten word v u = u') :
    StepGives (.queueDescriptorWrite p k word v)
      (fun s => (queueOf s p k = u ∧ (partOf s p).windowWaiting = []) ∧ cond) (fun s => modQueue s p k (fun _ => u')) :=
  windowStep_gives (fun _ => rfl) fun s ⟨⟨hu, horder⟩, hcond⟩ => ⟨horder, by
    rw [writeQueueDescriptor_eq]
    exact modQueue_congr (by rw [hu, h hcond])⟩

/-- Settles O57: a range's registers are found by their place, and the words of a queue's descriptor are those of
`queueWritten`. -/
theorem windowRegisterWrites : Obligations.WindowRegisterWrites := by
  unfold Obligations.WindowRegisterWrites
  intro p off v q sets
  refine ⟨?auditCtl, ?auditLog, ?auditCap, ?journal, ?testPeriod, ?rhCtl, ?collCtl, fun hlo hhi => ?peerAcl,
    fun hlo hhi => ?rdmaKey, ?tlbiVa, ?frCtl, fun hword hlo hhi => ?ctx, ?readOnly, ?waits, ?queues⟩
  case auditCtl | auditLog | auditCap | journal | testPeriod | rhCtl | collCtl | tlbiVa | frCtl =>
    exact fun hlo hhi => registerWrite_gives_at hlo hhi fun s hq => hq ▸ rfl
  case peerAcl => exact registerWrite_gives fun s hq => hq ▸ writeRegister_peerAcl s p v hlo hhi
  case rdmaKey => exact registerWrite_gives fun s hq => hq ▸ writeRegister_rdmaKey s p v hlo hhi
  case ctx => exact registerWrite_gives fun s hq => hq ▸ writeRegister_ctx s p v hlo hhi hword
  case readOnly =>
    exact fun h => windowStep_gives (fun _ => rfl) fun s horder => ⟨horder, writeRegister_readOnly s p v h⟩
  case waits =>
    refine stepGives_runs (fun _ => rfl) fun s hwaits => ?_
    rw [inTurn, List.isEmpty_eq_false_iff.2 hwaits]
    rfl
  case queues =>
    intro k word u pre
    refine ⟨queueWrite_gives ?enable, queueWrite_gives ?control, queueWrite_gives ?base, queueWrite_gives ?tail,
      queueWrite_gives ?status, queueWrite_gives ?enabled⟩
    case enable =>
      rintro ⟨rfl, henabled⟩
      simp only [queueWritten, maskWrite, henabled, if_true]
    case control =>
      rintro ⟨rfl, hdisabled⟩
      simp only [queueWritten, hdisabled, Bool.false_eq_true, if_true, if_false]
    case base =>
      rintro ⟨rfl, hdisabled⟩
      simp only [queueWritten, hdisabled, Nat.zero_ne_one, Bool.false_eq_true, if_false]
    case tail =>
      rintro ⟨rfl, hdisabled⟩
      simp only [queueWritten, hdisabled, Bool.false_eq_true, if_false]
      rfl
    case status =>
      rintro ⟨rfl, hdisabled⟩
      simp only [queueWritten, hdisabled, Bool.false_eq_true, if_false]
      rfl
    case enabled =>
      rintro ⟨hword, henabled⟩
      simp only [queueWritten, hword, henabled, if_true, if_false]

end Sys2Proof.Machine
end

section
/-!
A layout against the clause of O59 on the zeros of a new half-stack. The clause asks that every byte of a half-stack that comes to
the partition, below its top 256 MiB, is zero once the layout has taken effect, and says so of every state. The step fills the
half-stack, and then starts Sageip: it writes the tables of context 0 in the top 256 MiB, and a write at home fires the monitors
on its lines, those of cloaks too, whose fired bits lie in the cloak (R239, R241, Table 15.7). A state that still lists the monitor
of a cloak in that half-stack, armed on a line of the tables, then has such a bit set below the top 256 MiB. No partition owned the
half-stack in that state, but the clause does not exclude it.
-/
namespace Sys2Proof.Machine
open Sys2Proof

/-! ### The state and the layout -/

/-- The header of an overlay 0xFFF of one body word, with the check of the zero word (Table 9.2). -/
def sageHeader : Word := BitVec.ofNat 128 (0x3F * 2 ^ 122 + 2 ^ 112 + 0xFFF * 2 ^ 42 + 0x42709AEA)

/-- A bank with an image that Sageip starts from: descriptor, header, body word, and a vector word without vectors. -/
def sageBank : FwBank :=
  { image := [0x4F564C59 * 2 ^ 96 + 0xFFF * 2 ^ 84 + 2 * 2 ^ 71, sageHeader.toNat, 0, 0x56454354 * 2 ^ 96].flatMap (leBytes 16)
    version := 0 }

/-- Cluster 0, slice group 0 and half-stack 0. -/
def smallLayout : Layout := { clusters := 1, sliceGroups := 1, halfStacks := 1, eth := 0, ual := 0 }

/-- Where table `i` of context 0 lies under that layout. -/
def tableAt (i : Nat) : Nat := 2 ^ 35 - 2 ^ 28 + 8192 * (Config.sageTables 0 % 32765 + i)

theorem lt_tableAt (i : Nat) : 19 < tableAt i := by
  rw [tableAt]
  omega

theorem tableAt_zero_local : isRemote (tableAt 0) = false := by
  have hslot : Config.sageTables 0 % 32765 < 32765 := Nat.mod_lt _ (by decide)
  refine decide_eq_false (Nat.not_le.2 ?_)
  rw [tableAt, remoteBit]
  omega

/-- A monitor of a cloak at address 0, on the first line of the first table. -/
def cloakMonitor : CloakMon := { part := 1, ctx := 0, serial := 0, cloak := 0, mon := 0, line := tableAt 0 / 128 }

/-- The package after reset with that bank, cluster 0 ready, and the monitor. -/
def beforeLayout : State :=
  { State.reset with
    ready := sput State.reset.ready 6 (bitMask 32), mantle := { State.reset.mantle with bankA := sageBank }
    cloakMons := [cloakMonitor] }

/-- The layout of a partition that has owned nothing is published, and Sageip has not started. -/
def publishedLayout (s : State) (p : Nat) (l : Layout) : State :=
  let q := partOf s p
  let s3 := (bitsOf (l.halfStacks &&& ~~~ q.halfStacks)).foldl zeroHalfStack (l2WriteBackAll s p true)
  let s4 := (coresIn (q.clusters ||| l.clusters)).foldl (fun st c => modCore st c (fun k => { k with tlb := [] })) s3
  let s5 := (bitsOf (q.clusters ||| l.clusters)).foldl (fun st k => modCluster st k (fun c => { c with tlb := [], job := none })) s4
  modPart (clearUnits s5 (q.clusters &&& ~~~ l.clusters) (q.sliceGroups &&& ~~~ l.sliceGroups)
    (q.halfStacks &&& ~~~ l.halfStacks)) p (fun q => { q with
      clusters := l.clusters, sliceGroups := l.sliceGroups, halfStacks := l.halfStacks, ethShare := l.eth
      ualShare := l.ual })

theorem applyLayout_of_unowned {s : State} {p : Nat} {l : Layout} (h : (partOf s p).clusters = 0) (hl : l.isEmpty = false) :
    applyLayout s p l = startSageip (publishedLayout s p l) p := by
  simp only [applyLayout, h, hl, publishedLayout, if_true, Bool.false_eq_true, if_false]

/-- Mantle admits the layout. -/
theorem layoutOk_smallLayout : layoutOk beforeLayout 0 smallLayout = true := by decide

/-! ### Sageip starts -/

theorem logEvent_mem (s : State) (kind : String) (args : List Nat) : (logEvent s kind args).mem = s.mem := rfl

theorem freshSerial_mem (s : State) (p : Nat) : (freshSerial s p).2.mem = s.mem := rfl

theorem placed_mem (s : State) (teams : Amap Team) (groups : Amap Group) (tid gid : Nat) :
    ({ s with teams, nextTid := tid, nextGid := gid, groups } : State).mem = s.mem := rfl

/-- Of memory Sageip's start changes its tables, and what their writes fire. -/
theorem startSageip_mem {s : State} {p : Nat} {img : Store 128 × Nat × Word} {core : Nat} {a b : Spot}
    (hclusters : (partOf s p).clusters ≠ 0) (hstopped : (partOf s p).state = 2) (hsage : hasSage s p = false)
    (himg : sageImage (activeBank s.mantle) = some img) (hcore : sageCore s p = some core)
    (hspots : sageSpots s p core = some (a, b)) : (startSageip s p).mem = (writeSageTables s p).mem := by
  unfold startSageip
  simp only [hclusters, hstopped, hsage, himg, hcore, hspots, ne_eq, not_true, decide_false, Bool.or_self, Bool.false_eq_true,
    if_false]
  rw [logEvent_mem, modPart_mem, placed_mem, freshSerial_mem, freshSerial_mem, modCore_mem]

/-- The package with the layout published. -/
def afterLayout : State := publishedLayout beforeLayout 0 smallLayout

theorem partOf_afterLayout : (partOf afterLayout 0).clusters = 1 ∧ (partOf afterLayout 0).state = 2 ∧
    sageBase afterLayout 0 = 2 ^ 35 - 2 ^ 28 := by
  decide

theorem startSageip_afterLayout_mem : (startSageip afterLayout 0).mem = (writeSageTables afterLayout 0).mem := by
  obtain ⟨hclusters, hstopped, -⟩ := partOf_afterLayout
  obtain ⟨img, himg⟩ : ∃ img, sageImage sageBank = some img := Option.isSome_iff_exists.1 (by decide +kernel)
  obtain ⟨⟨a, b⟩, hspots⟩ : ∃ ab, sageSpots afterLayout 0 0 = some ab := Option.isSome_iff_exists.1 (by decide)
  exact startSageip_mem (by rw [hclusters]; decide) hstopped (by decide) himg (by decide) hspots

/-! ### The monitor fires -/

/-- The cloak's monitor is listed, and its fired bit is set. -/
def MonitorFired (s : State) : Prop := s.cloakMons = [cloakMonitor] ∧ (sget s.mem 19).getLsbD 4 = true

theorem fireLine_cloakMonitor {s : State} (h : s.cloakMons = [cloakMonitor]) (line : Nat) :
    (fireLine s line).cloakMons = [cloakMonitor] ∧ (fireLine s line).mem =
      if cloakMonitor.line = line then sput s.mem 19 (sget s.mem 19 ||| 0x10) else s.mem := by
  have hlocal : isRemote cloakMonitor.cloak.toNat = false := by decide
  have hremote : s.cloakMons.filter (fun k => k.line == line && isRemote k.cloak.toNat) = [] := by simp [h, hlocal]
  rw [fireLine, hremote]
  refine ⟨h, ?_⟩
  simp only [h, List.foldl_cons, List.foldl_nil, hlocal]
  by_cases hline : cloakMonitor.line = line
  · simp only [hline]
    rfl
  · simp [hline]

theorem fireLine_fires {s : State} (h : s.cloakMons = [cloakMonitor]) : MonitorFired (fireLine s cloakMonitor.line) := by
  obtain ⟨hmons, hmem⟩ := fireLine_cloakMonitor h cloakMonitor.line
  refine ⟨hmons, ?_⟩
  rw [hmem, if_pos rfl, sget_sput, if_pos rfl]
  simp

theorem fireLine_keeps {s : State} (h : MonitorFired s) (line : Nat) : MonitorFired (fireLine s line) := by
  obtain ⟨hmons, hbit⟩ := h
  by_cases hline : cloakMonitor.line = line
  · exact hline ▸ fireLine_fires hmons
  · obtain ⟨hmons', hmem⟩ := fireLine_cloakMonitor hmons line
    exact ⟨hmons', by rw [hmem, if_neg hline, hbit]⟩

/-- A write above the cloak's bytes leaves the fired bit set. -/
theorem writeHome_keeps {s : State} (h : MonitorFired s) {pa : Nat} (hpa : 19 < pa) (bs : List (BitVec 8)) :
    MonitorFired (writeHome s pa bs) := by
  obtain ⟨hmons, hbit⟩ := h
  rw [writeHome]
  split
  · exact ⟨hmons, hbit⟩
  · refine foldl_keeps MonitorFired _ _ _ ⟨hmons, ?_⟩ fun t line _ ht => fireLine_keeps ht line
    rw [sget_putBytes, if_neg (by omega), hbit]

/-- A write of the monitor's line sets it. -/
theorem writeHome_fires {s : State} (h : s.cloakMons = [cloakMonitor]) {pa : Nat} (hlocal : isRemote pa = false)
    (hline : pa / 128 = cloakMonitor.line) {bs : List (BitVec 8)} (hbs : bs.length ≠ 0) : MonitorFired (writeHome s pa bs) := by
  obtain ⟨lines, hlines⟩ : ∃ lines, linesOf pa bs.length = cloakMonitor.line :: lines :=
    ⟨_, by rw [linesOf, if_neg hbs, List.range_succ_eq_map, List.map_cons, Nat.add_zero, hline]⟩
  rw [writeHome, hlocal, hlines]
  exact foldl_keeps MonitorFired _ lines _ (fireLine_fires h) fun t line _ ht => fireLine_keeps ht line

theorem writeEntries_keeps {s : State} (h : MonitorFired s) {pa : Nat} (hpa : 19 < pa) (es : List (Nat × Nat)) :
    MonitorFired (es.foldl (fun st e => writeHome st (pa + 8 * e.1) (leBytes 8 e.2)) s) :=
  foldl_keeps MonitorFired _ _ _ h fun _ e _ ht => writeHome_keeps ht (by omega) _

theorem writeTable_keeps {s : State} (h : MonitorFired s) {pa : Nat} (hpa : 19 < pa) (es : List (Nat × Nat)) :
    MonitorFired (writeTable s pa es) :=
  writeEntries_keeps (writeHome_keeps h hpa _) hpa es

/-- The first table lies on the monitor's line. -/
theorem writeTable_fires {s : State} (h : s.cloakMons = [cloakMonitor]) (es : List (Nat × Nat)) :
    MonitorFired (writeTable s (tableAt 0) es) :=
  writeEntries_keeps (writeHome_fires h tableAt_zero_local rfl (by rw [List.length_replicate]; decide)) (lt_tableAt 0) es

/-- After the tables of context 0 are written the cloak's fired bit is set, below the top 256 MiB. -/
theorem writeSageTables_fires : (sget (writeSageTables afterLayout 0).mem 19).getLsbD 4 = true := by
  obtain ⟨-, -, hbase⟩ := partOf_afterLayout
  rw [writeSageTables, modPart_mem, hbase]
  have hfirst := writeTable_fires (s := afterLayout) rfl
  exact (writeTable_keeps (writeTable_keeps (writeTable_keeps (hfirst _) (lt_tableAt 1) _) (lt_tableAt 2) _) (lt_tableAt 3) _).2

/-- Refutes O59: after `smallLayout` takes effect in `beforeLayout`, byte 19 of the new half-stack 0 holds the fired bit of
`cloakMonitor`, which the tables of context 0 set. -/
theorem not_mantleCommands : ¬ Obligations.MantleCommands := by
  unfold Obligations.MantleCommands
  rintro ⟨-, applied, -⟩
  obtain ⟨-, -, -, zeros⟩ := applied beforeLayout 0 smallLayout
  have hzero := zeros 0 19 (by decide) (by decide) (by decide) (by decide)
  have hfired := writeSageTables_fires
  rw [applyLayout_of_unowned (by decide) (by decide)] at hzero
  rw [← startSageip_afterLayout_mem, afterLayout, hzero] at hfired
  cases hfired

end Sys2Proof.Machine
end

section
/-!
Power, clock and readiness: the clock's steps, the loss of power and the reset that ends it, and READY bits (R428, R430 to R432).
-/
namespace Sys2Proof.Machine
open Sys2Proof Sys2Proof.Safety

theorem powered_noPower {s : State} (h : s.mantle.powered = false) (t : State) : powered s t = .fault .noPower := by
  rw [powered, h]
  rfl

/-- Whatever an instruction computes, it answers only with power. -/
theorem exec_ofOp_eq_powered (s : State) (op : Op) (x : Enc) : ∃ t, exec (Instr.ofOp x op) s = powered s t := by
  cases op <;> exact ⟨_, rfl⟩

/-! ### Reset (R428) -/

/-- The bank that is to be active at the next reset: true is B. -/
def wantedBank (s : State) : Bool := s.mantle.activeB != s.mantle.marked

/-- The bank that boots, where `a` and `b` say whether A and B do: the wanted one, or the other. -/
def bootedBank (s : State) (a b : Bool) : Bool :=
  if (if wantedBank s then b else a) then wantedBank s else !wantedBank s

/-- The state after a reset that boots `bootedBank`. -/
def bootedState (s : State) (a b : Bool) : State :=
  { State.reset with
    draws := s.draws, agenda := s.agenda, turn := s.turn, phase := s.phase
    mantle := { State.reset.mantle with
      log := s.mantle.log, logNext := s.mantle.logNext, bankA := s.mantle.bankA, bankB := s.mantle.bankB
      minVersion := s.mantle.minVersion, seq := s.mantle.seq, pod := s.mantle.pod, accid := s.mantle.accid
      activeB := bootedBank s a b, staged := s.mantle.staged && !s.mantle.marked
      powered := if bootedBank s a b then b else a } }

theorem exec_powerOnReset (s : State) (a b : Bool) : exec (.powerOnReset a b) s = .next (if bootedBank s a b = wantedBank s
    then bootedState s a b else logEvent (bootedState s a b) "FALL_BACK" [(bootedBank s a b).toNat]) := rfl

/-- A bank boots where either does. -/
theorem bootedState_powered (s : State) (a b : Bool) : (bootedState s a b).mantle.powered = (a || b) := by
  simp only [bootedState, bootedBank]
  by_cases h : wantedBank s = true <;> cases a <;> cases b <;> simp [h]

/-- Settles O60: the steps are one branch of their functions each, every instruction answers through `powered`, and a reset leaves
`bootedState`. -/
theorem powerClockAndReadiness : Obligations.PowerClockAndReadiness := by
  unfold Obligations.PowerClockAndReadiness
  refine ⟨?clock, ?overtemp, ?dark, ?reset, ?ready⟩
  case clock =>
    intro w temp line next
    refine ⟨stepGives_runs (fun _ => rfl) fun s hhot => ?falls, stepGives_runs (fun _ => rfl) fun s hcool => ?rises⟩
    case falls =>
      have hhot : (s.mantle.powerLimit < w || 100 ≤ temp || line : Bool) = true := by simpa [or_assoc] using hhot
      simp only [hhot, next, if_true]
    case rises =>
      have hcool : (s.mantle.powerLimit < w || 100 ≤ temp || line : Bool) = false := by
        obtain ⟨hwatts, htemp, hline⟩ := hcool
        simp [hwatts, htemp, hline]
      simp only [hcool, next, Bool.false_eq_true, if_false]
  case overtemp =>
    exact fun die s hpowered => ⟨_, powered_next hpowered, rfl, rfl, rfl⟩
  case dark =>
    intro s op x hdark
    obtain ⟨t, ht⟩ := exec_ofOp_eq_powered s op x
    rw [ht, powered_noPower hdark]
  case reset =>
    intro a b s
    refine ⟨_, exec_powerOnReset s a b, ?_⟩
    split
    all_goals exact ⟨bootedState_powered s a b, rfl, rfl, rfl, rfl, rfl, rfl, rfl⟩
  case ready =>
    intro word bit
    refine stepGives_runs (fun _ => rfl) fun s ⟨hword, hbit, hactive⟩ => ?_
    refine if_neg fun hbarred => ?_
    simp only [Bool.or_eq_true, Bool.and_eq_true, decide_eq_true_eq, Nat.not_le.2 hword, Nat.not_le.2 hbit, false_or] at hbarred
    obtain ⟨⟨hsix, hcluster⟩, hidle⟩ := hbarred
    obtain ⟨hsound, e, he, hrun⟩ := hactive hsix hcluster
    rcases hidle with hquarantined | hretired
    · rw [hsound] at hquarantined
      cases hquarantined
    · rw [List.all_eq_true.1 hretired e he] at hrun
      cases hrun

end Sys2Proof.Machine
end
